-- ==== Sys2Proof/Word.lean ====
section
/-! DEFINITION. The plainest types of the part: bytes of its two lines, sets of bays, rules and classes held as bit
maps (spec 00, 5.3), and the numbers of its objects. -/

namespace Sys2Proof

/-- A byte of a management frame or of a bay link frame. -/
abbrev Byte := BitVec 8

/-- A set of bays; bay `b` is a member when bit `b` is set (spec 00, 5.3). -/
abbrev BayMask := BitVec 64

/-- A set of admission rules; rule `r` is a member when bit `r` is set. -/
abbrev RuleSet := BitVec 32

/-- A set of vehicle classes 0 to 7. -/
abbrev ClassSet := BitVec 8

/-- A set of connector types CT0 to CT3. -/
abbrev ConnectorSet := BitVec 4

/-- A bay number, 0 to 63. -/
abbrev BayId := Fin 64

/-- A post address, 0 to 31. -/
abbrev PostId := Fin 32

/-- A feeder number, 0 to 7. -/
abbrev FeederId := Fin 8

/-- A pool slot, 0 to 191. -/
abbrev SlotId := Fin 192

/-- An admission rule number, 0 to 31. -/
abbrev RuleId := Fin 32

/-- A lane number, 0 to 7. -/
abbrev LaneId := Fin 8

/-- Every number below `n`, ascending. -/
def allBelow (n : Nat) : List (Fin n) := List.finRange n

end Sys2Proof
end

