-- ==== Sys2Proof/Syntax.lean ====
section
/-! DEFINITION. The commands of the part: one constructor for each row of spec/opcode_table.json.

A request row carries no operand: its fields are the bytes of the request frame at the head of the request queue,
which the row serves (R170, log 1). `at_` is the moment of the event on the crystal time base, in microseconds (log 2).
Numbers of slots, bays, posts, feeders and pins are plain numbers; WellFormed says which of them name an object. -/

namespace Sys2Proof

/-- One command that an agent or a block of the part raises. -/
inductive Instr where
  /-- POWER_ON (R48). Power-on reset: every table, the pool, the clock and the port take their power-on values. -/
  | powerOn
  /-- RST_N (R179). A low level on RST_N resets the part as at power-on, abandoning any frame in transmission. -/
  | rstN
  /-- FRAME_RECEIVED (R169). A complete management frame with a correct CRC-16 joins the request queue, or is answered BUSY, or is dropped when both queues are full. -/
  | frameReceived (tag : Byte) (kind : Byte) (payload : List Byte)
  /-- FRAME_GAP_TIMEOUT (R168). More than 10 ms between two bytes of a frame in reception drops the frame and returns the receiver to HUNTING. -/
  | frameGapTimeout (at_ : Nat)
  /-- UNKNOWN_KIND (R170). A served request whose KIND is not a request kind is answered UNKNOWN-KIND. -/
  | unknownKind
  /-- FRAME_SENT (R171). The last byte of the frame in transmission has been sent, and the transmitter chooses and begins the next frame by its source order. -/
  | frameSent
  /-- IDENTIFY (R173). Returns the part code, revision and capacities. -/
  | identify
  /-- STATUS (R173). Returns clock, pool counts, feeder states, post link states and queue counts. -/
  | status
  /-- RESET_PART_BOOK (R178). Frees every record without notice, clears limits, penalties, feeder flags and tallies, and keeps the configuration. -/
  | resetPartBook
  /-- RESET_PART_FULL (R179). Queues its reply OK and stops serving further requests until the reset is taken. -/
  | resetPartFull
  /-- FULL_RESET (R179). When the last byte of the RESET-PART FULL reply has been sent, every table takes its power-on values and the clock becomes UNSET. -/
  | fullReset
  /-- CLOCK_SET (R21). Sets the clock from UNSET, or steps a SET clock by at most 10 minutes, walking the minute events of a forward step. -/
  | clockSet
  /-- CLOCK_GET (R26). Returns the clock state, counts, minute-of-day and rollover values. -/
  | clockGet
  /-- PART_SET (R174). Stores all thirteen part settings after range and guard checks, and takes the effects of each changed setting. -/
  | partSet
  /-- PART_GET (R176). Returns the thirteen stored part settings. -/
  | partGet
  /-- BAY_SET (R3). Configures a bay or changes its binding, rating, feeder or connector type after range and conflict checks. -/
  | baySet
  /-- BAY_REMOVE (R3). BAY-SET with the configure flag clear removes a bay whose chain is empty. -/
  | bayRemove
  /-- BAY_GET (R4). Returns the bay snapshot. -/
  | bayGet
  /-- BAY_SERVICE_OUT (R5). Takes a bay out of service, ending its session when forced and relocating every non-engaged record on its chain. -/
  | bayServiceOut
  /-- BAY_SERVICE_IN (R6). Returns an OUT bay to service and retries the Waiting List. -/
  | bayServiceIn
  /-- FEEDER_SET (R13). Stores a feeder's configuration and enables, disables or updates it with the effects of each changed field. -/
  | feederSet
  /-- FEEDER_GET (R14). Returns the feeder's configuration part and status part. -/
  | feederGet
  /-- FEEDER_TRIM (R137). Stores a feeder's trim and recomputes the feeder within the request. -/
  | feederTrim
  /-- FEEDER_CLEAR (R148). Clears the named sticky flags of a feeder. -/
  | feederClear
  /-- POST_SET_IN_USE (R16). Declares a post address in use, and the post enters SEEKING. -/
  | postSetInUse
  /-- POST_SET_WITHDRAW (R16). Withdraws a post with no engaged bay, making it ABSENT, its bays DARK and cutting any open exchange. -/
  | postSetWithdraw
  /-- POST_GET (R17). Returns the post snapshot. -/
  | postGet
  /-- POST_FORCE_RESEEK (R165). Forces a post in use to SEEKING with its counters reset. -/
  | postForceReseek
  /-- POST_FORCE_ISOLATE (R165). Forces a post to ISOLATED with isolation cause HOST. -/
  | postForceIsolate
  /-- POST_FORCE_WAKE (R165). Wakes a post in STANDBY into WAKING. -/
  | postForceWake
  /-- RULE_WRITE (R55). Writes any subset of the four field groups of one admission rule after range and tally checks. -/
  | ruleWrite
  /-- RULE_READ (R56). Returns every field of a rule, its tally counter and its notice flag. -/
  | ruleRead
  /-- TALLY_CLEAR (R63). Sets the tally counter of one rule or of all rules to 0. -/
  | tallyClear
  /-- LANE_SET (R51). Stores a whole lane entry. -/
  | laneSet
  /-- LANE_GET (R52). Returns a lane entry. -/
  | laneGet
  /-- BOOK (R66). Checks, clamps, evaluates and places a booking, or enters it in the Waiting List or refuses it. -/
  | book
  /-- FIND_FREE (R79). Reports the mask of bays that can take a window without taking a record. -/
  | findFree
  /-- EXTEND (R81). Grants a record an extension limited by request, successor, length and concurrency, and pushes it on the stack. -/
  | extend
  /-- RETRACT (R84). Pops the newest extension, moves the window end back and retries the Waiting List. -/
  | retract
  /-- CANCEL (R45). Closes a non-engaged record CANCELLED by HOST. -/
  | cancel
  /-- RES_GET (R46). Returns the reservation snapshot of a live record. -/
  | resGet
  /-- WAIT_LIST_GET (R95). Returns the count and handles of the Waiting List in order. -/
  | waitListGet
  /-- ARRIVE (R103). Reports a driver's arrival at a bay, engaging the record or making it ARRIVING, possibly moving its start or its bay. -/
  | arrive
  /-- ARRIVE_WALKIN (R109). Creates a walk-in record at a bay, engaged or ARRIVING, with a window from now to the walk-in end. -/
  | arriveWalkin
  /-- END_SESSION (R125). Ends a session: closes a HALTED session STOPPED or starts SETTLING with settle cause HOST. -/
  | endSession
  /-- SESSION_RESUME (R127). Resumes a HALTED, SATISFIED or QUOTA-MET session, possibly raising its quota. -/
  | sessionResume
  /-- TICK (R19). The one-second tick advances the second count and is handed to the Session Unit and the Share Unit. -/
  | tick (at_ : Nat)
  /-- MINUTE_EVENT (R19). The second count wraps and the minute count advances, and the timed events due at the new minute are taken. -/
  | minuteEvent
  /-- SESSION_TICK (R128). The Session Unit meters every engaged session and runs the satisfied check. -/
  | sessionTick
  /-- QUOTA_MET (R129). The energy within quota reaches the quota, and the excess is counted and the phase becomes QUOTA-MET. -/
  | quotaMet (slot : Nat)
  /-- SATISFIED (R130). The satisfied count reaches 300 and the session becomes SATISFIED, leaving the demanding set. -/
  | satisfied (slot : Nat)
  /-- SHARE_TICK (R145). For each feeder the Share Unit counts down penalties, checks overdraw, evaluates CONDITION and recomputes. -/
  | shareTick
  /-- OVERDRAW_PENALTY (R145). The overdraw count reaches 3 and the bay drawing most above its limit gets a penalty of 60 ticks. -/
  | overdrawPenalty (feeder : Nat)
  /-- PENALTY_END (R131). A bay's overdraw penalty reaches 0, and a session paused for OVERDRAW rejoins the demanding set. -/
  | penaltyEnd (bay : Nat)
  /-- RECOMPUTE (R144). The Share Unit recomputes a feeder's admission, weighted shares, rotor and assigned limits. -/
  | recompute (feeder : Nat)
  /-- LEAD_CHECK (R112). At window start less lead, a record on a blocked bay is relocated. -/
  | leadCheck (slot : Nat)
  /-- WAKE_CHECK (R164). At window start less standby lead, a post in STANDBY carrying the record's bay becomes WAKING. -/
  | wakeCheck (slot : Nat)
  /-- WINDOW_START (R38). A BOOKED record reaches its window start and becomes HELD. -/
  | windowStart (slot : Nat)
  /-- GRACE_END (R107). A HELD or ARRIVING record reaches its grace end and closes NO-SHOW. -/
  | graceEnd (slot : Nat)
  /-- WINDOW_END (R40). A chained record reaches its window end: a non-engaged record closes NO-SHOW and a session enters OVERSTAY. -/
  | windowEnd (slot : Nat)
  /-- WAITING_DEADLINE (R93). A WAITING record reaches its deadline and closes EXPIRED. -/
  | waitingDeadline (slot : Nat)
  /-- VERIFY_EXPIRY (R100). A running verify timer expires and the bay becomes INTRUDED. -/
  | verifyExpiry (bay : Nat)
  /-- ROLLOVER (R25). The daily rollover advances the last rollover day and clears every tally counter. -/
  | rollover
  /-- TRIP_INPUT_CHANGE (R134). A level change on a TRIPn pin starts or ends a debounce difference. -/
  | tripInputChange (pin : Nat) (low : Bool) (at_ : Nat)
  /-- DEBOUNCE (R134). A trip pin holds the opposite level for 200 ms, and the debounced level changes. -/
  | debounce (pin : Nat) (at_ : Nat)
  /-- RECOVERY_TIMER (R135). The recovery timer of a RECOVERING feeder expires, and the feeder becomes NORMAL and is recomputed. -/
  | recoveryTimer (feeder : Nat) (at_ : Nat)
  /-- SETTLE_TIMER (R126). 30 s pass in SETTLING with no settle reply, and the session closes STOPPED. -/
  | settleTimer (slot : Nat) (at_ : Nat)
  /-- ROUND_START (R151). A poll round begins, advances the round count and opens the first exchange. -/
  | roundStart (at_ : Nat)
  /-- COMMAND_SENT (R152). The last byte of a command has been sent, and the reply deadline is set 3 ms later. -/
  | commandSent (at_ : Nat)
  /-- REPLY (R154). A 12-byte frame is received in an open exchange, and as a valid reply it updates counters, link state and readings. -/
  | reply (bytes : List Byte) (at_ : Nat)
  /-- REPLY_GAP (R181). More than 100 µs pass with no byte, and a short frame ends as no valid reply. -/
  | replyGap (bytes : List Byte) (at_ : Nat)
  /-- MISS (R154). The reply deadline passes without a valid reply, and the miss is counted. -/
  | miss (at_ : Nat)
  /-- PREPARE_LIMIT (R157). The 5 s prepare limit passes with the post still PREPARING, and the post is isolated with cause PREPARE-TIMEOUT. -/
  | prepareLimit (post : Nat) (at_ : Nat)
  /-- WAKE_LIMIT (R163). The 3 s wake limit passes with the post still WAKING, and the slow-wake count rises and may isolate the post. -/
  | wakeLimit (post : Nat) (at_ : Nat)
  /-- IDLE_TIMER (R161). An ACTIVE post's idle timer falls due, and the post enters STANDBY when the idle condition still holds. -/
  | idleTimer (post : Nat)
  /-- RECEIVED_BYTE (R168). A byte received on MRX is taken by the receive state: in HUNTING a SYNC begins a frame and any other byte is discarded, and in IN-FRAME a LEN out of range or a completed frame with a wrong CRC-16 drops the frame and returns the receiver to HUNTING. -/
  | receivedByte (byte : Byte) (at_ : Nat)
  deriving DecidableEq, Repr

end Sys2Proof
end

