-- ==== Sys2Proof/Decode.lean ====
section
/-! DEFINITION. The command that a word spells by the table's bits. No row of spec/opcode_table.json gives bits (the
part takes request frames and events, not instruction words), so no word spells a command (log 10). -/

namespace Sys2Proof

/-- No row of the table has bits, so every word spells none. -/
def decodeTableWord (_nbits _w : Nat) : Option Instr := none

end Sys2Proof
end

