-- ==== Sys2Proof/Config.lean ====
section
/-! DEFINITION. What the part fixes (capacities and time constants, spec 00, 1.2 and the rules named), and the free
values: constants without a body for what the spec leaves open. -/

namespace Sys2Proof.Config

/-- Places of the request queue and of the reply queue (R169, R170). -/
def queuePlaces : Nat := 4

/-- Places of the Waiting List (R85). -/
def waitingPlaces : Nat := 32

/-- Entries of an extension stack (R29). -/
def extensionPlaces : Nat := 3

/-- The longest window in minutes (R29). -/
def longestWindow : Nat := 720

/-- How far ahead of now a window may start, in minutes (R68). -/
def horizon : Nat := 10080

/-- The largest energy quota in Wh (R29). -/
def largestQuota : Nat := 200000

/-- The value at which the energy counts saturate (R128). -/
def largestEnergy : Nat := 4294967295

/-- The largest minute that CLOCK-SET takes (R20). -/
def largestClockSet : Nat := 4000000000

/-- The largest value of the minute count (R18). -/
def largestMinute : Nat := 4294967295

/-- The minimum charging current, in 0.1 A (spec 00, 5.2). -/
def leastCurrent : Nat := 60

/-- The largest current a bay may carry, in 0.1 A (R1). -/
def largestCurrent : Nat := 800

/-- The residue's units in one Wh (R128). -/
def residuePerWh : Nat := 36000

/-- The satisfied count at which a session becomes SATISFIED (R130). -/
def satisfiedTicks : Nat := 300

/-- The ticks of an overdraw penalty (R145). -/
def penaltyTicks : Nat := 60

/-- The overdraw count that gives a penalty (R145). -/
def overdrawTicks : Nat := 3

/-- The misses in a row that lose a post (R159). -/
def missLimit : Nat := 3

/-- The valid replies in a row that begin PREPARING (R156). -/
def validLimit : Nat := 2

/-- The slow wakes that isolate a post (R163). -/
def slowWakeLimit : Nat := 3

/-- One second in microseconds of the crystal time base. -/
def second : Nat := 1000000

/-- The trip debounce, 200 ms (R134). -/
def debounceTime : Nat := 200000

/-- The least time between two round starts, 250 ms (R151). -/
def roundTime : Nat := 250000

/-- The reply deadline after a command, 3 ms (R152). -/
def replyTime : Nat := 3000

/-- The longest gap between two bytes of a management frame, 10 ms (R168). -/
def frameGap : Nat := 10000

/-- The settle timer, 30 s (R116). -/
def settleTime : Nat := 30 * second

/-- The prepare limit, 5 s (R156). -/
def prepareTime : Nat := 5 * second

/-- The wake limit, 3 s (R162). -/
def wakeTime : Nat := 3 * second

/-- An upper bound on the timed events that one minute can hold; the walk of a minute stops when none is due. -/
def minuteFuel : Nat := 4096

/-- FREE VALUE: which of several effects comes first where the spec sets no order (R24, R155). The step reads it at
the counter `Part.choices` and takes it modulo the number of candidates (log 4). -/
opaque freeOrder : Nat → Nat

/-- FREE VALUE: the minute count after 4 294 967 295, some value of the field's 32 bits (R18 and R19 state none; log
16). -/
opaque minuteAfterLargest : Nat → BitVec 32

/-- FREE VALUE: the four bytes sent for a number that does not fit in four bytes (R180 states none; log 16). -/
opaque wideNumber : Nat → Nat

/-- FREE VALUE: the duration, less 1, of a record demoted with a window that has no minute left, from its new start and
its end; R88 states a duration from 1 to 720 and its u − t′ gives none there (log 40). -/
opaque durationOfNoMinutes : Nat → Nat → Fin 720

/-- FREE VALUE: whether a connector set with a bit above CT3 is refused RANGE (true) or taken without that bit
(false); R180 says only that the upper four bits are 0 (log 15). -/
opaque connectorUpperRefused : Byte → Bool

end Sys2Proof.Config
end

