-- ==== Sys2Proof/Machine/State.lean ====
section
/-! DEFINITION. The state of the part, block by block as spec 00, section 2 lists them, as plain data; the reasons a
step can stop; and the machine right after reset (R1, R11, R15, R18, R48, R50, R53, R151, R168 to R171, R174). -/

namespace Sys2Proof.Machine

/-! ## Bay Table (R1) -/

/-- A socket of a post. -/
inductive Socket where
  | a | b
  deriving DecidableEq, Repr

/-- The connector type of a bay, and the one a request asks for. -/
inductive ConnType where
  | ct0 | ct1 | ct2 | ct3
  deriving DecidableEq, Repr

/-- The service state of a bay (R5, R6). -/
inductive Service where
  | inService | out
  deriving DecidableEq, Repr

/-- The condition of a bay (R7). -/
inductive Condition where
  | free | reserved | unverified | intruded | inUse | overstay | dark | out
  deriving DecidableEq, Repr

/-- The socket indicator shown by the post (R9). -/
inductive Indicator where
  | available | reserved | identify | inUse | alert | out
  deriving DecidableEq, Repr

/-- Occupancy as last reported for a bay (R1). -/
inductive Occupancy where
  | vacant | occupied | unknown
  deriving DecidableEq, Repr

/-- Plug state as last reported for a bay (R1). -/
inductive Plug where
  | unplugged | plugged | unknown
  deriving DecidableEq, Repr

/-- The verify timer of a bay (R96). -/
inductive VerifyTimer where
  | idle | running (due : Nat) | expired
  deriving DecidableEq, Repr

/-- One bay record (R1). -/
structure Bay where
  configured : Bool
  post : PostId
  socket : Socket
  feeder : FeederId
  ctype : ConnType
  rating : Nat
  service : Service
  condition : Condition
  limit : Nat
  reading : Nat
  occupancy : Occupancy
  plug : Plug
  cap : Nat
  verify : VerifyTimer
  penalty : Nat
  notice : Bool
  deriving DecidableEq, Repr

/-! ## Feeder Table (R11) and trip inputs (R134) -/

/-- The state of a feeder (R133). -/
inductive FeederState where
  | unused | normal | tripped | recovering
  deriving DecidableEq, Repr

/-- The sticky flags of a feeder (R146). -/
structure Sticky where
  tripSeen : Bool
  shortfall : Bool
  overdraw : Bool
  meterGap : Bool
  deriving DecidableEq, Repr

/-- One feeder record (R11). `recovery` is the expiry of a running recovery timer on the time base; `active` is the
debounced trip level; `recomputeDue` marks a recompute that a change of the demanding set has made due (R144, log 11). -/
structure Feeder where
  state : FeederState
  limit : Nat
  trim : Nat
  voltage : Nat
  concurrency : Nat
  tripEnabled : Bool
  active : Bool
  recovery : Option Nat
  sticky : Sticky
  condition : Bool
  rotor : Nat
  overdrawCount : Nat
  notice : Bool
  recomputeDue : Bool
  deriving DecidableEq, Repr

/-- One trip input: the level of its pin, and the time at which a pending difference from the debounced level began
(R134). -/
structure TripInput where
  low : Bool
  since : Option Nat
  deriving DecidableEq, Repr

/-! ## Post Table (R15) -/

/-- The link state of a post (R15, chapter 10). -/
inductive LinkState where
  | absent | seeking | preparing | active | standby | waking | isolated | lost
  deriving DecidableEq, Repr

/-- Why a post is isolated (R15). -/
inductive IsolationCause where
  | none | postFault | prepareTimeout | wakeFault | host
  deriving DecidableEq, Repr

/-- The state timer of a post: the limits on the time base, the idle time in park minutes (R156, R161, R162). -/
inductive StateTimer where
  | stopped | prepare (expiry : Nat) | wake (expiry : Nat) | idle (due : Nat)
  deriving DecidableEq, Repr

/-- One post record (R15). -/
structure Post where
  inUse : Bool
  link : LinkState
  cause : IsolationCause
  fault : Nat
  seq : Nat
  misses : Nat
  valid : Nat
  slowWakes : Nat
  timer : StateTimer
  notice : Bool
  deriving DecidableEq, Repr

/-! ## Reservation Pool (R27 to R49) -/

/-- The state of a live record (R37). -/
inductive RecState where
  | waiting | booked | held | arriving | engaged | closing
  deriving DecidableEq, Repr

/-- The request that created a record (R28). -/
inductive Origin where
  | booked | walkIn
  deriving DecidableEq, Repr

/-- The cause of a record's latest change (R44). -/
inductive LastCause where
  | book | walkIn | windowStart | arrive | occupancy | relocated | demoted | placed | extend | retract | session
  | closed
  deriving DecidableEq, Repr

/-- The result of a closed record (R42). -/
inductive Result where
  | complete | stopped | noShow | cancelled | expired | displaced
  deriving DecidableEq, Repr

/-- What ended a stay (R42). -/
inductive ClosedBy where
  | host | departed | service | timer | link | relocation
  deriving DecidableEq, Repr

/-- The phase of a session (R116). -/
inductive Phase where
  | plugWait | charge | paused | quotaMet | satisfied | halted | overstay | settling
  deriving DecidableEq, Repr

/-- Why a session is PAUSED (R116). -/
inductive PauseCause where
  | none | shortfall | trip | overdraw
  deriving DecidableEq, Repr

/-- Why a session is SETTLING (R116). -/
inductive SettleCause where
  | departed | host | service
  deriving DecidableEq, Repr

/-- The conditions seen by a session (R117). -/
structure Seen where
  quotaMet : Bool
  overrun : Bool
  satisfied : Bool
  halted : Bool
  overstayed : Bool
  deriving DecidableEq, Repr

/-- The settle state of a session in SETTLING (R116): its cause, and the expiry of its timer on the time base. -/
structure Settle where
  cause : SettleCause
  expiry : Nat
  deriving DecidableEq, Repr

/-- The session part of a record (R30, R116). -/
structure Session where
  phase : Phase
  pause : PauseCause
  stoppedIn : Option Phase
  engaged : Nat
  within : Nat
  excess : Nat
  residue : Nat
  satisfied : Nat
  seen : Seen
  overstayStart : Option Nat
  settle : Option Settle
  deriving DecidableEq, Repr

/-- The close summary of a CLOSING record (R42). -/
structure CloseSummary where
  handle : Nat
  bay : Option BayId
  result : Result
  closedBy : ClosedBy
  windowStart : Nat
  windowEnd : Nat
  extensions : Nat
  engaged : Option Nat
  closed : Nat
  within : Nat
  excess : Nat
  seen : Seen
  overstay : Nat
  deriving DecidableEq, Repr

/-- One reservation record (R28 to R30). The extension stack has its newest entry first. `leadTaken`, `wakeTaken` and
`endTaken` say that the lead check, wake check and window end of the present due minute have been taken (R23). -/
structure Record where
  state : RecState
  bay : Option BayId
  windowStart : Nat
  windowEnd : Nat
  duration : Nat
  grace : Nat
  graceEnd : Nat
  lane : LaneId
  vclass : Fin 8
  ctype : ConnType
  tier : Fin 16
  priority : Nat
  eligible : BayMask
  preferred : BayMask
  created : Nat
  origin : Origin
  lastCause : LastCause
  notice : Bool
  quota : Option Nat
  rateCap : Option Nat
  deadline : Option Nat
  pinned : Option BayId
  extensions : List Nat
  session : Option Session
  close : Option CloseSummary
  leadTaken : Bool
  wakeTaken : Bool
  endTaken : Bool
  deriving DecidableEq, Repr

/-- One pool slot: its generation, and the live record it holds (R27, R31). -/
structure Slot where
  generation : Nat
  record : Option Record
  deriving DecidableEq, Repr

/-- The Reservation Pool: the slots and the collections they stand in (R27). -/
structure Pool where
  slots : Vector Slot 192
  free : List SlotId
  chains : Vector (List SlotId) 64
  waiting : List SlotId
  closing : List SlotId
  deriving DecidableEq, Repr

/-! ## Admission Policy Table (R50, R53) -/

/-- A verdict of a rule or a lane. -/
inductive Verdict where
  | continue_ | accept | refuse
  deriving DecidableEq, Repr

/-- How a rule changes the priority class (R59). -/
inductive PriorityMode where
  | keep | raise | lower | set
  deriving DecidableEq, Repr

/-- How a rule changes the eligible mask (R59). -/
inductive MapMode where
  | keep | widen | narrow | replace | exclude
  deriving DecidableEq, Repr

/-- How a rule changes the preferred mask (R59). -/
inductive PrefMode where
  | keep | add | set
  deriving DecidableEq, Repr

/-- One lane entry (R50). -/
structure Lane where
  rules : RuleSet
  verdict : Verdict
  priority : Nat
  eligible : BayMask
  deriving DecidableEq, Repr

/-- Group MATCH-A of a rule (R53). -/
structure MatchA where
  active : Bool
  classes : ClassSet
  connectors : ConnectorSet
  tierMin : Nat
  tierMax : Nat
  deriving DecidableEq, Repr

/-- Group MATCH-B of a rule (R53). -/
structure MatchB where
  timeStart : Nat
  timeEnd : Nat
  durMin : Nat
  durMax : Nat
  deriving DecidableEq, Repr

/-- Group ACTION of a rule (R53). -/
structure RuleAction where
  verdict : Verdict
  priorityMode : PriorityMode
  priority : Nat
  mapMode : MapMode
  map : BayMask
  prefMode : PrefMode
  pref : BayMask
  grace : Nat
  deriving DecidableEq, Repr

/-- Group TALLY of a rule (R53). -/
structure Tally where
  enabled : Bool
  limit : Nat
  deriving DecidableEq, Repr

/-- One admission rule (R53). -/
structure Rule where
  matchA : MatchA
  matchB : MatchB
  action : RuleAction
  tally : Tally
  counter : Nat
  notice : Bool
  deriving DecidableEq, Repr

/-! ## Park Clock (R18), part settings (R174), events outstanding -/

/-- The Park Clock (R18); the rollover minute-of-day stands in the part settings. -/
structure Clock where
  set : Bool
  minute : Nat
  second : Nat
  lastDay : Option Int
  deriving DecidableEq, Repr

/-- The thirteen part settings (R174). -/
structure Settings where
  guard : Nat
  lead : Nat
  verifyWindow : Nat
  defaultGrace : Nat
  earlyAllowance : Nat
  standbyLead : Nat
  idleTime : Nat
  w1 : Nat
  w2 : Nat
  w3 : Nat
  w4 : Nat
  recoveryDelay : Nat
  rolloverMinute : Nat
  deriving DecidableEq, Repr

/-- Events that a tick has raised and that have not been taken: the events of the present minute, the Session Unit's
tick and the Share Unit's tick (R19, log 3). -/
structure Outstanding where
  minute : Bool
  session : Bool
  share : Bool
  deriving DecidableEq, Repr

/-- A blocking event on a bay; `service` when its cause is BAY-SERVICE OUT (R111). -/
structure Blocked where
  bay : BayId
  service : Bool
  deriving DecidableEq, Repr

/-- What the event in progress has still to do before it is complete: blocking events (R111), lead checks due at once
(R112), posts whose idle condition is to be evaluated (R161), a due retry (R90), the next exchange (R151). It is empty
between commands. -/
structure Work where
  blocked : List Blocked
  leads : List SlotId
  idle : List PostId
  retry : Bool
  nextExchange : Bool
  deriving DecidableEq, Repr

/-! ## Bay Link Controller (R151) -/

/-- An exchange in progress: the post, the sequence sent, the command's bytes, and the reply deadline once the last
byte of the command has been sent (R152). -/
structure Exchange where
  post : PostId
  seq : Nat
  command : List Byte
  deadline : Option Nat
  deriving DecidableEq, Repr

/-- The poll round state (R151). `first` says that the first round since the reset has not begun. -/
structure Link where
  roundCount : Nat
  roundStart : Nat
  first : Bool
  lastVisited : Option PostId
  exchange : Option Exchange
  deriving DecidableEq, Repr

/-! ## Management Port (R167 to R172) -/

/-- TAG, KIND and payload of a management frame (R167). -/
structure Frame where
  tag : Byte
  kind : Byte
  payload : List Byte
  deriving DecidableEq, Repr

/-- A frame of the reply queue; `resets` marks the reply to RESET-PART FULL (R179). -/
structure Reply where
  frame : Frame
  resets : Bool
  deriving DecidableEq, Repr

/-- What the frame in transmission is: an ordinary reply, the reply of RESET-PART FULL, the CLOSE-NOTICE of a record
(none once RESET-PART BOOK has freed it, R49), or another notice. -/
inductive Sent where
  | reply | resetReply | closeNotice (slot : Option SlotId) | notice
  deriving DecidableEq, Repr

/-- The frame in transmission (R171). -/
structure Transmission where
  frame : Frame
  what : Sent
  deriving DecidableEq, Repr

/-- The receiver: HUNTING or IN-FRAME, the bytes after SYNC so far, and the time of the last byte (R168). -/
structure Receiver where
  inFrame : Bool
  bytes : List Byte
  lastByte : Nat
  deriving DecidableEq, Repr

/-- The next-indexes of the transmitter's notice sources (R171). -/
structure NextIndex where
  record : Nat
  post : Nat
  feeder : Nat
  bay : Nat
  rule : Nat
  deriving DecidableEq, Repr

/-- The Management Port. `stopped` says that RESET-PART FULL has been served (R179). -/
structure Port where
  receiver : Receiver
  requests : List Frame
  replies : List Reply
  sending : Option Transmission
  next : NextIndex
  stopped : Bool
  deriving DecidableEq, Repr

/-! ## The whole -/

/-- Every block behind the Management Port, with the crystal time base `time` (microseconds) and the counter `choices`
that free orders are read from (log 4). -/
structure Part where
  time : Nat
  clock : Clock
  settings : Settings
  bays : Vector Bay 64
  feeders : Vector Feeder 8
  trips : Vector TripInput 8
  posts : Vector Post 32
  pool : Pool
  lanes : Vector Lane 8
  rules : Vector Rule 32
  link : Link
  outstanding : Outstanding
  work : Work
  choices : Nat
  deriving DecidableEq, Repr

/-- The machine: the part, its port, and the commands that wait, first in first out. -/
structure State where
  part : Part
  port : Port
  pending : List Instr
  deriving DecidableEq, Repr

/-- The reasons a step stops with a fault. -/
inductive Fault where
  /-- Raised by the meaning of a command whose operand names no slot, bay, post, feeder or pin of the part, or whose
  frame has a length its line does not allow: no agent can raise such an event. Safe: the model stops where the part
  has no behaviour (log 22). -/
  | illFormedCommand
  deriving DecidableEq, Repr

/-- The reasons a step refuses. -/
inductive Refusal where
  /-- Raised by an arm of exec whose command has no meaning yet. Safe: nothing is claimed of the command. -/
  | notModelled (mnemonic : String)
  deriving DecidableEq, Repr

/-! ## Values after reset -/

/-- R1. -/
def Bay.reset : Bay where
  configured := false
  post := 0
  socket := .a
  feeder := 0
  ctype := .ct0
  rating := 60
  service := .inService
  condition := .out
  limit := 0
  reading := 0
  occupancy := .unknown
  plug := .unknown
  cap := 0
  verify := .idle
  penalty := 0
  notice := false

/-- No sticky flag (R11). -/
def Sticky.empty : Sticky := ⟨false, false, false, false⟩

/-- No condition seen (R30). -/
def Seen.empty : Seen := ⟨false, false, false, false, false⟩

/-- R11. -/
def Feeder.reset : Feeder where
  state := .unused
  limit := 0
  trim := 0
  voltage := 230
  concurrency := 1
  tripEnabled := false
  active := false
  recovery := none
  sticky := .empty
  condition := false
  rotor := 0
  overdrawCount := 0
  notice := false
  recomputeDue := false

/-- R15. -/
def Post.reset : Post where
  inUse := false
  link := .absent
  cause := .none
  fault := 0
  seq := 0
  misses := 0
  valid := 0
  slowWakes := 0
  timer := .stopped
  notice := false

/-- Every slot number, ascending. -/
def allSlots : List SlotId := allBelow 192

/-- R48. -/
def Pool.reset : Pool where
  slots := Vector.replicate 192 ⟨1, none⟩
  free := allSlots
  chains := Vector.replicate 64 []
  waiting := []
  closing := []

/-- R50. -/
def Lane.reset : Lane where
  rules := 0
  verdict := .accept
  priority := 2
  eligible := BitVec.allOnes 64

/-- R53. -/
def Rule.reset : Rule where
  matchA := ⟨false, BitVec.allOnes 8, BitVec.allOnes 4, 0, 15⟩
  matchB := ⟨0, 0, 15, 720⟩
  action := ⟨.continue_, .keep, 1, .keep, 0, .keep, 0, 0⟩
  tally := ⟨false, 65535⟩
  counter := 0
  notice := false

/-- R18. -/
def Clock.reset : Clock := ⟨false, 0, 0, none⟩

/-- R174. -/
def Settings.reset : Settings where
  guard := 10
  lead := 10
  verifyWindow := 5
  defaultGrace := 20
  earlyAllowance := 15
  standbyLead := 30
  idleTime := 10
  w1 := 1
  w2 := 2
  w3 := 3
  w4 := 4
  recoveryDelay := 30
  rolloverMinute := 0

/-- Nothing left to do. -/
def Work.empty : Work := ⟨[], [], [], false, false⟩

/-- R151, for a reset that ends at the given time. -/
def Link.reset (time : Nat) : Link := ⟨0, time, true, none, none⟩

/-- R168 to R171, R179. -/
def Port.reset : Port where
  receiver := ⟨false, [], 0⟩
  requests := []
  replies := []
  sending := none
  next := ⟨0, 0, 0, 0, 0⟩
  stopped := false

/-- A trip input at the end of a reset at the given time: the debounced level is inactive, so a pin held low starts
its difference then (R134). -/
def TripInput.afterReset (time : Nat) (low : Bool) : TripInput := ⟨low, if low then some time else none⟩

/-- Every block behind the port after a reset that ends at `time`, with the levels `low` on the trip pins. -/
def Part.afterReset (time choices : Nat) (trips : Vector TripInput 8) : Part where
  time := time
  clock := .reset
  settings := .reset
  bays := Vector.replicate 64 .reset
  feeders := Vector.replicate 8 .reset
  trips := trips
  posts := Vector.replicate 32 .reset
  pool := .reset
  lanes := Vector.replicate 8 .reset
  rules := Vector.replicate 32 .reset
  link := .reset time
  outstanding := ⟨false, false, false⟩
  work := .empty
  choices := choices

/-- The machine right after power-on, with every trip pin high (log 31) and no command waiting. -/
def State.reset : State where
  part := Part.afterReset 0 0 (Vector.replicate 8 ⟨false, none⟩)
  port := .reset
  pending := []

end Sys2Proof.Machine
end

