-- ==== Sys2Proof/Machine/Ops.lean ====
section
/-! DEFINITION. The named reads and writes of the part's tables, and the moves of the Reservation Pool: every change of
a record goes through `Pool.put` and every freed slot through `Pool.release`, so that a slot's collection always
follows its record (R27). -/

namespace Sys2Proof.Machine

/-! ## Codes of the enumerations (spec 12, 12.3.3) -/

/-- Socket from its code. -/
def Socket.ofCode : Nat → Option Socket
  | 0 => some .a
  | 1 => some .b
  | _ => none

def Socket.code : Socket → Nat
  | .a => 0
  | .b => 1

/-- Connector type from its code. -/
def ConnType.ofCode : Nat → Option ConnType
  | 0 => some .ct0
  | 1 => some .ct1
  | 2 => some .ct2
  | 3 => some .ct3
  | _ => none

def ConnType.code : ConnType → Nat
  | .ct0 => 0
  | .ct1 => 1
  | .ct2 => 2
  | .ct3 => 3

def Service.ofCode : Nat → Option Service
  | 0 => some .inService
  | 1 => some .out
  | _ => none

def Service.code : Service → Nat
  | .inService => 0
  | .out => 1

def Condition.code : Condition → Nat
  | .free => 0
  | .reserved => 1
  | .unverified => 2
  | .intruded => 3
  | .inUse => 4
  | .overstay => 5
  | .dark => 6
  | .out => 7

def Indicator.code : Indicator → Nat
  | .available => 0
  | .reserved => 1
  | .identify => 2
  | .inUse => 3
  | .alert => 4
  | .out => 5

def Occupancy.code : Occupancy → Nat
  | .vacant => 0
  | .occupied => 1
  | .unknown => 2

def Plug.code : Plug → Nat
  | .unplugged => 0
  | .plugged => 1
  | .unknown => 2

def VerifyTimer.code : VerifyTimer → Nat
  | .idle => 0
  | .running _ => 1
  | .expired => 2

def FeederState.code : FeederState → Nat
  | .unused => 0
  | .normal => 1
  | .tripped => 2
  | .recovering => 3

def LinkState.code : LinkState → Nat
  | .absent => 0
  | .seeking => 1
  | .preparing => 2
  | .active => 3
  | .standby => 4
  | .waking => 5
  | .isolated => 6
  | .lost => 7

def IsolationCause.code : IsolationCause → Nat
  | .none => 0
  | .postFault => 1
  | .prepareTimeout => 2
  | .wakeFault => 3
  | .host => 4

def RecState.code : RecState → Nat
  | .waiting => 1
  | .booked => 2
  | .held => 3
  | .arriving => 4
  | .engaged => 5
  | .closing => 6

def Origin.code : Origin → Nat
  | .booked => 1
  | .walkIn => 2

def LastCause.code : LastCause → Nat
  | .book => 1
  | .walkIn => 2
  | .windowStart => 3
  | .arrive => 4
  | .occupancy => 5
  | .relocated => 6
  | .demoted => 7
  | .placed => 8
  | .extend => 9
  | .retract => 10
  | .session => 11
  | .closed => 12

def Result.code : Result → Nat
  | .complete => 1
  | .stopped => 2
  | .noShow => 3
  | .cancelled => 4
  | .expired => 5
  | .displaced => 6

def ClosedBy.code : ClosedBy → Nat
  | .host => 1
  | .departed => 2
  | .service => 3
  | .timer => 4
  | .link => 5
  | .relocation => 6

def Phase.code : Phase → Nat
  | .plugWait => 1
  | .charge => 2
  | .paused => 3
  | .quotaMet => 4
  | .satisfied => 5
  | .halted => 6
  | .overstay => 7
  | .settling => 8

def PauseCause.code : PauseCause → Nat
  | .none => 0
  | .shortfall => 1
  | .trip => 2
  | .overdraw => 3

def SettleCause.code : SettleCause → Nat
  | .departed => 1
  | .host => 2
  | .service => 3

def Verdict.ofCode : Nat → Option Verdict
  | 0 => some .continue_
  | 1 => some .accept
  | 2 => some .refuse
  | _ => none

def Verdict.code : Verdict → Nat
  | .continue_ => 0
  | .accept => 1
  | .refuse => 2

def PriorityMode.ofCode : Nat → Option PriorityMode
  | 0 => some .keep
  | 1 => some .raise
  | 2 => some .lower
  | 3 => some .set
  | _ => none

def PriorityMode.code : PriorityMode → Nat
  | .keep => 0
  | .raise => 1
  | .lower => 2
  | .set => 3

def MapMode.ofCode : Nat → Option MapMode
  | 0 => some .keep
  | 1 => some .widen
  | 2 => some .narrow
  | 3 => some .replace
  | 4 => some .exclude
  | _ => none

def MapMode.code : MapMode → Nat
  | .keep => 0
  | .widen => 1
  | .narrow => 2
  | .replace => 3
  | .exclude => 4

def PrefMode.ofCode : Nat → Option PrefMode
  | 0 => some .keep
  | 1 => some .add
  | 2 => some .set
  | _ => none

def PrefMode.code : PrefMode → Nat
  | .keep => 0
  | .add => 1
  | .set => 2

/-! ## Numbers of objects -/

/-- The object a number names, when the part has it. -/
def fin? (n i : Nat) : Option (Fin n) := if h : i < n then some ⟨i, h⟩ else none

/-- A set of bays as a membership test. -/
def BayMask.has (m : BayMask) (b : BayId) : Bool := m.getLsbD b.val

/-- The set of the listed bays. -/
def BayMask.ofList (l : List BayId) : BayMask := l.foldl (fun m b => m ||| (1#64 <<< b.val)) 0#64

/-! ## Reading and writing the tables -/

def Part.bay (p : Part) (b : BayId) : Bay := p.bays.get b
def Part.setBay (p : Part) (b : BayId) (x : Bay) : Part := { p with bays := p.bays.set b.val x b.isLt }
def Part.modBay (p : Part) (b : BayId) (f : Bay → Bay) : Part := p.setBay b (f (p.bay b))

def Part.feeder (p : Part) (f : FeederId) : Feeder := p.feeders.get f
def Part.setFeeder (p : Part) (f : FeederId) (x : Feeder) : Part := { p with feeders := p.feeders.set f.val x f.isLt }
def Part.modFeeder (p : Part) (f : FeederId) (g : Feeder → Feeder) : Part := p.setFeeder f (g (p.feeder f))

def Part.trip (p : Part) (f : FeederId) : TripInput := p.trips.get f
def Part.setTrip (p : Part) (f : FeederId) (x : TripInput) : Part := { p with trips := p.trips.set f.val x f.isLt }

def Part.post (p : Part) (q : PostId) : Post := p.posts.get q
def Part.setPost (p : Part) (q : PostId) (x : Post) : Part := { p with posts := p.posts.set q.val x q.isLt }
def Part.modPost (p : Part) (q : PostId) (g : Post → Post) : Part := p.setPost q (g (p.post q))

def Part.lane (p : Part) (l : LaneId) : Lane := p.lanes.get l
def Part.setLane (p : Part) (l : LaneId) (x : Lane) : Part := { p with lanes := p.lanes.set l.val x l.isLt }

def Part.rule (p : Part) (r : RuleId) : Rule := p.rules.get r
def Part.setRule (p : Part) (r : RuleId) (x : Rule) : Part := { p with rules := p.rules.set r.val x r.isLt }

/-- Now: the minute count; 0 while the clock is UNSET (R18). -/
def Part.now (p : Part) : Nat := if p.clock.set then p.clock.minute else 0

/-- The time base moves to the moment of an event, never backwards (log 2). -/
def Part.at (p : Part) (time : Nat) : Part := { p with time := max p.time time }

def allBays : List BayId := allBelow 64
def allFeeders : List FeederId := allBelow 8
def allPosts : List PostId := allBelow 32
def allRules : List RuleId := allBelow 32

/-! ## The collections of the pool (R27) -/

/-- The collection a slot stands in. -/
inductive Home where
  | free | chain (b : BayId) | waiting | closing
  deriving DecidableEq, Repr

/-- The four chained states (R27). -/
def RecState.chained : RecState → Bool
  | .booked | .held | .arriving | .engaged => true
  | .waiting | .closing => false

/-- The chained states before engagement: the record may be relocated. -/
def RecState.upcoming : RecState → Bool
  | .booked | .held | .arriving => true
  | .waiting | .engaged | .closing => false

/-- The collection that a record's state gives it (R27). -/
def Record.home (r : Record) : Home :=
  match r.state with
  | .waiting => .waiting
  | .closing => .closing
  | .booked | .held | .arriving | .engaged => .chain (r.bay.getD 0)

def Pool.slot (q : Pool) (s : SlotId) : Slot := q.slots.get s
def Pool.setSlot (q : Pool) (s : SlotId) (x : Slot) : Pool := { q with slots := q.slots.set s.val x s.isLt }

/-- The live record of a slot, if any. -/
def Pool.record (q : Pool) (s : SlotId) : Option Record := (q.slot s).record

/-- The collection a slot belongs to: the free list, or what its record's state gives (R27). -/
def Pool.homeOf (q : Pool) (s : SlotId) : Home :=
  match q.record s with
  | none => .free
  | some r => r.home

/-- The members of a collection in order. -/
def Pool.members (q : Pool) : Home → List SlotId
  | .free => q.free
  | .chain b => q.chains.get b
  | .waiting => q.waiting
  | .closing => q.closing

def Pool.setMembers (q : Pool) (h : Home) (l : List SlotId) : Pool :=
  match h with
  | .free => { q with free := l }
  | .chain b => { q with chains := q.chains.set b.val l b.isLt }
  | .waiting => { q with waiting := l }
  | .closing => { q with closing := l }

/-- Insert `x` before the first member that it comes before. -/
def insertBefore {α : Type} (before : α → Bool) (x : α) : List α → List α
  | [] => [x]
  | y :: ys => if before y then x :: y :: ys else y :: insertBefore before x ys

/-- Whether record `r` in slot `s` ranks before record `r'` in slot `s'` in the Waiting List: priority class
descending, then created minute ascending, then slot ascending (R85). -/
def ranksBefore (r : Record) (s : SlotId) (r' : Record) (s' : SlotId) : Bool :=
  r.priority > r'.priority ||
    (r.priority = r'.priority && (r.created < r'.created || (r.created = r'.created && s < s')))

/-- Add a slot to a collection at the place that its record `r` gives it: by window start in a chain (R35), by rank in
the Waiting List (R85), at the tail of the closing list (R41), at the head of the free list (R33). -/
def Pool.join (q : Pool) (h : Home) (s : SlotId) (r : Record) : Pool :=
  q.setMembers h <|
    match h with
    | .free => s :: q.free
    | .chain b =>
      insertBefore (fun y => match q.record y with
        | some r' => r.windowStart < r'.windowStart
        | none => false) s (q.chains.get b)
    | .waiting =>
      insertBefore (fun y => match q.record y with
        | some r' => ranksBefore r s r' y
        | none => false) s q.waiting
    | .closing => q.closing ++ [s]

/-- Remove a slot from a collection. -/
def Pool.leave (q : Pool) (h : Home) (s : SlotId) : Pool :=
  q.setMembers h ((q.members h).filter (fun y => y ≠ s))

/-- Store a record in its slot. Where its state or bay gives it another collection than before, it leaves the old one
and joins the new one within the same event (R27); otherwise it keeps its position (R36). -/
def Pool.put (q : Pool) (s : SlotId) (r : Record) : Pool :=
  let stored := q.setSlot s { q.slot s with record := some r }
  if q.homeOf s = r.home then stored else (stored.leave (q.homeOf s) s).join r.home s r

/-- The next generation of a slot: 255 wraps to 1 (R31). -/
def nextGeneration (g : Nat) : Nat := if g ≥ 255 then 1 else g + 1

/-- Free a slot: its record is gone, its generation advances, and it goes to the head of the free list (R43). -/
def Pool.release (q : Pool) (s : SlotId) : Pool :=
  let left := q.leave (q.homeOf s) s
  let freed := left.setSlot s ⟨nextGeneration (q.slot s).generation, none⟩
  { freed with free := s :: freed.free }

/-- RESET-PART BOOK: every live record is freed with its generation advanced, free slots keep theirs, and the lists
are rebuilt (R49). -/
def Pool.rebuild (q : Pool) : Pool where
  slots := allSlots.foldl (fun v s =>
    match (v.get s).record with
    | none => v
    | some _ => v.set s.val ⟨nextGeneration (v.get s).generation, none⟩ s.isLt) q.slots
  free := allSlots
  chains := Vector.replicate 64 []
  waiting := []
  closing := []

/-- The handle of a slot's record: generation times 256 plus the slot number (R31). -/
def Pool.handle (q : Pool) (s : SlotId) : Nat := (q.slot s).generation * 256 + s.val

/-- The slot and live record that a handle names (R32). -/
def Pool.find (q : Pool) (handle : Nat) : Option (SlotId × Record) :=
  match fin? 192 (handle % 256) with
  | none => none
  | some s =>
    if handle / 256 = 0 ∨ handle / 256 ≠ (q.slot s).generation then none
    else (q.record s).map (fun r => (s, r))

/-- Records chained on all bays together (R27). -/
def Pool.chainedCount (q : Pool) : Nat := (allBays.map (fun b => (q.chains.get b).length)).sum

/-! ## Records and chains, seen from the part -/

def Part.record (p : Part) (s : SlotId) : Option Record := p.pool.record s
def Part.chain (p : Part) (b : BayId) : List SlotId := p.pool.chains.get b

/-- Whether a slot holds a record of which the test holds. -/
def Part.recordIs (p : Part) (test : Record → Bool) (s : SlotId) : Bool :=
  match p.record s with
  | some r => test r
  | none => false

/-- The occupant of a bay: the ENGAGED record on its chain (R96). -/
def Part.occupant (p : Part) (b : BayId) : Option SlotId :=
  (p.chain b).find? (p.recordIs (fun r => r.state = .engaged))

/-- The session of a slot's record. -/
def Part.session (p : Part) (s : SlotId) : Option Session := (p.record s).bind (·.session)

/-- The configured bays of a feeder, in bay order (R11). -/
def Part.baysOfFeeder (p : Part) (f : FeederId) : List BayId :=
  allBays.filter (fun b => (p.bay b).configured && (p.bay b).feeder = f)

/-- The configured bays of a post, in bay order (R15). -/
def Part.baysOfPost (p : Part) (q : PostId) : List BayId :=
  allBays.filter (fun b => (p.bay b).configured && (p.bay b).post = q)

/-- The configured bay bound to a socket of a post (R15). -/
def Part.boundBay (p : Part) (q : PostId) (k : Socket) : Option BayId :=
  allBays.find? (fun b => (p.bay b).configured && (p.bay b).post = q && (p.bay b).socket = k)

/-- The idle condition of a post is to be evaluated in this event (R161). -/
def Part.touchPost (p : Part) (q : PostId) : Part :=
  if q ∈ p.work.idle then p else { p with work := { p.work with idle := p.work.idle ++ [q] } }

/-- The post of the bay in a record's bay field is touched. -/
def Part.touchBayOf (p : Part) (b : Option BayId) : Part :=
  match b with
  | some b => p.touchPost (p.bay b).post
  | none => p

/-- A retry of the Waiting List becomes due (R89). -/
def Part.retryDue (p : Part) : Part := { p with work := { p.work with retry := true } }

/-- Store a record, and note a link, an unlink or a moved start for the idle condition of the posts concerned (R161). -/
def Part.put (p : Part) (s : SlotId) (r : Record) : Part :=
  let moved := { p with pool := p.pool.put s r }
  match p.record s with
  | some old =>
    if old.home = r.home ∧ old.windowStart = r.windowStart then moved
    else (moved.touchBayOf old.bay).touchBayOf r.bay
  | none => moved.touchBayOf r.bay

/-- A change of a record that a notice reports, with its cause (R44). -/
def Record.flag (r : Record) (c : LastCause) : Record := { r with notice := true, lastCause := c }

/-! ## Free orders (R24, log 4) -/

/-- The list in an order read from the free value at counter `k`. -/
def freeOrderOf {α : Type} : Nat → Nat → List α → List α
  | 0, _, l => l
  | fuel + 1, k, a :: b :: t =>
    let i := Config.freeOrder k % (t.length + 2)
    match (a :: b :: t)[i]? with
    | some x => x :: freeOrderOf fuel (k + 1) ((a :: b :: t).eraseIdx i)
    | none => a :: b :: t
  | _ + 1, _, l => l

/-- Put a list in a free order; a list of fewer than two members needs none. -/
def Part.inFreeOrder {α : Type} (p : Part) (l : List α) : List α × Part :=
  match l with
  | a :: b :: t => (freeOrderOf (t.length + 2) p.choices (a :: b :: t), { p with choices := p.choices + t.length + 2 })
  | l => (l, p)

end Sys2Proof.Machine
end

