-- ==== Sys2Proof/Machine/Flags.lean ====
section
/-! DEFINITION. Derived values and flags: the bay condition and socket indicator (R7 to R9), notice-pending flags
(R10, R44, R149, R166), sticky flags and CONDITION (R146, R147), the session changes that set them (R117). -/

namespace Sys2Proof.Machine

/-! ## Posts and readings -/

/-- The serviceable link states (R1). -/
def LinkState.serviceable : LinkState → Bool
  | .active | .standby | .waking => true
  | .absent | .seeking | .preparing | .isolated | .lost => false

/-- A post is serviceable while it is in use and its link state is ACTIVE, STANDBY or WAKING (R1). -/
def Post.serviceable (x : Post) : Bool := x.inUse && x.link.serviceable

/-- Whether the post of a bay is serviceable. -/
def Part.serviceable (p : Part) (b : BayId) : Bool := (p.post (p.bay b).post).serviceable

/-- The occupancy of a bay as it reads in every use: UNKNOWN while its post is not serviceable (R1). -/
def Part.occupancyOf (p : Part) (b : BayId) : Occupancy :=
  if p.serviceable b then (p.bay b).occupancy else .unknown

/-- The plug of a bay as it reads in every use (R1). -/
def Part.plugOf (p : Part) (b : BayId) : Plug :=
  if p.serviceable b then (p.bay b).plug else .unknown

/-! ## Bay condition and socket indicator -/

/-- The blocking conditions (R8). -/
def Condition.blocking : Condition → Bool
  | .out | .dark | .intruded | .overstay => true
  | .free | .reserved | .unverified | .inUse => false

/-- The pair of conditions that keep a bay out of the demanding set (R8, R138). -/
def Condition.unusable : Condition → Bool
  | .out | .dark => true
  | .free | .reserved | .unverified | .intruded | .inUse | .overstay => false

/-- The socket indicator of a condition (R9). -/
def Condition.indicator : Condition → Indicator
  | .free => .available
  | .reserved => .reserved
  | .unverified => .identify
  | .inUse => .inUse
  | .intruded => .alert
  | .overstay => .alert
  | .out => .out
  | .dark => .out

/-- OVERSTAY, the phase that the bay condition reads (R7). -/
def Phase.isOverstay : Phase → Bool
  | .overstay => true
  | .plugWait | .charge | .paused | .quotaMet | .satisfied | .halted | .settling => false

/-- The condition of a bay from its inputs: the first entry of R7's table whose test holds. -/
def Part.conditionOf (p : Part) (b : BayId) : Condition :=
  let x := p.bay b
  if !x.configured then .out
  else if x.service = .out then .out
  else if !p.serviceable b then .dark
  else match p.occupant b with
    | some s => if (p.session s).any (·.phase.isOverstay) then .overstay else .inUse
    | none =>
      if p.occupancyOf b = .occupied then
        match x.verify with
        | .running _ => .unverified
        | .idle | .expired => .intruded
      else if (p.chain b).any (p.recordIs (fun r => r.state = .held || r.state = .arriving)) then .reserved
      else .free

/-- The Share Unit is told that the demanding set of a feeder may have changed: a recompute becomes due (R144). -/
def Part.shareChanged (p : Part) (f : FeederId) : Part := p.modFeeder f (fun x => { x with recomputeDue := true })

/-- A blocking event on a bay is reported to the Occupancy Tracker (R111). -/
def Part.reportBlocked (p : Part) (b : BayId) (service : Bool) : Part :=
  { p with work := { p.work with blocked := p.work.blocked ++ [⟨b, service⟩] } }

/-- The Bay Table derives a bay's condition anew (R8). `raise` is false only for the change of service state to OUT,
whose blocking event R5 reports in place of this step. -/
def Part.deriveWith (raise : Bool) (p : Part) (b : BayId) : Part :=
  let old := (p.bay b).condition
  let new := p.conditionOf b
  if new = old then p
  else
    let stored := (p.modBay b (fun x => { x with condition := new, notice := true })).touchPost (p.bay b).post
    let raised := if raise && new.blocking && !old.blocking then stored.reportBlocked b false else stored
    if new.unusable = old.unusable then raised else raised.shareChanged (p.bay b).feeder

/-- The Bay Table derives a bay's condition anew (R8). -/
def Part.derive (p : Part) (b : BayId) : Part := p.deriveWith true b

/-- The indicator of a post's socket: OUT where no configured bay is bound (R9). -/
def Part.indicatorOf (p : Part) (q : PostId) (k : Socket) : Indicator :=
  match p.boundBay q k with
  | some b => (p.bay b).condition.indicator
  | none => .out

/-! ## Feeder flags -/

/-- Available current A_f (R136). -/
def Feeder.available (x : Feeder) : Nat := if x.state = .normal then x.limit - x.trim else 0

/-- The union of two sets of sticky flags. -/
def Sticky.union (a b : Sticky) : Sticky :=
  ⟨a.tripSeen || b.tripSeen, a.shortfall || b.shortfall, a.overdraw || b.overdraw, a.meterGap || b.meterGap⟩

/-- The sticky flags without those of the second set (R148). -/
def Sticky.without (a b : Sticky) : Sticky :=
  ⟨a.tripSeen && !b.tripSeen, a.shortfall && !b.shortfall, a.overdraw && !b.overdraw, a.meterGap && !b.meterGap⟩

/-- Set sticky flags; one that turns from clear to set sets the notice-pending flag (R146). -/
def Feeder.stick (x : Feeder) (s : Sticky) : Feeder :=
  if x.sticky.union s = x.sticky then x else { x with sticky := x.sticky.union s, notice := true }

def Sticky.justTrip : Sticky := { Sticky.empty with tripSeen := true }
def Sticky.justShortfall : Sticky := { Sticky.empty with shortfall := true }
def Sticky.justOverdraw : Sticky := { Sticky.empty with overdraw := true }
def Sticky.justMeterGap : Sticky := { Sticky.empty with meterGap := true }

/-- Bit 0 TRIP-SEEN, bit 1 SHORTFALL, bit 2 OVERDRAW, bit 3 METER-GAP (12.3.3). -/
def Sticky.code (s : Sticky) : Nat :=
  s.tripSeen.toNat + 2 * s.shortfall.toNat + 4 * s.overdraw.toNat + 8 * s.meterGap.toNat

/-- A set of sticky flags from its byte; a byte with another bit names none (R180). -/
def Sticky.ofCode (n : Nat) : Option Sticky :=
  if n < 16 then some ⟨n.testBit 0, n.testBit 1, n.testBit 2, n.testBit 3⟩ else none

/-- Bit 0 QUOTA-MET, bit 1 OVERRUN, bit 2 SATISFIED, bit 3 HALTED, bit 4 OVERSTAYED (12.3.3). -/
def Seen.code (s : Seen) : Nat :=
  s.quotaMet.toNat + 2 * s.overrun.toNat + 4 * s.satisfied.toNat + 8 * s.halted.toNat + 16 * s.overstayed.toNat

/-- What CONDITION reports: a session paused for SHORTFALL, an overdraw count above 0, or a configured bay whose post
has missed its last reply (R147). -/
def Part.difficulty (p : Part) (f : FeederId) : Bool :=
  (p.feeder f).overdrawCount > 0 ||
  (p.baysOfFeeder f).any (fun b =>
    (p.post (p.bay b).post).misses > 0 ||
    match p.occupant b with
    | some s => (p.session s).any (fun x => x.phase = .paused && x.pause = .shortfall)
    | none => false)

/-- CONDITION is evaluated; its change sets no notice flag (R147). -/
def Part.evalCondition (p : Part) (f : FeederId) : Part :=
  p.modFeeder f (fun x => { x with condition := p.difficulty f })

/-! ## Session changes -/

/-- The phases in which a session can belong to the demanding set (R116, R138). -/
def Phase.demands : Phase → Bool
  | .charge | .paused => true
  | .plugWait | .quotaMet | .satisfied | .halted | .overstay | .settling => false

/-- A change of a session that sets the record's notice-pending flag: of the phase, of the pause cause, or an addition
to the conditions seen (R117). -/
def Session.reports (x y : Session) : Bool := x.phase ≠ y.phase || x.pause ≠ y.pause || x.seen ≠ y.seen

/-- Change the session of a record. The change sets the record's flag under R117; a phase that enters or leaves the
demanding set is reported to the Share Unit; a change into or out of OVERSTAY has the bay derive its condition. -/
def Part.updSession (p : Part) (s : SlotId) (g : Session → Session) : Part :=
  match p.record s with
  | none => p
  | some r =>
    match r.session with
    | none => p
    | some x =>
      let y := g x
      let changed := { r with session := some y }
      let stored := p.put s (if x.reports y then changed.flag .session else changed)
      match r.bay with
      | none => stored
      | some b =>
        let told := if x.phase.demands = y.phase.demands then stored else stored.shareChanged (p.bay b).feeder
        if x.phase.isOverstay = y.phase.isOverstay then told else told.derive b

/-- Where a session that would enter CHARGE goes: PAUSED with cause OVERDRAW while the bay's penalty runs (R118). -/
def Session.intoCharge (penalty : Nat) (x : Session) : Session :=
  if penalty > 0 then { x with phase := .paused, pause := .overdraw } else { x with phase := .charge, pause := .none }

/-! ## Days and minutes -/

/-- The minute-of-day of a park minute (R18). -/
def minuteOfDay (m : Nat) : Nat := m % 1440

/-- The day number of a park minute under a rollover minute-of-day (R18). -/
def dayNumber (rollover m : Nat) : Int := ((m : Int) - (rollover : Int)) / 1440

end Sys2Proof.Machine
end

