-- ==== Sys2Proof/Machine/Operands.lean ====
section
/-! DEFINITION. The forms in which the part takes and gives values: the two CRCs (R167, R181), the encoding of
numbers, optional fields, lists and masks (R180), and the fields of every request payload. -/

namespace Sys2Proof.Machine

/-! ## Cyclic redundancy checks -/

/-- One bit of the CRC-16 with polynomial 0x1021 (R167). -/
def crc16Bit (c : BitVec 16) : BitVec 16 := if c.msb then (c <<< 1) ^^^ 0x1021#16 else c <<< 1

/-- One byte of the CRC-16, most significant bit first (R167). -/
def crc16Byte (c : BitVec 16) (b : Byte) : BitVec 16 :=
  crc16Bit (crc16Bit (crc16Bit (crc16Bit (crc16Bit (crc16Bit (crc16Bit (crc16Bit
    (c ^^^ (b.setWidth 16 <<< 8)))))))))

/-- The CRC-16 of a list of bytes, with initial value 0xFFFF (R167). -/
def crc16 (l : List Byte) : BitVec 16 := l.foldl crc16Byte 0xFFFF#16

/-- One bit of the CRC-8 with polynomial 0x07 (R181). -/
def crc8Bit (c : BitVec 8) : BitVec 8 := if c.msb then (c <<< 1) ^^^ 0x07#8 else c <<< 1

/-- One byte of the CRC-8 (R181). -/
def crc8Byte (c : BitVec 8) (b : Byte) : BitVec 8 :=
  crc8Bit (crc8Bit (crc8Bit (crc8Bit (crc8Bit (crc8Bit (crc8Bit (crc8Bit (c ^^^ b))))))))

/-- The CRC-8 of a list of bytes, with initial value 0x00 (R181). -/
def crc8 (l : List Byte) : BitVec 8 := l.foldl crc8Byte 0x00#8

/-! ## Writing fields (R180) -/

def u8 (n : Nat) : List Byte := [BitVec.ofNat 8 n]

def u16 (n : Nat) : List Byte := [BitVec.ofNat 8 (n / 256), BitVec.ofNat 8 n]

/-- Four bytes, most significant first; the bytes of a number that does not fit are free (log 16). -/
def u32 (n : Nat) : List Byte :=
  let m := if n < 4294967296 then n else Config.wideNumber n
  [BitVec.ofNat 8 (m / 16777216), BitVec.ofNat 8 (m / 65536), BitVec.ofNat 8 (m / 256), BitVec.ofNat 8 m]

/-- A day number: four bytes in two's complement (R180). -/
def i32 (d : Int) : List Byte :=
  let m := (BitVec.ofInt 32 d).toNat
  [BitVec.ofNat 8 (m / 16777216), BitVec.ofNat 8 (m / 65536), BitVec.ofNat 8 (m / 256), BitVec.ofNat 8 m]

/-- A flag byte, or a presence byte. -/
def bit (b : Bool) : List Byte := [if b then 1#8 else 0#8]

/-- An optional field after its presence byte. -/
def opt {α : Type} (enc : α → List Byte) : Option α → List Byte
  | none => [0#8]
  | some x => 1#8 :: enc x

/-- A list after its count byte. -/
def counted {α : Type} (enc : α → List Byte) (l : List α) : List Byte := u8 l.length ++ l.flatMap enc

/-- A mask of `8 * n` bits: the lowest-numbered member in the least significant bit of the last byte. -/
def maskBytes : Nat → Nat → List Byte
  | 0, _ => []
  | n + 1, m => BitVec.ofNat 8 (m / 256 ^ n) :: maskBytes n m

def bayMask (m : BayMask) : List Byte := maskBytes 8 m.toNat

def ruleSet (m : RuleSet) : List Byte := maskBytes 4 m.toNat

/-! ## Reading fields (R180) -/

/-- A reader of payload bytes: the value and the bytes left, or none where the payload has not the required length or
a presence or flag byte is neither 0 nor 1. -/
abbrev Rd := StateT (List Byte) Option

def Rd.u8 : Rd Nat := fun l =>
  match l with
  | b :: t => some (b.toNat, t)
  | [] => none

def Rd.u16 : Rd Nat := do
  let a ← Rd.u8
  let b ← Rd.u8
  return a * 256 + b

def Rd.u32 : Rd Nat := do
  let a ← Rd.u16
  let b ← Rd.u16
  return a * 65536 + b

/-- A presence byte or a flag byte: 0 or 1, any other value is MALFORMED. -/
def Rd.bit : Rd Bool := fun l =>
  match l with
  | b :: t => if b = 0#8 then some (false, t) else if b = 1#8 then some (true, t) else none
  | [] => none

/-- An optional field, or an optional group, after its presence byte. -/
def Rd.opt {α : Type} (rd : Rd α) : Rd (Option α) := do
  if ← Rd.bit then
    let x ← rd
    return some x
  else
    return none

/-- A number of `n` bytes, most significant first. -/
def Rd.big : Nat → Nat → Rd Nat
  | 0, acc => pure acc
  | n + 1, acc => do
    let b ← Rd.u8
    Rd.big n (acc * 256 + b)

def Rd.mask (n : Nat) : Rd Nat := Rd.big n 0

/-- Read a whole payload: every byte belongs to a field. -/
def Rd.all {α : Type} (rd : Rd α) (payload : List Byte) : Option α :=
  match rd payload with
  | some (x, []) => some x
  | _ => none

/-! ## Statuses (12.3.2) and answers -/

/-- The status codes of replies. -/
inductive Status where
  | ok | waiting | busy | unknownKind | malformed | range | conflict | noClock | clockStep | policyRefused
  | policyQuota | poolFull | noBay | listFull | windowRange | unknownReservation | wrongState | wrongBay | bayBusy
  | tooEarly | tooLate | noRoom | extendLimit | nothingToRetract | notReady
  deriving DecidableEq, Repr

def Status.code : Status → Byte
  | .ok => 0x00
  | .waiting => 0x01
  | .busy => 0x10
  | .unknownKind => 0x11
  | .malformed => 0x12
  | .range => 0x13
  | .conflict => 0x14
  | .noClock => 0x20
  | .clockStep => 0x21
  | .policyRefused => 0x30
  | .policyQuota => 0x31
  | .poolFull => 0x32
  | .noBay => 0x33
  | .listFull => 0x34
  | .windowRange => 0x35
  | .unknownReservation => 0x40
  | .wrongState => 0x41
  | .wrongBay => 0x42
  | .bayBusy => 0x43
  | .tooEarly => 0x44
  | .tooLate => 0x45
  | .noRoom => 0x46
  | .extendLimit => 0x47
  | .nothingToRetract => 0x48
  | .notReady => 0x49

/-- The answer to a request: its status, and the fields that follow it (R170). -/
structure Answer where
  status : Status
  fields : List Byte
  deriving DecidableEq, Repr

/-- A status sent alone. -/
def Status.alone (s : Status) : Answer := ⟨s, []⟩

/-- OK with the fields a rule names. -/
def Answer.ok (fields : List Byte) : Answer := ⟨.ok, fields⟩

/-- The payload of the reply. -/
def Answer.payload (a : Answer) : List Byte := a.status.code :: a.fields

/-! ## Kinds (12.3.1) -/

/-- The request kinds. -/
inductive Kind where
  | identify | status | resetPart | clockSet | clockGet | partSet | partGet | baySet | bayGet | bayService | feederSet
  | feederGet | feederTrim | feederClear | postSet | postGet | postForce | ruleWrite | ruleRead | tallyClear | laneSet
  | laneGet | book | findFree | extend | retract | cancel | resGet | waitListGet | arrive | arriveWalkin | endSession
  | sessionResume
  deriving DecidableEq, Repr

def Kind.code : Kind → Byte
  | .identify => 0x01
  | .status => 0x02
  | .resetPart => 0x03
  | .clockSet => 0x04
  | .clockGet => 0x05
  | .partSet => 0x06
  | .partGet => 0x07
  | .baySet => 0x10
  | .bayGet => 0x11
  | .bayService => 0x12
  | .feederSet => 0x13
  | .feederGet => 0x14
  | .feederTrim => 0x15
  | .feederClear => 0x16
  | .postSet => 0x17
  | .postGet => 0x18
  | .postForce => 0x19
  | .ruleWrite => 0x20
  | .ruleRead => 0x21
  | .tallyClear => 0x22
  | .laneSet => 0x23
  | .laneGet => 0x24
  | .book => 0x30
  | .findFree => 0x31
  | .extend => 0x32
  | .retract => 0x33
  | .cancel => 0x34
  | .resGet => 0x35
  | .waitListGet => 0x36
  | .arrive => 0x40
  | .arriveWalkin => 0x41
  | .endSession => 0x42
  | .sessionResume => 0x43

/-- Every request kind. -/
def allKinds : List Kind :=
  [.identify, .status, .resetPart, .clockSet, .clockGet, .partSet, .partGet, .baySet, .bayGet, .bayService,
   .feederSet, .feederGet, .feederTrim, .feederClear, .postSet, .postGet, .postForce, .ruleWrite, .ruleRead,
   .tallyClear, .laneSet, .laneGet, .book, .findFree, .extend, .retract, .cancel, .resGet, .waitListGet, .arrive,
   .arriveWalkin, .endSession, .sessionResume]

/-- The request kind of a KIND byte, if it is one. -/
def Kind.ofCode (b : Byte) : Option Kind := allKinds.find? (fun k => k.code = b)

/-- The KIND of the reply: the request kind plus 0x80; 0x80 for 0x00 and for 0x80 and above (R170). -/
def replyKind (kind : Byte) : Byte := if kind = 0x00#8 ∨ 0x80#8 ≤ kind then 0x80#8 else kind + 0x80#8

/-- The notice kinds (12.3.1). -/
def bayNotice : Byte := 0xE0
def resNotice : Byte := 0xE1
def closeNotice : Byte := 0xE2
def feederNotice : Byte := 0xE3
def postNotice : Byte := 0xE4
def policyNotice : Byte := 0xE5

/-! ## The fields of the requests -/

/-- BAY-SET (R2). -/
structure BaySetReq where
  bay : Nat
  configure : Bool
  post : Nat
  socket : Nat
  feeder : Nat
  ctype : Nat
  rating : Nat
  deriving DecidableEq, Repr

def Rd.baySet : Rd BaySetReq := do
  let bay ← Rd.u8
  let configure ← Rd.bit
  let post ← Rd.u8
  let socket ← Rd.u8
  let feeder ← Rd.u8
  let ctype ← Rd.u8
  let rating ← Rd.u16
  return ⟨bay, configure, post, socket, feeder, ctype, rating⟩

/-- BAY-SERVICE (R5). -/
structure BayServiceReq where
  bay : Nat
  target : Nat
  force : Bool
  deriving DecidableEq, Repr

def Rd.bayService : Rd BayServiceReq := do
  let bay ← Rd.u8
  let target ← Rd.u8
  let force ← Rd.bit
  return ⟨bay, target, force⟩

/-- FEEDER-SET (R12). -/
structure FeederSetReq where
  feeder : Nat
  enable : Bool
  limit : Nat
  voltage : Nat
  concurrency : Nat
  tripEnabled : Bool
  deriving DecidableEq, Repr

def Rd.feederSet : Rd FeederSetReq := do
  let feeder ← Rd.u8
  let enable ← Rd.bit
  let limit ← Rd.u16
  let voltage ← Rd.u16
  let concurrency ← Rd.u8
  let tripEnabled ← Rd.bit
  return ⟨feeder, enable, limit, voltage, concurrency, tripEnabled⟩

/-- Two fields of one request: a byte and a two-byte number (FEEDER-TRIM). -/
def Rd.byteWord : Rd (Nat × Nat) := do
  let a ← Rd.u8
  let b ← Rd.u16
  return (a, b)

/-- Two bytes (FEEDER-CLEAR, POST-FORCE). -/
def Rd.byteByte : Rd (Nat × Nat) := do
  let a ← Rd.u8
  let b ← Rd.u8
  return (a, b)

/-- A byte and a flag (POST-SET). -/
def Rd.byteFlag : Rd (Nat × Bool) := do
  let a ← Rd.u8
  let b ← Rd.bit
  return (a, b)

/-- A minute count and a second count (CLOCK-SET). -/
def Rd.clockSet : Rd (Nat × Nat) := do
  let m ← Rd.u32
  let s ← Rd.u8
  return (m, s)

/-- PART-SET, in the order of R174. -/
def Rd.partSet : Rd Settings := do
  let guard ← Rd.u8
  let lead ← Rd.u8
  let verifyWindow ← Rd.u8
  let defaultGrace ← Rd.u8
  let earlyAllowance ← Rd.u8
  let standbyLead ← Rd.u8
  let idleTime ← Rd.u8
  let w1 ← Rd.u8
  let w2 ← Rd.u8
  let w3 ← Rd.u8
  let w4 ← Rd.u8
  let recoveryDelay ← Rd.u16
  let rolloverMinute ← Rd.u16
  return ⟨guard, lead, verifyWindow, defaultGrace, earlyAllowance, standbyLead, idleTime, w1, w2, w3, w4,
    recoveryDelay, rolloverMinute⟩

/-- Group MATCH-A as carried (R53). -/
structure MatchAReq where
  active : Bool
  classes : Nat
  connectors : Nat
  tierMin : Nat
  tierMax : Nat
  deriving DecidableEq, Repr

def Rd.matchA : Rd MatchAReq := do
  let active ← Rd.bit
  let classes ← Rd.u8
  let connectors ← Rd.u8
  let tierMin ← Rd.u8
  let tierMax ← Rd.u8
  return ⟨active, classes, connectors, tierMin, tierMax⟩

/-- Group MATCH-B as carried (R53). -/
def Rd.matchB : Rd MatchB := do
  let timeStart ← Rd.u16
  let timeEnd ← Rd.u16
  let durMin ← Rd.u16
  let durMax ← Rd.u16
  return ⟨timeStart, timeEnd, durMin, durMax⟩

/-- Group ACTION as carried (R53). -/
structure ActionReq where
  verdict : Nat
  priorityMode : Nat
  priority : Nat
  mapMode : Nat
  map : Nat
  prefMode : Nat
  pref : Nat
  grace : Nat
  deriving DecidableEq, Repr

def Rd.action : Rd ActionReq := do
  let verdict ← Rd.u8
  let priorityMode ← Rd.u8
  let priority ← Rd.u8
  let mapMode ← Rd.u8
  let map ← Rd.mask 8
  let prefMode ← Rd.u8
  let pref ← Rd.mask 8
  let grace ← Rd.u8
  return ⟨verdict, priorityMode, priority, mapMode, map, prefMode, pref, grace⟩

/-- Group TALLY as carried (R53). -/
def Rd.tally : Rd Tally := do
  let enabled ← Rd.bit
  let limit ← Rd.u16
  return ⟨enabled, limit⟩

/-- RULE-WRITE: the rule number and any subset of the four groups (R54). -/
structure RuleWriteReq where
  rule : Nat
  matchA : Option MatchAReq
  matchB : Option MatchB
  action : Option ActionReq
  tally : Option Tally
  deriving DecidableEq, Repr

def Rd.ruleWrite : Rd RuleWriteReq := do
  let rule ← Rd.u8
  let matchA ← Rd.opt Rd.matchA
  let matchB ← Rd.opt Rd.matchB
  let action ← Rd.opt Rd.action
  let tally ← Rd.opt Rd.tally
  return ⟨rule, matchA, matchB, action, tally⟩

/-- LANE-SET (R51). -/
structure LaneSetReq where
  lane : Nat
  rules : Nat
  verdict : Nat
  priority : Nat
  eligible : Nat
  deriving DecidableEq, Repr

def Rd.laneSet : Rd LaneSetReq := do
  let lane ← Rd.u8
  let rules ← Rd.mask 4
  let verdict ← Rd.u8
  let priority ← Rd.u8
  let eligible ← Rd.mask 8
  return ⟨lane, rules, verdict, priority, eligible⟩

/-- The fields that describe the driver, as carried (R66). -/
structure AskerReq where
  lane : Nat
  vclass : Nat
  ctype : Nat
  tier : Nat
  deriving DecidableEq, Repr

def Rd.asker : Rd AskerReq := do
  let lane ← Rd.u8
  let vclass ← Rd.u8
  let ctype ← Rd.u8
  let tier ← Rd.u8
  return ⟨lane, vclass, ctype, tier⟩

/-- The window that BOOK and FIND-FREE ask for (12.4). -/
structure WindowReq where
  asap : Bool
  start : Nat
  duration : Nat
  deriving DecidableEq, Repr

def Rd.window : Rd WindowReq := do
  let asap ← Rd.bit
  let start ← Rd.u32
  let duration ← Rd.u16
  return ⟨asap, start, duration⟩

/-- BOOK (12.4). -/
structure BookReq where
  asker : AskerReq
  window : WindowReq
  quota : Option Nat
  rateCap : Option Nat
  deadline : Option Nat
  pinned : Option Nat
  deriving DecidableEq, Repr

def Rd.book : Rd BookReq := do
  let asker ← Rd.asker
  let window ← Rd.window
  let quota ← Rd.opt Rd.u32
  let rateCap ← Rd.opt Rd.u16
  let deadline ← Rd.opt Rd.u32
  let pinned ← Rd.opt Rd.u8
  return ⟨asker, window, quota, rateCap, deadline, pinned⟩

/-- FIND-FREE (R79). -/
def Rd.findFree : Rd (AskerReq × WindowReq) := do
  let asker ← Rd.asker
  let window ← Rd.window
  return (asker, window)

/-- A handle and an amount (EXTEND). -/
def Rd.handleWord : Rd (Nat × Nat) := do
  let h ← Rd.u16
  let n ← Rd.u16
  return (h, n)

/-- A handle and a bay number (ARRIVE). -/
def Rd.handleByte : Rd (Nat × Nat) := do
  let h ← Rd.u16
  let b ← Rd.u8
  return (h, b)

/-- A handle and an optional added quota (SESSION-RESUME). -/
def Rd.resume : Rd (Nat × Option Nat) := do
  let h ← Rd.u16
  let q ← Rd.opt Rd.u32
  return (h, q)

/-- ARRIVE-WALKIN (R109). -/
structure WalkinReq where
  bay : Nat
  asker : AskerReq
  duration : Nat
  quota : Option Nat
  rateCap : Option Nat
  deriving DecidableEq, Repr

def Rd.walkin : Rd WalkinReq := do
  let bay ← Rd.u8
  let asker ← Rd.asker
  let duration ← Rd.u16
  let quota ← Rd.opt Rd.u32
  let rateCap ← Rd.opt Rd.u16
  return ⟨bay, asker, duration, quota, rateCap⟩

/-! ## The bay link's frames (R181) -/

/-- What a reply reports for one socket, clamped as R155 stores it. -/
structure SocketReading where
  occupied : Bool
  plugged : Bool
  reading : Nat
  cap : Nat
  deriving DecidableEq, Repr

/-- The vehicle cap as stored: 0 stays 0, 1 to 59 become 60, more than 800 becomes 800 (R155). -/
def storedCap (n : Nat) : Nat :=
  if n = 0 then 0 else if n < Config.leastCurrent then Config.leastCurrent else min n Config.largestCurrent

/-- The fields of a reply frame (R181). -/
structure LinkReply where
  address : Nat
  seq : Nat
  fault : Nat
  ready : Bool
  a : SocketReading
  b : SocketReading
  deriving DecidableEq, Repr

/-- A reply frame of 12 bytes whose CRC-8 matches, field by field; spare bits are not read (R181). -/
def LinkReply.ofBytes : List Byte → Option LinkReply
  | [b0, b1, b2, b3, b4, b5, b6, b7, b8, b9, b10, crc] =>
    if crc8 [b0, b1, b2, b3, b4, b5, b6, b7, b8, b9, b10] = crc then
      some {
        address := b0.toNat
        seq := b1.toNat / 16
        fault := b1.toNat % 16
        ready := b2.getLsbD 7
        a := ⟨b2.getLsbD 3, b2.getLsbD 2, min (b3.toNat * 256 + b4.toNat) Config.largestCurrent,
          storedCap (b7.toNat * 256 + b8.toNat)⟩
        b := ⟨b2.getLsbD 1, b2.getLsbD 0, min (b5.toNat * 256 + b6.toNat) Config.largestCurrent,
          storedCap (b9.toNat * 256 + b10.toNat)⟩ }
    else none
  | _ => none

/-- Close a command frame with its CRC-8 (R181). -/
def closeCommand (l : List Byte) : List Byte := l ++ [crc8 l]

/-- The bytes of a management frame on the line: SYNC, LEN, TAG, KIND, payload, CRC-16 high byte first (R167). -/
def Frame.line (f : Frame) : List Byte :=
  let body := u8 (f.payload.length + 2) ++ [f.tag, f.kind] ++ f.payload
  0xC3#8 :: body ++ u16 (crc16 body).toNat

end Sys2Proof.Machine
end

