-- ==== Sys2Proof/Machine/Policy.lean ====
section
/-! DEFINITION. The Admission Policy Table: what a request carries about its driver (R66), clamps (R67), evaluation
(R57 to R60), the advance and the clearing of tallies (R61 to R64). -/

namespace Sys2Proof.Machine

/-! ## The driver's fields -/

/-- The fields that describe the driver, in range (R66). -/
structure Asker where
  lane : LaneId
  vclass : Fin 8
  ctype : ConnType
  tier : Fin 16
  deriving DecidableEq, Repr

/-- The range checks of a lane, a vehicle class, a connector type and a credential tier (R66). -/
def AskerReq.inRange (q : AskerReq) : Option Asker :=
  match fin? 8 q.lane, fin? 8 q.vclass, ConnType.ofCode q.ctype, fin? 16 q.tier with
  | some lane, some vclass, some ctype, some tier => some ⟨lane, vclass, ctype, tier⟩
  | _, _, _, _ => none

/-- Round up to a multiple of 5. -/
def roundUp5 (n : Nat) : Nat := (n + 4) / 5 * 5

/-- The granted duration (R67). -/
def clampDuration (n : Nat) : Nat := min (max (roundUp5 n) 15) Config.longestWindow

/-- The quota as stored: 0 leaves the part absent, more than 200 000 is lowered (R67). -/
def clampQuota (q : Option Nat) : Option Nat :=
  q.bind (fun n => if n = 0 then none else some (min n Config.largestQuota))

/-- The rate cap as stored (R67). -/
def clampRate (q : Option Nat) : Option Nat := q.map (fun n => min (max n Config.leastCurrent) Config.largestCurrent)

/-! ## Evaluation (R57 to R60) -/

/-- The inputs of an evaluation (R57). -/
structure EvalInput where
  asker : Asker
  start : Nat
  duration : Nat
  deriving DecidableEq, Repr

/-- The admission result (R57), without its outcome. -/
structure Admission where
  priority : Nat
  eligible : BayMask
  preferred : BayMask
  grace : Option Nat
  tallies : List RuleId
  deriving DecidableEq, Repr

/-- The outcome of an evaluation with its deciding rule (R59, R60). -/
inductive Verdicts where
  | accepted (a : Admission)
  | policyRefused (rule : Option RuleId)
  | policyQuota (rule : RuleId)
  deriving DecidableEq, Repr

/-- The time-of-day test of a rule (R58). -/
def MatchB.timeMatches (m : MatchB) (minute : Nat) : Bool :=
  if m.timeStart < m.timeEnd then m.timeStart ≤ minute && minute < m.timeEnd
  else if m.timeEnd < m.timeStart then m.timeStart ≤ minute || minute < m.timeEnd
  else true

/-- Whether a considered rule matches: every test of R58 holds. -/
def Rule.fires (x : Rule) (q : EvalInput) : Bool :=
  x.matchA.classes.getLsbD q.asker.vclass.val &&
  x.matchA.connectors.getLsbD q.asker.ctype.code &&
  (x.matchA.tierMin ≤ q.asker.tier.val && q.asker.tier.val ≤ x.matchA.tierMax) &&
  x.matchB.timeMatches (minuteOfDay q.start) &&
  (x.matchB.durMin ≤ q.duration && q.duration ≤ x.matchB.durMax)

/-- The priority mode (R59, step 2). -/
def PriorityMode.apply (m : PriorityMode) (old value : Nat) : Nat :=
  match m with
  | .keep => old
  | .raise => max old value
  | .lower => min old value
  | .set => value

/-- The map mode (R59, step 3). -/
def MapMode.apply (m : MapMode) (old map : BayMask) : BayMask :=
  match m with
  | .keep => old
  | .widen => old ||| map
  | .narrow => old &&& map
  | .replace => map
  | .exclude => old &&& ~~~map

/-- The preference mode (R59, step 4). -/
def PrefMode.apply (m : PrefMode) (old map : BayMask) : BayMask :=
  match m with
  | .keep => old
  | .add => old ||| map
  | .set => map

/-- Steps 2 to 6 of R59 for a matching rule. -/
def Admission.take (a : Admission) (r : RuleId) (x : Rule) : Admission where
  priority := x.action.priorityMode.apply a.priority x.action.priority
  eligible := x.action.mapMode.apply a.eligible x.action.map
  preferred := x.action.prefMode.apply a.preferred x.action.pref
  grace := if x.action.grace = 0 then a.grace else some x.action.grace
  tallies := if x.tally.enabled then a.tallies ++ [r] else a.tallies

/-- A rule whose enabled tally stands at its limit (R55, R59, R62). -/
def Rule.full (x : Rule) : Bool := x.tally.enabled && x.counter = x.tally.limit

/-- The walk over the rules in ascending order (R58, R59); `whole` is the lane's entry, which decides at the end (R60). -/
def Part.walkRules (p : Part) (whole : Lane) (q : EvalInput) : List RuleId → Admission → Verdicts
  | [], a => if whole.verdict = .refuse then .policyRefused none else .accepted a
  | r :: rs, a =>
    let x := p.rule r
    if whole.rules.getLsbD r.val && x.matchA.active && x.fires q then
      if x.full then .policyQuota r
      else
        let taken := a.take r x
        match x.action.verdict with
        | .accept => .accepted taken
        | .refuse => .policyRefused (some r)
        | .continue_ => p.walkRules whole q rs taken
    else p.walkRules whole q rs a

/-- Evaluation of one request (R57 to R60). It writes nothing. -/
def Part.evaluate (p : Part) (q : EvalInput) : Verdicts :=
  let lane := p.lane q.asker.lane
  p.walkRules lane q allRules ⟨lane.priority, lane.eligible, 0, none, []⟩

/-- The reply of a policy refusal: the deciding rule after its presence byte (12.4). -/
def refusedBy (status : Status) (rule : Option RuleId) : Answer := ⟨status, opt (fun r : RuleId => u8 r.val) rule⟩

/-- The record's grace: the override, or the default grace setting (R60). -/
def Part.graceOf (p : Part) (a : Admission) : Nat := a.grace.getD p.settings.defaultGrace

/-! ## Tallies (R61 to R64) -/

/-- One advance of a tally counter; a counter that comes to its limit sets the rule's flag (R61, R62). -/
def Rule.advance (x : Rule) : Rule :=
  { x with counter := x.counter + 1, notice := x.notice || x.counter + 1 = x.tally.limit }

/-- A record has been created: the counter of each matched tally advances (R61). -/
def Part.advanceTallies (p : Part) (tallies : List RuleId) : Part :=
  tallies.foldl (fun p r => p.setRule r (p.rule r).advance) p

/-- The counter becomes 0; a rule that stood at its limit with its tally enabled is flagged (R62, R63). -/
def Rule.cleared (x : Rule) : Rule :=
  if x.counter = 0 then x else { x with counter := 0, notice := x.notice || x.full }

/-- Clear one counter (R63). -/
def Part.clearTally (p : Part) (r : RuleId) : Part := p.setRule r (p.rule r).cleared

/-- Clear every counter (R63, R64). -/
def Part.clearTallies (p : Part) : Part := allRules.foldl Part.clearTally p

end Sys2Proof.Machine
end

