-- ==== Sys2Proof/Machine/Placement.lean ====
section
/-! DEFINITION. The Placement Engine (R74 to R78): it reads the tables and writes nothing. -/

namespace Sys2Proof.Machine

/-- The inputs of a call (R74). -/
structure Call where
  start : Nat
  stop : Nat
  ctype : ConnType
  eligible : BayMask
  preferred : BayMask
  pinned : Option BayId
  excluded : Option BayId
  moving : Option SlotId
  deriving DecidableEq, Repr

/-- The records on a bay's chain other than the moving one, in chain order (R74). -/
def Part.others (p : Part) (b : BayId) (moving : Option SlotId) : List Record :=
  ((p.chain b).filter (fun s => moving ≠ some s)).filterMap p.record

/-- The records on every configured bay of a feeder, other than the moving one (R77). -/
def Part.feederOthers (p : Part) (f : FeederId) (moving : Option SlotId) : List Record :=
  (p.baysOfFeeder f).flatMap (fun b => p.others b moving)

/-- A window contains a minute (spec 00, 5.2). -/
def Record.covers (r : Record) (m : Nat) : Bool := r.windowStart ≤ m && m < r.windowEnd

/-- The count of chained records on a feeder's bays whose window contains minute `m` (R77). -/
def Part.overlap (p : Part) (f : FeederId) (moving : Option SlotId) (m : Nat) : Nat :=
  ((p.feederOthers f moving).filter (·.covers m)).length

/-- The minutes of [s, e) at which the count of R77 can be largest: s and each window start inside. -/
def Part.countPoints (p : Part) (f : FeederId) (moving : Option SlotId) (s e : Nat) : List Nat :=
  (s :: (p.feederOthers f moving).map (·.windowStart)).filter (fun m => s ≤ m && m < e)

/-- The concurrency test: the count is below the feeder's cap at every minute of [s, e) (R77). -/
def Part.carries (p : Part) (f : FeederId) (moving : Option SlotId) (s e : Nat) : Bool :=
  (p.countPoints f moving s e).all (fun m => p.overlap f moving m < (p.feeder f).concurrency)

/-- The first minute at or after `u` at which the count is at or above the feeder's cap, if any (R81, R110). The count
rises only at window starts, so that the first such minute is `u` or a later window start. -/
def Part.firstFull (p : Part) (f : FeederId) (moving : Option SlotId) (u : Nat) : Option Nat :=
  ((u :: (p.feederOthers f moving).map (·.windowStart)).filter
    (fun m => u ≤ m && (p.feeder f).concurrency ≤ p.overlap f moving m)).min?

/-- The candidate test (R75). -/
def Part.candidate (p : Part) (c : Call) (b : BayId) : Bool :=
  let x := p.bay b
  x.configured && BayMask.has c.eligible b && x.ctype = c.ctype && x.condition ≠ .out &&
  (c.start > p.now + p.settings.lead ||
    (x.condition ≠ .dark && x.condition ≠ .unverified && x.condition ≠ .intruded && x.condition ≠ .overstay)) &&
  (c.pinned = none || c.pinned = some b) &&
  c.excluded ≠ some b

/-- The fit test: every other record on the chain clears the window by the guard (R76). -/
def Part.fits (p : Part) (c : Call) (b : BayId) : Bool :=
  (p.others b c.moving).all (fun r =>
    r.windowEnd + p.settings.guard ≤ c.start || c.stop + p.settings.guard ≤ r.windowStart)

/-- Every test that a bay must pass (R75, R76, R77). -/
def Part.passes (p : Part) (c : Call) (b : BayId) : Bool :=
  p.candidate c b && p.fits c b && p.carries (p.bay b).feeder c.moving c.start c.stop

/-- The bays that pass, in bay order: the mask form (R74). -/
def Part.passing (p : Part) (c : Call) : List BayId := allBays.filter (p.passes c)

/-- The record with the greatest window start among those that start below `s` (R78). -/
def predecessor (s : Nat) : List Record → Option Record
  | [] => none
  | r :: rs =>
    match predecessor s rs with
    | none => if r.windowStart < s then some r else none
    | some q => if r.windowStart < s && q.windowStart < r.windowStart then some r else some q

/-- The lead gap of a bay; a value below 0 is taken as 0 (R78). -/
def Part.leadGap (p : Part) (c : Call) (b : BayId) : Nat :=
  match predecessor c.start (p.others b c.moving) with
  | some r => c.start - (r.windowEnd + p.settings.guard)
  | none => c.start - p.now

/-- Whether bay `b` ranks before bay `b'`: preferred first, then the smaller lead gap, then the lower number (R78). -/
def Part.ranks (p : Part) (c : Call) (b b' : BayId) : Bool :=
  let pref := BayMask.has c.preferred b
  let pref' := BayMask.has c.preferred b'
  (pref && !pref') ||
    (pref = pref' && (p.leadGap c b < p.leadGap c b' || (p.leadGap c b = p.leadGap c b' && b < b')))

/-- The bay that ranks first in a list. -/
def Part.best (p : Part) (c : Call) : List BayId → Option BayId
  | [] => none
  | b :: bs =>
    match p.best c bs with
    | none => some b
    | some b' => if p.ranks c b b' then some b else some b'

/-- The single form: the bay that ranks first among those that pass, or none (R78). -/
def Part.place (p : Part) (c : Call) : Option BayId := p.best c (p.passing c)

/-- The call of an existing record (R91, R113): its own connector type and masks, and no pinned bay. -/
def Record.call (r : Record) (start stop : Nat) (excluded : Option BayId) (moving : Option SlotId) : Call where
  start := start
  stop := stop
  ctype := r.ctype
  eligible := r.eligible
  preferred := r.preferred
  pinned := none
  excluded := excluded
  moving := moving

end Sys2Proof.Machine
end

