-- ==== Sys2Proof/Machine/Sessions.lean ====
section
/-! DEFINITION. What happens to one session (R116 to R131), as functions of the session part. -/

namespace Sys2Proof.Machine

/-- The session part at engagement (R30, R118). -/
def Session.start (plug : Plug) (penalty now : Nat) : Session :=
  let fresh : Session :=
    { phase := .plugWait, pause := .none, stoppedIn := none, engaged := now, within := 0, excess := 0, residue := 0
      satisfied := 0, seen := .empty, overstayStart := none, settle := none }
  if plug = .plugged then fresh.intoCharge penalty else fresh

/-- Entry to SETTLING; the timer runs for 30 s from `time` (R116, R124, R125). -/
def Session.intoSettling (x : Session) (cause : SettleCause) (time : Nat) : Session :=
  { x with phase := .settling, settle := some ⟨cause, time + Config.settleTime⟩, stoppedIn := none, pause := .none
           satisfied := 0 }

/-- The session after a post loss, in every phase but SETTLING (R121). -/
def Session.halt (x : Session) : Session :=
  match x.phase with
  | .overstay | .halted | .settling => x
  | .plugWait | .charge | .paused | .quotaMet | .satisfied =>
    { x with phase := .halted, stoppedIn := some x.phase, pause := .none, seen := { x.seen with halted := true }
             satisfied := 0 }

/-- The window end at minute `now` (R123). -/
def Session.windowEnd (x : Session) (now : Nat) : Session :=
  match x.phase with
  | .settling | .overstay => x
  | .plugWait | .charge | .paused | .quotaMet | .satisfied | .halted =>
    { x with phase := .overstay, overstayStart := some now, seen := { x.seen with overstayed := true }
             pause := .none, stoppedIn := none, satisfied := 0 }

/-- Whether the energy within quota stands at the quota (R119, R129). -/
def Session.quotaFull (x : Session) (quota : Option Nat) : Bool := quota = some x.within

/-- The plug becomes PLUGGED (R119). -/
def Session.plugIn (x : Session) (quota : Option Nat) (penalty : Nat) : Session :=
  match x.phase with
  | .plugWait =>
    if x.quotaFull quota then { x with phase := .quotaMet, satisfied := 0 }
    else { x.intoCharge penalty with satisfied := 0 }
  | .charge | .paused | .quotaMet | .satisfied | .halted | .overstay | .settling => x

/-- The plug becomes UNPLUGGED (R119). -/
def Session.plugOut (x : Session) : Session :=
  match x.phase with
  | .charge | .paused | .quotaMet | .satisfied => { x with phase := .plugWait, satisfied := 0, pause := .none }
  | .plugWait | .halted | .overstay | .settling => x

/-- The phase after a resume from HALTED, read with the plug (R127). -/
def Session.resumed (x : Session) (plugged : Bool) (penalty : Nat) : Session :=
  let y := { x with stoppedIn := none }
  match x.stoppedIn with
  | some .quotaMet => { y with phase := if plugged then .quotaMet else .plugWait }
  | some .satisfied => if plugged then { y with phase := .satisfied, satisfied := Config.satisfiedTicks }
      else { y with phase := .plugWait }
  | _ => if plugged then y.intoCharge penalty else { y with phase := .plugWait }

/-- The quota is reached: the change of phase (R129). -/
def Session.meetQuota (x : Session) : Session :=
  match x.phase with
  | .charge | .paused | .satisfied => { x with phase := .quotaMet, pause := .none, satisfied := 0 }
  | .halted =>
    match x.stoppedIn with
    | some .charge | some .paused | some .satisfied => { x with stoppedIn := some .quotaMet }
    | _ => x
  | .plugWait | .quotaMet | .overstay | .settling => x

/-- An energy count saturates (R128). -/
def saturate (n : Nat) : Nat := min n Config.largestEnergy

/-- OVERRUN is seen whenever the excess energy is nonzero (R129). -/
def Session.noteOverrun (x : Session) : Session :=
  if x.excess = 0 then x else { x with seen := { x.seen with overrun := true } }

/-- The whole Wh of a tick are counted (R129). -/
def Session.count (x : Session) (quota : Option Nat) (wh : Nat) : Session :=
  match quota with
  | none => { x with within := saturate (x.within + wh) }
  | some q =>
    if x.within < q then
      if q ≤ x.within + wh then
        let y := { x with within := q, excess := saturate (x.excess + (x.within + wh - q))
                          seen := { x.seen with quotaMet := true } }
        y.noteOverrun.meetQuota
      else { x with within := x.within + wh }
    else Session.noteOverrun { x with excess := saturate (x.excess + wh) }

/-- One tick of metering with the held reading and the nominal voltage (R128). -/
def Session.meter (x : Session) (quota : Option Nat) (reading voltage : Nat) : Session :=
  let total := x.residue + reading * voltage
  Session.count { x with residue := total % Config.residuePerWh } quota (total / Config.residuePerWh)

/-- Whether one tick of metering brings the energy within to the quota. -/
def Session.reachesQuota (x : Session) (quota : Option Nat) (reading voltage : Nat) : Bool :=
  match quota with
  | none => false
  | some q => x.within < q && q ≤ x.within + (x.residue + reading * voltage) / Config.residuePerWh

/-- Whether a tick counts towards SATISFIED (R130). -/
def Session.drawsNothing (x : Session) (limit reading : Nat) : Bool :=
  x.phase = .charge && limit ≥ Config.leastCurrent && reading < 10

/-- The satisfied check of one tick (R130). -/
def Session.checkSatisfied (x : Session) (limit reading : Nat) : Session :=
  if x.drawsNothing limit reading then
    if Config.satisfiedTicks ≤ x.satisfied + 1 then
      { x with phase := .satisfied, satisfied := Config.satisfiedTicks, seen := { x.seen with satisfied := true } }
    else { x with satisfied := x.satisfied + 1 }
  else if x.phase = .satisfied then { x with satisfied := Config.satisfiedTicks }
  else { x with satisfied := 0 }

/-- An overdraw penalty is given to the session's bay (R131). -/
def Session.penalize (x : Session) : Session :=
  match x.phase with
  | .charge | .paused => { x with phase := .paused, pause := .overdraw }
  | .plugWait | .quotaMet | .satisfied | .halted | .overstay | .settling => x

end Sys2Proof.Machine
end

