-- ==== Sys2Proof/Machine/Tracker.lean ====
section
/-! DEFINITION. Moves of one record that several rules share: waking a post (R162), the checks due at once (R23), the
close (R41, R42, R102), engagement (R101), occupancy (R98, R99), demotion (R88) and relocation (R113, R114), the lead
check (R112). -/

namespace Sys2Proof.Machine

/-! ## Waking a post -/

/-- A wake cause reaches a post: STANDBY becomes WAKING and the wake limit starts; no other state is affected (R162). -/
def Part.wakePost (p : Part) (q : PostId) : Part :=
  if (p.post q).link = .standby then
    p.modPost q (fun x => { x with link := .waking, timer := .wake (p.time + Config.wakeTime), notice := true })
  else p

/-- The wake check of a record on bay `b` is taken (R164). -/
def Part.wakeBay (p : Part) (b : BayId) : Part := p.wakePost (p.bay b).post

/-! ## Checks with new due minutes -/

/-- The lead check of a record is to be taken at once, within the event in progress (R112). -/
def Part.leadDue (p : Part) (s : SlotId) : Part := { p with work := { p.work with leads := p.work.leads ++ [s] } }

/-- A minute is at or before now, with the clock SET (R23). The due minute may lie before minute 0, so that it is
compared as `due ≤ now + lead`. -/
def Part.reached (p : Part) (due lead : Nat) : Bool := p.clock.set && due ≤ p.now + lead

/-- The lead check and wake check of a record take new due minutes; one at or before now is taken at once (R23, R164). -/
def Part.armChecks (p : Part) (s : SlotId) : Part :=
  match p.record s with
  | none => p
  | some r =>
    let lead := p.reached r.windowStart p.settings.lead
    let wake := p.reached r.windowStart p.settings.standbyLead
    let armed := p.put s { r with leadTaken := lead, wakeTaken := wake }
    let queued := if lead then armed.leadDue s else armed
    match r.bay with
    | some b => if wake then queued.wakeBay b else queued
    | none => queued

/-! ## Occupancy and engagement -/

/-- Engagement (R101); the bay derives its condition in the caller's event once the Tracker has done. -/
def Part.engage (p : Part) (s : SlotId) (cause : LastCause) : Part :=
  match p.record s with
  | none => p
  | some r =>
    match r.bay with
    | none => p
    | some b =>
      let session := Session.start (p.plugOf b) (p.bay b).penalty p.now
      let engaged := p.put s { r.flag cause with state := .engaged, session := some session }
      ((engaged.modBay b (fun x => { x with verify := .idle })).shareChanged (p.bay b).feeder).derive b

/-- The steps of R98 for a report of OCCUPIED. -/
def Part.occupied (p : Part) (b : BayId) : Part :=
  match p.occupant b with
  | some _ => p
  | none =>
    match (p.chain b).find? (p.recordIs (fun r => r.state = .arriving)) with
    | some s => p.engage s .occupancy
    | none =>
      match (p.bay b).verify with
      | .idle => p.modBay b (fun x => { x with verify := .running (p.now + p.settings.verifyWindow) })
      | .running _ | .expired => p

/-- The steps of R99 for a report of VACANT. -/
def Part.vacated (p : Part) (b : BayId) : Part :=
  match p.occupant b with
  | some _ => p
  | none => p.modBay b (fun x => { x with verify := .idle })

/-- An occupancy event, and the condition that follows from it (R97 to R99, R8). -/
def Part.occupancyEvent (p : Part) (b : BayId) (occupied : Bool) : Part :=
  (if occupied then p.occupied b else p.vacated b).derive b

/-! ## The close -/

/-- The close summary, from the record as it stands (R42, R132). -/
def Record.summary (r : Record) (handle now : Nat) (result : Result) (closedBy : ClosedBy) : CloseSummary where
  handle := handle
  bay := r.bay
  result := result
  closedBy := closedBy
  windowStart := r.windowStart
  windowEnd := r.windowEnd
  extensions := r.extensions.length
  engaged := r.session.map (·.engaged)
  closed := now
  within := (r.session.map (·.within)).getD 0
  excess := (r.session.map (·.excess)).getD 0
  seen := (r.session.map (·.seen)).getD .empty
  overstay := ((r.session.bind (·.overstayStart)).map (fun m => now - m)).getD 0

/-- The record after its close (R41): its settle state ends with the session (R132), and its residue is dropped (R128). -/
def Record.closed (r : Record) (handle now : Nat) (result : Result) (closedBy : ClosedBy) : Record :=
  { r with
    state := .closing
    lastCause := .closed
    notice := false
    session := r.session.map (fun x => { x with settle := none, residue := 0 })
    close := some (r.summary handle now result closedBy) }

/-- A record is closed by the rule that ends it, with the effects on its neighbours (R41, R102). -/
def Part.closeRecord (p : Part) (s : SlotId) (result : Result) (closedBy : ClosedBy) : Part :=
  match p.record s with
  | none => p
  | some r =>
    let stored := p.put s (r.closed (p.pool.handle s) p.now result closedBy)
    if !r.state.chained then stored
    else
      match r.bay with
      | none => stored
      | some b =>
        let retried := stored.retryDue
        let freed :=
          if r.state = .engaged then
            (retried.modBay b (fun x => { x with penalty := 0 })).shareChanged (p.bay b).feeder
          else retried
        let tracked :=
          if r.state = .engaged && closedBy = .departed && freed.occupancyOf b = .occupied then freed.occupied b
          else freed
        tracked.derive b

/-! ## Relocation -/

/-- The duration of a demoted record with window [start, stop): the exact remaining length (R88). Where the window has no
minute, which only a RETRACT after a step back of the clock leaves, it is a free value from 1 to 720 (log 40). -/
def remainingLength (start stop : Nat) : Nat :=
  if start < stop then stop - start else (Config.durationOfNoMinutes start stop).val + 1

/-- The record after demotion, at minute `now` (R88). -/
def Record.demoted (r : Record) (now : Nat) : Record :=
  let start := max r.windowStart now
  { r.flag .demoted with
    state := .waiting
    bay := none
    priority := min (r.priority + 1) 4
    windowStart := start
    duration := remainingLength start r.windowEnd
    graceEnd := min (start + r.grace) r.windowEnd
    deadline := some (start + r.grace)
    extensions := [] }

/-- A record that relocation could not place is demoted, or closes DISPLACED with the list full (R88, R114). -/
def Part.demote (p : Part) (s : SlotId) : Part :=
  match p.record s with
  | none => p
  | some r =>
    if p.pool.waiting.length < Config.waitingPlaces then
      let stored := (p.put s (r.demoted p.now)).retryDue
      match r.bay with
      | some a => stored.derive a
      | none => stored
    else p.closeRecord s .displaced .relocation

/-- The record after its move to bay `c` by relocation, at minute `now` (R113). -/
def Record.relocated (r : Record) (c : BayId) (now : Nat) : Record :=
  let start := max r.windowStart now
  { r.flag .relocated with
    bay := some c
    windowStart := start
    graceEnd := min (start + r.grace) r.windowEnd
    state := if r.state = .booked && start ≤ now then .held else r.state }

/-- Relocation of one record off its bay (R113, R114). A record whose window end has come, and has not been taken yet,
is closed by it first: R24 sets no order between the two, and relocation would leave it a window without a minute, which
R40 and R88 exclude (log 23). -/
def Part.relocate (p : Part) (s : SlotId) : Part :=
  match p.record s with
  | none => p
  | some r =>
    match r.bay with
    | none => p
    | some a =>
      if !r.state.upcoming then p
      else if p.reached r.windowEnd 0 then p.closeRecord s .noShow .timer
      else
        match p.place (r.call (max r.windowStart p.now) r.windowEnd (some a) (some s)) with
        | some c => ((((p.put s (r.relocated c p.now)).derive a).derive c).armChecks s).retryDue
        | none => p.demote s

/-- The lead check of a record (R112). -/
def Part.leadCheck (p : Part) (s : SlotId) : Part :=
  match p.record s with
  | none => p
  | some r =>
    match r.bay with
    | none => p
    | some b => if r.state.upcoming && (p.bay b).condition.blocking then p.relocate s else p

/-- The walk of a blocking event along the bay's chain (R111). -/
def Part.walkBlocked (p : Part) (x : Blocked) : Part :=
  (p.chain x.bay).foldl (fun p s =>
    match p.record s with
    | none => p
    | some r =>
      if r.state.upcoming && r.bay = some x.bay &&
          (x.service || r.windowStart ≤ p.now + p.settings.lead) then p.relocate s
      else p) p

/-! ## Ending a session (R132) -/

/-- The session of a record enters SETTLING (R124, R125). -/
def Part.settle (p : Part) (s : SlotId) (cause : SettleCause) : Part :=
  p.updSession s (fun x => x.intoSettling cause p.time)

/-- The closed-by value of a settle cause (R126). -/
def SettleCause.closedBy : SettleCause → ClosedBy
  | .departed => .departed
  | .host => .host
  | .service => .service

/-- END-SESSION, or a forced BAY-SERVICE OUT, on an ENGAGED record (R125). -/
def Part.endSession (p : Part) (s : SlotId) (cause : SettleCause) : Part :=
  match p.session s with
  | none => p
  | some x =>
    match x.phase with
    | .halted => p.closeRecord s .stopped cause.closedBy
    | .settling => p
    | .plugWait | .charge | .paused | .quotaMet | .satisfied | .overstay => p.settle s cause

end Sys2Proof.Machine
end

