-- ==== Sys2Proof/Machine/Exchange.lean ====
section
/-! DEFINITION. The poll round and its exchanges (R151, R152), the command frame (R153, R181), and the completion of an
event: blocking walks (R111), lead checks due at once (R112), the retry (R90 to R92), idle conditions (R161), the next
exchange (R151). -/

namespace Sys2Proof.Machine

/-! ## The command frame -/

/-- The kinds of command (R181). -/
inductive CommandKind where
  | probe | clear | run | standby | wake
  deriving DecidableEq, Repr

def CommandKind.code : CommandKind → Nat
  | .probe => 0
  | .clear => 1
  | .run => 2
  | .standby => 3
  | .wake => 4

/-- The command kind for a link state (R153); a post in ABSENT is never visited. -/
def LinkState.command : LinkState → CommandKind
  | .seeking | .isolated | .lost | .absent => .probe
  | .preparing => .clear
  | .active => .run
  | .standby => .standby
  | .waking => .wake

/-- The limit for a socket: the assigned limit of its bay in a RUN command, 0 otherwise (R153). -/
def Part.limitOf (p : Part) (q : PostId) (k : Socket) : Nat :=
  match (p.post q).link.command with
  | .run =>
    match p.boundBay q k with
    | some b => (p.bay b).limit
    | none => 0
  | .probe | .clear | .standby | .wake => 0

/-- The command for a post, built from the present state (R153, R181). -/
def Part.commandFor (p : Part) (q : PostId) : List Byte :=
  closeCommand <|
    u8 q.val ++ u8 ((p.post q).seq * 16 + (p.post q).link.command.code) ++
    u16 (p.limitOf q .a) ++ u16 (p.limitOf q .b) ++
    u8 ((p.indicatorOf q .a).code * 16 + (p.indicatorOf q .b).code)

/-! ## The round -/

/-- Whether a post is due in the present round (R151). -/
def Part.postDue (p : Part) (q : PostId) : Bool :=
  (p.post q).inUse &&
  match (p.post q).link with
  | .seeking | .preparing | .active | .waking | .isolated | .lost => true
  | .standby => p.link.roundCount = 0
  | .absent => false

/-- Whether a post's address lies above the last address visited in the round. -/
def Link.above (l : Link) (q : PostId) : Bool :=
  match l.lastVisited with
  | some v => v < q
  | none => true

/-- The next due post of the round, if any (R151). -/
def Part.nextPost (p : Part) : Option PostId := allPosts.find? (fun q => p.link.above q && p.postDue q)

/-- The exchange with the next due post is opened; the round ends when there is none (R151, R152). -/
def Part.openNext (p : Part) : Part :=
  match p.nextPost with
  | some q => { p with link := { p.link with exchange := some ⟨q, (p.post q).seq, p.commandFor q, none⟩ } }
  | none => p

/-- The exchange in progress ends: its post becomes the last address visited, and the next exchange is opened at the end
of the event (R151, log 20). -/
def Part.endExchange (p : Part) (q : PostId) : Part :=
  { p with
    link := { p.link with lastVisited := some q, exchange := none }
    work := { p.work with nextExchange := true } }

/-- An exchange in progress with a post is cut (R152). -/
def Part.cut (p : Part) (q : PostId) : Part :=
  match p.link.exchange with
  | some x => if x.post = q then p.endExchange q else p
  | none => p

/-- LDE, high while the part transmits a command (spec 00, 3). -/
def Link.lde (l : Link) : Bool :=
  match l.exchange with
  | some x => x.deadline = none
  | none => false

/-! ## The retry of the Waiting List -/

/-- The record as a retry places it on bay `b` with trial window [s, s + d), at minute `now` (R92). -/
def Record.placed (r : Record) (b : BayId) (start now : Nat) : Record :=
  { r.flag .placed with
    state := if start > now then .booked else .held
    bay := some b
    windowStart := start
    windowEnd := start + r.duration
    graceEnd := min (start + r.grace) (start + r.duration)
    endTaken := false }

/-- One record of the scan (R91, R92). -/
def Part.tryWaiting (p : Part) (s : SlotId) : Part :=
  match p.record s with
  | none => p
  | some r =>
    if r.state ≠ .waiting then p
    else
      let start := max r.windowStart p.now
      match p.place (r.call start (start + r.duration) none none) with
      | some b => ((p.put s (r.placed b start p.now)).derive b).armChecks s
      | none => p

/-- One scan of the list, from its head to its tail (R91). -/
def Part.retry (p : Part) : Part := p.pool.waiting.foldl Part.tryWaiting p

/-! ## Idle conditions -/

/-- The idle condition of a post (R161). -/
def Part.idleHolds (p : Part) (q : PostId) : Bool :=
  p.settings.idleTime ≠ 0 &&
  (p.baysOfPost q).all (fun b =>
    ((p.bay b).condition = .free || (p.bay b).condition = .out) &&
    (p.chain b).all (fun s => !p.recordIs (fun r => r.windowStart ≤ p.now + p.settings.standbyLead) s))

/-- The idle condition of an ACTIVE post is evaluated: its timer starts or stops (R161). -/
def Part.evalIdle (p : Part) (q : PostId) : Part :=
  if (p.post q).link = .active then
    match (p.post q).timer with
    | .idle _ => if p.idleHolds q then p else p.modPost q (fun x => { x with timer := .stopped })
    | .stopped | .prepare _ | .wake _ =>
      if p.idleHolds q && p.clock.set then
        p.modPost q (fun x => { x with timer := .idle (p.now + p.settings.idleTime) })
      else p
  else p

/-- The idle condition of every ACTIVE post is to be evaluated (R161). -/
def Part.touchActive (p : Part) : Part :=
  allPosts.foldl (fun p q => if (p.post q).link = .active then p.touchPost q else p) p

/-! ## Completing an event -/

/-- Blocking events reported in the event are taken, each by its walk, in the order in which they were reported (R111).
The spec sets no order between those of two bays (log 14), nor between a walk and what the same reply writes into another
bay (log 38). -/
def Part.takeBlocked (p : Part) : Part :=
  p.work.blocked.foldl Part.walkBlocked { p with work := { p.work with blocked := [] } }

/-- Lead checks due at once are taken (R112). -/
def Part.takeLeads (p : Part) : Part :=
  p.work.leads.foldl Part.leadCheck { p with work := { p.work with leads := [] } }

/-- A due retry is taken, with the checks due at once for the records it places (R90). -/
def Part.takeRetry (p : Part) : Part :=
  if p.work.retry then
    let scanned := p.retry.takeLeads
    { scanned with work := { scanned.work with retry := false } }
  else p

/-- The touched posts' idle conditions are evaluated (R161). -/
def Part.takeIdle (p : Part) : Part :=
  p.work.idle.foldl Part.evalIdle { p with work := { p.work with idle := [] } }

/-- The next exchange of the round is opened when one has ended or a round begins (R151). -/
def Part.takeExchange (p : Part) : Part :=
  if p.work.nextExchange then
    let cleared := { p with work := { p.work with nextExchange := false } }
    cleared.openNext
  else p

/-- An event or request makes all of its own changes; its blocking walks and checks at once, then the retry, then the
idle conditions and the next exchange complete it (R90, R111, R112, R151, R161). Nothing is left to do afterwards. That
the walks come after all the event's own writes, those of a reply's other socket among them, is the model's choice
(log 14, 38). -/
def Part.finish (p : Part) : Part :=
  let done := p.takeBlocked.takeLeads.takeRetry.takeIdle.takeExchange
  { done with work := .empty }

end Sys2Proof.Machine
end

