-- ==== Sys2Proof/Machine/Share.lean ====
section
/-! DEFINITION. The Share Unit: the demanding set, admission, weighted shares, rotor and recompute (R138 to R144), the
overdraw check and its penalties (R145), the feeder's states (R133, R135); the Session Unit's tick (R128 to R130). -/

namespace Sys2Proof.Machine

/-! ## The demanding set and its caps -/

/-- A member of the demanding set with what the share reads of it (R138 to R141). -/
structure Member where
  bay : BayId
  slot : SlotId
  cap : Nat
  priority : Nat
  engaged : Nat
  weight : Nat
  deriving DecidableEq, Repr

/-- The weight of a priority class (R141). -/
def Settings.weight (x : Settings) (priority : Nat) : Nat :=
  if priority ≤ 1 then x.w1 else if priority = 2 then x.w2 else if priority = 3 then x.w3 else x.w4

/-- The cap of a bay with a given rate cap: the rating, the rate cap when present, the vehicle cap when not 0 (R139). -/
def Bay.capWith (x : Bay) (rateCap : Option Nat) : Nat :=
  let rated := match rateCap with
    | some r => min x.rating r
    | none => x.rating
  if x.cap = 0 then rated else min rated x.cap

/-- The bay as a member of the demanding set, when it is one (R138). -/
def Part.member (p : Part) (b : BayId) : Option Member :=
  match p.occupant b with
  | none => none
  | some s =>
    match p.record s with
    | none => none
    | some r =>
      match r.session with
      | none => none
      | some x =>
        if x.phase.demands && !(p.bay b).condition.unusable && (p.bay b).penalty = 0 then
          some { bay := b, slot := s, cap := (p.bay b).capWith r.rateCap, priority := r.priority, engaged := x.engaged
                 weight := p.settings.weight r.priority }
        else none

/-- The demanding set of a feeder, in bay order (R138). -/
def Part.demanding (p : Part) (f : FeederId) : List Member := (p.baysOfFeeder f).filterMap p.member

/-! ## Admission (R140) -/

/-- Whether a member is admitted before another: priority class highest first, then engaged minute earliest first, then
bay number lowest first (R140). -/
def Member.before (a b : Member) : Bool :=
  a.priority > b.priority ||
    (a.priority = b.priority && (a.engaged < b.engaged || (a.engaged = b.engaged && a.bay < b.bay)))

/-- A list of members in the order of admission. -/
def admissionOrder : List Member → List Member
  | [] => []
  | m :: ms => insertBefore m.before m (admissionOrder ms)

/-- The bays admitted with an available current (R140). -/
def admitted (available : Nat) (d : List Member) : List BayId :=
  if 60 * d.length ≤ available then d.map (·.bay)
  else ((admissionOrder d).take (available / 60)).map (·.bay)

/-! ## Weighted shares (R141) -/

/-- A bay with a current. -/
abbrev Given := BayId × Nat

/-- The result of the second step: the bays fixed at their caps, the final trial values in bay order, the leftover. -/
structure Shares where
  fixed : List Given
  open_ : List Given
  leftover : Nat
  deriving DecidableEq, Repr

/-- The sum of the weights (R141, step 1). -/
def weightSum (u : List Member) : Nat := (u.map (·.weight)).sum

/-- The trial value of a member (R141, step 2). -/
def Member.trial (m : Member) (r w : Nat) : Nat := 60 + r * m.weight / w

/-- The passes of R141; `fuel` is the number of bays in `u`, since each pass but the last fixes one. -/
def sharePasses : Nat → Nat → List Member → List Given → Shares
  | 0, _, _, fixed => ⟨fixed, [], 0⟩
  | fuel + 1, r, u, fixed =>
    let w := weightSum u
    let full := u.filter (fun m => m.cap ≤ m.trial r w)
    let rest := u.filter (fun m => m.trial r w < m.cap)
    if u.isEmpty then ⟨fixed, [], 0⟩
    else if full.isEmpty then
      ⟨fixed, u.map (fun m => (m.bay, m.trial r w)), r - (u.map (fun m => r * m.weight / w)).sum⟩
    else sharePasses fuel (r - (full.map (fun m => m.cap - 60)).sum) rest (fixed ++ full.map (fun m => (m.bay, m.cap)))

/-- The second step over the admitted members, in bay order (R141). -/
def shares (available : Nat) (k : List Member) : Shares := sharePasses k.length (available - 60 * k.length) k []

/-! ## The leftover (R142) -/

/-- The bays in cyclic order from the rotor (R142). -/
def cyclicFrom (rotor : Nat) (l : List Given) : List Given :=
  l.filter (fun g => rotor ≤ g.1.val) ++ l.filter (fun g => g.1.val < rotor)

/-- The first `n` bays raised by one unit. -/
def raiseFirst (n : Nat) (l : List Given) : List Given :=
  (l.take n).map (fun g => (g.1, g.2 + 1)) ++ l.drop n

/-- The rotor after the leftover has been handed out (R142). -/
def nextRotor (rotor leftover : Nat) (order : List Given) : Nat :=
  match (order.take leftover).getLast? with
  | some g => (g.1.val + 1) % 64
  | none => rotor

/-! ## The recompute -/

/-- What a recompute gives: a limit for each admitted bay, and the rotor after it. -/
structure Division where
  given : List Given
  rotor : Nat
  deriving DecidableEq, Repr

/-- The division of an available current over a demanding set (R140 to R142). -/
def divide (available rotor : Nat) (d : List Member) : Division :=
  let k := d.filter (fun m => m.bay ∈ admitted available d)
  let x := shares available k
  let order := cyclicFrom rotor x.open_
  ⟨x.fixed ++ raiseFirst x.leftover order, nextRotor rotor x.leftover order⟩

/-- The division of a feeder's current: no bay is admitted while the feeder is not NORMAL (R140). -/
def Part.division (p : Part) (f : FeederId) : Division :=
  match (p.feeder f).state with
  | .normal => divide (p.feeder f).available (p.feeder f).rotor (p.demanding f)
  | .unused | .tripped | .recovering => ⟨[], (p.feeder f).rotor⟩

/-- The value given to a bay, 0 where it is not admitted (R143). -/
def Division.limit (x : Division) (b : BayId) : Nat := (x.given.lookup b).getD 0

/-- The phase of a member after a recompute that admits it or not (R120, R140). -/
def Session.shared (x : Session) (isAdmitted : Bool) (cause : PauseCause) : Session :=
  if isAdmitted then { x with phase := .charge, pause := .none } else { x with phase := .paused, pause := cause }

/-- The pause cause of members that are not admitted (R140). -/
def FeederState.pauseCause : FeederState → PauseCause
  | .normal => .shortfall
  | .unused | .tripped | .recovering => .trip

/-- The recompute of a feeder in use that has a configured bay (R138 to R143, R146, R147). -/
def Part.share (p : Part) (f : FeederId) : Part :=
  let d := p.demanding f
  let x := p.division f
  let cause := (p.feeder f).state.pauseCause
  let isAdmitted (m : Member) : Bool := (x.given.lookup m.bay).isSome
  let limited := (p.baysOfFeeder f).foldl (fun p b => p.modBay b (fun y => { y with limit := x.limit b })) p
  let phased := d.foldl (fun p m => p.updSession m.slot (fun y => y.shared (isAdmitted m) cause)) limited
  let short := cause = .shortfall && d.any (fun m => !isAdmitted m)
  let flagged := phased.modFeeder f (fun y =>
    let z := { y with rotor := x.rotor, recomputeDue := false }
    if short then z.stick .justShortfall else z)
  flagged.evalCondition f

/-- A recompute of a feeder; one of an UNUSED feeder or of a feeder with no configured bay writes nothing (R144). -/
def Part.recompute (p : Part) (f : FeederId) : Part :=
  if (p.feeder f).state = .unused || (p.baysOfFeeder f).isEmpty then
    p.modFeeder f (fun x => { x with recomputeDue := false })
  else p.share f

/-- Every feeder is recomputed (R175). -/
def Part.recomputeAll (p : Part) : Part := allFeeders.foldl Part.recompute p

/-! ## Feeder states (R133, R135) -/

/-- The feeder becomes TRIPPED, within one event (R135, R146); its overdraw count is 0 while it is not NORMAL (R147). -/
def Part.tripFeeder (p : Part) (f : FeederId) : Part :=
  (p.modFeeder f (fun x =>
    Feeder.stick { x with state := .tripped, recovery := none, overdrawCount := 0, notice := true }
      .justTrip)).recompute f

/-- The feeder becomes NORMAL at the end of recovery, or by the disabling of its trip input (R13, R135). -/
def Part.restore (p : Part) (f : FeederId) : Part :=
  ((p.modFeeder f (fun x => { x with state := .normal, recovery := none, notice := true })).recompute f).retryDue

/-- A change of the debounced trip level at the feeder (R134, R135). -/
def Part.levelChanged (p : Part) (f : FeederId) (active : Bool) : Part :=
  let stored := p.modFeeder f (fun x => { x with active := active, notice := true })
  let x := p.feeder f
  if active then
    if x.tripEnabled && (x.state = .normal || x.state = .recovering) then stored.tripFeeder f else stored
  else if x.state = .tripped then
    (stored.modFeeder f (fun y => { y with
      state := .recovering
      recovery := some (p.time + p.settings.recoveryDelay * Config.second) })).recompute f
  else stored

/-! ## The Share Unit's tick (R145) -/

/-- The sum of the held readings of a feeder's configured bays (R145, R149). -/
def Part.readingSum (p : Part) (f : FeederId) : Nat := ((p.baysOfFeeder f).map (fun b => (p.bay b).reading)).sum

/-- The sum of the assigned limits of a feeder's configured bays (R149). -/
def Part.limitSum (p : Part) (f : FeederId) : Nat := ((p.baysOfFeeder f).map (fun b => (p.bay b).limit)).sum

/-- The penalty of a bay falls by 1; at 0 the demanding set may change (R145, step 1; R131). -/
def Part.countDown (p : Part) (b : BayId) : Part :=
  let left := (p.bay b).penalty - 1
  if (p.bay b).penalty = 0 then p
  else
    let lowered := p.modBay b (fun x => { x with penalty := left })
    if left = 0 then lowered.shareChanged (p.bay b).feeder else lowered

/-- The overdraw count after the check of a tick (R145, step 2). -/
def Part.overdrawNext (p : Part) (f : FeederId) : Nat :=
  if (p.feeder f).state = .normal && p.readingSum f > (p.feeder f).available then (p.feeder f).overdrawCount + 1 else 0

/-- Held reading less assigned limit. -/
def Bay.excess (x : Bay) : Int := (x.reading : Int) - (x.limit : Int)

/-- The bay with the largest difference of held reading less assigned limit, the lowest number among equals (R145). -/
def Part.worst (p : Part) : List BayId → Option BayId
  | [] => none
  | b :: bs =>
    match p.worst bs with
    | none => some b
    | some c => if (p.bay c).excess ≤ (p.bay b).excess then some b else some c

/-- An overdraw penalty is given on a feeder (R145, step 3; R131, R146). -/
def Part.penalize (p : Part) (f : FeederId) : Part :=
  let given := match p.worst (p.baysOfFeeder f) with
    | none => p
    | some b =>
      let set := (p.modBay b (fun x => { x with penalty := Config.penaltyTicks })).shareChanged f
      match set.occupant b with
      | some s => set.updSession s Session.penalize
      | none => set
  given.modFeeder f (fun x => Feeder.stick { x with overdrawCount := 0 } .justOverdraw)

/-- The overdraw check of a tick, and the penalty it may give (R145, steps 2 and 3). -/
def Part.checkOverdraw (p : Part) (f : FeederId) : Part :=
  let n := p.overdrawNext f
  if n ≥ Config.overdrawTicks then p.penalize f else p.modFeeder f (fun x => { x with overdrawCount := n })

/-- The five steps of a tick for one feeder (R145). -/
def Part.shareTickOf (p : Part) (f : FeederId) : Part :=
  (((((p.baysOfFeeder f).foldl Part.countDown p)).checkOverdraw f).evalCondition f).recompute f

/-- The Share Unit takes a tick (R145). -/
def Part.shareTick (p : Part) : Part :=
  let ticked := allFeeders.foldl Part.shareTickOf p
  { ticked with outstanding := { ticked.outstanding with share := false } }

/-! ## The Session Unit's tick (R128 to R130) -/

/-- One tick of metering for one record (R128, R129). -/
def Part.meterSlot (p : Part) (s : SlotId) : Part :=
  match p.record s with
  | none => p
  | some r =>
    match r.bay with
    | none => p
    | some b =>
      if r.state = .engaged then
        p.updSession s (fun x => x.meter r.quota (p.bay b).reading (p.feeder (p.bay b).feeder).voltage)
      else p

/-- The satisfied check of one record (R130). -/
def Part.checkSlot (p : Part) (s : SlotId) : Part :=
  match p.record s with
  | none => p
  | some r =>
    match r.bay with
    | none => p
    | some b =>
      if r.state = .engaged then p.updSession s (fun x => x.checkSatisfied (p.bay b).limit (p.bay b).reading) else p

/-- The Session Unit takes a tick: every ENGAGED record is metered, then checked (R128, R130). -/
def Part.sessionTick (p : Part) : Part :=
  let ticked := allSlots.foldl (fun p s => (p.meterSlot s).checkSlot s) p
  { ticked with outstanding := { ticked.outstanding with session := false } }

end Sys2Proof.Machine
end

