-- ==== Sys2Proof/Machine/Posts.lean ====
section
/-! DEFINITION. The post state machine (R154 to R165): leaving the serviceable states (R97, R121, R159), isolation, loss,
search and entry to ACTIVE (R156 to R158), replies and their writes (R154, R155), misses and limits (R154, R157, R163). -/

namespace Sys2Proof.Machine

/-! ## Leaving the serviceable states -/

/-- The verify timer of each bay of the post becomes IDLE (R97). -/
def Part.idleTimers (p : Part) (bays : List BayId) : Part :=
  bays.foldl (fun p b => p.modBay b (fun x => { x with verify := .idle })) p

/-- The session of a bay whose post is lost or isolated (R121). -/
def Part.haltBay (p : Part) (b : BayId) : Part :=
  match p.occupant b with
  | none => p
  | some s =>
    match p.session s with
    | none => p
    | some x => if x.phase = .settling then p.closeRecord s .stopped .link else p.updSession s Session.halt

/-- METER-GAP is set on the feeder of a bay with an ENGAGED record (R146). -/
def Part.meterGap (p : Part) (b : BayId) : Part :=
  match p.occupant b with
  | some _ => p.modFeeder (p.bay b).feeder (fun x => x.stick .justMeterGap)
  | none => p

/-- What follows on a post's bays when they pass to not serviceable (R159): the timers (R97), then the conditions of all
of them (R8), then their sessions (R121). The walks of the blocking events follow in the order of the bays when the
event completes; the spec sets none of these orders (log 14). -/
def Part.darken (p : Part) (bays : List BayId) : Part :=
  bays.foldl Part.haltBay (bays.foldl Part.derive (p.idleTimers bays))

/-- The feeders that R159 calls affected: those of a post's bays that become DARK, ascending (log 11). -/
def Part.feedersLosing (p : Part) (bays : List BayId) : List FeederId :=
  allFeeders.filter (fun f => bays.any (fun b => (p.bay b).feeder = f && !(p.bay b).condition.unusable))

/-- The post takes another record; where it was serviceable before and is not afterwards, its bays go dark, and the
affected feeders are recomputed within the event (R159). -/
def Part.leavePost (p : Part) (q : PostId) (x : Post) : Part :=
  let stored := p.setPost q x
  if (p.post q).serviceable && !x.serviceable then
    (p.feedersLosing (p.baysOfPost q)).foldl Part.recompute (stored.darken (p.baysOfPost q))
  else stored

/-- A post becomes ISOLATED with a cause; its state timer stops (R156 to R158, R162, R163, R165). -/
def Part.isolate (p : Part) (q : PostId) (cause : IsolationCause) : Part :=
  let x := p.post q
  p.leavePost q
    { x with link := .isolated, cause := cause, timer := .stopped
             notice := x.notice || x.link ≠ .isolated || x.cause ≠ cause }

/-- The reading and vehicle cap of a lost post's bay become 0; a changed cap sets the bay's flag (R159, R10, log 25). -/
def Bay.lost (x : Bay) : Bay := { x with reading := 0, cap := 0, notice := x.notice || x.cap ≠ 0 }

/-- A post becomes LOST: the readings of its bays are 0, METER-GAP is set where a record is ENGAGED, and its bays leave
the serviceable states where they were in them (R159, R146). -/
def Part.lose (p : Part) (q : PostId) : Part :=
  let zeroed := (p.baysOfPost q).foldl (fun p b => p.modBay b Bay.lost) p
  ((p.baysOfPost q).foldl Part.meterGap zeroed).leavePost q
    { p.post q with link := .lost, timer := .stopped, notice := true }

/-- A post is sought again (R165). -/
def Part.reseek (p : Part) (q : PostId) : Part :=
  let x := p.post q
  p.leavePost q
    { x with link := .seeking, cause := .none, seq := 0, misses := 0, valid := 0, slowWakes := 0, timer := .stopped
             notice := x.notice || x.link ≠ .seeking || x.cause ≠ .none || x.slowWakes ≠ 0 }

/-! ## Entering ACTIVE -/

/-- A post becomes ACTIVE: its idle condition is to be evaluated, its bays derive their conditions anew, and a retry
becomes due (R158). On the entry from WAKING no bay condition changes. -/
def Part.activate (p : Part) (q : PostId) : Part :=
  let stored := (p.modPost q (fun x => { x with link := .active, timer := .stopped, notice := true })).touchPost q
  ((stored.baysOfPost q).foldl Part.derive stored).retryDue

/-! ## A valid reply -/

/-- The counters of a post after a valid reply (R152, R154). -/
def Post.answered (x : Post) (fault : Nat) : Post :=
  { x with misses := 0, valid := min (x.valid + 1) Config.validLimit, fault := fault, seq := (x.seq + 1) % 16
           notice := x.notice || x.fault ≠ fault }

/-- The values of one socket as the bay stores them (R155, R10). -/
def Bay.written (x : Bay) (v : SocketReading) : Bay :=
  let occupancy := if v.occupied then Occupancy.occupied else .vacant
  let plug := if v.plugged then Plug.plugged else .unplugged
  { x with
    occupancy := occupancy
    plug := plug
    reading := v.reading
    cap := v.cap
    notice := x.notice || x.occupancy ≠ occupancy || x.plug ≠ plug || x.cap ≠ v.cap }

/-- The Session Unit takes the reply for the ENGAGED record of a bay: a departure, a plug event, or a settle reply
(R119, R124, R126). `plugChanged` compares with the plug that the bay held before. That it takes only the replies whose
values are written, so that only such a reply is a settle reply, is the model's choice (log 39). -/
def Part.sessionReply (p : Part) (b : BayId) (v : SocketReading) (plugChanged : Bool) : Part :=
  match p.occupant b with
  | none => p
  | some s =>
    match p.record s with
    | none => p
    | some r =>
      match r.session with
      | none => p
      | some x =>
        if x.phase = .settling then
          match x.settle with
          | some z => if v.reading < 10 then p.closeRecord s .complete z.cause.closedBy else p
          | none => p
        else if !v.occupied && !v.plugged then p.settle s .departed
        else if plugChanged then
          p.updSession s (fun y => if v.plugged then y.plugIn r.quota (p.bay b).penalty else y.plugOut)
        else p

/-- The writes of one socket and their hand-offs: occupancy, session, cap (R155). `first` is true for the first valid
reply after the entry to a serviceable state (R97). -/
def Part.writeSocket (p : Part) (first : Bool) (b : BayId) (v : SocketReading) : Part :=
  let old := p.bay b
  let new := old.written v
  let stored := p.setBay b new
  let seen := if first || old.occupancy ≠ new.occupancy then stored.occupancyEvent b v.occupied else stored
  let served := seen.sessionReply b v (old.plug ≠ new.plug)
  if old.cap ≠ new.cap then served.recompute old.feeder else served

/-- The reply's values are written into the bays bound to the post's sockets; their hand-offs need no order between them
(R155). That both sockets are written before the walk of a blocking event that either bay raises, which `Part.finish`
takes, is the model's choice (log 38). -/
def Part.writeReadings (p : Part) (first : Bool) (q : PostId) (r : LinkReply) : Part :=
  let one := match p.boundBay q .a with
    | some b => p.writeSocket first b r.a
    | none => p
  match p.boundBay q .b with
  | some b => one.writeSocket first b r.b
  | none => one

/-- Whether a socket's values change the occupancy or the plug of its bay (R162). -/
def Part.wakesBy (p : Part) (b : Option BayId) (v : SocketReading) : Bool :=
  match b with
  | some b => (p.bay b).occupancy ≠ ((p.bay b).written v).occupancy || (p.bay b).plug ≠ ((p.bay b).written v).plug
  | none => false

/-- A valid reply is taken by the post's link state (R156 to R163). R126 closes a session in SETTLING by "the first valid
reply from the bay's post" with a reading below 10, while R155 hands on the replies alone that it writes. The model takes
as settle replies those that are written: a reply of a post in SEEKING, LOST, ISOLATED or ABSENT, one that leaves a post
in PREPARING, and one with a fault code settle no session (log 39, DESIGN CHOICE). -/
def Part.takeReply (p : Part) (q : PostId) (r : LinkReply) : Part :=
  let counted := p.modPost q (fun x => x.answered r.fault)
  let faulty := r.fault ≠ 0
  match (p.post q).link with
  | .seeking | .lost =>
    if faulty then counted.isolate q .postFault
    else if (counted.post q).valid = Config.validLimit then
      counted.modPost q (fun x => { x with link := .preparing, timer := .prepare (p.time + Config.prepareTime)
                                           notice := true })
    else counted
  | .preparing =>
    if faulty then counted.isolate q .postFault
    else if r.ready then (counted.activate q).writeReadings true q r
    else counted
  | .active => if faulty then counted.isolate q .postFault else counted.writeReadings false q r
  | .standby =>
    if faulty then counted.isolate q .postFault
    else
      let wakes := p.wakesBy (p.boundBay q .a) r.a || p.wakesBy (p.boundBay q .b) r.b
      let written := counted.writeReadings false q r
      if wakes then written.wakePost q else written
  | .waking =>
    if faulty then counted.isolate q .postFault
    else
      let written := counted.writeReadings false q r
      if r.ready then (written.modPost q (fun x => { x with slowWakes := 0 })).activate q else written
  | .isolated | .absent => counted

/-! ## A miss, and the limits -/

/-- The counters of a post after a miss (R152, R154). -/
def Post.missed (x : Post) : Post :=
  { x with valid := 0, misses := min (x.misses + 1) Config.missLimit, seq := (x.seq + 1) % 16 }

/-- A miss is taken by the post's link state (R154, R159). -/
def Part.takeMiss (p : Part) (q : PostId) : Part :=
  let counted := p.modPost q Post.missed
  match (p.post q).link with
  | .preparing | .active | .standby | .waking =>
    if (counted.post q).misses = Config.missLimit then counted.lose q else counted
  | .seeking | .isolated | .lost | .absent => counted

/-- The prepare limit passes (R157). -/
def Part.prepareLimit (p : Part) (q : PostId) : Part :=
  match (p.post q).timer with
  | .prepare expiry => if expiry ≤ p.time then p.isolate q .prepareTimeout else p
  | .stopped | .wake _ | .idle _ => p

/-- The wake limit passes (R163). -/
def Part.wakeLimit (p : Part) (q : PostId) : Part :=
  match (p.post q).timer with
  | .wake expiry =>
    if expiry ≤ p.time then
      let counted := p.modPost q (fun x => { x with slowWakes := x.slowWakes + 1, notice := true })
      if (p.post q).slowWakes + 1 < Config.slowWakeLimit then
        counted.modPost q (fun x => { x with timer := .wake (p.time + Config.wakeTime) })
      else counted.isolate q .wakeFault
    else p
  | .stopped | .prepare _ | .idle _ => p

end Sys2Proof.Machine
end

