-- ==== Sys2Proof/Machine/Timed.lean ====
section
/-! DEFINITION. Timed events (R23, R24), the rollover (R25), the minute event and the tick (R19), and the walk of a
clock step (R20 to R22). -/

namespace Sys2Proof.Machine

/-! ## Timed events -/

/-- A timed event and its object (R23). The idle timer's due minute is taken at the minute events as well (R161). -/
inductive Timed where
  | leadCheck (s : SlotId) | wakeCheck (s : SlotId) | windowStart (s : SlotId) | graceEnd (s : SlotId)
  | windowEnd (s : SlotId) | deadline (s : SlotId) | verify (b : BayId) | idle (q : PostId) | rollover
  deriving DecidableEq, Repr

/-- A test of the record of a slot, with the clock SET; false without a record. -/
def Part.pendingFor (p : Part) (s : SlotId) (test : Record → Bool) : Bool := p.clock.set && p.recordIs test s

/-- Whether the minute event of the present minute takes the rollover (R25). -/
def Part.rolloverDue (p : Part) : Bool :=
  p.clock.set &&
  match p.clock.lastDay with
  | some d => d < dayNumber p.settings.rolloverMinute p.now
  | none => false

/-- Whether a timed event is pending, not yet taken, and due at or before now (R23). -/
def Part.isDue (p : Part) : Timed → Bool
  | .leadCheck s => p.pendingFor s (fun r =>
      r.state.upcoming && !r.leadTaken && r.windowStart ≤ p.now + p.settings.lead)
  | .wakeCheck s => p.pendingFor s (fun r =>
      r.state.upcoming && !r.wakeTaken && r.windowStart ≤ p.now + p.settings.standbyLead)
  | .windowStart s => p.pendingFor s (fun r => r.state = .booked && r.windowStart ≤ p.now)
  | .graceEnd s => p.pendingFor s (fun r => (r.state = .held || r.state = .arriving) && r.graceEnd ≤ p.now)
  | .windowEnd s => p.pendingFor s (fun r => r.state.chained && !r.endTaken && r.windowEnd ≤ p.now)
  | .deadline s => p.pendingFor s (fun r =>
      r.state = .waiting && match r.deadline with
        | some m => m ≤ p.now
        | none => false)
  | .verify b => p.clock.set && match (p.bay b).verify with
      | .running due => due ≤ p.now
      | .idle | .expired => false
  | .idle q => p.clock.set && (p.post q).link = .active && match (p.post q).timer with
      | .idle due => due ≤ p.now
      | .stopped | .prepare _ | .wake _ => false
  | .rollover => p.rolloverDue

/-- Change a record in place. -/
def Part.modRecord (p : Part) (s : SlotId) (f : Record → Record) : Part :=
  match p.record s with
  | some r => p.put s (f r)
  | none => p

/-- The bay of a slot's record derives its condition anew. -/
def Part.deriveBayOf (p : Part) (s : SlotId) : Part :=
  match (p.record s).bind (·.bay) with
  | some b => p.derive b
  | none => p

/-- The window start of a BOOKED record (R38). -/
def Part.takeWindowStart (p : Part) (s : SlotId) : Part :=
  (p.modRecord s (fun r => { r.flag .windowStart with state := .held })).deriveBayOf s

/-- The window end of a chained record (R40, R123). -/
def Part.takeWindowEnd (p : Part) (s : SlotId) : Part :=
  let marked := p.modRecord s (fun r => { r with endTaken := true })
  if p.recordIs (fun r => r.state = .engaged) s then marked.updSession s (fun x => x.windowEnd p.now)
  else p.closeRecord s .noShow .timer

/-- The idle timer of an ACTIVE post falls due: STANDBY when its condition still holds, else it stays ACTIVE (R161). -/
def Part.takeIdleTimer (p : Part) (q : PostId) : Part :=
  if p.idleHolds q then p.modPost q (fun x => { x with link := .standby, timer := .stopped, notice := true })
  else p.modPost q (fun x => { x with timer := .stopped })

/-- The rollover (R25, R64). -/
def Part.takeRollover (p : Part) : Part :=
  { p with clock := { p.clock with lastDay := some (dayNumber p.settings.rolloverMinute p.now) } }.clearTallies

/-- One timed event is taken (R38, R40, R93, R100, R107, R112, R161, R164, R25). -/
def Part.takeTimed (p : Part) : Timed → Part
  | .leadCheck s => (p.modRecord s (fun r => { r with leadTaken := true })).leadCheck s
  | .wakeCheck s =>
    let marked := p.modRecord s (fun r => { r with wakeTaken := true })
    match (p.record s).bind (·.bay) with
    | some b => marked.wakeBay b
    | none => marked
  | .windowStart s => p.takeWindowStart s
  | .graceEnd s => p.closeRecord s .noShow .timer
  | .windowEnd s => p.takeWindowEnd s
  | .deadline s => p.closeRecord s .expired .timer
  | .verify b => (p.modBay b (fun x => { x with verify := .expired })).derive b
  | .idle q => p.takeIdleTimer q
  | .rollover => p.takeRollover

/-- A timed event as an event of its own: it is taken when it is due, and has no effect otherwise (log 7). -/
def Part.timedEvent (p : Part) (e : Timed) : Part := if p.isDue e then p.takeTimed e else p

/-! ## The events of one minute -/

/-- Every timed event of the part. -/
def allTimed : List Timed :=
  .rollover :: allBays.map .verify ++ allPosts.map .idle ++
  allSlots.flatMap (fun s =>
    [.leadCheck s, .wakeCheck s, .windowStart s, .graceEnd s, .windowEnd s, .deadline s])

/-- The timed events due now. -/
def Part.dueEvents (p : Part) : List Timed := allTimed.filter p.isDue

/-- One of the due events, in a free order where there are several (R24, log 4). -/
def Part.chooseDue (p : Part) : List Timed → Option (Timed × Part)
  | [] => none
  | [e] => some (e, p)
  | e :: es =>
    let i := Config.freeOrder p.choices % (es.length + 1)
    some (((e :: es)[i]?).getD e, { p with choices := p.choices + 1 })

/-- The events of the present minute, each taken whole, until none is due (R24). -/
def Part.takeMinute : Nat → Part → Part
  | 0, p => p
  | fuel + 1, p =>
    match p.chooseDue p.dueEvents with
    | none => p
    | some (e, q) => Part.takeMinute fuel (q.takeTimed e).finish

/-- Every event of the present minute is taken (R19, R23). The idle conditions of the ACTIVE posts are evaluated first,
with the new now and outside the free order, since the spec sets their place in the minute nowhere (R24, R161, log
18). -/
def Part.minuteEvents (p : Part) : Part :=
  Part.takeMinute Config.minuteFuel { p with outstanding := { p.outstanding with minute := false } }.touchActive.finish

/-- The minute count advances by 1; the value after the largest is free within the field's 32 bits (R18, log 16). -/
def Part.nextMinute (p : Part) : Part :=
  let m := if p.clock.minute < Config.largestMinute then p.clock.minute + 1
    else (Config.minuteAfterLargest p.clock.minute).toNat
  { p with clock := { p.clock with minute := m } }

/-- The events of the present minute that are still outstanding are taken (log 3). -/
def Part.flushMinute (p : Part) : Part := if p.outstanding.minute then p.minuteEvents else p

/-! ## The tick -/

/-- The second count advances; with the clock SET and the count past 59, the minute count advances and its events become
outstanding (R19). -/
def Part.advanceSecond (p : Part) : Part :=
  if p.clock.second < 59 then { p with clock := { p.clock with second := p.clock.second + 1 } }
  else
    let wrapped := { p with clock := { p.clock with second := 0 } }
    if p.clock.set then
      let advanced := wrapped.flushMinute.nextMinute
      { advanced with outstanding := { advanced.outstanding with minute := true } }
    else wrapped

/-- The Session Unit's and the Share Unit's handling of the last tick, where still outstanding, in a free order (R144,
log 3, 4). -/
def Part.flushTicks (p : Part) : Part :=
  if p.outstanding.session && p.outstanding.share then
    let (order, q) := p.inFreeOrder [Part.sessionTick, Part.shareTick]
    order.foldl (fun p f => (f p).finish) q
  else if p.outstanding.session then p.sessionTick.finish
  else if p.outstanding.share then p.shareTick.finish
  else p

/-- The one-second tick at the Park Clock: it is handed to the Session Unit and the Share Unit (R19, log 3). A tick is
taken whenever it is given: no phase of the divider is held (log 2). -/
def Part.tick (p : Part) : Part :=
  let advanced := p.flushTicks.advanceSecond
  { advanced with outstanding := { advanced.outstanding with session := true, share := true } }

/-- The minute event: the events of a minute that a tick has begun; or, at second 59, the advance itself with its events
(R19, log 5). -/
def Part.minuteEvent (p : Part) : Part :=
  if !p.clock.set then p
  else if p.outstanding.minute then p.minuteEvents
  else if p.clock.second = 59 then { p with clock := { p.clock with second := 0 } }.nextMinute.minuteEvents
  else p

/-! ## CLOCK-SET -/

/-- CLOCK-SET from UNSET: the counts, the clock state, the last rollover day, the running verify timers (R20) and the
idle timers (R161). -/
def Part.setFromUnset (p : Part) (minute second : Nat) : Part :=
  let set := { p with
    clock := ⟨true, minute, second, some (dayNumber p.settings.rolloverMinute minute)⟩
    outstanding := { p.outstanding with minute := false } }
  let restarted := allBays.foldl (fun q b =>
    match (q.bay b).verify with
    | .running _ => q.modBay b (fun x => { x with verify := .running (minute + q.settings.verifyWindow) })
    | .idle | .expired => q) set
  restarted.touchActive

/-- A forward step: the minute count moves one minute at a time, each with its events (R21). -/
def Part.stepForward : Nat → Part → Part
  | 0, p => p
  | n + 1, p => Part.stepForward n p.nextMinute.minuteEvents

/-- CLOCK-SET with the clock SET, within its bound (R21, R22). The events outstanding in the present minute are taken
before the count moves forward; a backward step takes no event, and a step of 0 leaves the minute as it is (log 5). -/
def Part.stepClock (p : Part) (minute second : Nat) : Part :=
  let stepped :=
    if minute < p.clock.minute then
      { p with clock := { p.clock with minute := minute }, outstanding := { p.outstanding with minute := false } }
    else if minute = p.clock.minute then p
    else Part.stepForward (minute - p.clock.minute) p.flushMinute
  { stepped with clock := { stepped.clock with second := second } }

end Sys2Proof.Machine
end

