-- ==== Sys2Proof/Machine/Snapshots.lean ====
section
/-! DEFINITION. The snapshots and their byte layouts: bay (R4, 12.7), feeder (R14, R149), post (R17), reservation (R46,
12.6), close summary (R42, 12.5), rule (R56, R62), lane (R52), part settings (R176), clock (R26), identification and
status (R173). -/

namespace Sys2Proof.Machine

/-- A bay number, or its absence (R180). -/
def optBay (b : Option BayId) : List Byte := opt (fun b : BayId => u8 b.val) b

/-- The due minute of a verify timer, while RUNNING. -/
def VerifyTimer.due : VerifyTimer → Option Nat
  | .running due => some due
  | .idle | .expired => none

/-- The bay snapshot (R4, 12.7). -/
def Part.baySnapshot (p : Part) (b : BayId) : List Byte :=
  let x := p.bay b
  let chain := p.chain b
  u8 b.val ++ bit x.configured ++ u8 x.post.val ++ u8 x.socket.code ++ u8 x.feeder.val ++ u8 x.ctype.code ++
  u16 x.rating ++ u8 x.service.code ++ u8 x.condition.code ++ u8 x.condition.indicator.code ++ u16 x.limit ++
  u8 x.penalty ++ u16 x.reading ++ u8 (p.occupancyOf b).code ++ u8 (p.plugOf b).code ++ u16 x.cap ++
  u8 x.verify.code ++ opt u32 x.verify.due ++ u8 chain.length ++
  counted (fun s => u16 (p.pool.handle s)) (chain.take 8) ++
  opt (fun s => u16 (p.pool.handle s)) (p.occupant b)

/-- The configuration part and the status part of a feeder (R14, R149). -/
def Part.feederSnapshot (p : Part) (f : FeederId) : List Byte :=
  let x := p.feeder f
  let bays := p.baysOfFeeder f
  u8 f.val ++ u16 x.limit ++ u16 x.trim ++ u16 x.voltage ++ u8 x.concurrency ++ bit x.tripEnabled ++ bit x.active ++
  u8 bays.length ++ bayMask (BayMask.ofList bays) ++
  u8 x.state.code ++ u16 x.available ++ u8 x.sticky.code ++ bit x.condition ++ u16 (p.limitSum f) ++
  u16 (p.readingSum f)

/-- The post snapshot (R17). -/
def Part.postSnapshot (p : Part) (q : PostId) : List Byte :=
  let x := p.post q
  u8 q.val ++ bit x.inUse ++ u8 x.link.code ++ bit x.serviceable ++ u8 x.cause.code ++ u8 x.fault ++ u8 x.seq ++
  u8 x.misses ++ u8 x.valid ++ u8 x.slowWakes ++ optBay (p.boundBay q .a) ++ optBay (p.boundBay q .b)

/-- The close summary (R42, 12.5). -/
def CloseSummary.bytes (c : CloseSummary) : List Byte :=
  u16 c.handle ++ optBay c.bay ++ u8 c.result.code ++ u8 c.closedBy.code ++ u32 c.windowStart ++ u32 c.windowEnd ++
  u8 c.extensions ++ opt u32 c.engaged ++ u32 c.closed ++ u32 c.within ++ u32 c.excess ++ u8 c.seen.code ++
  u32 c.overstay

/-- The session part of a reservation snapshot (12.6). -/
def Session.bytes (x : Session) : List Byte :=
  u8 x.phase.code ++ u8 x.pause.code ++ u8 ((x.stoppedIn.map Phase.code).getD 0) ++
  u8 ((x.settle.map (fun z => z.cause.code)).getD 0) ++ u32 x.engaged ++ u32 x.within ++ u32 x.excess ++
  u16 x.satisfied ++ u8 x.seen.code ++ opt u32 x.overstayStart

/-- The position of a slot in the Waiting List, from 1; 0 outside it (R85, 12.6). -/
def Pool.position (q : Pool) (s : SlotId) : Nat :=
  match q.waiting.findIdx? (fun y => y = s) with
  | some i => i + 1
  | none => 0

/-- The reservation snapshot of a slot's record (R46, 12.6). -/
def Part.recordSnapshot (p : Part) (s : SlotId) (r : Record) : List Byte :=
  u16 (p.pool.handle s) ++ u8 r.state.code ++ optBay r.bay ++ u8 r.lastCause.code ++ u32 r.windowStart ++
  u32 r.windowEnd ++ u16 r.duration ++ u8 r.grace ++ u32 r.graceEnd ++ u8 r.lane.val ++ u8 r.vclass.val ++
  u8 r.ctype.code ++ u8 r.tier.val ++ u8 r.priority ++ bayMask r.eligible ++ bayMask r.preferred ++ u32 r.created ++
  u8 r.origin.code ++ opt u32 r.quota ++ opt u16 r.rateCap ++ opt u32 r.deadline ++ optBay r.pinned ++
  counted u16 r.extensions.reverse ++ u8 (p.pool.position s) ++ opt Session.bytes r.session ++
  opt CloseSummary.bytes r.close

/-- The rule snapshot of POLICY-NOTICE (R62). -/
def Rule.noticeBytes (x : Rule) (r : RuleId) : List Byte :=
  u8 r.val ++ bit x.matchA.active ++ bit x.tally.enabled ++ u16 x.tally.limit ++ u16 x.counter

/-- Every field of a rule, its counter and its flag (R56, log 17). -/
def Rule.bytes (x : Rule) : List Byte :=
  bit x.matchA.active ++ u8 x.matchA.classes.toNat ++ u8 x.matchA.connectors.toNat ++ u8 x.matchA.tierMin ++
  u8 x.matchA.tierMax ++ u16 x.matchB.timeStart ++ u16 x.matchB.timeEnd ++ u16 x.matchB.durMin ++
  u16 x.matchB.durMax ++ u8 x.action.verdict.code ++ u8 x.action.priorityMode.code ++ u8 x.action.priority ++
  u8 x.action.mapMode.code ++ bayMask x.action.map ++ u8 x.action.prefMode.code ++ bayMask x.action.pref ++
  u8 x.action.grace ++ bit x.tally.enabled ++ u16 x.tally.limit ++ u16 x.counter ++ bit x.notice

/-- The four fields of a lane entry (R52). -/
def Lane.bytes (x : Lane) : List Byte :=
  ruleSet x.rules ++ u8 x.verdict.code ++ u8 x.priority ++ bayMask x.eligible

/-- The thirteen settings in the order of R174 (R176). -/
def Settings.bytes (x : Settings) : List Byte :=
  u8 x.guard ++ u8 x.lead ++ u8 x.verifyWindow ++ u8 x.defaultGrace ++ u8 x.earlyAllowance ++ u8 x.standbyLead ++
  u8 x.idleTime ++ u8 x.w1 ++ u8 x.w2 ++ u8 x.w3 ++ u8 x.w4 ++ u16 x.recoveryDelay ++ u16 x.rolloverMinute

/-- The clock as CLOCK-GET reports it (R26); its minute count reads 0 while UNSET. -/
def Part.clockBytes (p : Part) : List Byte :=
  bit p.clock.set ++ u32 p.now ++ u8 p.clock.second ++ u16 (minuteOfDay p.now) ++ u16 p.settings.rolloverMinute ++
  opt i32 p.clock.lastDay

/-- The part code, the revision and the capacities (R173, log 17). -/
def identity : List Byte :=
  [0x42, 0x52, 0x36, 0x34] ++ u8 1 ++ u8 64 ++ u8 8 ++ u8 32 ++ u8 192 ++ u8 32 ++ u8 32 ++ u8 8 ++ u8 3 ++ u8 240

/-- The status values but for the two queue counts (R173). -/
def Part.statusBytes (p : Part) : List Byte :=
  bit p.clock.set ++ u32 p.now ++ u8 p.clock.second ++ u8 p.pool.free.length ++ u8 p.pool.chainedCount ++
  u8 p.pool.waiting.length ++ u8 p.pool.closing.length ++ allFeeders.flatMap (fun f => u8 (p.feeder f).state.code) ++
  allPosts.flatMap (fun q => u8 (p.post q).link.code)

end Sys2Proof.Machine
end

