-- ==== Sys2Proof/Machine/Port.lean ====
section
/-! DEFINITION. The Management Port: the receiver (R168), the request and reply queues (R169, R170), the transmitter
(R171, R172), the resets that act on the whole part (R48, R179), and the completion of a command. -/

namespace Sys2Proof.Machine

/-! ## Resets -/

/-- The part after power-on, a low level at RST_N or RESET-PART FULL: every table, the clock and the port take their
power-on values (R48, R179). The time base, the levels on the trip pins and the counter of free orders are not the
part's to reset, and the command queue is the sender's (log 21). -/
def State.fullReset (s : State) : State :=
  let trips := allFeeders.foldl (fun (v : Vector TripInput 8) f =>
    v.set f.val (.afterReset s.part.time (s.part.trip f).low) f.isLt) s.part.trips
  { s with part := Part.afterReset s.part.time s.part.choices trips, port := .reset }

/-! ## Queues -/

/-- A reply joins the tail of the reply queue (R170). -/
def Port.pushReply (x : Port) (r : Reply) : Port := { x with replies := x.replies ++ [r] }

/-- The reply frame to a request (R170). -/
def Frame.answer (f : Frame) (a : Answer) : Frame := ⟨f.tag, replyKind f.kind, a.payload⟩

/-- A complete frame is handed over by the receiver (R169). -/
def Port.acceptFrame (x : Port) (f : Frame) : Port :=
  if x.requests.length < Config.queuePlaces then { x with requests := x.requests ++ [f] }
  else if x.replies.length < Config.queuePlaces then x.pushReply ⟨f.answer (Status.alone .busy), false⟩
  else x

/-! ## The receiver -/

/-- The receiver in HUNTING with no bytes held. -/
def Receiver.hunting (time : Nat) : Receiver := ⟨false, [], time⟩

/-- The frame in the bytes after SYNC, when they are complete and their CRC-16 matches (R167). -/
def frameOf (bytes : List Byte) : Option Frame :=
  match bytes with
  | len :: tag :: kind :: rest =>
    let payload := rest.take (len.toNat - 2)
    if rest.drop (len.toNat - 2) = u16 (crc16 (len :: tag :: kind :: payload)).toNat then some ⟨tag, kind, payload⟩
    else none
  | _ => none

/-- How many bytes after SYNC make a complete frame, given the byte LEN: LEN itself, LEN bytes, the CRC (R167). -/
def frameSize (len : Byte) : Nat := 1 + len.toNat + 2

/-- A byte in IN-FRAME: the receiver after it, and the frame it completes with a correct CRC (R168). -/
def Receiver.inFrameByte (x : Receiver) (b : Byte) (time : Nat) : Receiver × Option Frame :=
  match x.bytes with
  | [] => if b.toNat < 2 ∨ 240 < b.toNat then (.hunting time, none) else (⟨true, [b], time⟩, none)
  | len :: t =>
    let bytes := len :: t ++ [b]
    if bytes.length < frameSize len then (⟨true, bytes, time⟩, none) else (.hunting time, frameOf bytes)

/-- A received byte (R168). A byte more than 10 ms after the last one of a frame finds that frame dropped. -/
def Receiver.take (x : Receiver) (b : Byte) (time : Nat) : Receiver × Option Frame :=
  if x.inFrame && time ≤ x.lastByte + Config.frameGap then x.inFrameByte b time
  else if b = 0xC3#8 then (⟨true, [], time⟩, none)
  else (.hunting time, none)

/-! ## The transmitter -/

/-- The first number in cyclic order from `start` of which the test holds (R171). -/
def cyclicFind {n : Nat} (start : Nat) (test : Fin n → Bool) : Option (Fin n) :=
  ((allBelow n).filter (fun i => start ≤ i.val) ++ (allBelow n).filter (fun i => i.val < start)).find? test

/-- A notice frame carries TAG 0 (R172). -/
def noticeFrame (kind : Byte) (payload : List Byte) : Transmission := ⟨⟨0, kind, payload⟩, .notice⟩

/-- The next-index after object `i` of `n`: its number plus 1, wrapping to 0 (R171). -/
def nextIndex (n i : Nat) : Nat := (i + 1) % n

/-- The transmitter begins a frame. -/
def State.begin (s : State) (x : Transmission) : State := { s with port := { s.port with sending := some x } }

/-- Source 7: POLICY-NOTICE (R62). -/
def State.chooseRule (s : State) : State :=
  match cyclicFind s.port.next.rule (fun r => (s.part.rule r).notice) with
  | some r =>
    let x := s.part.rule r
    { s.begin (noticeFrame policyNotice (x.noticeBytes r)) with part := s.part.setRule r { x with notice := false } }
      |> fun t => { t with port := { t.port with next := { t.port.next with rule := nextIndex 32 r.val } } }
  | none => s

/-- Source 6: BAY-NOTICE (R10). -/
def State.chooseBay (s : State) : State :=
  match cyclicFind s.port.next.bay (fun b => (s.part.bay b).notice) with
  | some b =>
    { s.begin (noticeFrame bayNotice (s.part.baySnapshot b)) with
      part := s.part.modBay b (fun x => { x with notice := false }) }
      |> fun t => { t with port := { t.port with next := { t.port.next with bay := nextIndex 64 b.val } } }
  | none => s.chooseRule

/-- Source 5: FEEDER-NOTICE (R149). -/
def State.chooseFeeder (s : State) : State :=
  match cyclicFind s.port.next.feeder (fun f => (s.part.feeder f).notice) with
  | some f =>
    { s.begin (noticeFrame feederNotice (s.part.feederSnapshot f)) with
      part := s.part.modFeeder f (fun x => { x with notice := false }) }
      |> fun t => { t with port := { t.port with next := { t.port.next with feeder := nextIndex 8 f.val } } }
  | none => s.chooseBay

/-- Source 4: POST-NOTICE (R166). -/
def State.choosePost (s : State) : State :=
  match cyclicFind s.port.next.post (fun q => (s.part.post q).notice) with
  | some q =>
    { s.begin (noticeFrame postNotice (s.part.postSnapshot q)) with
      part := s.part.modPost q (fun x => { x with notice := false }) }
      |> fun t => { t with port := { t.port with next := { t.port.next with post := nextIndex 32 q.val } } }
  | none => s.chooseFeeder

/-- The payload of RES-NOTICE is the reservation snapshot (R44, R46). -/
def Part.recordNotice (p : Part) (s : SlotId) : List Byte :=
  match p.record s with
  | some r => p.recordSnapshot s r
  | none => []

/-- Source 3: RES-NOTICE (R44). -/
def State.chooseRecord (s : State) : State :=
  match cyclicFind s.port.next.record (s.part.recordIs (·.notice)) with
  | some k =>
    { s.begin (noticeFrame resNotice (s.part.recordNotice k)) with
      part := s.part.modRecord k (fun r => { r with notice := false }) }
      |> fun t => { t with port := { t.port with next := { t.port.next with record := nextIndex 192 k.val } } }
  | none => s.choosePost

/-- The payload of CLOSE-NOTICE is the close summary (R42, R172). -/
def Part.closePayload (p : Part) (s : SlotId) : List Byte :=
  match (p.record s).bind (·.close) with
  | some c => c.bytes
  | none => []

/-- Source 2: CLOSE-NOTICE of the record at the head of the closing list (R43). -/
def State.chooseClose (s : State) : State :=
  match s.part.pool.closing with
  | k :: _ => s.begin ⟨⟨0, closeNotice, s.part.closePayload k⟩, .closeNotice (some k)⟩
  | [] => s.chooseRecord

/-- Source 1: the reply at the head of the reply queue, which leaves the queue when its frame begins (R171). -/
def State.choose (s : State) : State :=
  match s.port.replies with
  | r :: rest =>
    { s with port := { s.port with
        replies := rest
        sending := some ⟨r.frame, if r.resets then .resetReply else .reply⟩ } }
  | [] => s.chooseClose

/-- An idle transmitter chooses the next frame (R171, log 8). -/
def State.kick (s : State) : State :=
  match s.port.sending with
  | some _ => s
  | none => s.choose

/-- The end of a command: the event completes, and an idle transmitter begins (log 8). -/
def State.complete (s : State) : State := ({ s with part := s.part.finish } : State).kick

/-- The last byte of the frame in transmission has been sent: a CLOSE-NOTICE frees its record's slot (R43); the reply of
RESET-PART FULL takes the reset (R179). -/
def State.frameSent (s : State) : State :=
  match s.port.sending with
  | none => s
  | some x =>
    let idle := { s with port := { s.port with sending := none } }
    match x.what with
    | .closeNotice (some k) => { idle with part := { idle.part with pool := idle.part.pool.release k } }
    | .resetReply => idle.fullReset
    | .closeNotice none | .reply | .notice => idle

/-! ## Serving a request -/

/-- The reply to a served request joins the queue. After RESET-PART FULL has been served, it is the reply whose last byte
takes the reset (R170, R179). -/
def State.answer (s : State) (f : Frame) (a : Answer) : State :=
  { s with port := s.port.pushReply ⟨f.answer a, s.port.stopped⟩ }

/-- The request that a row serves: the head of the queue, when its kind is the row's, the reply queue has a free place
and serving has not stopped (R170, R179). `mine` parts the rows that share a kind (log 27). -/
def Port.head (x : Port) (k : Kind) (mine : List Byte → Bool) : Option (Frame × List Frame) :=
  match x.requests with
  | [] => none
  | f :: rest =>
    if Kind.ofCode f.kind = some k && mine f.payload && x.replies.length < Config.queuePlaces && !x.stopped then
      some (f, rest)
    else none

/-- Serve the request at the head: it leaves the queue, its TAG and its length are checked, and it is taken whole; its
answer then joins the reply queue (R170). Without such a request there is no effect (log 1). -/
def State.serveWith {α : Type} (s : State) (k : Kind) (mine : List Byte → Bool) (rd : Rd α)
    (act : α → State → Answer × State) : State :=
  match s.port.head k mine with
  | none => s
  | some (f, rest) =>
    let taken := { s with port := { s.port with requests := rest } }
    if f.tag = 0 then taken.answer f (Status.alone .malformed)
    else
      match rd.all f.payload with
      | none => taken.answer f (Status.alone .malformed)
      | some req =>
        let (a, done) := act req taken
        done.answer f a

/-- Serve a request that acts on the blocks behind the port alone. -/
def State.serve {α : Type} (s : State) (k : Kind) (mine : List Byte → Bool) (rd : Rd α)
    (act : α → Part → Answer × Part) : State :=
  s.serveWith k mine rd (fun req t =>
    let (a, p) := act req t.part
    (a, { t with part := p }))

/-- The row has its kind to itself. -/
def any (_ : List Byte) : Bool := true

/-- A request without fields. -/
def Rd.empty : Rd Unit := pure ()

/-- Whether byte `i` of a payload is absent, or is none of the listed values. -/
def byteNot (i : Nat) (values : List Byte) (payload : List Byte) : Bool :=
  match payload[i]? with
  | some b => !values.contains b
  | none => true

end Sys2Proof.Machine
end

