-- ==== Sys2Proof/Machine/LevelRequests.lean ====
section
/-! DEFINITION. The requests on bays, feeders and posts: their checks, their effects within the request, their answers
(R2 to R6, R12 to R14, R16, R17, R137, R148, R165). -/

namespace Sys2Proof.Machine

/-! ## Bays -/

/-- BAY-SET with every field in range (R2). -/
structure BayConfig where
  bay : BayId
  configure : Bool
  post : PostId
  socket : Socket
  feeder : FeederId
  ctype : ConnType
  rating : Nat
  deriving DecidableEq, Repr

/-- The range checks of BAY-SET (R2, first step). -/
def BaySetReq.inRange (q : BaySetReq) : Option BayConfig :=
  match fin? 64 q.bay, fin? 32 q.post, Socket.ofCode q.socket, fin? 8 q.feeder, ConnType.ofCode q.ctype with
  | some bay, some post, some socket, some feeder, some ctype =>
    if Config.leastCurrent ≤ q.rating ∧ q.rating ≤ Config.largestCurrent then
      some ⟨bay, q.configure, post, socket, feeder, ctype, q.rating⟩
    else none
  | _, _, _, _, _ => none

/-- Whether a bay's chain holds an ENGAGED record. -/
def Part.engagedOn (p : Part) (b : BayId) : Bool := (p.occupant b).isSome

/-- The conflicts of BAY-SET, cases 1 to 5 (R2, second step). -/
def Part.bayConflict (p : Part) (q : BayConfig) : Bool :=
  let x := p.bay q.bay
  if q.configure then
    allBays.any (fun b => b ≠ q.bay && (p.bay b).configured && (p.bay b).post = q.post && (p.bay b).socket = q.socket)
    || (p.feeder q.feeder).state = .unused
    || (x.configured && (x.feeder ≠ q.feeder || x.ctype ≠ q.ctype) && !(p.chain q.bay).isEmpty)
    || (x.configured && (x.post ≠ q.post || x.socket ≠ q.socket) && p.engagedOn q.bay)
  else x.configured && !(p.chain q.bay).isEmpty

/-- The live reading fields of a newly configured bay (R3). -/
def Bay.unread (x : Bay) : Bay := { x with reading := 0, occupancy := .unknown, plug := .unknown, cap := 0, verify := .idle }

/-- Store the configuration fields (R3). -/
def Bay.configuredAs (x : Bay) (q : BayConfig) : Bay :=
  { x with configured := true, post := q.post, socket := q.socket, feeder := q.feeder, ctype := q.ctype
           rating := q.rating }

/-- Configuring an unconfigured bay (R3). That the idle condition of its post is evaluated within the request is the
model's choice: R161 lists no change of a binding among the inputs (log 36). -/
def Part.configureBay (p : Part) (q : BayConfig) : Part :=
  ((p.modBay q.bay (fun x => { (x.configuredAs q).unread with service := .inService, notice := true })).derive
    q.bay).touchPost q.post

/-- Changing a configured bay: its binding, its rating, its feeder or connector type (R3). Two points are the model's
choice. A changed post or socket has the idle conditions of the old and of the new post evaluated within the request,
though R161 lists no change of a binding among the inputs (log 36). A changed feeder leaves the assigned limit, which is
above 0 only where the recompute that follows a close is not yet taken: R3 names neither the limit nor a recompute here,
so that the sum of R143 may stand above the new feeder's available current until its next recompute (log 37). -/
def Part.changeBay (p : Part) (q : BayConfig) : Part :=
  let old := p.bay q.bay
  let new := old.configuredAs q
  if new = old then p
  else
    let moved := old.post ≠ q.post || old.socket ≠ q.socket
    let stored := p.modBay q.bay (fun _ => { (if moved then new.unread else new) with notice := true })
    let bound := if moved then ((stored.derive q.bay).touchPost old.post).touchPost q.post else stored
    if old.rating ≠ q.rating then bound.recompute q.feeder else bound

/-- Removing a configured bay (R3). That the idle condition of its post is evaluated within the request is the model's
choice (log 36). -/
def Part.removeBay (p : Part) (b : BayId) : Part :=
  ((p.modBay b (fun x => { x.unread with
      configured := false, service := .inService, limit := 0, penalty := 0, notice := true })).derive b).touchPost
    (p.bay b).post

/-- BAY-SET (R2, R3). -/
def Part.setBayRequest (q : BaySetReq) (p : Part) : Answer × Part :=
  match q.inRange with
  | none => (Status.alone .range, p)
  | some c =>
    if p.bayConflict c then (Status.alone .conflict, p)
    else
      let done :=
        match c.configure, (p.bay c.bay).configured with
        | true, false => p.configureBay c
        | true, true => p.changeBay c
        | false, true => p.removeBay c.bay
        | false, false => p
      (Answer.ok [], done)

/-- BAY-GET (R4). -/
def Part.getBayRequest (n : Nat) (p : Part) : Answer × Part :=
  match fin? 64 n with
  | none => (Status.alone .range, p)
  | some b => (Answer.ok (p.baySnapshot b), p)

/-- The service state of a bay becomes OUT: its session is ended as by END-SESSION, and its blocking event has the cause
BAY-SERVICE OUT (R5). The session is ended, and a HALTED one closed, before the walk relocates the other records; the spec
sets no order between the two (log 35). -/
def Part.takeOut (p : Part) (b : BayId) : Part :=
  let out := (p.modBay b (fun x => { x with service := .out, notice := true })).deriveWith false b
  let ended := match out.occupant b with
    | some s => out.endSession s .service
    | none => out
  ended.reportBlocked b true

/-- The service state of a bay becomes IN (R6). -/
def Part.takeIn (p : Part) (b : BayId) : Part :=
  ((p.modBay b (fun x => { x with service := .inService, notice := true })).derive b).retryDue

/-- BAY-SERVICE (R5, R6). -/
def Part.bayServiceRequest (q : BayServiceReq) (p : Part) : Answer × Part :=
  match fin? 64 q.bay, Service.ofCode q.target with
  | some b, some target =>
    if !(p.bay b).configured then (Status.alone .conflict, p)
    else if (p.bay b).service = target then (Answer.ok [], p)
    else
      match target with
      | .out => if p.engagedOn b && !q.force then (Status.alone .wrongState, p) else (Answer.ok [], p.takeOut b)
      | .inService => (Answer.ok [], p.takeIn b)
  | _, _ => (Status.alone .range, p)

/-! ## Feeders -/

/-- The range checks of FEEDER-SET (R12). -/
def FeederSetReq.inRange (q : FeederSetReq) : Option FeederId :=
  if q.limit ≤ 20000 ∧ 100 ≤ q.voltage ∧ q.voltage ≤ 500 ∧ 1 ≤ q.concurrency ∧ q.concurrency ≤ 64 then
    fin? 8 q.feeder
  else none

/-- The configuration that FEEDER-SET stores (R13). -/
def Feeder.configuredAs (x : Feeder) (q : FeederSetReq) : Feeder :=
  { x with limit := q.limit, voltage := q.voltage, concurrency := q.concurrency, tripEnabled := q.tripEnabled }

/-- A feeder that enters or leaves use: flags empty, counts and rotor 0 (R13). -/
def Feeder.fresh (x : Feeder) (state : FeederState) : Feeder :=
  { x with state := state, recovery := none, sticky := .empty, condition := false, rotor := 0, overdrawCount := 0
           notice := true }

/-- FEEDER-SET on a feeder in use with the enable flag set (R13). -/
def Part.changeFeeder (p : Part) (f : FeederId) (q : FeederSetReq) : Part :=
  let old := p.feeder f
  let new := old.configuredAs q
  let stored := p.modFeeder f (fun _ => if new = old then old else { new with notice := true })
  if !old.tripEnabled && q.tripEnabled && old.active then stored.tripFeeder f
  else if old.tripEnabled && !q.tripEnabled && (old.state = .tripped || old.state = .recovering) then stored.restore f
  else if old.limit ≠ q.limit then stored.recompute f
  else stored

/-- FEEDER-SET (R12, R13). A taken request that raises the concurrency cap makes a retry due, in every state of the
feeder, as R89 has it; R13 names the retry for a feeder in use alone (log 33). -/
def Part.setFeederRequest (q : FeederSetReq) (p : Part) : Answer × Part :=
  match q.inRange with
  | none => (Status.alone .range, p)
  | some f =>
    let old := p.feeder f
    if !q.enable && old.state ≠ .unused && !(p.baysOfFeeder f).isEmpty then (Status.alone .conflict, p)
    else
      let done :=
        match old.state with
        | .unused =>
          if q.enable then
            let started := (p.modFeeder f (fun x => (x.configuredAs q).fresh .normal))
            if q.tripEnabled && old.active then started.tripFeeder f else started.recompute f
          else
            p.modFeeder f (fun x => if x.configuredAs q = x then x else { x.configuredAs q with notice := true })
        | .normal | .tripped | .recovering =>
          if q.enable then p.changeFeeder f q else p.modFeeder f (fun x => (x.configuredAs q).fresh .unused)
      (Answer.ok [], if old.concurrency < q.concurrency then done.retryDue else done)

/-- FEEDER-GET (R14). -/
def Part.getFeederRequest (n : Nat) (p : Part) : Answer × Part :=
  match fin? 8 n with
  | none => (Status.alone .range, p)
  | some f => (Answer.ok (p.feederSnapshot f), p)

/-- FEEDER-TRIM (R137): the stored trim and the available current after the recompute. -/
def Part.trimRequest (q : Nat × Nat) (p : Part) : Answer × Part :=
  match fin? 8 q.1 with
  | none => (Status.alone .range, p)
  | some f =>
    if q.2 > 20000 then (Status.alone .range, p)
    else
      let done :=
        if (p.feeder f).trim = q.2 then p
        else (p.modFeeder f (fun x => { x with trim := q.2, notice := true })).recompute f
      (Answer.ok (u16 (done.feeder f).trim ++ u16 (done.feeder f).available), done)

/-- FEEDER-CLEAR (R148). -/
def Part.clearFlagsRequest (q : Nat × Nat) (p : Part) : Answer × Part :=
  match fin? 8 q.1, Sticky.ofCode q.2 with
  | some f, some flags =>
    let done := p.modFeeder f (fun x => { x with sticky := x.sticky.without flags })
    (Answer.ok (u8 (done.feeder f).sticky.code), done)
  | _, _ => (Status.alone .range, p)

/-! ## Posts -/

/-- A post is declared in use (R16). -/
def Post.declared (x : Post) : Post :=
  { x with inUse := true, link := .seeking, cause := .none, seq := 0, misses := 0, valid := 0, slowWakes := 0
           notice := true }

/-- A post is withdrawn (R16, log 13). -/
def Post.withdrawn (x : Post) : Post :=
  { x with inUse := false, link := .absent, cause := .none, seq := 0, misses := 0, valid := 0, slowWakes := 0
           timer := .stopped, notice := true }

/-- The readings of a withdrawn post's bay (R16). -/
def Bay.withdrawn (x : Bay) : Bay := { x with reading := 0, cap := 0, occupancy := .unknown, plug := .unknown }

/-- A post is withdrawn: its bays' readings, their timers and conditions, and the exchange in progress (R16, R97,
R152). No ENGAGED record stands on its bays, so that no demanding set loses a bay. -/
def Part.withdraw (p : Part) (q : PostId) : Part :=
  let unread := (p.baysOfPost q).foldl (fun p b => p.modBay b Bay.withdrawn) p
  let stored := unread.setPost q (p.post q).withdrawn
  (if (p.post q).serviceable then stored.darken (p.baysOfPost q) else stored).cut q

/-- POST-SET (R16). -/
def Part.setPostRequest (q : Nat × Bool) (p : Part) : Answer × Part :=
  match fin? 32 q.1 with
  | none => (Status.alone .range, p)
  | some a =>
    match q.2, (p.post a).inUse with
    | true, false => (Answer.ok [], p.modPost a Post.declared)
    | true, true | false, false => (Answer.ok [], p)
    | false, true =>
      if (p.baysOfPost a).any p.engagedOn then (Status.alone .conflict, p) else (Answer.ok [], p.withdraw a)

/-- POST-GET (R17). -/
def Part.getPostRequest (n : Nat) (p : Part) : Answer × Part :=
  match fin? 32 n with
  | none => (Status.alone .range, p)
  | some q => (Answer.ok (p.postSnapshot q), p)

/-- POST-FORCE: its checks, and the action of the row on the post; the reply carries the link state after it (R165). -/
def Part.forceRequest (act : PostId → Part → Option Part) (q : Nat × Nat) (p : Part) : Answer × Part :=
  match fin? 32 q.1 with
  | none => (Status.alone .range, p)
  | some a =>
    if q.2 > 2 then (Status.alone .range, p)
    else if !(p.post a).inUse then (Status.alone .wrongState, p)
    else
      match act a p with
      | none => (Status.alone .wrongState, p)
      | some done => (Answer.ok (u8 (done.post a).link.code), done)

/-- RESEEK, in any state of a post in use (R165). -/
def Part.forceReseek (q : PostId) (p : Part) : Option Part := some ((p.reseek q).cut q)

/-- ISOLATE (R165). -/
def Part.forceIsolate (q : PostId) (p : Part) : Option Part := some ((p.isolate q .host).cut q)

/-- WAKE, of a post in STANDBY alone (R165). -/
def Part.forceWake (q : PostId) (p : Part) : Option Part :=
  if (p.post q).link = .standby then some ((p.wakePost q).cut q) else none

end Sys2Proof.Machine
end

