-- ==== Sys2Proof/Machine/SettingRequests.lean ====
section
/-! DEFINITION. The requests on the clock, the part settings, the resets and the policy table (R20, R21, R26, R47, R51,
R52, R54 to R56, R63, R173 to R179). -/

namespace Sys2Proof.Machine

/-! ## Clock -/

/-- CLOCK-SET (R20, R21). -/
def Part.clockSetRequest (q : Nat × Nat) (p : Part) : Answer × Part :=
  if q.1 > Config.largestClockSet || q.2 > 59 then (Status.alone .range, p)
  else if !p.clock.set then (Answer.ok [], p.setFromUnset q.1 q.2)
  else if q.1 > p.clock.minute + 10 || p.clock.minute > q.1 + 10 then (Status.alone .clockStep, p)
  else (Answer.ok [], p.stepClock q.1 q.2)

/-- CLOCK-GET (R26). -/
def Part.clockGetRequest (_ : Unit) (p : Part) : Answer × Part := (Answer.ok p.clockBytes, p)

/-! ## Part settings -/

/-- The ranges of R174. -/
def Settings.inRange (x : Settings) : Bool :=
  x.guard ≤ 30 && x.lead ≤ 60 && (1 ≤ x.verifyWindow && x.verifyWindow ≤ 15) &&
  (5 ≤ x.defaultGrace && x.defaultGrace ≤ 60) && x.earlyAllowance ≤ 60 &&
  (5 ≤ x.standbyLead && x.standbyLead ≤ 120) && x.idleTime ≤ 120 &&
  (1 ≤ x.w1 && x.w1 ≤ 15) && (1 ≤ x.w2 && x.w2 ≤ 15) && (1 ≤ x.w3 && x.w3 ≤ 15) && (1 ≤ x.w4 && x.w4 ≤ 15) &&
  (5 ≤ x.recoveryDelay && x.recoveryDelay ≤ 600) && x.rolloverMinute ≤ 1439

/-- Some bay chain holds a record (R47). -/
def Part.someChained (p : Part) : Bool := allBays.any (fun b => !(p.chain b).isEmpty)

/-- The slots whose record is chained before engagement. -/
def Part.upcomingSlots (p : Part) : List SlotId := allSlots.filter (p.recordIs (fun r => r.state.upcoming))

/-- A changed lead: every lead check takes its new due minute, and the ones due at or before now are taken at once. Only
those on a blocked bay have an effect; their order is free (R175, R112, log 4). -/
def Part.leadChanged (p : Part) : Part :=
  let marked := p.upcomingSlots.foldl (fun q s => q.modRecord s (fun r =>
    { r with leadTaken := q.reached r.windowStart q.settings.lead })) p
  let due := marked.upcomingSlots.filter (marked.recordIs (fun r =>
    r.leadTaken && match r.bay with
      | some b => (marked.bay b).condition.blocking
      | none => false))
  let (order, q) := marked.inFreeOrder due
  (order.foldl Part.leadDue q).retryDue

/-- A changed standby lead: every wake check takes its new due minute, those due wake their posts at once, and the idle
condition of every ACTIVE post is evaluated (R175, R164). -/
def Part.standbyLeadChanged (p : Part) : Part :=
  let woken := p.upcomingSlots.foldl (fun q s =>
    let due := q.recordIs (fun r => q.reached r.windowStart q.settings.standbyLead) s
    let marked := q.modRecord s (fun r => { r with wakeTaken := due })
    match (q.record s).bind (·.bay) with
    | some b => if due then marked.wakeBay b else marked
    | none => marked) p
  woken.touchActive

/-- A changed rollover minute-of-day: the last rollover day is set anew (R25). -/
def Part.rolloverChanged (p : Part) : Part :=
  { p with clock := { p.clock with lastDay := some (dayNumber p.settings.rolloverMinute p.now) } }

/-- The effects of the changed settings, all stored beforehand (R175). With both leads changed, the wake checks due are
taken before the lead checks relocate; R164 lets either be first (log 34). -/
def Part.applySettings (p : Part) (new : Settings) : Part :=
  let old := p.settings
  let stored := { p with settings := new }
  let rolled := if old.rolloverMinute ≠ new.rolloverMinute then stored.rolloverChanged else stored
  let led := if old.lead ≠ new.lead then rolled.leadChanged else rolled
  let stood := if old.standbyLead ≠ new.standbyLead then led.standbyLeadChanged else led
  let idled := if old.idleTime ≠ new.idleTime then stood.touchActive else stood
  if old.w1 ≠ new.w1 || old.w2 ≠ new.w2 || old.w3 ≠ new.w3 || old.w4 ≠ new.w4 then idled.recomputeAll else idled

/-- PART-SET (R174, R175, R47). -/
def Part.partSetRequest (q : Settings) (p : Part) : Answer × Part :=
  if !q.inRange then (Status.alone .range, p)
  else if q.guard ≠ p.settings.guard && p.someChained then (Status.alone .conflict, p)
  else (Answer.ok [], p.applySettings q)

/-- PART-GET (R176). -/
def Part.partGetRequest (_ : Unit) (p : Part) : Answer × Part := (Answer.ok p.settings.bytes, p)

/-! ## Admission rules and lanes -/

/-- Group MATCH-A with its fields in range (R54). A connector set with a bit above CT3 is refused or taken without that
bit, as a free value says (log 15). -/
def MatchAReq.inRange (q : MatchAReq) : Option MatchA :=
  if q.tierMax > 15 ∨ q.tierMin > q.tierMax then none
  else if 16 ≤ q.connectors ∧ Config.connectorUpperRefused (BitVec.ofNat 8 q.connectors) = true then none
  else some ⟨q.active, BitVec.ofNat 8 q.classes, BitVec.ofNat 4 q.connectors, q.tierMin, q.tierMax⟩

/-- Group MATCH-B with its fields in range (R54). -/
def MatchB.inRange (q : MatchB) : Option MatchB :=
  if q.timeStart ≤ 1439 ∧ q.timeEnd ≤ 1439 ∧ 15 ≤ q.durMin ∧ q.durMin ≤ q.durMax ∧ q.durMax ≤ 720 then some q
  else none

/-- A grace override in range (R54). -/
def graceInRange (n : Nat) : Bool := n = 0 || (5 ≤ n && n ≤ 60)

/-- Group ACTION with its fields in range (R54). -/
def ActionReq.inRange (q : ActionReq) : Option RuleAction :=
  match Verdict.ofCode q.verdict, PriorityMode.ofCode q.priorityMode, MapMode.ofCode q.mapMode,
    PrefMode.ofCode q.prefMode with
  | some verdict, some priorityMode, some mapMode, some prefMode =>
    if 1 ≤ q.priority ∧ q.priority ≤ 4 ∧ graceInRange q.grace then
      some ⟨verdict, priorityMode, q.priority, mapMode, BitVec.ofNat 64 q.map, prefMode, BitVec.ofNat 64 q.pref,
        q.grace⟩
    else none
  | _, _, _, _ => none

/-- Group TALLY with its fields in range (R54). -/
def Tally.inRange (q : Tally) : Option Tally := if q.limit = 0 then none else some q

/-- A group that is absent, or present and in range; `none` where it is out of range. -/
def groupInRange {α β : Type} (check : α → Option β) : Option α → Option (Option β)
  | none => some none
  | some x => (check x).map some

/-- RULE-WRITE with every present field in range (R54, first step). -/
structure RuleEdit where
  rule : RuleId
  matchA : Option MatchA
  matchB : Option MatchB
  action : Option RuleAction
  tally : Option Tally
  deriving DecidableEq, Repr

def RuleWriteReq.inRange (q : RuleWriteReq) : Option RuleEdit :=
  match fin? 32 q.rule, groupInRange MatchAReq.inRange q.matchA, groupInRange MatchB.inRange q.matchB,
    groupInRange ActionReq.inRange q.action, groupInRange Tally.inRange q.tally with
  | some rule, some matchA, some matchB, some action, some tally => some ⟨rule, matchA, matchB, action, tally⟩
  | _, _, _, _, _ => none

/-- The rule with the groups present stored, the others and the counter kept (R55). -/
def Rule.edited (x : Rule) (q : RuleEdit) : Rule :=
  { x with matchA := q.matchA.getD x.matchA, matchB := q.matchB.getD x.matchB, action := q.action.getD x.action
           tally := q.tally.getD x.tally }

/-- RULE-WRITE (R54, R55, R62). -/
def Part.ruleWriteRequest (q : RuleWriteReq) (p : Part) : Answer × Part :=
  match q.inRange with
  | none => (Status.alone .range, p)
  | some e =>
    let x := p.rule e.rule
    if e.tally.any (fun t => t.limit < x.counter) then (Status.alone .conflict, p)
    else
      let y := x.edited e
      (Answer.ok [], p.setRule e.rule (if y.full && !x.full then { y with notice := true } else y))

/-- RULE-READ (R56). -/
def Part.ruleReadRequest (n : Nat) (p : Part) : Answer × Part :=
  match fin? 32 n with
  | none => (Status.alone .range, p)
  | some r => (Answer.ok (p.rule r).bytes, p)

/-- TALLY-CLEAR of one rule, or of ALL with the value 255 (R63, R180). -/
def Part.tallyClearRequest (n : Nat) (p : Part) : Answer × Part :=
  if n = 255 then (Answer.ok [], p.clearTallies)
  else
    match fin? 32 n with
    | none => (Status.alone .range, p)
    | some r => (Answer.ok [], p.clearTally r)

/-- The range checks of LANE-SET (R51). -/
def LaneSetReq.inRange (q : LaneSetReq) : Option (LaneId × Lane) :=
  match fin? 8 q.lane, Verdict.ofCode q.verdict with
  | some l, some v =>
    if v ≠ .continue_ ∧ 1 ≤ q.priority ∧ q.priority ≤ 4 then
      some (l, ⟨BitVec.ofNat 32 q.rules, v, q.priority, BitVec.ofNat 64 q.eligible⟩)
    else none
  | _, _ => none

/-- LANE-SET (R51). -/
def Part.laneSetRequest (q : LaneSetReq) (p : Part) : Answer × Part :=
  match q.inRange with
  | none => (Status.alone .range, p)
  | some (l, x) => (Answer.ok [], p.setLane l x)

/-- LANE-GET (R52). -/
def Part.laneGetRequest (n : Nat) (p : Part) : Answer × Part :=
  match fin? 8 n with
  | none => (Status.alone .range, p)
  | some l => (Answer.ok (p.lane l).bytes, p)

/-! ## Identification, status and resets -/

/-- IDENTIFY (R173). -/
def Part.identifyRequest (_ : Unit) (p : Part) : Answer × Part := (Answer.ok identity, p)

/-- STATUS, with the requests behind it and the replies in their queues (R173). -/
def State.statusRequest (_ : Unit) (s : State) : Answer × State :=
  (Answer.ok (s.part.statusBytes ++ u8 s.port.requests.length ++ u8 s.port.replies.length), s)

/-- The bay after RESET-PART BOOK (R1): the verify timer runs where the post is serviceable and the bay OCCUPIED. -/
def Part.bookBay (p : Part) (b : BayId) : Part :=
  let timer : VerifyTimer :=
    if p.occupancyOf b = .occupied then .running (p.now + p.settings.verifyWindow) else .idle
  p.modBay b (fun x => { x with limit := 0, penalty := 0, verify := timer, notice := true })

/-- The feeder after RESET-PART BOOK (R11, R150). -/
def Feeder.bookReset (x : Feeder) : Feeder :=
  { x with sticky := .empty, condition := false, rotor := 0, overdrawCount := 0, notice := true }

/-- RESET-PART BOOK on the tables (R178): the pool is rebuilt (R49), bays and feeders take the values of R1 and R11, the
tallies of R65, and the idle conditions are evaluated anew (R166). -/
def Part.bookReset (p : Part) : Part :=
  let pooled := { p with pool := p.pool.rebuild }
  let bayed := allBays.foldl Part.bookBay pooled
  let derived := allBays.foldl Part.derive bayed
  let fed := allFeeders.foldl (fun q f => q.modFeeder f Feeder.bookReset) derived
  let ruled := allRules.foldl (fun q r => q.setRule r { q.rule r with counter := 0, notice := false }) fed
  ruled.touchActive

/-- A CLOSE-NOTICE in transmission when the reset is taken frees nothing at its end (R49). -/
def Port.orphanClose (x : Port) : Port :=
  match x.sending with
  | some t =>
    match t.what with
    | .closeNotice (some _) => { x with sending := some { t with what := .closeNotice none } }
    | .closeNotice none | .reply | .resetReply | .notice => x
  | none => x

/-- RESET-PART with level BOOK (R177, R178); the levels of the other row are not served here (log 27). -/
def State.resetBookRequest (level : Nat) (s : State) : Answer × State :=
  if level = 0 then (Answer.ok [], { s with part := s.part.bookReset, port := s.port.orphanClose })
  else (Status.alone .range, s)

/-- RESET-PART with level FULL: no change to any state but that the port serves no further request (R177, R179). -/
def State.resetFullRequest (level : Nat) (s : State) : Answer × State :=
  if level = 1 then (Answer.ok [], { s with port := { s.port with stopped := true } })
  else (Status.alone .range, s)

end Sys2Proof.Machine
end

