-- ==== Sys2Proof/Machine/BookingRequests.lean ====
section
/-! DEFINITION. The requests that create, change and read records: BOOK (R66 to R73), FIND-FREE (R79), EXTEND and RETRACT
(R80 to R84), CANCEL (R45), RES-GET (R46), WAIT-LIST-GET (R95), ARRIVE (R103 to R106), ARRIVE-WALKIN (R109, R110),
END-SESSION (R125) and SESSION-RESUME (R127). -/

namespace Sys2Proof.Machine

/-! ## The window and the new record -/

/-- The window start of BOOK and FIND-FREE, or the refusal (R68). -/
def Part.windowStartOf (p : Part) (q : WindowReq) : Except Status Nat :=
  if !p.clock.set then .error .noClock
  else if q.asap then .ok p.now
  else if q.start < p.now || q.start > p.now + Config.horizon then .error .windowRange
  else .ok q.start

/-- What a new record takes from its request and its admission (R34, R69, R110). -/
structure NewRecord where
  asker : Asker
  admission : Admission
  start : Nat
  stop : Nat
  duration : Nat
  quota : Option Nat
  rateCap : Option Nat
  deadline : Option Nat
  pinned : Option BayId
  origin : Origin
  deriving DecidableEq, Repr

/-- The record, with its state and its bay (R34, R39, R69). -/
def Part.newRecord (p : Part) (n : NewRecord) (state : RecState) (bay : Option BayId) : Record where
  state := state
  bay := bay
  windowStart := n.start
  windowEnd := n.stop
  duration := n.duration
  grace := p.graceOf n.admission
  graceEnd := min (n.start + p.graceOf n.admission) n.stop
  lane := n.asker.lane
  vclass := n.asker.vclass
  ctype := n.asker.ctype
  tier := n.asker.tier
  priority := n.admission.priority
  eligible := n.admission.eligible
  preferred := n.admission.preferred
  created := p.now
  origin := n.origin
  lastCause := match n.origin with
    | .booked => .book
    | .walkIn => .walkIn
  notice := true
  quota := n.quota
  rateCap := n.rateCap
  deadline := n.deadline
  pinned := n.pinned
  extensions := []
  session := none
  close := none
  leadTaken := false
  wakeTaken := false
  endTaken := false

/-! ## BOOK -/

/-- BOOK in range (R66). -/
def BookReq.inRange (q : BookReq) : Option (Asker × Option BayId) :=
  match q.asker.inRange, q.pinned with
  | some a, none => some (a, none)
  | some a, some n => (fin? 64 n).map (fun b => (a, some b))
  | none, _ => none

/-- The reply to a placed or waiting BOOK (R73, 12.4). -/
def bookReply (handle : Nat) (r : Record) (position : Nat) : List Byte :=
  u16 handle ++ optBay r.bay ++ u32 r.windowStart ++ u32 r.windowEnd ++ u16 r.duration ++ u8 r.priority ++
  u8 r.state.code ++ u8 position

/-- A BOOK for which the engine returned bay `b` (R71, R73). -/
def Part.bookPlaced (p : Part) (s : SlotId) (n : NewRecord) (b : BayId) : Answer × Part :=
  let r := p.newRecord n (if n.start > p.now then .booked else .held) (some b)
  let done := (((p.put s r).armChecks s).derive b).advanceTallies n.admission.tallies
  (Answer.ok (bookReply (p.pool.handle s) r 0), done)

/-- A BOOK for which the engine returned no bay (R72, R73, R87). -/
def Part.bookWaiting (p : Part) (s : SlotId) (n : NewRecord) : Answer × Part :=
  match n.deadline with
  | none => (Status.alone .noBay, p)
  | some d =>
    if d ≤ p.now then (Status.alone .noBay, p)
    else if p.pool.waiting.length < Config.waitingPlaces then
      let r := p.newRecord n .waiting none
      let done := (p.put s r).advanceTallies n.admission.tallies
      (⟨.waiting, bookReply (p.pool.handle s) r (done.pool.position s)⟩, done)
    else (Status.alone .listFull, p)

/-- BOOK after its range check, with its clamped values (R67 to R73). -/
def Part.bookInRange (p : Part) (q : BookReq) (a : Asker) (pinned : Option BayId) : Answer × Part :=
  let duration := clampDuration q.window.duration
  match p.windowStartOf q.window with
  | .error e => (e.alone, p)
  | .ok start =>
    match p.evaluate ⟨a, start, duration⟩ with
    | .policyRefused rule => (refusedBy .policyRefused rule, p)
    | .policyQuota rule => (refusedBy .policyQuota (some rule), p)
    | .accepted admission =>
      match p.pool.free with
      | [] => (Status.alone .poolFull, p)
      | s :: _ =>
        let n : NewRecord :=
          { asker := a, admission := admission, start := start, stop := start + duration, duration := duration
            quota := clampQuota q.quota, rateCap := clampRate q.rateCap
            deadline := q.deadline.map (fun d => max d start), pinned := pinned, origin := .booked }
        match p.place ⟨n.start, n.stop, a.ctype, admission.eligible, admission.preferred, pinned, none, none⟩ with
        | some b => p.bookPlaced s n b
        | none => p.bookWaiting s n

/-- BOOK (R66). -/
def Part.bookRequest (q : BookReq) (p : Part) : Answer × Part :=
  match q.inRange with
  | none => (Status.alone .range, p)
  | some (a, pinned) => p.bookInRange q a pinned

/-! ## FIND-FREE -/

/-- FIND-FREE (R79). -/
def Part.findFreeRequest (q : AskerReq × WindowReq) (p : Part) : Answer × Part :=
  match q.1.inRange with
  | none => (Status.alone .range, p)
  | some a =>
    let duration := clampDuration q.2.duration
    match p.windowStartOf q.2 with
    | .error e => (e.alone, p)
    | .ok start =>
      match p.evaluate ⟨a, start, duration⟩ with
      | .policyRefused rule => (refusedBy .policyRefused rule, p)
      | .policyQuota rule => (refusedBy .policyQuota (some rule), p)
      | .accepted admission =>
        let bays := p.passing ⟨start, start + duration, a.ctype, admission.eligible, 0, none, none, none⟩
        (Answer.ok (bayMask (BayMask.ofList bays) ++ u32 start ++ u32 (start + duration) ++ u16 duration ++
          u8 admission.priority), p)

/-! ## EXTEND and RETRACT -/

/-- The record that a handle names, CLOSING ones left out (R32). -/
def Part.findLive (p : Part) (handle : Nat) : Option (SlotId × Record) :=
  (p.pool.find handle).filter (fun x => x.2.state ≠ .closing)

/-- A session in phase OVERSTAY (R80, R83). -/
def Record.overstays (r : Record) : Bool := r.session.any (·.phase.isOverstay)

/-- The record after slot `s` on a chain. -/
def successorOf (s : SlotId) : List SlotId → Option SlotId
  | [] => none
  | x :: xs => if x = s then xs.head? else successorOf s xs

/-- The limits of a grant (R81), each a number of minutes. A limit below 0 admits no grant and stands as 0; the length
limit 720 − (u − t) is more than 720 where the window end stands below the window start (log 40). -/
def Part.grantLimits (p : Part) (s : SlotId) (r : Record) (b : BayId) (amount : Nat) : List Nat :=
  let f := (p.bay b).feeder
  let successor := ((successorOf s (p.chain b)).bind p.record).map (fun x =>
    x.windowStart - p.settings.guard - r.windowEnd)
  let concurrency := (p.firstFull f (some s) r.windowEnd).map (fun m => m - r.windowEnd)
  [roundUp5 amount, Config.longestWindow + r.windowStart - r.windowEnd] ++ successor.toList ++ concurrency.toList

/-- The grant: the largest multiple of 5 no greater than any limit (R81). -/
def Part.grant (p : Part) (s : SlotId) (r : Record) (b : BayId) (amount : Nat) : Nat :=
  ((p.grantLimits s r b amount).min?.getD 0) / 5 * 5

/-- The record with a grant (R82). -/
def Record.extended (r : Record) (g : Nat) : Record :=
  { r.flag .extend with extensions := g :: r.extensions, windowEnd := r.windowEnd + g, endTaken := false }

/-- EXTEND (R80 to R82). -/
def Part.extendRequest (q : Nat × Nat) (p : Part) : Answer × Part :=
  if q.2 = 0 then (Status.alone .range, p)
  else
    match p.findLive q.1 with
    | none => (Status.alone .unknownReservation, p)
    | some (s, r) =>
      match r.state.chained, r.bay with
      | true, some b =>
        if r.windowEnd ≤ p.now || r.overstays then (Status.alone .tooLate, p)
        else if r.extensions.length ≥ Config.extensionPlaces then (Status.alone .extendLimit, p)
        else
          let g := p.grant s r b q.2
          if g = 0 then (Status.alone .noRoom, p)
          else
            (Answer.ok (u16 g ++ u32 (r.windowEnd + g) ++ u8 (r.extensions.length + 1)), p.put s (r.extended g))
      | _, _ => (Status.alone .wrongState, p)

/-- The record with its newest extension `x` given back, and `rest` left (R84). -/
def Record.retracted (r : Record) (x : Nat) (rest : List Nat) : Record :=
  { r.flag .retract with
    extensions := rest
    windowEnd := r.windowEnd - x
    graceEnd := min r.graceEnd (r.windowEnd - x)
    endTaken := false }

/-- RETRACT (R83, R84). -/
def Part.retractRequest (handle : Nat) (p : Part) : Answer × Part :=
  match p.findLive handle with
  | none => (Status.alone .unknownReservation, p)
  | some (s, r) =>
    match r.extensions with
    | [] => (Status.alone .nothingToRetract, p)
    | x :: rest =>
      if r.windowEnd ≤ p.now + x || r.overstays then (Status.alone .tooLate, p)
      else
        (Answer.ok (u16 x ++ u32 (r.windowEnd - x) ++ u8 rest.length),
          (p.put s (r.retracted x rest)).retryDue)

/-! ## CANCEL, RES-GET, WAIT-LIST-GET -/

/-- CANCEL (R45). -/
def Part.cancelRequest (handle : Nat) (p : Part) : Answer × Part :=
  match p.findLive handle with
  | none => (Status.alone .unknownReservation, p)
  | some (s, r) =>
    if r.state = .engaged then (Status.alone .wrongState, p)
    else (Answer.ok [], p.closeRecord s .cancelled .host)

/-- RES-GET; a CLOSING record is reported as well (R46, R32). -/
def Part.resGetRequest (handle : Nat) (p : Part) : Answer × Part :=
  match p.pool.find handle with
  | none => (Status.alone .unknownReservation, p)
  | some (s, r) => (Answer.ok (p.recordSnapshot s r), p)

/-- WAIT-LIST-GET (R95). -/
def Part.waitListRequest (_ : Unit) (p : Part) : Answer × Part :=
  (Answer.ok (counted (fun s => u16 (p.pool.handle s)) p.pool.waiting), p)

/-! ## ARRIVE -/

/-- The start that ARRIVE would give the window: the larger of now and u − 720 (R103). -/
def Record.arrivalStart (r : Record) (now : Nat) : Nat := max now (r.windowEnd - Config.longestWindow)

/-- The record with its start moved (R36, R39). -/
def Record.startingAt (r : Record) (b : BayId) (start : Nat) : Record :=
  { r with bay := some b, windowStart := start, graceEnd := min (start + r.grace) r.windowEnd }

/-- A record that has arrived on bay `b` is engaged by an OCCUPIED bay, and waits for its vehicle otherwise; the bay's
post wakes (R104, R106, R110). `moved` says that its start or its bay is new, so that its checks have new due
minutes. -/
def Part.takeArrival (p : Part) (s : SlotId) (b : BayId) (cause : LastCause) (moved : Bool) : Part :=
  let taken :=
    if p.occupancyOf b = .occupied then p.engage s cause
    else
      let waits := p.modRecord s (fun r => { r.flag cause with state := .arriving })
      if moved then waits.armChecks s else waits
  (taken.derive b).wakeBay b

/-- The reply to ARRIVE; the bay is sent as a plain field, since a record that has arrived stands on one (R106, R180). -/
def Part.arriveReply (p : Part) (s : SlotId) : List Byte :=
  match p.record s with
  | none => []
  | some r =>
    u16 (p.pool.handle s) ++ u8 r.state.code ++ u8 ((r.bay.map (·.val)).getD 0) ++ u32 r.windowStart ++ u32 r.windowEnd ++
    opt u32 (if r.state = .arriving then some r.graceEnd else none)

/-- The condition forbids an arrival (R104, R105, R109). -/
def Part.closedToArrival (p : Part) (b : BayId) : Bool := (p.bay b).condition.unusable

/-- The chain holds an ENGAGED, HELD or ARRIVING record (R105, R109). -/
def Part.takenBy (p : Part) (b : BayId) : Bool :=
  (p.chain b).any (p.recordIs (fun r => r.state = .engaged || r.state = .held || r.state = .arriving))

/-- ARRIVE naming the record's own bay (R104). -/
def Part.arriveOwn (p : Part) (s : SlotId) (r : Record) (b : BayId) : Answer × Part :=
  let start := r.arrivalStart p.now
  if p.closedToArrival b || (p.chain b).head? ≠ some s then (Status.alone .bayBusy, p)
  else if r.state = .arriving then (Answer.ok (p.arriveReply s), p)
  else if r.state = .booked && start < r.windowStart then
    if p.carries (p.bay b).feeder (some s) start r.windowStart then
      let done := (p.put s (r.startingAt b start)).takeArrival s b .arrive true
      (Answer.ok (done.arriveReply s), done)
    else (Status.alone .noRoom, p)
  else
    let done := p.takeArrival s b .arrive false
    (Answer.ok (done.arriveReply s), done)

/-- The tests of ARRIVE naming another bay (R105). -/
def Part.arrivalFits (p : Part) (s : SlotId) (r : Record) (b : BayId) : Bool :=
  (p.bay b).configured && BayMask.has r.eligible b && (p.bay b).ctype = r.ctype &&
  !p.closedToArrival b && !p.takenBy b &&
  (p.others b none).all (fun x => r.windowEnd + p.settings.guard ≤ x.windowStart) &&
  p.carries (p.bay b).feeder (some s) (r.arrivalStart p.now) r.windowEnd

/-- ARRIVE naming another bay (R105). -/
def Part.arriveOther (p : Part) (s : SlotId) (r : Record) (a b : BayId) : Answer × Part :=
  if p.arrivalFits s r b then
    let moved := ((p.put s (r.startingAt b (r.arrivalStart p.now))).derive a).retryDue
    let done := moved.takeArrival s b .arrive true
    (Answer.ok (done.arriveReply s), done)
  else (Status.alone .wrongBay, p)

/-- ARRIVE (R103 to R106). -/
def Part.arriveRequest (q : Nat × Nat) (p : Part) : Answer × Part :=
  match fin? 64 q.2 with
  | none => (Status.alone .range, p)
  | some b =>
    if !p.clock.set then (Status.alone .noClock, p)
    else
      match p.findLive q.1 with
      | none => (Status.alone .unknownReservation, p)
      | some (s, r) =>
        match r.state.upcoming, r.bay with
        | true, some a =>
          if r.state = .booked && p.now + p.settings.earlyAllowance < r.windowStart then (Status.alone .tooEarly, p)
          else if a = b then p.arriveOwn s r b
          else p.arriveOther s r a b
        | _, _ => (Status.alone .wrongState, p)

/-! ## ARRIVE-WALKIN -/

/-- The walk-in end (R110). -/
def Part.walkinEnd (p : Part) (b : BayId) (duration : Nat) : Nat :=
  let first := (p.others b none).head?.map (fun r => r.windowStart - p.settings.guard)
  let full := p.firstFull (p.bay b).feeder none p.now
  ([p.now + duration] ++ first.toList ++ full.toList).min?.getD p.now

/-- The reply to ARRIVE-WALKIN (R110). -/
def Part.walkinReply (p : Part) (s : SlotId) : List Byte :=
  match p.record s with
  | none => []
  | some r =>
    u16 (p.pool.handle s) ++ u8 ((r.bay.map (·.val)).getD 0) ++ u8 r.state.code ++ u32 r.windowStart ++
    u32 r.windowEnd ++ u16 r.duration ++ u8 r.priority ++
    opt u32 (if r.state = .arriving then some r.graceEnd else none)

/-- ARRIVE-WALKIN that admission has accepted (R109, checks 5 to 8; R110). -/
def Part.walkinAccepted (p : Part) (q : WalkinReq) (a : Asker) (b : BayId) (m : Admission) : Answer × Part :=
  let duration := clampDuration q.duration
  let stop := p.walkinEnd b duration
  if !(p.bay b).configured || !BayMask.has m.eligible b || (p.bay b).ctype ≠ a.ctype then (Status.alone .wrongBay, p)
  else if p.closedToArrival b || p.takenBy b then (Status.alone .bayBusy, p)
  else if stop < p.now + 15 then (Status.alone .noRoom, p)
  else
    match p.pool.free with
    | [] => (Status.alone .poolFull, p)
    | s :: _ =>
      let n : NewRecord :=
        { asker := a, admission := m, start := p.now, stop := stop, duration := duration
          quota := clampQuota q.quota, rateCap := clampRate q.rateCap, deadline := none, pinned := none
          origin := .walkIn }
      let created := p.put s (p.newRecord n .arriving (some b))
      let done := (created.takeArrival s b .walkIn true).advanceTallies m.tallies
      (Answer.ok (done.walkinReply s), done)

/-- ARRIVE-WALKIN (R109, R110). A refusal by policy carries its deciding rule as the reply to BOOK does (log 17). -/
def Part.walkinRequest (q : WalkinReq) (p : Part) : Answer × Part :=
  match fin? 64 q.bay, q.asker.inRange with
  | some b, some a =>
    if !p.clock.set then (Status.alone .noClock, p)
    else
      match p.evaluate ⟨a, p.now, clampDuration q.duration⟩ with
      | .policyRefused rule => (refusedBy .policyRefused rule, p)
      | .policyQuota rule => (refusedBy .policyQuota (some rule), p)
      | .accepted m => p.walkinAccepted q a b m
  | _, _ => (Status.alone .range, p)

/-! ## END-SESSION and SESSION-RESUME -/

/-- The reply byte of END-SESSION: the state CLOSING of a record that it closed, else the phase (R125, log 17). -/
def Part.endReply (p : Part) (s : SlotId) : List Byte :=
  match p.record s with
  | none => []
  | some r =>
    if r.state = .closing then u8 RecState.closing.code
    else u8 ((r.session.map (fun x => x.phase.code)).getD 0)

/-- END-SESSION (R125). -/
def Part.endSessionRequest (handle : Nat) (p : Part) : Answer × Part :=
  match p.findLive handle with
  | none => (Status.alone .unknownReservation, p)
  | some (s, r) =>
    if r.state = .engaged then
      let done := p.endSession s .host
      (Answer.ok (done.endReply s), done)
    else (Status.alone .wrongState, p)

/-- The reply to SESSION-RESUME: the phase after the resume and the quota (R127). -/
def Part.resumeReply (p : Part) (s : SlotId) : List Byte :=
  match p.record s with
  | none => []
  | some r => u8 ((r.session.map (fun x => x.phase.code)).getD 0) ++ opt u32 r.quota

/-- SESSION-RESUME of an ENGAGED record on bay `b` (R127): the refusal, or the part after the resume. -/
def Part.resume (p : Part) (s : SlotId) (r : Record) (x : Session) (b : BayId) (added : Option Nat) :
    Except Status Part :=
  let plugged := p.plugOf b = .plugged
  let penalty := (p.bay b).penalty
  match x.phase with
  | .halted =>
    if p.serviceable b then .ok (p.updSession s (fun y => y.resumed plugged penalty)) else .error .notReady
  | .satisfied => .ok (p.updSession s (fun y => { y.intoCharge penalty with satisfied := 0 }))
  | .quotaMet =>
    match added with
    | none => .error .wrongState
    | some n =>
      let quota := r.quota.getD 0
      if quota ≥ Config.largestQuota then .error .range
      else
        let raised := p.put s { r.flag .session with quota := some (min (quota + n) Config.largestQuota) }
        .ok (raised.updSession s (fun y => if plugged then y.intoCharge penalty else { y with phase := .plugWait }))
  | .plugWait | .charge | .paused | .overstay | .settling => .error .wrongState

/-- SESSION-RESUME; an added quota of 0 is taken as absent (R127). -/
def Part.resumeRequest (q : Nat × Option Nat) (p : Part) : Answer × Part :=
  match p.findLive q.1 with
  | none => (Status.alone .unknownReservation, p)
  | some (s, r) =>
    match r.state, r.session, r.bay with
    | .engaged, some x, some b =>
      match p.resume s r x b (q.2.filter (fun n => n ≠ 0)) with
      | .ok done => (Answer.ok (done.resumeReply s), done)
      | .error e => (e.alone, p)
    | _, _, _ => (Status.alone .wrongState, p)

end Sys2Proof.Machine
end

