-- ==== Sys2Proof/Machine/Outcome.lean ====
section
/-! DEFINITION. The outcome of a command: its effect, then the completion of the event (log 8), or the fault of an
ill-formed operand (log 22). -/

namespace Sys2Proof.Machine

/-- A command with an effect: the event completes and the transmitter begins when it is idle. -/
def State.done (s : State) : Host.Outcome State Fault Refusal := .next s.complete

/-- The part's time base moves to the moment of the event (log 2). -/
def State.at (s : State) (time : Nat) : State := { s with part := s.part.at time }

/-- An event of the blocks behind the port. -/
def State.onPart (s : State) (f : Part → Part) : State := { s with part := f s.part }

/-- A command with a numbered object: the effect on that object, or the fault where the part has none of that number. -/
def withObject (n i : Nat) (effect : Fin n → State) : Host.Outcome State Fault Refusal :=
  match fin? n i with
  | some x => (effect x).done
  | none => .fault .illFormedCommand

end Sys2Proof.Machine
end

