-- ==== Sys2Proof/Machine/ResetCommands.lean ====
section
/-! DEFINITION. POWER_ON, RST_N, FULL_RESET, RESET_PART_BOOK, RESET_PART_FULL (R48, R177 to R179). -/

namespace Sys2Proof.Machine

/-- POWER_ON: every table takes its power-on value (R48). -/
def execPowerOn (s : State) : Host.Outcome State Fault Refusal := .next s.fullReset

/-- RST_N: a low level resets the part as at power-on; a frame in transmission is abandoned (R179). -/
def execRstN (s : State) : Host.Outcome State Fault Refusal := .next s.fullReset

/-- FULL_RESET: the last byte of the RESET-PART FULL reply has been sent, and the reset is taken (R179). It has no effect
while no such reply is in transmission. -/
def execFullReset (s : State) : Host.Outcome State Fault Refusal :=
  match s.port.sending with
  | some x => if x.what = .resetReply then .next s.fullReset else .next s
  | none => .next s

/-- RESET_PART_BOOK (R178). -/
def execResetPartBook (s : State) : Host.Outcome State Fault Refusal :=
  (s.serveWith .resetPart (byteNot 0 [1]) Rd.u8 State.resetBookRequest).done

/-- RESET_PART_FULL (R179). -/
def execResetPartFull (s : State) : Host.Outcome State Fault Refusal :=
  (s.serveWith .resetPart (byteNot 0 [0]) Rd.u8 State.resetFullRequest).done

end Sys2Proof.Machine
end

