-- ==== Sys2Proof/Machine/PortCommands.lean ====
section
/-! DEFINITION. The events of the Management Port and the requests on the whole part: FRAME_RECEIVED, FRAME_GAP_TIMEOUT,
RECEIVED_BYTE, UNKNOWN_KIND, FRAME_SENT, IDENTIFY, STATUS (R168 to R173). -/

namespace Sys2Proof.Machine

/-- FRAME_RECEIVED: a complete frame with a correct CRC-16 is handed to the request queue (R169). -/
def execFrameReceived (tag kind : Byte) (payload : List Byte) (s : State) : Host.Outcome State Fault Refusal :=
  if payload.length ≤ 238 then ({ s with port := s.port.acceptFrame ⟨tag, kind, payload⟩ } : State).done
  else .fault .illFormedCommand

/-- FRAME_GAP_TIMEOUT: more than 10 ms have passed since the last byte of a frame, which is dropped (R168). -/
def execFrameGapTimeout (time : Nat) (s : State) : Host.Outcome State Fault Refusal :=
  let t := s.at time
  let x := t.port.receiver
  if x.inFrame && t.part.time > x.lastByte + Config.frameGap then
    ({ t with port := { t.port with receiver := .hunting x.lastByte } } : State).done
  else t.done

/-- RECEIVED_BYTE: a byte on MRX is taken by the receive state; a complete frame with a correct CRC-16 is handed to the
request queue (R168, R169). -/
def execReceivedByte (byte : Byte) (time : Nat) (s : State) : Host.Outcome State Fault Refusal :=
  let t := s.at time
  let (receiver, frame) := t.port.receiver.take byte t.part.time
  let port := { t.port with receiver := receiver }
  match frame with
  | some f => ({ t with port := port.acceptFrame f } : State).done
  | none => ({ t with port := port } : State).done

/-- UNKNOWN_KIND: the served request's KIND is not a request kind (R170). -/
def execUnknownKind (s : State) : Host.Outcome State Fault Refusal :=
  match s.port.requests with
  | [] => s.done
  | f :: rest =>
    if (Kind.ofCode f.kind).isNone && s.port.replies.length < Config.queuePlaces && !s.port.stopped then
      (({ s with port := { s.port with requests := rest } } : State).answer f (Status.alone .unknownKind)).done
    else s.done

/-- FRAME_SENT: the last byte of the frame in transmission has been sent, and the next frame begins (R171). -/
def execFrameSent (s : State) : Host.Outcome State Fault Refusal := s.frameSent.done

/-- IDENTIFY (R173). -/
def execIdentify (s : State) : Host.Outcome State Fault Refusal := (s.serve .identify any Rd.empty Part.identifyRequest).done

/-- STATUS (R173). -/
def execStatus (s : State) : Host.Outcome State Fault Refusal := (s.serveWith .status any Rd.empty State.statusRequest).done

end Sys2Proof.Machine
end

