-- ==== Sys2Proof/Machine/LevelCommands.lean ====
section
/-! DEFINITION. The request rows on the clock, the settings, the bays, the feeders and the posts. The rows that share a
kind part it by the byte that names their variant (log 27). -/

namespace Sys2Proof.Machine

/-- CLOCK_SET (R20, R21). -/
def execClockSet (s : State) : Host.Outcome State Fault Refusal :=
  (s.serve .clockSet any Rd.clockSet Part.clockSetRequest).done

/-- CLOCK_GET (R26). -/
def execClockGet (s : State) : Host.Outcome State Fault Refusal :=
  (s.serve .clockGet any Rd.empty Part.clockGetRequest).done

/-- PART_SET (R174, R175). -/
def execPartSet (s : State) : Host.Outcome State Fault Refusal :=
  (s.serve .partSet any Rd.partSet Part.partSetRequest).done

/-- PART_GET (R176). -/
def execPartGet (s : State) : Host.Outcome State Fault Refusal :=
  (s.serve .partGet any Rd.empty Part.partGetRequest).done

/-- BAY_SET: configures a bay or changes its binding (R2, R3). -/
def execBaySet (s : State) : Host.Outcome State Fault Refusal :=
  (s.serve .baySet (byteNot 1 [0]) Rd.baySet Part.setBayRequest).done

/-- BAY_REMOVE: BAY-SET with the configure flag clear (R2, R3). -/
def execBayRemove (s : State) : Host.Outcome State Fault Refusal :=
  (s.serve .baySet (byteNot 1 [1]) Rd.baySet Part.setBayRequest).done

/-- BAY_GET (R4). -/
def execBayGet (s : State) : Host.Outcome State Fault Refusal :=
  (s.serve .bayGet any Rd.u8 Part.getBayRequest).done

/-- BAY_SERVICE_OUT (R5). -/
def execBayServiceOut (s : State) : Host.Outcome State Fault Refusal :=
  (s.serve .bayService (byteNot 1 [0]) Rd.bayService Part.bayServiceRequest).done

/-- BAY_SERVICE_IN (R6). -/
def execBayServiceIn (s : State) : Host.Outcome State Fault Refusal :=
  (s.serve .bayService (byteNot 1 [1]) Rd.bayService Part.bayServiceRequest).done

/-- FEEDER_SET (R12, R13). -/
def execFeederSet (s : State) : Host.Outcome State Fault Refusal :=
  (s.serve .feederSet any Rd.feederSet Part.setFeederRequest).done

/-- FEEDER_GET (R14). -/
def execFeederGet (s : State) : Host.Outcome State Fault Refusal :=
  (s.serve .feederGet any Rd.u8 Part.getFeederRequest).done

/-- FEEDER_TRIM (R137). -/
def execFeederTrim (s : State) : Host.Outcome State Fault Refusal :=
  (s.serve .feederTrim any Rd.byteWord Part.trimRequest).done

/-- FEEDER_CLEAR (R148). -/
def execFeederClear (s : State) : Host.Outcome State Fault Refusal :=
  (s.serve .feederClear any Rd.byteByte Part.clearFlagsRequest).done

/-- POST_SET_IN_USE (R16). -/
def execPostSetInUse (s : State) : Host.Outcome State Fault Refusal :=
  (s.serve .postSet (byteNot 1 [0]) Rd.byteFlag Part.setPostRequest).done

/-- POST_SET_WITHDRAW (R16). -/
def execPostSetWithdraw (s : State) : Host.Outcome State Fault Refusal :=
  (s.serve .postSet (byteNot 1 [1]) Rd.byteFlag Part.setPostRequest).done

/-- POST_GET (R17). -/
def execPostGet (s : State) : Host.Outcome State Fault Refusal :=
  (s.serve .postGet any Rd.u8 Part.getPostRequest).done

/-- POST_FORCE_RESEEK (R165). -/
def execPostForceReseek (s : State) : Host.Outcome State Fault Refusal :=
  (s.serve .postForce (byteNot 1 [1, 2]) Rd.byteByte (Part.forceRequest Part.forceReseek)).done

/-- POST_FORCE_ISOLATE (R165). -/
def execPostForceIsolate (s : State) : Host.Outcome State Fault Refusal :=
  (s.serve .postForce (byteNot 1 [0, 2]) Rd.byteByte (Part.forceRequest Part.forceIsolate)).done

/-- POST_FORCE_WAKE (R165). -/
def execPostForceWake (s : State) : Host.Outcome State Fault Refusal :=
  (s.serve .postForce (byteNot 1 [0, 1]) Rd.byteByte (Part.forceRequest Part.forceWake)).done

end Sys2Proof.Machine
end

