-- ==== Sys2Proof/Machine/BookingCommands.lean ====
section
/-! DEFINITION. The request rows on the policy table, the records and the sessions. -/

namespace Sys2Proof.Machine

/-- RULE_WRITE (R54, R55). -/
def execRuleWrite (s : State) : Host.Outcome State Fault Refusal :=
  (s.serve .ruleWrite any Rd.ruleWrite Part.ruleWriteRequest).done

/-- RULE_READ (R56). -/
def execRuleRead (s : State) : Host.Outcome State Fault Refusal :=
  (s.serve .ruleRead any Rd.u8 Part.ruleReadRequest).done

/-- TALLY_CLEAR (R63). -/
def execTallyClear (s : State) : Host.Outcome State Fault Refusal :=
  (s.serve .tallyClear any Rd.u8 Part.tallyClearRequest).done

/-- LANE_SET (R51). -/
def execLaneSet (s : State) : Host.Outcome State Fault Refusal :=
  (s.serve .laneSet any Rd.laneSet Part.laneSetRequest).done

/-- LANE_GET (R52). -/
def execLaneGet (s : State) : Host.Outcome State Fault Refusal :=
  (s.serve .laneGet any Rd.u8 Part.laneGetRequest).done

/-- BOOK (R66 to R73). -/
def execBook (s : State) : Host.Outcome State Fault Refusal :=
  (s.serve .book any Rd.book Part.bookRequest).done

/-- FIND_FREE (R79). -/
def execFindFree (s : State) : Host.Outcome State Fault Refusal :=
  (s.serve .findFree any Rd.findFree Part.findFreeRequest).done

/-- EXTEND (R80 to R82). -/
def execExtend (s : State) : Host.Outcome State Fault Refusal :=
  (s.serve .extend any Rd.handleWord Part.extendRequest).done

/-- RETRACT (R83, R84). -/
def execRetract (s : State) : Host.Outcome State Fault Refusal :=
  (s.serve .retract any Rd.u16 Part.retractRequest).done

/-- CANCEL (R45). -/
def execCancel (s : State) : Host.Outcome State Fault Refusal :=
  (s.serve .cancel any Rd.u16 Part.cancelRequest).done

/-- RES_GET (R46). -/
def execResGet (s : State) : Host.Outcome State Fault Refusal :=
  (s.serve .resGet any Rd.u16 Part.resGetRequest).done

/-- WAIT_LIST_GET (R95). -/
def execWaitListGet (s : State) : Host.Outcome State Fault Refusal :=
  (s.serve .waitListGet any Rd.empty Part.waitListRequest).done

/-- ARRIVE (R103 to R106). -/
def execArrive (s : State) : Host.Outcome State Fault Refusal :=
  (s.serve .arrive any Rd.handleByte Part.arriveRequest).done

/-- ARRIVE_WALKIN (R109, R110). -/
def execArriveWalkin (s : State) : Host.Outcome State Fault Refusal :=
  (s.serve .arriveWalkin any Rd.walkin Part.walkinRequest).done

/-- END_SESSION (R125). -/
def execEndSession (s : State) : Host.Outcome State Fault Refusal :=
  (s.serve .endSession any Rd.u16 Part.endSessionRequest).done

/-- SESSION_RESUME (R127). -/
def execSessionResume (s : State) : Host.Outcome State Fault Refusal :=
  (s.serve .sessionResume any Rd.resume Part.resumeRequest).done

end Sys2Proof.Machine
end

