-- ==== Sys2Proof/Machine/ClockCommands.lean ====
section
/-! DEFINITION. The tick, the minute event, the units' handling of a tick (R19, R128 to R131, R144, R145), and the timed events as
events of their own (R23, log 7). -/

namespace Sys2Proof.Machine

/-- The tick's metering of one record, when it reaches the quota (R129). -/
def Part.quotaEvent (p : Part) (s : SlotId) : Part :=
  match p.record s with
  | none => p
  | some r =>
    match r.bay, r.session with
    | some b, some x =>
      if r.state = .engaged &&
          x.reachesQuota r.quota (p.bay b).reading (p.feeder (p.bay b).feeder).voltage then p.meterSlot s
      else p
    | _, _ => p

/-- The tick's satisfied check of one record, when its count reaches 300 (R130). -/
def Part.satisfiedEvent (p : Part) (s : SlotId) : Part :=
  match p.record s with
  | none => p
  | some r =>
    match r.bay, r.session with
    | some b, some x =>
      if r.state = .engaged && x.drawsNothing (p.bay b).limit (p.bay b).reading &&
          Config.satisfiedTicks ≤ x.satisfied + 1 then p.checkSlot s
      else p
    | _, _ => p

/-- TICK: the one-second tick at the Park Clock (R19). It is taken whenever it is given: its moment is not held to one
second after the last tick (log 2). -/
def execTick (time : Nat) (s : State) : Host.Outcome State Fault Refusal := ((s.at time).onPart Part.tick).done

/-- MINUTE_EVENT: the minute count has advanced, and the timed events due are taken (R19, R23). -/
def execMinuteEvent (s : State) : Host.Outcome State Fault Refusal := (s.onPart Part.minuteEvent).done

/-- SESSION_TICK: every ENGAGED record is metered and checked (R128 to R130). -/
def execSessionTick (s : State) : Host.Outcome State Fault Refusal := (s.onPart Part.sessionTick).done

/-- QUOTA_MET: a tick of metering brings the energy within to the quota (R129). It has no effect on a session that the
tick would not bring there (log 6). -/
def execQuotaMet (slot : Nat) (s : State) : Host.Outcome State Fault Refusal :=
  withObject 192 slot (fun x => s.onPart (fun p => p.quotaEvent x))

/-- SATISFIED: the satisfied count reaches 300 (R130). It has no effect on a session whose count would not (log 6). -/
def execSatisfied (slot : Nat) (s : State) : Host.Outcome State Fault Refusal :=
  withObject 192 slot (fun x => s.onPart (fun p => p.satisfiedEvent x))

/-- SHARE_TICK: the Share Unit's tick on every feeder (R145). -/
def execShareTick (s : State) : Host.Outcome State Fault Refusal := (s.onPart Part.shareTick).done

/-- OVERDRAW_PENALTY: the overdraw check brings the count to 3, and a bay gets a penalty (R145, R131). It has no effect
where the check would not (log 6). -/
def execOverdrawPenalty (feeder : Nat) (s : State) : Host.Outcome State Fault Refusal :=
  withObject 8 feeder (fun f => s.onPart (fun p =>
    if p.overdrawNext f ≥ Config.overdrawTicks then p.penalize f else p))

/-- PENALTY_END: a bay's overdraw penalty reaches 0 (R131, R145). It has no effect on another penalty (log 6). -/
def execPenaltyEnd (bay : Nat) (s : State) : Host.Outcome State Fault Refusal :=
  withObject 64 bay (fun b => s.onPart (fun p => if (p.bay b).penalty = 1 then p.countDown b else p))

/-- RECOMPUTE: a recompute of a feeder as an event of its own (R144). -/
def execRecompute (feeder : Nat) (s : State) : Host.Outcome State Fault Refusal :=
  withObject 8 feeder (fun f => s.onPart (fun p => p.recompute f))

/-- LEAD_CHECK: a record on a blocked bay is relocated at its start less the lead (R112). -/
def execLeadCheck (slot : Nat) (s : State) : Host.Outcome State Fault Refusal :=
  withObject 192 slot (fun x => s.onPart (fun p => p.timedEvent (.leadCheck x)))

/-- WAKE_CHECK: a post in STANDBY that carries the record's bay becomes WAKING (R164). -/
def execWakeCheck (slot : Nat) (s : State) : Host.Outcome State Fault Refusal :=
  withObject 192 slot (fun x => s.onPart (fun p => p.timedEvent (.wakeCheck x)))

/-- WINDOW_START: a BOOKED record becomes HELD (R38). -/
def execWindowStart (slot : Nat) (s : State) : Host.Outcome State Fault Refusal :=
  withObject 192 slot (fun x => s.onPart (fun p => p.timedEvent (.windowStart x)))

/-- GRACE_END: a HELD or ARRIVING record closes NO-SHOW (R107). -/
def execGraceEnd (slot : Nat) (s : State) : Host.Outcome State Fault Refusal :=
  withObject 192 slot (fun x => s.onPart (fun p => p.timedEvent (.graceEnd x)))

/-- WINDOW_END: a record before engagement closes NO-SHOW, a session enters OVERSTAY (R40, R123). -/
def execWindowEnd (slot : Nat) (s : State) : Host.Outcome State Fault Refusal :=
  withObject 192 slot (fun x => s.onPart (fun p => p.timedEvent (.windowEnd x)))

/-- WAITING_DEADLINE: a WAITING record closes EXPIRED (R93). -/
def execWaitingDeadline (slot : Nat) (s : State) : Host.Outcome State Fault Refusal :=
  withObject 192 slot (fun x => s.onPart (fun p => p.timedEvent (.deadline x)))

/-- VERIFY_EXPIRY: a running verify timer expires (R100). -/
def execVerifyExpiry (bay : Nat) (s : State) : Host.Outcome State Fault Refusal :=
  withObject 64 bay (fun x => s.onPart (fun p => p.timedEvent (.verify x)))

/-- IDLE_TIMER: an ACTIVE post's idle timer falls due (R161). -/
def execIdleTimer (post : Nat) (s : State) : Host.Outcome State Fault Refusal :=
  withObject 32 post (fun x => s.onPart (fun p => p.timedEvent (.idle x)))

/-- ROLLOVER: the last rollover day advances and every tally counter is cleared (R25, R64). -/
def execRollover (s : State) : Host.Outcome State Fault Refusal := (s.onPart (fun p => p.timedEvent .rollover)).done

end Sys2Proof.Machine
end

