-- ==== Sys2Proof/Machine/LinkCommands.lean ====
section
/-! DEFINITION. The events on the time base: trip inputs and recovery (R134, R135), the settle timer (R126), the poll round and its
exchanges (R151, R152, R181), the limits of a post (R157, R163). -/

namespace Sys2Proof.Machine

/-- A change of the pin's level starts or ends a debounce difference (R134). -/
def Part.pinChanged (p : Part) (f : FeederId) (low : Bool) : Part :=
  let x := p.trip f
  let differs := low ≠ (p.feeder f).active
  p.setTrip f ⟨low, if differs then (if x.low = low then x.since.or (some p.time) else some p.time) else none⟩

/-- The pin has held the level opposite to the debounced one for 200 ms, and the debounced level takes it (R134). -/
def Part.debounce (p : Part) (f : FeederId) : Part :=
  let x := p.trip f
  match x.since with
  | some t =>
    if t + Config.debounceTime ≤ p.time then (p.setTrip f { x with since := none }).levelChanged f x.low else p
  | none => p

/-- The recovery timer of a feeder expires (R135). -/
def Part.recovered (p : Part) (f : FeederId) : Part :=
  match (p.feeder f).recovery with
  | some expiry => if expiry ≤ p.time then p.restore f else p
  | none => p

/-- The settle timer of an ENGAGED record's session expires: it closes STOPPED by its settle cause (R126). -/
def Part.settleExpired (p : Part) (s : SlotId) : Part :=
  match (p.session s).bind (·.settle) with
  | some z =>
    if p.recordIs (fun r => r.state = .engaged) s && z.expiry ≤ p.time then p.closeRecord s .stopped z.cause.closedBy
    else p
  | none => p

/-- A poll round may begin: no exchange is in progress, and 250 ms have passed since the last round began; the first
round begins at the end of the reset (R151). -/
def Link.mayStart (l : Link) (time : Nat) : Bool :=
  l.exchange.isNone && (l.first || l.roundStart + Config.roundTime ≤ time)

/-- A poll round begins and opens its first exchange (R151). -/
def Part.startRound (p : Part) : Part :=
  if p.link.mayStart p.time then
    { p with
      link := ⟨(p.link.roundCount + 1) % 10, p.time, false, none, none⟩
      work := { p.work with nextExchange := true } }
  else p

/-- The last byte of the command has been sent: the reply deadline is set 3 ms later (R152). -/
def Part.commandSent (p : Part) : Part :=
  match p.link.exchange with
  | some x =>
    if x.deadline = none then
      { p with link := { p.link with exchange := some { x with deadline := some (p.time + Config.replyTime) } } }
    else p
  | none => p

/-- A 12-byte frame is judged in an open exchange: a valid reply ends it, any other frame leaves it open (R152, R181). -/
def Part.replyReceived (p : Part) (bytes : List Byte) : Part :=
  match p.link.exchange with
  | none => p
  | some x =>
    match x.deadline, LinkReply.ofBytes bytes with
    | some d, some r =>
      if p.time < d && r.address = x.post.val && r.seq = x.seq then (p.takeReply x.post r).endExchange x.post else p
    | _, _ => p

/-- The reply deadline passes without a valid reply: one miss (R152, R154). -/
def Part.replyMissed (p : Part) : Part :=
  match p.link.exchange with
  | none => p
  | some x =>
    match x.deadline with
    | some d => if d ≤ p.time then (p.takeMiss x.post).endExchange x.post else p
    | none => p

/-- TRIP_INPUT_CHANGE (R134). -/
def execTripInputChange (pin : Nat) (low : Bool) (time : Nat) (s : State) : Host.Outcome State Fault Refusal :=
  withObject 8 pin (fun f => (s.at time).onPart (fun p => p.pinChanged f low))

/-- DEBOUNCE (R134, R135). -/
def execDebounce (pin : Nat) (time : Nat) (s : State) : Host.Outcome State Fault Refusal :=
  withObject 8 pin (fun f => (s.at time).onPart (fun p => p.debounce f))

/-- RECOVERY_TIMER (R135). -/
def execRecoveryTimer (feeder : Nat) (time : Nat) (s : State) : Host.Outcome State Fault Refusal :=
  withObject 8 feeder (fun f => (s.at time).onPart (fun p => p.recovered f))

/-- SETTLE_TIMER (R126). -/
def execSettleTimer (slot : Nat) (time : Nat) (s : State) : Host.Outcome State Fault Refusal :=
  withObject 192 slot (fun x => (s.at time).onPart (fun p => p.settleExpired x))

/-- ROUND_START (R151). -/
def execRoundStart (time : Nat) (s : State) : Host.Outcome State Fault Refusal := ((s.at time).onPart Part.startRound).done

/-- COMMAND_SENT (R152). -/
def execCommandSent (time : Nat) (s : State) : Host.Outcome State Fault Refusal := ((s.at time).onPart Part.commandSent).done

/-- REPLY: a 12-byte frame on the bay link (R152, R154, R181). -/
def execReply (bytes : List Byte) (time : Nat) (s : State) : Host.Outcome State Fault Refusal :=
  if bytes.length = 12 then ((s.at time).onPart (fun p => p.replyReceived bytes)).done else .fault .illFormedCommand

/-- REPLY_GAP: a frame shorter than 12 bytes ends as no valid reply, and the exchange stays open (R181). -/
def execReplyGap (bytes : List Byte) (time : Nat) (s : State) : Host.Outcome State Fault Refusal :=
  if bytes.length < 12 then (s.at time).done else .fault .illFormedCommand

/-- MISS (R152, R154). -/
def execMiss (time : Nat) (s : State) : Host.Outcome State Fault Refusal := ((s.at time).onPart Part.replyMissed).done

/-- PREPARE_LIMIT (R157). -/
def execPrepareLimit (post : Nat) (time : Nat) (s : State) : Host.Outcome State Fault Refusal :=
  withObject 32 post (fun q => (s.at time).onPart (fun p => p.prepareLimit q))

/-- WAKE_LIMIT (R163). -/
def execWakeLimit (post : Nat) (time : Nat) (s : State) : Host.Outcome State Fault Refusal :=
  withObject 32 post (fun q => (s.at time).onPart (fun p => p.wakeLimit q))

end Sys2Proof.Machine
end

