-- ==== Sys2Proof/Machine/Dispatch.lean ====
section
/-! DEFINITION. The meaning of each command, one arm per constructor. -/

namespace Sys2Proof.Machine

def exec (i : Instr) (s : State) : Host.Outcome State Fault Refusal :=
  match i with
  | .powerOn => Sys2Proof.Machine.execPowerOn s
  | .rstN => Sys2Proof.Machine.execRstN s
  | .frameReceived tag kind payload => Sys2Proof.Machine.execFrameReceived tag kind payload s
  | .frameGapTimeout time => Sys2Proof.Machine.execFrameGapTimeout time s
  | .unknownKind => Sys2Proof.Machine.execUnknownKind s
  | .frameSent => Sys2Proof.Machine.execFrameSent s
  | .identify => Sys2Proof.Machine.execIdentify s
  | .status => Sys2Proof.Machine.execStatus s
  | .resetPartBook => Sys2Proof.Machine.execResetPartBook s
  | .resetPartFull => Sys2Proof.Machine.execResetPartFull s
  | .fullReset => Sys2Proof.Machine.execFullReset s
  | .clockSet => Sys2Proof.Machine.execClockSet s
  | .clockGet => Sys2Proof.Machine.execClockGet s
  | .partSet => Sys2Proof.Machine.execPartSet s
  | .partGet => Sys2Proof.Machine.execPartGet s
  | .baySet => Sys2Proof.Machine.execBaySet s
  | .bayRemove => Sys2Proof.Machine.execBayRemove s
  | .bayGet => Sys2Proof.Machine.execBayGet s
  | .bayServiceOut => Sys2Proof.Machine.execBayServiceOut s
  | .bayServiceIn => Sys2Proof.Machine.execBayServiceIn s
  | .feederSet => Sys2Proof.Machine.execFeederSet s
  | .feederGet => Sys2Proof.Machine.execFeederGet s
  | .feederTrim => Sys2Proof.Machine.execFeederTrim s
  | .feederClear => Sys2Proof.Machine.execFeederClear s
  | .postSetInUse => Sys2Proof.Machine.execPostSetInUse s
  | .postSetWithdraw => Sys2Proof.Machine.execPostSetWithdraw s
  | .postGet => Sys2Proof.Machine.execPostGet s
  | .postForceReseek => Sys2Proof.Machine.execPostForceReseek s
  | .postForceIsolate => Sys2Proof.Machine.execPostForceIsolate s
  | .postForceWake => Sys2Proof.Machine.execPostForceWake s
  | .ruleWrite => Sys2Proof.Machine.execRuleWrite s
  | .ruleRead => Sys2Proof.Machine.execRuleRead s
  | .tallyClear => Sys2Proof.Machine.execTallyClear s
  | .laneSet => Sys2Proof.Machine.execLaneSet s
  | .laneGet => Sys2Proof.Machine.execLaneGet s
  | .book => Sys2Proof.Machine.execBook s
  | .findFree => Sys2Proof.Machine.execFindFree s
  | .extend => Sys2Proof.Machine.execExtend s
  | .retract => Sys2Proof.Machine.execRetract s
  | .cancel => Sys2Proof.Machine.execCancel s
  | .resGet => Sys2Proof.Machine.execResGet s
  | .waitListGet => Sys2Proof.Machine.execWaitListGet s
  | .arrive => Sys2Proof.Machine.execArrive s
  | .arriveWalkin => Sys2Proof.Machine.execArriveWalkin s
  | .endSession => Sys2Proof.Machine.execEndSession s
  | .sessionResume => Sys2Proof.Machine.execSessionResume s
  | .tick time => Sys2Proof.Machine.execTick time s
  | .minuteEvent => Sys2Proof.Machine.execMinuteEvent s
  | .sessionTick => Sys2Proof.Machine.execSessionTick s
  | .quotaMet slot => Sys2Proof.Machine.execQuotaMet slot s
  | .satisfied slot => Sys2Proof.Machine.execSatisfied slot s
  | .shareTick => Sys2Proof.Machine.execShareTick s
  | .overdrawPenalty feeder => Sys2Proof.Machine.execOverdrawPenalty feeder s
  | .penaltyEnd bay => Sys2Proof.Machine.execPenaltyEnd bay s
  | .recompute feeder => Sys2Proof.Machine.execRecompute feeder s
  | .leadCheck slot => Sys2Proof.Machine.execLeadCheck slot s
  | .wakeCheck slot => Sys2Proof.Machine.execWakeCheck slot s
  | .windowStart slot => Sys2Proof.Machine.execWindowStart slot s
  | .graceEnd slot => Sys2Proof.Machine.execGraceEnd slot s
  | .windowEnd slot => Sys2Proof.Machine.execWindowEnd slot s
  | .waitingDeadline slot => Sys2Proof.Machine.execWaitingDeadline slot s
  | .verifyExpiry bay => Sys2Proof.Machine.execVerifyExpiry bay s
  | .rollover => Sys2Proof.Machine.execRollover s
  | .tripInputChange pin low time => Sys2Proof.Machine.execTripInputChange pin low time s
  | .debounce pin time => Sys2Proof.Machine.execDebounce pin time s
  | .recoveryTimer feeder time => Sys2Proof.Machine.execRecoveryTimer feeder time s
  | .settleTimer slot time => Sys2Proof.Machine.execSettleTimer slot time s
  | .roundStart time => Sys2Proof.Machine.execRoundStart time s
  | .commandSent time => Sys2Proof.Machine.execCommandSent time s
  | .reply bytes time => Sys2Proof.Machine.execReply bytes time s
  | .replyGap bytes time => Sys2Proof.Machine.execReplyGap bytes time s
  | .miss time => Sys2Proof.Machine.execMiss time s
  | .prepareLimit post time => Sys2Proof.Machine.execPrepareLimit post time s
  | .wakeLimit post time => Sys2Proof.Machine.execWakeLimit post time s
  | .idleTimer post => Sys2Proof.Machine.execIdleTimer post s
  | .receivedByte byte time => Sys2Proof.Machine.execReceivedByte byte time s

end Sys2Proof.Machine
end

