-- ==== Sys2Proof/WellFormed.lean ====
section
/-! DEFINITION. Which commands name an object the part has: slots 0 to 191 (R27), bays 0 to 63 (R1), feeders and trip
pins 0 to 7 (R11, R134), posts 0 to 31 (R15), frames that fit their line (R167, R181). -/

namespace Sys2Proof

/-- Every operand of the command names an object of the part, and every frame has a length its line allows. -/
def Instr.wellFormed : Instr → Bool
  | .frameReceived _ _ payload => payload.length ≤ 238
  | .quotaMet slot | .satisfied slot | .leadCheck slot | .wakeCheck slot | .windowStart slot | .graceEnd slot
  | .windowEnd slot | .waitingDeadline slot | .settleTimer slot _ => slot < 192
  | .penaltyEnd bay | .verifyExpiry bay => bay < 64
  | .overdrawPenalty feeder | .recompute feeder | .recoveryTimer feeder _ => feeder < 8
  | .tripInputChange pin _ _ | .debounce pin _ => pin < 8
  | .prepareLimit post _ | .wakeLimit post _ | .idleTimer post => post < 32
  | .reply bytes _ => bytes.length = 12
  | .replyGap bytes _ => bytes.length < 12
  | .powerOn | .rstN | .frameGapTimeout _ | .unknownKind | .frameSent | .identify | .status | .resetPartBook
  | .resetPartFull | .fullReset | .clockSet | .clockGet | .partSet | .partGet | .baySet | .bayRemove | .bayGet
  | .bayServiceOut | .bayServiceIn | .feederSet | .feederGet | .feederTrim | .feederClear | .postSetInUse
  | .postSetWithdraw | .postGet | .postForceReseek | .postForceIsolate | .postForceWake | .ruleWrite | .ruleRead
  | .tallyClear | .laneSet | .laneGet | .book | .findFree | .extend | .retract | .cancel | .resGet | .waitListGet
  | .arrive | .arriveWalkin | .endSession | .sessionResume | .tick _ | .minuteEvent | .sessionTick | .shareTick
  | .rollover | .roundStart _ | .commandSent _ | .miss _ | .receivedByte _ _ => true

end Sys2Proof
end

