-- ==== Sys2Proof/Safety.lean ====
section
/-! DEFINITION. What going on, being served and being sound mean on this part: the words that statements about the model
are written in. -/

namespace Sys2Proof.Machine

/-! ## Going on -/

/-- The command gives a next state. -/
def Completes (c : Instr) (s : State) : Prop := ∃ t, exec c s = .next t

/-- One step gives a next state. -/
def StepSafe (s : State) : Prop := ∃ t, step s = .next t

/-- Every command that waits is well formed. -/
def State.wellQueued (s : State) : Prop := ∀ c ∈ s.pending, c.wellFormed = true

/-- No event is in progress behind the port: nothing is left to do, as between any two commands (R90). -/
def State.settled (s : State) : Prop := s.part.work = Work.empty

/-! ## Being served (R170, R171) -/

/-- The request `f` stands at the head of the queue with `rest` behind it, its kind is `k`, its TAG is not 0, its payload
is `payload`, and the port serves it: the reply queue has a free place and no RESET-PART FULL has been served. -/
structure State.Asks (s : State) (k : Kind) (payload : List Byte) (f : Frame) (rest : List Frame) : Prop where
  queue : s.port.requests = f :: rest
  kind : f.kind = k.code
  tag : f.tag ≠ 0
  fields : f.payload = payload
  room : s.port.replies.length < 4
  serving : s.port.stopped = false

/-- The transmission of a reply. -/
def Reply.sent (r : Reply) : Transmission := ⟨r.frame, if r.resets then .resetReply else .reply⟩

/-- The port after a request has been served with reply `r`: `rest` stays in the request queue, and the reply joins the
tail of the reply queue, whose head an idle transmitter begins at once. -/
def Port.withReply (x : Port) (rest : List Frame) (r : Reply) : Port :=
  match x.sending, x.replies with
  | some _, l => { x with requests := rest, replies := l ++ [r] }
  | none, [] => { x with requests := rest, sending := some r.sent }
  | none, h :: l => { x with requests := rest, replies := l ++ [r], sending := some h.sent }

/-- The machine after request `f` has been answered with `a`, the blocks behind the port being `p`. -/
def State.replied (s : State) (rest : List Frame) (f : Frame) (a : Answer) (p : Part) : State :=
  { s with part := p, port := s.port.withReply rest ⟨⟨f.tag, replyKind f.kind, a.status.code :: a.fields⟩, false⟩ }

/-- The machine with other blocks behind the same port. -/
def State.withPart (s : State) (p : Part) : State := { s with part := p }

/-- The kind of request that a row serves, for the rows that serve requests. -/
def servedKind : Instr → Option Kind
  | .identify => some .identify
  | .status => some .status
  | .resetPartBook | .resetPartFull => some .resetPart
  | .clockSet => some .clockSet
  | .clockGet => some .clockGet
  | .partSet => some .partSet
  | .partGet => some .partGet
  | .baySet | .bayRemove => some .baySet
  | .bayGet => some .bayGet
  | .bayServiceOut | .bayServiceIn => some .bayService
  | .feederSet => some .feederSet
  | .feederGet => some .feederGet
  | .feederTrim => some .feederTrim
  | .feederClear => some .feederClear
  | .postSetInUse | .postSetWithdraw => some .postSet
  | .postGet => some .postGet
  | .postForceReseek | .postForceIsolate | .postForceWake => some .postForce
  | .ruleWrite => some .ruleWrite
  | .ruleRead => some .ruleRead
  | .tallyClear => some .tallyClear
  | .laneSet => some .laneSet
  | .laneGet => some .laneGet
  | .book => some .book
  | .findFree => some .findFree
  | .extend => some .extend
  | .retract => some .retract
  | .cancel => some .cancel
  | .resGet => some .resGet
  | .waitListGet => some .waitListGet
  | .arrive => some .arrive
  | .arriveWalkin => some .arriveWalkin
  | .endSession => some .endSession
  | .sessionResume => some .sessionResume
  | _ => none

/-- Which payloads a row takes where two or three rows share a kind: a row leaves to the others the payloads whose
variant byte names them, and takes every other (log 27). -/
def rowTakes : Instr → List Byte → Bool
  | .resetPartBook => byteNot 0 [1]
  | .resetPartFull => byteNot 0 [0]
  | .baySet | .bayServiceOut | .postSetInUse => byteNot 1 [0]
  | .bayRemove | .bayServiceIn | .postSetWithdraw => byteNot 1 [1]
  | .postForceReseek => byteNot 1 [1, 2]
  | .postForceIsolate => byteNot 1 [0, 2]
  | .postForceWake => byteNot 1 [0, 1]
  | _ => fun _ => true

/-- The payload length of a request kind whose fields are all fixed (R180 with the fields that the owning rule names). -/
def fixedLength : Kind → Option Nat
  | .identify | .status | .clockGet | .partGet | .waitListGet => some 0
  | .resetPart | .bayGet | .feederGet | .postGet | .ruleRead | .tallyClear | .laneGet => some 1
  | .feederClear | .postSet | .postForce | .retract | .cancel | .resGet | .endSession => some 2
  | .bayService | .feederTrim | .arrive => some 3
  | .extend => some 4
  | .clockSet => some 5
  | .baySet | .feederSet => some 8
  | .findFree => some 11
  | .partSet | .laneSet => some 15
  | .ruleWrite | .book | .arriveWalkin | .sessionResume => none

/-! ## The layouts of requests (R170, R180) -/

/-- A field of a request: so many bytes of any value; a flag byte; an optional field or group of so many bytes after its
presence byte; an optional group that begins with a flag byte, with so many bytes behind the flag. -/
inductive Field where
  | bytes (n : Nat)
  | flag
  | optional (n : Nat)
  | flagged (n : Nat)
  deriving DecidableEq, Repr

/-- What follows a field; nothing where bytes are missing, or a flag or presence byte is neither 0 nor 1. -/
def Field.rest : Field → List Byte → Option (List Byte)
  | .bytes n, l => if n ≤ l.length then some (l.drop n) else none
  | .flag, b :: l => if b = 0 ∨ b = 1 then some l else none
  | .optional n, b :: l => if b = 0 then some l else if b = 1 ∧ n ≤ l.length then some (l.drop n) else none
  | .flagged n, b :: l =>
    if b = 0 then some l
    else if b = 1 ∧ (l.head? = some 0 ∨ l.head? = some 1) ∧ n + 1 ≤ l.length then some (l.drop (n + 1)) else none
  | _, [] => none

/-- The payload is these fields and no byte more. -/
def conforms : List Field → List Byte → Bool
  | [], l => l.isEmpty
  | x :: xs, l =>
    match x.rest l with
    | some l' => conforms xs l'
    | none => false

/-- The fields of each kind of request (R180, with the fields that the owning rule names; 12.4 for BOOK). -/
def Kind.layout : Kind → List Field
  | .identify | .status | .clockGet | .partGet | .waitListGet => []
  | .resetPart | .bayGet | .feederGet | .postGet | .ruleRead | .tallyClear | .laneGet => [.bytes 1]
  | .feederClear | .postForce | .retract | .cancel | .resGet | .endSession => [.bytes 2]
  | .postSet => [.bytes 1, .flag]
  | .feederTrim | .arrive => [.bytes 3]
  | .bayService => [.bytes 2, .flag]
  | .extend => [.bytes 4]
  | .clockSet => [.bytes 5]
  | .baySet => [.bytes 1, .flag, .bytes 6]
  | .feederSet => [.bytes 1, .flag, .bytes 5, .flag]
  | .findFree => [.bytes 4, .flag, .bytes 6]
  | .partSet | .laneSet => [.bytes 15]
  | .ruleWrite => [.bytes 1, .flagged 4, .optional 8, .optional 22, .flagged 2]
  | .book => [.bytes 4, .flag, .bytes 6, .optional 4, .optional 2, .optional 4, .optional 1]
  | .arriveWalkin => [.bytes 7, .optional 4, .optional 2]
  | .sessionResume => [.bytes 2, .optional 4]

/-- A handle of two bytes, generation and slot number, names no live record, or a CLOSING one: the slot number is above
191, the generation is 0, the slot is free, or its generation differs (R32). -/
def Part.NamesNone (p : Part) (generation slot : Byte) : Prop :=
  ∀ (k : SlotId) (r : Record), slot.toNat = k.val → generation.toNat ≠ 0 →
    generation.toNat = (p.pool.slot k).generation → p.record k = some r → r.state = .closing

/-- The record that BOOK or ARRIVE-WALKIN creates from its request and its admission (R34, R69, R110). -/
def createdRecord (p : Part) (x : Asker) (m : Admission) (start stop duration : Nat)
    (state : RecState) (bay : Option BayId) (origin : Origin) : Record where
  state := state
  bay := bay
  windowStart := start
  windowEnd := stop
  duration := duration
  grace := m.grace.getD p.settings.defaultGrace
  graceEnd := min (start + m.grace.getD p.settings.defaultGrace) stop
  lane := x.lane
  vclass := x.vclass
  ctype := x.ctype
  tier := x.tier
  priority := m.priority
  eligible := m.eligible
  preferred := m.preferred
  created := p.now
  origin := origin
  lastCause := match origin with
    | .booked => .book
    | .walkIn => .walkIn
  notice := true
  quota := none
  rateCap := none
  deadline := none
  pinned := none
  extensions := []
  session := none
  close := none
  leadTaken := false
  wakeTaken := false
  endTaken := false

/-- The bytes of the four fields that describe a driver (12.4). -/
def askerBytes (x : Asker) : List Byte := u8 x.lane.val ++ u8 x.vclass.val ++ u8 x.ctype.code ++ u8 x.tier.val

/-- The bytes of a BOOK behind the driver's four fields (12.4). -/
def bookTail (asap : Bool) (start duration : Nat) (quota rateCap deadline pinned : Option Nat) : List Byte :=
  bit asap ++ u32 start ++ u16 duration ++ opt u32 quota ++ opt u16 rateCap ++ opt u32 deadline ++ opt u8 pinned

/-- The bytes of a BOOK that asks for a start, without quota, rate cap and pinned bay, with or without a deadline
(12.4). -/
def bookBytes (x : Asker) (start duration : Nat) (deadline : Option Nat) : List Byte :=
  askerBytes x ++ bookTail false start duration none none deadline none

/-- The groups of a RULE-WRITE as their bytes carry them, in the field order of R53 (R54, R180). -/
def MatchAReq.bytes (x : MatchAReq) : List Byte :=
  bit x.active ++ u8 x.classes ++ u8 x.connectors ++ u8 x.tierMin ++ u8 x.tierMax
def MatchB.bytes (x : MatchB) : List Byte := u16 x.timeStart ++ u16 x.timeEnd ++ u16 x.durMin ++ u16 x.durMax
def ActionReq.bytes (x : ActionReq) : List Byte :=
  u8 x.verdict ++ u8 x.priorityMode ++ u8 x.priority ++ u8 x.mapMode ++ maskBytes 8 x.map ++ u8 x.prefMode ++
  maskBytes 8 x.pref ++ u8 x.grace
def Tally.bytes (x : Tally) : List Byte := bit x.enabled ++ u16 x.limit

/-- The bytes of a RULE-WRITE: the rule number and each group after its presence byte (R54, R180). -/
def ruleWriteBytes (rule : Nat) (a : Option MatchAReq) (b : Option MatchB) (c : Option ActionReq) (t : Option Tally) :
    List Byte :=
  u8 rule ++ opt MatchAReq.bytes a ++ opt MatchB.bytes b ++ opt ActionReq.bytes c ++ opt Tally.bytes t

/-- The fields of the groups fit in their bytes. -/
structure RuleWriteReq.Fits (q : RuleWriteReq) : Prop where
  rule : q.rule < 256
  matchA (x : MatchAReq) : q.matchA = some x →
    x.classes < 256 ∧ x.connectors < 256 ∧ x.tierMin < 256 ∧ x.tierMax < 256
  matchB (x : MatchB) : q.matchB = some x →
    x.timeStart < 65536 ∧ x.timeEnd < 65536 ∧ x.durMin < 65536 ∧ x.durMax < 65536
  action (x : ActionReq) : q.action = some x →
    x.verdict < 256 ∧ x.priorityMode < 256 ∧ x.priority < 256 ∧ x.mapMode < 256 ∧ x.map < 18446744073709551616 ∧
    x.prefMode < 256 ∧ x.pref < 18446744073709551616 ∧ x.grace < 256
  tally (x : Tally) : q.tally = some x → x.limit < 65536

/-- How many chained records on the configured bays of a feeder, the moving one left out, have a window that contains
minute `m` (R77, R81, R104, R105, R110). -/
def Part.carriedAt (p : Part) (f : FeederId) (moving : Option SlotId) (m : Nat) : Nat :=
  (((List.finRange 64).filter (fun j => (p.bay j).configured && (p.bay j).feeder = f)).map (fun j =>
    ((p.chain j).filter (fun k => moving ≠ some k && p.recordIs (fun r =>
      r.windowStart ≤ m && m < r.windowEnd) k)).length)).sum

/-! ## The events of a minute (R19, R21, R24) -/

/-- `q` follows from `p` by so many timed events of one minute, each of them due when it is taken and taken whole, in any
order. -/
inductive Part.TakesDue : Nat → Part → Part → Prop where
  | none (p : Part) : TakesDue 0 p p
  | take (n : Nat) (p : Part) (e : Timed) (choices : Nat) (q : Part) : p.isDue e = true →
      TakesDue n (({ p with choices := choices }).takeTimed e).finish q → TakesDue (n + 1) p q

/-- `q` follows from `p` by every timed event of the present minute, until none is due; the walk ends after 4096 events
at the latest. The idle conditions of the ACTIVE posts are evaluated first (log 18). -/
def Part.TakesMinute (p q : Part) : Prop :=
  ∃ n, Part.TakesDue n ({ p with outstanding := { p.outstanding with minute := false } }.touchActive.finish) q ∧
    (n = 4096 ∨ ∀ e, q.isDue e = false)

/-- `q` follows from `p` by so many minutes, one after another, each with every event due in it (R21). -/
inductive Part.PassesMinutes : Nat → Part → Part → Prop where
  | none (p : Part) : PassesMinutes 0 p p
  | minute (n : Nat) (p q r : Part) :
      Part.TakesMinute { p with clock := { p.clock with minute := p.clock.minute + 1 } } q →
      PassesMinutes n q r → PassesMinutes (n + 1) p r

/-- Feed bytes with their times to a receiver; the frames it completes, in order. -/
def Receiver.feed : Receiver → List (Byte × Nat) → Receiver × List Frame
  | x, [] => (x, [])
  | x, (b, time) :: rest =>
    let y := x.take b time
    let z := Receiver.feed y.1 rest
    (z.1, y.2.toList ++ z.2)

/-! ## The view without notice flags -/

def Bay.quiet (x : Bay) : Bay := { x with notice := false }
def Feeder.quiet (x : Feeder) : Feeder := { x with notice := false }
def Post.quiet (x : Post) : Post := { x with notice := false }
def Rule.quiet (x : Rule) : Rule := { x with notice := false }
def Record.quiet (r : Record) : Record := { r with notice := false }
def Slot.quiet (x : Slot) : Slot := { x with record := x.record.map Record.quiet }

/-- The blocks behind the port with every notice-pending flag clear: what is left when only the transmitter has acted
(R172). -/
def Part.quiet (p : Part) : Part :=
  { p with
    bays := p.bays.map Bay.quiet
    feeders := p.feeders.map Feeder.quiet
    posts := p.posts.map Post.quiet
    rules := p.rules.map Rule.quiet
    pool := { p.pool with slots := p.pool.slots.map Slot.quiet } }

/-! ## The configuration that only requests write -/

/-- The configuration fields and the service state of a bay (R1). -/
def Bay.config (x : Bay) : Bool × PostId × Socket × FeederId × ConnType × Nat × Service :=
  (x.configured, x.post, x.socket, x.feeder, x.ctype, x.rating, x.service)

/-- The fields of a feeder that FEEDER-SET and FEEDER-TRIM write (R11). -/
def Feeder.config (x : Feeder) : Nat × Nat × Nat × Nat × Bool :=
  (x.limit, x.trim, x.voltage, x.concurrency, x.tripEnabled)

/-- The four groups of a rule (R53). -/
def Rule.groups (x : Rule) : MatchA × MatchB × RuleAction × Tally := (x.matchA, x.matchB, x.action, x.tally)

/-- Two parts hold the same configuration: part settings, bays, feeders, posts in use, lanes and rules. -/
structure Part.SameConfig (p q : Part) : Prop where
  settings : q.settings = p.settings
  lanes : q.lanes = p.lanes
  bay (b : BayId) : (q.bay b).config = (p.bay b).config
  feeder (f : FeederId) : (q.feeder f).config = (p.feeder f).config
  post (a : PostId) : (q.post a).inUse = (p.post a).inUse
  rule (r : RuleId) : (q.rule r).groups = (p.rule r).groups

/-! ## Invariants -/

/-- Every slot stands once in the collection that its record gives it, and in no other (R27). -/
def Pool.partitioned (q : Pool) : Prop :=
  ∀ (s : SlotId) (h : Home), (q.members h).count s = if q.homeOf s = h then 1 else 0

/-- Every generation is 1 to 255 (R31). -/
def Pool.generationsSound (q : Pool) : Prop := ∀ s : SlotId, 1 ≤ (q.slot s).generation ∧ (q.slot s).generation ≤ 255

/-- At most three extensions, a window of at most 720 minutes, a duration of at most 720 minutes (R28, R29). -/
def Record.windowSound (r : Record) : Prop :=
  r.extensions.length ≤ 3 ∧ r.windowEnd ≤ r.windowStart + 720 ∧ r.duration ≤ 720

/-- A chained record names its bay, and a record of the Waiting List names none (R27). -/
def Record.bayed (r : Record) : Prop :=
  (r.state.chained = true → r.bay.isSome = true) ∧ (r.state = .waiting → r.bay = none)

/-- The residue is below one Wh (R128). -/
def Record.residueSound (r : Record) : Prop := ∀ x, r.session = some x → x.residue < 36000

/-- Along every chain the window starts strictly increase, and each end plus the guard is no later than every later start
(R35); the window of a chained record is not empty, and a waiting record asks for a minute at least (R29, R88). -/
structure Pool.chainsOrdered (q : Pool) (guard : Nat) : Prop where
  chain (b : BayId) : (q.chains.get b).Pairwise (fun i j => ∀ x y, q.record i = some x → q.record j = some y →
    x.windowStart < y.windowStart ∧ x.windowEnd + guard ≤ y.windowStart)
  window (s : SlotId) (r : Record) : q.record s = some r → r.state.chained = true → r.windowStart < r.windowEnd
  duration (s : SlotId) (r : Record) : q.record s = some r → r.state = .waiting → 1 ≤ r.duration

/-- No record behind the head of a chain is ENGAGED: a chain holds at most one, and it stands first (R35). -/
def Pool.engagedFirst (q : Pool) : Prop :=
  ∀ (b : BayId) (s : SlotId) (r : Record), s ∈ (q.chains.get b).tail → q.record s = some r → r.state ≠ .engaged

/-- A record that is HELD, ARRIVING or ENGAGED has started (R39, R103). -/
def Record.started (now : Nat) (r : Record) : Prop :=
  r.state = .held ∨ r.state = .arriving ∨ r.state = .engaged → r.windowStart ≤ now

/-- The window end of a record before engagement lies ahead (R40). -/
def Record.ahead (now : Nat) (r : Record) : Prop := r.state.upcoming = true → now < r.windowEnd

/-- A record has a minute left between its window start and its window end without its newest extension (R84). -/
def Record.retractable (r : Record) : Prop := ∀ x l, r.extensions = x :: l → r.windowStart + x < r.windowEnd

/-- The window of a record that may arrive ends at most 720 minutes after now, so that ARRIVE moves its start to now
(R103). -/
def Record.arrivesNow (now early : Nat) (r : Record) : Prop :=
  r.state.upcoming = true → r.windowStart ≤ now + early → r.windowEnd ≤ now + 720

/-- The Waiting List stands in the order of R85: priority class descending, then created minute ascending, then slot
ascending. -/
def Pool.listOrdered (q : Pool) : Prop :=
  q.waiting.Pairwise (fun i j => ∀ x y, q.record i = some x → q.record j = some y →
    y.priority < x.priority ∨
      (x.priority = y.priority ∧ (x.created < y.created ∨ (x.created = y.created ∧ i < j))))

/-- A quota is 1 to 200 000 Wh, the energy within never exceeds it, a session that has met a quota has one, and a nonzero
excess has been seen as OVERRUN (R29, R129). -/
def Record.energySound (r : Record) : Prop :=
  (∀ n, r.quota = some n → 1 ≤ n ∧ n ≤ 200000) ∧
  ∀ x, r.session = some x →
    (∀ n, r.quota = some n → x.within ≤ n) ∧
    (x.phase = .quotaMet ∨ x.stoppedIn = some .quotaMet → r.quota.isSome) ∧
    (x.excess ≠ 0 → x.seen.overrun = true)

/-- A pause cause only in PAUSED, a stopped-in phase only in HALTED, a settle state only in SETTLING (R116). -/
def Record.phaseSound (r : Record) : Prop :=
  ∀ x, r.session = some x →
    (x.pause ≠ .none → x.phase = .paused) ∧ (x.stoppedIn ≠ none → x.phase = .halted) ∧
    (x.settle ≠ none → x.phase = .settling)

/-- The window of a chained record is not empty (R29). -/
def Record.windowed (r : Record) : Prop := r.state.chained = true → r.windowStart < r.windowEnd

/-- A rate cap is 60 to 800, an amount on the extension stack a multiple of 5 from 5 to 715, the priority class 1 to 4
(R28, R29). -/
def Record.optionsSound (r : Record) : Prop :=
  (∀ n, r.rateCap = some n → 60 ≤ n ∧ n ≤ 800) ∧ (∀ n ∈ r.extensions, n % 5 = 0 ∧ 5 ≤ n ∧ n ≤ 715) ∧
  1 ≤ r.priority ∧ r.priority ≤ 4

/-- Every live record of the part has a property. -/
def Part.allRecords (p : Part) (good : Record → Prop) : Prop := ∀ s r, p.record s = some r → good r

/-- The exchange counters of a post in the ranges of R15. -/
def Post.countersSound (x : Post) : Prop := x.seq ≤ 15 ∧ x.misses ≤ 3 ∧ x.valid ≤ 2

/-- The last fault code and the slow-wake count of a post in the ranges of R15; a count of 3 stands only in ISOLATED, and
the wake limit runs only in WAKING (R163). -/
def Post.wakesSound (x : Post) : Prop :=
  x.fault ≤ 15 ∧ x.slowWakes ≤ 3 ∧ (x.slowWakes = 3 → x.link = .isolated) ∧
  (∀ expiry, x.timer = .wake expiry → x.link = .waking)

/-- The numbers of a feeder in the ranges of R11. -/
def Feeder.numbersSound (x : Feeder) : Prop :=
  x.limit ≤ 20000 ∧ x.trim ≤ 20000 ∧ 100 ≤ x.voltage ∧ x.voltage ≤ 500 ∧ 1 ≤ x.concurrency ∧ x.concurrency ≤ 64 ∧
  x.rotor ≤ 63 ∧ x.overdrawCount ≤ 3

/-- The numbers of a bay in the ranges of R1; the assigned limit stands in `Bay.limitSound`. -/
def Bay.numbersSound (x : Bay) : Prop :=
  60 ≤ x.rating ∧ x.rating ≤ 800 ∧ x.reading ≤ 800 ∧ x.cap ≤ 800 ∧ (x.cap = 0 ∨ 60 ≤ x.cap) ∧ x.penalty ≤ 60

/-- The assigned limit of a bay is 0 or 60 to 800 (R1). -/
def Bay.limitSound (x : Bay) : Prop := x.limit = 0 ∨ (60 ≤ x.limit ∧ x.limit ≤ 800)

/-- The fields of a lane in the ranges of R50. -/
def Lane.numbersSound (x : Lane) : Prop := 1 ≤ x.priority ∧ x.priority ≤ 4

/-- The fields of a rule in the ranges of R53, the counter left aside. -/
structure Rule.numbersSound (x : Rule) : Prop where
  tier : x.matchA.tierMin ≤ x.matchA.tierMax ∧ x.matchA.tierMax ≤ 15
  time : x.matchB.timeStart ≤ 1439 ∧ x.matchB.timeEnd ≤ 1439
  duration : 15 ≤ x.matchB.durMin ∧ x.matchB.durMin ≤ x.matchB.durMax ∧ x.matchB.durMax ≤ 720
  priority : 1 ≤ x.action.priority ∧ x.action.priority ≤ 4
  grace : x.action.grace = 0 ∨ (5 ≤ x.action.grace ∧ x.action.grace ≤ 60)
  tally : 1 ≤ x.tally.limit ∧ x.tally.limit ≤ 65535

/-- The policy table's lanes and rules are in their ranges (R50, R53). -/
structure Part.policySound (p : Part) : Prop where
  lane (l : LaneId) : (p.lane l).numbersSound
  rule (r : RuleId) : (p.rule r).numbersSound

/-- The clock's counts in the ranges of R18. -/
def Clock.numbersSound (x : Clock) : Prop := x.second ≤ 59 ∧ x.minute ≤ 4294967295

/-- The tables' numbers are in their ranges (R1, R11, R15, R18, R174). -/
structure Part.numbersSound (p : Part) : Prop where
  bay (b : BayId) : (p.bay b).numbersSound
  feeder (f : FeederId) : (p.feeder f).numbersSound
  post (a : PostId) : (p.post a).countersSound
  settings : p.settings.inRange = true
  clock : p.clock.numbersSound
  round : p.link.roundCount ≤ 9

/-- No tally counter exceeds its limit (R61). -/
def Part.talliesSound (p : Part) : Prop := ∀ r : RuleId, (p.rule r).counter ≤ (p.rule r).tally.limit

/-- At most four requests and four replies wait, a LEN that the receiver keeps is 2 to 240, fewer bytes than a whole
frame are kept, and none while HUNTING (R168 to R170). -/
def Port.queuesSound (x : Port) : Prop :=
  x.requests.length ≤ 4 ∧ x.replies.length ≤ 4 ∧
  (∀ len rest, x.receiver.bytes = len :: rest → 2 ≤ len.toNat ∧ len.toNat ≤ 240 ∧ rest.length < len.toNat + 2) ∧
  (x.receiver.inFrame = false → x.receiver.bytes = [])

/-- A CLOSE-NOTICE in transmission is that of a CLOSING record, whose slot its end frees (R43, R49). -/
def State.noticeSound (s : State) : Prop :=
  ∀ x k, s.port.sending = some x → x.what = .closeNotice (some k) → ∃ r, s.part.record k = some r ∧ r.state = .closing

/-- Every stored condition is the one that R7 gives (R8). -/
def Part.conditionsCurrent (p : Part) : Prop := ∀ b : BayId, (p.bay b).condition = p.conditionOf b

/-- What ties the tables of a machine together between two commands: every slot stands in its collection (R27), every
chained record names its bay, every stored condition is current (R8), and a CLOSE-NOTICE in transmission is that of a
CLOSING record (R43). -/
structure State.Coherent (s : State) : Prop where
  parts : s.part.pool.partitioned
  bayed : s.part.allRecords Record.bayed
  current : s.part.conditionsCurrent
  notice : s.noticeSound

/-- The chains stand in order in a coherent machine (R35). -/
structure State.Chained (s : State) : Prop where
  coherent : s.Coherent
  chains : s.part.pool.chainsOrdered s.part.settings.guard

/-- In a machine whose chains stand in order, the records that are HELD, ARRIVING or ENGAGED have started, and an ENGAGED
record heads its chain (R35, R39). -/
structure State.Headed (s : State) : Prop where
  chained : s.Chained
  started : s.part.allRecords (Record.started s.part.now)
  first : s.part.pool.engagedFirst

end Sys2Proof.Machine
end

