-- ==== Sys2Proof/Certificates/Slice0/Obligations.lean ====
section
/-! DEFINITION. The statements about the model, from the numbered rules of spec/. -/

open Sys2Proof Sys2Proof.Machine

/-! ## The machine -/

/-- One step takes the command at the front of the queue and runs it on the queue's rest. -/
def Obligations.StepRunsTheFrontCommand : Prop :=
  ∀ (c : Instr) (s : State), step { s with pending := c :: s.pending } = exec c s

/-- Every well-formed command gives a next state in every state; an ill-formed one stops by name (log 22). With no
command waiting the block idles (log 9), and no command changes the commands behind it. -/
def Obligations.ExactlyWellFormedCommandsComplete : Prop :=
  (∀ (c : Instr) (s : State),
    (c.wellFormed = true → Completes c s) ∧ (c.wellFormed = false → exec c s = .fault .illFormedCommand)) ∧
  ((∀ s : State, s.pending = [] → step s = .next s) ∧
  ∀ (c : Instr) (s t : State), exec c s = .next t → t.pending = s.pending)

/-! ## Resets -/

/-- The machine right after reset (R1, R11, R15, R18, R48, R50, R53, R151, R168 to R171, R174). The values of the
free-order counter, the time base and the levels on the pins are the model's (log 4, 31). -/
def Obligations.ValuesAfterReset : Prop :=
  (∀ b : BayId, State.reset.part.bay b =
    { configured := false, post := 0, socket := .a, feeder := 0, ctype := .ct0, rating := 60, service := .inService
      condition := .out, limit := 0, reading := 0, occupancy := .unknown, plug := .unknown, cap := 0, verify := .idle
      penalty := 0, notice := false }) ∧
  (∀ f : FeederId, State.reset.part.feeder f =
    { state := .unused, limit := 0, trim := 0, voltage := 230, concurrency := 1, tripEnabled := false, active := false
      recovery := none, sticky := ⟨false, false, false, false⟩, condition := false, rotor := 0, overdrawCount := 0
      notice := false, recomputeDue := false }) ∧
  (∀ q : PostId, State.reset.part.post q =
    { inUse := false, link := .absent, cause := .none, fault := 0, seq := 0, misses := 0, valid := 0, slowWakes := 0
      timer := .stopped, notice := false }) ∧
  State.reset.part.clock = ⟨false, 0, 0, none⟩ ∧
  State.reset.part.settings = ⟨10, 10, 5, 20, 15, 30, 10, 1, 2, 3, 4, 30, 0⟩ ∧
  (∀ l : LaneId, State.reset.part.lane l =
    { rules := 0, verdict := .accept, priority := 2, eligible := BitVec.allOnes 64 }) ∧
  (∀ r : RuleId, State.reset.part.rule r =
    { matchA := ⟨false, BitVec.allOnes 8, BitVec.allOnes 4, 0, 15⟩, matchB := ⟨0, 0, 15, 720⟩
      action := ⟨.continue_, .keep, 1, .keep, 0, .keep, 0, 0⟩, tally := ⟨false, 65535⟩, counter := 0
      notice := false }) ∧
  (∀ k : SlotId, State.reset.part.pool.slot k = ⟨1, none⟩) ∧
  State.reset.part.pool.free = List.finRange 192 ∧ (∀ b : BayId, State.reset.part.chain b = []) ∧
  State.reset.part.pool.waiting = [] ∧ State.reset.part.pool.closing = [] ∧
  State.reset.part.link = ⟨0, 0, true, none, none⟩ ∧
  State.reset.port = ⟨⟨false, [], 0⟩, [], [], none, ⟨0, 0, 0, 0, 0⟩, false⟩ ∧
  State.reset.pending = []

/-- POWER_ON and RST_N give every table, the clock and the port their values after reset (R48, R179); a pin held low at
the end of the reset starts its difference then (R134). The time base and the free-order counter go on (log 21). -/
def Obligations.PowerOnAndRstnResetThePart : Prop :=
  ∀ s : State, ∃ t, exec .powerOn s = .next t ∧ exec .rstN s = .next t ∧
    t.part.bays = State.reset.part.bays ∧ t.part.feeders = State.reset.part.feeders ∧
    t.part.posts = State.reset.part.posts ∧ t.part.pool = State.reset.part.pool ∧
    t.part.lanes = State.reset.part.lanes ∧ t.part.rules = State.reset.part.rules ∧
    t.part.clock = State.reset.part.clock ∧ t.part.settings = State.reset.part.settings ∧
    t.part.link = ⟨0, s.part.time, true, none, none⟩ ∧ t.port = State.reset.port ∧
    t.part.outstanding = ⟨false, false, false⟩ ∧ t.settled ∧
    (∀ f : FeederId, t.part.trip f =
      ⟨(s.part.trip f).low, if (s.part.trip f).low then some s.part.time else none⟩) ∧
    t.part.time = s.part.time ∧ t.part.choices = s.part.choices

/-- RESET-PART with level FULL: its reply OK joins the reply queue with no change to any other state, and the port
serves no further request (R179). When the last byte of the RESET-PART FULL reply has been sent, the reset is taken, as
at power-on (R179): by FULL_RESET, and by the FRAME_SENT of that frame. Without such a frame FULL_RESET changes nothing
(log 8). -/
def Obligations.FullResetFollowsTheAnswerToResetPart : Prop :=
  (∀ (s : State) (f : Frame) (rest : List Frame), s.settled → s.Asks .resetPart [1] f rest →
    exec .resetPartFull s = .next { s with
      port := { s.port.withReply rest ⟨⟨f.tag, 0x83, [0x00]⟩, true⟩ with stopped := true } }) ∧
  (∀ s : State,
    (∀ fr, s.port.sending = some ⟨fr, .resetReply⟩ →
      exec .fullReset s = exec .powerOn s ∧ exec .frameSent s = exec .powerOn s) ∧
    ((∀ fr, s.port.sending ≠ some ⟨fr, .resetReply⟩) → exec .fullReset s = .next s))

/-- RESET-PART with level BOOK: every record is freed, the pool rebuilt, limits, penalties, feeder flags and tallies
cleared, the notice flags of bays and feeders set; clock, settings, lanes, configuration and the posts' link states
and counters stay (R178, R49, R1, R11, R65). RESET-PART with a level other than these two is refused RANGE by either
row, and nothing changes (R177). -/
def Obligations.ResetPartBookFreesEveryRecord : Prop :=
  (∀ (c : Instr) (s : State) (f : Frame) (rest : List Frame) (level : Byte), c = .resetPartBook ∨ c = .resetPartFull →
    s.settled → s.Asks .resetPart [level] f rest → 1 < level.toNat →
    exec c s = .next (s.replied rest f ⟨.range, []⟩ s.part)) ∧
  ∀ (s : State) (f : Frame) (rest : List Frame), s.settled → s.Asks .resetPart [0] f rest →
    ∃ t, exec .resetPartBook s = .next t ∧
      t.part.pool.free = List.finRange 192 ∧ (∀ b : BayId, t.part.chain b = []) ∧
      t.part.pool.waiting = [] ∧ t.part.pool.closing = [] ∧
      (∀ k : SlotId, t.part.pool.slot k = ⟨match s.part.record k with
        | none => (s.part.pool.slot k).generation
        | some _ => if (s.part.pool.slot k).generation ≥ 255 then 1 else (s.part.pool.slot k).generation + 1, none⟩) ∧
      (∀ b : BayId, (t.part.bay b).limit = 0 ∧ (t.part.bay b).penalty = 0 ∧ (t.part.bay b).notice = true ∧
        (t.part.bay b).verify = (if s.part.occupancyOf b = .occupied
          then .running (s.part.now + s.part.settings.verifyWindow) else .idle) ∧
        (t.part.bay b).condition = t.part.conditionOf b ∧ (t.part.bay b).reading = (s.part.bay b).reading) ∧
      (∀ q : FeederId, (t.part.feeder q).sticky = ⟨false, false, false, false⟩ ∧ (t.part.feeder q).condition = false ∧
        (t.part.feeder q).rotor = 0 ∧ (t.part.feeder q).overdrawCount = 0 ∧ (t.part.feeder q).notice = true ∧
        (t.part.feeder q).state = (s.part.feeder q).state ∧
        (t.part.feeder q).recovery = (s.part.feeder q).recovery) ∧
      (∀ r : RuleId, t.part.rule r = { s.part.rule r with counter := 0, notice := false }) ∧
      s.part.SameConfig t.part ∧ t.part.clock = s.part.clock ∧ t.part.link = s.part.link ∧
      (∀ q : PostId, { t.part.post q with timer := .stopped } = { s.part.post q with timer := .stopped }) ∧
      t.port.replies.length + t.port.sending.toList.length =
        s.port.replies.length + s.port.sending.toList.length + 1 ∧
      t.port.requests = rest ∧ t.port.next = s.port.next

/-! ## The Management Port -/

/-- A complete frame joins the request queue; with four requests waiting it is answered BUSY; with four replies waiting
as well it is dropped (R169). -/
def Obligations.FrameReceivedIsQueuedAnsweredBusyOrDropped : Prop :=
  ∀ (s : State) (tag kind : Byte) (payload : List Byte), payload.length ≤ 238 →
    exec (.frameReceived tag kind payload) s = .next (State.complete { s with
      port :=
        if s.port.requests.length < 4 then { s.port with requests := s.port.requests ++ [⟨tag, kind, payload⟩] }
        else if s.port.replies.length < 4 then
          { s.port with replies := s.port.replies ++
            [⟨⟨tag, if kind = 0x00 ∨ 0x80 ≤ kind then 0x80 else kind + 0x80, [0x10]⟩, false⟩] }
        else s.port })

/-- The receiver after a byte, by its receive state (R168); a complete frame with a correct CRC-16 is handed to the
request queue. A gap of more than 10 ms drops the frame in reception, and a shorter one leaves the receiver as it is
(R168). -/
def Obligations.ReceiverFollowsItsReceiveState : Prop :=
  (∀ (s : State) (b : Byte) (time : Nat),
    let now := max s.part.time time
    let x := s.port.receiver
    let bytes := x.bytes ++ [b]
    let alive := x.inFrame = true ∧ now ≤ x.lastByte + 10000
    let after (r : Receiver) : State :=
      ({ s with part := { s.part with time := now }, port := { s.port with receiver := r } } : State)
    (¬ alive → b = 0xC3 → exec (.receivedByte b time) s = .next (after ⟨true, [], now⟩).complete) ∧
    (¬ alive → b ≠ 0xC3 → exec (.receivedByte b time) s = .next (after ⟨false, [], now⟩).complete) ∧
    (alive → x.bytes = [] → (b.toNat < 2 ∨ 240 < b.toNat) →
      exec (.receivedByte b time) s = .next (after ⟨false, [], now⟩).complete) ∧
    (alive → x.bytes = [] → 2 ≤ b.toNat → b.toNat ≤ 240 →
      exec (.receivedByte b time) s = .next (after ⟨true, [b], now⟩).complete) ∧
    (∀ len rest, alive → x.bytes = len :: rest → bytes.length < len.toNat + 3 →
      exec (.receivedByte b time) s = .next (after ⟨true, bytes, now⟩).complete) ∧
    (∀ f : Frame, alive → f.line = 0xC3 :: bytes → f.payload.length ≤ 238 →
      exec (.receivedByte b time) s = .next (State.complete { after ⟨false, [], now⟩ with
        port := (after ⟨false, [], now⟩).port.acceptFrame f })) ∧
    (∀ len rest, alive → x.bytes = len :: rest → 2 ≤ len.toNat → len.toNat + 3 ≤ bytes.length →
      (∀ f : Frame, f.line ≠ 0xC3 :: bytes) →
      exec (.receivedByte b time) s = .next (after ⟨false, [], now⟩).complete)) ∧
  (∀ (s : State) (time : Nat),
    exec (.frameGapTimeout time) s = .next (State.complete { s with
      part := { s.part with time := max s.part.time time }
      port := { s.port with
        receiver := if s.port.receiver.inFrame = true ∧ s.port.receiver.lastByte + 10000 < max s.part.time time
          then ⟨false, [], s.port.receiver.lastByte⟩ else s.port.receiver } }))

/-- The receiver reads back every frame that can be sent: from HUNTING, the bytes of a frame of any TAG, KIND and payload
of up to 238 bytes, no two more than 10 ms apart, give that frame and leave the receiver HUNTING (R167, R168). -/
def Obligations.ReceiverReadsBackEveryFrame : Prop :=
  ∀ (f : Frame) (x : Receiver) (start : Nat) (times : List Nat), f.payload.length ≤ 238 → x.inFrame = false →
    times.length = f.line.length - 1 → List.IsChain (fun a b => a ≤ b ∧ b ≤ a + 10000) (start :: times) →
    (x.feed (f.line.zip (start :: times))).2 = [f] ∧ (x.feed (f.line.zip (start :: times))).1.inFrame = false

/-- A request whose KIND is not a request kind is answered UNKNOWN-KIND, whatever its TAG, and changes nothing else
(R170). A request with TAG 0 is answered MALFORMED and changes nothing else (R170). A request longer or shorter than
the length its fixed fields give is answered MALFORMED, and nothing changes (R170, R180). The same holds of a request
whose payload does not conform to the layout of its kind: a flag byte or a presence byte other than 0 and 1, and more
or fewer bytes than the presence bytes ask for (R170, R180). While the reply queue holds four replies, or once
RESET-PART FULL has been served, no request is served: a request row only completes its event (R170, R179). -/
def Obligations.ServingChecksKindTagAndLength : Prop :=
  (∀ (s : State) (f : Frame) (rest : List Frame), s.settled → s.port.requests = f :: rest →
    s.port.replies.length < 4 → s.port.stopped = false → (∀ k : Kind, f.kind ≠ k.code) →
    exec .unknownKind s = .next (s.replied rest f ⟨.unknownKind, []⟩ s.part)) ∧
  (∀ (c : Instr) (k : Kind) (s : State) (f : Frame) (rest : List Frame), servedKind c = some k → s.settled →
    s.port.requests = f :: rest → f.kind = k.code → rowTakes c f.payload = true → f.tag = 0 →
    s.port.replies.length < 4 → s.port.stopped = false →
    exec c s = .next (s.replied rest f ⟨.malformed, []⟩ s.part)) ∧
  (∀ (c : Instr) (k : Kind) (n : Nat) (s : State) (f : Frame) (rest : List Frame), servedKind c = some k → s.settled →
    s.Asks k f.payload f rest → rowTakes c f.payload = true → fixedLength k = some n → f.payload.length ≠ n →
    exec c s = .next (s.replied rest f ⟨.malformed, []⟩ s.part)) ∧
  (∀ (c : Instr) (k : Kind) (s : State) (f : Frame) (rest : List Frame), servedKind c = some k → s.settled →
    s.Asks k f.payload f rest → rowTakes c f.payload = true → conforms k.layout f.payload = false →
    exec c s = .next (s.replied rest f ⟨.malformed, []⟩ s.part)) ∧
  (∀ (c : Instr) (k : Kind) (s : State), servedKind c = some k ∨ c = .unknownKind →
    (4 ≤ s.port.replies.length ∨ s.port.stopped = true ∨ s.port.requests = []) → exec c s = .next s.complete)

/-- What the end of an event does when nothing is left to do: a frame in transmission is left alone; an idle
transmitter begins the reply at the head of its queue, else the CLOSE-NOTICE of the closing list's head, else one
notice; and apart from one cleared notice flag nothing behind the port changes (R171, R172). The last byte of the frame
in transmission: a reply or a notice leaves the transmitter idle, and it chooses the next frame; a CLOSE-NOTICE frees
its record's slot, whose generation advances and which heads the free list (R171, R43). -/
def Obligations.FrameSentTakesTheNextSource : Prop :=
  (∀ s : State, s.settled →
    (∀ x, s.port.sending = some x → s.complete = s) ∧
    (∀ r l, s.port.sending = none → s.port.replies = r :: l →
      s.complete = { s with port := { s.port with replies := l, sending := some r.sent } }) ∧
    (∀ k l, s.port.sending = none → s.port.replies = [] → s.part.pool.closing = k :: l →
      s.complete = { s with port := { s.port with
        sending := some ⟨⟨0, 0xE2, s.part.closePayload k⟩, .closeNotice (some k)⟩ } }) ∧
    s.complete.part.quiet = s.part.quiet ∧ s.complete.port.requests = s.port.requests ∧
    s.complete.port.receiver = s.port.receiver ∧ s.complete.pending = s.pending) ∧
  (∀ s : State,
    (∀ fr w, s.port.sending = some ⟨fr, w⟩ → w = .reply ∨ w = .notice ∨ w = .closeNotice none →
      exec .frameSent s = .next (State.complete { s with port := { s.port with sending := none } })) ∧
    (s.port.sending = none → exec .frameSent s = .next s.complete) ∧
    (∀ fr k r, s.settled → s.port.sending = some ⟨fr, .closeNotice (some k)⟩ → s.part.record k = some r →
      r.state = .closing →
      ∃ t, exec .frameSent s = .next t ∧
        t.part.pool.slot k = ⟨if (s.part.pool.slot k).generation ≥ 255 then 1
          else (s.part.pool.slot k).generation + 1, none⟩ ∧
        t.part.pool.free = k :: s.part.pool.free ∧
        t.part.pool.closing = s.part.pool.closing.filter (fun j => j ≠ k) ∧
        t.part.pool.waiting = s.part.pool.waiting ∧ t.part.pool.chains = s.part.pool.chains))

/-- With no reply and no closed record waiting, an idle transmitter begins the notice of the first kind in the order of
R171 that has a flag set, of the first object in cyclic order from the kind's next-index; it clears that flag and moves
the next-index past the object (R171, R172). -/
def Obligations.NoticesFollowTheSourceOrder : Prop :=
  ∀ s : State, s.settled → s.port.sending = none → s.port.replies = [] → s.part.pool.closing = [] →
    let recs : SlotId → Prop := fun k => ∃ r, s.part.record k = some r ∧ r.notice = true
    let posts : PostId → Prop := fun q => (s.part.post q).notice = true
    let feeders : FeederId → Prop := fun f => (s.part.feeder f).notice = true
    let bays : BayId → Prop := fun b => (s.part.bay b).notice = true
    let rules : RuleId → Prop := fun r => (s.part.rule r).notice = true
    let t := s.complete
    (∀ k r, s.part.record k = some r → r.notice = true → s.port.next.record < 192 →
      (∀ j, recs j → (k.val + 192 - s.port.next.record) % 192 ≤ (j.val + 192 - s.port.next.record) % 192) →
      t.port.sending = some ⟨⟨0, 0xE1, s.part.recordSnapshot k r⟩, .notice⟩ ∧
      t.part.record k = some { r with notice := false } ∧ t.port.next.record = (k.val + 1) % 192) ∧
    (∀ q : PostId, (∀ j, ¬ recs j) → posts q → s.port.next.post < 32 →
      (∀ j, posts j → (q.val + 32 - s.port.next.post) % 32 ≤ (j.val + 32 - s.port.next.post) % 32) →
      t.port.sending = some ⟨⟨0, 0xE4, s.part.postSnapshot q⟩, .notice⟩ ∧
      t.part.post q = { s.part.post q with notice := false } ∧ t.port.next.post = (q.val + 1) % 32) ∧
    (∀ f : FeederId, (∀ j, ¬ recs j) → (∀ j, ¬ posts j) → feeders f → s.port.next.feeder < 8 →
      (∀ j, feeders j → (f.val + 8 - s.port.next.feeder) % 8 ≤ (j.val + 8 - s.port.next.feeder) % 8) →
      t.port.sending = some ⟨⟨0, 0xE3, s.part.feederSnapshot f⟩, .notice⟩ ∧
      t.part.feeder f = { s.part.feeder f with notice := false } ∧ t.port.next.feeder = (f.val + 1) % 8) ∧
    (∀ b : BayId, (∀ j, ¬ recs j) → (∀ j, ¬ posts j) → (∀ j, ¬ feeders j) → bays b → s.port.next.bay < 64 →
      (∀ j, bays j → (b.val + 64 - s.port.next.bay) % 64 ≤ (j.val + 64 - s.port.next.bay) % 64) →
      t.port.sending = some ⟨⟨0, 0xE0, s.part.baySnapshot b⟩, .notice⟩ ∧
      t.part.bay b = { s.part.bay b with notice := false } ∧ t.port.next.bay = (b.val + 1) % 64) ∧
    (∀ r : RuleId, (∀ j, ¬ recs j) → (∀ j, ¬ posts j) → (∀ j, ¬ feeders j) → (∀ j, ¬ bays j) → rules r →
      s.port.next.rule < 32 →
      (∀ j, rules j → (r.val + 32 - s.port.next.rule) % 32 ≤ (j.val + 32 - s.port.next.rule) % 32) →
      t.port.sending = some ⟨⟨0, 0xE5, (s.part.rule r).noticeBytes r⟩, .notice⟩ ∧
      t.part.rule r = { s.part.rule r with notice := false } ∧ t.port.next.rule = (r.val + 1) % 32) ∧
    ((∀ j, ¬ recs j) → (∀ j, ¬ posts j) → (∀ j, ¬ feeders j) → (∀ j, ¬ bays j) → (∀ j, ¬ rules j) → t = s)

/-! ## Requests that read -/

/-- IDENTIFY answers the part code BR64, revision 1 and the capacities, and changes nothing (R173). STATUS answers the
clock, the four pool counts, the state of each feeder, the link state of each post, the requests behind it and the
replies in the queue, and changes nothing (R173). CLOCK-GET answers the clock state, the counts, the minute-of-day,
the rollover minute and the last rollover day, and changes nothing (R26). The byte order of the fields of IDENTIFY is
the model's reading of R180 (log 17). -/
def Obligations.PartReportsAnswerAndChangeNothing : Prop :=
  (∀ (s : State) (f : Frame) (rest : List Frame), s.settled → s.Asks .identify [] f rest →
    exec .identify s = .next (s.replied rest f
      ⟨.ok, [0x42, 0x52, 0x36, 0x34, 1, 64, 8, 32, 192, 32, 32, 8, 3, 240]⟩ s.part)) ∧
  (∀ (s : State) (f : Frame) (rest : List Frame), s.settled → s.Asks .status [] f rest →
    exec .status s = .next (s.replied rest f
      ⟨.ok, bit s.part.clock.set ++ u32 s.part.now ++ u8 s.part.clock.second ++ u8 s.part.pool.free.length ++
        u8 ((List.finRange 64).map (fun b => (s.part.chain b).length)).sum ++ u8 s.part.pool.waiting.length ++
        u8 s.part.pool.closing.length ++
        (List.finRange 8).flatMap (fun x => u8 (s.part.feeder x).state.code) ++
        (List.finRange 32).flatMap (fun x => u8 (s.part.post x).link.code) ++
        u8 rest.length ++ u8 s.port.replies.length⟩ s.part)) ∧
  (∀ (s : State) (f : Frame) (rest : List Frame), s.settled → s.Asks .clockGet [] f rest →
    exec .clockGet s = .next (s.replied rest f
      ⟨.ok, bit s.part.clock.set ++ u32 (if s.part.clock.set then s.part.clock.minute else 0) ++
        u8 s.part.clock.second ++ u16 ((if s.part.clock.set then s.part.clock.minute else 0) % 1440) ++
        u16 s.part.settings.rolloverMinute ++ opt i32 s.part.clock.lastDay⟩ s.part))

/-- PART-GET answers the thirteen settings in the order of R174 and changes nothing (R176). LANE-GET answers the four
fields of the entry, or RANGE above 7, and changes nothing (R52). RULE-READ answers every field of the four groups, the
counter and the notice flag, or RANGE above 31, and changes nothing (R56). WAIT-LIST-GET answers the number of waiting
records and their handles in list order, and changes nothing (R95). That RULE-READ sends its fields in the order of R53
with the counter and the flag after them, and that LANE-GET and RULE-READ do not repeat the number asked for, is the
model's reading of R180 (log 17). -/
def Obligations.TableReadsAnswerAndChangeNothing : Prop :=
  (∀ (s : State) (f : Frame) (rest : List Frame), s.settled → s.Asks .partGet [] f rest →
    let x := s.part.settings
    exec .partGet s = .next (s.replied rest f
      ⟨.ok, u8 x.guard ++ u8 x.lead ++ u8 x.verifyWindow ++ u8 x.defaultGrace ++ u8 x.earlyAllowance ++
        u8 x.standbyLead ++ u8 x.idleTime ++ u8 x.w1 ++ u8 x.w2 ++ u8 x.w3 ++ u8 x.w4 ++ u16 x.recoveryDelay ++
        u16 x.rolloverMinute⟩ s.part)) ∧
  (∀ (s : State) (f : Frame) (rest : List Frame) (n : Byte), s.settled → s.Asks .laneGet [n] f rest →
    exec .laneGet s = .next (s.replied rest f
      (if h : n.toNat < 8 then
        let x := s.part.lane ⟨n.toNat, h⟩
        ⟨.ok, maskBytes 4 x.rules.toNat ++ u8 x.verdict.code ++ u8 x.priority ++ maskBytes 8 x.eligible.toNat⟩
      else ⟨.range, []⟩) s.part)) ∧
  (∀ (s : State) (f : Frame) (rest : List Frame) (n : Byte), s.settled → s.Asks .ruleRead [n] f rest →
    exec .ruleRead s = .next (s.replied rest f
      (if h : n.toNat < 32 then
        let x := s.part.rule ⟨n.toNat, h⟩
        ⟨.ok, bit x.matchA.active ++ u8 x.matchA.classes.toNat ++ u8 x.matchA.connectors.toNat ++ u8 x.matchA.tierMin ++
          u8 x.matchA.tierMax ++ u16 x.matchB.timeStart ++ u16 x.matchB.timeEnd ++ u16 x.matchB.durMin ++
          u16 x.matchB.durMax ++ u8 x.action.verdict.code ++ u8 x.action.priorityMode.code ++ u8 x.action.priority ++
          u8 x.action.mapMode.code ++ maskBytes 8 x.action.map.toNat ++ u8 x.action.prefMode.code ++
          maskBytes 8 x.action.pref.toNat ++ u8 x.action.grace ++ bit x.tally.enabled ++ u16 x.tally.limit ++
          u16 x.counter ++ bit x.notice⟩
      else ⟨.range, []⟩) s.part)) ∧
  (∀ (s : State) (f : Frame) (rest : List Frame), s.settled → s.Asks .waitListGet [] f rest →
    exec .waitListGet s = .next (s.replied rest f
      ⟨.ok, u8 s.part.pool.waiting.length ++
        s.part.pool.waiting.flatMap (fun k => u16 ((s.part.pool.slot k).generation * 256 + k.val))⟩ s.part))

/-- BAY-GET answers the bay snapshot of 12.7, or RANGE above 63, and changes nothing (R4). FEEDER-GET answers the
configuration part and the status part, or RANGE above 7, and changes nothing (R14, R149). POST-GET answers the post
snapshot, or RANGE above 31, and changes nothing (R17). RES-GET answers the snapshot of the live record that the handle
names, in any state, and UNKNOWN-RESERVATION where the slot number is above 191, the generation is 0, the slot is free
or its generation differs; it changes nothing (R46, R32). The reservation snapshot and the close summary, byte by byte
(12.6, 12.5, R42): in the snapshot the position in the Waiting List counts from 1 and is 0 outside it, and the extension
stack is sent oldest entry first. -/
def Obligations.SnapshotsAnswerAndChangeNothing : Prop :=
  (∀ (s : State) (f : Frame) (rest : List Frame) (n : Byte), s.settled → s.Asks .bayGet [n] f rest →
    exec .bayGet s = .next (s.replied rest f
      (if h : n.toNat < 64 then
        let b : BayId := ⟨n.toNat, h⟩
        let x := s.part.bay b
        let due : Option Nat := match x.verify with
          | .running m => some m
          | .idle | .expired => none
        ⟨.ok, u8 b.val ++ bit x.configured ++ u8 x.post.val ++ u8 x.socket.code ++ u8 x.feeder.val ++ u8 x.ctype.code ++
          u16 x.rating ++ u8 x.service.code ++ u8 x.condition.code ++ u8 x.condition.indicator.code ++ u16 x.limit ++
          u8 x.penalty ++ u16 x.reading ++
          u8 (if (s.part.post x.post).serviceable then x.occupancy.code else 2) ++
          u8 (if (s.part.post x.post).serviceable then x.plug.code else 2) ++ u16 x.cap ++ u8 x.verify.code ++
          opt u32 due ++ u8 (s.part.chain b).length ++
          counted (fun k => u16 ((s.part.pool.slot k).generation * 256 + k.val)) ((s.part.chain b).take 8) ++
          opt (fun k : SlotId => u16 ((s.part.pool.slot k).generation * 256 + k.val)) (s.part.occupant b)⟩
      else ⟨.range, []⟩) s.part)) ∧
  (∀ (s : State) (f : Frame) (rest : List Frame) (n : Byte), s.settled → s.Asks .feederGet [n] f rest →
    exec .feederGet s = .next (s.replied rest f
      (if h : n.toNat < 8 then
        let g : FeederId := ⟨n.toNat, h⟩
        let x := s.part.feeder g
        let bays := (List.finRange 64).filter (fun b => (s.part.bay b).configured && (s.part.bay b).feeder = g)
        ⟨.ok, u8 g.val ++ u16 x.limit ++ u16 x.trim ++ u16 x.voltage ++ u8 x.concurrency ++ bit x.tripEnabled ++
          bit x.active ++ u8 bays.length ++ maskBytes 8 (bays.map (fun b => 2 ^ b.val)).sum ++ u8 x.state.code ++
          u16 (if x.state = .normal then x.limit - x.trim else 0) ++ u8 x.sticky.code ++ bit x.condition ++
          u16 (bays.map (fun b => (s.part.bay b).limit)).sum ++ u16 (bays.map (fun b => (s.part.bay b).reading)).sum⟩
      else ⟨.range, []⟩) s.part)) ∧
  (∀ (s : State) (f : Frame) (rest : List Frame) (n : Byte), s.settled → s.Asks .postGet [n] f rest →
    exec .postGet s = .next (s.replied rest f
      (if h : n.toNat < 32 then
        let q : PostId := ⟨n.toNat, h⟩
        let x := s.part.post q
        ⟨.ok, u8 q.val ++ bit x.inUse ++ u8 x.link.code ++
          bit (x.inUse && (x.link = .active || x.link = .standby || x.link = .waking)) ++ u8 x.cause.code ++
          u8 x.fault ++ u8 x.seq ++ u8 x.misses ++ u8 x.valid ++ u8 x.slowWakes ++
          opt (fun b : BayId => u8 b.val) (s.part.boundBay q .a) ++
          opt (fun b : BayId => u8 b.val) (s.part.boundBay q .b)⟩
      else ⟨.range, []⟩) s.part)) ∧
  (∀ (s : State) (f : Frame) (rest : List Frame) (a b : Byte), s.settled → s.Asks .resGet [a, b] f rest →
    (∀ (k : SlotId) (r : Record), b.toNat = k.val → 1 ≤ a.toNat → a.toNat = (s.part.pool.slot k).generation →
      s.part.record k = some r →
      exec .resGet s = .next (s.replied rest f ⟨.ok, s.part.recordSnapshot k r⟩ s.part)) ∧
    ((∀ k : SlotId, b.toNat ≠ k.val ∨ a.toNat = 0 ∨ a.toNat ≠ (s.part.pool.slot k).generation ∨
        s.part.record k = none) →
      exec .resGet s = .next (s.replied rest f ⟨.unknownReservation, []⟩ s.part))) ∧
  (∀ (p : Part) (k : SlotId) (r : Record),
    let bay (b : Option BayId) : List Byte := opt (fun b : BayId => u8 b.val) b
    let session (x : Session) : List Byte :=
      u8 x.phase.code ++ u8 x.pause.code ++
        u8 (match x.stoppedIn with
          | some y => y.code
          | none => 0) ++
        u8 (match x.settle with
          | some z => z.cause.code
          | none => 0) ++
        u32 x.engaged ++ u32 x.within ++ u32 x.excess ++ u16 x.satisfied ++ u8 x.seen.code ++ opt u32 x.overstayStart
    let close (c : CloseSummary) : List Byte :=
      u16 c.handle ++ bay c.bay ++ u8 c.result.code ++ u8 c.closedBy.code ++ u32 c.windowStart ++ u32 c.windowEnd ++
        u8 c.extensions ++ opt u32 c.engaged ++ u32 c.closed ++ u32 c.within ++ u32 c.excess ++ u8 c.seen.code ++
        u32 c.overstay
    (∀ c : CloseSummary, c.bytes = close c) ∧
    p.recordSnapshot k r =
      u16 ((p.pool.slot k).generation * 256 + k.val) ++ u8 r.state.code ++ bay r.bay ++ u8 r.lastCause.code ++
        u32 r.windowStart ++ u32 r.windowEnd ++ u16 r.duration ++ u8 r.grace ++ u32 r.graceEnd ++ u8 r.lane.val ++
        u8 r.vclass.val ++ u8 r.ctype.code ++ u8 r.tier.val ++ u8 r.priority ++ maskBytes 8 r.eligible.toNat ++
        maskBytes 8 r.preferred.toNat ++ u32 r.created ++ u8 r.origin.code ++ opt u32 r.quota ++ opt u16 r.rateCap ++
        opt u32 r.deadline ++ bay r.pinned ++ u8 r.extensions.length ++ r.extensions.reverse.flatMap u16 ++
        u8 (p.pool.position k) ++ opt session r.session ++ opt close r.close ∧
    (k ∉ p.pool.waiting → p.pool.position k = 0) ∧
    (∀ l m, p.pool.waiting = l ++ k :: m → k ∉ l → p.pool.position k = l.length + 1))

/-- FIND-FREE takes its refusals in the order of R79; accepted, it answers the mask of the bays that pass, the window,
the granted duration and the priority class; it changes nothing (R79, R66 to R68). That the refusals by policy carry
their rule as the reply to BOOK does is the model's reading (log 17). -/
def Obligations.FindFreeAnswersTheFreeBays : Prop :=
  ∀ (s : State) (f : Frame) (rest : List Frame) (lane vc ct tier asap s3 s2 s1 s0 d1 d0 : Byte), s.settled →
    s.Asks .findFree [lane, vc, ct, tier, asap, s3, s2, s1, s0, d1, d0] f rest → asap = 0 ∨ asap = 1 →
    let asked := s3.toNat * 16777216 + s2.toNat * 65536 + s1.toNat * 256 + s0.toNat
    let granted := min (max ((d1.toNat * 256 + d0.toNat + 4) / 5 * 5) 15) 720
    let start := if asap = 1 then s.part.now else asked
    let refuse (a : Answer) : Prop := exec .findFree s = .next (s.replied rest f a s.part)
    (7 < lane.toNat ∨ 7 < vc.toNat ∨ 3 < ct.toNat ∨ 15 < tier.toNat → refuse ⟨.range, []⟩) ∧
    ∀ (x : Asker), lane.toNat = x.lane.val → vc.toNat = x.vclass.val → ct.toNat = x.ctype.code →
      tier.toNat = x.tier.val →
      (s.part.clock.set = false → refuse ⟨.noClock, []⟩) ∧
      (s.part.clock.set = true → (start < s.part.now ∨ s.part.now + 10080 < start) → refuse ⟨.windowRange, []⟩) ∧
      (s.part.clock.set = true → s.part.now ≤ start → start ≤ s.part.now + 10080 →
        (∀ r, s.part.evaluate ⟨x, start, granted⟩ = .policyQuota r → refuse ⟨.policyQuota, [1, BitVec.ofNat 8 r.val]⟩) ∧
        (∀ r, s.part.evaluate ⟨x, start, granted⟩ = .policyRefused (some r) →
          refuse ⟨.policyRefused, [1, BitVec.ofNat 8 r.val]⟩) ∧
        (s.part.evaluate ⟨x, start, granted⟩ = .policyRefused none → refuse ⟨.policyRefused, [0]⟩) ∧
        (∀ m, s.part.evaluate ⟨x, start, granted⟩ = .accepted m →
          refuse ⟨.ok, maskBytes 8 (((List.finRange 64).filter (s.part.passes
              ⟨start, start + granted, x.ctype, m.eligible, 0, none, none, none⟩)).map (fun b => 2 ^ b.val)).sum ++
            u32 start ++ u32 (start + granted) ++ u16 granted ++ u8 m.priority⟩))

/-! ## Requests that write settings and tables -/

/-- CLOCK-SET: its range and step refusals; from UNSET the counts, the clock state and the last rollover day; with the
clock SET a step back or of 0 takes no event and moves the counts, and a step forward passes minute by minute, each with
every event due in it, to the new counts (R20 to R22). That a step back drops the events still outstanding of the minute
it leaves, that a step of 0 keeps them and that a step forward takes them first is the model's choice (log 5); that an
ACTIVE post starts its idle timer on leaving UNSET is R161. -/
def Obligations.ClockSetMovesTheClock : Prop :=
  ∀ (s : State) (f : Frame) (rest : List Frame) (m3 m2 m1 m0 sec : Byte), s.settled →
    s.Asks .clockSet [m3, m2, m1, m0, sec] f rest →
    let m := m3.toNat * 16777216 + m2.toNat * 65536 + m1.toNat * 256 + m0.toNat
    let now := s.part.clock.minute
    (4000000000 < m ∨ 59 < sec.toNat →
      exec .clockSet s = .next (s.replied rest f ⟨.range, []⟩ s.part)) ∧
    (m ≤ 4000000000 → sec.toNat ≤ 59 → s.part.clock.set = true → (now + 10 < m ∨ m + 10 < now) →
      exec .clockSet s = .next (s.replied rest f ⟨.clockStep, []⟩ s.part)) ∧
    (m ≤ 4000000000 → sec.toNat ≤ 59 → s.part.clock.set = false →
      ∃ p, exec .clockSet s = .next (s.replied rest f ⟨.ok, []⟩ p) ∧
        p.clock = ⟨true, m, sec.toNat, some (((m : Int) - s.part.settings.rolloverMinute) / 1440)⟩ ∧
        (∀ b : BayId, (p.bay b).verify = match (s.part.bay b).verify with
          | .running _ => .running (m + s.part.settings.verifyWindow)
          | v => v) ∧
        (∀ q : PostId, (s.part.post q).link = .active → (∀ due, (s.part.post q).timer ≠ .idle due) →
          (p.post q).timer = (if p.idleHolds q = true then .idle (m + s.part.settings.idleTime)
            else (s.part.post q).timer)) ∧
        p.pool = s.part.pool ∧ p.feeders = s.part.feeders ∧ p.rules = s.part.rules ∧ p.lanes = s.part.lanes ∧
        p.settings = s.part.settings) ∧
    (m ≤ 4000000000 → sec.toNat ≤ 59 → s.part.clock.set = true → m ≤ now → now ≤ m + 10 →
      exec .clockSet s = .next (s.replied rest f ⟨.ok, []⟩ { s.part with
        clock := { s.part.clock with minute := m, second := sec.toNat }
        outstanding := if m < now then { s.part.outstanding with minute := false } else s.part.outstanding })) ∧
    (m ≤ 4000000000 → sec.toNat ≤ 59 → s.part.clock.set = true → now < m → m ≤ now + 10 →
      ∃ p0 q p, (s.part.outstanding.minute = true → s.part.TakesMinute p0) ∧
        (s.part.outstanding.minute = false → p0 = s.part) ∧ Part.PassesMinutes (m - now) p0 q ∧
        p = { q with clock := { q.clock with second := sec.toNat } } ∧
        exec .clockSet s = .next (s.replied rest f ⟨.ok, []⟩ p) ∧ p.clock.set = true ∧ p.clock.minute = m ∧
        p.clock.second = sec.toNat ∧ s.part.SameConfig p)

/-- PART-SET: a value out of its range refuses RANGE, a changed guard while a chain holds a record refuses CONFLICT,
and a refusal stores nothing; a taken request stores all thirteen values, and one that changes none of the lead, the
standby lead, the idle time, the weights and the rollover minute has no other effect (R174, R175, R47). A changed
rollover minute sets the last rollover day anew (R25). A changed lead gives every record before engagement a new lead
check: one now due moves its record off a blocked bay, or closes it, and any other record keeps its bay (R112); the
checks that move a record, in an order that is free (log 4), are followed by one retry of the Waiting List, before the
reply is queued (R175, R90). A changed standby lead gives every wake check a new due minute, and one now due wakes a
post in STANDBY (R164); with it, and with a changed idle time, the idle condition of every ACTIVE post is evaluated
anew (R161). Changed weights have every feeder recomputed (R144). -/
def Obligations.PartSetStoresAllOrNothing : Prop :=
  ∀ (s : State) (f : Frame) (rest : List Frame) (x : Settings), s.settled → s.Asks .partSet x.bytes f rest →
    x.guard < 256 → x.lead < 256 → x.verifyWindow < 256 → x.defaultGrace < 256 → x.earlyAllowance < 256 →
    x.standbyLead < 256 → x.idleTime < 256 → x.w1 < 256 → x.w2 < 256 → x.w3 < 256 → x.w4 < 256 →
    x.recoveryDelay < 65536 → x.rolloverMinute < 65536 →
    let inRange : Prop := x.guard ≤ 30 ∧ x.lead ≤ 60 ∧ 1 ≤ x.verifyWindow ∧ x.verifyWindow ≤ 15 ∧
      5 ≤ x.defaultGrace ∧ x.defaultGrace ≤ 60 ∧ x.earlyAllowance ≤ 60 ∧ 5 ≤ x.standbyLead ∧ x.standbyLead ≤ 120 ∧
      x.idleTime ≤ 120 ∧ 1 ≤ x.w1 ∧ x.w1 ≤ 15 ∧ 1 ≤ x.w2 ∧ x.w2 ≤ 15 ∧ 1 ≤ x.w3 ∧ x.w3 ≤ 15 ∧ 1 ≤ x.w4 ∧ x.w4 ≤ 15 ∧
      5 ≤ x.recoveryDelay ∧ x.recoveryDelay ≤ 600 ∧ x.rolloverMinute ≤ 1439
    let conflict : Prop := x.guard ≠ s.part.settings.guard ∧ ∃ b : BayId, s.part.chain b ≠ []
    (¬ inRange → exec .partSet s = .next (s.replied rest f ⟨.range, []⟩ s.part)) ∧
    (inRange → conflict → exec .partSet s = .next (s.replied rest f ⟨.conflict, []⟩ s.part)) ∧
    (inRange → ¬ conflict → ∃ p, exec .partSet s = .next (s.replied rest f ⟨.ok, []⟩ p) ∧ p.settings = x ∧
      p.clock = (if x.rolloverMinute = s.part.settings.rolloverMinute then s.part.clock else
        { s.part.clock with lastDay := some (((s.part.now : Int) - x.rolloverMinute) / 1440) }) ∧
      (x.lead ≠ s.part.settings.lead → s.part.pool.partitioned → s.part.conditionsCurrent → ∀ k r b,
        s.part.record k = some r → r.state.upcoming = true → r.bay = some b →
        let due : Prop := s.part.clock.set = true ∧ r.windowStart ≤ s.part.now + x.lead
        let c := (s.part.bay b).condition
        let blocked : Prop := c = .out ∨ c = .dark ∨ c = .intruded ∨ c = .overstay
        (due → blocked → ∃ r', p.record k = some r' ∧ (r'.state = .closing ∨ r'.bay ≠ some b)) ∧
        (¬ (due ∧ blocked) → ∃ r', p.record k = some r' ∧ (r'.leadTaken = true ↔ due) ∧
          { r' with leadTaken := r.leadTaken, wakeTaken := r.wakeTaken } = r)) ∧
      (x.lead ≠ s.part.settings.lead →
        let reached (r : Record) : Bool := s.part.clock.set && decide (r.windowStart ≤ s.part.now + x.lead)
        ∃ (order : List SlotId) (q : Part), p = q.finish ∧ q.settings = x ∧ q.work.blocked = [] ∧
          q.work.leads = order ∧ q.work.retry = true ∧ q.pool.waiting = s.part.pool.waiting ∧ order.Nodup ∧
          (∀ k, k ∈ order ↔ ∃ r b, s.part.record k = some r ∧ r.state.upcoming = true ∧ r.bay = some b ∧
            reached r = true ∧ (s.part.bay b).condition.blocking = true) ∧
          (x.standbyLead = s.part.settings.standbyLead → x.idleTime = s.part.settings.idleTime →
            x.w1 = s.part.settings.w1 → x.w2 = s.part.settings.w2 → x.w3 = s.part.settings.w3 →
            x.w4 = s.part.settings.w4 → x.rolloverMinute = s.part.settings.rolloverMinute →
            { q with settings := s.part.settings, pool := s.part.pool, choices := s.part.choices
                     work := s.part.work } = s.part ∧
            q.work = { Work.empty with leads := order, retry := true } ∧
            ∀ k, q.record k = (s.part.record k).map (fun r =>
              if r.state.upcoming = true then { r with leadTaken := reached r } else r))) ∧
      (x.lead = s.part.settings.lead →
        let near (r : Record) : Prop :=
          s.part.clock.set = true ∧ r.windowStart ≤ s.part.now + x.standbyLead
        let holds (q : PostId) : Bool := Part.idleHolds { s.part with settings := x } q
        (∀ k r, s.part.record k = some r → r.state.upcoming = true → ∃ r', p.record k = some r' ∧
          { r' with wakeTaken := r.wakeTaken } = r ∧
          (x.standbyLead ≠ s.part.settings.standbyLead → (r'.wakeTaken = true ↔ near r)) ∧
          (x.standbyLead = s.part.settings.standbyLead → r' = r)) ∧
        (∀ q : PostId, (s.part.post q).link = .standby →
          let woken : Prop := x.standbyLead ≠ s.part.settings.standbyLead ∧ ∃ k r b, s.part.record k = some r ∧
            r.state.upcoming = true ∧ r.bay = some b ∧ (s.part.bay b).post = q ∧ near r
          (woken → p.post q = { s.part.post q with
            link := .waking, timer := .wake (s.part.time + 3000000), notice := true }) ∧
          (¬ woken → p.post q = s.part.post q)) ∧
        (∀ q : PostId, (s.part.post q).link = .active →
          (x.standbyLead ≠ s.part.settings.standbyLead ∨ x.idleTime ≠ s.part.settings.idleTime) →
          (∀ due, (s.part.post q).timer = .idle due → p.post q =
            (if holds q = true then s.part.post q else { s.part.post q with timer := .stopped })) ∧
          ((∀ due, (s.part.post q).timer ≠ .idle due) → p.post q =
            (if holds q = true ∧ s.part.clock.set = true
              then { s.part.post q with timer := .idle (s.part.now + x.idleTime) } else s.part.post q))))) ∧
    (inRange → ¬ conflict → x.lead = s.part.settings.lead → x.standbyLead = s.part.settings.standbyLead →
      x.idleTime = s.part.settings.idleTime → x.rolloverMinute = s.part.settings.rolloverMinute →
      (x.w1 ≠ s.part.settings.w1 ∨ x.w2 ≠ s.part.settings.w2 ∨ x.w3 ≠ s.part.settings.w3 ∨
        x.w4 ≠ s.part.settings.w4) →
      exec .partSet s = .next (s.replied rest f ⟨.ok, []⟩
        ((List.finRange 8).foldl Part.recompute { s.part with settings := x }).finish)) ∧
    (inRange → ¬ conflict → x.lead = s.part.settings.lead → x.standbyLead = s.part.settings.standbyLead →
      x.idleTime = s.part.settings.idleTime → x.w1 = s.part.settings.w1 → x.w2 = s.part.settings.w2 →
      x.w3 = s.part.settings.w3 → x.w4 = s.part.settings.w4 → x.rolloverMinute = s.part.settings.rolloverMinute →
      exec .partSet s = .next (s.replied rest f ⟨.ok, []⟩ { s.part with settings := x }))

/-- The thirteen settings that PART-SET carries are read back from the bytes that PART-GET sends, whatever they are
(R174, R176, R180). -/
def Obligations.SettingsSurviveTheirEncoding : Prop :=
  ∀ x : Settings, x.guard < 256 → x.lead < 256 → x.verifyWindow < 256 → x.defaultGrace < 256 →
    x.earlyAllowance < 256 → x.standbyLead < 256 → x.idleTime < 256 → x.w1 < 256 → x.w2 < 256 → x.w3 < 256 →
    x.w4 < 256 → x.recoveryDelay < 65536 → x.rolloverMinute < 65536 → Rd.partSet.all x.bytes = some x

/-- LANE-SET stores the four fields and changes nothing else, or refuses RANGE and changes nothing (R51). RULE-WRITE
with group TALLY alone: a limit of 0 refuses RANGE, a limit below the counter refuses CONFLICT; a taken request stores
the group, keeps the other groups and the counter, and sets the rule's flag when the rule comes to stand at its limit
(R54, R55, R62). RULE-WRITE with any of its four groups: a rule number above 31, a tier, time, duration, verdict, mode,
priority, grace override or tally limit out of its range refuses RANGE, a tally limit below the counter refuses
CONFLICT, and a taken request stores every field of each group that it carries (R54, R55); a connector set with an upper
bit is refused or taken (log 15). RULE-WRITE that carries no group changes nothing (R54). TALLY-CLEAR: the counter of
the rule, or with 255 of every rule, becomes 0, a rule that stood at its limit with its tally enabled is flagged, and
nothing else changes; 32 to 254 are refused RANGE (R63, R62, R180). -/
def Obligations.PolicyWritesStoreWhatTheyCarry : Prop :=
  (∀ (s : State) (f : Frame) (rest : List Frame) (lane verdict priority : Byte) (rules : RuleSet) (mask : BayMask),
    s.settled →
    s.Asks .laneSet ([lane] ++ maskBytes 4 rules.toNat ++ [verdict, priority] ++ maskBytes 8 mask.toNat) f rest →
    (7 < lane.toNat ∨ (verdict ≠ 1 ∧ verdict ≠ 2) ∨ priority.toNat < 1 ∨ 4 < priority.toNat →
      exec .laneSet s = .next (s.replied rest f ⟨.range, []⟩ s.part)) ∧
    (∀ h : lane.toNat < 8, (verdict = 1 ∨ verdict = 2) → 1 ≤ priority.toNat → priority.toNat ≤ 4 →
      exec .laneSet s = .next (s.replied rest f ⟨.ok, []⟩ { s.part with
        lanes := s.part.lanes.set lane.toNat
          ⟨rules, if verdict = 1 then .accept else .refuse, priority.toNat, mask⟩ h }))) ∧
  (∀ (s : State) (f : Frame) (rest : List Frame) (n enable l1 l0 : Byte), s.settled →
    s.Asks .ruleWrite [n, 0, 0, 0, 1, enable, l1, l0] f rest → enable = 0 ∨ enable = 1 →
    let limit := l1.toNat * 256 + l0.toNat
    (31 < n.toNat ∨ limit = 0 → exec .ruleWrite s = .next (s.replied rest f ⟨.range, []⟩ s.part)) ∧
    ∀ r : RuleId, n.toNat = r.val → 1 ≤ limit →
      let x := s.part.rule r
      (limit < x.counter → exec .ruleWrite s = .next (s.replied rest f ⟨.conflict, []⟩ s.part)) ∧
      (x.counter ≤ limit → exec .ruleWrite s = .next (s.replied rest f ⟨.ok, []⟩ (s.part.setRule r
        { x with
          tally := ⟨decide (enable = 1), limit⟩
          notice := x.notice || (decide (enable = 1 ∧ x.counter = limit) &&
            !decide (x.tally.enabled = true ∧ x.counter = x.tally.limit)) })))) ∧
  (∀ (s : State) (f : Frame) (rest : List Frame) (q : RuleWriteReq), s.settled → q.Fits →
    s.Asks .ruleWrite (ruleWriteBytes q.rule q.matchA q.matchB q.action q.tally) f rest →
    let refused (e : Status) : Prop := exec .ruleWrite s = .next (s.replied rest f ⟨e, []⟩ s.part)
    let bad : Prop := 31 < q.rule ∨
      (∃ y, q.matchA = some y ∧ (15 < y.tierMin ∨ 15 < y.tierMax ∨ y.tierMax < y.tierMin)) ∨
      (∃ y, q.matchB = some y ∧ (1439 < y.timeStart ∨ 1439 < y.timeEnd ∨ y.durMin < 15 ∨ 720 < y.durMin ∨
        y.durMax < 15 ∨ 720 < y.durMax ∨ y.durMax < y.durMin)) ∨
      (∃ y, q.action = some y ∧ (2 < y.verdict ∨ 3 < y.priorityMode ∨ y.priority < 1 ∨ 4 < y.priority ∨
        4 < y.mapMode ∨ 2 < y.prefMode ∨ (y.grace ≠ 0 ∧ (y.grace < 5 ∨ 60 < y.grace)))) ∨
      (∃ y, q.tally = some y ∧ y.limit = 0)
    (bad → refused .range) ∧
    (¬ bad → ∀ r : RuleId, q.rule = r.val →
      let x := s.part.rule r
      let taken : Prop :=
        ((∃ y, q.tally = some y ∧ y.limit < x.counter) → refused .conflict) ∧
        ((∀ y, q.tally = some y → x.counter ≤ y.limit) → ∃ z,
          exec .ruleWrite s = .next (s.replied rest f ⟨.ok, []⟩ (s.part.setRule r z)) ∧
          (q.matchA = none → z.matchA = x.matchA) ∧
          (∀ y, q.matchA = some y → z.matchA =
            ⟨y.active, BitVec.ofNat 8 y.classes, BitVec.ofNat 4 y.connectors, y.tierMin, y.tierMax⟩) ∧
          (q.matchB = none → z.matchB = x.matchB) ∧ (∀ y, q.matchB = some y → z.matchB = y) ∧
          (q.action = none → z.action = x.action) ∧
          (∀ y, q.action = some y → z.action.verdict.code = y.verdict ∧ z.action.priorityMode.code = y.priorityMode ∧
            z.action.priority = y.priority ∧ z.action.mapMode.code = y.mapMode ∧
            z.action.map = BitVec.ofNat 64 y.map ∧ z.action.prefMode.code = y.prefMode ∧
            z.action.pref = BitVec.ofNat 64 y.pref ∧ z.action.grace = y.grace) ∧
          (q.tally = none → z.tally = x.tally) ∧ (∀ y, q.tally = some y → z.tally = y) ∧ z.counter = x.counter ∧
          z.notice = (x.notice || decide ((z.tally.enabled = true ∧ z.counter = z.tally.limit) ∧
            ¬ (x.tally.enabled = true ∧ x.counter = x.tally.limit))))
      ((∀ y, q.matchA = some y → y.connectors < 16) → taken) ∧ (taken ∨ refused .range))) ∧
  (∀ (s : State) (f : Frame) (rest : List Frame) (n : Byte), s.settled → s.Asks .ruleWrite [n, 0, 0, 0, 0] f rest →
    exec .ruleWrite s = .next (s.replied rest f (if n.toNat ≤ 31 then ⟨.ok, []⟩ else ⟨.range, []⟩) s.part)) ∧
  (∀ (s : State) (f : Frame) (rest : List Frame) (n : Byte), s.settled → s.Asks .tallyClear [n] f rest →
    (31 < n.toNat → n ≠ 255 → exec .tallyClear s = .next (s.replied rest f ⟨.range, []⟩ s.part)) ∧
    (n.toNat ≤ 31 ∨ n = 255 → ∃ p, exec .tallyClear s = .next (s.replied rest f ⟨.ok, []⟩ p) ∧
      { p with rules := s.part.rules } = s.part ∧
      ∀ r : RuleId, p.rule r =
        let x := s.part.rule r
        if (n = 255 ∨ n.toNat = r.val) ∧ x.counter ≠ 0 then
          { x with counter := 0
                   notice := x.notice || (x.tally.enabled && decide (x.counter = x.tally.limit)) }
        else x))

/-! ## Bays, feeders and posts -/

/-- BAY-SET with the configure flag set: out of range RANGE; a taken socket, an UNUSED feeder, a changed feeder or
connector type with records chained, or a changed binding with an ENGAGED record refuse CONFLICT; an unconfigured bay
takes the configuration with fresh live fields and derives its condition (R2, R3); a bay that repeats its
configuration changes nothing. BAY-SET with the configure flag clear: out of range RANGE as well; a bay with a record
on its chain refuses CONFLICT, an unconfigured bay changes nothing, a configured one is removed (R2, R3). That the
idle conditions of the posts concerned are evaluated within the request (log 36), and that a changed feeder leaves the
bay's assigned limit (log 37), is the model's choice. -/
def Obligations.BaySetConfiguresAndRemovesTheBay : Prop :=
  (∀ (s : State) (f : Frame) (rest : List Frame) (nb np ns nf nc r1 r0 : Byte), s.settled →
    s.Asks .baySet [nb, 1, np, ns, nf, nc, r1, r0] f rest →
    let rating := r1.toNat * 256 + r0.toNat
    (63 < nb.toNat ∨ 31 < np.toNat ∨ 1 < ns.toNat ∨ 7 < nf.toNat ∨ 3 < nc.toNat ∨ rating < 60 ∨ 800 < rating →
      exec .baySet s = .next (s.replied rest f ⟨.range, []⟩ s.part)) ∧
    ∀ (b : BayId) (q : PostId) (k : Socket) (g : FeederId) (c : ConnType), nb.toNat = b.val → np.toNat = q.val →
      ns.toNat = k.code → nf.toNat = g.val → nc.toNat = c.code → 60 ≤ rating → rating ≤ 800 →
      let x := s.part.bay b
      let conflict : Prop :=
        (∃ j : BayId, j ≠ b ∧ (s.part.bay j).configured = true ∧ (s.part.bay j).post = q ∧ (s.part.bay j).socket = k) ∨
        (s.part.feeder g).state = .unused ∨
        (x.configured = true ∧ (x.feeder ≠ g ∨ x.ctype ≠ c) ∧ s.part.chain b ≠ []) ∨
        (x.configured = true ∧ (x.post ≠ q ∨ x.socket ≠ k) ∧ s.part.occupant b ≠ none)
      (conflict → exec .baySet s = .next (s.replied rest f ⟨.conflict, []⟩ s.part)) ∧
      (¬ conflict → x.configured = false →
        exec .baySet s = .next (s.replied rest f ⟨.ok, []⟩
          (((s.part.setBay b { x with
              configured := true, post := q, socket := k, feeder := g, ctype := c, rating := rating
              service := .inService, reading := 0, occupancy := .unknown, plug := .unknown, cap := 0
              verify := .idle, notice := true }).derive b).touchPost q).finish)) ∧
      (¬ conflict → x.configured = true → x.post = q → x.socket = k → x.feeder = g → x.ctype = c → x.rating = rating →
        exec .baySet s = .next (s.replied rest f ⟨.ok, []⟩ s.part)) ∧
      (¬ conflict → x.configured = true → x.post = q → x.socket = k → x.rating = rating →
        (x.feeder ≠ g ∨ x.ctype ≠ c) →
        exec .baySet s = .next (s.replied rest f ⟨.ok, []⟩
          (s.part.setBay b { x with feeder := g, ctype := c, notice := true }))) ∧
      (¬ conflict → x.configured = true → x.post = q → x.socket = k → x.rating ≠ rating →
        exec .baySet s = .next (s.replied rest f ⟨.ok, []⟩
          ((s.part.setBay b { x with feeder := g, ctype := c, rating := rating, notice := true }).recompute g).finish)) ∧
      (¬ conflict → x.configured = true → (x.post ≠ q ∨ x.socket ≠ k) →
        let bound := (((s.part.setBay b { x with
              post := q, socket := k, feeder := g, ctype := c, rating := rating, reading := 0, occupancy := .unknown
              plug := .unknown, cap := 0, verify := .idle, notice := true }).derive b).touchPost x.post).touchPost q
        exec .baySet s = .next (s.replied rest f ⟨.ok, []⟩
          (if x.rating = rating then bound else bound.recompute g).finish))) ∧
  (∀ (s : State) (f : Frame) (rest : List Frame) (nb np ns nf nc r1 r0 : Byte), s.settled →
    s.Asks .baySet [nb, 0, np, ns, nf, nc, r1, r0] f rest →
    let rating := r1.toNat * 256 + r0.toNat
    (63 < nb.toNat ∨ 31 < np.toNat ∨ 1 < ns.toNat ∨ 7 < nf.toNat ∨ 3 < nc.toNat ∨ rating < 60 ∨ 800 < rating →
      exec .bayRemove s = .next (s.replied rest f ⟨.range, []⟩ s.part))) ∧
  (∀ (s : State) (f : Frame) (rest : List Frame) (nb np ns nf nc r1 r0 : Byte) (b : BayId), s.settled →
    s.Asks .baySet [nb, 0, np, ns, nf, nc, r1, r0] f rest → nb.toNat = b.val → np.toNat ≤ 31 → ns.toNat ≤ 1 →
    nf.toNat ≤ 7 → nc.toNat ≤ 3 → 60 ≤ r1.toNat * 256 + r0.toNat → r1.toNat * 256 + r0.toNat ≤ 800 →
    let x := s.part.bay b
    (x.configured = true → s.part.chain b ≠ [] →
      exec .bayRemove s = .next (s.replied rest f ⟨.conflict, []⟩ s.part)) ∧
    (x.configured = false → exec .bayRemove s = .next (s.replied rest f ⟨.ok, []⟩ s.part)) ∧
    (x.configured = true → s.part.chain b = [] →
      exec .bayRemove s = .next (s.replied rest f ⟨.ok, []⟩
        (((s.part.setBay b { x with
            configured := false, service := .inService, limit := 0, reading := 0, cap := 0, occupancy := .unknown
            plug := .unknown, verify := .idle, penalty := 0, notice := true }).derive b).touchPost x.post).finish)))

/-- BAY-SERVICE with target OUT on a bay in service: the service state and the condition become OUT; every record of
the bay's chain before engagement leaves the bay or is closed, whatever its start (R111); with an ENGAGED record and
the force flag clear it is refused WRONG-STATE; a bay already OUT is left as it is; an unconfigured bay is refused
CONFLICT (R5). BAY-SERVICE with target IN: a bay that is OUT returns to service, derives its condition anew and has
the Waiting List retried; a bay already IN is left as it is (R6). A bay above 63, or a target other than IN and OUT,
is refused RANGE (R5). That a forced OUT ends the session of the bay before the other records are relocated is the
model's choice (log 35); no clause rests on it. -/
def Obligations.BayServiceTakesTheBayOutAndIn : Prop :=
  (∀ (c : Instr) (s : State) (f : Frame) (rest : List Frame) (nb target force : Byte),
    c = .bayServiceOut ∨ c = .bayServiceIn → s.settled → s.Asks .bayService [nb, target, force] f rest →
    rowTakes c [nb, target, force] = true → force = 0 ∨ force = 1 → (63 < nb.toNat ∨ 1 < target.toNat) →
    exec c s = .next (s.replied rest f ⟨.range, []⟩ s.part)) ∧
  (∀ (s : State) (f : Frame) (rest : List Frame) (nb force : Byte) (b : BayId), s.settled →
    s.Asks .bayService [nb, 1, force] f rest → nb.toNat = b.val → force = 0 ∨ force = 1 →
    let x := s.part.bay b
    (x.configured = false → exec .bayServiceOut s = .next (s.replied rest f ⟨.conflict, []⟩ s.part)) ∧
    (x.configured = true → x.service = .out → exec .bayServiceOut s = .next (s.replied rest f ⟨.ok, []⟩ s.part)) ∧
    (x.configured = true → x.service = .inService → s.part.occupant b ≠ none → force = 0 →
      exec .bayServiceOut s = .next (s.replied rest f ⟨.wrongState, []⟩ s.part)) ∧
    (x.configured = true → x.service = .inService → (s.part.occupant b = none ∨ force = 1) →
      ∃ p, exec .bayServiceOut s = .next (s.replied rest f ⟨.ok, []⟩ p) ∧
        (p.bay b).service = .out ∧ (p.bay b).condition = .out ∧ (p.bay b).notice = true ∧
        (s.part.chain b = [] → p.pool = s.part.pool) ∧
        (∀ k r, k ∈ s.part.chain b → s.part.record k = some r → r.bay = some b → r.state.upcoming = true →
          ∃ r', p.record k = some r' ∧ (r'.state = .closing ∨ r'.bay ≠ some b)) ∧
        (∀ k r y, s.part.occupant b = some k → s.part.record k = some r → r.bay = some b → r.session = some y →
          ∃ r', p.record k = some r' ∧
            (y.phase = .halted → r'.state = .closing ∧
              ∃ c, r'.close = some c ∧ c.result = .stopped ∧ c.closedBy = .service) ∧
            (y.phase = .settling → r'.state = .engaged ∧ r'.session = some y) ∧
            (y.phase ≠ .halted → y.phase ≠ .settling → r'.state = .engaged ∧
              r'.session = some { y with
                phase := .settling, settle := some ⟨.service, s.part.time + 30000000⟩, stoppedIn := none
                pause := .none, satisfied := 0 })))) ∧
  (∀ (s : State) (f : Frame) (rest : List Frame) (nb force : Byte) (b : BayId), s.settled →
    s.Asks .bayService [nb, 0, force] f rest → nb.toNat = b.val → force = 0 ∨ force = 1 →
    let x := s.part.bay b
    (x.configured = false → exec .bayServiceIn s = .next (s.replied rest f ⟨.conflict, []⟩ s.part)) ∧
    (x.configured = true → x.service = .inService →
      exec .bayServiceIn s = .next (s.replied rest f ⟨.ok, []⟩ s.part)) ∧
    (x.configured = true → x.service = .out →
      exec .bayServiceIn s = .next (s.replied rest f ⟨.ok, []⟩
        ((s.part.setBay b { x with service := .inService, notice := true }).derive b).retryDue.finish)))

/-- FEEDER-SET: out of range RANGE; disabling a feeder that has configured bays CONFLICT (R12). An UNUSED feeder that
is enabled becomes NORMAL, with its flags empty and its rotor and overdraw count 0, or TRIPPED at once where its trip
input is enabled and active, as for a trip, and is recomputed (R13, R135, R144). A feeder in use that stays enabled
keeps its state and stores what changed: its trip input enabled while the level is active trips it; its trip input
disabled while it is TRIPPED or RECOVERING makes it NORMAL, recomputes it and has the Waiting List retried; otherwise
a changed limit recomputes it (R13, R135, R144). A feeder in use that is disabled becomes UNUSED, and a request that
repeats the configuration changes nothing (R13). A taken request that raises the concurrency cap has the Waiting List
retried (R13, R89); that it does so for a feeder that is UNUSED before or after the request as well is the model's
choice (log 33). -/
def Obligations.FeederSetEnablesAndDisables : Prop :=
  ∀ (s : State) (f : Frame) (rest : List Frame) (ng en l1 l0 v1 v0 nc tr : Byte), s.settled →
    s.Asks .feederSet [ng, en, l1, l0, v1, v0, nc, tr] f rest → en = 0 ∨ en = 1 → tr = 0 ∨ tr = 1 →
    let limit := l1.toNat * 256 + l0.toNat
    let volts := v1.toNat * 256 + v0.toNat
    (7 < ng.toNat ∨ 20000 < limit ∨ volts < 100 ∨ 500 < volts ∨ nc.toNat < 1 ∨ 64 < nc.toNat →
      exec .feederSet s = .next (s.replied rest f ⟨.range, []⟩ s.part)) ∧
    ∀ g : FeederId, ng.toNat = g.val → limit ≤ 20000 → 100 ≤ volts → volts ≤ 500 → 1 ≤ nc.toNat → nc.toNat ≤ 64 →
      let x := s.part.feeder g
      let retried (p : Part) : Part := if x.concurrency < nc.toNat then p.retryDue.finish else p
      let completed (p : Part) : Part := (if x.concurrency < nc.toNat then p.retryDue else p).finish
      let y : Feeder := { x with limit := limit, voltage := volts, concurrency := nc.toNat, tripEnabled := decide (tr = 1) }
      (en = 0 → x.state ≠ .unused → s.part.baysOfFeeder g ≠ [] →
        exec .feederSet s = .next (s.replied rest f ⟨.conflict, []⟩ s.part)) ∧
      let fresh : Feeder := { y with
        state := .normal, recovery := none, sticky := ⟨false, false, false, false⟩, condition := false, rotor := 0
        overdrawCount := 0, notice := true }
      (en = 1 → x.state = .unused → (tr = 0 ∨ x.active = false) →
        let p := completed ((s.part.setFeeder g fresh).recompute g)
        exec .feederSet s = .next (s.replied rest f ⟨.ok, []⟩ p) ∧ (p.feeder g).state = .normal ∧
          (p.feeder g).config = y.config ∧ (p.feeder g).recovery = none ∧ (p.feeder g).overdrawCount = 0 ∧
          (p.feeder g).notice = true) ∧
      (en = 1 → x.state = .unused → tr = 1 → x.active = true →
        let p := completed ((s.part.setFeeder g { fresh with
          state := .tripped, sticky := ⟨true, false, false, false⟩ }).recompute g)
        exec .feederSet s = .next (s.replied rest f ⟨.ok, []⟩ p) ∧ (p.feeder g).state = .tripped ∧
          (p.feeder g).config = y.config ∧ (p.feeder g).sticky.tripSeen = true ∧ (p.feeder g).notice = true) ∧
      (en = 0 → x.state ≠ .unused → s.part.baysOfFeeder g = [] →
        exec .feederSet s = .next (s.replied rest f ⟨.ok, []⟩ (retried (s.part.setFeeder g { y with
          state := .unused, recovery := none, sticky := ⟨false, false, false, false⟩, condition := false, rotor := 0
          overdrawCount := 0, notice := true })))) ∧
      (en = 0 → x.state = .unused →
        exec .feederSet s = .next (s.replied rest f ⟨.ok, []⟩
          (retried (s.part.setFeeder g (if y = x then x else { y with notice := true }))))) ∧
      (en = 1 → x.state ≠ .unused → y = x → exec .feederSet s = .next (s.replied rest f ⟨.ok, []⟩ s.part)) ∧
      (en = 1 → x.state ≠ .unused → y ≠ x →
        let stored := { y with notice := true }
        let p := completed
          (if x.tripEnabled = false ∧ tr = 1 ∧ x.active = true then
            (s.part.setFeeder g { stored with
              state := .tripped, recovery := none, overdrawCount := 0
              sticky := { x.sticky with tripSeen := true } }).recompute g
          else if x.tripEnabled = true ∧ tr = 0 ∧ (x.state = .tripped ∨ x.state = .recovering) then
            ((s.part.setFeeder g { stored with state := .normal, recovery := none }).recompute g).retryDue
          else if x.limit ≠ limit then (s.part.setFeeder g stored).recompute g
          else s.part.setFeeder g stored)
        exec .feederSet s = .next (s.replied rest f ⟨.ok, []⟩ p) ∧ (p.feeder g).config = y.config ∧
          (p.feeder g).notice = true ∧
          (p.feeder g).state =
            (if x.tripEnabled = false ∧ tr = 1 ∧ x.active = true then .tripped
            else if x.tripEnabled = true ∧ tr = 0 ∧ (x.state = .tripped ∨ x.state = .recovering) then .normal
            else x.state))

/-- FEEDER-TRIM: a feeder above 7 or a trim above 20000 is refused RANGE; otherwise the trim is stored in any feeder
state and the feeder is recomputed; a trim equal to the stored one changes nothing; the reply carries the stored trim
and the available current (R137, R136). -/
def Obligations.FeederTrimStoresAndRecomputes : Prop :=
  ∀ (s : State) (f : Frame) (rest : List Frame) (ng h1 h0 : Byte), s.settled → s.Asks .feederTrim [ng, h1, h0] f rest →
    let trim := h1.toNat * 256 + h0.toNat
    (7 < ng.toNat ∨ 20000 < trim → exec .feederTrim s = .next (s.replied rest f ⟨.range, []⟩ s.part)) ∧
    ∀ g : FeederId, ng.toNat = g.val → trim ≤ 20000 →
      let x := s.part.feeder g
      let available := if x.state = .normal then x.limit - trim else 0
      (x.trim = trim →
        exec .feederTrim s = .next (s.replied rest f ⟨.ok, u16 trim ++ u16 available⟩ s.part)) ∧
      (x.trim ≠ trim →
        exec .feederTrim s = .next (s.replied rest f ⟨.ok, u16 trim ++ u16 available⟩
          ((s.part.setFeeder g { x with trim := trim, notice := true }).recompute g).finish))

/-- FEEDER-CLEAR clears exactly the named sticky flags, in any feeder state, sets no notice flag, and answers the flags
that stay; a feeder above 7 or a bit that names no flag is refused RANGE (R148, R180). -/
def Obligations.FeederClearClearsTheNamedFlags : Prop :=
  ∀ (s : State) (f : Frame) (rest : List Frame) (ng set : Byte), s.settled → s.Asks .feederClear [ng, set] f rest →
    (7 < ng.toNat ∨ 15 < set.toNat → exec .feederClear s = .next (s.replied rest f ⟨.range, []⟩ s.part)) ∧
    ∀ g : FeederId, ng.toNat = g.val → set.toNat ≤ 15 →
      let x := s.part.feeder g
      let left : Sticky := ⟨x.sticky.tripSeen && !set.getLsbD 0, x.sticky.shortfall && !set.getLsbD 1,
        x.sticky.overdraw && !set.getLsbD 2, x.sticky.meterGap && !set.getLsbD 3⟩
      exec .feederClear s = .next (s.replied rest f ⟨.ok, u8 left.code⟩
        (s.part.setFeeder g { x with sticky := left }))

/-- POST-SET with the flag set: an address not in use is declared and is sought; one in use is left as it is; an
address above 31 is refused RANGE (R16). POST-SET with the flag clear: an address above 31 is refused RANGE; an
address not in use is left as it is; one with an ENGAGED record on a bay of it is refused CONFLICT; any other is
withdrawn, its exchange is cut, its bays' reading and cap become 0 and their occupancy and plug UNKNOWN (R16, R152).
That the withdrawal cuts an exchange whose command is still being sent as well is the model's reading of R152 (log
20). The reset of the sequence of a withdrawn post is left open by the statement (log 13). -/
def Obligations.PostSetDeclaresAndWithdraws : Prop :=
  (∀ (s : State) (f : Frame) (rest : List Frame) (na : Byte), s.settled → s.Asks .postSet [na, 1] f rest →
    (31 < na.toNat → exec .postSetInUse s = .next (s.replied rest f ⟨.range, []⟩ s.part)) ∧
    ∀ q : PostId, na.toNat = q.val →
      let x := s.part.post q
      exec .postSetInUse s = .next (s.replied rest f ⟨.ok, []⟩
        (if x.inUse = true then s.part
        else s.part.setPost q { x with
          inUse := true, link := .seeking, cause := .none, seq := 0, misses := 0, valid := 0, slowWakes := 0
          notice := true }))) ∧
  (∀ (s : State) (f : Frame) (rest : List Frame) (na : Byte), s.settled → s.Asks .postSet [na, 0] f rest →
    31 < na.toNat → exec .postSetWithdraw s = .next (s.replied rest f ⟨.range, []⟩ s.part)) ∧
  (∀ (s : State) (f : Frame) (rest : List Frame) (na : Byte) (q : PostId), s.settled → s.Asks .postSet [na, 0] f rest →
    na.toNat = q.val →
    let x := s.part.post q
    let engaged : Prop := ∃ b : BayId, b ∈ s.part.baysOfPost q ∧ s.part.occupant b ≠ none
    (x.inUse = false → exec .postSetWithdraw s = .next (s.replied rest f ⟨.ok, []⟩ s.part)) ∧
    (x.inUse = true → engaged → exec .postSetWithdraw s = .next (s.replied rest f ⟨.conflict, []⟩ s.part)) ∧
    (x.inUse = true → ¬ engaged → ∃ p, exec .postSetWithdraw s = .next (s.replied rest f ⟨.ok, []⟩ p) ∧
      (p.post q).inUse = false ∧ (p.post q).link = .absent ∧ (p.post q).cause = .none ∧ (p.post q).misses = 0 ∧
      (p.post q).valid = 0 ∧ (p.post q).slowWakes = 0 ∧ (p.post q).timer = .stopped ∧ (p.post q).notice = true ∧
      (∀ b ∈ s.part.baysOfPost q, (p.bay b).reading = 0 ∧ (p.bay b).cap = 0 ∧ (p.bay b).occupancy = .unknown ∧
        (p.bay b).plug = .unknown ∧ (p.bay b).config = (s.part.bay b).config) ∧
      (∀ y, p.link.exchange = some y → y.post ≠ q)))

/-- POST-FORCE: an address above 31 or another action is refused RANGE, a post not in use WRONG-STATE; RESEEK starts the
search again with every counter 0, ISOLATE isolates with cause HOST, WAKE wakes a post in STANDBY and is refused in
every other state; a taken action cuts an exchange open with the post, and the reply carries the link state after it
(R165). That it cuts an exchange whose command is still being sent as well is the model's reading of R152 (log 20). -/
def Obligations.PostForceActsOnThePost : Prop :=
  (∀ (s : State) (f : Frame) (rest : List Frame) (c : Instr) (na act : Byte), s.settled →
    c = .postForceReseek ∨ c = .postForceIsolate ∨ c = .postForceWake → s.Asks .postForce [na, act] f rest →
    rowTakes c [na, act] = true → (31 < na.toNat ∨ 2 < act.toNat) →
    exec c s = .next (s.replied rest f ⟨.range, []⟩ s.part)) ∧
  ∀ (s : State) (f : Frame) (rest : List Frame) (na : Byte) (q : PostId), s.settled → na.toNat = q.val →
    let x := s.part.post q
    let cutAway (p : Part) : Prop := ∀ y, p.link.exchange = some y → y.post ≠ q
    (∀ c act, (c = .postForceReseek ∧ act = 0) ∨ (c = .postForceIsolate ∧ act = 1) ∨ (c = .postForceWake ∧ act = 2) →
      s.Asks .postForce [na, act] f rest → x.inUse = false →
      exec c s = .next (s.replied rest f ⟨.wrongState, []⟩ s.part)) ∧
    (s.Asks .postForce [na, 0] f rest → x.inUse = true →
      ∃ p, exec .postForceReseek s = .next (s.replied rest f ⟨.ok, [1]⟩ p) ∧ (p.post q).link = .seeking ∧
        (p.post q).seq = 0 ∧ (p.post q).misses = 0 ∧ (p.post q).valid = 0 ∧ (p.post q).slowWakes = 0 ∧
        (p.post q).cause = .none ∧ (p.post q).timer = .stopped ∧ cutAway p) ∧
    (s.Asks .postForce [na, 1] f rest → x.inUse = true →
      ∃ p, exec .postForceIsolate s = .next (s.replied rest f ⟨.ok, [6]⟩ p) ∧ (p.post q).link = .isolated ∧
        (p.post q).cause = .host ∧ (p.post q).timer = .stopped ∧ cutAway p) ∧
    (s.Asks .postForce [na, 2] f rest → x.inUse = true → x.link = .standby →
      ∃ p, exec .postForceWake s = .next (s.replied rest f ⟨.ok, [5]⟩ p) ∧ (p.post q).link = .waking ∧
        (p.post q).timer = .wake (s.part.time + 3000000) ∧ (p.post q).notice = true ∧ cutAway p) ∧
    (s.Asks .postForce [na, 2] f rest → x.inUse = true → x.link ≠ .standby →
      exec .postForceWake s = .next (s.replied rest f ⟨.wrongState, []⟩ s.part))

/-! ## Reservations -/

/-- BOOK takes its refusals in the order of R66 to R72: RANGE for a lane, a vehicle class, a connector type, a tier or a
pinned bay out of range; NO-CLOCK; WINDOW-RANGE, unless the ASAP flag gives the start; the refusals by policy, with
their deciding rule. Accepted with an empty free list it is refused POOL-FULL; with a bay returned by the engine, which
a pinned bay binds, the record stands on that bay, BOOKED or HELD, and the tallies of the request advance; without one
and with a deadline after now the record joins the Waiting List, or the request is refused LIST-FULL; without such a
deadline NO-BAY. The record takes the clamped duration, quota, rate cap and deadline (R66 to R73, R61). -/
def Obligations.BookPlacesOrListsTheRecord : Prop :=
  (∀ (s : State) (f : Frame) (rest : List Frame) (lane vc ct tier : Byte) (asap : Bool) (start duration : Nat)
    (quota rateCap deadline pinned : Option Nat), s.settled →
    s.Asks .book ([lane, vc, ct, tier] ++ bookTail asap start duration quota rateCap deadline pinned) f rest →
    start < 4294967296 → duration < 65536 → (∀ n, quota = some n → n < 4294967296) →
    (∀ n, rateCap = some n → n < 65536) → (∀ n, deadline = some n → n < 4294967296) →
    (∀ n, pinned = some n → n < 256) →
    (7 < lane.toNat ∨ 7 < vc.toNat ∨ 3 < ct.toNat ∨ 15 < tier.toNat ∨ ∃ n, pinned = some n ∧ 63 < n) →
    exec .book s = .next (s.replied rest f ⟨.range, []⟩ s.part)) ∧
  (∀ (s : State) (f : Frame) (rest : List Frame) (x : Asker) (asap : Bool) (asked duration : Nat)
    (quota rateCap deadline : Option Nat) (pinned : Option BayId), s.settled → s.part.conditionsCurrent →
    s.part.pool.partitioned →
    s.Asks .book (askerBytes x ++ bookTail asap asked duration quota rateCap deadline (pinned.map (·.val))) f rest →
    asked < 4294967296 → duration < 65536 → (∀ n, quota = some n → n < 4294967296) →
    (∀ n, rateCap = some n → n < 65536) → (∀ n, deadline = some n → n < 4294967296) →
    let start := if asap then s.part.now else asked
    let granted := min (max ((duration + 4) / 5 * 5) 15) 720
    let limit := deadline.map (fun d => max d start)
    let refuse (a : Answer) : Prop := exec .book s = .next (s.replied rest f a s.part)
    (s.part.clock.set = false → refuse ⟨.noClock, []⟩) ∧
    (s.part.clock.set = true → (start < s.part.now ∨ s.part.now + 10080 < start) → refuse ⟨.windowRange, []⟩) ∧
    (s.part.clock.set = true → s.part.now ≤ start → start ≤ s.part.now + 10080 →
      (∀ r, s.part.evaluate ⟨x, start, granted⟩ = .policyQuota r →
        refuse ⟨.policyQuota, [1, BitVec.ofNat 8 r.val]⟩) ∧
      (∀ r, s.part.evaluate ⟨x, start, granted⟩ = .policyRefused (some r) →
        refuse ⟨.policyRefused, [1, BitVec.ofNat 8 r.val]⟩) ∧
      (s.part.evaluate ⟨x, start, granted⟩ = .policyRefused none → refuse ⟨.policyRefused, [0]⟩) ∧
      ∀ m, s.part.evaluate ⟨x, start, granted⟩ = .accepted m →
        let placed := s.part.place ⟨start, start + granted, x.ctype, m.eligible, m.preferred, pinned, none, none⟩
        let record (state : RecState) (bay : Option BayId) : Record :=
          { createdRecord s.part x m start (start + granted) granted state bay .booked with
            quota := (match quota with
              | none => none
              | some n => if n = 0 then none else some (min n 200000))
            rateCap := rateCap.map (fun n => min (max n 60) 800)
            deadline := limit
            pinned := pinned }
        (s.part.pool.free = [] → refuse ⟨.poolFull, []⟩) ∧
        ∀ k l, s.part.pool.free = k :: l →
          let handle := (s.part.pool.slot k).generation * 256 + k.val
          (∀ b, placed = some b →
            let state : RecState := if s.part.now < start then .booked else .held
            ∃ p r', exec .book s = .next (s.replied rest f
                ⟨.ok, u16 handle ++ [1] ++ u8 b.val ++ u32 start ++ u32 (start + granted) ++ u16 granted ++
                  u8 m.priority ++ u8 state.code ++ [0]⟩ p) ∧
              p.record k = some r' ∧ { r' with leadTaken := false, wakeTaken := false } = record state (some b) ∧
              (∀ q : RuleId, (p.rule q).counter = (s.part.rule q).counter + m.tallies.count q)) ∧
          (placed = none → (∃ d, limit = some d ∧ s.part.now < d) → s.part.pool.waiting.length < 32 →
            ∃ p, exec .book s = .next (s.replied rest f
                ⟨.waiting, u16 handle ++ [0] ++ u32 start ++ u32 (start + granted) ++ u16 granted ++ u8 m.priority ++
                  [1] ++ u8 (p.pool.position k)⟩ p) ∧
              p.record k = some (record .waiting none) ∧ k ∈ p.pool.waiting ∧
              (∀ q : RuleId, (p.rule q).counter = (s.part.rule q).counter + m.tallies.count q) ∧
              p.bays = s.part.bays ∧ p.posts = s.part.posts ∧ p.feeders = s.part.feeders) ∧
          (placed = none → (∃ d, limit = some d ∧ s.part.now < d) → 32 ≤ s.part.pool.waiting.length →
            refuse ⟨.listFull, []⟩) ∧
          (placed = none → (∀ d, limit = some d → d ≤ s.part.now) → refuse ⟨.noBay, []⟩)))

/-- EXTEND with an amount above 0 on a chained record whose window end is ahead, that has no session in OVERSTAY and
fewer than three extensions: the grant is pushed, the window end moves by it, the grace end stays, and nothing else
changes but the flag and the cause; a grant of 0 is refused NO-ROOM (R80 to R82). The grant is the largest multiple of
5 within every limit of R81: the amount rounded up, the start of the record behind it less the guard, a window end at
most 720 minutes after the window start, and the first minute that the bay's feeder does not carry. RETRACT pops the
newest extension, moves the window end back by it and lowers a later grace end to it; an empty stack is refused NOTHING-TO-RETRACT, and an end
that would not stay ahead of now, or a session in OVERSTAY, TOO-LATE (R83, R84). An amount of 0 is refused RANGE
whatever the handle (R80); otherwise a handle that names no live record, or a CLOSING one, is refused
UNKNOWN-RESERVATION by both (R32). -/
def Obligations.ExtensionsArePushedAndPopped : Prop :=
  (∀ (s : State) (f : Frame) (rest : List Frame) (h1 h0 a1 a0 : Byte), s.settled →
    s.Asks .extend [h1, h0, a1, a0] f rest →
    let amount := a1.toNat * 256 + a0.toNat
    (amount = 0 → exec .extend s = .next (s.replied rest f ⟨.range, []⟩ s.part)) ∧
    (amount ≠ 0 → s.part.NamesNone h1 h0 →
      exec .extend s = .next (s.replied rest f ⟨.unknownReservation, []⟩ s.part))) ∧
  (∀ (s : State) (f : Frame) (rest : List Frame) (h1 h0 : Byte), s.settled → s.Asks .retract [h1, h0] f rest →
    s.part.NamesNone h1 h0 → exec .retract s = .next (s.replied rest f ⟨.unknownReservation, []⟩ s.part)) ∧
  (∀ (s : State) (f : Frame) (rest : List Frame) (h1 h0 a1 a0 : Byte) (k : SlotId) (r : Record) (b : BayId), s.settled →
    s.Asks .extend [h1, h0, a1, a0] f rest →
    s.part.findLive (h1.toNat * 256 + h0.toNat) = some (k, r) →
    let amount := a1.toNat * 256 + a0.toNat
    (amount = 0 → exec .extend s = .next (s.replied rest f ⟨.range, []⟩ s.part)) ∧
    (amount ≠ 0 → r.state = .waiting → exec .extend s = .next (s.replied rest f ⟨.wrongState, []⟩ s.part)) ∧
    (amount ≠ 0 → r.state.chained = true → r.bay = some b →
      ((r.windowEnd ≤ s.part.now ∨ ∃ x, r.session = some x ∧ x.phase = .overstay) →
        exec .extend s = .next (s.replied rest f ⟨.tooLate, []⟩ s.part)) ∧
      (s.part.now < r.windowEnd → (∀ x, r.session = some x → x.phase ≠ .overstay) →
        (3 ≤ r.extensions.length → exec .extend s = .next (s.replied rest f ⟨.extendLimit, []⟩ s.part)) ∧
        (r.extensions.length < 3 →
          let q := (s.part.bay b).feeder
          let within (g : Nat) : Prop := g ≤ (amount + 4) / 5 * 5 ∧ r.windowEnd + g ≤ r.windowStart + 720 ∧
            (∀ l j m y, s.part.chain b = l ++ k :: j :: m → k ∉ l → s.part.record j = some y →
              r.windowEnd + g + s.part.settings.guard ≤ y.windowStart) ∧
            (∀ m, r.windowEnd ≤ m → m < r.windowEnd + g →
              s.part.carriedAt q (some k) m < (s.part.feeder q).concurrency)
          ∀ g : Nat, g % 5 = 0 → (g = 0 ∨ within g) → ¬ within (g + 5) →
          (g = 0 → exec .extend s = .next (s.replied rest f ⟨.noRoom, []⟩ s.part)) ∧
          (g ≠ 0 → exec .extend s = .next (s.replied rest f
            ⟨.ok, u16 g ++ u32 (r.windowEnd + g) ++ u8 (r.extensions.length + 1)⟩
            { s.part with pool := s.part.pool.setSlot k ⟨(s.part.pool.slot k).generation, some { r with
                extensions := g :: r.extensions, windowEnd := r.windowEnd + g, endTaken := false
                notice := true, lastCause := .extend }⟩ })))))) ∧
  (∀ (s : State) (f : Frame) (rest : List Frame) (h1 h0 : Byte) (k : SlotId) (r : Record), s.settled →
    s.Asks .retract [h1, h0] f rest → s.part.findLive (h1.toNat * 256 + h0.toNat) = some (k, r) →
    (r.extensions = [] → exec .retract s = .next (s.replied rest f ⟨.nothingToRetract, []⟩ s.part)) ∧
    (∀ x l, r.extensions = x :: l →
      ((r.windowEnd ≤ s.part.now + x ∨ ∃ y, r.session = some y ∧ y.phase = .overstay) →
        exec .retract s = .next (s.replied rest f ⟨.tooLate, []⟩ s.part)) ∧
      (s.part.now + x < r.windowEnd → (∀ y, r.session = some y → y.phase ≠ .overstay) → r.state.chained = true →
        ∃ p, exec .retract s = .next (s.replied rest f ⟨.ok, u16 x ++ u32 (r.windowEnd - x) ++ u8 l.length⟩ p) ∧
          p.record k = some { r with
            extensions := l, windowEnd := r.windowEnd - x, graceEnd := min r.graceEnd (r.windowEnd - x)
            endTaken := false, notice := true, lastCause := .retract })))

/-- CANCEL closes a WAITING, BOOKED, HELD or ARRIVING record CANCELLED by HOST, with its close summary; an ENGAGED
record is refused WRONG-STATE; a handle that names no live record, or a CLOSING one, is refused UNKNOWN-RESERVATION
(R45, R42, R32). -/
def Obligations.CancelClosesTheRecord : Prop :=
  ∀ (s : State) (f : Frame) (rest : List Frame) (h1 h0 : Byte), s.settled → s.Asks .cancel [h1, h0] f rest →
    let handle := h1.toNat * 256 + h0.toNat
    (s.part.findLive handle = none → exec .cancel s = .next (s.replied rest f ⟨.unknownReservation, []⟩ s.part)) ∧
    ∀ k r, s.part.findLive handle = some (k, r) →
      (r.state = .engaged → exec .cancel s = .next (s.replied rest f ⟨.wrongState, []⟩ s.part)) ∧
      (r.state ≠ .engaged → ∃ p r', exec .cancel s = .next (s.replied rest f ⟨.ok, []⟩ p) ∧ p.record k = some r' ∧
        r'.state = .closing ∧ ∃ c, r'.close = some c ∧
          c.handle = (s.part.pool.slot k).generation * 256 + k.val ∧ c.bay = r.bay ∧ c.result = .cancelled ∧
          c.closedBy = .host ∧ c.windowStart = r.windowStart ∧ c.windowEnd = r.windowEnd ∧
          c.extensions = r.extensions.length ∧ c.closed = s.part.now)

/-- ARRIVE takes its refusals in the order of R103: RANGE, NO-CLOCK, UNKNOWN-RESERVATION, WRONG-STATE, TOO-EARLY. On its
own bay a record that is not at the head of the bay's chain, or whose bay is OUT or DARK, is refused BAY-BUSY; an
ARRIVING record is left as it stands; a BOOKED record whose start would move earlier is refused NO-ROOM where the bay's
feeder does not carry the added minutes, and has its start moved where it does (R104; no record ENGAGED on the bay whose
head it is). On another bay a record that does not meet every test of R105 is refused WRONG-BAY, and moves there where
it does. A record so taken is engaged with a fresh session on an occupied bay, and becomes ARRIVING on any other (R104
to R106, R101, R30). That the grace end of the reply is an optional field is the model's reading (log 17). -/
def Obligations.ArriveOnTheOwnBayEngagesOrWaits : Prop :=
  ∀ (s : State) (f : Frame) (rest : List Frame) (h1 h0 nb : Byte), s.settled → s.part.conditionsCurrent →
    s.part.pool.partitioned → s.Asks .arrive [h1, h0, nb] f rest →
    let handle := h1.toNat * 256 + h0.toNat
    let now := s.part.now
    let refuse (e : Status) : Prop := exec .arrive s = .next (s.replied rest f ⟨e, []⟩ s.part)
    (63 < nb.toNat → refuse .range) ∧
    (nb.toNat ≤ 63 → s.part.clock.set = false → refuse .noClock) ∧
    (nb.toNat ≤ 63 → s.part.clock.set = true → s.part.findLive handle = none → refuse .unknownReservation) ∧
    ∀ (k : SlotId) (r : Record) (a b : BayId), nb.toNat = b.val → s.part.clock.set = true →
      s.part.findLive handle = some (k, r) →
      let x := s.part.bay b
      let early : Prop := r.state = .booked ∧ now + s.part.settings.earlyAllowance < r.windowStart
      let start := max now (r.windowEnd - 720)
      let carried (stop : Nat) : Prop :=
        ∀ m, start ≤ m → m < stop → s.part.carriedAt x.feeder (some k) m < (s.part.feeder x.feeder).concurrency
      let moved : Record :=
        { r with bay := some b, windowStart := start, graceEnd := min (start + r.grace) r.windowEnd }
      let checked : Record := { moved with
        leadTaken := decide (start ≤ now + s.part.settings.lead)
        wakeTaken := decide (start ≤ now + s.part.settings.standbyLead) }
      let reply (y : Record) (state : Byte) (grace : List Byte) : Answer :=
        ⟨.ok, u16 ((s.part.pool.slot k).generation * 256 + k.val) ++ [state] ++ u8 b.val ++ u32 y.windowStart ++
          u32 y.windowEnd ++ grace⟩
      let taken (waits engages : Record) : Prop :=
        (s.part.occupancyOf b ≠ .occupied →
          ∃ p, exec .arrive s = .next (s.replied rest f (reply waits 4 (1 :: u32 waits.graceEnd)) p) ∧
            p.record k = some { waits with state := .arriving, notice := true, lastCause := .arrive }) ∧
        (s.part.occupancyOf b = .occupied →
          ∃ p y, exec .arrive s = .next (s.replied rest f (reply engages 5 [0]) p) ∧
            p.record k = some { engages with
              state := .engaged, notice := true, lastCause := .arrive, session := some y } ∧
            y.phase = (if s.part.plugOf b = .plugged then (if 0 < x.penalty then .paused else .charge) else .plugWait) ∧
            y.pause = (if s.part.plugOf b = .plugged ∧ 0 < x.penalty then .overdraw else .none) ∧
            y.engaged = now ∧ y.within = 0 ∧ y.excess = 0 ∧ y.residue = 0 ∧ y.satisfied = 0 ∧
            y.seen = ⟨false, false, false, false, false⟩ ∧ y.overstayStart = none ∧ y.settle = none ∧
            y.stoppedIn = none ∧ (p.bay b).verify = .idle)
      (r.state = .waiting ∨ r.state = .engaged → refuse .wrongState) ∧
      (r.state.upcoming = true → r.bay = some a →
        (early → refuse .tooEarly) ∧
        (¬ early → a = b →
          let open_ : Prop := (s.part.chain b).head? = some k ∧ x.condition ≠ .out ∧ x.condition ≠ .dark
          (¬ open_ → refuse .bayBusy) ∧
          (open_ → r.state = .arriving →
            exec .arrive s = .next (s.replied rest f (reply r 4 (1 :: u32 r.graceEnd)) s.part)) ∧
          (open_ → (r.state = .held ∨ (r.state = .booked ∧ r.windowStart ≤ start)) → taken r r) ∧
          (open_ → r.state = .booked → start < r.windowStart → ¬ carried r.windowStart → refuse .noRoom) ∧
          (open_ → r.state = .booked → start < r.windowStart → carried r.windowStart → s.part.occupant b = none →
            taken checked moved)) ∧
        (¬ early → a ≠ b →
          let suits : Prop := x.configured = true ∧ r.eligible.getLsbD b.val = true ∧ x.ctype = r.ctype ∧
            x.condition ≠ .out ∧ x.condition ≠ .dark ∧
            (∀ j y, j ∈ s.part.chain b → s.part.record j = some y → y.state ≠ .engaged ∧ y.state ≠ .held ∧
              y.state ≠ .arriving ∧ r.windowEnd + s.part.settings.guard ≤ y.windowStart) ∧
            carried r.windowEnd
          (¬ suits → refuse .wrongBay) ∧ (suits → taken checked moved)))

/-- ARRIVE-WALKIN is refused RANGE for a bay, a lane, a vehicle class, a connector type or a tier out of range, then
NO-CLOCK, then by policy, with the deciding rule (R109). One that admission accepts, on a configured bay of the right
type in the eligible mask that is free for it: the record takes the window from now to the walk-in end, the clamped
quota and rate cap, and is ARRIVING, or ENGAGED on an occupied bay (R109, R110). The walk-in end is the smallest of
now plus the granted duration, the first chained start less the guard, and the first minute at or after now that the
bay's feeder does not carry (R110). That the grace end of the reply is an optional field, and that the refusals by
policy carry their rule as the reply to BOOK does, is the model's reading (log 17). -/
def Obligations.ArriveWalkinCreatesTheStay : Prop :=
  (∀ (s : State) (f : Frame) (rest : List Frame) (nb lane vc ct tier : Byte) (duration : Nat)
    (quota rateCap : Option Nat), s.settled →
    s.Asks .arriveWalkin ([nb, lane, vc, ct, tier] ++ u16 duration ++ opt u32 quota ++ opt u16 rateCap) f rest →
    (63 < nb.toNat ∨ 7 < lane.toNat ∨ 7 < vc.toNat ∨ 3 < ct.toNat ∨ 15 < tier.toNat) →
    exec .arriveWalkin s = .next (s.replied rest f ⟨.range, []⟩ s.part)) ∧
  (∀ (s : State) (f : Frame) (rest : List Frame) (x : Asker) (b : BayId) (duration : Nat)
    (quota rateCap : Option Nat), s.settled →
    s.Asks .arriveWalkin (u8 b.val ++ askerBytes x ++ u16 duration ++ opt u32 quota ++ opt u16 rateCap) f rest →
    duration < 65536 →
    let granted := min (max ((duration + 4) / 5 * 5) 15) 720
    let refuse (a : Answer) : Prop := exec .arriveWalkin s = .next (s.replied rest f a s.part)
    (s.part.clock.set = false → refuse ⟨.noClock, []⟩) ∧
    (s.part.clock.set = true →
      (∀ r, s.part.evaluate ⟨x, s.part.now, granted⟩ = .policyQuota r →
        refuse ⟨.policyQuota, [1, BitVec.ofNat 8 r.val]⟩) ∧
      (∀ r, s.part.evaluate ⟨x, s.part.now, granted⟩ = .policyRefused (some r) →
        refuse ⟨.policyRefused, [1, BitVec.ofNat 8 r.val]⟩) ∧
      (s.part.evaluate ⟨x, s.part.now, granted⟩ = .policyRefused none → refuse ⟨.policyRefused, [0]⟩))) ∧
  ∀ (s : State) (f : Frame) (rest : List Frame) (x : Asker) (b : BayId) (duration : Nat)
    (quota rateCap : Option Nat) (m : Admission), s.settled →
    s.part.conditionsCurrent →
    s.Asks .arriveWalkin (u8 b.val ++ u8 x.lane.val ++ u8 x.vclass.val ++ u8 x.ctype.code ++ u8 x.tier.val ++
      u16 duration ++ opt u32 quota ++ opt u16 rateCap) f rest →
    duration < 65536 → (∀ n, quota = some n → n < 4294967296) → (∀ n, rateCap = some n → n < 65536) →
    s.part.clock.set = true →
    let granted := min (max ((duration + 4) / 5 * 5) 15) 720
    s.part.evaluate ⟨x, s.part.now, granted⟩ = .accepted m →
    let y := s.part.bay b
    let suits : Prop := y.configured = true ∧ m.eligible.getLsbD b.val = true ∧ y.ctype = x.ctype
    let busy : Prop := y.condition = .out ∨ y.condition = .dark ∨
      ∃ k r, k ∈ s.part.chain b ∧ s.part.record k = some r ∧ (r.state = .engaged ∨ r.state = .held ∨ r.state = .arriving)
    let stop := s.part.walkinEnd b granted
    let refuse (e : Status) : Prop := exec .arriveWalkin s = .next (s.replied rest f ⟨e, []⟩ s.part)
    let carried (n : Nat) : Prop := s.part.carriedAt y.feeder none n < (s.part.feeder y.feeder).concurrency
    let ahead (n : Nat) : Prop := ∃ k r, (s.part.chain b).head? = some k ∧ s.part.record k = some r ∧
      r.windowStart - s.part.settings.guard = n
    (s.part.pool.partitioned → stop ≤ s.part.now + granted ∧ (∀ n, ahead n → stop ≤ n) ∧
      (∀ n, s.part.now ≤ n → n < stop → carried n) ∧
      (stop = s.part.now + granted ∨ ahead stop ∨ (s.part.now ≤ stop ∧ ¬ carried stop))) ∧
    (¬ suits → refuse .wrongBay) ∧ (suits → busy → refuse .bayBusy) ∧
    (suits → ¬ busy → stop < s.part.now + 15 → refuse .noRoom) ∧
    (suits → ¬ busy → s.part.now + 15 ≤ stop → s.part.pool.free = [] → refuse .poolFull) ∧
    ∀ k l, suits → ¬ busy → s.part.now + 15 ≤ stop → s.part.pool.free = k :: l →
      s.part.pool.partitioned →
      ∃ p r', p.record k = some r' ∧ r'.windowStart = s.part.now ∧ r'.windowEnd = stop ∧ r'.duration = granted ∧
        r'.bay = some b ∧ r'.origin = .walkIn ∧ r'.priority = m.priority ∧
        r'.quota = (match quota with
          | none => none
          | some n => if n = 0 then none else some (min n 200000)) ∧
        r'.rateCap = rateCap.map (fun n => min (max n 60) 800) ∧
        (s.part.occupancyOf b = .occupied → r'.state = .engaged ∧ r'.session.isSome) ∧
        (s.part.occupancyOf b ≠ .occupied → r'.state = .arriving ∧ r'.session = none) ∧
        exec .arriveWalkin s = .next (s.replied rest f
          ⟨.ok, u16 ((s.part.pool.slot k).generation * 256 + k.val) ++ u8 b.val ++ u8 r'.state.code ++
            u32 s.part.now ++ u32 stop ++ u16 granted ++ u8 m.priority ++
            (if r'.state = .arriving then 1 :: u32 r'.graceEnd else [0])⟩ p)

/-! ## Sessions -/

/-- END-SESSION: a handle that names no live record, or a CLOSING one, is refused UNKNOWN-RESERVATION (R32); a record
that is not ENGAGED is refused WRONG-STATE; a HALTED session closes STOPPED by HOST; a session in SETTLING is left as
it is; any other enters SETTLING with settle cause HOST and a timer of 30 s (R125, R116). That the reply carries one
byte, the state or the phase, is the model's reading (log 17). -/
def Obligations.EndSessionSettlesOrCloses : Prop :=
  (∀ (s : State) (f : Frame) (rest : List Frame) (h1 h0 : Byte), s.settled → s.Asks .endSession [h1, h0] f rest →
    s.part.NamesNone h1 h0 → exec .endSession s = .next (s.replied rest f ⟨.unknownReservation, []⟩ s.part)) ∧
  ∀ (s : State) (f : Frame) (rest : List Frame) (h1 h0 : Byte) (k : SlotId) (r : Record), s.settled →
    s.Asks .endSession [h1, h0] f rest → s.part.findLive (h1.toNat * 256 + h0.toNat) = some (k, r) →
    (r.state ≠ .engaged → exec .endSession s = .next (s.replied rest f ⟨.wrongState, []⟩ s.part)) ∧
    ∀ x, r.state = .engaged → r.session = some x →
      (x.phase = .settling → exec .endSession s = .next (s.replied rest f ⟨.ok, [8]⟩ s.part)) ∧
      (x.phase = .halted → ∃ p r', exec .endSession s = .next (s.replied rest f ⟨.ok, [6]⟩ p) ∧
        p.record k = some r' ∧ r'.state = .closing ∧ ∃ c, r'.close = some c ∧ c.result = .stopped ∧ c.closedBy = .host ∧
          c.engaged = some x.engaged ∧ c.within = x.within ∧ c.excess = x.excess ∧ c.seen = x.seen ∧
          c.closed = s.part.now) ∧
      (x.phase ≠ .settling → x.phase ≠ .halted →
        ∃ p, exec .endSession s = .next (s.replied rest f ⟨.ok, [8]⟩ p) ∧
          p.record k = some { r with notice := true, lastCause := .session, session := some { x with
            phase := .settling, settle := some ⟨.host, s.part.time + 30000000⟩, stoppedIn := none, pause := .none
            satisfied := 0 } })

/-- SESSION-RESUME: a handle that names no live record, or a CLOSING one, is refused UNKNOWN-RESERVATION (R32); HALTED
without a serviceable post NOT-READY; SATISFIED returns to CHARGE, or to PAUSED for OVERDRAW while a penalty runs,
with a satisfied count of 0; QUOTA-MET needs an added quota and a quota below 200 000, and takes the sum, at most 200
000; a return from HALTED reads the plug; every other phase is refused WRONG-STATE (R127, R118). That a plug reading
UNKNOWN on a return from HALTED counts as not plugged is the model's reading (log 24). -/
def Obligations.SessionResumeReturnsToCharge : Prop :=
  (∀ (s : State) (f : Frame) (rest : List Frame) (h1 h0 : Byte) (added : Option Nat), s.settled →
    s.Asks .sessionResume ([h1, h0] ++ opt u32 added) f rest → s.part.NamesNone h1 h0 →
    exec .sessionResume s = .next (s.replied rest f ⟨.unknownReservation, []⟩ s.part)) ∧
  ∀ (s : State) (f : Frame) (rest : List Frame) (h1 h0 : Byte) (added : Option Nat) (k : SlotId) (r : Record)
    (x : Session) (b : BayId), s.settled → s.Asks .sessionResume ([h1, h0] ++ opt u32 added) f rest →
    (∀ n, added = some n → n < 4294967296) → s.part.findLive (h1.toNat * 256 + h0.toNat) = some (k, r) →
    (r.state ≠ .engaged → exec .sessionResume s = .next (s.replied rest f ⟨.wrongState, []⟩ s.part)) ∧
    (r.state = .engaged → r.session = some x → r.bay = some b →
      let plugged := s.part.plugOf b = .plugged
      let penalty := (s.part.bay b).penalty
      let charged (y : Session) : Session :=
        if 0 < penalty then { y with phase := .paused, pause := .overdraw } else { y with phase := .charge, pause := .none }
      let refuse (e : Status) : Prop := exec .sessionResume s = .next (s.replied rest f ⟨e, []⟩ s.part)
      let gives (y : Session) (q : Option Nat) : Prop :=
        ∃ p r', exec .sessionResume s = .next (s.replied rest f ⟨.ok, u8 y.phase.code ++ opt u32 q⟩ p) ∧
          p.record k = some r' ∧ r'.session = some y ∧ r'.quota = q ∧ r'.state = .engaged ∧ r'.notice = true
      (x.phase = .plugWait ∨ x.phase = .charge ∨ x.phase = .paused ∨ x.phase = .overstay ∨ x.phase = .settling →
        refuse .wrongState) ∧
      (x.phase = .halted → s.part.serviceable b = false → refuse .notReady) ∧
      (x.phase = .halted → s.part.serviceable b = true →
        (x.stoppedIn = some .quotaMet → plugged → gives { x with phase := .quotaMet, stoppedIn := none } r.quota) ∧
        (x.stoppedIn = some .satisfied → plugged →
          gives { x with phase := .satisfied, stoppedIn := none, satisfied := 300 } r.quota) ∧
        (x.stoppedIn = some .plugWait ∨ x.stoppedIn = some .charge ∨ x.stoppedIn = some .paused → plugged →
          gives (charged { x with stoppedIn := none }) r.quota) ∧
        (x.stoppedIn ≠ none → ¬ plugged → gives { x with phase := .plugWait, stoppedIn := none } r.quota)) ∧
      (x.phase = .satisfied → gives (charged { x with satisfied := 0 }) r.quota) ∧
      (x.phase = .quotaMet → (added = none ∨ added = some 0) → refuse .wrongState) ∧
      (∀ n q, x.phase = .quotaMet → added = some n → n ≠ 0 → r.quota = some q →
        (200000 ≤ q → refuse .range) ∧
        (q < 200000 →
          gives (if plugged then charged x else { x with phase := .plugWait }) (some (min (q + n) 200000)))))

/-- SESSION_TICK meters every ENGAGED record and then checks it: the residue grows by reading times voltage, whole Wh
are counted, the remainder of 36 000 stays, and the satisfied count grows, stays at 300 or becomes 0; a session that
leaves CHARGE or PAUSED for another phase has a recompute of its feeder become due (R128 to R130, log 11). The numbers
that a record's tick counts are stated in the statements on metering. One tick of metering, in the numbers of R128 and
R129: the residue and the whole Wh, the count without a quota, below the quota and at it, and the phase when the quota
is reached. The check of one tick, in the numbers of R130: in CHARGE with a limit of 60 or more and a reading below 10
the count rises by 1, and at 300 the phase is SATISFIED, which joins the conditions seen; in SATISFIED the count stays
at 300; in every other case it is 0. -/
def Obligations.SessionTickMetersEveryEngagedRecord : Prop :=
  (∀ s : State, s.settled → ∃ t, exec .sessionTick s = .next t ∧ t.part.outstanding.session = false ∧
    (∀ k r b x, s.part.record k = some r → r.state = .engaged → r.bay = some b → r.session = some x →
      ∃ r', t.part.record k = some r' ∧ r'.session = some
        ((x.meter r.quota (s.part.bay b).reading (s.part.feeder (s.part.bay b).feeder).voltage).checkSatisfied
          (s.part.bay b).limit (s.part.bay b).reading) ∧
        { r' with session := r.session, notice := r.notice, lastCause := r.lastCause } = r ∧
        ∀ y, r'.session = some y → (x.phase = .charge ∨ x.phase = .paused) → y.phase ≠ .charge → y.phase ≠ .paused →
          (t.part.feeder (s.part.bay b).feeder).recomputeDue = true) ∧
    (∀ k r, s.part.record k = some r → r.state ≠ .engaged →
      ∃ r', t.part.record k = some r' ∧ { r' with notice := r.notice } = r) ∧
    s.part.SameConfig t.part ∧ t.part.clock = s.part.clock ∧
    (∀ b : BayId, { t.part.bay b with notice := false } = { s.part.bay b with notice := false })) ∧
  (∀ (x : Session) (reading voltage : Nat),
    let wh := (x.residue + reading * voltage) / 36000
    let sat (n : Nat) := min n 4294967295
    let y (q : Option Nat) := x.meter q reading voltage
    (∀ q, (y q).residue = (x.residue + reading * voltage) % 36000) ∧
    ((y none).within = sat (x.within + wh) ∧ (y none).excess = x.excess ∧ (y none).phase = x.phase) ∧
    (∀ q, x.within + wh < q → (y (some q)).within = x.within + wh ∧ (y (some q)).excess = x.excess ∧
      (y (some q)).phase = x.phase ∧ (y (some q)).seen = x.seen) ∧
    (∀ q, x.within < q → q ≤ x.within + wh →
      (y (some q)).within = q ∧ (y (some q)).excess = sat (x.excess + (x.within + wh - q)) ∧
      (y (some q)).seen.quotaMet = true ∧
      (x.phase = .charge ∨ x.phase = .paused ∨ x.phase = .satisfied →
        (y (some q)).phase = .quotaMet ∧ (y (some q)).pause = .none ∧ (y (some q)).satisfied = 0) ∧
      (x.phase = .plugWait ∨ x.phase = .overstay ∨ x.phase = .settling →
        (y (some q)).phase = x.phase ∧ (y (some q)).stoppedIn = x.stoppedIn) ∧
      (x.phase = .halted → (y (some q)).phase = .halted ∧
        (x.stoppedIn = some .charge ∨ x.stoppedIn = some .paused ∨ x.stoppedIn = some .satisfied →
          (y (some q)).stoppedIn = some .quotaMet))) ∧
    (∀ q, q ≤ x.within → (y (some q)).within = x.within ∧ (y (some q)).excess = sat (x.excess + wh)) ∧
    (∀ q, (y q).excess ≠ x.excess → (y q).seen.overrun = true)) ∧
  (∀ (x : Session) (limit reading : Nat),
    let unused : Prop := x.phase = .charge ∧ 60 ≤ limit ∧ reading < 10
    let y := x.checkSatisfied limit reading
    (unused → x.satisfied < 299 → y = { x with satisfied := x.satisfied + 1 }) ∧
    (unused → 299 ≤ x.satisfied →
      y = { x with phase := .satisfied, satisfied := 300, seen := { x.seen with satisfied := true } }) ∧
    (x.phase = .satisfied → y = { x with satisfied := 300 }) ∧
    (¬ unused → x.phase ≠ .satisfied → y = { x with satisfied := 0 }))

/-- QUOTA_MET: a session that the tick's metering brings to its quota has the quota as its energy within, the rest as
excess, QUOTA-MET among the conditions seen and, from CHARGE, PAUSED and SATISFIED, the phase QUOTA-MET (R129).
SATISFIED: a session in CHARGE whose bay has a limit of 60 or more and a reading below 10 for the 300th tick in a row
becomes SATISFIED; with a smaller count the command changes nothing (R130, log 6). -/
def Obligations.QuotaAndSatisfactionEndTheCharge : Prop :=
  (∀ (s : State) (k : SlotId) (r : Record) (b : BayId) (x : Session) (q : Nat), s.settled → s.part.record k = some r →
    r.state = .engaged → r.bay = some b → r.session = some x → r.quota = some q → x.within < q →
    let added := x.residue + (s.part.bay b).reading * (s.part.feeder (s.part.bay b).feeder).voltage
    q ≤ x.within + added / 36000 →
    ∃ t r' y, exec (.quotaMet k.val) s = .next t ∧ t.part.record k = some r' ∧ r'.session = some y ∧ y.within = q ∧
      y.excess = min (x.excess + (x.within + added / 36000 - q)) 4294967295 ∧ y.residue = added % 36000 ∧
      y.seen.quotaMet = true ∧ r'.lastCause = (if x.reports y then .session else r.lastCause) ∧
      (x.phase = .charge ∨ x.phase = .paused ∨ x.phase = .satisfied →
        y.phase = .quotaMet ∧ y.pause = .none ∧ y.satisfied = 0)) ∧
  (∀ (s : State) (k : SlotId) (r : Record) (b : BayId) (x : Session), s.settled → s.part.record k = some r →
    r.state = .engaged → r.bay = some b → r.session = some x → x.phase = .charge → 60 ≤ (s.part.bay b).limit →
    (s.part.bay b).reading < 10 →
    (299 ≤ x.satisfied → ∃ t r', exec (.satisfied k.val) s = .next t ∧ t.part.record k = some r' ∧
      r'.session = some { x with phase := .satisfied, satisfied := 300, seen := { x.seen with satisfied := true } } ∧
      (t.part.feeder (s.part.bay b).feeder).recomputeDue = true) ∧
    (x.satisfied < 299 → exec (.satisfied k.val) s = .next s.complete))

/-! ## Power sharing and trips -/

/-- A recompute keeps the sum of the assigned limits of a feeder's bays within its available current, leaves no bay
between 1 and 59, gives no bay more than its cap, and leaves a limit only to a bay of a NORMAL feeder, neither OUT nor
DARK, whose ENGAGED record is in CHARGE (R143, R140 to R142, R136). RECOMPUTE of an UNUSED feeder, or of one with no
configured bay, writes nothing (R144) but the model's own mark that a recompute is due (log 11). The available current
is max(0, limit less trim) while the feeder is NORMAL and 0 in every other state (R136). RECOMPUTE of any other feeder
writes the division of its available current over its demanding set: every bay of the feeder gets what the division
gives it, and 0 where that is nothing; the stored rotor is the division's; every member that is given a current is in
CHARGE without a pause cause, and every other member is PAUSED, for SHORTFALL on a NORMAL feeder and for TRIP on any
other; SHORTFALL sticks where a member of a NORMAL feeder is left out; CONDITION is evaluated; no other bay and no
other record changes (R140, R142, R143, R120, R146, R147). The demanding set has, in bay order, the configured bays of
the feeder whose ENGAGED record is in CHARGE or PAUSED, that are neither OUT nor DARK and have no penalty; the cap of
a member is the least of the rating, the rate cap and a vehicle cap above 0, and its weight is that of its priority
class (R138, R139, R141). -/
def Obligations.RecomputeStaysWithinTheAvailableCurrent : Prop :=
  ((∀ (s : State) (f : FeederId), s.settled → s.part.pool.partitioned → (∀ b : BayId, (s.part.bay b).numbersSound) →
    (∀ k r n, s.part.record k = some r → r.rateCap = some n → 60 ≤ n ∧ n ≤ 800) →
    (s.part.feeder f).state ≠ .unused →
    ∃ t, exec (.recompute f.val) s = .next t ∧
      ((t.part.baysOfFeeder f).map (fun b => (t.part.bay b).limit)).sum ≤
        (if (t.part.feeder f).state = .normal then (t.part.feeder f).limit - (t.part.feeder f).trim else 0) ∧
      ∀ b ∈ t.part.baysOfFeeder f, (t.part.bay b).limit ≠ 0 →
        60 ≤ (t.part.bay b).limit ∧ (t.part.bay b).limit ≤ (t.part.bay b).rating ∧
        ((t.part.bay b).cap ≠ 0 → (t.part.bay b).limit ≤ (t.part.bay b).cap) ∧
        (t.part.feeder f).state = .normal ∧ (t.part.bay b).condition ≠ .out ∧ (t.part.bay b).condition ≠ .dark ∧
        ∃ k r x, t.part.occupant b = some k ∧ t.part.record k = some r ∧ r.session = some x ∧ x.phase = .charge ∧
          ∀ n, r.rateCap = some n → (t.part.bay b).limit ≤ n) ∧
  (∀ (s : State) (f : FeederId), (s.part.feeder f).state = .unused ∨ s.part.baysOfFeeder f = [] →
    exec (.recompute f.val) s = .next (s.withPart
      (s.part.setFeeder f { s.part.feeder f with recomputeDue := false })).complete)) ∧
  (∀ x : Feeder, (x.state = .normal → (x.available : Int) = max 0 ((x.limit : Int) - (x.trim : Int))) ∧
    (x.state = .unused ∨ x.state = .tripped ∨ x.state = .recovering → x.available = 0)) ∧
  (∀ (s : State) (f : FeederId), s.settled → s.part.pool.partitioned → (s.part.feeder f).state ≠ .unused →
    s.part.baysOfFeeder f ≠ [] →
    let x := s.part.feeder f
    let d := s.part.demanding f
    let v : Division := if x.state = .normal then divide (x.limit - x.trim) x.rotor d else ⟨[], x.rotor⟩
    let admits (m : Member) : Bool := v.given.any (fun g => g.1 = m.bay)
    ∃ t, exec (.recompute f.val) s = .next t ∧
      (∀ b : BayId, { t.part.bay b with notice := (s.part.bay b).notice } =
        if b ∈ s.part.baysOfFeeder f then { s.part.bay b with limit := (v.given.lookup b).getD 0 } else s.part.bay b) ∧
      (t.part.feeder f).rotor = v.rotor ∧ (t.part.feeder f).recomputeDue = false ∧
      (t.part.feeder f).sticky = { x.sticky with
        shortfall := x.sticky.shortfall || (decide (x.state = .normal) && d.any (fun m => !admits m)) } ∧
      (t.part.feeder f).condition = t.part.difficulty f ∧
      (∀ m ∈ d, ∀ r y, s.part.record m.slot = some r → r.session = some y →
        ∃ r', t.part.record m.slot = some r' ∧
          r'.session = some (if admits m = true then { y with phase := .charge, pause := .none }
            else { y with phase := .paused, pause := if x.state = .normal then .shortfall else .trip }) ∧
          { r' with session := r.session, notice := r.notice, lastCause := r.lastCause } = r) ∧
      (∀ k r, s.part.record k = some r → (∀ m ∈ d, m.slot ≠ k) →
        ∃ r', t.part.record k = some r' ∧ { r' with notice := r.notice } = r)) ∧
  (∀ (p : Part) (f : FeederId),
    ((p.demanding f).map (·.bay)).Pairwise (· < ·) ∧
    ∀ m : Member, m ∈ p.demanding f ↔
      (p.bay m.bay).configured = true ∧ (p.bay m.bay).feeder = f ∧ p.occupant m.bay = some m.slot ∧
      (p.bay m.bay).condition ≠ .out ∧ (p.bay m.bay).condition ≠ .dark ∧ (p.bay m.bay).penalty = 0 ∧
      ∃ r x, p.record m.slot = some r ∧ r.session = some x ∧ (x.phase = .charge ∨ x.phase = .paused) ∧
        let rated := min (p.bay m.bay).rating (r.rateCap.getD (p.bay m.bay).rating)
        m.cap = (if (p.bay m.bay).cap = 0 then rated else min rated (p.bay m.bay).cap) ∧
        m.priority = r.priority ∧ m.engaged = x.engaged ∧
        m.weight = (if r.priority ≤ 1 then p.settings.w1 else if r.priority = 2 then p.settings.w2
          else if r.priority = 3 then p.settings.w3 else p.settings.w4))

/-- The division of an available current over a demanding set whose caps are at least 60, in numbers: with 60 for every
member all are admitted, otherwise as many as the current carries; every admitted member gets 60 up to its cap, and
current is left over only when every admitted member stands at its cap (R140 to R142). One pass over the members not yet
fixed fixes those whose weighted share reaches their cap, or, with none, gives their trial values and the leftover
(R141). The leftover goes, one unit each, to the first members in cyclic order from the rotor, and the rotor moves past
the last of them (R142). -/
def Obligations.DivisionAdmitsAndFillsUpToTheCaps : Prop :=
  (∀ (available rotor : Nat) (d : List Member), (d.map (·.bay)).Nodup → (∀ m ∈ d, 60 ≤ m.cap ∧ 1 ≤ m.weight) →
    let x := divide available rotor d
    (x.given.map (·.1)).Nodup ∧
    x.given.length = min d.length (available / 60) ∧
    (∀ g ∈ x.given, ∃ m ∈ d, m.bay = g.1 ∧ 60 ≤ g.2 ∧ g.2 ≤ m.cap) ∧
    (x.given.map (·.2)).sum ≤ available ∧
    ((x.given.map (·.2)).sum < available → ∀ g ∈ x.given, ∃ m ∈ d, m.bay = g.1 ∧ g.2 = m.cap) ∧
    (∀ m ∈ d, ∀ n ∈ d, (∃ g ∈ x.given, g.1 = n.bay) → (∀ g ∈ x.given, g.1 ≠ m.bay) →
      m.priority < n.priority ∨ (m.priority = n.priority ∧
        (n.engaged < m.engaged ∨ (m.engaged = n.engaged ∧ n.bay < m.bay)))) ∧
    let k := d.filter (fun m => x.given.any (fun g => g.1 = m.bay))
    let y := sharePasses k.length (available - 60 * k.length) k []
    let order := y.open_.filter (fun g => rotor ≤ g.1.val) ++ y.open_.filter (fun g => g.1.val < rotor)
    y.leftover ≤ y.open_.length ∧
    x.given = y.fixed ++ (order.take y.leftover).map (fun g => (g.1, g.2 + 1)) ++ order.drop y.leftover ∧
    (y.leftover = 0 → x.rotor = rotor) ∧
    (∀ i g, y.leftover = i + 1 → order[i]? = some g → x.rotor = (g.1.val + 1) % 64)) ∧
  (∀ (passes left : Nat) (u : List Member) (fixed : List Given),
    let w := (u.map (·.weight)).sum
    let trial (m : Member) : Nat := 60 + left * m.weight / w
    let full := u.filter (fun m => m.cap ≤ trial m)
    (u = [] → sharePasses (passes + 1) left u fixed = ⟨fixed, [], 0⟩) ∧
    (u ≠ [] → full = [] → sharePasses (passes + 1) left u fixed =
      ⟨fixed, u.map (fun m => (m.bay, trial m)), left - (u.map (fun m => left * m.weight / w)).sum⟩) ∧
    (full ≠ [] → sharePasses (passes + 1) left u fixed =
      sharePasses passes (left - (full.map (fun m => m.cap - 60)).sum) (u.filter (fun m => trial m < m.cap))
        (fixed ++ full.map (fun m => (m.bay, m.cap)))))

/-- SHARE_TICK: every running penalty of a bay on a feeder falls by 1; the overdraw count of a NORMAL feeder whose
readings exceed its available current rises by 1, and that of every other becomes 0; at 3 the configured bay with the
largest reading less limit, the lowest number among equals, gets a penalty of 60, its session in CHARGE or PAUSED is
PAUSED for OVERDRAW, the sticky OVERDRAW flag is set and the count is 0; every feeder's CONDITION is the difficulty of
R147, and no configuration changes (R145, R131, R146). That difficulty is an overdraw count above 0, a missed reply of
the post of a configured bay, or a session there PAUSED for SHORTFALL (R147). OVERDRAW_PENALTY on the feeder whose
check brings the count to 3: the configured bay with the largest reading less limit, the lowest number among equals,
gets a penalty of 60; a session there in CHARGE or PAUSED is PAUSED for OVERDRAW; the sticky OVERDRAW flag is set and
the count is 0 (R145, R131, R146). With a smaller count the command changes nothing (log 6). PENALTY_END: a penalty of
1 becomes 0 and a recompute of the bay's feeder becomes due (R131, R145); any other penalty is left as it is (log 6).
-/
def Obligations.OverdrawPenaltiesFallRunAndEnd : Prop :=
  (∀ s : State, s.settled → s.part.pool.partitioned →
    let exceeded (f : FeederId) : Prop := (s.part.feeder f).state = .normal ∧
      (s.part.feeder f).limit - (s.part.feeder f).trim <
        ((s.part.baysOfFeeder f).map (fun j => (s.part.bay j).reading)).sum
    let strikes (f : FeederId) : Prop := exceeded f ∧ 2 ≤ (s.part.feeder f).overdrawCount
    let excess (b : BayId) : Int := ((s.part.bay b).reading : Int) - (s.part.bay b).limit
    let struck (b : BayId) : Prop := (s.part.bay b).configured = true ∧ strikes (s.part.bay b).feeder ∧
      ∀ j ∈ s.part.baysOfFeeder (s.part.bay b).feeder, excess j < excess b ∨ (excess j = excess b ∧ b ≤ j)
    ∃ t, exec .shareTick s = .next t ∧ t.part.outstanding.share = false ∧
      (∀ b : BayId, (struck b → (t.part.bay b).penalty = 60) ∧ (¬ struck b → (t.part.bay b).penalty =
        if (s.part.bay b).configured = true then (s.part.bay b).penalty - 1 else (s.part.bay b).penalty)) ∧
      (∀ b k r x, struck b → s.part.occupant b = some k → s.part.record k = some r → r.session = some x →
        (x.phase = .charge ∨ x.phase = .paused) →
        ∃ r', t.part.record k = some r' ∧ r'.session = some { x with phase := .paused, pause := .overdraw }) ∧
      (∀ f : FeederId,
        (¬ exceeded f → (t.part.feeder f).overdrawCount = 0) ∧
        (exceeded f → (s.part.feeder f).overdrawCount < 2 →
          (t.part.feeder f).overdrawCount = (s.part.feeder f).overdrawCount + 1) ∧
        (strikes f → (t.part.feeder f).overdrawCount = 0 ∧ (t.part.feeder f).sticky.overdraw = true) ∧
        (¬ strikes f → (t.part.feeder f).sticky.overdraw = (s.part.feeder f).sticky.overdraw) ∧
        (t.part.feeder f).condition = t.part.difficulty f) ∧
      s.part.SameConfig t.part ∧ t.part.clock = s.part.clock) ∧
  ((∀ (s : State) (f : FeederId) (b : BayId), s.settled → b ∈ s.part.baysOfFeeder f →
    (∀ j ∈ s.part.baysOfFeeder f, ((s.part.bay j).reading : Int) - (s.part.bay j).limit <
        ((s.part.bay b).reading : Int) - (s.part.bay b).limit ∨
      (((s.part.bay j).reading : Int) - (s.part.bay j).limit = ((s.part.bay b).reading : Int) - (s.part.bay b).limit ∧
        b ≤ j)) →
    let exceeded : Prop := (s.part.feeder f).state = .normal ∧ 2 ≤ (s.part.feeder f).overdrawCount ∧
      (s.part.feeder f).limit - (s.part.feeder f).trim <
        ((s.part.baysOfFeeder f).map (fun j => (s.part.bay j).reading)).sum
    (exceeded → ∃ t, exec (.overdrawPenalty f.val) s = .next t ∧ (t.part.bay b).penalty = 60 ∧
      (∀ j, j ≠ b → (t.part.bay j).penalty = (s.part.bay j).penalty) ∧
      (t.part.feeder f).sticky.overdraw = true ∧ (t.part.feeder f).overdrawCount = 0 ∧
      (∀ k r x, s.part.occupant b = some k → s.part.record k = some r → r.session = some x →
        (x.phase = .charge ∨ x.phase = .paused) →
        ∃ r', t.part.record k = some r' ∧ r'.session = some { x with phase := .paused, pause := .overdraw })) ∧
    (¬ exceeded → exec (.overdrawPenalty f.val) s = .next s.complete)) ∧
  (∀ (s : State) (b : BayId), let x := s.part.bay b
    exec (.penaltyEnd b.val) s = .next (s.withPart (if x.penalty = 1 then
      ((s.part.setBay b { x with penalty := 0 }).setFeeder x.feeder
        { s.part.feeder x.feeder with recomputeDue := true }) else s.part)).complete)) ∧
  (∀ (p : Part) (f : FeederId), p.difficulty f = true ↔ 0 < (p.feeder f).overdrawCount ∨
    ∃ b : BayId, (p.bay b).configured = true ∧ (p.bay b).feeder = f ∧ (0 < (p.post (p.bay b).post).misses ∨
      ∃ k r x, p.occupant b = some k ∧ p.record k = some r ∧ r.session = some x ∧ x.phase = .paused ∧
        x.pause = .shortfall))

/-- TRIP_INPUT_CHANGE: a pin whose level differs from the debounced level starts a difference at that moment, or keeps
the one it has; a pin back at the debounced level ends it (R134). DEBOUNCE of a difference that has lasted 200 ms: the
debounced level takes the pin's level; active with the trip input enabled trips a NORMAL or RECOVERING feeder, with
every limit of its bays 0 and every session of its demanding set PAUSED for TRIP; inactive takes a TRIPPED feeder to
RECOVERING for the recovery delay; a shorter difference, and a DEBOUNCE with no difference pending, change nothing
(R134, R135, R140, R146). RECOVERY_TIMER: an expired recovery timer makes the feeder NORMAL, recomputes it and has the
Waiting List retried; one that has not expired, or that does not run, changes nothing (R135). -/
def Obligations.TripInputsTripAndReleaseTheFeeder : Prop :=
  (∀ (s : State) (f : FeederId) (low : Bool) (time : Nat),
    let now := max s.part.time time
    let x := s.part.trip f
    let since : Option Nat := if low = (s.part.feeder f).active then none
      else if x.low = low ∧ x.since.isSome then x.since else some now
    exec (.tripInputChange f.val low time) s = .next
      (s.withPart ({ s.part with time := now }.setTrip f ⟨low, since⟩)).complete) ∧
  ((∀ (s : State) (f : FeederId) (time since : Nat), s.settled → (s.part.trip f).since = some since →
    let now := max s.part.time time
    let x := s.part.feeder f
    let level := (s.part.trip f).low
    (now < since + 200000 →
      exec (.debounce f.val time) s = .next (s.withPart { s.part with time := now }).complete) ∧
    (since + 200000 ≤ now →
      ∃ t, exec (.debounce f.val time) s = .next t ∧ (t.part.feeder f).active = level ∧
        t.part.trip f = ⟨level, none⟩ ∧ (t.part.feeder f).config = x.config ∧
        (((level = true ∧ x.tripEnabled = true ∧ (x.state = .normal ∨ x.state = .recovering)) ∨
            (level = false ∧ x.state = .tripped)) →
          ∀ m ∈ s.part.demanding f, ∀ r y, s.part.record m.slot = some r → r.session = some y →
            ∃ r', t.part.record m.slot = some r' ∧ r'.session = some { y with phase := .paused, pause := .trip }) ∧
        (level = true → x.tripEnabled = true → (x.state = .normal ∨ x.state = .recovering) →
          (t.part.feeder f).state = .tripped ∧ (t.part.feeder f).recovery = none ∧
          (t.part.feeder f).sticky.tripSeen = true ∧ ∀ b ∈ t.part.baysOfFeeder f, (t.part.bay b).limit = 0) ∧
        (level = false → x.state = .tripped → (t.part.feeder f).state = .recovering ∧
          (t.part.feeder f).recovery = some (now + s.part.settings.recoveryDelay * 1000000)) ∧
        ((level = true → x.tripEnabled = false ∨ x.state = .unused ∨ x.state = .tripped) →
          (level = false → x.state ≠ .tripped) →
          (t.part.feeder f).state = x.state ∧ (t.part.feeder f).recovery = x.recovery))) ∧
  (∀ (s : State) (f : FeederId) (time : Nat), (s.part.trip f).since = none →
    exec (.debounce f.val time) s = .next (s.withPart { s.part with time := max s.part.time time }).complete) ∧
  (∀ (s : State) (f : FeederId) (time : Nat),
    let now := max s.part.time time
    let p : Part := { s.part with time := now }
    let x := s.part.feeder f
    (∀ e, x.recovery = some e → e ≤ now → exec (.recoveryTimer f.val time) s = .next (s.withPart
      ((p.setFeeder f { x with state := .normal, recovery := none, notice := true }).recompute f).retryDue).complete) ∧
    ((∀ e, x.recovery = some e → now < e) → exec (.recoveryTimer f.val time) s = .next (s.withPart p).complete)))

/-! ## The clock and the timed events -/

/-- TICK: the second count advances and wraps from 59 to 0; with the clock SET the wrap advances the minute count, whose
events are then outstanding; the Session Unit and the Share Unit have the tick to take (R19). The minute after the
largest count is free (log 16). MINUTE_EVENT: while the clock is UNSET nothing happens; otherwise the events of a minute
that a tick has begun are taken, or, at second 59, the minute count advances first (R19, log 5); every timed event due
in the minute is taken, one after another, until none is due, after the idle conditions of the ACTIVE posts (log 18);
afterwards none is outstanding, and no configuration has changed (R23, R24). That the units' handling of a tick and the
events of a minute stay outstanding until their own commands or the next tick is the model's choice (log 3). -/
def Obligations.TickAndMinuteMoveTheClock : Prop :=
  (∀ (s : State) (time : Nat), s.part.clock.second ≤ 59 → s.part.clock.minute < 4294967295 →
    ∃ t, exec (.tick time) s = .next t ∧
      t.part.time = max s.part.time time ∧
      t.part.clock.second = (if s.part.clock.second = 59 then 0 else s.part.clock.second + 1) ∧
      t.part.clock.set = s.part.clock.set ∧
      t.part.clock.minute = (if s.part.clock.set = true ∧ s.part.clock.second = 59 then s.part.clock.minute + 1
        else s.part.clock.minute) ∧
      (s.part.clock.set = true → s.part.clock.second = 59 → t.part.outstanding.minute = true) ∧
      t.part.outstanding.session = true ∧ t.part.outstanding.share = true) ∧
  (∀ s : State,
    (s.part.clock.set = false → exec .minuteEvent s = .next s.complete) ∧
    (s.part.clock.set = true → s.part.outstanding.minute = false → s.part.clock.second ≠ 59 →
      exec .minuteEvent s = .next s.complete) ∧
    (s.part.clock.set = true → s.part.outstanding.minute = true →
      ∃ q t, s.part.TakesMinute q ∧ t = (s.withPart q).complete ∧
        exec .minuteEvent s = .next t ∧ t.part.clock.minute = s.part.clock.minute ∧
        t.part.clock.second = s.part.clock.second ∧ t.part.outstanding.minute = false ∧ s.part.SameConfig t.part) ∧
    (s.part.clock.set = true → s.part.outstanding.minute = false → s.part.clock.second = 59 →
      s.part.clock.minute < 4294967295 →
      ∃ q t, Part.TakesMinute { s.part with clock := { s.part.clock with
          minute := s.part.clock.minute + 1, second := 0 } } q ∧ t = (s.withPart q).complete ∧
        exec .minuteEvent s = .next t ∧ t.part.clock.minute = s.part.clock.minute + 1 ∧
        t.part.clock.second = 0 ∧ t.part.outstanding.minute = false ∧ s.part.SameConfig t.part)) ∧
  (∀ p : Part, { p.touchActive with work := p.work } = p ∧
    ∀ q : PostId, q ∈ p.touchActive.work.idle ↔ q ∈ p.work.idle ∨ (p.post q).link = .active)

/-- WINDOW_START: a BOOKED record whose window start has come becomes HELD with last cause WINDOW-START; its window,
its grace end and its bay stay, and the bay derives its condition anew (R38). GRACE_END, WINDOW_END before engagement
and WAITING_DEADLINE close their record by TIMER: NO-SHOW, or EXPIRED from the Waiting List, with the window as it
stood and no session (R107, R40, R93, R42). WINDOW_END of an ENGAGED record: OVERSTAY from now, with OVERSTAYED seen
and the pause cause, the stopped-in phase and the satisfied count cleared; a session in SETTLING is left as it is
(R123, R40). -/
def Obligations.DueRecordsAreHeldClosedOrOverstay : Prop :=
  (∀ (s : State) (k : SlotId) (r : Record) (b : BayId), s.settled → s.part.conditionsCurrent → s.part.clock.set = true →
    s.part.record k = some r → r.state = .booked → r.bay = some b → r.windowStart ≤ s.part.now →
    s.part.pool.partitioned →
    ∃ t r', exec (.windowStart k.val) s = .next t ∧ t.part.record k = some r' ∧
      { r' with notice := r.notice } = { r with state := .held, lastCause := .windowStart } ∧
      t.part.chain b = s.part.chain b ∧
      (s.part.occupant b = none → (s.part.bay b).condition = .free → (t.part.bay b).condition = .reserved) ∧
      (∀ j : BayId, j ≠ b → (t.part.bay j).condition = (s.part.bay j).condition)) ∧
  ((∀ (s : State) (k : SlotId) (r : Record) (c : Instr) (result : Result), s.part.clock.set = true →
    s.part.record k = some r → r.session = none →
    (c = .graceEnd k.val ∧ (r.state = .held ∨ r.state = .arriving) ∧ r.graceEnd ≤ s.part.now ∧ result = .noShow) ∨
    (c = .windowEnd k.val ∧ (r.state = .booked ∨ r.state = .held ∨ r.state = .arriving) ∧ r.endTaken = false ∧
      r.windowEnd ≤ s.part.now ∧ result = .noShow) ∨
    (c = .waitingDeadline k.val ∧ r.state = .waiting ∧ (∃ d, r.deadline = some d ∧ d ≤ s.part.now) ∧
      result = .expired) →
    ∃ t r', exec c s = .next t ∧ t.part.record k = some r' ∧ r'.state = .closing ∧
      r'.close = some {
        handle := (s.part.pool.slot k).generation * 256 + k.val, bay := r.bay, result := result, closedBy := .timer
        windowStart := r.windowStart, windowEnd := r.windowEnd, extensions := r.extensions.length, engaged := none
        closed := s.part.now, within := 0, excess := 0, seen := ⟨false, false, false, false, false⟩, overstay := 0 }) ∧
  (∀ (s : State) (k : SlotId) (r : Record) (x : Session), s.settled → s.part.clock.set = true →
    s.part.record k = some r → r.state = .engaged → r.session = some x → r.endTaken = false →
    r.windowEnd ≤ s.part.now →
    ∃ t r', exec (.windowEnd k.val) s = .next t ∧ t.part.record k = some r' ∧ r'.state = .engaged ∧
      r'.endTaken = true ∧
      (x.phase = .settling → r'.session = some x) ∧
      (x.phase ≠ .settling → x.phase ≠ .overstay → r'.lastCause = .session ∧ r'.session = some { x with
        phase := .overstay, overstayStart := some s.part.now, seen := { x.seen with overstayed := true }
        pause := .none, stoppedIn := none, satisfied := 0 })))

/-- LEAD_CHECK of an upcoming record: on a bay in OUT, DARK, INTRUDED or OVERSTAY the record is relocated; on any
other it is left as it stands. Either way the check is taken (R112, R113, R88). Relocation of an upcoming record off
bay `a` at minute `now`: where the Placement Engine returns bay `c` the record stands on `c` with its start raised to
now, its grace end counted from there and a BOOKED record that has started HELD; with no bay and room in the list it
is demoted, its class one higher and at most 4, its duration what is left of its window, and a free value from 1 to 720
where no minute is left (log 40); with the list full it closes DISPLACED by RELOCATION (R113, R114, R88); a record whose
window end has come is closed NO-SHOW by it in place of all this (log 23). A blocking event walks the bay's chain from
head to tail and relocates each record before engagement that starts by now plus the lead, and every one for the cause
BAY-SERVICE OUT; each of them leaves the bay or is closed, and no other record changes (R111). A retry of the Waiting
List scans it from head to tail: a record for which the engine finds a bay at the larger of its start and now is placed
there for its whole duration, BOOKED or HELD, and any other stays as it is; it is taken where one is due and not
otherwise (R89 to R92). The completion of an event takes, in this order, the walks of the blocking events reported, the
lead checks due at once, one retry where one is due, the idle conditions of the posts concerned and the next exchange,
and it leaves nothing to do (R90, R111, R112, R161, R151). The places of three of these are the model's choice: that a
walk comes after all that the event itself writes (log 14, 38); that the idle conditions are evaluated once, at the end
of the event and after the retry, where R161 says at each change of an input (log 18); that the next exchange opens
after all of them, where R151 says when the previous one ends (log 20). A lead check taken at once relocates a record
before engagement whose bay is blocked and leaves every other (R112). The idle condition of an ACTIVE post that ceases
stops its idle timer; one that holds with the timer not running for it and the clock SET starts it, due after the idle
time; no other post is concerned (R161). -/
def Obligations.LeadCheckRelocatesOffABlockedBay : Prop :=
  (∀ (s : State) (k : SlotId) (r : Record) (b : BayId), s.part.clock.set = true → s.part.record k = some r →
    r.state.upcoming = true → r.leadTaken = false → r.windowStart ≤ s.part.now + s.part.settings.lead →
    r.bay = some b →
    let c := (s.part.bay b).condition
    let p := s.part.put k { r with leadTaken := true }
    (c ≠ .out → c ≠ .dark → c ≠ .intruded → c ≠ .overstay →
      exec (.leadCheck k.val) s = .next (s.withPart p).complete) ∧
    (c = .out ∨ c = .dark ∨ c = .intruded ∨ c = .overstay →
      exec (.leadCheck k.val) s = .next (s.withPart (p.relocate k)).complete)) ∧
  (∀ (p : Part) (k : SlotId) (r : Record) (a : BayId), p.record k = some r → r.state.upcoming = true → r.bay = some a →
    let start := max r.windowStart p.now
    let found := p.place ⟨start, r.windowEnd, r.ctype, r.eligible, r.preferred, none, some a, some k⟩
    (p.clock.set = true → r.windowEnd ≤ p.now → ∃ r' c, (p.relocate k).record k = some r' ∧ r'.state = .closing ∧
      r'.close = some c ∧ c.result = .noShow ∧ c.closedBy = .timer ∧ c.bay = some a ∧ c.windowEnd = r.windowEnd) ∧
    (p.clock.set = false ∨ p.now < r.windowEnd →
    (∀ c, found = some c → ∃ r', (p.relocate k).record k = some r' ∧
      { r' with leadTaken := false, wakeTaken := false } = { r with
        bay := some c, windowStart := start, graceEnd := min (start + r.grace) r.windowEnd
        state := if r.state = .booked ∧ start ≤ p.now then .held else r.state
        notice := true, lastCause := .relocated, leadTaken := false, wakeTaken := false }) ∧
    (found = none → p.pool.waiting.length < 32 → ∃ n, 1 ≤ n ∧ (start < r.windowEnd → n = r.windowEnd - start) ∧
      (r.windowEnd ≤ start → n ≤ 720) ∧ (p.relocate k).record k = some { r with
        state := .waiting, bay := none, priority := min (r.priority + 1) 4, windowStart := start
        duration := n, graceEnd := min (start + r.grace) r.windowEnd
        deadline := some (start + r.grace), extensions := [], notice := true, lastCause := .demoted }) ∧
    (found = none → 32 ≤ p.pool.waiting.length → ∃ r' c, (p.relocate k).record k = some r' ∧ r'.state = .closing ∧
      r'.close = some c ∧ c.result = .displaced ∧ c.closedBy = .relocation ∧ c.bay = some a ∧
      c.windowStart = r.windowStart ∧ c.windowEnd = r.windowEnd))) ∧
  (∀ (p : Part) (b : BayId) (service : Bool),
    let meets (q : Part) (k : SlotId) : Bool := q.recordIs (fun r => r.state.upcoming && r.bay = some b &&
      (service || r.windowStart ≤ q.now + q.settings.lead)) k
    let t := p.walkBlocked ⟨b, service⟩
    t = (p.chain b).foldl (fun q k => if meets q k = true then q.relocate k else q) p ∧
    (∀ k r, p.record k = some r →
      (k ∈ p.chain b ∧ meets p k = true → ∃ r', t.record k = some r' ∧ (r'.state = .closing ∨ r'.bay ≠ some b)) ∧
      (¬ (k ∈ p.chain b ∧ meets p k = true) → t.record k = some r))) ∧
  (∀ p : Part, p.retry = p.pool.waiting.foldl Part.tryWaiting p ∧
    (p.work.retry = false → p.takeRetry = p) ∧
    (p.work.retry = true → p.takeRetry =
      { p.retry.takeLeads with work := { p.retry.takeLeads.work with retry := false } }) ∧
    ∀ (k : SlotId) (r : Record), p.record k = some r →
      let start := max r.windowStart p.now
      let found := p.place ⟨start, start + r.duration, r.ctype, r.eligible, r.preferred, none, none, none⟩
      (r.state ≠ .waiting → p.tryWaiting k = p) ∧
      (r.state = .waiting → found = none → p.tryWaiting k = p) ∧
      (∀ b, r.state = .waiting → found = some b → (p.tryWaiting k).record k = some { r with
        state := if p.now < start then .booked else .held
        bay := some b, windowStart := start, windowEnd := start + r.duration
        graceEnd := min (start + r.grace) (start + r.duration), notice := true, lastCause := .placed, endTaken := false
        leadTaken := p.clock.set && decide (start ≤ p.now + p.settings.lead)
        wakeTaken := p.clock.set && decide (start ≤ p.now + p.settings.standbyLead) } ∧
        (∀ j, j ≠ k → (p.tryWaiting k).record j = p.record j))) ∧
  (∀ p : Part,
    let walked := p.work.blocked.foldl Part.walkBlocked { p with work := { p.work with blocked := [] } }
    let checked := walked.work.leads.foldl Part.leadCheck { walked with work := { walked.work with leads := [] } }
    let retried := checked.takeRetry
    let judged := retried.work.idle.foldl Part.evalIdle { retried with work := { retried.work with idle := [] } }
    p.finish = { judged.takeExchange with work := Work.empty }) ∧
  (∀ (p : Part) (k : SlotId),
    let moves : Prop := ∃ r b, p.record k = some r ∧ r.state.upcoming = true ∧ r.bay = some b ∧
      ((p.bay b).condition = .out ∨ (p.bay b).condition = .dark ∨ (p.bay b).condition = .intruded ∨
        (p.bay b).condition = .overstay)
    (moves → p.leadCheck k = p.relocate k) ∧ (¬ moves → p.leadCheck k = p)) ∧
  (∀ (p : Part) (q : PostId),
    let x := p.post q
    let starts : Prop := p.idleHolds q = true ∧ p.clock.set = true
    (x.link ≠ .active → p.evalIdle q = p) ∧
    (∀ due, x.link = .active → x.timer = .idle due →
      (p.idleHolds q = true → p.evalIdle q = p) ∧
      (p.idleHolds q = false → p.evalIdle q = p.setPost q { x with timer := .stopped })) ∧
    (x.link = .active → (∀ due, x.timer ≠ .idle due) →
      (starts → p.evalIdle q = p.setPost q { x with timer := .idle (p.now + p.settings.idleTime) }) ∧
      (¬ starts → p.evalIdle q = p)))

/-- WAKE_CHECK of an upcoming record: a post in STANDBY that carries its bay becomes WAKING for at most 3 s at a time; a
post in any other state is left as it is (R164, R162). VERIFY_EXPIRY of a due timer: it is EXPIRED, and the bay derives
its condition anew (R100). IDLE_TIMER of a due timer: the ACTIVE post becomes STANDBY when its idle condition holds, and
its timer stops; the condition holds when the idle time is not 0, every configured bay of the post is FREE or OUT, and
no record on their chains starts by now plus the standby lead (R161). ROLLOVER when the day number has grown: it is
stored, and every tally counter is cleared (R25, R64). A timed event that is not due has no effect: its command only
completes (R23, log 7). -/
def Obligations.WakeBayPostAndClockEventsActWhenDue : Prop :=
  (∀ (s : State) (k : SlotId) (r : Record) (b : BayId), s.part.clock.set = true → s.part.record k = some r →
    r.state.upcoming = true → r.wakeTaken = false → r.windowStart ≤ s.part.now + s.part.settings.standbyLead →
    r.bay = some b →
    let q := (s.part.bay b).post
    let p := s.part.put k { r with wakeTaken := true }
    exec (.wakeCheck k.val) s = .next (s.withPart
      (if (s.part.post q).link = .standby then
        p.setPost q { s.part.post q with
          link := .waking, timer := .wake (s.part.time + 3000000), notice := true }
      else p)).complete) ∧
  ((∀ s : State, s.part.clock.set = true →
    (∀ (b : BayId) (due : Nat), (s.part.bay b).verify = .running due → due ≤ s.part.now →
      exec (.verifyExpiry b.val) s =
        .next (s.withPart ((s.part.setBay b { s.part.bay b with verify := .expired }).derive b)).complete) ∧
    (∀ (q : PostId) (due : Nat), (s.part.post q).link = .active → (s.part.post q).timer = .idle due →
      due ≤ s.part.now →
      exec (.idleTimer q.val) s = .next (s.withPart (s.part.setPost q
        (if s.part.idleHolds q = true then { s.part.post q with link := .standby, timer := .stopped, notice := true }
        else { s.part.post q with timer := .stopped }))).complete) ∧
    (∀ d : Int, s.part.clock.lastDay = some d →
      d < ((s.part.clock.minute : Int) - s.part.settings.rolloverMinute) / 1440 → s.settled →
      ∃ t, exec .rollover s = .next t ∧
        t.part.clock = { s.part.clock with
          lastDay := some (((s.part.clock.minute : Int) - s.part.settings.rolloverMinute) / 1440) } ∧
        (∀ r : RuleId, (t.part.rule r).counter = 0 ∧ (t.part.rule r).groups = (s.part.rule r).groups) ∧
        t.part.lanes = s.part.lanes)) ∧
  (∀ (s : State) (c : Instr) (e : Timed),
    (∃ k, (c = .leadCheck k.val ∧ e = .leadCheck k) ∨ (c = .wakeCheck k.val ∧ e = .wakeCheck k) ∨
      (c = .windowStart k.val ∧ e = .windowStart k) ∨ (c = .graceEnd k.val ∧ e = .graceEnd k) ∨
      (c = .windowEnd k.val ∧ e = .windowEnd k) ∨ (c = .waitingDeadline k.val ∧ e = .deadline k)) ∨
    (∃ b, c = .verifyExpiry b.val ∧ e = .verify b) ∨ (∃ q, c = .idleTimer q.val ∧ e = .idle q) ∨
    (c = .rollover ∧ e = .rollover) →
    (s.part.clock.set = false ∨ s.part.isDue e = false) → exec c s = .next s.complete) ∧
  (∀ (p : Part) (q : PostId), p.idleHolds q = true ↔ p.settings.idleTime ≠ 0 ∧ ∀ b : BayId,
    (p.bay b).configured = true → (p.bay b).post = q →
    ((p.bay b).condition = .free ∨ (p.bay b).condition = .out) ∧
    ∀ k r, k ∈ p.chain b → p.record k = some r → p.now + p.settings.standbyLead < r.windowStart))

/-! ## The bay link -/

/-- ROUND_START: a round begins once no exchange is in progress and 250 ms have passed since the last one began, or at
once after a reset; the round count advances, wrapping from 9 to 0, the start time is now, and the lowest due address
is visited; otherwise nothing changes (R151). Where an exchange has ended or been cut, its post is the last address
visited, and the completion of the event opens the exchange with the lowest due address above it; with none the round
ends, and no exchange is in progress (R151, R152, log 20). The command of a post, byte by byte: its address, its
sequence and the kind of its link state, the limits of its two sockets in a RUN command and 0 in every other, the
indicators of its two sockets, and the CRC-8 (R153, R181, R9). -/
def Obligations.RoundStartSendsTheLowestDuePostItsCommand : Prop :=
  (∀ (s : State) (time : Nat), s.settled →
    let now := max s.part.time time
    let p : Part := { s.part with time := now }
    let may : Prop := s.part.link.exchange = none ∧
      (s.part.link.first = true ∨ s.part.link.roundStart + 250000 ≤ now)
    let count := (s.part.link.roundCount + 1) % 10
    let due (q : PostId) : Prop := (s.part.post q).inUse = true ∧ (s.part.post q).link ≠ .absent ∧
      ((s.part.post q).link = .standby → count = 0)
    (¬ may → exec (.roundStart time) s = .next (s.withPart p).complete) ∧
    (may → (∀ q, ¬ due q) → exec (.roundStart time) s =
      .next (s.withPart { p with link := ⟨count, now, false, none, none⟩ }).complete) ∧
    (∀ q, may → due q → (∀ j, due j → q ≤ j) → exec (.roundStart time) s =
      .next (s.withPart { p with
        link := ⟨count, now, false, none, some ⟨q, (s.part.post q).seq, s.part.commandFor q, none⟩⟩ }).complete)) ∧
  (∀ (p : Part) (q : PostId),
    let x := p.post q
    let kind : Nat := match x.link with
      | .seeking | .isolated | .lost | .absent => 0
      | .preparing => 1
      | .active => 2
      | .standby => 3
      | .waking => 4
    let limit (k : Socket) : Nat := match x.link, p.boundBay q k with
      | .active, some b => (p.bay b).limit
      | _, _ => 0
    let lamp (k : Socket) : Nat := match p.boundBay q k with
      | some b => match (p.bay b).condition with
        | .free => 0
        | .reserved => 1
        | .unverified => 2
        | .inUse => 3
        | .intruded | .overstay => 4
        | .out | .dark => 5
      | none => 5
    let bytes := u8 q.val ++ u8 (x.seq * 16 + kind) ++ u16 (limit .a) ++ u16 (limit .b) ++ u8 (lamp .a * 16 + lamp .b)
    p.commandFor q = bytes ++ [crc8 bytes]) ∧
  (∀ p : Part,
    let due (q : PostId) : Prop := (p.post q).inUse = true ∧ (p.post q).link ≠ .absent ∧
      ((p.post q).link = .standby → p.link.roundCount = 0) ∧ ∀ v, p.link.lastVisited = some v → v < q
    let opened (q : PostId) : Link := { p.link with exchange := some ⟨q, (p.post q).seq, p.commandFor q, none⟩ }
    (p.work.nextExchange = false → p.takeExchange = p) ∧
    (p.work.nextExchange = true → (∀ q, ¬ due q) →
      p.takeExchange = { p with work := { p.work with nextExchange := false } }) ∧
    (∀ q, p.work.nextExchange = true → due q → (∀ j, due j → q ≤ j) →
      p.takeExchange = { p with link := opened q, work := { p.work with nextExchange := false } }) ∧
    (p.work = { Work.empty with nextExchange := true } →
      ((∀ q, ¬ due q) → p.finish = { p with work := Work.empty }) ∧
      (∀ q, due q → (∀ j, due j → q ≤ j) → p.finish = { p with link := opened q, work := Work.empty }))) ∧
  (∀ (p : Part) (q : PostId),
    let ended : Part := { p with
      link := { p.link with lastVisited := some q, exchange := none }
      work := { p.work with nextExchange := true } }
    p.endExchange q = ended ∧
    ((∃ x, p.link.exchange = some x ∧ x.post = q) → p.cut q = ended) ∧
    ((∀ x, p.link.exchange = some x → x.post ≠ q) → p.cut q = p))

/-- COMMAND_SENT sets the reply deadline 3 ms later. A REPLY of 12 bytes with a matching CRC-8, address and sequence
echo before the deadline is taken and ends the exchange, after which the post is the last address visited; every other
frame leaves the exchange as it is, as a short frame (REPLY_GAP) does. MISS at or after the deadline counts one miss
and ends the exchange (R152, R154, R181). The fields of a reply, byte by byte: the address, the sequence echo and the
fault code, the ready bit, the occupancy and plug bits of both sockets, their readings stored at most 800, and their
caps, of which 0 stays 0 and every other is brought between 60 and 800; a frame of another length or with another
CRC-8 is no reply (R181, R155). That a frame at the very moment of the deadline is late, and a miss at it is due, is
the model's choice (log 2), as is the place of the next exchange, which the completion of the event opens (log 20). -/
def Obligations.ExchangeEndsByValidReplyOrMiss : Prop :=
  (∀ (b0 b1 b2 b3 b4 b5 b6 b7 b8 b9 b10 crc : Byte),
    let l := [b0, b1, b2, b3, b4, b5, b6, b7, b8, b9, b10]
    let reading (h l : Byte) : Nat := min (h.toNat * 256 + l.toNat) 800
    let cap (h l : Byte) : Nat :=
      if h.toNat * 256 + l.toNat = 0 then 0 else min (max (h.toNat * 256 + l.toNat) 60) 800
    (crc ≠ crc8 l → LinkReply.ofBytes (l ++ [crc]) = none) ∧
    (crc = crc8 l → LinkReply.ofBytes (l ++ [crc]) = some {
      address := b0.toNat, seq := b1.toNat / 16, fault := b1.toNat % 16, ready := b2.getLsbD 7
      a := ⟨b2.getLsbD 3, b2.getLsbD 2, reading b3 b4, cap b7 b8⟩
      b := ⟨b2.getLsbD 1, b2.getLsbD 0, reading b5 b6, cap b9 b10⟩ })) ∧
  (∀ bytes : List Byte, bytes.length ≠ 12 → LinkReply.ofBytes bytes = none) ∧
  ∀ (s : State) (time : Nat) (x : Exchange), s.part.link.exchange = some x →
    let now := max s.part.time time
    let p : Part := { s.part with time := now }
    let q := x.post
    let y := s.part.post q
    let close (p : Part) : State := s.withPart { p with
      link := { p.link with lastVisited := some q, exchange := none }
      work := { p.work with nextExchange := true } }
    (x.deadline = none → exec (.commandSent time) s = .next (s.withPart { p with
      link := { p.link with exchange := some { x with deadline := some (now + 3000) } } }).complete) ∧
    (∀ d, x.deadline = some d → exec (.commandSent time) s = .next (s.withPart p).complete) ∧
    (∀ bytes d r, bytes.length = 12 → x.deadline = some d → now < d → LinkReply.ofBytes bytes = some r →
      r.address = q.val → r.seq = x.seq → exec (.reply bytes time) s = .next (close (p.takeReply q r)).complete) ∧
    (∀ bytes, bytes.length = 12 → (x.deadline = none ∨ (∃ d, x.deadline = some d ∧ d ≤ now) ∨
        LinkReply.ofBytes bytes = none ∨
        (∃ r, LinkReply.ofBytes bytes = some r ∧ (r.address ≠ q.val ∨ r.seq ≠ x.seq))) →
      exec (.reply bytes time) s = .next (s.withPart p).complete) ∧
    (∀ bytes, bytes.length < 12 → exec (.replyGap bytes time) s = .next (s.withPart p).complete) ∧
    (∀ d, x.deadline = some d → d ≤ now → exec (.miss time) s = .next (close (p.takeMiss q)).complete) ∧
    (∀ d, x.deadline = some d → now < d → exec (.miss time) s = .next (s.withPart p).complete) ∧
    ((p.takeMiss q).post q = { y with
      valid := 0, misses := min (y.misses + 1) 3, seq := (y.seq + 1) % 16
      link := if 3 ≤ y.misses + 1 ∧ (y.link = .preparing ∨ y.link = .active ∨ y.link = .standby ∨ y.link = .waking)
        then .lost else y.link
      timer := if 3 ≤ y.misses + 1 ∧ (y.link = .preparing ∨ y.link = .active ∨ y.link = .standby ∨ y.link = .waking)
        then .stopped else y.timer
      notice := y.notice || decide (3 ≤ y.misses + 1 ∧
        (y.link = .preparing ∨ y.link = .active ∨ y.link = .standby ∨ y.link = .waking)) })

/-- A valid reply in the post state machine: a fault isolates a post in every state but ISOLATED; two clean replies in a
row take SEEKING and LOST to PREPARING for 5 s; a ready reply takes PREPARING and WAKING to ACTIVE; a reply that changes
the occupancy or the plug of a bay takes STANDBY to WAKING for 3 s (R154, R156 to R158, R160, R162, R163). The values of
each socket are written into the bay bound to it by a clean reply of a post in ACTIVE, STANDBY or WAKING, and by the one
that takes it from PREPARING to ACTIVE; a post in SEEKING, LOST, ISOLATED or ABSENT, one that stays PREPARING, and a
reply with a fault write nothing, and no reply writes a bay of another post (R155, R157). That a reply of a post in
ISOLATED changes no session either, be its reading below 10, is the model's choice (log 39). -/
def Obligations.ValidReplyDrivesThePostState : Prop :=
  ∀ (p : Part) (q : PostId) (r : LinkReply),
    let x := p.post q
    let t := p.takeReply q r
    (t.post q).misses = 0 ∧ (t.post q).valid = min (x.valid + 1) 2 ∧ (t.post q).seq = (x.seq + 1) % 16 ∧
    (t.post q).fault = r.fault ∧
    (r.fault ≠ 0 → x.link ≠ .isolated → x.link ≠ .absent →
      (t.post q).link = .isolated ∧ (t.post q).cause = .postFault ∧ (t.post q).timer = .stopped) ∧
    (r.fault = 0 → (x.link = .seeking ∨ x.link = .lost) →
      (x.valid = 0 → (t.post q).link = x.link) ∧
      (1 ≤ x.valid → (t.post q).link = .preparing ∧ (t.post q).timer = .prepare (p.time + 5000000))) ∧
    (r.fault = 0 → x.link = .preparing → (t.post q).link = if r.ready = true then .active else .preparing) ∧
    (r.fault = 0 → x.link = .waking → (t.post q).link = (if r.ready = true then .active else .waking) ∧
      (r.ready = true → (t.post q).slowWakes = 0 ∧ (t.post q).timer = .stopped) ∧
      (r.ready = false → (t.post q).slowWakes = x.slowWakes ∧ (t.post q).timer = x.timer)) ∧
    (r.fault = 0 → x.link = .active → (t.post q).link = .active) ∧
    (x.link = .isolated → t = p.setPost q { x with
      misses := 0, valid := min (x.valid + 1) 2, fault := r.fault, seq := (x.seq + 1) % 16
      notice := x.notice || decide (x.fault ≠ r.fault) }) ∧
    let value (k : Socket) : SocketReading := match k with
      | .a => r.a
      | .b => r.b
    let occupancy (k : Socket) : Occupancy := if (value k).occupied = true then .occupied else .vacant
    let plug (k : Socket) : Plug := if (value k).plugged = true then .plugged else .unplugged
    let changes : Prop := ∃ k b, p.boundBay q k = some b ∧
      ((p.bay b).occupancy ≠ occupancy k ∨ (p.bay b).plug ≠ plug k)
    let writes : Prop := r.fault = 0 ∧ (x.link = .active ∨ x.link = .standby ∨ x.link = .waking ∨
      (x.link = .preparing ∧ r.ready = true))
    (r.fault = 0 → x.link = .standby →
      (changes → (t.post q).link = .waking ∧ (t.post q).timer = .wake (p.time + 3000000)) ∧
      (¬ changes → (t.post q).link = .standby ∧ (t.post q).timer = x.timer)) ∧
    (∀ k b, writes → p.boundBay q k = some b →
      (t.bay b).occupancy = occupancy k ∧ (t.bay b).plug = plug k ∧ (t.bay b).reading = (value k).reading ∧
      (t.bay b).cap = (value k).cap) ∧
    (∀ b, (¬ writes ∨ ∀ k, p.boundBay q k ≠ some b) →
      (t.bay b).occupancy = (p.bay b).occupancy ∧ (t.bay b).plug = (p.bay b).plug ∧
      (t.bay b).reading = (p.bay b).reading ∧ (t.bay b).cap = (p.bay b).cap)

/-- PREPARE_LIMIT and WAKE_LIMIT at or after their expiry: a post still preparing is isolated with PREPARE-TIMEOUT; a
post still waking has its slow-wake count raised, and a further 3 s, or at 3 is isolated with WAKE-FAULT. SETTLE_TIMER
at or after its expiry closes the session STOPPED by its settle cause. Before the expiry nothing changes (R157, R163,
R126). A post that leaves the serviceable states, lost, isolated or sought again: each of its bays becomes DARK, or
stays OUT, with its verify timer IDLE, its occupancy and plug kept and, from neither DARK nor OUT, its limit 0 by the
recompute of its feeder within the event; a bay that was not blocked raises its blocking event; a session in SETTLING
closes STOPPED by LINK, one in OVERSTAY or HALTED stays, and any other is HALTED in its phase. On LOST alone, from
PREPARING as well, the readings and the caps become 0 and METER-GAP is set where a record is ENGAGED (R159, R121, R146,
R97, R111). -/
def Obligations.LinkAndSettleLimitsAct : Prop :=
  (∀ (s : State) (time : Nat),
    let now := max s.part.time time
    let p : Part := { s.part with time := now }
    (∀ (q : PostId) (e : Nat), (s.part.post q).timer = .prepare e →
      (now < e → exec (.prepareLimit q.val time) s = .next (s.withPart p).complete) ∧
      (e ≤ now → ∃ t, exec (.prepareLimit q.val time) s = .next t ∧ (t.part.post q).link = .isolated ∧
        (t.part.post q).cause = .prepareTimeout ∧ (t.part.post q).timer = .stopped)) ∧
    (∀ (q : PostId) (e : Nat), (s.part.post q).timer = .wake e →
      let x := s.part.post q
      (now < e → exec (.wakeLimit q.val time) s = .next (s.withPart p).complete) ∧
      (e ≤ now → x.slowWakes < 2 → exec (.wakeLimit q.val time) s = .next (s.withPart (p.setPost q { x with
        slowWakes := x.slowWakes + 1, timer := .wake (now + 3000000), notice := true })).complete) ∧
      (e ≤ now → x.slowWakes = 2 → ∃ t, exec (.wakeLimit q.val time) s = .next t ∧ (t.part.post q).link = .isolated ∧
        (t.part.post q).cause = .wakeFault ∧ (t.part.post q).timer = .stopped ∧ (t.part.post q).slowWakes = 3)) ∧
    (∀ (k : SlotId) (r : Record) (x : Session) (z : Settle), s.part.record k = some r → r.state = .engaged →
      r.session = some x → x.settle = some z →
      (now < z.expiry → exec (.settleTimer k.val time) s = .next (s.withPart p).complete) ∧
      (z.expiry ≤ now → ∃ t r' c, exec (.settleTimer k.val time) s = .next t ∧ t.part.record k = some r' ∧
        r'.state = .closing ∧ r'.close = some c ∧ c.result = .stopped ∧
        c.closedBy = (match z.cause with
          | .departed => .departed
          | .host => .host
          | .service => .service) ∧
        c.within = x.within ∧ c.excess = x.excess ∧ c.engaged = some x.engaged))) ∧
  (∀ (p t : Part) (q : PostId), p.pool.partitioned → (p.post q).inUse = true →
    ((p.post q).link = .active ∨ (p.post q).link = .standby ∨ (p.post q).link = .waking) →
    (t = p.lose q ∨ (∃ c, t = p.isolate q c) ∨ t = p.reseek q) →
    ∀ b : BayId, (p.bay b).configured = true → (p.bay b).post = q →
      let x := p.bay b
      (t.bay b).condition = (if x.service = .out then .out else .dark) ∧ (t.bay b).verify = .idle ∧
      (t.bay b).occupancy = x.occupancy ∧ (t.bay b).plug = x.plug ∧
      (x.condition ≠ .out → x.condition ≠ .dark → (p.feeder x.feeder).state ≠ .unused → (t.bay b).limit = 0) ∧
      (x.service = .inService → x.condition ≠ .out → x.condition ≠ .dark → x.condition ≠ .intruded →
        x.condition ≠ .overstay → ⟨b, false⟩ ∈ t.work.blocked) ∧
      ∀ k r y, p.occupant b = some k → p.record k = some r → r.bay = some b → r.session = some y →
        (y.phase = .settling → ∃ r' c, t.record k = some r' ∧ r'.state = .closing ∧ r'.close = some c ∧
          c.result = .stopped ∧ c.closedBy = .link ∧ c.within = y.within ∧ c.excess = y.excess) ∧
        (y.phase = .overstay ∨ y.phase = .halted → t.record k = some r) ∧
        (y.phase ≠ .settling → y.phase ≠ .overstay → y.phase ≠ .halted →
          t.record k = some { r with notice := true, lastCause := .session, session := some { y with
            phase := .halted, stoppedIn := some y.phase, pause := .none, satisfied := 0
            seen := { y.seen with halted := true } } })) ∧
  (∀ (p : Part) (q : PostId),
    (∀ b : BayId, (p.bay b).configured = true → (p.bay b).post = q →
      ((p.lose q).bay b).reading = 0 ∧ ((p.lose q).bay b).cap = 0 ∧
      (p.occupant b ≠ none → ((p.lose q).feeder (p.bay b).feeder).sticky.meterGap = true)) ∧
    (∀ t, (t = p.reseek q ∨ ∃ c, t = p.isolate q c) →
      (∀ b : BayId, (t.bay b).reading = (p.bay b).reading ∧ (t.bay b).cap = (p.bay b).cap) ∧
      ∀ f : FeederId, (t.feeder f).sticky.meterGap = (p.feeder f).sticky.meterGap))

/-! ## The rules behind the commands -/

/-- What a valid reply whose values are written (log 39) does to the session of an ENGAGED record: in SETTLING a reading below 10 closes it COMPLETE by
its settle cause and any other reading leaves it; in every other phase a bay read VACANT and UNPLUGGED enters SETTLING
as a departure, a plug-in takes PLUG-WAIT to CHARGE, or to PAUSED for OVERDRAW while a penalty runs, or to QUOTA-MET
when the quota is met, and an unplugging takes CHARGE, PAUSED, QUOTA-MET and SATISFIED to PLUG-WAIT (R119, R124, R126).
An occupancy event of a bay without an ENGAGED record: OCCUPIED engages the ARRIVING record of its chain, or starts an
IDLE verify timer for the verify window; VACANT sets the timer IDLE; with an ENGAGED record neither touches timer or
records; the condition follows (R97 to R99, R101). The close of an ENGAGED record ends the bay's penalty, and by
DEPARTED on an OCCUPIED bay it is an OCCUPIED report for the bay; any other close leaves the timer and the other records
(R102, R41). -/
def Obligations.RepliesPlugSettleAndCompleteSessions : Prop :=
  (∀ (p : Part) (b : BayId) (v : SocketReading) (changed : Bool) (k : SlotId) (r : Record) (x : Session),
    p.occupant b = some k → p.record k = some r → r.session = some x →
    let t := p.sessionReply b v changed
    let becomes (y : Session) : Prop := ∃ r', t.record k = some r' ∧ r'.session = some y ∧ r'.state = r.state ∧
      r'.lastCause = .session ∧ r'.notice = true
    (∀ z, x.phase = .settling → x.settle = some z → v.reading < 10 → ∃ r' c, t.record k = some r' ∧
      r'.state = .closing ∧ r'.close = some c ∧ c.result = .complete ∧ c.within = x.within ∧ c.excess = x.excess ∧
      c.closedBy = (match z.cause with
        | .departed => .departed
        | .host => .host
        | .service => .service)) ∧
    (x.phase = .settling → 10 ≤ v.reading → t = p) ∧
    (x.phase ≠ .settling → v.occupied = false → v.plugged = false → becomes { x with
      phase := .settling, settle := some ⟨.departed, p.time + 30000000⟩, stoppedIn := none, pause := .none
      satisfied := 0 }) ∧
    (x.phase = .plugWait → v.plugged = true → changed = true →
      (r.quota = some x.within → becomes { x with phase := .quotaMet, satisfied := 0 }) ∧
      (r.quota ≠ some x.within → (p.bay b).penalty = 0 →
        becomes { x with phase := .charge, pause := .none, satisfied := 0 }) ∧
      (r.quota ≠ some x.within → 0 < (p.bay b).penalty →
        becomes { x with phase := .paused, pause := .overdraw, satisfied := 0 })) ∧
    ((x.phase = .charge ∨ x.phase = .paused ∨ x.phase = .quotaMet ∨ x.phase = .satisfied) → v.occupied = true →
      v.plugged = false → changed = true → becomes { x with phase := .plugWait, satisfied := 0, pause := .none }) ∧
    (x.phase ≠ .settling → (v.occupied = true ∨ v.plugged = true) → changed = false → t = p)) ∧
  (∀ (p : Part) (b : BayId) (occupied : Bool),
    let x := p.bay b
    let t := p.occupancyEvent b occupied
    let arriving (k : SlotId) : Bool := p.recordIs (fun r => r.state = .arriving) k
    (t.bay b).condition = t.conditionOf b ∧
    (p.occupant b ≠ none → (t.bay b).verify = x.verify ∧ t.pool = p.pool) ∧
    (p.occupant b = none → occupied = false → (t.bay b).verify = .idle ∧ t.pool = p.pool) ∧
    (p.occupant b = none → occupied = true → (∀ k ∈ p.chain b, arriving k = false) → t.pool = p.pool ∧
      (t.bay b).verify = (if x.verify = .idle then .running (p.now + p.settings.verifyWindow) else x.verify)) ∧
    (∀ k r, p.occupant b = none → occupied = true → k ∈ p.chain b → p.record k = some r → r.state = .arriving →
      r.bay = some b → (∀ j ∈ p.chain b, j ≠ k → arriving j = false) → (t.bay b).verify = .idle ∧
      ∃ y, t.record k = some { r with
          state := .engaged, session := some y, notice := true, lastCause := .occupancy } ∧ y.engaged = p.now ∧
        y.phase = (if p.plugOf b = .plugged then (if 0 < x.penalty then .paused else .charge) else .plugWait))) ∧
  (∀ (p : Part) (b : BayId) (k : SlotId) (r : Record) (result : Result) (closedBy : ClosedBy), p.pool.partitioned →
    p.record k = some r → r.state = .engaged → r.bay = some b →
    (∀ j ∈ p.chain b, j ≠ k → p.recordIs (fun y => y.state = .engaged) j = false) →
    let t := p.closeRecord k result closedBy
    let next : Prop := closedBy = .departed ∧ p.occupancyOf b = .occupied
    let arriving (j : SlotId) : Bool := p.recordIs (fun y => y.state = .arriving) j
    (t.bay b).penalty = 0 ∧ (∃ r', t.record k = some r' ∧ r'.state = .closing) ∧
    (¬ next → (t.bay b).verify = (p.bay b).verify ∧ ∀ j, j ≠ k → t.record j = p.record j) ∧
    (next → (∀ j ∈ p.chain b, arriving j = false) → (∀ j, j ≠ k → t.record j = p.record j) ∧
      (t.bay b).verify =
        (if (p.bay b).verify = .idle then .running (p.now + p.settings.verifyWindow) else (p.bay b).verify)) ∧
    (∀ j y, next → j ∈ p.chain b → p.record j = some y → y.state = .arriving → y.bay = some b →
      (∀ i ∈ p.chain b, i ≠ j → arriving i = false) → (t.bay b).verify = .idle ∧
      ∃ z, t.record j = some { y with
        state := .engaged, session := some z, notice := true, lastCause := .occupancy } ∧ z.engaged = p.now))

/-- The condition of a bay is the first entry of R7's table whose test holds, OUT for an unconfigured bay; a derivation
that finds it changed stores it, flags the bay, reports a blocking event on entry to OUT, DARK, INTRUDED or OVERSTAY from
outside the four, and a possible change of the demanding set on passing into or out of OUT and DARK; one that finds it
unchanged has no effect (R7, R8). -/
def Obligations.ConditionIsTheFirstTestThatHolds : Prop :=
  ∀ (p : Part) (b : BayId),
    let x := p.bay b
    let serviceable := (p.post x.post).inUse = true ∧
      ((p.post x.post).link = .active ∨ (p.post x.post).link = .standby ∨ (p.post x.post).link = .waking)
    let held : Prop := ∃ k r, k ∈ p.chain b ∧ p.record k = some r ∧ (r.state = .held ∨ r.state = .arriving)
    let c := p.conditionOf b
    (x.configured = false ∨ x.service = .out → c = .out) ∧
    (x.configured = true → x.service = .inService →
      (¬ serviceable → c = .dark) ∧
      (serviceable → ∀ k, p.occupant b = some k →
        ((∃ r y, p.record k = some r ∧ r.session = some y ∧ y.phase = .overstay) → c = .overstay) ∧
        (¬ (∃ r y, p.record k = some r ∧ r.session = some y ∧ y.phase = .overstay) → c = .inUse)) ∧
      (serviceable → p.occupant b = none →
        (x.occupancy = .occupied → (∀ due, x.verify = .running due → c = .unverified) ∧
          (x.verify = .idle ∨ x.verify = .expired → c = .intruded)) ∧
        (x.occupancy ≠ .occupied → (held → c = .reserved) ∧ (¬ held → c = .free)))) ∧
    (c = x.condition → p.derive b = p) ∧
    (c ≠ x.condition →
      ((p.derive b).bay b) = { x with condition := c, notice := true } ∧
      (p.derive b).work.blocked = p.work.blocked ++
        (if (c = .out ∨ c = .dark ∨ c = .intruded ∨ c = .overstay) ∧ x.condition ≠ .out ∧ x.condition ≠ .dark ∧
          x.condition ≠ .intruded ∧ x.condition ≠ .overstay then [⟨b, false⟩] else []) ∧
      (¬ ((c = .out ∨ c = .dark) ↔ (x.condition = .out ∨ x.condition = .dark)) →
        ((p.derive b).feeder x.feeder).recomputeDue = true) ∧
      (∀ j, j ≠ b → (p.derive b).bay j = p.bay j) ∧ (p.derive b).pool = p.pool)

/-- A bay fits a window when every other record on its chain ends a guard before it or starts a guard after it, and its
feeder carries the window when at every minute of it fewer chained records of the feeder's bays than the cap contain the
minute; the moving record is not counted (R76, R77). -/
def Obligations.FitAndConcurrencyTestsAreThoseOfEveryMinute : Prop :=
  ∀ (p : Part) (c : Call) (b : BayId) (f : FeederId) (start stop : Nat),
    (p.fits c b = true ↔ ∀ k r, k ∈ p.chain b → c.moving ≠ some k → p.record k = some r →
      r.windowEnd + p.settings.guard ≤ c.start ∨ c.stop + p.settings.guard ≤ r.windowStart) ∧
    (p.carries f c.moving start stop = true ↔ ∀ m, start ≤ m → m < stop →
      (((List.finRange 64).filter (fun j => (p.bay j).configured && (p.bay j).feeder = f)).map (fun j =>
        ((p.chain j).filter (fun k => c.moving ≠ some k && p.recordIs (fun r =>
          r.windowStart ≤ m && m < r.windowEnd) k)).length)).sum < (p.feeder f).concurrency)

/-- The engine's bay passes every test, no bay that passes is better by preference, lead gap and number, and none is
returned only when none passes (R74, R78). A bay passes as a candidate of R75 that fits and whose feeder carries the
window (R76, R77). Its lead gap is what lies between its last earlier record, with the guard, and the start; without
one, between now and the start; never below 0 (R78). -/
def Obligations.PlacementReturnsTheBestPassingBay : Prop :=
  ∀ (p : Part) (c : Call),
    (p.place c = none ↔ ∀ b, p.passes c b = false) ∧
    (∀ b, p.place c = some b → p.passes c b = true ∧
      (c.eligible.getLsbD b.val = true ∧ (p.bay b).configured = true ∧ (p.bay b).ctype = c.ctype ∧
        (p.bay b).condition ≠ .out ∧ c.excluded ≠ some b ∧ (c.pinned = none ∨ c.pinned = some b)) ∧
      ∀ j, j ≠ b → p.passes c j = true →
        (c.preferred.getLsbD b.val = true ∧ c.preferred.getLsbD j.val = false) ∨
        (c.preferred.getLsbD b.val = c.preferred.getLsbD j.val ∧
          (p.leadGap c b < p.leadGap c j ∨ (p.leadGap c b = p.leadGap c j ∧ b < j)))) ∧
    ∀ b : BayId,
      let x := p.bay b
      let earlier (k : SlotId) (r : Record) : Prop :=
        k ∈ p.chain b ∧ c.moving ≠ some k ∧ p.record k = some r ∧ r.windowStart < c.start
      (p.passes c b = true ↔
        (x.configured = true ∧ c.eligible.getLsbD b.val = true ∧ x.ctype = c.ctype ∧ x.condition ≠ .out ∧
          (p.now + p.settings.lead < c.start ∨ (x.condition ≠ .dark ∧ x.condition ≠ .unverified ∧
            x.condition ≠ .intruded ∧ x.condition ≠ .overstay)) ∧
          (c.pinned = none ∨ c.pinned = some b) ∧ c.excluded ≠ some b) ∧
        p.fits c b = true ∧ p.carries x.feeder c.moving c.start c.stop = true) ∧
      (∀ k r, earlier k r → (∀ j y, earlier j y → j ≠ k → y.windowStart < r.windowStart) →
        (p.leadGap c b : Int) = max 0 ((c.start : Int) - (r.windowEnd + p.settings.guard))) ∧
      ((∀ k r, ¬ earlier k r) → (p.leadGap c b : Int) = max 0 ((c.start : Int) - p.now))

/-- The walk over the rules meets a rule that fires as R59 says: a full tally refuses POLICY-QUOTA before any mode,
REFUSE and ACCEPT end the walk, CONTINUE goes on with the changed result; a rule that is inactive, outside the lane's
set or that does not fire is passed over; at the end the lane's verdict decides, with no deciding rule (R59, R60). The
walk begins with every rule, in ascending number; a rule is considered when the lane's set holds it and it is active,
and fires when the class, the connector, the tier, the minute-of-day of the start and the duration pass their tests
(R58). -/
def Obligations.PolicyWalkTakesTheRulesInOrder : Prop :=
  ∀ (p : Part) (l : Lane) (q : EvalInput) (r : RuleId) (rs : List RuleId) (a : Admission),
    let x := p.rule r
    let hit : Prop := l.rules.getLsbD r.val = true ∧ x.matchA.active = true ∧ x.fires q = true
    let b : Admission := {
      priority := match x.action.priorityMode with
        | .keep => a.priority
        | .raise => max a.priority x.action.priority
        | .lower => min a.priority x.action.priority
        | .set => x.action.priority
      eligible := match x.action.mapMode with
        | .keep => a.eligible
        | .widen => a.eligible ||| x.action.map
        | .narrow => a.eligible &&& x.action.map
        | .replace => x.action.map
        | .exclude => a.eligible &&& ~~~x.action.map
      preferred := match x.action.prefMode with
        | .keep => a.preferred
        | .add => a.preferred ||| x.action.pref
        | .set => x.action.pref
      grace := if x.action.grace = 0 then a.grace else some x.action.grace
      tallies := if x.tally.enabled then a.tallies ++ [r] else a.tallies }
    (¬ hit → p.walkRules l q (r :: rs) a = p.walkRules l q rs a) ∧
    (hit → x.tally.enabled = true → x.counter = x.tally.limit → p.walkRules l q (r :: rs) a = .policyQuota r) ∧
    (hit → ¬ (x.tally.enabled = true ∧ x.counter = x.tally.limit) →
      p.walkRules l q (r :: rs) a = match x.action.verdict with
        | .accept => .accepted b
        | .refuse => .policyRefused (some r)
        | .continue_ => p.walkRules l q rs b) ∧
    (p.walkRules l q [] a = if l.verdict = .refuse then .policyRefused none else .accepted a) ∧
    p.evaluate q = p.walkRules (p.lane q.asker.lane) q (List.finRange 32)
      ⟨(p.lane q.asker.lane).priority, (p.lane q.asker.lane).eligible, 0, none, []⟩ ∧
    let m := q.start % 1440
    (x.fires q = true ↔
      x.matchA.classes.getLsbD q.asker.vclass.val = true ∧ x.matchA.connectors.getLsbD q.asker.ctype.code = true ∧
      x.matchA.tierMin ≤ q.asker.tier.val ∧ q.asker.tier.val ≤ x.matchA.tierMax ∧
      (x.matchB.timeStart < x.matchB.timeEnd → x.matchB.timeStart ≤ m ∧ m < x.matchB.timeEnd) ∧
      (x.matchB.timeEnd < x.matchB.timeStart → x.matchB.timeStart ≤ m ∨ m < x.matchB.timeEnd) ∧
      x.matchB.durMin ≤ q.duration ∧ q.duration ≤ x.matchB.durMax)

/-! ## Invariants -/

/-- Every step keeps the pool's partition, with which the four counts sum to 192, and every generation at 1 to 255 (R27,
R31); the Waiting List in its order, by class, created minute and slot (R85); and, together, the bay of every chained
record and the currency of every stored condition (R27, R8). Every step keeps the chains in order, with the guard
between neighbours (R35): an ARRIVE where no window end of a record before engagement has come, a RETRACT where no
window would lose its last minute, as can only be after a step back of the clock. Every step but a tick, a minute event
and CLOCK-SET keeps as well that held, arriving and engaged records have started and that an ENGAGED record heads its
chain: an ARRIVE where no window ends more than 720 minutes after now that may arrive; and a tick and a minute event do
before the largest minute (R35, R39). -/
def Obligations.StepKeepsThePoolPartition : Prop :=
  (∀ s t : State, s.part.pool.partitioned → step s = .next t → t.part.pool.partitioned) ∧
  (∀ s t : State, s.part.pool.generationsSound → step s = .next t → t.part.pool.generationsSound) ∧
  (∀ q : Pool, q.partitioned →
    q.free.length + ((List.finRange 64).map (fun b => (q.chains.get b).length)).sum + q.waiting.length +
      q.closing.length = 192) ∧
  (∀ s t : State, s.part.pool.partitioned → s.part.pool.listOrdered → step s = .next t → t.part.pool.listOrdered) ∧
  (∀ s t : State, s.Coherent → step s = .next t → t.Coherent) ∧
  (∀ s t : State, s.Chained →
    (s.pending.head? = some .arrive → s.part.allRecords (Record.ahead s.part.now)) →
    (s.pending.head? = some .retract → s.part.allRecords Record.retractable) →
    step s = .next t → t.Chained) ∧
  (∀ s t : State, s.Headed → s.part.allRecords (Record.ahead s.part.now) →
    (s.pending.head? = some .arrive →
      s.part.allRecords (Record.arrivesNow s.part.now s.part.settings.earlyAllowance)) →
    (s.pending.head? = some .retract → s.part.allRecords Record.retractable) →
    (∀ time, s.pending.head? ≠ some (.tick time)) → s.pending.head? ≠ some .minuteEvent →
    s.pending.head? ≠ some .clockSet →
    step s = .next t → t.Headed ∧ t.part.allRecords (Record.ahead t.part.now)) ∧
  (∀ s t : State, s.Headed → s.part.clock.minute < 4294967295 →
    ((∃ time, s.pending.head? = some (.tick time)) ∨ s.pending.head? = some .minuteEvent) →
    step s = .next t → t.Headed)

/-- Every step keeps the windows and extension stacks of the records within their bounds, every residue below 36 000,
every energy within at or below its quota, and the pause cause, the stopped-in phase and the settle state in their
phases (R29, R128, R129, R116). While the lanes and rules are in their ranges and no chained record has an empty
window, every step keeps each rate cap 60 to 800, each amount on an extension stack a multiple of 5 from 5 to 715, and
each priority class 1 to 4 (R28, R29). -/
def Obligations.StepKeepsTheRecordsSound : Prop :=
  (∀ s t : State, s.part.allRecords Record.windowSound → step s = .next t → t.part.allRecords Record.windowSound) ∧
  (∀ s t : State, s.part.allRecords Record.residueSound → step s = .next t → t.part.allRecords Record.residueSound) ∧
  (∀ s t : State, s.part.allRecords Record.energySound → step s = .next t → t.part.allRecords Record.energySound) ∧
  (∀ s t : State, s.part.allRecords Record.phaseSound → step s = .next t → t.part.allRecords Record.phaseSound) ∧
  (∀ s t : State, s.part.policySound → s.part.allRecords Record.windowed → s.part.allRecords Record.optionsSound →
    step s = .next t → t.part.allRecords Record.optionsSound)

/-- Every step keeps the numbers of bays, feeders, posts, settings and clock in their ranges (R1, R11, R15, R18, R151,
R174), no tally counter above its limit (R61), and at most 32 records waiting (R85). Every step keeps the last fault
code of a post at most 15 and its slow-wake count at most 3, 3 only in ISOLATED (R15, R163), and the fields of lanes
and rules in their ranges (R50, R53). While the tables and the rate caps are in their ranges, every step keeps each
assigned limit 0 or 60 to 800 (R1, R143). -/
def Obligations.StepKeepsTheTablesInRange : Prop :=
  (∀ s t : State, s.part.numbersSound → step s = .next t → t.part.numbersSound) ∧
  (∀ s t : State, s.part.talliesSound → step s = .next t → t.part.talliesSound) ∧
  (∀ s t : State, s.part.pool.waiting.length ≤ 32 → step s = .next t → t.part.pool.waiting.length ≤ 32) ∧
  (∀ s t : State, (∀ a : PostId, (s.part.post a).wakesSound) → step s = .next t →
    ∀ a : PostId, (t.part.post a).wakesSound) ∧
  (∀ s t : State, s.part.policySound → step s = .next t → t.part.policySound) ∧
  (∀ s t : State, s.part.numbersSound → s.part.allRecords Record.optionsSound →
    (∀ b : BayId, (s.part.bay b).limitSound) → step s = .next t → ∀ b : BayId, (t.part.bay b).limitSound)

/-- Every step keeps at most four requests and four replies waiting and the receiver's bytes short of a frame (R168 to
R170), leaves no event unfinished (R90), never moves the time base back, and keeps a CLOSE-NOTICE in transmission that
of a CLOSING record, whose slot its end frees (R43, R49). -/
def Obligations.StepKeepsThePortBounded : Prop :=
  (∀ s t : State, s.port.queuesSound → step s = .next t → t.port.queuesSound) ∧
  (∀ s t : State, s.settled → step s = .next t → t.settled) ∧
  (∀ s t : State, step s = .next t → s.part.time ≤ t.part.time) ∧
  (∀ s t : State, s.part.pool.partitioned → s.noticeSound → step s = .next t → t.noticeSound)

/-- The machine right after reset has every invariant that the steps keep, and the premises that some of them have. -/
def Obligations.ResetHasEveryInvariant : Prop :=
  State.reset.part.pool.partitioned ∧ State.reset.part.pool.generationsSound ∧
  State.reset.part.allRecords Record.windowSound ∧ State.reset.part.allRecords Record.residueSound ∧
  State.reset.part.allRecords Record.energySound ∧ State.reset.part.allRecords Record.phaseSound ∧
  State.reset.part.numbersSound ∧ State.reset.part.talliesSound ∧ State.reset.part.pool.waiting.length ≤ 32 ∧
  State.reset.port.queuesSound ∧ State.reset.settled ∧ State.reset.part.conditionsCurrent ∧
  State.reset.part.pool.listOrdered ∧ State.reset.Coherent ∧ State.reset.Chained ∧ State.reset.Headed ∧
  State.reset.part.allRecords (Record.ahead State.reset.part.now) ∧
  State.reset.part.allRecords Record.retractable ∧
  State.reset.part.allRecords (Record.arrivesNow State.reset.part.now State.reset.part.settings.earlyAllowance) ∧
  (∀ a : PostId, (State.reset.part.post a).wakesSound) ∧ (∀ b : BayId, (State.reset.part.bay b).limitSound) ∧
  State.reset.part.policySound ∧ State.reset.part.allRecords Record.windowed ∧
  State.reset.part.allRecords Record.optionsSound

/-- A closed record stays as its close left it, state and summary, through every step that does not free its slot; a step
frees a slot only by the last byte of its CLOSE-NOTICE or by a reset (R30, R43, R48, R49). -/
def Obligations.ClosedRecordsStayAsTheyClosed : Prop :=
  ∀ (c : Instr) (s t : State) (k : SlotId) (r : Record), s.part.pool.partitioned → s.part.record k = some r →
    r.state = .closing → exec c s = .next t →
    (∃ r', t.part.record k = some r' ∧ r'.state = .closing ∧ r'.close = r.close) ∨
    (t.part.record k = none ∧
      (c = .powerOn ∨ c = .rstN ∨ c = .fullReset ∨ c = .frameSent ∨ c = .resetPartBook))

/-- Only requests and resets write configuration: every other command leaves the part settings, the lanes, the rules'
groups, the configuration of bays and feeders and the posts in use as they were, and the clock but for the tick, the
minute event and the rollover (R1, R11, R15, R18, R50, R53, R174). -/
def Obligations.EventsLeaveTheConfiguration : Prop :=
  ∀ (c : Instr) (s t : State), servedKind c = none → c ≠ .powerOn → c ≠ .rstN → c ≠ .fullReset →
    (∀ fr, s.port.sending ≠ some ⟨fr, .resetReply⟩) → exec c s = .next t →
    s.part.SameConfig t.part ∧
    ((∀ time, c ≠ .tick time) → c ≠ .minuteEvent → c ≠ .rollover → t.part.clock = s.part.clock)
end

