-- ==== Sys2Proof/Laws/State.lean ====
section
/-! SUPPORT. One lemma per field per update: what every named write of the part leaves as it was, and what a table reads
after a write of one of its entries. -/

namespace Sys2Proof.Machine

/-! ## Vectors -/

theorem get_set_same {α : Type} {n : Nat} (v : Vector α n) (i : Fin n) (x : α) :
    (v.set i.val x i.isLt).get i = x := by
  show (v.set i.val x i.isLt)[i.val] = x
  simp

theorem get_set_ne {α : Type} {n : Nat} (v : Vector α n) (i j : Fin n) (x : α) (h : j ≠ i) :
    (v.set i.val x i.isLt).get j = v.get j := by
  show (v.set i.val x i.isLt)[j.val] = v[j.val]
  exact Vector.getElem_set_ne _ _ (fun e => h (Fin.ext e.symm))

/-! ## setBay -/

@[simp] theorem Part.setBay_time (p : Part) (b : BayId) (x : Bay) : (p.setBay b x).time = p.time := rfl
@[simp] theorem Part.setBay_clock (p : Part) (b : BayId) (x : Bay) : (p.setBay b x).clock = p.clock := rfl
@[simp] theorem Part.setBay_settings (p : Part) (b : BayId) (x : Bay) : (p.setBay b x).settings = p.settings := rfl
@[simp] theorem Part.setBay_feeders (p : Part) (b : BayId) (x : Bay) : (p.setBay b x).feeders = p.feeders := rfl
@[simp] theorem Part.setBay_trips (p : Part) (b : BayId) (x : Bay) : (p.setBay b x).trips = p.trips := rfl
@[simp] theorem Part.setBay_posts (p : Part) (b : BayId) (x : Bay) : (p.setBay b x).posts = p.posts := rfl
@[simp] theorem Part.setBay_pool (p : Part) (b : BayId) (x : Bay) : (p.setBay b x).pool = p.pool := rfl
@[simp] theorem Part.setBay_lanes (p : Part) (b : BayId) (x : Bay) : (p.setBay b x).lanes = p.lanes := rfl
@[simp] theorem Part.setBay_rules (p : Part) (b : BayId) (x : Bay) : (p.setBay b x).rules = p.rules := rfl
@[simp] theorem Part.setBay_link (p : Part) (b : BayId) (x : Bay) : (p.setBay b x).link = p.link := rfl
@[simp] theorem Part.setBay_outstanding (p : Part) (b : BayId) (x : Bay) :
    (p.setBay b x).outstanding = p.outstanding := rfl
@[simp] theorem Part.setBay_work (p : Part) (b : BayId) (x : Bay) : (p.setBay b x).work = p.work := rfl
@[simp] theorem Part.setBay_choices (p : Part) (b : BayId) (x : Bay) : (p.setBay b x).choices = p.choices := rfl
@[simp] theorem Part.setBay_feeder (p : Part) (b : BayId) (x : Bay) (f' : FeederId) :
    (p.setBay b x).feeder f' = p.feeder f' := rfl
@[simp] theorem Part.setBay_trip (p : Part) (b : BayId) (x : Bay) (f' : FeederId) :
    (p.setBay b x).trip f' = p.trip f' := rfl
@[simp] theorem Part.setBay_post (p : Part) (b : BayId) (x : Bay) (q' : PostId) :
    (p.setBay b x).post q' = p.post q' := rfl
@[simp] theorem Part.setBay_lane (p : Part) (b : BayId) (x : Bay) (l' : LaneId) :
    (p.setBay b x).lane l' = p.lane l' := rfl
@[simp] theorem Part.setBay_rule (p : Part) (b : BayId) (x : Bay) (r' : RuleId) :
    (p.setBay b x).rule r' = p.rule r' := rfl
@[simp] theorem Part.setBay_record (p : Part) (b : BayId) (x : Bay) (s' : SlotId) :
    (p.setBay b x).record s' = p.record s' := rfl
@[simp] theorem Part.setBay_chain (p : Part) (b : BayId) (x : Bay) (b' : BayId) :
    (p.setBay b x).chain b' = p.chain b' := rfl
@[simp] theorem Part.setBay_now (p : Part) (b : BayId) (x : Bay) : (p.setBay b x).now = p.now := rfl
@[simp] theorem Part.bay_setBay_same (p : Part) (b : BayId) (x : Bay) : (p.setBay b x).bay b = x :=
  get_set_same _ _ _
theorem Part.bay_setBay_ne (p : Part) (b : BayId) (x : Bay) (b' : BayId) (h : b' ≠ b) :
    (p.setBay b x).bay b' = p.bay b' :=
  get_set_ne _ _ _ _ h
theorem Part.bay_setBay (p : Part) (b : BayId) (x : Bay) (b' : BayId) :
    (p.setBay b x).bay b' = if b' = b then x else p.bay b' := by
  split
  · subst_vars; simp
  · exact Part.bay_setBay_ne p b x b' ‹_›

/-! ## setFeeder -/

@[simp] theorem Part.setFeeder_time (p : Part) (f : FeederId) (x : Feeder) : (p.setFeeder f x).time = p.time := rfl
@[simp] theorem Part.setFeeder_clock (p : Part) (f : FeederId) (x : Feeder) : (p.setFeeder f x).clock = p.clock := rfl
@[simp] theorem Part.setFeeder_settings (p : Part) (f : FeederId) (x : Feeder) :
    (p.setFeeder f x).settings = p.settings := rfl
@[simp] theorem Part.setFeeder_bays (p : Part) (f : FeederId) (x : Feeder) : (p.setFeeder f x).bays = p.bays := rfl
@[simp] theorem Part.setFeeder_trips (p : Part) (f : FeederId) (x : Feeder) : (p.setFeeder f x).trips = p.trips := rfl
@[simp] theorem Part.setFeeder_posts (p : Part) (f : FeederId) (x : Feeder) : (p.setFeeder f x).posts = p.posts := rfl
@[simp] theorem Part.setFeeder_pool (p : Part) (f : FeederId) (x : Feeder) : (p.setFeeder f x).pool = p.pool := rfl
@[simp] theorem Part.setFeeder_lanes (p : Part) (f : FeederId) (x : Feeder) : (p.setFeeder f x).lanes = p.lanes := rfl
@[simp] theorem Part.setFeeder_rules (p : Part) (f : FeederId) (x : Feeder) : (p.setFeeder f x).rules = p.rules := rfl
@[simp] theorem Part.setFeeder_link (p : Part) (f : FeederId) (x : Feeder) : (p.setFeeder f x).link = p.link := rfl
@[simp] theorem Part.setFeeder_outstanding (p : Part) (f : FeederId) (x : Feeder) :
    (p.setFeeder f x).outstanding = p.outstanding := rfl
@[simp] theorem Part.setFeeder_work (p : Part) (f : FeederId) (x : Feeder) : (p.setFeeder f x).work = p.work := rfl
@[simp] theorem Part.setFeeder_choices (p : Part) (f : FeederId) (x : Feeder) :
    (p.setFeeder f x).choices = p.choices := rfl
@[simp] theorem Part.setFeeder_bay (p : Part) (f : FeederId) (x : Feeder) (b' : BayId) :
    (p.setFeeder f x).bay b' = p.bay b' := rfl
@[simp] theorem Part.setFeeder_trip (p : Part) (f : FeederId) (x : Feeder) (f' : FeederId) :
    (p.setFeeder f x).trip f' = p.trip f' := rfl
@[simp] theorem Part.setFeeder_post (p : Part) (f : FeederId) (x : Feeder) (q' : PostId) :
    (p.setFeeder f x).post q' = p.post q' := rfl
@[simp] theorem Part.setFeeder_lane (p : Part) (f : FeederId) (x : Feeder) (l' : LaneId) :
    (p.setFeeder f x).lane l' = p.lane l' := rfl
@[simp] theorem Part.setFeeder_rule (p : Part) (f : FeederId) (x : Feeder) (r' : RuleId) :
    (p.setFeeder f x).rule r' = p.rule r' := rfl
@[simp] theorem Part.setFeeder_record (p : Part) (f : FeederId) (x : Feeder) (s' : SlotId) :
    (p.setFeeder f x).record s' = p.record s' := rfl
@[simp] theorem Part.setFeeder_chain (p : Part) (f : FeederId) (x : Feeder) (b' : BayId) :
    (p.setFeeder f x).chain b' = p.chain b' := rfl
@[simp] theorem Part.setFeeder_now (p : Part) (f : FeederId) (x : Feeder) : (p.setFeeder f x).now = p.now := rfl
@[simp] theorem Part.feeder_setFeeder_same (p : Part) (f : FeederId) (x : Feeder) : (p.setFeeder f x).feeder f = x :=
  get_set_same _ _ _
theorem Part.feeder_setFeeder_ne (p : Part) (f : FeederId) (x : Feeder) (f' : FeederId) (h : f' ≠ f) :
    (p.setFeeder f x).feeder f' = p.feeder f' :=
  get_set_ne _ _ _ _ h
theorem Part.feeder_setFeeder (p : Part) (f : FeederId) (x : Feeder) (f' : FeederId) :
    (p.setFeeder f x).feeder f' = if f' = f then x else p.feeder f' := by
  split
  · subst_vars; simp
  · exact Part.feeder_setFeeder_ne p f x f' ‹_›

/-! ## setTrip -/

@[simp] theorem Part.setTrip_time (p : Part) (f : FeederId) (x : TripInput) : (p.setTrip f x).time = p.time := rfl
@[simp] theorem Part.setTrip_clock (p : Part) (f : FeederId) (x : TripInput) : (p.setTrip f x).clock = p.clock := rfl
@[simp] theorem Part.setTrip_settings (p : Part) (f : FeederId) (x : TripInput) :
    (p.setTrip f x).settings = p.settings := rfl
@[simp] theorem Part.setTrip_bays (p : Part) (f : FeederId) (x : TripInput) : (p.setTrip f x).bays = p.bays := rfl
@[simp] theorem Part.setTrip_feeders (p : Part) (f : FeederId) (x : TripInput) :
    (p.setTrip f x).feeders = p.feeders := rfl
@[simp] theorem Part.setTrip_posts (p : Part) (f : FeederId) (x : TripInput) : (p.setTrip f x).posts = p.posts := rfl
@[simp] theorem Part.setTrip_pool (p : Part) (f : FeederId) (x : TripInput) : (p.setTrip f x).pool = p.pool := rfl
@[simp] theorem Part.setTrip_lanes (p : Part) (f : FeederId) (x : TripInput) : (p.setTrip f x).lanes = p.lanes := rfl
@[simp] theorem Part.setTrip_rules (p : Part) (f : FeederId) (x : TripInput) : (p.setTrip f x).rules = p.rules := rfl
@[simp] theorem Part.setTrip_link (p : Part) (f : FeederId) (x : TripInput) : (p.setTrip f x).link = p.link := rfl
@[simp] theorem Part.setTrip_outstanding (p : Part) (f : FeederId) (x : TripInput) :
    (p.setTrip f x).outstanding = p.outstanding := rfl
@[simp] theorem Part.setTrip_work (p : Part) (f : FeederId) (x : TripInput) : (p.setTrip f x).work = p.work := rfl
@[simp] theorem Part.setTrip_choices (p : Part) (f : FeederId) (x : TripInput) :
    (p.setTrip f x).choices = p.choices := rfl
@[simp] theorem Part.setTrip_bay (p : Part) (f : FeederId) (x : TripInput) (b' : BayId) :
    (p.setTrip f x).bay b' = p.bay b' := rfl
@[simp] theorem Part.setTrip_feeder (p : Part) (f : FeederId) (x : TripInput) (f' : FeederId) :
    (p.setTrip f x).feeder f' = p.feeder f' := rfl
@[simp] theorem Part.setTrip_post (p : Part) (f : FeederId) (x : TripInput) (q' : PostId) :
    (p.setTrip f x).post q' = p.post q' := rfl
@[simp] theorem Part.setTrip_lane (p : Part) (f : FeederId) (x : TripInput) (l' : LaneId) :
    (p.setTrip f x).lane l' = p.lane l' := rfl
@[simp] theorem Part.setTrip_rule (p : Part) (f : FeederId) (x : TripInput) (r' : RuleId) :
    (p.setTrip f x).rule r' = p.rule r' := rfl
@[simp] theorem Part.setTrip_record (p : Part) (f : FeederId) (x : TripInput) (s' : SlotId) :
    (p.setTrip f x).record s' = p.record s' := rfl
@[simp] theorem Part.setTrip_chain (p : Part) (f : FeederId) (x : TripInput) (b' : BayId) :
    (p.setTrip f x).chain b' = p.chain b' := rfl
@[simp] theorem Part.setTrip_now (p : Part) (f : FeederId) (x : TripInput) : (p.setTrip f x).now = p.now := rfl
@[simp] theorem Part.trip_setTrip_same (p : Part) (f : FeederId) (x : TripInput) : (p.setTrip f x).trip f = x :=
  get_set_same _ _ _
theorem Part.trip_setTrip_ne (p : Part) (f : FeederId) (x : TripInput) (f' : FeederId) (h : f' ≠ f) :
    (p.setTrip f x).trip f' = p.trip f' :=
  get_set_ne _ _ _ _ h
theorem Part.trip_setTrip (p : Part) (f : FeederId) (x : TripInput) (f' : FeederId) :
    (p.setTrip f x).trip f' = if f' = f then x else p.trip f' := by
  split
  · subst_vars; simp
  · exact Part.trip_setTrip_ne p f x f' ‹_›

/-! ## setPost -/

@[simp] theorem Part.setPost_time (p : Part) (q : PostId) (x : Post) : (p.setPost q x).time = p.time := rfl
@[simp] theorem Part.setPost_clock (p : Part) (q : PostId) (x : Post) : (p.setPost q x).clock = p.clock := rfl
@[simp] theorem Part.setPost_settings (p : Part) (q : PostId) (x : Post) :
    (p.setPost q x).settings = p.settings := rfl
@[simp] theorem Part.setPost_bays (p : Part) (q : PostId) (x : Post) : (p.setPost q x).bays = p.bays := rfl
@[simp] theorem Part.setPost_feeders (p : Part) (q : PostId) (x : Post) : (p.setPost q x).feeders = p.feeders := rfl
@[simp] theorem Part.setPost_trips (p : Part) (q : PostId) (x : Post) : (p.setPost q x).trips = p.trips := rfl
@[simp] theorem Part.setPost_pool (p : Part) (q : PostId) (x : Post) : (p.setPost q x).pool = p.pool := rfl
@[simp] theorem Part.setPost_lanes (p : Part) (q : PostId) (x : Post) : (p.setPost q x).lanes = p.lanes := rfl
@[simp] theorem Part.setPost_rules (p : Part) (q : PostId) (x : Post) : (p.setPost q x).rules = p.rules := rfl
@[simp] theorem Part.setPost_link (p : Part) (q : PostId) (x : Post) : (p.setPost q x).link = p.link := rfl
@[simp] theorem Part.setPost_outstanding (p : Part) (q : PostId) (x : Post) :
    (p.setPost q x).outstanding = p.outstanding := rfl
@[simp] theorem Part.setPost_work (p : Part) (q : PostId) (x : Post) : (p.setPost q x).work = p.work := rfl
@[simp] theorem Part.setPost_choices (p : Part) (q : PostId) (x : Post) : (p.setPost q x).choices = p.choices := rfl
@[simp] theorem Part.setPost_bay (p : Part) (q : PostId) (x : Post) (b' : BayId) :
    (p.setPost q x).bay b' = p.bay b' := rfl
@[simp] theorem Part.setPost_feeder (p : Part) (q : PostId) (x : Post) (f' : FeederId) :
    (p.setPost q x).feeder f' = p.feeder f' := rfl
@[simp] theorem Part.setPost_trip (p : Part) (q : PostId) (x : Post) (f' : FeederId) :
    (p.setPost q x).trip f' = p.trip f' := rfl
@[simp] theorem Part.setPost_lane (p : Part) (q : PostId) (x : Post) (l' : LaneId) :
    (p.setPost q x).lane l' = p.lane l' := rfl
@[simp] theorem Part.setPost_rule (p : Part) (q : PostId) (x : Post) (r' : RuleId) :
    (p.setPost q x).rule r' = p.rule r' := rfl
@[simp] theorem Part.setPost_record (p : Part) (q : PostId) (x : Post) (s' : SlotId) :
    (p.setPost q x).record s' = p.record s' := rfl
@[simp] theorem Part.setPost_chain (p : Part) (q : PostId) (x : Post) (b' : BayId) :
    (p.setPost q x).chain b' = p.chain b' := rfl
@[simp] theorem Part.setPost_now (p : Part) (q : PostId) (x : Post) : (p.setPost q x).now = p.now := rfl
@[simp] theorem Part.post_setPost_same (p : Part) (q : PostId) (x : Post) : (p.setPost q x).post q = x :=
  get_set_same _ _ _
theorem Part.post_setPost_ne (p : Part) (q : PostId) (x : Post) (q' : PostId) (h : q' ≠ q) :
    (p.setPost q x).post q' = p.post q' :=
  get_set_ne _ _ _ _ h
theorem Part.post_setPost (p : Part) (q : PostId) (x : Post) (q' : PostId) :
    (p.setPost q x).post q' = if q' = q then x else p.post q' := by
  split
  · subst_vars; simp
  · exact Part.post_setPost_ne p q x q' ‹_›

/-! ## setLane -/

@[simp] theorem Part.setLane_time (p : Part) (l : LaneId) (x : Lane) : (p.setLane l x).time = p.time := rfl
@[simp] theorem Part.setLane_clock (p : Part) (l : LaneId) (x : Lane) : (p.setLane l x).clock = p.clock := rfl
@[simp] theorem Part.setLane_settings (p : Part) (l : LaneId) (x : Lane) :
    (p.setLane l x).settings = p.settings := rfl
@[simp] theorem Part.setLane_bays (p : Part) (l : LaneId) (x : Lane) : (p.setLane l x).bays = p.bays := rfl
@[simp] theorem Part.setLane_feeders (p : Part) (l : LaneId) (x : Lane) : (p.setLane l x).feeders = p.feeders := rfl
@[simp] theorem Part.setLane_trips (p : Part) (l : LaneId) (x : Lane) : (p.setLane l x).trips = p.trips := rfl
@[simp] theorem Part.setLane_posts (p : Part) (l : LaneId) (x : Lane) : (p.setLane l x).posts = p.posts := rfl
@[simp] theorem Part.setLane_pool (p : Part) (l : LaneId) (x : Lane) : (p.setLane l x).pool = p.pool := rfl
@[simp] theorem Part.setLane_rules (p : Part) (l : LaneId) (x : Lane) : (p.setLane l x).rules = p.rules := rfl
@[simp] theorem Part.setLane_link (p : Part) (l : LaneId) (x : Lane) : (p.setLane l x).link = p.link := rfl
@[simp] theorem Part.setLane_outstanding (p : Part) (l : LaneId) (x : Lane) :
    (p.setLane l x).outstanding = p.outstanding := rfl
@[simp] theorem Part.setLane_work (p : Part) (l : LaneId) (x : Lane) : (p.setLane l x).work = p.work := rfl
@[simp] theorem Part.setLane_choices (p : Part) (l : LaneId) (x : Lane) : (p.setLane l x).choices = p.choices := rfl
@[simp] theorem Part.setLane_bay (p : Part) (l : LaneId) (x : Lane) (b' : BayId) :
    (p.setLane l x).bay b' = p.bay b' := rfl
@[simp] theorem Part.setLane_feeder (p : Part) (l : LaneId) (x : Lane) (f' : FeederId) :
    (p.setLane l x).feeder f' = p.feeder f' := rfl
@[simp] theorem Part.setLane_trip (p : Part) (l : LaneId) (x : Lane) (f' : FeederId) :
    (p.setLane l x).trip f' = p.trip f' := rfl
@[simp] theorem Part.setLane_post (p : Part) (l : LaneId) (x : Lane) (q' : PostId) :
    (p.setLane l x).post q' = p.post q' := rfl
@[simp] theorem Part.setLane_rule (p : Part) (l : LaneId) (x : Lane) (r' : RuleId) :
    (p.setLane l x).rule r' = p.rule r' := rfl
@[simp] theorem Part.setLane_record (p : Part) (l : LaneId) (x : Lane) (s' : SlotId) :
    (p.setLane l x).record s' = p.record s' := rfl
@[simp] theorem Part.setLane_chain (p : Part) (l : LaneId) (x : Lane) (b' : BayId) :
    (p.setLane l x).chain b' = p.chain b' := rfl
@[simp] theorem Part.setLane_now (p : Part) (l : LaneId) (x : Lane) : (p.setLane l x).now = p.now := rfl
@[simp] theorem Part.lane_setLane_same (p : Part) (l : LaneId) (x : Lane) : (p.setLane l x).lane l = x :=
  get_set_same _ _ _
theorem Part.lane_setLane_ne (p : Part) (l : LaneId) (x : Lane) (l' : LaneId) (h : l' ≠ l) :
    (p.setLane l x).lane l' = p.lane l' :=
  get_set_ne _ _ _ _ h
theorem Part.lane_setLane (p : Part) (l : LaneId) (x : Lane) (l' : LaneId) :
    (p.setLane l x).lane l' = if l' = l then x else p.lane l' := by
  split
  · subst_vars; simp
  · exact Part.lane_setLane_ne p l x l' ‹_›

/-! ## setRule -/

@[simp] theorem Part.setRule_time (p : Part) (r : RuleId) (x : Rule) : (p.setRule r x).time = p.time := rfl
@[simp] theorem Part.setRule_clock (p : Part) (r : RuleId) (x : Rule) : (p.setRule r x).clock = p.clock := rfl
@[simp] theorem Part.setRule_settings (p : Part) (r : RuleId) (x : Rule) :
    (p.setRule r x).settings = p.settings := rfl
@[simp] theorem Part.setRule_bays (p : Part) (r : RuleId) (x : Rule) : (p.setRule r x).bays = p.bays := rfl
@[simp] theorem Part.setRule_feeders (p : Part) (r : RuleId) (x : Rule) : (p.setRule r x).feeders = p.feeders := rfl
@[simp] theorem Part.setRule_trips (p : Part) (r : RuleId) (x : Rule) : (p.setRule r x).trips = p.trips := rfl
@[simp] theorem Part.setRule_posts (p : Part) (r : RuleId) (x : Rule) : (p.setRule r x).posts = p.posts := rfl
@[simp] theorem Part.setRule_pool (p : Part) (r : RuleId) (x : Rule) : (p.setRule r x).pool = p.pool := rfl
@[simp] theorem Part.setRule_lanes (p : Part) (r : RuleId) (x : Rule) : (p.setRule r x).lanes = p.lanes := rfl
@[simp] theorem Part.setRule_link (p : Part) (r : RuleId) (x : Rule) : (p.setRule r x).link = p.link := rfl
@[simp] theorem Part.setRule_outstanding (p : Part) (r : RuleId) (x : Rule) :
    (p.setRule r x).outstanding = p.outstanding := rfl
@[simp] theorem Part.setRule_work (p : Part) (r : RuleId) (x : Rule) : (p.setRule r x).work = p.work := rfl
@[simp] theorem Part.setRule_choices (p : Part) (r : RuleId) (x : Rule) : (p.setRule r x).choices = p.choices := rfl
@[simp] theorem Part.setRule_bay (p : Part) (r : RuleId) (x : Rule) (b' : BayId) :
    (p.setRule r x).bay b' = p.bay b' := rfl
@[simp] theorem Part.setRule_feeder (p : Part) (r : RuleId) (x : Rule) (f' : FeederId) :
    (p.setRule r x).feeder f' = p.feeder f' := rfl
@[simp] theorem Part.setRule_trip (p : Part) (r : RuleId) (x : Rule) (f' : FeederId) :
    (p.setRule r x).trip f' = p.trip f' := rfl
@[simp] theorem Part.setRule_post (p : Part) (r : RuleId) (x : Rule) (q' : PostId) :
    (p.setRule r x).post q' = p.post q' := rfl
@[simp] theorem Part.setRule_lane (p : Part) (r : RuleId) (x : Rule) (l' : LaneId) :
    (p.setRule r x).lane l' = p.lane l' := rfl
@[simp] theorem Part.setRule_record (p : Part) (r : RuleId) (x : Rule) (s' : SlotId) :
    (p.setRule r x).record s' = p.record s' := rfl
@[simp] theorem Part.setRule_chain (p : Part) (r : RuleId) (x : Rule) (b' : BayId) :
    (p.setRule r x).chain b' = p.chain b' := rfl
@[simp] theorem Part.setRule_now (p : Part) (r : RuleId) (x : Rule) : (p.setRule r x).now = p.now := rfl
@[simp] theorem Part.rule_setRule_same (p : Part) (r : RuleId) (x : Rule) : (p.setRule r x).rule r = x :=
  get_set_same _ _ _
theorem Part.rule_setRule_ne (p : Part) (r : RuleId) (x : Rule) (r' : RuleId) (h : r' ≠ r) :
    (p.setRule r x).rule r' = p.rule r' :=
  get_set_ne _ _ _ _ h
theorem Part.rule_setRule (p : Part) (r : RuleId) (x : Rule) (r' : RuleId) :
    (p.setRule r x).rule r' = if r' = r then x else p.rule r' := by
  split
  · subst_vars; simp
  · exact Part.rule_setRule_ne p r x r' ‹_›

/-! ## modBay -/

@[simp] theorem Part.modBay_time (p : Part) (b : BayId) (g : Bay → Bay) : (p.modBay b g).time = p.time := rfl
@[simp] theorem Part.modBay_clock (p : Part) (b : BayId) (g : Bay → Bay) : (p.modBay b g).clock = p.clock := rfl
@[simp] theorem Part.modBay_settings (p : Part) (b : BayId) (g : Bay → Bay) :
    (p.modBay b g).settings = p.settings := rfl
@[simp] theorem Part.modBay_feeders (p : Part) (b : BayId) (g : Bay → Bay) : (p.modBay b g).feeders = p.feeders := rfl
@[simp] theorem Part.modBay_trips (p : Part) (b : BayId) (g : Bay → Bay) : (p.modBay b g).trips = p.trips := rfl
@[simp] theorem Part.modBay_posts (p : Part) (b : BayId) (g : Bay → Bay) : (p.modBay b g).posts = p.posts := rfl
@[simp] theorem Part.modBay_pool (p : Part) (b : BayId) (g : Bay → Bay) : (p.modBay b g).pool = p.pool := rfl
@[simp] theorem Part.modBay_lanes (p : Part) (b : BayId) (g : Bay → Bay) : (p.modBay b g).lanes = p.lanes := rfl
@[simp] theorem Part.modBay_rules (p : Part) (b : BayId) (g : Bay → Bay) : (p.modBay b g).rules = p.rules := rfl
@[simp] theorem Part.modBay_link (p : Part) (b : BayId) (g : Bay → Bay) : (p.modBay b g).link = p.link := rfl
@[simp] theorem Part.modBay_outstanding (p : Part) (b : BayId) (g : Bay → Bay) :
    (p.modBay b g).outstanding = p.outstanding := rfl
@[simp] theorem Part.modBay_work (p : Part) (b : BayId) (g : Bay → Bay) : (p.modBay b g).work = p.work := rfl
@[simp] theorem Part.modBay_choices (p : Part) (b : BayId) (g : Bay → Bay) : (p.modBay b g).choices = p.choices := rfl
@[simp] theorem Part.modBay_feeder (p : Part) (b : BayId) (g : Bay → Bay) (f' : FeederId) :
    (p.modBay b g).feeder f' = p.feeder f' := rfl
@[simp] theorem Part.modBay_trip (p : Part) (b : BayId) (g : Bay → Bay) (f' : FeederId) :
    (p.modBay b g).trip f' = p.trip f' := rfl
@[simp] theorem Part.modBay_post (p : Part) (b : BayId) (g : Bay → Bay) (q' : PostId) :
    (p.modBay b g).post q' = p.post q' := rfl
@[simp] theorem Part.modBay_lane (p : Part) (b : BayId) (g : Bay → Bay) (l' : LaneId) :
    (p.modBay b g).lane l' = p.lane l' := rfl
@[simp] theorem Part.modBay_rule (p : Part) (b : BayId) (g : Bay → Bay) (r' : RuleId) :
    (p.modBay b g).rule r' = p.rule r' := rfl
@[simp] theorem Part.modBay_record (p : Part) (b : BayId) (g : Bay → Bay) (s' : SlotId) :
    (p.modBay b g).record s' = p.record s' := rfl
@[simp] theorem Part.modBay_chain (p : Part) (b : BayId) (g : Bay → Bay) (b' : BayId) :
    (p.modBay b g).chain b' = p.chain b' := rfl
@[simp] theorem Part.modBay_now (p : Part) (b : BayId) (g : Bay → Bay) : (p.modBay b g).now = p.now := rfl
@[simp] theorem Part.bay_modBay_same (p : Part) (b : BayId) (g : Bay → Bay) : (p.modBay b g).bay b = g (p.bay b) := by
  simp [Part.modBay]
theorem Part.bay_modBay_ne (p : Part) (b : BayId) (g : Bay → Bay) (j : BayId) (h : j ≠ b) :
    (p.modBay b g).bay j = p.bay j := by
  exact Part.bay_setBay_ne p b _ j h
theorem Part.bay_modBay (p : Part) (b : BayId) (g : Bay → Bay) (j : BayId) :
    (p.modBay b g).bay j = if j = b then g (p.bay b) else p.bay j := by
  exact Part.bay_setBay p b _ j

/-! ## modFeeder -/

@[simp] theorem Part.modFeeder_time (p : Part) (f : FeederId) (g : Feeder → Feeder) :
    (p.modFeeder f g).time = p.time := rfl
@[simp] theorem Part.modFeeder_clock (p : Part) (f : FeederId) (g : Feeder → Feeder) :
    (p.modFeeder f g).clock = p.clock := rfl
@[simp] theorem Part.modFeeder_settings (p : Part) (f : FeederId) (g : Feeder → Feeder) :
    (p.modFeeder f g).settings = p.settings := rfl
@[simp] theorem Part.modFeeder_bays (p : Part) (f : FeederId) (g : Feeder → Feeder) :
    (p.modFeeder f g).bays = p.bays := rfl
@[simp] theorem Part.modFeeder_trips (p : Part) (f : FeederId) (g : Feeder → Feeder) :
    (p.modFeeder f g).trips = p.trips := rfl
@[simp] theorem Part.modFeeder_posts (p : Part) (f : FeederId) (g : Feeder → Feeder) :
    (p.modFeeder f g).posts = p.posts := rfl
@[simp] theorem Part.modFeeder_pool (p : Part) (f : FeederId) (g : Feeder → Feeder) :
    (p.modFeeder f g).pool = p.pool := rfl
@[simp] theorem Part.modFeeder_lanes (p : Part) (f : FeederId) (g : Feeder → Feeder) :
    (p.modFeeder f g).lanes = p.lanes := rfl
@[simp] theorem Part.modFeeder_rules (p : Part) (f : FeederId) (g : Feeder → Feeder) :
    (p.modFeeder f g).rules = p.rules := rfl
@[simp] theorem Part.modFeeder_link (p : Part) (f : FeederId) (g : Feeder → Feeder) :
    (p.modFeeder f g).link = p.link := rfl
@[simp] theorem Part.modFeeder_outstanding (p : Part) (f : FeederId) (g : Feeder → Feeder) :
    (p.modFeeder f g).outstanding = p.outstanding := rfl
@[simp] theorem Part.modFeeder_work (p : Part) (f : FeederId) (g : Feeder → Feeder) :
    (p.modFeeder f g).work = p.work := rfl
@[simp] theorem Part.modFeeder_choices (p : Part) (f : FeederId) (g : Feeder → Feeder) :
    (p.modFeeder f g).choices = p.choices := rfl
@[simp] theorem Part.modFeeder_bay (p : Part) (f : FeederId) (g : Feeder → Feeder) (b' : BayId) :
    (p.modFeeder f g).bay b' = p.bay b' := rfl
@[simp] theorem Part.modFeeder_trip (p : Part) (f : FeederId) (g : Feeder → Feeder) (f' : FeederId) :
    (p.modFeeder f g).trip f' = p.trip f' := rfl
@[simp] theorem Part.modFeeder_post (p : Part) (f : FeederId) (g : Feeder → Feeder) (q' : PostId) :
    (p.modFeeder f g).post q' = p.post q' := rfl
@[simp] theorem Part.modFeeder_lane (p : Part) (f : FeederId) (g : Feeder → Feeder) (l' : LaneId) :
    (p.modFeeder f g).lane l' = p.lane l' := rfl
@[simp] theorem Part.modFeeder_rule (p : Part) (f : FeederId) (g : Feeder → Feeder) (r' : RuleId) :
    (p.modFeeder f g).rule r' = p.rule r' := rfl
@[simp] theorem Part.modFeeder_record (p : Part) (f : FeederId) (g : Feeder → Feeder) (s' : SlotId) :
    (p.modFeeder f g).record s' = p.record s' := rfl
@[simp] theorem Part.modFeeder_chain (p : Part) (f : FeederId) (g : Feeder → Feeder) (b' : BayId) :
    (p.modFeeder f g).chain b' = p.chain b' := rfl
@[simp] theorem Part.modFeeder_now (p : Part) (f : FeederId) (g : Feeder → Feeder) :
    (p.modFeeder f g).now = p.now := rfl
@[simp] theorem Part.feeder_modFeeder_same (p : Part) (f : FeederId) (g : Feeder → Feeder) :
    (p.modFeeder f g).feeder f = g (p.feeder f) := by
  simp [Part.modFeeder]
theorem Part.feeder_modFeeder_ne (p : Part) (f : FeederId) (g : Feeder → Feeder) (j : FeederId) (h : j ≠ f) :
    (p.modFeeder f g).feeder j = p.feeder j := by
  exact Part.feeder_setFeeder_ne p f _ j h
theorem Part.feeder_modFeeder (p : Part) (f : FeederId) (g : Feeder → Feeder) (j : FeederId) :
    (p.modFeeder f g).feeder j = if j = f then g (p.feeder f) else p.feeder j := by
  exact Part.feeder_setFeeder p f _ j

/-! ## modPost -/

@[simp] theorem Part.modPost_time (p : Part) (q : PostId) (g : Post → Post) : (p.modPost q g).time = p.time := rfl
@[simp] theorem Part.modPost_clock (p : Part) (q : PostId) (g : Post → Post) : (p.modPost q g).clock = p.clock := rfl
@[simp] theorem Part.modPost_settings (p : Part) (q : PostId) (g : Post → Post) :
    (p.modPost q g).settings = p.settings := rfl
@[simp] theorem Part.modPost_bays (p : Part) (q : PostId) (g : Post → Post) : (p.modPost q g).bays = p.bays := rfl
@[simp] theorem Part.modPost_feeders (p : Part) (q : PostId) (g : Post → Post) :
    (p.modPost q g).feeders = p.feeders := rfl
@[simp] theorem Part.modPost_trips (p : Part) (q : PostId) (g : Post → Post) : (p.modPost q g).trips = p.trips := rfl
@[simp] theorem Part.modPost_pool (p : Part) (q : PostId) (g : Post → Post) : (p.modPost q g).pool = p.pool := rfl
@[simp] theorem Part.modPost_lanes (p : Part) (q : PostId) (g : Post → Post) : (p.modPost q g).lanes = p.lanes := rfl
@[simp] theorem Part.modPost_rules (p : Part) (q : PostId) (g : Post → Post) : (p.modPost q g).rules = p.rules := rfl
@[simp] theorem Part.modPost_link (p : Part) (q : PostId) (g : Post → Post) : (p.modPost q g).link = p.link := rfl
@[simp] theorem Part.modPost_outstanding (p : Part) (q : PostId) (g : Post → Post) :
    (p.modPost q g).outstanding = p.outstanding := rfl
@[simp] theorem Part.modPost_work (p : Part) (q : PostId) (g : Post → Post) : (p.modPost q g).work = p.work := rfl
@[simp] theorem Part.modPost_choices (p : Part) (q : PostId) (g : Post → Post) :
    (p.modPost q g).choices = p.choices := rfl
@[simp] theorem Part.modPost_bay (p : Part) (q : PostId) (g : Post → Post) (b' : BayId) :
    (p.modPost q g).bay b' = p.bay b' := rfl
@[simp] theorem Part.modPost_feeder (p : Part) (q : PostId) (g : Post → Post) (f' : FeederId) :
    (p.modPost q g).feeder f' = p.feeder f' := rfl
@[simp] theorem Part.modPost_trip (p : Part) (q : PostId) (g : Post → Post) (f' : FeederId) :
    (p.modPost q g).trip f' = p.trip f' := rfl
@[simp] theorem Part.modPost_lane (p : Part) (q : PostId) (g : Post → Post) (l' : LaneId) :
    (p.modPost q g).lane l' = p.lane l' := rfl
@[simp] theorem Part.modPost_rule (p : Part) (q : PostId) (g : Post → Post) (r' : RuleId) :
    (p.modPost q g).rule r' = p.rule r' := rfl
@[simp] theorem Part.modPost_record (p : Part) (q : PostId) (g : Post → Post) (s' : SlotId) :
    (p.modPost q g).record s' = p.record s' := rfl
@[simp] theorem Part.modPost_chain (p : Part) (q : PostId) (g : Post → Post) (b' : BayId) :
    (p.modPost q g).chain b' = p.chain b' := rfl
@[simp] theorem Part.modPost_now (p : Part) (q : PostId) (g : Post → Post) : (p.modPost q g).now = p.now := rfl
@[simp] theorem Part.post_modPost_same (p : Part) (q : PostId) (g : Post → Post) :
    (p.modPost q g).post q = g (p.post q) := by
  simp [Part.modPost]
theorem Part.post_modPost_ne (p : Part) (q : PostId) (g : Post → Post) (j : PostId) (h : j ≠ q) :
    (p.modPost q g).post j = p.post j := by
  exact Part.post_setPost_ne p q _ j h
theorem Part.post_modPost (p : Part) (q : PostId) (g : Post → Post) (j : PostId) :
    (p.modPost q g).post j = if j = q then g (p.post q) else p.post j := by
  exact Part.post_setPost p q _ j

/-! ## Updates of the work alone, and of one feeder's mark -/

@[simp] theorem Part.reportBlocked_time (p : Part) (b : BayId) (k : Bool) : (p.reportBlocked b k).time = p.time := rfl
@[simp] theorem Part.reportBlocked_clock (p : Part) (b : BayId) (k : Bool) :
    (p.reportBlocked b k).clock = p.clock := rfl
@[simp] theorem Part.reportBlocked_settings (p : Part) (b : BayId) (k : Bool) :
    (p.reportBlocked b k).settings = p.settings := rfl
@[simp] theorem Part.reportBlocked_bays (p : Part) (b : BayId) (k : Bool) : (p.reportBlocked b k).bays = p.bays := rfl
@[simp] theorem Part.reportBlocked_feeders (p : Part) (b : BayId) (k : Bool) :
    (p.reportBlocked b k).feeders = p.feeders := rfl
@[simp] theorem Part.reportBlocked_trips (p : Part) (b : BayId) (k : Bool) :
    (p.reportBlocked b k).trips = p.trips := rfl
@[simp] theorem Part.reportBlocked_posts (p : Part) (b : BayId) (k : Bool) :
    (p.reportBlocked b k).posts = p.posts := rfl
@[simp] theorem Part.reportBlocked_pool (p : Part) (b : BayId) (k : Bool) : (p.reportBlocked b k).pool = p.pool := rfl
@[simp] theorem Part.reportBlocked_lanes (p : Part) (b : BayId) (k : Bool) :
    (p.reportBlocked b k).lanes = p.lanes := rfl
@[simp] theorem Part.reportBlocked_rules (p : Part) (b : BayId) (k : Bool) :
    (p.reportBlocked b k).rules = p.rules := rfl
@[simp] theorem Part.reportBlocked_link (p : Part) (b : BayId) (k : Bool) : (p.reportBlocked b k).link = p.link := rfl
@[simp] theorem Part.reportBlocked_outstanding (p : Part) (b : BayId) (k : Bool) :
    (p.reportBlocked b k).outstanding = p.outstanding := rfl
@[simp] theorem Part.reportBlocked_choices (p : Part) (b : BayId) (k : Bool) :
    (p.reportBlocked b k).choices = p.choices := rfl
@[simp] theorem Part.reportBlocked_bay (p : Part) (b : BayId) (k : Bool) (b' : BayId) :
    (p.reportBlocked b k).bay b' = p.bay b' := rfl
@[simp] theorem Part.reportBlocked_feeder (p : Part) (b : BayId) (k : Bool) (f' : FeederId) :
    (p.reportBlocked b k).feeder f' = p.feeder f' := rfl
@[simp] theorem Part.reportBlocked_trip (p : Part) (b : BayId) (k : Bool) (f' : FeederId) :
    (p.reportBlocked b k).trip f' = p.trip f' := rfl
@[simp] theorem Part.reportBlocked_post (p : Part) (b : BayId) (k : Bool) (q' : PostId) :
    (p.reportBlocked b k).post q' = p.post q' := rfl
@[simp] theorem Part.reportBlocked_lane (p : Part) (b : BayId) (k : Bool) (l' : LaneId) :
    (p.reportBlocked b k).lane l' = p.lane l' := rfl
@[simp] theorem Part.reportBlocked_rule (p : Part) (b : BayId) (k : Bool) (r' : RuleId) :
    (p.reportBlocked b k).rule r' = p.rule r' := rfl
@[simp] theorem Part.reportBlocked_record (p : Part) (b : BayId) (k : Bool) (s' : SlotId) :
    (p.reportBlocked b k).record s' = p.record s' := rfl
@[simp] theorem Part.reportBlocked_chain (p : Part) (b : BayId) (k : Bool) (b' : BayId) :
    (p.reportBlocked b k).chain b' = p.chain b' := rfl
@[simp] theorem Part.retryDue_time (p : Part) : (p.retryDue).time = p.time := rfl
@[simp] theorem Part.retryDue_clock (p : Part) : (p.retryDue).clock = p.clock := rfl
@[simp] theorem Part.retryDue_settings (p : Part) : (p.retryDue).settings = p.settings := rfl
@[simp] theorem Part.retryDue_bays (p : Part) : (p.retryDue).bays = p.bays := rfl
@[simp] theorem Part.retryDue_feeders (p : Part) : (p.retryDue).feeders = p.feeders := rfl
@[simp] theorem Part.retryDue_trips (p : Part) : (p.retryDue).trips = p.trips := rfl
@[simp] theorem Part.retryDue_posts (p : Part) : (p.retryDue).posts = p.posts := rfl
@[simp] theorem Part.retryDue_pool (p : Part) : (p.retryDue).pool = p.pool := rfl
@[simp] theorem Part.retryDue_lanes (p : Part) : (p.retryDue).lanes = p.lanes := rfl
@[simp] theorem Part.retryDue_rules (p : Part) : (p.retryDue).rules = p.rules := rfl
@[simp] theorem Part.retryDue_link (p : Part) : (p.retryDue).link = p.link := rfl
@[simp] theorem Part.retryDue_outstanding (p : Part) : (p.retryDue).outstanding = p.outstanding := rfl
@[simp] theorem Part.retryDue_choices (p : Part) : (p.retryDue).choices = p.choices := rfl
@[simp] theorem Part.retryDue_bay (p : Part) (b' : BayId) : (p.retryDue).bay b' = p.bay b' := rfl
@[simp] theorem Part.retryDue_feeder (p : Part) (f' : FeederId) : (p.retryDue).feeder f' = p.feeder f' := rfl
@[simp] theorem Part.retryDue_trip (p : Part) (f' : FeederId) : (p.retryDue).trip f' = p.trip f' := rfl
@[simp] theorem Part.retryDue_post (p : Part) (q' : PostId) : (p.retryDue).post q' = p.post q' := rfl
@[simp] theorem Part.retryDue_lane (p : Part) (l' : LaneId) : (p.retryDue).lane l' = p.lane l' := rfl
@[simp] theorem Part.retryDue_rule (p : Part) (r' : RuleId) : (p.retryDue).rule r' = p.rule r' := rfl
@[simp] theorem Part.retryDue_record (p : Part) (s' : SlotId) : (p.retryDue).record s' = p.record s' := rfl
@[simp] theorem Part.retryDue_chain (p : Part) (b' : BayId) : (p.retryDue).chain b' = p.chain b' := rfl
@[simp] theorem Part.leadDue_time (p : Part) (s : SlotId) : (p.leadDue s).time = p.time := rfl
@[simp] theorem Part.leadDue_clock (p : Part) (s : SlotId) : (p.leadDue s).clock = p.clock := rfl
@[simp] theorem Part.leadDue_settings (p : Part) (s : SlotId) : (p.leadDue s).settings = p.settings := rfl
@[simp] theorem Part.leadDue_bays (p : Part) (s : SlotId) : (p.leadDue s).bays = p.bays := rfl
@[simp] theorem Part.leadDue_feeders (p : Part) (s : SlotId) : (p.leadDue s).feeders = p.feeders := rfl
@[simp] theorem Part.leadDue_trips (p : Part) (s : SlotId) : (p.leadDue s).trips = p.trips := rfl
@[simp] theorem Part.leadDue_posts (p : Part) (s : SlotId) : (p.leadDue s).posts = p.posts := rfl
@[simp] theorem Part.leadDue_pool (p : Part) (s : SlotId) : (p.leadDue s).pool = p.pool := rfl
@[simp] theorem Part.leadDue_lanes (p : Part) (s : SlotId) : (p.leadDue s).lanes = p.lanes := rfl
@[simp] theorem Part.leadDue_rules (p : Part) (s : SlotId) : (p.leadDue s).rules = p.rules := rfl
@[simp] theorem Part.leadDue_link (p : Part) (s : SlotId) : (p.leadDue s).link = p.link := rfl
@[simp] theorem Part.leadDue_outstanding (p : Part) (s : SlotId) : (p.leadDue s).outstanding = p.outstanding := rfl
@[simp] theorem Part.leadDue_choices (p : Part) (s : SlotId) : (p.leadDue s).choices = p.choices := rfl
@[simp] theorem Part.leadDue_bay (p : Part) (s : SlotId) (b' : BayId) : (p.leadDue s).bay b' = p.bay b' := rfl
@[simp] theorem Part.leadDue_feeder (p : Part) (s : SlotId) (f' : FeederId) :
    (p.leadDue s).feeder f' = p.feeder f' := rfl
@[simp] theorem Part.leadDue_trip (p : Part) (s : SlotId) (f' : FeederId) : (p.leadDue s).trip f' = p.trip f' := rfl
@[simp] theorem Part.leadDue_post (p : Part) (s : SlotId) (q' : PostId) : (p.leadDue s).post q' = p.post q' := rfl
@[simp] theorem Part.leadDue_lane (p : Part) (s : SlotId) (l' : LaneId) : (p.leadDue s).lane l' = p.lane l' := rfl
@[simp] theorem Part.leadDue_rule (p : Part) (s : SlotId) (r' : RuleId) : (p.leadDue s).rule r' = p.rule r' := rfl
@[simp] theorem Part.leadDue_record (p : Part) (s : SlotId) (s' : SlotId) :
    (p.leadDue s).record s' = p.record s' := rfl
@[simp] theorem Part.leadDue_chain (p : Part) (s : SlotId) (b' : BayId) : (p.leadDue s).chain b' = p.chain b' := rfl
@[simp] theorem Part.touchPost_time (p : Part) (q : PostId) : (p.touchPost q).time = p.time := by
  unfold Part.touchPost; split <;> rfl
@[simp] theorem Part.touchPost_clock (p : Part) (q : PostId) : (p.touchPost q).clock = p.clock := by
  unfold Part.touchPost; split <;> rfl
@[simp] theorem Part.touchPost_settings (p : Part) (q : PostId) : (p.touchPost q).settings = p.settings := by
  unfold Part.touchPost; split <;> rfl
@[simp] theorem Part.touchPost_bays (p : Part) (q : PostId) : (p.touchPost q).bays = p.bays := by
  unfold Part.touchPost; split <;> rfl
@[simp] theorem Part.touchPost_feeders (p : Part) (q : PostId) : (p.touchPost q).feeders = p.feeders := by
  unfold Part.touchPost; split <;> rfl
@[simp] theorem Part.touchPost_trips (p : Part) (q : PostId) : (p.touchPost q).trips = p.trips := by
  unfold Part.touchPost; split <;> rfl
@[simp] theorem Part.touchPost_posts (p : Part) (q : PostId) : (p.touchPost q).posts = p.posts := by
  unfold Part.touchPost; split <;> rfl
@[simp] theorem Part.touchPost_pool (p : Part) (q : PostId) : (p.touchPost q).pool = p.pool := by
  unfold Part.touchPost; split <;> rfl
@[simp] theorem Part.touchPost_lanes (p : Part) (q : PostId) : (p.touchPost q).lanes = p.lanes := by
  unfold Part.touchPost; split <;> rfl
@[simp] theorem Part.touchPost_rules (p : Part) (q : PostId) : (p.touchPost q).rules = p.rules := by
  unfold Part.touchPost; split <;> rfl
@[simp] theorem Part.touchPost_link (p : Part) (q : PostId) : (p.touchPost q).link = p.link := by
  unfold Part.touchPost; split <;> rfl
@[simp] theorem Part.touchPost_outstanding (p : Part) (q : PostId) : (p.touchPost q).outstanding = p.outstanding := by
  unfold Part.touchPost; split <;> rfl
@[simp] theorem Part.touchPost_choices (p : Part) (q : PostId) : (p.touchPost q).choices = p.choices := by
  unfold Part.touchPost; split <;> rfl
@[simp] theorem Part.touchPost_bay (p : Part) (q : PostId) (b' : BayId) : (p.touchPost q).bay b' = p.bay b' := by
  unfold Part.touchPost; split <;> rfl
@[simp] theorem Part.touchPost_feeder (p : Part) (q : PostId) (f' : FeederId) :
    (p.touchPost q).feeder f' = p.feeder f' := by
  unfold Part.touchPost; split <;> rfl
@[simp] theorem Part.touchPost_trip (p : Part) (q : PostId) (f' : FeederId) :
    (p.touchPost q).trip f' = p.trip f' := by
  unfold Part.touchPost; split <;> rfl
@[simp] theorem Part.touchPost_post (p : Part) (q : PostId) (q' : PostId) : (p.touchPost q).post q' = p.post q' := by
  unfold Part.touchPost; split <;> rfl
@[simp] theorem Part.touchPost_lane (p : Part) (q : PostId) (l' : LaneId) : (p.touchPost q).lane l' = p.lane l' := by
  unfold Part.touchPost; split <;> rfl
@[simp] theorem Part.touchPost_rule (p : Part) (q : PostId) (r' : RuleId) : (p.touchPost q).rule r' = p.rule r' := by
  unfold Part.touchPost; split <;> rfl
@[simp] theorem Part.touchPost_record (p : Part) (q : PostId) (s' : SlotId) :
    (p.touchPost q).record s' = p.record s' := by
  unfold Part.touchPost; split <;> rfl
@[simp] theorem Part.touchPost_chain (p : Part) (q : PostId) (b' : BayId) :
    (p.touchPost q).chain b' = p.chain b' := by
  unfold Part.touchPost; split <;> rfl
@[simp] theorem Part.touchBayOf_time (p : Part) (b : Option BayId) : (p.touchBayOf b).time = p.time := by
  cases b <;> simp [Part.touchBayOf]
@[simp] theorem Part.touchBayOf_clock (p : Part) (b : Option BayId) : (p.touchBayOf b).clock = p.clock := by
  cases b <;> simp [Part.touchBayOf]
@[simp] theorem Part.touchBayOf_settings (p : Part) (b : Option BayId) : (p.touchBayOf b).settings = p.settings := by
  cases b <;> simp [Part.touchBayOf]
@[simp] theorem Part.touchBayOf_bays (p : Part) (b : Option BayId) : (p.touchBayOf b).bays = p.bays := by
  cases b <;> simp [Part.touchBayOf]
@[simp] theorem Part.touchBayOf_feeders (p : Part) (b : Option BayId) : (p.touchBayOf b).feeders = p.feeders := by
  cases b <;> simp [Part.touchBayOf]
@[simp] theorem Part.touchBayOf_trips (p : Part) (b : Option BayId) : (p.touchBayOf b).trips = p.trips := by
  cases b <;> simp [Part.touchBayOf]
@[simp] theorem Part.touchBayOf_posts (p : Part) (b : Option BayId) : (p.touchBayOf b).posts = p.posts := by
  cases b <;> simp [Part.touchBayOf]
@[simp] theorem Part.touchBayOf_pool (p : Part) (b : Option BayId) : (p.touchBayOf b).pool = p.pool := by
  cases b <;> simp [Part.touchBayOf]
@[simp] theorem Part.touchBayOf_lanes (p : Part) (b : Option BayId) : (p.touchBayOf b).lanes = p.lanes := by
  cases b <;> simp [Part.touchBayOf]
@[simp] theorem Part.touchBayOf_rules (p : Part) (b : Option BayId) : (p.touchBayOf b).rules = p.rules := by
  cases b <;> simp [Part.touchBayOf]
@[simp] theorem Part.touchBayOf_link (p : Part) (b : Option BayId) : (p.touchBayOf b).link = p.link := by
  cases b <;> simp [Part.touchBayOf]
@[simp] theorem Part.touchBayOf_outstanding (p : Part) (b : Option BayId) :
    (p.touchBayOf b).outstanding = p.outstanding := by
  cases b <;> simp [Part.touchBayOf]
@[simp] theorem Part.touchBayOf_choices (p : Part) (b : Option BayId) : (p.touchBayOf b).choices = p.choices := by
  cases b <;> simp [Part.touchBayOf]
@[simp] theorem Part.touchBayOf_bay (p : Part) (b : Option BayId) (b' : BayId) :
    (p.touchBayOf b).bay b' = p.bay b' := by
  cases b <;> simp [Part.touchBayOf]
@[simp] theorem Part.touchBayOf_feeder (p : Part) (b : Option BayId) (f' : FeederId) :
    (p.touchBayOf b).feeder f' = p.feeder f' := by
  cases b <;> simp [Part.touchBayOf]
@[simp] theorem Part.touchBayOf_trip (p : Part) (b : Option BayId) (f' : FeederId) :
    (p.touchBayOf b).trip f' = p.trip f' := by
  cases b <;> simp [Part.touchBayOf]
@[simp] theorem Part.touchBayOf_post (p : Part) (b : Option BayId) (q' : PostId) :
    (p.touchBayOf b).post q' = p.post q' := by
  cases b <;> simp [Part.touchBayOf]
@[simp] theorem Part.touchBayOf_lane (p : Part) (b : Option BayId) (l' : LaneId) :
    (p.touchBayOf b).lane l' = p.lane l' := by
  cases b <;> simp [Part.touchBayOf]
@[simp] theorem Part.touchBayOf_rule (p : Part) (b : Option BayId) (r' : RuleId) :
    (p.touchBayOf b).rule r' = p.rule r' := by
  cases b <;> simp [Part.touchBayOf]
@[simp] theorem Part.touchBayOf_record (p : Part) (b : Option BayId) (s' : SlotId) :
    (p.touchBayOf b).record s' = p.record s' := by
  cases b <;> simp [Part.touchBayOf]
@[simp] theorem Part.touchBayOf_chain (p : Part) (b : Option BayId) (b' : BayId) :
    (p.touchBayOf b).chain b' = p.chain b' := by
  cases b <;> simp [Part.touchBayOf]
@[simp] theorem Part.shareChanged_time (p : Part) (f : FeederId) : (p.shareChanged f).time = p.time := rfl
@[simp] theorem Part.shareChanged_clock (p : Part) (f : FeederId) : (p.shareChanged f).clock = p.clock := rfl
@[simp] theorem Part.shareChanged_settings (p : Part) (f : FeederId) : (p.shareChanged f).settings = p.settings := rfl
@[simp] theorem Part.shareChanged_bays (p : Part) (f : FeederId) : (p.shareChanged f).bays = p.bays := rfl
@[simp] theorem Part.shareChanged_trips (p : Part) (f : FeederId) : (p.shareChanged f).trips = p.trips := rfl
@[simp] theorem Part.shareChanged_posts (p : Part) (f : FeederId) : (p.shareChanged f).posts = p.posts := rfl
@[simp] theorem Part.shareChanged_pool (p : Part) (f : FeederId) : (p.shareChanged f).pool = p.pool := rfl
@[simp] theorem Part.shareChanged_lanes (p : Part) (f : FeederId) : (p.shareChanged f).lanes = p.lanes := rfl
@[simp] theorem Part.shareChanged_rules (p : Part) (f : FeederId) : (p.shareChanged f).rules = p.rules := rfl
@[simp] theorem Part.shareChanged_link (p : Part) (f : FeederId) : (p.shareChanged f).link = p.link := rfl
@[simp] theorem Part.shareChanged_outstanding (p : Part) (f : FeederId) :
    (p.shareChanged f).outstanding = p.outstanding := rfl
@[simp] theorem Part.shareChanged_work (p : Part) (f : FeederId) : (p.shareChanged f).work = p.work := rfl
@[simp] theorem Part.shareChanged_choices (p : Part) (f : FeederId) : (p.shareChanged f).choices = p.choices := rfl
@[simp] theorem Part.shareChanged_bay (p : Part) (f : FeederId) (b' : BayId) :
    (p.shareChanged f).bay b' = p.bay b' := rfl
@[simp] theorem Part.shareChanged_trip (p : Part) (f : FeederId) (f' : FeederId) :
    (p.shareChanged f).trip f' = p.trip f' := rfl
@[simp] theorem Part.shareChanged_post (p : Part) (f : FeederId) (q' : PostId) :
    (p.shareChanged f).post q' = p.post q' := rfl
@[simp] theorem Part.shareChanged_lane (p : Part) (f : FeederId) (l' : LaneId) :
    (p.shareChanged f).lane l' = p.lane l' := rfl
@[simp] theorem Part.shareChanged_rule (p : Part) (f : FeederId) (r' : RuleId) :
    (p.shareChanged f).rule r' = p.rule r' := rfl
@[simp] theorem Part.shareChanged_record (p : Part) (f : FeederId) (s' : SlotId) :
    (p.shareChanged f).record s' = p.record s' := rfl
@[simp] theorem Part.shareChanged_chain (p : Part) (f : FeederId) (b' : BayId) :
    (p.shareChanged f).chain b' = p.chain b' := rfl

/-! ## put -/

@[simp] theorem Part.put_time (p : Part) (s : SlotId) (r : Record) : (p.put s r).time = p.time := by
  unfold Part.put; split <;> (try split) <;> simp
@[simp] theorem Part.put_clock (p : Part) (s : SlotId) (r : Record) : (p.put s r).clock = p.clock := by
  unfold Part.put; split <;> (try split) <;> simp
@[simp] theorem Part.put_settings (p : Part) (s : SlotId) (r : Record) : (p.put s r).settings = p.settings := by
  unfold Part.put; split <;> (try split) <;> simp
@[simp] theorem Part.put_bays (p : Part) (s : SlotId) (r : Record) : (p.put s r).bays = p.bays := by
  unfold Part.put; split <;> (try split) <;> simp
@[simp] theorem Part.put_feeders (p : Part) (s : SlotId) (r : Record) : (p.put s r).feeders = p.feeders := by
  unfold Part.put; split <;> (try split) <;> simp
@[simp] theorem Part.put_trips (p : Part) (s : SlotId) (r : Record) : (p.put s r).trips = p.trips := by
  unfold Part.put; split <;> (try split) <;> simp
@[simp] theorem Part.put_posts (p : Part) (s : SlotId) (r : Record) : (p.put s r).posts = p.posts := by
  unfold Part.put; split <;> (try split) <;> simp
@[simp] theorem Part.put_lanes (p : Part) (s : SlotId) (r : Record) : (p.put s r).lanes = p.lanes := by
  unfold Part.put; split <;> (try split) <;> simp
@[simp] theorem Part.put_rules (p : Part) (s : SlotId) (r : Record) : (p.put s r).rules = p.rules := by
  unfold Part.put; split <;> (try split) <;> simp
@[simp] theorem Part.put_link (p : Part) (s : SlotId) (r : Record) : (p.put s r).link = p.link := by
  unfold Part.put; split <;> (try split) <;> simp
@[simp] theorem Part.put_outstanding (p : Part) (s : SlotId) (r : Record) :
    (p.put s r).outstanding = p.outstanding := by
  unfold Part.put; split <;> (try split) <;> simp
@[simp] theorem Part.put_choices (p : Part) (s : SlotId) (r : Record) : (p.put s r).choices = p.choices := by
  unfold Part.put; split <;> (try split) <;> simp
@[simp] theorem Part.put_pool (p : Part) (s : SlotId) (r : Record) : (p.put s r).pool = p.pool.put s r := by
  unfold Part.put; split <;> (try split) <;> simp

end Sys2Proof.Machine
end

