-- ==== Sys2Proof/Laws/Pool.lean ====
section
/-! SUPPORT. What the moves of the Reservation Pool do: the records they leave, the collections they change, and the
partition and the generations, which every one of them keeps (R27, R31). -/

namespace Sys2Proof.Machine

/-! ## Slots -/

theorem Pool.slot_setSlot (q : Pool) (s k : SlotId) (x : Slot) :
    (q.setSlot s x).slot k = if k = s then x else q.slot k := by
  by_cases h : k = s
  · subst h; rw [if_pos rfl]; exact get_set_same q.slots k x
  · rw [if_neg h]; exact get_set_ne q.slots s k x h

theorem Pool.record_setSlot (q : Pool) (s k : SlotId) (x : Slot) :
    (q.setSlot s x).record k = if k = s then x.record else q.record k := by
  unfold Pool.record
  rw [Pool.slot_setSlot]
  split <;> rfl

@[simp] theorem Pool.members_setSlot (q : Pool) (s : SlotId) (x : Slot) (h : Home) :
    (q.setSlot s x).members h = q.members h := by
  cases h <;> rfl

@[simp] theorem Pool.slot_setMembers (q : Pool) (h : Home) (l : List SlotId) (k : SlotId) :
    (q.setMembers h l).slot k = q.slot k := by
  cases h <;> rfl

@[simp] theorem Pool.record_setMembers (q : Pool) (h : Home) (l : List SlotId) (k : SlotId) :
    (q.setMembers h l).record k = q.record k := by
  cases h <;> rfl

@[simp] theorem Pool.homeOf_setMembers (q : Pool) (h : Home) (l : List SlotId) (k : SlotId) :
    (q.setMembers h l).homeOf k = q.homeOf k := by
  cases h <;> rfl

/-- Writing one collection leaves every other. -/
theorem Pool.members_setMembers (q : Pool) (h h' : Home) (l : List SlotId) :
    (q.setMembers h l).members h' = if h' = h then l else q.members h' := by
  cases h with
  | chain b =>
    cases h' with
    | chain c =>
      simp only [Pool.setMembers, Pool.members, Home.chain.injEq]
      by_cases e : c = b
      · subst e; simpa using get_set_same q.chains c l
      · simpa [e] using get_set_ne q.chains b c l e
    | free | waiting | closing => simp [Pool.setMembers, Pool.members]
  | free | waiting | closing => cases h' <;> simp [Pool.setMembers, Pool.members]

/-! ## Joining and leaving -/

theorem count_insertBefore {α : Type} [DecidableEq α] (before : α → Bool) (x y : α) (l : List α) :
    (insertBefore before x l).count y = l.count y + if x = y then 1 else 0 := by
  induction l with
  | nil => simp [insertBefore, List.count_cons]
  | cons z zs ih =>
    unfold insertBefore
    split
    · simp [List.count_cons]
    · simp only [List.count_cons, ih]
      omega

theorem Pool.slot_join (q : Pool) (h : Home) (s k : SlotId) (r : Record) : (q.join h s r).slot k = q.slot k := by
  simp [Pool.join]

theorem Pool.slot_leave (q : Pool) (h : Home) (s k : SlotId) : (q.leave h s).slot k = q.slot k := by
  simp [Pool.leave]

theorem Pool.homeOf_leave (q : Pool) (h : Home) (s k : SlotId) : (q.leave h s).homeOf k = q.homeOf k := by
  simp [Pool.leave]

theorem Pool.homeOf_join (q : Pool) (h : Home) (s k : SlotId) (r : Record) :
    (q.join h s r).homeOf k = q.homeOf k := by
  simp [Pool.join]

/-- A slot that joins a collection stands in it once more; nothing else moves. -/
theorem Pool.count_join (q : Pool) (h h' : Home) (s k : SlotId) (r : Record) :
    ((q.join h s r).members h').count k = (q.members h').count k + if h' = h ∧ s = k then 1 else 0 := by
  unfold Pool.join
  rw [Pool.members_setMembers]
  by_cases e : h' = h
  · subst e
    cases h' with
    | free => simp [Pool.members, List.count_cons]
    | chain b => simp [Pool.members, count_insertBefore]
    | waiting => simp [Pool.members, count_insertBefore]
    | closing => simp [Pool.members, List.count_append, List.count_cons]
  · simp [e]

/-- A slot that leaves a collection stands in it no more; nothing else moves. -/
theorem Pool.count_leave (q : Pool) (h h' : Home) (s k : SlotId) :
    ((q.leave h s).members h').count k = if h' = h ∧ s = k then 0 else (q.members h').count k := by
  unfold Pool.leave
  rw [Pool.members_setMembers]
  by_cases e : h' = h
  · subst e
    by_cases e' : s = k
    · subst e'
      simp [List.count_eq_zero]
    · simp only [if_true, e', and_false, if_false]
      exact List.count_filter (by simpa using fun x => e' x.symm)
  · simp [e]

/-! ## Storing a record -/

/-- The slots after a record has been stored. -/
theorem Pool.slot_put (q : Pool) (s k : SlotId) (r : Record) :
    (q.put s r).slot k = if k = s then ⟨(q.slot s).generation, some r⟩ else q.slot k := by
  unfold Pool.put
  simp only
  split
  · rw [Pool.slot_setSlot]
  · rw [Pool.slot_join, Pool.slot_leave, Pool.slot_setSlot]

/-- The records after a record has been stored. -/
theorem Pool.record_put (q : Pool) (s k : SlotId) (r : Record) :
    (q.put s r).record k = if k = s then some r else q.record k := by
  unfold Pool.record
  rw [Pool.slot_put]
  split <;> rfl

@[simp] theorem Pool.record_put_self (q : Pool) (s : SlotId) (r : Record) : (q.put s r).record s = some r := by
  simp [Pool.record_put]

theorem Pool.record_put_ne (q : Pool) {s k : SlotId} (r : Record) (h : k ≠ s) :
    (q.put s r).record k = q.record k := by
  simp [Pool.record_put, h]

@[simp] theorem Pool.generation_put (q : Pool) (s k : SlotId) (r : Record) :
    ((q.put s r).slot k).generation = (q.slot k).generation := by
  rw [Pool.slot_put]
  split
  · next h => subst h; rfl
  · rfl

theorem Pool.homeOf_put (q : Pool) (s k : SlotId) (r : Record) :
    (q.put s r).homeOf k = if k = s then r.home else q.homeOf k := by
  unfold Pool.homeOf
  rw [Pool.record_put]
  by_cases h : k = s <;> simp [h]

/-- A record that stays in its collection leaves every collection as it is (R36). -/
theorem Pool.members_put_home (q : Pool) (s : SlotId) (r : Record) (h : Home) (e : q.homeOf s = r.home) :
    (q.put s r).members h = q.members h := by
  simp [Pool.put, e]

/-- Storing a record keeps the partition (R27). -/
theorem Pool.partitioned_put {q : Pool} (hq : q.partitioned) (s : SlotId) (r : Record) : (q.put s r).partitioned := by
  intro k h
  rw [Pool.homeOf_put]
  by_cases e : q.homeOf s = r.home
  · rw [Pool.members_put_home q s r h e, hq k h]
    by_cases ek : k = s
    · subst ek; simp [e]
    · simp [ek]
  · simp only [Pool.put, e, if_false]
    rw [Pool.count_join, Pool.count_leave, Pool.members_setSlot, hq k h]
    grind

/-! ## Freeing a slot -/

/-- The slots after a slot has been freed (R43). -/
theorem Pool.slot_release (q : Pool) (s k : SlotId) :
    (q.release s).slot k = if k = s then ⟨nextGeneration (q.slot s).generation, none⟩ else q.slot k := by
  show ((q.leave (q.homeOf s) s).setSlot s _).slot k = _
  rw [Pool.slot_setSlot, Pool.slot_leave]

theorem Pool.record_release (q : Pool) (s k : SlotId) :
    (q.release s).record k = if k = s then none else q.record k := by
  unfold Pool.record
  rw [Pool.slot_release]
  split <;> rfl

/-- Freeing a slot keeps the partition (R27). -/
theorem Pool.partitioned_release {q : Pool} (hq : q.partitioned) (s : SlotId) : (q.release s).partitioned := by
  intro k h
  have home : (q.release s).homeOf k = if k = s then .free else q.homeOf k := by
    unfold Pool.homeOf
    rw [Pool.record_release]
    by_cases h : k = s <;> simp [h]
  have members : (q.release s).members h =
      if h = .free then s :: (q.leave (q.homeOf s) s).members .free else (q.leave (q.homeOf s) s).members h := by
    cases h <;> rfl
  rw [home, members]
  by_cases e : h = .free
  · subst e
    simp only [if_true, List.count_cons, Pool.count_leave, hq k .free, beq_iff_eq]
    grind
  · simp only [e, if_false, Pool.count_leave, hq k h]
    grind

/-! ## The empty pool, and the pool rebuilt -/

theorem count_allSlots (s : SlotId) : allSlots.count s = 1 :=
  List.count_eq_one_of_mem (List.nodup_finRange 192) (List.mem_finRange s)

theorem mem_allSlots (s : SlotId) : s ∈ allSlots := List.mem_finRange s

/-- A pool with no record and every slot in the free list is partitioned. -/
theorem Pool.partitioned_of_empty {q : Pool} (hr : ∀ s, q.record s = none) (hf : q.free = allSlots)
    (hc : ∀ b : BayId, q.chains.get b = []) (hw : q.waiting = []) (hl : q.closing = []) : q.partitioned := by
  intro s h
  have home : q.homeOf s = .free := by simp [Pool.homeOf, hr s]
  rw [home]
  cases h with
  | free => simp [Pool.members, hf, count_allSlots]
  | chain b => simp [Pool.members, hc b]
  | waiting => simp [Pool.members, hw]
  | closing => simp [Pool.members, hl]

theorem Pool.partitioned_reset : Pool.reset.partitioned := by
  refine Pool.partitioned_of_empty ?_ rfl ?_ rfl rfl
  · intro s; simp [Pool.record, Pool.slot, Pool.reset, Vector.get]
  · intro b; simp [Pool.reset, Vector.get]

end Sys2Proof.Machine
end

