-- ==== Sys2Proof/Laws/Moves.lean ====
section
/-! SUPPORT. Everything that an event behind the port can do, as a chain of elementary moves, and what every such chain
keeps: the configuration, the partition of the pool, the soundness of the records, the ranges of the tables, and the
closed records. The operations are shown to be such chains in the files that follow. -/

namespace Sys2Proof.Machine

/-- What a record that is stored over another one keeps of its soundness, and of its close. -/
structure Record.Keeps (old new : Record) : Prop where
  window : old.windowSound → new.windowSound
  residue : old.residueSound → new.residueSound
  energy : old.energySound → new.energySound
  phase : old.phaseSound → new.phaseSound
  closed : old.state = .closing → new.state = .closing ∧ new.close = old.close
  bayed : old.bayed → new.bayed

theorem Record.Keeps.refl (r : Record) : r.Keeps r := ⟨id, id, id, id, fun h => ⟨h, rfl⟩, id⟩

/-- A record that is WAITING when it is stored waited before with the same keys, or joins a list with room (R85). -/
def Record.WaitsBy (old new : Record) (room : Prop) : Prop :=
  (old.state = .waiting ∧ new.priority = old.priority ∧ new.created = old.created) ∨ (old.state ≠ .waiting ∧ room)

/-- A chain of elementary moves of an event. `timed` says that the Park Clock may move. -/
inductive Part.Moves (timed : Bool) : Part → Part → Prop where
  | refl (p : Part) : Part.Moves timed p p
  | trans {p q r : Part} : Part.Moves timed p q → Part.Moves timed q r → Part.Moves timed p r
  | bay (p : Part) (b : BayId) (x : Bay) : x.config = (p.bay b).config →
      ((p.bay b).numbersSound → x.numbersSound) → Part.Moves timed p (p.setBay b x)
  | feeder (p : Part) (f : FeederId) (x : Feeder) : x.config = (p.feeder f).config →
      ((p.feeder f).numbersSound → x.numbersSound) → Part.Moves timed p (p.setFeeder f x)
  | post (p : Part) (a : PostId) (x : Post) : x.inUse = (p.post a).inUse →
      ((p.post a).countersSound → x.countersSound) → Part.Moves timed p (p.setPost a x)
  | rule (p : Part) (r : RuleId) (x : Rule) : x.groups = (p.rule r).groups →
      ((p.rule r).counter ≤ (p.rule r).tally.limit → x.counter ≤ x.tally.limit) → Part.Moves timed p (p.setRule r x)
  | store (p : Part) (s : SlotId) (old r : Record) : p.record s = some old → old.Keeps r →
      (r.state = .waiting → old.WaitsBy r (p.pool.waiting.length < 32)) →
      Part.Moves timed p { p with pool := p.pool.put s r }
  | work (p : Part) (w : Work) : Part.Moves timed p { p with work := w }
  | link (p : Part) (l : Link) : (p.link.roundCount ≤ 9 → l.roundCount ≤ 9) → Part.Moves timed p { p with link := l }
  | outstanding (p : Part) (o : Outstanding) : Part.Moves timed p { p with outstanding := o }
  | choices (p : Part) (n : Nat) : Part.Moves timed p { p with choices := n }
  | clock (p : Part) (c : Clock) : timed = true → (p.clock.numbersSound → c.numbersSound) →
      Part.Moves timed p { p with clock := c }

namespace Part.Moves

variable {timed : Bool} {p q : Part}

/-- Without the clock a chain is also one with it. -/
theorem anyTime (h : Part.Moves false p q) : Part.Moves timed p q := by
  induction h with
  | refl p => exact .refl p
  | trans _ _ h1 h2 => exact .trans h1 h2
  | bay p b x h1 h2 => exact .bay p b x h1 h2
  | feeder p f x h1 h2 => exact .feeder p f x h1 h2
  | post p a x h1 h2 => exact .post p a x h1 h2
  | rule p r x h1 h2 => exact .rule p r x h1 h2
  | store p s old r h1 h2 h3 => exact .store p s old r h1 h2 h3
  | work p w => exact .work p w
  | link p l h => exact .link p l h
  | outstanding p o => exact .outstanding p o
  | choices p n => exact .choices p n
  | clock p c h => exact absurd h (by decide)

/-- A walk over a list whose every step is a chain. -/
theorem foldl {α : Type} {f : Part → α → Part} (l : List α) (h : ∀ p, ∀ a ∈ l, Part.Moves timed p (f p a)) (p : Part) :
    Part.Moves timed p (l.foldl f p) := by
  induction l generalizing p with
  | nil => exact .refl p
  | cons a l ih => exact .trans (h p a (by simp)) (ih (fun p b hb => h p b (by simp [hb])) _)

/-! ## What a chain keeps -/

theorem time (h : Part.Moves timed p q) : q.time = p.time := by
  induction h with
  | trans _ _ h1 h2 => exact h2.trans h1
  | _ => rfl

theorem settings (h : Part.Moves timed p q) : q.settings = p.settings := by
  induction h with
  | trans _ _ h1 h2 => exact h2.trans h1
  | _ => rfl

theorem lanes (h : Part.Moves timed p q) : q.lanes = p.lanes := by
  induction h with
  | trans _ _ h1 h2 => exact h2.trans h1
  | _ => rfl

theorem trips (h : Part.Moves timed p q) : q.trips = p.trips := by
  induction h with
  | trans _ _ h1 h2 => exact h2.trans h1
  | _ => rfl

theorem clock_eq (h : Part.Moves false p q) : q.clock = p.clock := by
  induction h with
  | trans _ _ h1 h2 => exact h2.trans h1
  | clock p c h => exact absurd h (by decide)
  | _ => rfl

theorem now_eq (h : Part.Moves false p q) : q.now = p.now := by
  unfold Part.now
  rw [h.clock_eq]

theorem bay_config (h : Part.Moves timed p q) (b : BayId) : (q.bay b).config = (p.bay b).config := by
  induction h with
  | trans _ _ h1 h2 => exact h2.trans h1
  | bay p b' x h1 _ =>
    rw [Part.bay_setBay]
    split
    · next e => rw [e, h1]
    · rfl
  | _ => rfl

theorem feeder_config (h : Part.Moves timed p q) (f : FeederId) : (q.feeder f).config = (p.feeder f).config := by
  induction h with
  | trans _ _ h1 h2 => exact h2.trans h1
  | feeder p f' x h1 _ =>
    rw [Part.feeder_setFeeder]
    split
    · next e => rw [e, h1]
    · rfl
  | _ => rfl

theorem post_inUse (h : Part.Moves timed p q) (a : PostId) : (q.post a).inUse = (p.post a).inUse := by
  induction h with
  | trans _ _ h1 h2 => exact h2.trans h1
  | post p a' x h1 _ =>
    rw [Part.post_setPost]
    split
    · next e => rw [e, h1]
    · rfl
  | _ => rfl

theorem rule_groups (h : Part.Moves timed p q) (r : RuleId) : (q.rule r).groups = (p.rule r).groups := by
  induction h with
  | trans _ _ h1 h2 => exact h2.trans h1
  | rule p r' x h1 _ =>
    rw [Part.rule_setRule]
    split
    · next e => rw [e, h1]
    · rfl
  | _ => rfl

/-- No event changes the configuration (R1, R11, R15, R50, R53, R174). -/
theorem sameConfig (h : Part.Moves timed p q) : p.SameConfig q :=
  ⟨h.settings, h.lanes, h.bay_config, h.feeder_config, h.post_inUse, h.rule_groups⟩

theorem partitioned (h : Part.Moves timed p q) (hp : p.pool.partitioned) : q.pool.partitioned := by
  induction h with
  | trans _ _ h1 h2 => exact h2 (h1 hp)
  | store p s old r _ _ _ => exact Pool.partitioned_put hp s r
  | _ => exact hp

theorem generation (h : Part.Moves timed p q) (s : SlotId) :
    (q.pool.slot s).generation = (p.pool.slot s).generation := by
  induction h with
  | trans _ _ h1 h2 => exact h2.trans h1
  | store p k old r _ _ _ => exact Pool.generation_put p.pool k s r
  | _ => rfl

theorem handle (h : Part.Moves timed p q) (s : SlotId) : q.pool.handle s = p.pool.handle s := by
  unfold Pool.handle
  rw [h.generation]

/-- A record that stays in its slot keeps what every store keeps. -/
theorem record_some (h : Part.Moves timed p q) (s : SlotId) (r : Record) (hr : p.record s = some r) :
    ∃ r', q.record s = some r' ∧ r.Keeps r' := by
  induction h generalizing r with
  | trans _ _ h1 h2 =>
    obtain ⟨r1, e1, k1⟩ := h1 r hr
    obtain ⟨r2, e2, k2⟩ := h2 r1 e1
    refine ⟨r2, e2, ⟨k2.window ∘ k1.window, k2.residue ∘ k1.residue, k2.energy ∘ k1.energy, k2.phase ∘ k1.phase, ?_,
      k2.bayed ∘ k1.bayed⟩⟩
    intro c
    obtain ⟨c1, d1⟩ := k1.closed c
    obtain ⟨c2, d2⟩ := k2.closed c1
    exact ⟨c2, d2.trans d1⟩
  | store p k old r0 h1 h2 _ =>
    show ∃ r', (p.pool.put k r0).record s = some r' ∧ _
    rw [Pool.record_put]
    by_cases e : s = k
    · subst e
      rw [if_pos rfl]
      exact ⟨r0, rfl, Option.some.inj (h1.symm.trans hr) ▸ h2⟩
    · rw [if_neg e]
      exact ⟨r, hr, .refl r⟩
  | _ => exact ⟨r, hr, .refl r⟩

/-- No event creates a record in a free slot. -/
theorem record_none (h : Part.Moves timed p q) (s : SlotId) (hr : p.record s = none) : q.record s = none := by
  induction h with
  | trans _ _ h1 h2 => exact h2 (h1 hr)
  | store p k old r0 h1 _ _ =>
    show (p.pool.put k r0).record s = none
    rw [Pool.record_put]
    by_cases e : s = k
    · subst e
      exact absurd (h1.symm.trans hr) (by simp)
    · rw [if_neg e]
      exact hr
  | _ => exact hr

/-- Every live record keeps a property that every store keeps. -/
theorem allRecords (h : Part.Moves timed p q) {good : Record → Prop}
    (keeps : ∀ old new : Record, old.Keeps new → good old → good new) (hp : p.allRecords good) : q.allRecords good := by
  intro s r' hr'
  cases hr : p.record s with
  | none => exact absurd (hr'.symm.trans (h.record_none s hr)) (by simp)
  | some r =>
    obtain ⟨r2, e2, k⟩ := h.record_some s r hr
    rw [e2] at hr'
    exact Option.some.inj hr' ▸ keeps r r2 k (hp s r hr)

/-- A closed record stays as it closed (R30). -/
theorem closed (h : Part.Moves timed p q) (s : SlotId) (r : Record) (hr : p.record s = some r)
    (hc : r.state = .closing) : ∃ r', q.record s = some r' ∧ r'.state = .closing ∧ r'.close = r.close := by
  obtain ⟨r', e, k⟩ := h.record_some s r hr
  obtain ⟨c, d⟩ := k.closed hc
  exact ⟨r', e, c, d⟩

/-- Every event keeps the tables in their ranges. -/
theorem numbersSound (h : Part.Moves timed p q) (hp : p.numbersSound) : q.numbersSound := by
  induction h with
  | trans _ _ h1 h2 => exact h2 (h1 hp)
  | bay p b x _ h2 =>
    refine ⟨fun b' => ?_, hp.feeder, hp.post, hp.settings, hp.clock, hp.round⟩
    rw [Part.bay_setBay]
    split
    · exact h2 (hp.bay b)
    · exact hp.bay b'
  | feeder p f x _ h2 =>
    refine ⟨hp.bay, fun f' => ?_, hp.post, hp.settings, hp.clock, hp.round⟩
    rw [Part.feeder_setFeeder]
    split
    · exact h2 (hp.feeder f)
    · exact hp.feeder f'
  | post p a x _ h2 =>
    refine ⟨hp.bay, hp.feeder, fun a' => ?_, hp.settings, hp.clock, hp.round⟩
    rw [Part.post_setPost]
    split
    · exact h2 (hp.post a)
    · exact hp.post a'
  | rule p r x _ _ => exact ⟨hp.bay, hp.feeder, hp.post, hp.settings, hp.clock, hp.round⟩
  | store p s old r _ _ _ => exact ⟨hp.bay, hp.feeder, hp.post, hp.settings, hp.clock, hp.round⟩
  | link p l h => exact ⟨hp.bay, hp.feeder, hp.post, hp.settings, hp.clock, h hp.round⟩
  | clock p c _ h => exact ⟨hp.bay, hp.feeder, hp.post, hp.settings, h hp.clock, hp.round⟩
  | refl | work | outstanding | choices => exact ⟨hp.bay, hp.feeder, hp.post, hp.settings, hp.clock, hp.round⟩

/-- Every event keeps the tally counters at or below their limits (R61). -/
theorem talliesSound (h : Part.Moves timed p q) (hp : p.talliesSound) : q.talliesSound := by
  induction h with
  | trans _ _ h1 h2 => exact h2 (h1 hp)
  | rule p r x _ h2 =>
    intro r'
    rw [Part.rule_setRule]
    split
    · exact h2 (hp r)
    · exact hp r'
  | _ => exact hp

end Part.Moves

/-- A stored record makes the Waiting List longer by at most its own entry. -/
theorem Pool.waiting_put (q : Pool) (s : SlotId) (r : Record) :
    (q.put s r).waiting.length ≤ q.waiting.length + (if r.state = .waiting ∧ q.homeOf s ≠ .waiting then 1 else 0) := by
  by_cases e : q.homeOf s = r.home
  · have := Pool.members_put_home q s r .waiting e
    exact Nat.le_trans (Nat.le_of_eq (congrArg List.length this)) (Nat.le_add_right _ _)
  · have shrink : ∀ h : Home, ((q.setSlot s { q.slot s with record := some r }).leave h s).waiting.length ≤
        q.waiting.length := by
      intro h
      show (((q.setSlot s _).leave h s).members .waiting).length ≤ _
      unfold Pool.leave
      rw [Pool.members_setMembers]
      split
      · next e => subst e; exact List.length_filter_le _ _
      · exact Nat.le_refl _
    have insert : ∀ (before : SlotId → Bool) (l : List SlotId), (insertBefore before s l).length = l.length + 1 := by
      intro before l
      induction l with
      | nil => rfl
      | cons y ys ih =>
        unfold insertBefore
        split <;> simp [ih]
    simp only [Pool.put, e, if_false]
    generalize hl : (q.setSlot s { q.slot s with record := some r }).leave (q.homeOf s) s = left
    have hs := shrink (q.homeOf s)
    rw [hl] at hs
    show ((left.join r.home s r).members .waiting).length ≤ _
    unfold Pool.join
    rw [Pool.members_setMembers]
    by_cases hw : r.state = .waiting
    · have hh : r.home = .waiting := by simp [Record.home, hw]
      have hn : q.homeOf s ≠ .waiting := fun x => e (x.trans hh.symm)
      simp only [hh, if_true, insert, hw, hn, ne_eq, not_false_eq_true, and_self]
      omega
    · have hh : r.home ≠ .waiting := by
        unfold Record.home
        cases hs : r.state <;> simp_all
      rw [if_neg (fun x => hh x.symm)]
      show left.waiting.length ≤ _
      omega

/-- Every event keeps at most 32 records waiting (R85). -/
theorem Part.Moves.waiting_le {timed : Bool} {p q : Part} (h : Part.Moves timed p q)
    (hp : p.pool.waiting.length ≤ 32) : q.pool.waiting.length ≤ 32 := by
  induction h with
  | trans _ _ h1 h2 => exact h2 (h1 hp)
  | store p s old r h1 _ h3 =>
    refine Nat.le_trans (Pool.waiting_put p.pool s r) ?_
    split
    · next e =>
      rcases h3 e.1 with ⟨h, _⟩ | ⟨_, h⟩
      · refine absurd ?_ e.2
        have : p.pool.record s = some old := h1
        simp [Pool.homeOf, this, Record.home, h]
      · omega
    · omega
  | _ => exact hp

end Sys2Proof.Machine
end

