-- ==== Sys2Proof/Laws/Session.lean ====
section
/-! SUPPORT. What each change of a session keeps of the soundness of its record: one lemma for each function of
Machine/Sessions.lean. -/

namespace Sys2Proof.Machine

/-- The residue of a session is below one Wh (R128). -/
def Session.residueSound (x : Session) : Prop := x.residue < 36000

/-- The energy counts of a session under a quota (R29, R129). -/
def Session.energySound (quota : Option Nat) (x : Session) : Prop :=
  (∀ n, quota = some n → x.within ≤ n) ∧
  (x.phase = .quotaMet ∨ x.stoppedIn = some .quotaMet → quota.isSome) ∧
  (x.excess ≠ 0 → x.seen.overrun = true)

/-- The parts that only one phase has (R116). -/
def Session.phaseSound (x : Session) : Prop :=
  (x.pause ≠ .none → x.phase = .paused) ∧ (x.stoppedIn ≠ none → x.phase = .halted) ∧
  (x.settle ≠ none → x.phase = .settling)

/-- What a session that is stored over another one keeps of its soundness. -/
structure Session.Keeps (quota : Option Nat) (x y : Session) : Prop where
  residue : x.residueSound → y.residueSound
  energy : x.energySound quota → y.energySound quota
  phase : x.phaseSound → y.phaseSound

namespace Session.Keeps

variable {quota : Option Nat} {x y z : Session}

theorem refl (x : Session) : Session.Keeps quota x x := ⟨id, id, id⟩

theorem trans (h : Session.Keeps quota x y) (k : Session.Keeps quota y z) : Session.Keeps quota x z :=
  ⟨k.residue ∘ h.residue, k.energy ∘ h.energy, k.phase ∘ h.phase⟩

/-- A record whose session is changed in place keeps what the session keeps. -/
theorem record {r r' : Record} (hx : r.session = some x) (hk : Session.Keeps r.quota x y)
    (hs : r'.session = some y) (hw : r'.windowStart = r.windowStart) (he : r'.windowEnd = r.windowEnd)
    (hd : r'.duration = r.duration) (hl : r'.extensions = r.extensions) (hq : r'.quota = r.quota)
    (hst : r'.state = r.state) (hc : r'.close = r.close) (hb : r'.bay = r.bay) : r.Keeps r' := by
  refine ⟨?_, ?_, ?_, ?_, fun h => ⟨hst.trans h, hc⟩, ?_⟩
  · unfold Record.windowSound
    rw [hw, he, hd, hl]
    exact id
  · intro h z hz
    cases hs.symm.trans hz
    exact hk.residue (h x hx)
  · intro h
    refine ⟨hq ▸ h.1, fun z hz => ?_⟩
    cases hs.symm.trans hz
    rw [hq]
    exact hk.energy (h.2 x hx)
  · intro h z hz
    cases hs.symm.trans hz
    exact hk.phase (h x hx)
  · unfold Record.bayed
    rw [hst, hb]
    exact id

theorem intoCharge (penalty : Nat) (hset : x.settle = none) (hst : x.stoppedIn = none) :
    Session.Keeps quota x (x.intoCharge penalty) := by
  unfold Session.intoCharge
  split
  · exact ⟨id, fun h => ⟨h.1, by simp [hst], h.2.2⟩, fun _ => ⟨fun _ => rfl, by simp [hst], by simp [hset]⟩⟩
  · exact ⟨id, fun h => ⟨h.1, by simp [hst], h.2.2⟩, fun _ => ⟨by simp, by simp [hst], by simp [hset]⟩⟩

theorem intoSettling (cause : SettleCause) (time : Nat) : Session.Keeps quota x (x.intoSettling cause time) :=
  ⟨id, fun h => ⟨h.1, by simp [Session.intoSettling], h.2.2⟩, fun _ => by simp [Session.phaseSound, Session.intoSettling]⟩

theorem halt : Session.Keeps quota x x.halt := by
  refine ⟨?_, ?_, ?_⟩ <;> intro h <;> cases hp : x.phase <;>
    simp_all [Session.residueSound, Session.energySound, Session.phaseSound, Session.halt]

theorem windowEnd (now : Nat) : Session.Keeps quota x (x.windowEnd now) := by
  refine ⟨?_, ?_, ?_⟩ <;> intro h <;> cases hp : x.phase <;>
    simp_all [Session.residueSound, Session.energySound, Session.phaseSound, Session.windowEnd]

theorem plugIn (penalty : Nat) : Session.Keeps quota x (x.plugIn quota penalty) := by
  unfold Session.plugIn
  cases hp : x.phase <;> dsimp only <;> try exact .refl x
  by_cases hf : x.quotaFull quota = true
  · rw [if_pos hf]
    refine ⟨?_, ?_, ?_⟩ <;> intro h <;>
      simp_all [Session.residueSound, Session.energySound, Session.phaseSound, Session.quotaFull]
  · rw [if_neg hf]
    unfold Session.intoCharge
    split <;> refine ⟨?_, ?_, ?_⟩ <;> intro h <;>
      simp_all [Session.residueSound, Session.energySound, Session.phaseSound]

theorem plugOut : Session.Keeps quota x x.plugOut := by
  refine ⟨?_, ?_, ?_⟩ <;> intro h <;> cases hp : x.phase <;>
    simp_all [Session.residueSound, Session.energySound, Session.phaseSound, Session.plugOut]

theorem shared (isAdmitted : Bool) (cause : PauseCause) (hd : x.phase.demands = true) :
    Session.Keeps quota x (x.shared isAdmitted cause) := by
  refine ⟨?_, ?_, ?_⟩ <;> intro h <;> cases isAdmitted <;> cases hp : x.phase <;>
    simp_all [Session.residueSound, Session.energySound, Session.phaseSound, Session.shared, Phase.demands]

theorem penalize : Session.Keeps quota x x.penalize := by
  refine ⟨?_, ?_, ?_⟩ <;> intro h <;> cases hp : x.phase <;>
    simp_all [Session.residueSound, Session.energySound, Session.phaseSound, Session.penalize]

theorem checkSatisfied (limit reading : Nat) : Session.Keeps quota x (x.checkSatisfied limit reading) := by
  unfold Session.checkSatisfied
  by_cases hd : x.drawsNothing limit reading = true
  · have hc : x.phase = .charge := by simp_all [Session.drawsNothing]
    rw [if_pos hd]
    split <;> refine ⟨?_, ?_, ?_⟩ <;> intro h <;>
      simp_all [Session.residueSound, Session.energySound, Session.phaseSound]
  · rw [if_neg hd]
    split <;> exact ⟨id, id, id⟩

theorem resumed (plugged : Bool) (penalty : Nat) (hp : x.phase = .halted) :
    Session.Keeps quota x (x.resumed plugged penalty) := by
  refine ⟨?_, ?_, ?_⟩ <;> intro h <;> cases plugged <;> cases hs : x.stoppedIn with
    | none => simp_all [Session.residueSound, Session.energySound, Session.phaseSound, Session.resumed,
        Session.intoCharge] <;> (repeat' split) <;> simp_all
    | some k => cases k <;> simp_all [Session.residueSound, Session.energySound, Session.phaseSound, Session.resumed,
        Session.intoCharge] <;> (repeat' split) <;> simp_all

theorem meetQuota (hq : quota.isSome) : Session.Keeps quota x x.meetQuota := by
  refine ⟨?_, ?_, ?_⟩ <;> intro h <;> cases hp : x.phase <;> unfold Session.meetQuota <;>
    simp_all [Session.residueSound, Session.energySound, Session.phaseSound] <;> (repeat' split) <;> simp_all

end Session.Keeps

theorem Session.noteOverrun_eq (x : Session) : x.noteOverrun.within = x.within ∧ x.noteOverrun.phase = x.phase ∧
    x.noteOverrun.stoppedIn = x.stoppedIn ∧ x.noteOverrun.excess = x.excess ∧ x.noteOverrun.residue = x.residue ∧
    x.noteOverrun.pause = x.pause ∧ x.noteOverrun.settle = x.settle ∧
    (x.excess ≠ 0 → x.noteOverrun.seen.overrun = true) := by
  unfold Session.noteOverrun
  split <;> simp_all

/-- A session that only counts energy, its counts under the quota and its overrun noted. -/
theorem Session.Keeps.counted {quota : Option Nat} {x y : Session} (hr : y.residue = x.residue)
    (hw : x.energySound quota → ∀ n, quota = some n → y.within ≤ n) (ho : x.energySound quota → y.excess ≠ 0 → y.seen.overrun = true)
    (hp : y.phase = x.phase) (hst : y.stoppedIn = x.stoppedIn) (hpa : y.pause = x.pause) (hse : y.settle = x.settle) :
    Session.Keeps quota x y := by
  refine ⟨?_, ?_, ?_⟩
  · unfold Session.residueSound
    rw [hr]
    exact id
  · exact fun h => ⟨hw h, hp ▸ hst ▸ h.2.1, ho h⟩
  · unfold Session.phaseSound
    rw [hp, hst, hpa, hse]
    exact id

theorem Session.Keeps.count {quota : Option Nat} {x : Session} (wh : Nat) :
    Session.Keeps quota x (x.count quota wh) := by
  unfold Session.count
  cases quota with
  | none => exact .counted rfl (by simp) (fun h => h.2.2) rfl rfl rfl rfl
  | some q =>
    dsimp only
    split
    · split
      · refine .trans ?_ (.meetQuota rfl)
        obtain ⟨e1, e2, e3, e4, e5, e6, e7, e8⟩ := Session.noteOverrun_eq
          { x with within := q, excess := saturate (x.excess + (x.within + wh - q)), seen := { x.seen with quotaMet := true } }
        refine .counted e5 (fun _ n hn => ?_) (fun _ => e4 ▸ e8) e2 e3 e6 e7
        rw [e1]
        cases hn
        exact Nat.le_refl _
      · exact .counted rfl (fun _ n hn => by cases hn; dsimp only; omega) (fun h => h.2.2) rfl rfl rfl rfl
    · obtain ⟨e1, e2, e3, e4, e5, e6, e7, e8⟩ := Session.noteOverrun_eq { x with excess := saturate (x.excess + wh) }
      exact .counted e5 (fun h n hn => by rw [e1]; exact h.1 n hn) (fun _ => e4 ▸ e8) e2 e3 e6 e7

/-- A tick of metering leaves a residue below one Wh, whatever it was (R128). -/
theorem Session.Keeps.meter {quota : Option Nat} {x : Session} (reading voltage : Nat) :
    Session.Keeps quota x (x.meter quota reading voltage) := by
  unfold Session.meter
  refine .trans ?_ (.count _)
  exact ⟨fun _ => Nat.mod_lt _ (by decide), id, id⟩

/-- A session right after engagement is sound (R118). -/
theorem Session.start_sound (plug : Plug) (penalty now : Nat) (quota : Option Nat) :
    (Session.start plug penalty now).residueSound ∧ (Session.start plug penalty now).energySound quota ∧
    (Session.start plug penalty now).phaseSound := by
  unfold Session.start
  dsimp only
  split
  · unfold Session.intoCharge
    split <;> simp [Session.residueSound, Session.energySound, Session.phaseSound]
  · simp [Session.residueSound, Session.energySound, Session.phaseSound]

end Sys2Proof.Machine
end

