-- ==== Sys2Proof/Laws/Event.lean ====
section
/-! SUPPORT. Each shared operation of an event is a chain of elementary moves (Laws/Moves.lean), whatever it decides:
one lemma for each operation of Flags.lean, Tracker.lean and Exchange.lean. -/

namespace Sys2Proof.Machine

variable {timed : Bool}

/-! ## Small steps -/

theorem Part.touchPost_moves (p : Part) (q : PostId) : Part.Moves timed p (p.touchPost q) := by
  unfold Part.touchPost
  split
  · exact .refl p
  · exact .work p _

theorem Part.touchBayOf_moves (p : Part) (b : Option BayId) : Part.Moves timed p (p.touchBayOf b) := by
  unfold Part.touchBayOf
  split
  · exact p.touchPost_moves _
  · exact .refl p

theorem Part.retryDue_moves (p : Part) : Part.Moves timed p p.retryDue := .work p _

theorem Part.reportBlocked_moves (p : Part) (b : BayId) (k : Bool) : Part.Moves timed p (p.reportBlocked b k) := .work p _

theorem Part.leadDue_moves (p : Part) (s : SlotId) : Part.Moves timed p (p.leadDue s) := .work p _

/-- A change of a bay that leaves its configuration and its numbers alone. -/
theorem Part.modBay_moves (p : Part) (b : BayId) (g : Bay → Bay) (hc : (g (p.bay b)).config = (p.bay b).config)
    (hn : (p.bay b).numbersSound → (g (p.bay b)).numbersSound) : Part.Moves timed p (p.modBay b g) := .bay p b _ hc hn

/-- A change of a feeder that leaves its configuration and its numbers alone. -/
theorem Part.modFeeder_moves (p : Part) (f : FeederId) (g : Feeder → Feeder)
    (hc : (g (p.feeder f)).config = (p.feeder f).config)
    (hn : (p.feeder f).numbersSound → (g (p.feeder f)).numbersSound) : Part.Moves timed p (p.modFeeder f g) :=
  .feeder p f _ hc hn

/-- A change of a post that leaves its use and its counters alone. -/
theorem Part.modPost_moves (p : Part) (q : PostId) (g : Post → Post) (hc : (g (p.post q)).inUse = (p.post q).inUse)
    (hn : (p.post q).countersSound → (g (p.post q)).countersSound) : Part.Moves timed p (p.modPost q g) :=
  .post p q _ hc hn

theorem Part.shareChanged_moves (p : Part) (f : FeederId) : Part.Moves timed p (p.shareChanged f) :=
  p.modFeeder_moves f _ rfl id

theorem Part.evalCondition_moves (p : Part) (f : FeederId) : Part.Moves timed p (p.evalCondition f) :=
  p.modFeeder_moves f _ rfl id

/-- Storing a record over another one. -/
theorem Part.put_moves (p : Part) (s : SlotId) {old r : Record} (h : p.record s = some old) (hk : old.Keeps r)
    (hw : r.state = .waiting → old.WaitsBy r (p.pool.waiting.length < 32)) :
    Part.Moves timed p (p.put s r) := by
  have stored : Part.Moves timed p { p with pool := p.pool.put s r } := .store p s old r h hk hw
  unfold Part.put
  rw [h]
  dsimp only
  split
  · exact stored
  · exact .trans stored (.trans (Part.touchBayOf_moves _ _) (Part.touchBayOf_moves _ _))

/-- The records after a put (R27). -/
theorem Part.record_put (p : Part) (s : SlotId) (r : Record) (k : SlotId) :
    (p.put s r).record k = if k = s then some r else p.record k := by
  have stored : Part.record { p with pool := p.pool.put s r } k = if k = s then some r else p.record k :=
    Pool.record_put p.pool s k r
  unfold Part.put
  cases p.record s with
  | none =>
    dsimp only
    rw [Part.touchBayOf_record, stored]
  | some old =>
    dsimp only
    split
    · exact stored
    · rw [Part.touchBayOf_record, Part.touchBayOf_record, stored]

theorem Part.deriveWith_moves (raise : Bool) (p : Part) (b : BayId) : Part.Moves timed p (p.deriveWith raise b) := by
  unfold Part.deriveWith
  dsimp only
  split
  · exact .refl p
  · have stored : Part.Moves timed p
        ((p.modBay b (fun x => { x with condition := p.conditionOf b, notice := true })).touchPost (p.bay b).post) :=
      .trans (p.modBay_moves b _ rfl id) (Part.touchPost_moves _ _)
    have raised : ∀ k : Bool, Part.Moves timed p
        (if k then Part.reportBlocked
          ((p.modBay b (fun x => { x with condition := p.conditionOf b, notice := true })).touchPost (p.bay b).post) b false
        else (p.modBay b (fun x => { x with condition := p.conditionOf b, notice := true })).touchPost (p.bay b).post) := by
      intro k
      cases k
      · exact stored
      · exact .trans stored (Part.reportBlocked_moves _ _ _)
    split
    · exact raised _
    · exact .trans (raised _) (Part.shareChanged_moves _ _)

theorem Part.derive_moves (p : Part) (b : BayId) : Part.Moves timed p (p.derive b) := Part.deriveWith_moves true p b

theorem Part.deriveWith_pool (raise : Bool) (p : Part) (b : BayId) : (p.deriveWith raise b).pool = p.pool := by
  unfold Part.deriveWith
  dsimp only
  split
  · rfl
  · split <;> split <;> simp [Part.shareChanged]

theorem Part.derive_record (p : Part) (b : BayId) (k : SlotId) : (p.derive b).record k = p.record k := by
  unfold Part.record Part.derive
  rw [Part.deriveWith_pool]

/-- The session of one record changes; the change keeps the session sound (R117). -/
theorem Part.updSession_moves (p : Part) (s : SlotId) (g : Session → Session)
    (hk : ∀ r x, p.record s = some r → r.session = some x → Session.Keeps r.quota x (g x)) :
    Part.Moves timed p (p.updSession s g) := by
  unfold Part.updSession
  cases hr : p.record s with
  | none => exact .refl p
  | some r =>
    dsimp only
    cases hx : r.session with
    | none => exact .refl p
    | some x =>
      have keeps := hk r x hr hx
      dsimp only
      have stored : Part.Moves timed p (p.put s (if x.reports (g x) then
          Record.flag { r with session := some (g x) } .session else { r with session := some (g x) })) := by
        split
        · exact p.put_moves s hr (keeps.record hx rfl rfl rfl rfl rfl rfl rfl rfl rfl) (fun h => .inl ⟨h, rfl, rfl⟩)
        · exact p.put_moves s hr (keeps.record hx rfl rfl rfl rfl rfl rfl rfl rfl rfl) (fun h => .inl ⟨h, rfl, rfl⟩)
      split
      · exact stored
      · split <;> split
        · exact stored
        · exact .trans stored (Part.shareChanged_moves _ _)
        · exact .trans stored (Part.derive_moves _ _)
        · exact .trans stored (.trans (Part.shareChanged_moves _ _) (Part.derive_moves _ _))

/-- The records after a session change: the other slots keep theirs, the slot keeps all but its session, its notice flag
and its cause. -/
theorem Part.record_updSession (p : Part) (s : SlotId) (g : Session → Session) (k : SlotId) (hk : k ≠ s) :
    (p.updSession s g).record k = p.record k := by
  unfold Part.updSession
  cases hr : p.record s with
  | none => rfl
  | some r =>
    dsimp only
    cases hx : r.session with
    | none => rfl
    | some x =>
      dsimp only
      split
      · rw [Part.record_put, if_neg hk]
      · split <;> split <;> simp [Part.derive_record, Part.record_put, hk, Part.shareChanged]

/-- The session after a session change. -/
theorem Part.session_updSession (p : Part) (s : SlotId) (g : Session → Session) :
    (p.updSession s g).session s = (p.session s).map g := by
  unfold Part.session Part.updSession
  cases hr : p.record s with
  | none => simp [hr]
  | some r =>
    dsimp only
    cases hx : r.session with
    | none => simp [hr, hx]
    | some x =>
      dsimp only
      have flagged : ∀ (k : Bool) (r : Record), (if k then r.flag .session else r).session = r.session := by
        intro k r
        cases k <;> rfl
      split
      · simp [Part.record_put, hx, flagged]
      · split <;> split <;> simp [Part.derive_record, Part.record_put, Part.shareChanged, hx, flagged]

/-- The occupant of a bay is a live ENGAGED record (R96). -/
theorem Part.occupant_engaged {p : Part} {b : BayId} {s : SlotId} (h : p.occupant b = some s) :
    ∃ r, p.record s = some r ∧ r.state = .engaged := by
  have := List.find?_some h
  unfold Part.recordIs at this
  cases hr : p.record s with
  | none => simp [hr] at this
  | some r => exact ⟨r, rfl, by simpa [hr] using this⟩

/-! ## The moves of one record (Tracker.lean) -/

theorem Part.wakePost_moves (p : Part) (q : PostId) : Part.Moves timed p (p.wakePost q) := by
  unfold Part.wakePost
  split
  · exact p.modPost_moves q _ rfl id
  · exact .refl p

theorem Part.wakeBay_moves (p : Part) (b : BayId) : Part.Moves timed p (p.wakeBay b) := p.wakePost_moves _

theorem Part.armChecks_moves (p : Part) (s : SlotId) : Part.Moves timed p (p.armChecks s) := by
  unfold Part.armChecks
  cases hr : p.record s with
  | none => exact .refl p
  | some r =>
    have armed : ∀ l w : Bool, Part.Moves timed p (p.put s { r with leadTaken := l, wakeTaken := w }) := fun l w =>
      p.put_moves s hr ⟨id, id, id, id, fun h => ⟨h, rfl⟩, id⟩ (fun h => .inl ⟨h, rfl, rfl⟩)
    have queued : ∀ l w k : Bool, Part.Moves timed p (if k then
        (p.put s { r with leadTaken := l, wakeTaken := w }).leadDue s
        else p.put s { r with leadTaken := l, wakeTaken := w }) := by
      intro l w k
      cases k
      · exact armed l w
      · exact .trans (armed l w) (Part.leadDue_moves _ _)
    dsimp only
    split
    · split
      · exact .trans (queued _ _ _) (Part.wakeBay_moves _ _)
      · exact queued _ _ _
    · exact queued _ _ _

/-- Engagement of a record that is not closed (R101). -/
theorem Part.engage_moves (p : Part) (s : SlotId) (cause : LastCause)
    (hs : ∀ r, p.record s = some r → r.state ≠ .closing) : Part.Moves timed p (p.engage s cause) := by
  unfold Part.engage
  cases hr : p.record s with
  | none => exact .refl p
  | some r =>
    dsimp only
    split
    · exact .refl p
    · refine .trans ?_ (Part.derive_moves _ _)
      refine .trans ?_ (Part.shareChanged_moves _ _)
      refine .trans ?_ (Part.modBay_moves _ _ _ rfl id)
      refine p.put_moves s hr ⟨id, ?_, ?_, ?_, fun h => absurd h (hs r hr), fun _ => ⟨fun _ => by simp [Record.flag, *],
        fun e => by simp at e⟩⟩ (fun h => by simp at h)
      · intro _ x hx
        cases hx
        exact (Session.start_sound _ _ _ r.quota).1
      · intro h
        refine ⟨h.1, fun x hx => ?_⟩
        cases hx
        exact (Session.start_sound _ _ _ r.quota).2.1
      · intro _ x hx
        cases hx
        exact (Session.start_sound _ _ _ r.quota).2.2

theorem Part.recordIs_find {p : Part} {l : List SlotId} {test : Record → Bool} {s : SlotId}
    (h : l.find? (p.recordIs test) = some s) : ∃ r, p.record s = some r ∧ test r = true := by
  have := List.find?_some h
  unfold Part.recordIs at this
  cases hr : p.record s with
  | none => simp [hr] at this
  | some r => exact ⟨r, rfl, by simpa [hr] using this⟩

theorem Part.occupied_moves (p : Part) (b : BayId) : Part.Moves timed p (p.occupied b) := by
  unfold Part.occupied
  split
  · exact .refl p
  · split
    · next s hs =>
      obtain ⟨r, hr, ha⟩ := Part.recordIs_find hs
      refine p.engage_moves s _ (fun r' hr' => ?_)
      cases hr.symm.trans hr'
      simp at ha
      simp [ha]
    · split
      · exact p.modBay_moves b _ rfl id
      · exact .refl p
      · exact .refl p

theorem Part.vacated_moves (p : Part) (b : BayId) : Part.Moves timed p (p.vacated b) := by
  unfold Part.vacated
  split
  · exact .refl p
  · exact p.modBay_moves b _ rfl id

theorem Part.occupancyEvent_moves (p : Part) (b : BayId) (k : Bool) : Part.Moves timed p (p.occupancyEvent b k) := by
  unfold Part.occupancyEvent
  refine .trans ?_ (Part.derive_moves _ _)
  cases k
  · exact p.vacated_moves b
  · exact p.occupied_moves b

/-- The close of a record that has not closed yet (R41, R42, R102). -/
theorem Part.closeRecord_moves (p : Part) (s : SlotId) (result : Result) (by' : ClosedBy)
    (hs : ∀ r, p.record s = some r → r.state ≠ .closing) : Part.Moves timed p (p.closeRecord s result by') := by
  unfold Part.closeRecord
  cases hr : p.record s with
  | none => exact .refl p
  | some r =>
    have keeps : r.Keeps (r.closed (p.pool.handle s) p.now result by') := by
      refine ⟨id, ?_, ?_, ?_, fun h => absurd h (hs r hr), fun _ => ⟨fun e => by simp [Record.closed, RecState.chained] at e,
        fun e => by simp [Record.closed] at e⟩⟩
      · intro _ x hx
        obtain ⟨y, _, e⟩ := Option.map_eq_some_iff.1 hx
        subst e
        exact (by decide : (0 : Nat) < 36000)
      · intro h
        refine ⟨h.1, fun x hx => ?_⟩
        obtain ⟨y, hy, e⟩ := Option.map_eq_some_iff.1 hx
        exact e ▸ h.2 y hy
      · intro h x hx
        obtain ⟨y, hy, e⟩ := Option.map_eq_some_iff.1 hx
        have := h y hy
        subst e
        exact ⟨this.1, this.2.1, fun h => absurd rfl h⟩
    have stored : Part.Moves timed p (p.put s (r.closed (p.pool.handle s) p.now result by')) :=
      p.put_moves s hr keeps (fun h => by simp [Record.closed] at h)
    dsimp only
    split
    · exact stored
    · split
      · exact stored
      · next b _ =>
        have retried := stored.trans (Part.retryDue_moves _)
        refine .trans ?_ (Part.derive_moves _ _)
        have freed : ∀ k : Bool, Part.Moves timed p (if k then
            ((p.put s (r.closed (p.pool.handle s) p.now result by')).retryDue.modBay b
              (fun x => { x with penalty := 0 })).shareChanged (p.bay b).feeder
            else (p.put s (r.closed (p.pool.handle s) p.now result by')).retryDue) := by
          intro k
          cases k
          · exact retried
          · refine .trans retried (.trans (Part.modBay_moves _ _ _ rfl ?_) (Part.shareChanged_moves _ _))
            exact fun h => ⟨h.1, h.2.1, h.2.2.1, h.2.2.2.1, h.2.2.2.2.1, Nat.zero_le _⟩
        have free := freed (decide (r.state = .engaged))
        simp only [decide_eq_true_eq] at free
        generalize (if r.state = .engaged then _ else _ : Part) = freed at free ⊢
        split
        · exact .trans free (Part.occupied_moves _ _)
        · exact free

theorem RecState.upcoming_ne {x : RecState} (h : x.upcoming = true) : x ≠ .closing ∧ x ≠ .waiting := by
  cases x <;> simp_all [RecState.upcoming]

theorem RecState.upcoming_chained {x : RecState} (h : x.upcoming = true) : x.chained = true := by
  cases x <;> simp_all [RecState.upcoming, RecState.chained]

/-- A demoted record asks for a minute at least (R88). -/
theorem one_le_remainingLength (start stop : Nat) : 1 ≤ remainingLength start stop := by
  unfold remainingLength
  split <;> omega

/-- Of a window of at most 720 minutes at most 720 are left (R88). -/
theorem remainingLength_le {start stop : Nat} (h : stop ≤ start + 720) : remainingLength start stop ≤ 720 := by
  unfold remainingLength
  split <;> omega

/-- Demotion of a record on a bay (R88). -/
theorem Part.demote_moves (p : Part) (s : SlotId) (hs : ∀ r, p.record s = some r → r.state.upcoming = true) :
    Part.Moves timed p (p.demote s) := by
  unfold Part.demote
  cases hr : p.record s with
  | none => exact .refl p
  | some r =>
    have up := RecState.upcoming_ne (hs r hr)
    dsimp only
    split
    · next room =>
      have stored : Part.Moves timed p (p.put s (r.demoted p.now)).retryDue := by
        refine .trans (p.put_moves s (r := r.demoted p.now) hr ⟨?_, id, id, id, fun h => absurd h up.1,
          fun _ => ⟨fun e => by simp [Record.demoted, RecState.chained] at e, fun _ => rfl⟩⟩ (fun _ => .inr ⟨up.2, room⟩))
          (Part.retryDue_moves _)
        intro h
        have := h.2.1
        have le := Nat.le_max_left r.windowStart p.now
        have moved : r.windowEnd ≤ max r.windowStart p.now + 720 := by omega
        exact ⟨Nat.zero_le _, moved, remainingLength_le moved⟩
      split
      · exact .trans stored (Part.derive_moves _ _)
      · exact stored
    · refine p.closeRecord_moves s _ _ (fun r' hr' => ?_)
      cases hr.symm.trans hr'
      exact up.1

theorem Record.relocated_keeps (r : Record) (c : BayId) (now : Nat) (hs : r.state.upcoming = true) :
    r.Keeps (r.relocated c now) := by
  refine ⟨?_, id, id, id, fun h => absurd h (RecState.upcoming_ne hs).1, fun _ => ⟨fun _ => rfl, fun e => ?_⟩⟩
  · intro h
    have := h.2.1
    have le := Nat.le_max_left r.windowStart now
    refine ⟨h.1, ?_, h.2.2⟩
    simp only [Record.relocated, Record.flag]
    omega
  · simp only [Record.relocated] at e
    split at e
    · cases e
    · exact absurd e (RecState.upcoming_ne hs).2

theorem Part.relocate_moves (p : Part) (s : SlotId) : Part.Moves timed p (p.relocate s) := by
  unfold Part.relocate
  cases hr : p.record s with
  | none => exact .refl p
  | some r =>
    dsimp only
    split
    · exact .refl p
    · split
      · exact .refl p
      · next h =>
        have up : r.state.upcoming = true := by simpa using h
        split
        · refine p.closeRecord_moves s _ _ (fun r' hr' => ?_)
          cases hr.symm.trans hr'
          exact (RecState.upcoming_ne up).1
        · split
          · refine .trans ?_ (Part.retryDue_moves _)
            refine .trans ?_ (Part.armChecks_moves _ _)
            refine .trans ?_ (Part.derive_moves _ _)
            refine .trans ?_ (Part.derive_moves _ _)
            refine p.put_moves s hr (r.relocated_keeps _ _ up) (fun h => ?_)
            simp only [Record.relocated] at h
            split at h
            · exact absurd h (by simp)
            · exact .inl ⟨h, rfl, rfl⟩
          · refine p.demote_moves s (fun r' hr' => ?_)
            cases hr.symm.trans hr'
            exact up

theorem Part.leadCheck_moves (p : Part) (s : SlotId) : Part.Moves timed p (p.leadCheck s) := by
  unfold Part.leadCheck
  split
  · exact .refl p
  · split
    · exact .refl p
    · split
      · exact p.relocate_moves s
      · exact .refl p

theorem Part.walkBlocked_moves (p : Part) (x : Blocked) : Part.Moves timed p (p.walkBlocked x) := by
  unfold Part.walkBlocked
  refine Part.Moves.foldl _ (fun p s _ => ?_) p
  split
  · exact .refl p
  · split
    · exact p.relocate_moves s
    · exact .refl p

theorem Part.settle_moves (p : Part) (s : SlotId) (cause : SettleCause) : Part.Moves timed p (p.settle s cause) :=
  p.updSession_moves s _ (fun _ _ _ _ => .intoSettling _ _)

/-- The end of a stay whose record has not closed (R125, R132). -/
theorem Part.endSession_moves (p : Part) (s : SlotId) (cause : SettleCause)
    (hs : ∀ r, p.record s = some r → r.state ≠ .closing) : Part.Moves timed p (p.endSession s cause) := by
  unfold Part.endSession
  split
  · exact .refl p
  · split
    · exact p.closeRecord_moves s _ _ hs
    · exact .refl p
    all_goals exact p.settle_moves s cause

/-! ## The completion of an event (Exchange.lean) -/

theorem Part.openNext_moves (p : Part) : Part.Moves timed p p.openNext := by
  unfold Part.openNext
  split
  · exact .link p _ id
  · exact .refl p

theorem Part.endExchange_moves (p : Part) (q : PostId) : Part.Moves timed p (p.endExchange q) :=
  .trans (.link p { p.link with lastVisited := some q, exchange := none } id) (.work _ _)

theorem Part.cut_moves (p : Part) (q : PostId) : Part.Moves timed p (p.cut q) := by
  unfold Part.cut
  split
  · split
    · exact p.endExchange_moves q
    · exact .refl p
  · exact .refl p

theorem Part.tryWaiting_moves (p : Part) (s : SlotId) : Part.Moves timed p (p.tryWaiting s) := by
  unfold Part.tryWaiting
  cases hr : p.record s with
  | none => exact .refl p
  | some r =>
    dsimp only
    split
    · exact .refl p
    · next h =>
      have hw : r.state = .waiting := by simpa using h
      split
      · refine .trans ?_ (Part.armChecks_moves _ _)
        refine .trans ?_ (Part.derive_moves _ _)
        refine p.put_moves s hr ⟨?_, id, id, id, fun h => by simp [hw] at h, fun _ => ⟨fun _ => rfl, fun e => ?_⟩⟩ (fun e => ?_)
        · intro h
          refine ⟨h.1, ?_, h.2.2⟩
          have := h.2.2
          simp only [Record.placed]
          omega
        · simp only [Record.placed] at e
          split at e <;> cases e
        · simp only [Record.placed] at e
          split at e <;> cases e
      · exact .refl p

theorem Part.retry_moves (p : Part) : Part.Moves timed p p.retry :=
  Part.Moves.foldl _ (fun p s _ => p.tryWaiting_moves s) p

theorem Part.evalIdle_moves (p : Part) (q : PostId) : Part.Moves timed p (p.evalIdle q) := by
  unfold Part.evalIdle
  split
  · split
    · split
      · exact .refl p
      · exact p.modPost_moves q _ rfl id
    all_goals
      split
      · exact p.modPost_moves q _ rfl id
      · exact .refl p
  · exact .refl p

theorem Part.touchActive_moves (p : Part) : Part.Moves timed p p.touchActive := by
  refine Part.Moves.foldl _ (fun p q _ => ?_) p
  split
  · exact p.touchPost_moves q
  · exact .refl p

theorem Part.takeBlocked_moves (p : Part) : Part.Moves timed p p.takeBlocked :=
  .trans (.work p _) (Part.Moves.foldl _ (fun p x _ => p.walkBlocked_moves x) _)

theorem Part.takeLeads_moves (p : Part) : Part.Moves timed p p.takeLeads :=
  .trans (.work p _) (Part.Moves.foldl _ (fun p s _ => p.leadCheck_moves s) _)

theorem Part.takeRetry_moves (p : Part) : Part.Moves timed p p.takeRetry := by
  unfold Part.takeRetry
  split
  · exact .trans (.trans p.retry_moves (Part.takeLeads_moves _)) (.work _ _)
  · exact .refl p

theorem Part.takeIdle_moves (p : Part) : Part.Moves timed p p.takeIdle :=
  .trans (.work p _) (Part.Moves.foldl _ (fun p q _ => p.evalIdle_moves q) _)

theorem Part.takeExchange_moves (p : Part) : Part.Moves timed p p.takeExchange := by
  unfold Part.takeExchange
  split
  · exact .trans (.work p _) (Part.openNext_moves _)
  · exact .refl p

/-- The completion of an event does nothing but elementary moves (R90, R111, R112, R151, R161). -/
theorem Part.finish_moves (p : Part) : Part.Moves timed p p.finish :=
  .trans (.trans (.trans (.trans (.trans p.takeBlocked_moves (Part.takeLeads_moves _)) (Part.takeRetry_moves _))
    (Part.takeIdle_moves _)) (Part.takeExchange_moves _)) (.work _ _)

/-- The completion of an event leaves nothing to do (R90). -/
@[simp] theorem Part.finish_work (p : Part) : p.finish.work = .empty := rfl

/-- The completion of an event that has nothing to complete changes nothing. -/
theorem Part.finish_of_settled (p : Part) (h : p.work = .empty) : p.finish = p := by
  obtain ⟨time, clock, settings, bays, feeders, trips, posts, pool, lanes, rules, link, outstanding, work, choices⟩ := p
  cases h
  rfl

end Sys2Proof.Machine
end

