-- ==== Sys2Proof/Laws/Blocks.lean ====
section
/-! SUPPORT. The operations of the Share Unit, the Session Unit, the posts and the clock are chains of elementary moves
(Laws/Moves.lean): one lemma for each operation of Share.lean, Posts.lean and Timed.lean. -/

namespace Sys2Proof.Machine

variable {timed : Bool}

/-- A walk whose every step leaves a view alone leaves it alone. -/
theorem foldl_view {α β γ : Type} (view : β → γ) {f : β → α → β} (h : ∀ p a, view (f p a) = view p) (l : List α)
    (p : β) : view (l.foldl f p) = view p := by
  induction l generalizing p with
  | nil => rfl
  | cons a l ih => exact (ih _).trans (h p a)

/-! ## The recompute (R138 to R144) -/

theorem Part.member_demands {p : Part} {b : BayId} {m : Member} (h : p.member b = some m) :
    ∃ x, p.session m.slot = some x ∧ x.phase.demands = true := by
  unfold Part.member at h
  split at h
  · cases h
  · next s _ =>
    split at h
    · cases h
    · next r hr =>
      split at h
      · cases h
      · next x hx =>
        split at h
        · next c =>
          cases h
          refine ⟨x, by simp [Part.session, hr, hx], ?_⟩
          simp only [Bool.and_eq_true] at c
          exact c.1.1
        · cases h

/-- The members of the demanding set are charging or paused (R138). -/
theorem Part.demanding_demands {p : Part} {f : FeederId} {m : Member} (h : m ∈ p.demanding f) :
    ∃ x, p.session m.slot = some x ∧ x.phase.demands = true := by
  obtain ⟨b, _, e⟩ := List.mem_filterMap.1 h
  exact p.member_demands e

theorem Session.shared_demands (x : Session) (k : Bool) (cause : PauseCause) : (x.shared k cause).phase.demands = true := by
  cases k <;> rfl

/-- The phases that a recompute gives to members whose sessions are charging or paused (R120, R140). -/
theorem Part.phases_moves (cause : PauseCause) (isAdmitted : Member → Bool) (d : List Member) (p : Part)
    (h : ∀ m ∈ d, ∀ x, p.session m.slot = some x → x.phase.demands = true) :
    Part.Moves timed p (d.foldl (fun p m => p.updSession m.slot (fun y => y.shared (isAdmitted m) cause)) p) := by
  induction d generalizing p with
  | nil => exact .refl p
  | cons m d ih =>
    refine .trans (p.updSession_moves m.slot _ (fun r x hr hx => .shared _ _ (h m (by simp) x ?_))) (ih _ ?_)
    · simp [Part.session, hr, hx]
    · intro m' hm' x hx
      by_cases e : m'.slot = m.slot
      · rw [e, Part.session_updSession] at hx
        obtain ⟨y, _, e⟩ := Option.map_eq_some_iff.1 hx
        exact e ▸ y.shared_demands _ _
      · rw [Part.session, Part.record_updSession p m.slot _ m'.slot e] at hx
        exact h m' (by simp [hm']) x hx

theorem Feeder.stick_config (x : Feeder) (s : Sticky) : (x.stick s).config = x.config := by
  unfold Feeder.stick
  split <;> rfl

theorem Feeder.stick_numbers {x : Feeder} (s : Sticky) (h : x.numbersSound) : (x.stick s).numbersSound := by
  unfold Feeder.stick
  split <;> exact h

/-- The rotor stays a bay number (R142). -/
theorem nextRotor_le {rotor : Nat} (leftover : Nat) (order : List Given) (h : rotor ≤ 63) :
    nextRotor rotor leftover order ≤ 63 := by
  unfold nextRotor
  split
  · omega
  · exact h

theorem Part.division_rotor_le (p : Part) (f : FeederId) (h : (p.feeder f).rotor ≤ 63) : (p.division f).rotor ≤ 63 := by
  unfold Part.division
  split
  · exact nextRotor_le _ _ h
  all_goals exact h

/-- Only a recompute and the resets write a rotor: what a change of a session does leaves it alone (R142). -/
theorem Part.shareChanged_rotor (p : Part) (g f : FeederId) : ((p.shareChanged g).feeder f).rotor = (p.feeder f).rotor := by
  unfold Part.shareChanged
  rw [Part.feeder_modFeeder]
  split
  · next e => rw [e]
  · rfl

theorem Part.deriveWith_rotor (raise : Bool) (p : Part) (b : BayId) (f : FeederId) :
    ((p.deriveWith raise b).feeder f).rotor = (p.feeder f).rotor := by
  unfold Part.deriveWith
  dsimp only
  split
  · rfl
  · split <;> split <;> simp [Part.shareChanged_rotor]

theorem Part.put_rotor (p : Part) (s : SlotId) (r : Record) (f : FeederId) :
    ((p.put s r).feeder f).rotor = (p.feeder f).rotor := by simp [Part.feeder]

theorem Part.updSession_rotor (p : Part) (s : SlotId) (g : Session → Session) (f : FeederId) :
    ((p.updSession s g).feeder f).rotor = (p.feeder f).rotor := by
  unfold Part.updSession
  cases p.record s with
  | none => rfl
  | some r =>
    dsimp only
    cases r.session with
    | none => rfl
    | some x =>
      dsimp only
      split
      · exact Part.put_rotor _ _ _ _
      · split <;> split <;> simp [Part.derive, Part.deriveWith_rotor, Part.shareChanged_rotor, Part.put_rotor]

theorem Part.share_moves (p : Part) (f : FeederId) : Part.Moves timed p (p.share f) := by
  unfold Part.share
  dsimp only
  refine .trans ?_ (Part.evalCondition_moves _ _)
  generalize hl : (p.baysOfFeeder f).foldl (fun u b => u.modBay b
    (fun y => { y with limit := (p.division f).limit b })) p = limited
  have first : Part.Moves timed p limited := by
    rw [← hl]
    exact Part.Moves.foldl _ (fun p b _ => p.modBay_moves b _ rfl id) p
  have session (s : SlotId) : limited.session s = p.session s := by
    rw [← hl]
    exact foldl_view (fun u : Part => u.session s) (f := fun u b => u.modBay b _) (fun u b => rfl) _ _
  have rotor1 : (limited.feeder f).rotor = (p.feeder f).rotor := by
    rw [← hl]
    exact foldl_view (fun u : Part => (u.feeder f).rotor) (f := fun u b => u.modBay b _) (fun u b => rfl) _ _
  generalize hp : (p.demanding f).foldl (fun u m => u.updSession m.slot (fun y =>
    y.shared ((p.division f).given.lookup m.bay).isSome (p.feeder f).state.pauseCause)) limited = phased
  have second : Part.Moves timed limited phased := hp ▸ Part.phases_moves _ _ _ _ (by
    intro m hm x hx
    rw [session] at hx
    obtain ⟨y, hy, hd⟩ := Part.demanding_demands hm
    cases hy.symm.trans hx
    exact hd)
  have rotor2 : (phased.feeder f).rotor = (p.feeder f).rotor := by
    rw [← hp, ← rotor1]
    exact foldl_view (fun p : Part => (p.feeder f).rotor) (fun p m => p.updSession_rotor _ _ f) _ _
  refine .trans (.trans first second) (Part.modFeeder_moves _ _ _ ?_ ?_)
  · split
    · exact Feeder.stick_config _ _
    · rfl
  · intro h
    have le := p.division_rotor_le f (rotor2 ▸ h.2.2.2.2.2.2.1)
    have sound : ({ phased.feeder f with rotor := (p.division f).rotor, recomputeDue := false } : Feeder).numbersSound :=
      ⟨h.1, h.2.1, h.2.2.1, h.2.2.2.1, h.2.2.2.2.1, h.2.2.2.2.2.1, le, h.2.2.2.2.2.2.2⟩
    split
    · exact Feeder.stick_numbers _ sound
    · exact sound

theorem Part.recompute_moves (p : Part) (f : FeederId) : Part.Moves timed p (p.recompute f) := by
  unfold Part.recompute
  split
  · exact p.modFeeder_moves f _ rfl id
  · exact p.share_moves f

theorem Part.recomputeAll_moves (p : Part) : Part.Moves timed p p.recomputeAll :=
  Part.Moves.foldl _ (fun p f _ => p.recompute_moves f) p

/-! ## Feeder states and the ticks (R128 to R135, R145) -/

theorem Part.tripFeeder_moves (p : Part) (f : FeederId) : Part.Moves timed p (p.tripFeeder f) :=
  .trans (p.modFeeder_moves f _ (Feeder.stick_config _ _) (by
    intro h
    apply Feeder.stick_numbers
    exact ⟨h.1, h.2.1, h.2.2.1, h.2.2.2.1, h.2.2.2.2.1, h.2.2.2.2.2.1, h.2.2.2.2.2.2.1, Nat.zero_le _⟩))
    (Part.recompute_moves _ _)

theorem Part.restore_moves (p : Part) (f : FeederId) : Part.Moves timed p (p.restore f) :=
  .trans (.trans (p.modFeeder_moves f _ rfl id) (Part.recompute_moves _ _)) (Part.retryDue_moves _)

theorem Part.levelChanged_moves (p : Part) (f : FeederId) (active : Bool) :
    Part.Moves timed p (p.levelChanged f active) := by
  have stored : Part.Moves timed p (p.modFeeder f (fun x => { x with active := active, notice := true })) :=
    p.modFeeder_moves f _ rfl id
  unfold Part.levelChanged
  dsimp only
  split
  · split
    · exact .trans stored (Part.tripFeeder_moves _ _)
    · exact stored
  · split
    · exact .trans stored (.trans (Part.modFeeder_moves _ _ _ rfl id) (Part.recompute_moves _ _))
    · exact stored

theorem Part.countDown_moves (p : Part) (b : BayId) : Part.Moves timed p (p.countDown b) := by
  have lowered : Part.Moves timed p (p.modBay b (fun x => { x with penalty := (p.bay b).penalty - 1 })) :=
    p.modBay_moves b _ rfl (fun h => ⟨h.1, h.2.1, h.2.2.1, h.2.2.2.1, h.2.2.2.2.1,
      Nat.le_trans (Nat.sub_le _ _) h.2.2.2.2.2⟩)
  unfold Part.countDown
  dsimp only
  split
  · exact .refl p
  · split
    · exact .trans lowered (Part.shareChanged_moves _ _)
    · exact lowered

theorem Part.penalize_moves (p : Part) (f : FeederId) : Part.Moves timed p (p.penalize f) := by
  unfold Part.penalize
  dsimp only
  refine .trans ?_ (Part.modFeeder_moves _ _ _ (Feeder.stick_config _ _) (fun h => Feeder.stick_numbers _
    ⟨h.1, h.2.1, h.2.2.1, h.2.2.2.1, h.2.2.2.2.1, h.2.2.2.2.2.1, h.2.2.2.2.2.2.1, Nat.zero_le _⟩))
  split
  · exact .refl p
  · next b _ =>
    have set : Part.Moves timed p ((p.modBay b (fun x => { x with penalty := Config.penaltyTicks })).shareChanged f) :=
      .trans (p.modBay_moves b _ rfl (fun h => ⟨h.1, h.2.1, h.2.2.1, h.2.2.2.1, h.2.2.2.2.1, Nat.le_refl _⟩))
        (Part.shareChanged_moves _ _)
    split
    · exact .trans set (Part.updSession_moves _ _ _ (fun _ _ _ _ => .penalize))
    · exact set

theorem Part.checkOverdraw_moves (p : Part) (f : FeederId) : Part.Moves timed p (p.checkOverdraw f) := by
  unfold Part.checkOverdraw
  dsimp only
  split
  · exact p.penalize_moves f
  · next h =>
    refine p.modFeeder_moves f _ rfl (fun k => ⟨k.1, k.2.1, k.2.2.1, k.2.2.2.1, k.2.2.2.2.1, k.2.2.2.2.2.1,
      k.2.2.2.2.2.2.1, ?_⟩)
    exact Nat.le_of_lt (Nat.lt_of_not_le h)

theorem Part.shareTickOf_moves (p : Part) (f : FeederId) : Part.Moves timed p (p.shareTickOf f) :=
  .trans (.trans (.trans (Part.Moves.foldl _ (fun p b _ => p.countDown_moves b) p) (Part.checkOverdraw_moves _ _))
    (Part.evalCondition_moves _ _)) (Part.recompute_moves _ _)

theorem Part.shareTick_moves (p : Part) : Part.Moves timed p p.shareTick :=
  .trans (Part.Moves.foldl _ (fun p f _ => p.shareTickOf_moves f) p) (.outstanding _ _)

theorem Part.meterSlot_moves (p : Part) (s : SlotId) : Part.Moves timed p (p.meterSlot s) := by
  unfold Part.meterSlot
  cases hr : p.record s with
  | none => exact .refl p
  | some r =>
    dsimp only
    split
    · exact .refl p
    · split
      · refine p.updSession_moves s _ (fun r' x hr' _ => ?_)
        cases hr.symm.trans hr'
        exact .meter _ _
      · exact .refl p

theorem Part.checkSlot_moves (p : Part) (s : SlotId) : Part.Moves timed p (p.checkSlot s) := by
  unfold Part.checkSlot
  split
  · exact .refl p
  · split
    · exact .refl p
    · split
      · exact p.updSession_moves s _ (fun _ _ _ _ => .checkSatisfied _ _)
      · exact .refl p

theorem Part.sessionTick_moves (p : Part) : Part.Moves timed p p.sessionTick :=
  .trans (Part.Moves.foldl _ (fun p s _ => .trans (p.meterSlot_moves s) (Part.checkSlot_moves _ s)) p) (.outstanding _ _)

/-! ## Posts (R97, R121, R154 to R165) -/

theorem Part.idleTimers_moves (p : Part) (l : List BayId) : Part.Moves timed p (p.idleTimers l) :=
  Part.Moves.foldl _ (fun p b _ => p.modBay_moves b _ rfl id) p

theorem Part.haltBay_moves (p : Part) (b : BayId) : Part.Moves timed p (p.haltBay b) := by
  unfold Part.haltBay
  split
  · exact .refl p
  · next s hs =>
    split
    · exact .refl p
    · split
      · obtain ⟨r, hr, he⟩ := Part.occupant_engaged hs
        refine p.closeRecord_moves s _ _ (fun r' hr' => ?_)
        cases hr.symm.trans hr'
        simp [he]
      · exact p.updSession_moves s _ (fun _ _ _ _ => .halt)

theorem Part.meterGap_moves (p : Part) (b : BayId) : Part.Moves timed p (p.meterGap b) := by
  unfold Part.meterGap
  split
  · exact p.modFeeder_moves _ _ (Feeder.stick_config _ _) (fun h => Feeder.stick_numbers _ h)
  · exact .refl p

theorem Part.darken_moves (p : Part) (bays : List BayId) : Part.Moves timed p (p.darken bays) :=
  .trans (.trans (p.idleTimers_moves _) (Part.Moves.foldl _ (fun p b _ => p.derive_moves b) _))
    (Part.Moves.foldl _ (fun p b _ => p.haltBay_moves b) _)

/-- A post takes another record of the same use with sound counters (R159). -/
theorem Part.leavePost_moves (p : Part) (q : PostId) (x : Post) (hu : x.inUse = (p.post q).inUse)
    (hn : (p.post q).countersSound → x.countersSound) : Part.Moves timed p (p.leavePost q x) := by
  unfold Part.leavePost
  dsimp only
  split
  · exact .trans (.trans (.post p q x hu hn) (Part.darken_moves _ _))
      (Part.Moves.foldl _ (fun p f _ => p.recompute_moves f) _)
  · exact .post p q x hu hn

theorem Part.isolate_moves (p : Part) (q : PostId) (cause : IsolationCause) : Part.Moves timed p (p.isolate q cause) :=
  p.leavePost_moves q _ rfl id

theorem Part.meterGap_post (p : Part) (b : BayId) (q : PostId) : (p.meterGap b).post q = p.post q := by
  unfold Part.meterGap
  split <;> rfl

theorem Part.lose_moves (p : Part) (q : PostId) : Part.Moves timed p (p.lose q) := by
  have zeroed : Part.Moves timed p ((p.baysOfPost q).foldl (fun p b => p.modBay b Bay.lost) p) :=
    Part.Moves.foldl _ (fun p b _ => p.modBay_moves b _ rfl (fun h => ⟨h.1, h.2.1, Nat.zero_le _, Nat.zero_le _,
      .inl rfl, h.2.2.2.2.2⟩)) p
  have same : ((p.baysOfPost q).foldl Part.meterGap
      ((p.baysOfPost q).foldl (fun p b => p.modBay b Bay.lost) p)).post q = p.post q :=
    (foldl_view (fun p : Part => p.post q) (fun p b => p.meterGap_post b q) _ _).trans
      (foldl_view (fun p : Part => p.post q) (f := fun p b => p.modBay b Bay.lost) (fun _ _ => rfl) _ _)
  refine .trans (.trans zeroed (Part.Moves.foldl _ (fun p b _ => p.meterGap_moves b) _)) (Part.leavePost_moves _ q _ ?_ ?_)
  · rw [same]
  · rw [same]
    exact id

theorem Part.reseek_moves (p : Part) (q : PostId) : Part.Moves timed p (p.reseek q) :=
  p.leavePost_moves q _ rfl (fun _ => ⟨Nat.zero_le _, Nat.zero_le _, Nat.zero_le _⟩)

theorem Part.activate_moves (p : Part) (q : PostId) : Part.Moves timed p (p.activate q) :=
  .trans (.trans (.trans (p.modPost_moves q _ rfl id) (Part.touchPost_moves _ _))
    (Part.Moves.foldl _ (fun p b _ => p.derive_moves b) _)) (Part.retryDue_moves _)

theorem Part.sessionReply_moves (p : Part) (b : BayId) (v : SocketReading) (k : Bool) :
    Part.Moves timed p (p.sessionReply b v k) := by
  unfold Part.sessionReply
  cases ho : p.occupant b with
  | none => exact .refl p
  | some s =>
    obtain ⟨r, hr, he⟩ := Part.occupant_engaged ho
    have live : ∀ r', p.record s = some r' → r'.state ≠ .closing := by
      intro r' hr'
      cases hr.symm.trans hr'
      simp [he]
    dsimp only
    rw [hr]
    dsimp only
    split
    · exact .refl p
    · split
      · split
        · split
          · exact p.closeRecord_moves s _ _ live
          · exact .refl p
        · exact .refl p
      · split
        · exact p.settle_moves s _
        · split
          · refine p.updSession_moves s _ (fun r' x hr' _ => ?_)
            cases hr.symm.trans hr'
            split
            · exact .plugIn _
            · exact .plugOut
          · exact .refl p

/-- The readings that a reply frame can carry (R155). -/
def SocketReading.inRange (v : SocketReading) : Prop := v.reading ≤ 800 ∧ v.cap ≤ 800 ∧ (v.cap = 0 ∨ 60 ≤ v.cap)

theorem storedCap_range (n : Nat) : storedCap n ≤ 800 ∧ (storedCap n = 0 ∨ 60 ≤ storedCap n) := by
  unfold storedCap Config.leastCurrent Config.largestCurrent
  split
  · exact ⟨Nat.zero_le _, .inl rfl⟩
  · split <;> omega

/-- Every reply frame carries readings in range (R155, R181). -/
theorem LinkReply.ofBytes_inRange {bytes : List Byte} {r : LinkReply} (h : LinkReply.ofBytes bytes = some r) :
    r.a.inRange ∧ r.b.inRange := by
  unfold LinkReply.ofBytes at h
  split at h
  · split at h
    · cases h
      exact ⟨⟨Nat.min_le_right _ _, storedCap_range _⟩, ⟨Nat.min_le_right _ _, storedCap_range _⟩⟩
    · cases h
  · cases h

theorem Part.writeSocket_moves (p : Part) (first : Bool) (b : BayId) (v : SocketReading) (hv : v.inRange) :
    Part.Moves timed p (p.writeSocket first b v) := by
  have stored : Part.Moves timed p (p.setBay b ((p.bay b).written v)) :=
    .bay p b _ rfl (fun h => ⟨h.1, h.2.1, hv.1, hv.2.1, hv.2.2, h.2.2.2.2.2⟩)
  have seen : ∀ k : Bool, Part.Moves timed p (if k then (p.setBay b ((p.bay b).written v)).occupancyEvent b v.occupied
      else p.setBay b ((p.bay b).written v)) := by
    intro k
    cases k
    · exact stored
    · exact .trans stored (Part.occupancyEvent_moves _ _ _)
  unfold Part.writeSocket
  dsimp only
  split
  · exact .trans (.trans (seen _) (Part.sessionReply_moves _ _ _ _)) (Part.recompute_moves _ _)
  · exact .trans (seen _) (Part.sessionReply_moves _ _ _ _)

theorem Part.writeReadings_moves (p : Part) (first : Bool) (q : PostId) (r : LinkReply) (ha : r.a.inRange)
    (hb : r.b.inRange) : Part.Moves timed p (p.writeReadings first q r) := by
  unfold Part.writeReadings
  dsimp only
  split <;> split
  · exact .trans (p.writeSocket_moves _ _ _ ha) (Part.writeSocket_moves _ _ _ _ hb)
  · exact p.writeSocket_moves _ _ _ hb
  · exact p.writeSocket_moves _ _ _ ha
  · exact .refl p

theorem Part.takeReply_moves (p : Part) (q : PostId) (r : LinkReply) (ha : r.a.inRange) (hb : r.b.inRange) :
    Part.Moves timed p (p.takeReply q r) := by
  have counted : Part.Moves timed p (p.modPost q (fun x => x.answered r.fault)) :=
    p.modPost_moves q _ rfl (fun _ => ⟨Nat.le_of_lt_succ (Nat.mod_lt _ (by decide)), Nat.zero_le _, Nat.min_le_right _ _⟩)
  have isolated := counted.trans (Part.isolate_moves (timed := timed) _ q .postFault)
  unfold Part.takeReply
  dsimp only
  split
  · split
    · exact isolated
    · split
      · exact .trans counted (Part.modPost_moves _ _ _ rfl id)
      · exact counted
  · split
    · exact isolated
    · split
      · exact .trans counted (Part.modPost_moves _ _ _ rfl id)
      · exact counted
  · split
    · exact isolated
    · split
      · exact .trans (.trans counted (Part.activate_moves _ _)) (Part.writeReadings_moves _ _ _ _ ha hb)
      · exact counted
  · split
    · exact isolated
    · exact .trans counted (Part.writeReadings_moves _ _ _ _ ha hb)
  · split
    · exact isolated
    · have written := counted.trans (Part.writeReadings_moves (timed := timed) _ false q r ha hb)
      split
      · exact .trans written (Part.wakePost_moves _ _)
      · exact written
  · split
    · exact isolated
    · have written := counted.trans (Part.writeReadings_moves (timed := timed) _ false q r ha hb)
      split
      · exact .trans (.trans written (Part.modPost_moves _ _ _ rfl id)) (Part.activate_moves _ _)
      · exact written
  · exact counted
  · exact counted

theorem Part.takeMiss_moves (p : Part) (q : PostId) : Part.Moves timed p (p.takeMiss q) := by
  have counted : Part.Moves timed p (p.modPost q Post.missed) :=
    p.modPost_moves q _ rfl (fun _ => ⟨Nat.le_of_lt_succ (Nat.mod_lt _ (by decide)), Nat.min_le_right _ _, Nat.zero_le _⟩)
  unfold Part.takeMiss
  dsimp only
  split <;> (try split) <;> first | exact counted | exact .trans counted (Part.lose_moves _ _)

theorem Part.prepareLimit_moves (p : Part) (q : PostId) : Part.Moves timed p (p.prepareLimit q) := by
  unfold Part.prepareLimit
  split
  · split
    · exact p.isolate_moves q _
    · exact .refl p
  all_goals exact .refl p

theorem Part.wakeLimit_moves (p : Part) (q : PostId) : Part.Moves timed p (p.wakeLimit q) := by
  unfold Part.wakeLimit
  split
  · split
    · dsimp only
      split
      · exact .trans (p.modPost_moves q _ rfl id) (Part.modPost_moves _ _ _ rfl id)
      · exact .trans (p.modPost_moves q _ rfl id) (Part.isolate_moves _ _ _)
    · exact .refl p
  all_goals exact .refl p

/-! ## Timed events, minutes and ticks (R19 to R25) -/

/-- A record changed in place in the fields that say which checks have been taken, or flagged. -/
theorem Part.modRecord_moves (p : Part) (s : SlotId) (g : Record → Record)
    (hk : ∀ r, p.record s = some r → r.Keeps (g r) ∧ ((g r).state = .waiting →
      r.state = .waiting ∧ (g r).priority = r.priority ∧ (g r).created = r.created)) :
    Part.Moves timed p (p.modRecord s g) := by
  unfold Part.modRecord
  cases hr : p.record s with
  | none => exact .refl p
  | some r => exact p.put_moves s hr (hk r hr).1 (fun h => .inl ((hk r hr).2 h))

theorem Part.deriveBayOf_moves (p : Part) (s : SlotId) : Part.Moves timed p (p.deriveBayOf s) := by
  unfold Part.deriveBayOf
  split
  · exact p.derive_moves _
  · exact .refl p

theorem Part.record_modRecord (p : Part) (s : SlotId) (g : Record → Record) (k : SlotId) :
    (p.modRecord s g).record k = if k = s then (p.record s).map g else p.record k := by
  unfold Part.modRecord
  cases hr : p.record s with
  | none =>
    dsimp only
    split
    · next e => rw [e, hr]; rfl
    · rfl
  | some r => exact p.record_put s (g r) k

/-- The clearing of a tally keeps its counter at or below its limit (R61, R63). -/
theorem Part.clearTally_moves (p : Part) (r : RuleId) : Part.Moves timed p (p.clearTally r) := by
  refine .rule p r _ ?_ ?_ <;> unfold Rule.cleared
  · split <;> rfl
  · split
    · exact id
    · exact fun _ => Nat.zero_le _

theorem Part.clearTallies_moves (p : Part) : Part.Moves timed p p.clearTallies :=
  Part.Moves.foldl _ (fun p r _ => p.clearTally_moves r) p

theorem Part.takeRollover_moves (p : Part) : Part.Moves true p p.takeRollover :=
  .trans (.clock p { p.clock with lastDay := some (dayNumber p.settings.rolloverMinute p.now) } rfl id)
    (Part.clearTallies_moves _)

theorem Part.pendingFor_record {p : Part} {s : SlotId} {test : Record → Bool} (h : p.pendingFor s test = true) :
    ∃ r, p.record s = some r ∧ test r = true := by
  unfold Part.pendingFor Part.recordIs at h
  cases hr : p.record s with
  | none => simp [hr] at h
  | some r =>
    simp [hr] at h
    exact ⟨r, rfl, h.2⟩

theorem RecState.chained_ne {x : RecState} (h : x.chained = true) : x ≠ .closing := by
  cases x <;> simp_all [RecState.chained]

/-- A timed event that is due (R23). -/
theorem Part.takeTimed_moves (p : Part) (e : Timed) (h : p.isDue e = true) (ht : e = .rollover → timed = true) :
    Part.Moves timed p (p.takeTimed e) := by
  have taken : ∀ (g : Record → Record) (s : SlotId),
      (∀ r, r.Keeps (g r) ∧ ((g r).state = .waiting → r.state = .waiting ∧ (g r).priority = r.priority ∧
        (g r).created = r.created)) → Part.Moves timed p (p.modRecord s g) :=
    fun g s hk => p.modRecord_moves s g (fun r _ => hk r)
  have live : ∀ (s : SlotId) (r : Record), p.record s = some r → r.state ≠ .closing →
      ∀ r', p.record s = some r' → r'.state ≠ .closing := by
    intro s r hr hs r' hr'
    cases hr.symm.trans hr'
    exact hs
  cases e with
  | leadCheck s =>
    exact .trans (taken (fun r => { r with leadTaken := true }) s (fun r => ⟨⟨id, id, id, id, fun h => ⟨h, rfl⟩, id⟩, fun h => ⟨h, rfl, rfl⟩⟩))
      (Part.leadCheck_moves _ _)
  | wakeCheck s =>
    have marked := taken (fun r => { r with wakeTaken := true }) s (fun r => ⟨⟨id, id, id, id, fun h => ⟨h, rfl⟩, id⟩, fun h => ⟨h, rfl, rfl⟩⟩)
    simp only [Part.takeTimed]
    split
    · exact .trans marked (Part.wakeBay_moves _ _)
    · exact marked
  | windowStart s =>
    obtain ⟨r, hr, hb⟩ := Part.pendingFor_record h
    have hb' : r.state = .booked := by
      simp only [Bool.and_eq_true, decide_eq_true_eq] at hb
      exact hb.1
    refine .trans (p.modRecord_moves s _ (fun r' hr' => ?_)) (Part.deriveBayOf_moves _ _)
    cases hr.symm.trans hr'
    exact ⟨⟨id, id, id, id, fun h => by simp [hb'] at h, fun h => ⟨fun _ => h.1 (by simp [hb', RecState.chained]), fun e => by simp at e⟩⟩, fun h => by simp at h⟩
  | graceEnd s =>
    obtain ⟨r, hr, hb⟩ := Part.pendingFor_record h
    refine p.closeRecord_moves s _ _ (live s r hr ?_)
    intro e
    simp [e] at hb
  | windowEnd s =>
    obtain ⟨r, hr, hb⟩ := Part.pendingFor_record h
    simp only [Part.takeTimed, Part.takeWindowEnd]
    split
    · exact .trans (taken (fun r => { r with endTaken := true }) s (fun r => ⟨⟨id, id, id, id, fun h => ⟨h, rfl⟩, id⟩, fun h => ⟨h, rfl, rfl⟩⟩))
        (Part.updSession_moves _ _ _ (fun _ _ _ _ => .windowEnd _))
    · refine p.closeRecord_moves s _ _ (live s r hr ?_)
      simp only [Bool.and_eq_true] at hb
      exact RecState.chained_ne hb.1.1
  | deadline s =>
    obtain ⟨r, hr, hb⟩ := Part.pendingFor_record h
    refine p.closeRecord_moves s _ _ (live s r hr ?_)
    intro e
    simp [e] at hb
  | verify b => exact .trans (p.modBay_moves b _ rfl id) (Part.derive_moves _ _)
  | idle q =>
    simp only [Part.takeTimed, Part.takeIdleTimer]
    split
    · exact p.modPost_moves q _ rfl id
    · exact p.modPost_moves q _ rfl id
  | rollover => exact ht rfl ▸ p.takeRollover_moves

theorem Part.timedEvent_moves (p : Part) (e : Timed) : Part.Moves true p (p.timedEvent e) := by
  unfold Part.timedEvent
  split
  · next h => exact p.takeTimed_moves e h (fun _ => rfl)
  · exact .refl p

/-- The event that a free order chooses is one of the candidates; the choice moves the counter of free orders alone. -/
theorem Part.chooseDue_some {p q : Part} {l : List Timed} {e : Timed} (h : p.chooseDue l = some (e, q)) :
    e ∈ l ∧ ∃ n, q = { p with choices := n } := by
  match l, h with
  | [a], h =>
    cases h
    exact ⟨by simp, p.choices, rfl⟩
  | a :: b :: t, h =>
    simp only [Part.chooseDue, Option.some.injEq, Prod.mk.injEq] at h
    obtain ⟨h1, h2⟩ := h
    refine ⟨?_, p.choices + 1, h2.symm⟩
    have lt : Config.freeOrder p.choices % ((b :: t).length + 1) < (a :: b :: t).length := Nat.mod_lt _ (Nat.succ_pos _)
    rw [List.getElem?_eq_getElem lt] at h1
    exact h1 ▸ List.getElem_mem lt

/-- The free orders have no part in what is due (R23, R24). -/
theorem Part.isDue_choices (p : Part) (n : Nat) (e : Timed) : Part.isDue { p with choices := n } e = p.isDue e := by
  cases e <;> rfl

theorem Part.takeMinute_moves (fuel : Nat) (p : Part) : Part.Moves true p (p.takeMinute fuel) := by
  induction fuel generalizing p with
  | zero => exact .refl p
  | succ n ih =>
    simp only [Part.takeMinute]
    cases hc : p.chooseDue p.dueEvents with
    | none => exact .refl p
    | some c =>
      obtain ⟨e, q⟩ := c
      obtain ⟨hm, k, rfl⟩ := Part.chooseDue_some hc
      have due : p.isDue e = true := (List.mem_filter.1 hm).2
      exact .trans (.choices p k) (.trans (.trans (Part.takeTimed_moves _ e ((p.isDue_choices k e).trans due) (fun _ => rfl))
        (Part.finish_moves _)) (ih _))

theorem Part.minuteEvents_moves (p : Part) : Part.Moves true p p.minuteEvents := by
  unfold Part.minuteEvents
  generalize Config.minuteFuel = fuel
  exact .trans (.trans (.trans (.outstanding p _) (Part.touchActive_moves _)) (Part.finish_moves _))
    (Part.takeMinute_moves _ _)

theorem Part.nextMinute_moves (p : Part) : Part.Moves true p p.nextMinute := by
  refine .clock p _ rfl (fun h => ⟨h.1, ?_⟩)
  dsimp only
  split
  · next lt => exact lt
  · exact Nat.le_of_lt_succ (BitVec.isLt _)

theorem Part.flushMinute_moves (p : Part) : Part.Moves true p p.flushMinute := by
  unfold Part.flushMinute
  split
  · exact p.minuteEvents_moves
  · exact .refl p

theorem Part.advanceSecond_moves (p : Part) : Part.Moves true p p.advanceSecond := by
  unfold Part.advanceSecond
  split
  · next h => exact .clock p _ rfl (fun k => ⟨h, k.2⟩)
  · have wrapped : Part.Moves true p { p with clock := { p.clock with second := 0 } } :=
      .clock p _ rfl (fun k => ⟨Nat.zero_le _, k.2⟩)
    dsimp only
    split
    · exact .trans (.trans (.trans wrapped (Part.flushMinute_moves _)) (Part.nextMinute_moves _)) (.outstanding _ _)
    · exact wrapped

/-- A list of two or more in a free order is a permutation read from the free value; the choice moves the counter of free
orders alone. -/
theorem Part.inFreeOrder_part {α : Type} (p : Part) (l : List α) :
    ∃ n, (p.inFreeOrder l).2 = { p with choices := n } := by
  unfold Part.inFreeOrder
  split
  · exact ⟨_, rfl⟩
  · exact ⟨p.choices, rfl⟩

theorem freeOrderOf_mem {α : Type} (fuel k : Nat) (l : List α) (x : α) (h : x ∈ freeOrderOf fuel k l) : x ∈ l := by
  induction fuel generalizing k l with
  | zero => exact h
  | succ n ih =>
    match l, h with
    | [], h => exact h
    | [a], h => exact h
    | a :: b :: t, h =>
      unfold freeOrderOf at h
      dsimp only at h
      split at h
      · next y hy =>
        rcases List.mem_cons.1 h with e | e
        · exact e ▸ List.mem_of_getElem? hy
        · exact List.mem_of_mem_eraseIdx (ih _ _ e)
      · exact h

/-- A free order has no member that the list has not. -/
theorem Part.inFreeOrder_mem {α : Type} (p : Part) (l : List α) (x : α) (h : x ∈ (p.inFreeOrder l).1) : x ∈ l := by
  unfold Part.inFreeOrder at h
  split at h
  · exact freeOrderOf_mem _ _ _ x h
  · exact h

theorem Part.flushTicks_moves (p : Part) : Part.Moves true p p.flushTicks := by
  unfold Part.flushTicks
  split
  · obtain ⟨n, hn⟩ := p.inFreeOrder_part [Part.sessionTick, Part.shareTick]
    have hm := p.inFreeOrder_mem [Part.sessionTick, Part.shareTick]
    generalize p.inFreeOrder [Part.sessionTick, Part.shareTick] = c at hn hm
    obtain ⟨order, q⟩ := c
    cases hn
    refine .trans (.choices p n) (Part.Moves.foldl _ (fun p f hf => .trans ?_ (Part.finish_moves _)) _)
    have := hm f hf
    simp only [List.mem_cons, List.not_mem_nil, or_false] at this
    rcases this with e | e
    · exact e ▸ p.sessionTick_moves
    · exact e ▸ p.shareTick_moves
  · split
    · exact .trans p.sessionTick_moves (Part.finish_moves _)
    · split
      · exact .trans p.shareTick_moves (Part.finish_moves _)
      · exact .refl p

/-- The tick (R19). -/
theorem Part.tick_moves (p : Part) : Part.Moves true p p.tick :=
  .trans (.trans p.flushTicks_moves (Part.advanceSecond_moves _)) (.outstanding _ _)

theorem Part.minuteEvent_moves (p : Part) : Part.Moves true p p.minuteEvent := by
  unfold Part.minuteEvent
  split
  · exact .refl p
  · split
    · exact p.minuteEvents_moves
    · split
      · exact .trans (.trans (.clock p { p.clock with second := 0 } rfl (fun k => ⟨Nat.zero_le _, k.2⟩))
          (Part.nextMinute_moves _)) (Part.minuteEvents_moves _)
      · exact .refl p

/-- CLOCK-SET from UNSET, to a second in range (R20). -/
theorem Part.setFromUnset_moves (p : Part) (minute second : Nat) (hm : minute ≤ 4294967295) (h : second ≤ 59) :
    Part.Moves true p (p.setFromUnset minute second) := by
  unfold Part.setFromUnset
  dsimp only
  refine .trans ?_ (Part.touchActive_moves _)
  refine .trans (.trans (.clock p ⟨true, minute, second, some (dayNumber p.settings.rolloverMinute minute)⟩ rfl
    (fun _ => ⟨h, hm⟩)) (.outstanding _ { p.outstanding with minute := false })) (Part.Moves.foldl _ (fun q b _ => ?_) _)
  split
  · exact q.modBay_moves b _ rfl id
  all_goals exact .refl q

theorem Part.stepForward_moves (n : Nat) (p : Part) : Part.Moves true p (p.stepForward n) := by
  induction n generalizing p with
  | zero => exact .refl p
  | succ n ih => exact .trans (.trans p.nextMinute_moves (Part.minuteEvents_moves _)) (ih _)

/-- CLOCK-SET with the clock SET, to a second in range (R21, R22). -/
theorem Part.stepClock_moves (p : Part) (minute second : Nat) (hm : minute ≤ 4294967295) (h : second ≤ 59) :
    Part.Moves true p (p.stepClock minute second) := by
  unfold Part.stepClock
  dsimp only
  refine .trans ?_ (.clock _ _ rfl (fun k => ⟨h, k.2⟩))
  split
  · exact .trans (.clock p { p.clock with minute := minute } rfl (fun k => ⟨k.1, hm⟩)) (.outstanding _ { p.outstanding with minute := false })
  · split
    · exact .refl p
    · exact .trans p.flushMinute_moves (Part.stepForward_moves _ _)

end Sys2Proof.Machine
end

