-- ==== Sys2Proof/Laws/Edits.lean ====
section
/-! SUPPORT. Everything that a command can do behind the port, as a chain of moves (Laws/Moves.lean) and of the writes that
only requests, resets, the time base, the pins and the transmitter make; what every such chain keeps. -/

namespace Sys2Proof.Machine

/-- A record that is created is sound. -/
structure Record.Fresh (r : Record) : Prop where
  window : r.windowSound
  quota : ∀ n, r.quota = some n → 1 ≤ n ∧ n ≤ 200000
  session : r.session = none
  bayed : r.bayed

theorem Record.Fresh.residue {r : Record} (h : r.Fresh) : r.residueSound := by
  intro x hx
  simp [h.session] at hx

theorem Record.Fresh.energy {r : Record} (h : r.Fresh) : r.energySound := by
  refine ⟨h.quota, fun x hx => ?_⟩
  simp [h.session] at hx

theorem Record.Fresh.phase {r : Record} (h : r.Fresh) : r.phaseSound := by
  intro x hx
  simp [h.session] at hx

/-- A chain of the writes of a command. `frees` says that slots may be freed (R43, R49). -/
inductive Part.Edits (frees : Bool) : Part → Part → Prop where
  | moves {p q : Part} : Part.Moves true p q → Part.Edits frees p q
  | trans {p q r : Part} : Part.Edits frees p q → Part.Edits frees q r → Part.Edits frees p r
  | time (p : Part) (n : Nat) : Part.Edits frees p { p with time := n }
  | trip (p : Part) (f : FeederId) (x : TripInput) : Part.Edits frees p (p.setTrip f x)
  | settings (p : Part) (x : Settings) : x.inRange = true → Part.Edits frees p { p with settings := x }
  | lane (p : Part) (l : LaneId) (x : Lane) : Part.Edits frees p (p.setLane l x)
  | bay (p : Part) (b : BayId) (x : Bay) : ((p.bay b).numbersSound → x.numbersSound) → Part.Edits frees p (p.setBay b x)
  | feeder (p : Part) (f : FeederId) (x : Feeder) : ((p.feeder f).numbersSound → x.numbersSound) →
      Part.Edits frees p (p.setFeeder f x)
  | post (p : Part) (a : PostId) (x : Post) : ((p.post a).countersSound → x.countersSound) → Part.Edits frees p (p.setPost a x)
  | rule (p : Part) (r : RuleId) (x : Rule) :
      ((p.rule r).counter ≤ (p.rule r).tally.limit → x.counter ≤ x.tally.limit) → Part.Edits frees p (p.setRule r x)
  | create (p : Part) (s : SlotId) (r : Record) : p.pool.free.head? = some s → r.Fresh →
      (r.state = .waiting → p.pool.waiting.length < 32) → Part.Edits frees p { p with pool := p.pool.put s r }
  | release (p : Part) (s : SlotId) : frees = true → Part.Edits frees p { p with pool := p.pool.release s }
  | rebuild (p : Part) : frees = true → Part.Edits frees p { p with pool := p.pool.rebuild }
  | reset (p : Part) (time choices : Nat) (trips : Vector TripInput 8) : frees = true →
      Part.Edits frees p (Part.afterReset time choices trips)

namespace Part.Edits

variable {frees : Bool} {p q : Part}

theorem refl (p : Part) : Part.Edits frees p p := .moves (.refl p)

/-- A chain of moves without the clock. -/
theorem ofMoves (h : Part.Moves false p q) : Part.Edits frees p q := .moves h.anyTime

end Part.Edits

/-! ## The pool after a rebuild and after a release (R43, R49) -/

theorem rebuild_slots (l : List SlotId) (hl : l.Nodup) (v : Vector Slot 192) (k : SlotId) :
    (l.foldl (fun (v : Vector Slot 192) s => match (v.get s).record with
      | none => v
      | some _ => v.set s.val ⟨nextGeneration (v.get s).generation, none⟩ s.isLt) v).get k =
    if k ∈ l then ⟨match (v.get k).record with
      | none => (v.get k).generation
      | some _ => nextGeneration (v.get k).generation, none⟩ else v.get k := by
  induction l generalizing v with
  | nil => simp
  | cons s l ih =>
    rw [List.foldl_cons, ih hl.of_cons]
    have step : ∀ j, (match (v.get s).record with
        | none => v
        | some _ => v.set s.val ⟨nextGeneration (v.get s).generation, none⟩ s.isLt).get j =
        if j = s then ⟨match (v.get s).record with
          | none => (v.get s).generation
          | some _ => nextGeneration (v.get s).generation, none⟩ else v.get j := by
      intro j
      cases hr : (v.get s).record with
      | none =>
        dsimp only
        split
        · next e =>
          subst e
          rw [← hr]
        · rfl
      | some r =>
        dsimp only
        by_cases e : j = s
        · rw [if_pos e, e, get_set_same]
        · rw [if_neg e, get_set_ne _ _ _ _ e]
    rw [step k]
    by_cases e : k = s
    · subst e
      have : k ∉ l := (List.nodup_cons.1 hl).1
      simp [this]
    · simp [e]

/-- RESET-PART BOOK frees every record and advances its slot's generation (R49). -/
theorem Pool.slot_rebuild (q : Pool) (k : SlotId) : q.rebuild.slot k = ⟨match q.record k with
    | none => (q.slot k).generation
    | some _ => nextGeneration (q.slot k).generation, none⟩ := by
  have mem := mem_allSlots k
  have nodup : allSlots.Nodup := List.nodup_finRange 192
  unfold Pool.rebuild Pool.record Pool.slot
  dsimp only
  generalize allSlots = l at mem nodup
  exact (rebuild_slots l nodup q.slots k).trans (if_pos mem)

theorem Pool.record_rebuild (q : Pool) (k : SlotId) : q.rebuild.record k = none := by
  unfold Pool.record
  rw [Pool.slot_rebuild]

theorem Pool.partitioned_rebuild (q : Pool) : q.rebuild.partitioned :=
  Pool.partitioned_of_empty q.record_rebuild rfl (fun b => by simp [Pool.rebuild, Vector.get]) rfl rfl

/-! ## What a chain of edits keeps -/

namespace Part.Edits

variable {frees : Bool} {p q : Part}

theorem partitioned (h : Part.Edits frees p q) (hp : p.pool.partitioned) : q.pool.partitioned := by
  induction h with
  | moves h => exact h.partitioned hp
  | trans _ _ h1 h2 => exact h2 (h1 hp)
  | create p s r _ _ _ => exact Pool.partitioned_put hp s r
  | release p s _ => exact Pool.partitioned_release hp s
  | rebuild p _ => exact Pool.partitioned_rebuild _
  | reset p _ _ _ _ => exact Pool.partitioned_reset
  | _ => exact hp

theorem nextGeneration_sound (g : Nat) (h : 1 ≤ g ∧ g ≤ 255) : 1 ≤ nextGeneration g ∧ nextGeneration g ≤ 255 := by
  unfold nextGeneration
  split <;> omega

theorem generationsSound (h : Part.Edits frees p q) (hp : p.pool.generationsSound) : q.pool.generationsSound := by
  induction h with
  | moves h => exact fun s => (h.generation s).symm ▸ hp s
  | trans _ _ h1 h2 => exact h2 (h1 hp)
  | create p s r _ _ _ => exact fun k => (Pool.generation_put p.pool s k r).symm ▸ hp k
  | release p s _ =>
    intro k
    rw [Pool.slot_release]
    split
    · exact nextGeneration_sound _ (hp s)
    · exact hp k
  | rebuild p _ =>
    intro k
    rw [Pool.slot_rebuild]
    dsimp only
    split
    · exact hp k
    · exact nextGeneration_sound _ (hp k)
  | reset p _ _ _ _ =>
    intro k
    have : (Pool.reset.slot k).generation = 1 := by simp [Pool.reset, Pool.slot, Vector.get]
    show 1 ≤ (Pool.reset.slot k).generation ∧ (Pool.reset.slot k).generation ≤ 255
    rw [this]
    decide
  | _ => exact hp

/-- Every live record keeps a property that every store keeps and that a fresh record has. -/
theorem allRecords (h : Part.Edits frees p q) {good : Record → Prop}
    (keeps : ∀ old new : Record, old.Keeps new → good old → good new) (fresh : ∀ r : Record, r.Fresh → good r)
    (hp : p.allRecords good) : q.allRecords good := by
  induction h with
  | moves h => exact h.allRecords keeps hp
  | trans _ _ h1 h2 => exact h2 (h1 hp)
  | create p s r _ hf _ =>
    intro k r' hr'
    have := Pool.record_put p.pool s k r
    rw [show Part.record _ k = (p.pool.put s r).record k from rfl, this] at hr'
    split at hr'
    · exact Option.some.inj hr' ▸ fresh r hf
    · exact hp k r' hr'
  | release p s _ =>
    intro k r' hr'
    rw [show Part.record _ k = (p.pool.release s).record k from rfl, Pool.record_release] at hr'
    split at hr'
    · cases hr'
    · exact hp k r' hr'
  | rebuild p _ =>
    intro k r' hr'
    have none := p.pool.record_rebuild k
    generalize p.pool.rebuild = z at none hr'
    exact absurd (none.symm.trans hr') (by simp)
  | reset p _ _ _ _ =>
    intro k r' hr'
    have : Pool.reset.record k = none := by simp [Pool.record, Pool.slot, Pool.reset, Vector.get]
    have hr2 : Pool.reset.record k = some r' := hr'
    rw [this] at hr2
    exact absurd hr2 (by simp)
  | _ => exact hp

theorem numbersSound (h : Part.Edits frees p q) (hp : p.numbersSound) : q.numbersSound := by
  induction h with
  | moves h => exact h.numbersSound hp
  | trans _ _ h1 h2 => exact h2 (h1 hp)
  | settings p x h => exact ⟨hp.bay, hp.feeder, hp.post, h, hp.clock, hp.round⟩
  | bay p b x h =>
    refine ⟨fun b' => ?_, hp.feeder, hp.post, hp.settings, hp.clock, hp.round⟩
    rw [Part.bay_setBay]
    split
    · exact h (hp.bay b)
    · exact hp.bay b'
  | feeder p f x h =>
    refine ⟨hp.bay, fun f' => ?_, hp.post, hp.settings, hp.clock, hp.round⟩
    rw [Part.feeder_setFeeder]
    split
    · exact h (hp.feeder f)
    · exact hp.feeder f'
  | post p a x h =>
    refine ⟨hp.bay, hp.feeder, fun a' => ?_, hp.settings, hp.clock, hp.round⟩
    rw [Part.post_setPost]
    split
    · exact h (hp.post a)
    · exact hp.post a'
  | reset p _ _ _ _ =>
    refine ⟨fun b => ?_, fun f => ?_, fun a => ?_, rfl, ⟨Nat.zero_le _, Nat.zero_le _⟩, Nat.zero_le _⟩
    · simp [Part.bay, Part.afterReset, Vector.get, Bay.reset, Bay.numbersSound]
    · simp [Part.feeder, Part.afterReset, Vector.get, Feeder.reset, Feeder.numbersSound]
    · simp [Part.post, Part.afterReset, Vector.get, Post.reset, Post.countersSound]
  | rebuild p _ =>
    generalize p.pool.rebuild = z
    exact ⟨hp.bay, hp.feeder, hp.post, hp.settings, hp.clock, hp.round⟩
  | _ => exact ⟨hp.bay, hp.feeder, hp.post, hp.settings, hp.clock, hp.round⟩

theorem talliesSound (h : Part.Edits frees p q) (hp : p.talliesSound) : q.talliesSound := by
  induction h with
  | moves h => exact h.talliesSound hp
  | trans _ _ h1 h2 => exact h2 (h1 hp)
  | rule p r x h =>
    intro r'
    rw [Part.rule_setRule]
    split
    · exact h (hp r)
    · exact hp r'
  | reset p _ _ _ _ =>
    intro r
    simp [Part.rule, Part.afterReset, Vector.get, Rule.reset]
  | rebuild p _ =>
    generalize p.pool.rebuild = z
    exact hp
  | _ => exact hp

theorem waiting_le (h : Part.Edits frees p q) (hp : p.pool.waiting.length ≤ 32) : q.pool.waiting.length ≤ 32 := by
  induction h with
  | moves h => exact h.waiting_le hp
  | trans _ _ h1 h2 => exact h2 (h1 hp)
  | create p s r _ _ hw =>
    refine Nat.le_trans (Pool.waiting_put p.pool s r) ?_
    split
    · next e => exact hw e.1
    · omega
  | release p s _ =>
    have home : ∀ h : Home, ((p.pool.leave h s).waiting).length ≤ p.pool.waiting.length := by
      intro h
      cases h
      case waiting => exact List.length_filter_le _ _
      all_goals exact Nat.le_refl _
    exact Nat.le_trans (home _) hp
  | rebuild p _ => exact Nat.zero_le _
  | reset p _ _ _ _ => exact Nat.zero_le _
  | _ => exact hp

end Part.Edits

end Sys2Proof.Machine
end

