-- ==== Sys2Proof/Laws/Requests.lean ====
section
/-! SUPPORT. What each request does behind the port is a chain of edits (Laws/Edits.lean): one lemma for each request of
LevelRequests.lean, SettingRequests.lean and BookingRequests.lean. -/

namespace Sys2Proof.Machine

variable {frees : Bool}

/-! ## Bays, feeders, posts -/

theorem Part.modBay_edits (p : Part) (b : BayId) (g : Bay → Bay)
    (h : (p.bay b).numbersSound → (g (p.bay b)).numbersSound) : Part.Edits frees p (p.modBay b g) := .bay p b _ h

theorem Part.modFeeder_edits (p : Part) (f : FeederId) (g : Feeder → Feeder)
    (h : (p.feeder f).numbersSound → (g (p.feeder f)).numbersSound) : Part.Edits frees p (p.modFeeder f g) := .feeder p f _ h

theorem Part.configureBay_edits (p : Part) (q : BayConfig) (hr : 60 ≤ q.rating ∧ q.rating ≤ 800) :
    Part.Edits frees p (p.configureBay q) :=
  .trans (p.modBay_edits q.bay _ (fun h => ⟨hr.1, hr.2, Nat.zero_le _, Nat.zero_le _, .inl rfl, h.2.2.2.2.2⟩))
    (.moves (.trans (Part.derive_moves _ _) (Part.touchPost_moves _ _)))

theorem Part.changeBay_edits (p : Part) (q : BayConfig) (hr : 60 ≤ q.rating ∧ q.rating ≤ 800) :
    Part.Edits frees p (p.changeBay q) := by
  unfold Part.changeBay
  dsimp only
  split
  · exact .refl p
  · have stored : ∀ k : Bool, Part.Edits frees p (p.modBay q.bay (fun _ =>
        { (if k then ((p.bay q.bay).configuredAs q).unread else (p.bay q.bay).configuredAs q) with notice := true })) := by
      intro k
      cases k
      · exact .bay p q.bay _ (fun h => ⟨hr.1, hr.2, h.2.2⟩)
      · exact .bay p q.bay _ (fun h => ⟨hr.1, hr.2, Nat.zero_le _, Nat.zero_le _, .inl rfl, h.2.2.2.2.2⟩)
    have bound : ∀ k : Bool, Part.Edits frees p (if k then
        (((p.modBay q.bay (fun _ => { (if k then ((p.bay q.bay).configuredAs q).unread else (p.bay q.bay).configuredAs q)
          with notice := true })).derive q.bay).touchPost (p.bay q.bay).post).touchPost q.post
        else p.modBay q.bay (fun _ => { (if k then ((p.bay q.bay).configuredAs q).unread
          else (p.bay q.bay).configuredAs q) with notice := true })) := by
      intro k
      cases k
      · exact stored false
      · exact .trans (stored true) (.moves (.trans (.trans (Part.derive_moves _ _) (Part.touchPost_moves _ _))
          (Part.touchPost_moves _ _)))
    split
    · exact .trans (bound _) (.moves (Part.recompute_moves _ _))
    · exact bound _

theorem Part.removeBay_edits (p : Part) (b : BayId) : Part.Edits frees p (p.removeBay b) :=
  .trans (p.modBay_edits b _ (fun h => ⟨h.1, h.2.1, Nat.zero_le _, Nat.zero_le _, .inl rfl, Nat.zero_le _⟩))
    (.moves (.trans (Part.derive_moves _ _) (Part.touchPost_moves _ _)))

theorem BaySetReq.inRange_rating {q : BaySetReq} {c : BayConfig} (h : q.inRange = some c) :
    60 ≤ c.rating ∧ c.rating ≤ 800 := by
  unfold BaySetReq.inRange at h
  split at h
  · split at h
    · next hr =>
      cases h
      exact hr
    · cases h
  · cases h

theorem Part.setBayRequest_edits (q : BaySetReq) (p : Part) : Part.Edits frees p (p.setBayRequest q).2 := by
  unfold Part.setBayRequest
  split
  · exact .refl p
  · next c hc =>
    have hr := BaySetReq.inRange_rating hc
    split
    · exact .refl p
    · dsimp only
      split
      · exact p.configureBay_edits c hr
      · exact p.changeBay_edits c hr
      · exact p.removeBay_edits _
      · exact .refl p

theorem Part.takeOut_edits (p : Part) (b : BayId) : Part.Edits frees p (p.takeOut b) := by
  have out : Part.Edits frees p ((p.modBay b (fun x => { x with service := .out, notice := true })).deriveWith false b) :=
    .trans (p.modBay_edits b _ id) (.moves (Part.deriveWith_moves _ _ _))
  unfold Part.takeOut
  dsimp only
  refine .trans ?_ (.moves (Part.reportBlocked_moves _ _ _))
  split
  · next s hs =>
    refine .trans out (.moves (Part.endSession_moves _ _ _ (fun r' hr' => ?_)))
    obtain ⟨r, hr, he⟩ := Part.occupant_engaged hs
    cases hr.symm.trans hr'
    simp [he]
  · exact out

theorem Part.takeIn_edits (p : Part) (b : BayId) : Part.Edits frees p (p.takeIn b) :=
  .trans (p.modBay_edits b _ id) (.moves (.trans (Part.derive_moves _ _) (Part.retryDue_moves _)))

theorem Part.bayServiceRequest_edits (q : BayServiceReq) (p : Part) : Part.Edits frees p (p.bayServiceRequest q).2 := by
  unfold Part.bayServiceRequest
  split
  · split
    · exact .refl p
    · split
      · exact .refl p
      · split
        · split
          · exact .refl p
          · exact p.takeOut_edits _
        · exact p.takeIn_edits _
  · exact .refl p

/-- A feeder's numbers after FEEDER-SET in range (R12, R13). -/
theorem Feeder.configuredAs_numbers {x : Feeder} {q : FeederSetReq} {f : FeederId} (h : q.inRange = some f)
    (hx : x.numbersSound) : (x.configuredAs q).numbersSound := by
  unfold FeederSetReq.inRange at h
  split at h
  · next hr => exact ⟨hr.1, hx.2.1, hr.2.1, hr.2.2.1, hr.2.2.2.1, hr.2.2.2.2, hx.2.2.2.2.2.2⟩
  · cases h

theorem Feeder.fresh_numbers {x : Feeder} (state : FeederState) (hx : x.numbersSound) : (x.fresh state).numbersSound :=
  ⟨hx.1, hx.2.1, hx.2.2.1, hx.2.2.2.1, hx.2.2.2.2.1, hx.2.2.2.2.2.1, Nat.zero_le _, Nat.zero_le _⟩

theorem Part.changeFeeder_edits (p : Part) (f : FeederId) (q : FeederSetReq) (hq : q.inRange = some f) :
    Part.Edits frees p (p.changeFeeder f q) := by
  have stored : Part.Edits frees p (p.modFeeder f (fun _ =>
      if (p.feeder f).configuredAs q = p.feeder f then p.feeder f else { (p.feeder f).configuredAs q with notice := true })) := by
    refine p.modFeeder_edits f _ (fun h => ?_)
    dsimp only
    split
    · exact h
    · exact Feeder.configuredAs_numbers (x := p.feeder f) hq h
  unfold Part.changeFeeder
  dsimp only
  generalize p.modFeeder f _ = u at stored ⊢
  have acted : ∀ a b c : Prop, ∀ (_ : Decidable a) (_ : Decidable b) (_ : Decidable c),
      Part.Edits frees p (if a then u.tripFeeder f else if b then u.restore f else if c then u.recompute f else u) := by
    intro a b c _ _ _
    split
    · exact .trans stored (.moves (Part.tripFeeder_moves _ _))
    · split
      · exact .trans stored (.moves (Part.restore_moves _ _))
      · split
        · exact .trans stored (.moves (Part.recompute_moves _ _))
        · exact stored
  exact acted _ _ _ _ _ _

theorem Part.setFeederRequest_edits (q : FeederSetReq) (p : Part) : Part.Edits frees p (p.setFeederRequest q).2 := by
  unfold Part.setFeederRequest
  split
  · exact .refl p
  · next f hf =>
    dsimp only
    split
    · exact .refl p
    · dsimp only
      have retried : ∀ (u : Part) (k : Prop) (_ : Decidable k), Part.Edits frees p u →
          Part.Edits frees p (if k then u.retryDue else u) := by
        intro u k _ h
        split
        · exact .trans h (.moves u.retryDue_moves)
        · exact h
      refine retried _ _ _ ?_
      split
      · split
        · have started : Part.Edits frees p (p.modFeeder f (fun x => (x.configuredAs q).fresh .normal)) :=
            p.modFeeder_edits f _ (fun h => Feeder.fresh_numbers _ (Feeder.configuredAs_numbers hf h))
          split
          · exact .trans started (.moves (Part.tripFeeder_moves _ _))
          · exact .trans started (.moves (Part.recompute_moves _ _))
        · refine p.modFeeder_edits f _ (fun h => ?_)
          split
          · exact h
          · exact Feeder.configuredAs_numbers (x := p.feeder f) hf h
      all_goals
        split
        · exact p.changeFeeder_edits f q hf
        · exact p.modFeeder_edits f _ (fun h => Feeder.fresh_numbers _ (Feeder.configuredAs_numbers hf h))

theorem Part.trimRequest_edits (q : Nat × Nat) (p : Part) : Part.Edits frees p (p.trimRequest q).2 := by
  unfold Part.trimRequest
  split
  · exact .refl p
  · next f _ =>
    split
    · exact .refl p
    · next h =>
      dsimp only
      split
      · exact .refl p
      · exact .trans (p.modFeeder_edits f _ (fun k => ⟨k.1, Nat.le_of_not_lt h, k.2.2⟩)) (.moves (Part.recompute_moves _ _))

theorem Part.clearFlagsRequest_edits (q : Nat × Nat) (p : Part) : Part.Edits frees p (p.clearFlagsRequest q).2 := by
  unfold Part.clearFlagsRequest
  split
  · exact .feeder p _ _ id
  · exact .refl p

theorem Part.withdraw_edits (p : Part) (q : PostId) : Part.Edits frees p (p.withdraw q) := by
  have unread : Part.Edits frees p ((p.baysOfPost q).foldl (fun p b => p.modBay b Bay.withdrawn) p) := by
    refine .moves (Part.Moves.foldl _ (fun p b _ => p.modBay_moves b _ rfl (fun h => ?_)) p)
    exact ⟨h.1, h.2.1, Nat.zero_le _, Nat.zero_le _, .inl rfl, h.2.2.2.2.2⟩
  unfold Part.withdraw
  dsimp only
  refine .trans ?_ (.moves (Part.cut_moves _ _))
  have stored : ∀ u : Part, Part.Edits frees u (u.setPost q (p.post q).withdrawn) := fun u =>
    .post u q _ (fun _ => ⟨Nat.zero_le _, Nat.zero_le _, Nat.zero_le _⟩)
  split
  · exact .trans (.trans unread (stored _)) (.moves (Part.darken_moves _ _))
  · exact .trans unread (stored _)

theorem Part.setPostRequest_edits (q : Nat × Bool) (p : Part) : Part.Edits frees p (p.setPostRequest q).2 := by
  unfold Part.setPostRequest
  split
  · exact .refl p
  · split
    · exact .post p _ _ (fun _ => ⟨Nat.zero_le _, Nat.zero_le _, Nat.zero_le _⟩)
    · exact .refl p
    · exact .refl p
    · split
      · exact .refl p
      · exact p.withdraw_edits _

/-- POST-FORCE is a chain of edits where its action is (R165). -/
theorem Part.forceRequest_edits {act : PostId → Part → Option Part}
    (h : ∀ q p done, act q p = some done → Part.Edits frees p done) (q : Nat × Nat) (p : Part) :
    Part.Edits frees p (p.forceRequest act q).2 := by
  unfold Part.forceRequest
  split
  · exact .refl p
  · split
    · exact .refl p
    · split
      · exact .refl p
      · split
        · exact .refl p
        · next hd => exact h _ _ _ hd

theorem Part.forceReseek_edits (q : PostId) (p done : Part) (h : p.forceReseek q = some done) : Part.Edits frees p done := by
  cases h
  exact .moves (.trans (p.reseek_moves q) (Part.cut_moves _ _))

theorem Part.forceIsolate_edits (q : PostId) (p done : Part) (h : p.forceIsolate q = some done) : Part.Edits frees p done := by
  cases h
  exact .moves (.trans (p.isolate_moves q _) (Part.cut_moves _ _))

theorem Part.forceWake_edits (q : PostId) (p done : Part) (h : p.forceWake q = some done) : Part.Edits frees p done := by
  unfold Part.forceWake at h
  split at h
  · cases h
    exact .moves (.trans (p.wakePost_moves q) (Part.cut_moves _ _))
  · cases h

/-! ## Clock, settings, resets, policy table -/

theorem Part.clockSetRequest_edits (q : Nat × Nat) (p : Part) : Part.Edits frees p (p.clockSetRequest q).2 := by
  unfold Part.clockSetRequest
  split
  · exact .refl p
  · next h =>
    have hm : q.1 ≤ 4294967295 ∧ q.2 ≤ 59 := by
      simp only [Config.largestClockSet, Bool.or_eq_true, decide_eq_true_eq, not_or, gt_iff_lt] at h
      omega
    split
    · dsimp only
      exact .moves (p.setFromUnset_moves q.1 q.2 hm.1 hm.2)
    · split
      · exact .refl p
      · dsimp only
        exact .moves (p.stepClock_moves q.1 q.2 hm.1 hm.2)

theorem Part.leadChanged_moves (p : Part) : Part.Moves true p p.leadChanged := by
  have marked : Part.Moves true p (p.upcomingSlots.foldl (fun q s => q.modRecord s (fun r =>
      { r with leadTaken := q.reached r.windowStart q.settings.lead })) p) :=
    Part.Moves.foldl _ (fun q s _ => q.modRecord_moves s
      (fun r => { r with leadTaken := q.reached r.windowStart q.settings.lead })
      (fun r _ => ⟨⟨id, id, id, id, fun h => ⟨h, rfl⟩, id⟩, fun h => ⟨h, rfl, rfl⟩⟩)) p
  unfold Part.leadChanged
  dsimp only
  refine .trans marked (.trans ?_ (Part.retryDue_moves _))
  generalize p.upcomingSlots.foldl _ p = u
  generalize u.upcomingSlots.filter _ = due
  obtain ⟨n, hn⟩ := u.inFreeOrder_part due
  rw [hn]
  exact .trans (.choices u n) (Part.Moves.foldl _ (fun q s _ => q.leadDue_moves s) _)

theorem Part.standbyLeadChanged_moves (p : Part) : Part.Moves true p p.standbyLeadChanged := by
  unfold Part.standbyLeadChanged
  refine .trans (Part.Moves.foldl _ (fun q s _ => ?_) p) (Part.touchActive_moves _)
  have marked : ∀ k : Bool, Part.Moves true q (q.modRecord s (fun r => { r with wakeTaken := k })) := fun k =>
    q.modRecord_moves s _ (fun r _ => ⟨⟨id, id, id, id, fun h => ⟨h, rfl⟩, id⟩, fun h => ⟨h, rfl, rfl⟩⟩)
  dsimp only
  split
  · split
    · exact .trans (marked _) (Part.wakeBay_moves _ _)
    · exact marked _
  · exact marked _

theorem Part.applySettings_edits (p : Part) (x : Settings) (h : x.inRange = true) : Part.Edits frees p (p.applySettings x) := by
  have opt : ∀ {k : Prop} {_ : Decidable k} {u : Part} (g : Part → Part), (∀ v, Part.Moves true v (g v)) →
      Part.Moves true u (if k then g u else u) := by
    intro k _ u g hg
    split
    · exact hg u
    · exact .refl u
  unfold Part.applySettings
  dsimp only
  refine .trans (.settings p x h) (.moves ?_)
  refine .trans ?_ (opt Part.recomputeAll (fun v => v.recomputeAll_moves))
  refine .trans ?_ (opt Part.touchActive (fun v => v.touchActive_moves))
  refine .trans ?_ (opt Part.standbyLeadChanged Part.standbyLeadChanged_moves)
  refine .trans ?_ (opt Part.leadChanged Part.leadChanged_moves)
  exact opt Part.rolloverChanged (fun v => .clock v _ rfl id)

theorem Part.partSetRequest_edits (q : Settings) (p : Part) : Part.Edits frees p (p.partSetRequest q).2 := by
  unfold Part.partSetRequest
  split
  · exact .refl p
  · next h =>
    split
    · exact .refl p
    · exact p.applySettings_edits q (by simpa using h)

theorem Part.ruleWriteRequest_edits (q : RuleWriteReq) (p : Part) : Part.Edits frees p (p.ruleWriteRequest q).2 := by
  unfold Part.ruleWriteRequest
  split
  · exact .refl p
  · next e _ =>
    dsimp only
    split
    · exact .refl p
    · next h =>
      refine .rule p e.rule _ (fun hc => ?_)
      have sound : ((p.rule e.rule).edited e).counter ≤ ((p.rule e.rule).edited e).tally.limit := by
        unfold Rule.edited
        dsimp only
        cases ht : e.tally with
        | none => exact hc
        | some t =>
          rw [ht] at h
          simpa using h
      split
      · exact sound
      · exact sound

theorem Part.tallyClearRequest_edits (n : Nat) (p : Part) : Part.Edits frees p (p.tallyClearRequest n).2 := by
  unfold Part.tallyClearRequest
  split
  · exact .moves p.clearTallies_moves
  · split
    · exact .refl p
    · exact .moves (p.clearTally_moves _)

theorem Part.laneSetRequest_edits (q : LaneSetReq) (p : Part) : Part.Edits frees p (p.laneSetRequest q).2 := by
  unfold Part.laneSetRequest
  split
  · exact .refl p
  · exact .lane p _ _

theorem Part.Edits.foldl {α : Type} {f : Part → α → Part} (l : List α) (h : ∀ p a, Part.Edits frees p (f p a)) (p : Part) :
    Part.Edits frees p (l.foldl f p) := by
  induction l generalizing p with
  | nil => exact .refl p
  | cons a l ih => exact .trans (h p a) (ih _)

theorem Part.bookBay_edits (p : Part) (b : BayId) : Part.Edits frees p (p.bookBay b) := by
  unfold Part.bookBay
  exact p.modBay_edits b _ (fun h => ⟨h.1, h.2.1, h.2.2.1, h.2.2.2.1, h.2.2.2.2.1, Nat.zero_le _⟩)

/-- RESET-PART BOOK on the tables (R49, R178). -/
theorem Part.bookReset_edits (p : Part) : Part.Edits true p p.bookReset := by
  have rebuilt := Part.Edits.rebuild (frees := true) p rfl
  have bayed : ∀ u : Part, Part.Edits true u (allBays.foldl Part.bookBay u) := fun u =>
    Part.Edits.foldl _ (fun q b => q.bookBay_edits b) u
  have derived : ∀ u : Part, Part.Edits true u (allBays.foldl Part.derive u) := fun u =>
    Part.Edits.foldl _ (fun q b => .moves (q.derive_moves b)) u
  have fed : ∀ u : Part, Part.Edits true u (allFeeders.foldl (fun q f => q.modFeeder f Feeder.bookReset) u) := fun u =>
    Part.Edits.foldl _ (fun q f => q.modFeeder_edits f _ (fun h =>
      ⟨h.1, h.2.1, h.2.2.1, h.2.2.2.1, h.2.2.2.2.1, h.2.2.2.2.2.1, Nat.zero_le _, Nat.zero_le _⟩)) u
  have ruled : ∀ u : Part, Part.Edits true u
      (allRules.foldl (fun q r => q.setRule r { q.rule r with counter := 0, notice := false }) u) := fun u =>
    Part.Edits.foldl _ (fun q r => .rule q r _ (fun _ => Nat.zero_le _)) u
  unfold Part.bookReset
  dsimp only
  generalize p.pool.rebuild = z at rebuilt ⊢
  exact .trans rebuilt (.trans (bayed _) (.trans (derived _) (.trans (fed _) (.trans (ruled _)
    (.moves (Part.touchActive_moves _))))))

end Sys2Proof.Machine
end

