-- ==== Sys2Proof/Laws/Bookings.lean ====
section
/-! SUPPORT. The requests that create and change records are chains of edits (Laws/Edits.lean), and what an accepted
evaluation says of the tallies it will advance. -/

namespace Sys2Proof.Machine

variable {frees : Bool}

/-! ## Tallies (R59, R61) -/

/-- The tallies of an accepted walk: those it started with, then distinct rules of the list whose tally is enabled and
below its limit (R59, R62). -/
theorem Part.walkRules_tallies (p : Part) (l : Lane) (q : EvalInput) (rs : List RuleId) (a m : Admission)
    (hn : rs.Nodup) (h : p.walkRules l q rs a = .accepted m) :
    ∃ new : List RuleId, m.tallies = a.tallies ++ new ∧ new.Nodup ∧
      ∀ r ∈ new, r ∈ rs ∧ (p.rule r).tally.enabled = true ∧ (p.rule r).counter ≠ (p.rule r).tally.limit := by
  induction rs generalizing a with
  | nil =>
    unfold Part.walkRules at h
    split at h
    · cases h
    · cases h
      exact ⟨[], by simp, .nil, by simp⟩
  | cons r rs ih =>
    have weaken : ∀ b : Admission, p.walkRules l q rs b = .accepted m →
        ∃ new : List RuleId, m.tallies = b.tallies ++ new ∧ new.Nodup ∧ r ∉ new ∧
          ∀ r' ∈ new, r' ∈ r :: rs ∧ (p.rule r').tally.enabled = true ∧ (p.rule r').counter ≠ (p.rule r').tally.limit := by
      intro b hb
      obtain ⟨new, e, nd, all⟩ := ih b hn.of_cons hb
      exact ⟨new, e, nd, fun hr => (List.nodup_cons.1 hn).1 (all r hr).1,
        fun r' hr' => ⟨by simp [(all r' hr').1], (all r' hr').2⟩⟩
    have tallied : ∀ new : List RuleId, (p.rule r).full ≠ true → new.Nodup → r ∉ new →
        (∀ r' ∈ new, r' ∈ r :: rs ∧ (p.rule r').tally.enabled = true ∧ (p.rule r').counter ≠ (p.rule r').tally.limit) →
        m.tallies = (a.take r (p.rule r)).tallies ++ new →
        ∃ new : List RuleId, m.tallies = a.tallies ++ new ∧ new.Nodup ∧
          ∀ r' ∈ new, r' ∈ r :: rs ∧ (p.rule r').tally.enabled = true ∧ (p.rule r').counter ≠ (p.rule r').tally.limit := by
      intro new hf nd ni all e
      unfold Admission.take at e
      dsimp only at e
      split at e
      · next en =>
        refine ⟨r :: new, by simpa using e, List.nodup_cons.2 ⟨ni, nd⟩, ?_⟩
        intro r' hr'
        rcases List.mem_cons.1 hr' with e | e
        · subst e
          exact ⟨by simp, en, fun c => hf (by simp [Rule.full, en, c])⟩
        · exact all r' e
      · exact ⟨new, e, nd, all⟩
    unfold Part.walkRules at h
    dsimp only at h
    split at h
    · split at h
      · cases h
      · next hf =>
        split at h
        · cases h
          exact tallied [] hf .nil (by simp) (by simp) (by simp)
        · cases h
        · obtain ⟨new, e, nd, ni, all⟩ := weaken _ h
          exact tallied new hf nd ni all e
    · obtain ⟨new, e, nd, _, all⟩ := weaken _ h
      exact ⟨new, e, nd, all⟩

/-- An accepted evaluation names distinct tallies, each enabled and below its limit (R59, R62). -/
theorem Part.evaluate_tallies {p : Part} {q : EvalInput} {m : Admission} (h : p.evaluate q = .accepted m) :
    m.tallies.Nodup ∧ ∀ r ∈ m.tallies, (p.rule r).tally.enabled = true ∧ (p.rule r).counter ≠ (p.rule r).tally.limit := by
  obtain ⟨new, e, nd, all⟩ := p.walkRules_tallies _ q allRules _ m (List.nodup_finRange 32) h
  rw [List.nil_append] at e
  rw [e]
  exact ⟨nd, fun r hr => (all r hr).2⟩

/-- The advance of distinct tallies below their limits (R61). -/
theorem Part.advanceTallies_edits (l : List RuleId) (hn : l.Nodup) (p : Part)
    (h : ∀ r ∈ l, (p.rule r).counter ≠ (p.rule r).tally.limit) : Part.Edits frees p (p.advanceTallies l) := by
  unfold Part.advanceTallies
  induction l generalizing p with
  | nil => exact .refl p
  | cons r l ih =>
    refine .trans (.rule p r _ (fun hc => ?_)) (ih hn.of_cons _ (fun r' hr' => ?_))
    · have := h r (by simp)
      unfold Rule.advance
      dsimp only
      omega
    · have ne : r' ≠ r := fun e => (List.nodup_cons.1 hn).1 (e ▸ hr')
      rw [Part.rule_setRule_ne _ _ _ _ ne]
      exact h r' (by simp [hr'])

/-- The counters after the advance (R61). -/
theorem Part.advanceTallies_counter (l : List RuleId) (p : Part) (q : RuleId) :
    ((p.advanceTallies l).rule q).counter = (p.rule q).counter + l.count q := by
  unfold Part.advanceTallies
  induction l generalizing p with
  | nil => simp
  | cons r l ih =>
    rw [List.foldl_cons, ih, Part.rule_setRule]
    by_cases e : q = r
    · subst e
      simp only [if_true, List.count_cons_self, Rule.advance]
      omega
    · have e' : ¬ r = q := fun x => e x.symm
      simp [e, e']

/-! ## The rules stand while a record is created -/

theorem Part.deriveWith_rules (raise : Bool) (p : Part) (b : BayId) : (p.deriveWith raise b).rules = p.rules := by
  unfold Part.deriveWith
  dsimp only
  split
  · rfl
  · split <;> split <;> simp

theorem Part.wakeBay_rules (p : Part) (b : BayId) : (p.wakeBay b).rules = p.rules := by
  unfold Part.wakeBay Part.wakePost
  split <;> rfl

theorem Part.armChecks_rules (p : Part) (s : SlotId) : (p.armChecks s).rules = p.rules := by
  unfold Part.armChecks
  split
  · rfl
  · dsimp only
    split <;> split <;> (try split) <;> simp [Part.wakeBay_rules, Part.leadDue]

theorem Part.engage_rules (p : Part) (s : SlotId) (cause : LastCause) : (p.engage s cause).rules = p.rules := by
  unfold Part.engage
  split
  · rfl
  · split
    · rfl
    · simp [Part.derive, Part.deriveWith_rules]

theorem Part.modRecord_rules (p : Part) (s : SlotId) (g : Record → Record) : (p.modRecord s g).rules = p.rules := by
  unfold Part.modRecord
  split <;> simp

theorem Part.takeArrival_rules (p : Part) (s : SlotId) (b : BayId) (cause : LastCause) (moved : Bool) :
    (p.takeArrival s b cause moved).rules = p.rules := by
  unfold Part.takeArrival
  dsimp only
  rw [Part.wakeBay_rules, Part.derive, Part.deriveWith_rules]
  split
  · exact p.engage_rules s cause
  · split
    · rw [Part.armChecks_rules, Part.modRecord_rules]
    · exact p.modRecord_rules s _

/-- The advance after a record has been created: the evaluation was made on the same rules (R61). -/
theorem Part.advanceAfter_edits {p u : Part} {q : EvalInput} {m : Admission} (h : p.evaluate q = .accepted m)
    (hu : u.rules = p.rules) : Part.Edits frees u (u.advanceTallies m.tallies) := by
  obtain ⟨nd, all⟩ := Part.evaluate_tallies h
  refine u.advanceTallies_edits _ nd (fun r hr => ?_)
  have same : u.rule r = p.rule r := by rw [Part.rule, hu, Part.rule]
  rw [same]
  exact (all r hr).2

/-! ## Creation (R69 to R73, R109, R110) -/

/-- A record stored in the slot at the head of the free list. -/
theorem Part.create_edits (p : Part) (s : SlotId) (l : List SlotId) (r : Record) (hs : p.pool.free = s :: l)
    (hf : r.Fresh) (hw : r.state = .waiting → p.pool.waiting.length < 32) : Part.Edits frees p (p.put s r) := by
  have created : Part.Edits frees p { p with pool := p.pool.put s r } := .create p s r (by rw [hs]; rfl) hf hw
  unfold Part.put
  dsimp only
  split
  · split
    · exact created
    · exact .trans created (.moves (.trans (Part.touchBayOf_moves _ _) (Part.touchBayOf_moves _ _)))
  · exact .trans created (.moves (Part.touchBayOf_moves _ _))

/-- The granted duration is at most 720 minutes (R67). -/
theorem clampDuration_le (n : Nat) : clampDuration n ≤ 720 := Nat.min_le_right _ _

/-- A quota as stored is 1 to 200 000 Wh (R67). -/
theorem clampQuota_range (q : Option Nat) (n : Nat) (h : clampQuota q = some n) : 1 ≤ n ∧ n ≤ 200000 := by
  unfold clampQuota at h
  cases q with
  | none => cases h
  | some m =>
    simp only [Option.bind_some] at h
    split at h
    · cases h
    · cases h
      refine ⟨?_, Nat.min_le_right _ _⟩
      unfold Config.largestQuota
      omega

theorem Part.newRecord_fresh (p : Part) (n : NewRecord) (state : RecState) (bay : Option BayId)
    (hb : (state.chained = true → bay.isSome = true) ∧ (state = .waiting → bay = none)) (hw : n.stop ≤ n.start + 720) (hd : n.duration ≤ 720) (hq : ∀ k, n.quota = some k → 1 ≤ k ∧ k ≤ 200000) :
    (p.newRecord n state bay).Fresh := ⟨⟨Nat.zero_le _, hw, hd⟩, hq, rfl, hb⟩

theorem Part.bookRequest_edits (q : BookReq) (p : Part) : Part.Edits frees p (p.bookRequest q).2 := by
  unfold Part.bookRequest
  split
  · exact .refl p
  · unfold Part.bookInRange
    dsimp only
    split
    · exact .refl p
    · split
      · exact .refl p
      · exact .refl p
      · next m hm =>
        split
        · exact .refl p
        · next s l hs =>
          have fresh : ∀ (start : Nat) (state : RecState) (bay pinned : Option BayId) (rate deadline : Option Nat) (a : Asker),
              (state.chained = true → bay.isSome = true) ∧ (state = .waiting → bay = none) →
              (p.newRecord ⟨a, m, start, start + clampDuration q.window.duration, clampDuration q.window.duration,
                clampQuota q.quota, rate, deadline, pinned, .booked⟩ state bay).Fresh := fun start state bay _ _ _ _ hb =>
            p.newRecord_fresh _ _ _ hb (Nat.add_le_add_left (clampDuration_le _) start) (clampDuration_le _)
              (clampQuota_range _)
          split
          · unfold Part.bookPlaced
            dsimp only
            refine .trans (.trans (p.create_edits s l _ hs (fresh _ _ _ _ _ _ _ ⟨fun _ => rfl, fun e => ?_⟩) (fun h => ?_))
              (.moves (.trans (Part.armChecks_moves _ _) (Part.derive_moves _ _)))) (Part.advanceAfter_edits hm ?_)
            · split at e <;> cases e
            · unfold Part.newRecord at h
              dsimp only at h
              split at h <;> cases h
            · rw [Part.derive, Part.deriveWith_rules, Part.armChecks_rules, Part.put_rules]
          · unfold Part.bookWaiting
            split
            · exact .refl p
            · split
              · exact .refl p
              · split
                · next room =>
                  exact .trans (p.create_edits s l _ hs (fresh _ _ _ _ _ _ _
                    ⟨fun e => by simp [RecState.chained] at e, fun _ => rfl⟩) (fun _ => room))
                    (Part.advanceAfter_edits hm (Part.put_rules _ _ _))
                · exact .refl p

theorem Part.findFreeRequest_edits (q : AskerReq × WindowReq) (p : Part) : Part.Edits frees p (p.findFreeRequest q).2 := by
  unfold Part.findFreeRequest
  split
  · exact .refl p
  · dsimp only
    split
    · exact .refl p
    · split <;> exact .refl p

/-! ## Changes of one record -/

/-- A handle names a live record of its slot (R32). -/
theorem Part.findLive_some {p : Part} {n : Nat} {s : SlotId} {r : Record} (h : p.findLive n = some (s, r)) :
    p.record s = some r ∧ r.state ≠ .closing ∧ p.pool.handle s = n := by
  unfold Part.findLive at h
  obtain ⟨h, live⟩ := Option.filter_eq_some_iff.1 h
  unfold Pool.find at h
  split at h
  · cases h
  · next k hk =>
    split at h
    · cases h
    · next g =>
      obtain ⟨r', hr, e⟩ := Option.map_eq_some_iff.1 h
      cases e
      refine ⟨hr, by simpa using live, ?_⟩
      unfold fin? at hk
      split at hk
      · cases hk
        unfold Pool.handle
        simp only [not_or, ne_eq, not_not] at g
        rw [← g.2]
        show n / 256 * 256 + n % 256 = n
        omega
      · cases hk

theorem Record.extended_keeps (r : Record) (g : Nat) (hl : r.extensions.length < 3)
    (hg : g ≤ 720 + r.windowStart - r.windowEnd) : r.Keeps (r.extended g) := by
  refine ⟨fun h => ⟨hl, ?_, h.2.2⟩, id, id, id, fun h => ⟨h, rfl⟩, id⟩
  have := h.2.1
  unfold Record.extended Record.flag
  dsimp only
  omega

/-- Every limit bounds the grant (R81). -/
theorem Part.grant_le (p : Part) (s : SlotId) (r : Record) (b : BayId) (amount n : Nat)
    (h : n ∈ p.grantLimits s r b amount) : p.grant s r b amount ≤ n := by
  have le : ∀ (l : List Nat) (n : Nat), n ∈ l → (l.min?.getD 0) ≤ n := by
    intro l n hn
    cases hm : l.min? with
    | none => simp [List.min?_eq_none_iff.1 hm] at hn
    | some m => exact (List.min?_eq_some_iff.1 hm).2 n hn
  unfold Part.grant
  have := le _ n h
  omega

theorem Part.extendRequest_edits (q : Nat × Nat) (p : Part) : Part.Edits frees p (p.extendRequest q).2 := by
  unfold Part.extendRequest
  split
  · exact .refl p
  · split
    · exact .refl p
    · next s r hs =>
      split
      · split
        · exact .refl p
        · split
          · exact .refl p
          · next hl =>
            dsimp only
            split
            · exact .refl p
            · refine .moves (p.put_moves s (Part.findLive_some hs).1 (r.extended_keeps _ (Nat.lt_of_not_ge hl) ?_)
                (fun h => .inl ⟨h, rfl, rfl⟩))
              exact p.grant_le s r _ _ _ (by simp [Part.grantLimits, Config.longestWindow])
      · exact .refl p

theorem Part.retractRequest_edits (n : Nat) (p : Part) : Part.Edits frees p (p.retractRequest n).2 := by
  unfold Part.retractRequest
  split
  · exact .refl p
  · next s r hs =>
    split
    · exact .refl p
    · next x rest hx =>
      split
      · exact .refl p
      · refine .moves (.trans (p.put_moves s (r := r.retracted x rest) (Part.findLive_some hs).1 ⟨fun h => ⟨?_, ?_, h.2.2⟩, id, id, id,
          fun h => ⟨h, rfl⟩, id⟩ (fun h => .inl ⟨h, rfl, rfl⟩)) (Part.retryDue_moves _))
        · have := h.1
          rw [hx] at this
          exact Nat.le_of_succ_le this
        · have := h.2.1
          unfold Record.retracted Record.flag
          dsimp only
          omega

theorem Part.cancelRequest_edits (n : Nat) (p : Part) : Part.Edits frees p (p.cancelRequest n).2 := by
  unfold Part.cancelRequest
  split
  · exact .refl p
  · next s r hs =>
    split
    · exact .refl p
    · refine .moves (p.closeRecord_moves s _ _ (fun r' hr' => ?_))
      cases (Part.findLive_some hs).1.symm.trans hr'
      exact (Part.findLive_some hs).2.1

/-! ## Arrivals (R103 to R106, R110) -/

/-- The start that ARRIVE gives leaves a window of at most 720 minutes (R103). -/
theorem Record.startingAt_keeps (r : Record) (b : BayId) (now : Nat) (hs : r.state.upcoming = true) :
    r.Keeps (r.startingAt b (r.arrivalStart now)) := by
  refine ⟨fun h => ⟨h.1, ?_, h.2.2⟩, id, id, id, fun h => ⟨h, rfl⟩,
    fun _ => ⟨fun _ => rfl, fun e => absurd e (RecState.upcoming_ne hs).2⟩⟩
  unfold Record.startingAt Record.arrivalStart Config.longestWindow
  dsimp only
  omega

theorem Part.takeArrival_moves {timed : Bool} (p : Part) (s : SlotId) (b : BayId) (cause : LastCause) (moved : Bool)
    (hs : ∀ r, p.record s = some r → r.state.upcoming = true) : Part.Moves timed p (p.takeArrival s b cause moved) := by
  have waits : Part.Moves timed p (p.modRecord s (fun r => { r.flag cause with state := .arriving })) :=
    p.modRecord_moves s _ (fun r hr => ⟨⟨id, id, id, id, fun h => absurd h (RecState.upcoming_ne (hs r hr)).1,
      fun h => ⟨fun _ => h.1 (RecState.upcoming_chained (hs r hr)), fun e => by simp at e⟩⟩, fun h => by simp at h⟩)
  unfold Part.takeArrival
  dsimp only
  refine .trans (.trans ?_ (Part.derive_moves _ _)) (Part.wakeBay_moves _ _)
  split
  · exact p.engage_moves s cause (fun r hr => (RecState.upcoming_ne (hs r hr)).1)
  · split
    · exact .trans waits (Part.armChecks_moves _ _)
    · exact waits

theorem Part.arriveOwn_moves {timed : Bool} (p : Part) (s : SlotId) (r : Record) (b : BayId) (hr : p.record s = some r)
    (hs : r.state.upcoming = true) : Part.Moves timed p (p.arriveOwn s r b).2 := by
  have live : ∀ r', p.record s = some r' → r'.state.upcoming = true := fun r' hr' =>
    Option.some.inj (hr.symm.trans hr') ▸ hs
  unfold Part.arriveOwn
  dsimp only
  split
  · exact .refl p
  · split
    · exact .refl p
    · split
      · split
        · dsimp only
          refine .trans (p.put_moves s (r := r.startingAt b (r.arrivalStart p.now)) hr (r.startingAt_keeps b p.now hs)
            (fun h => .inl ⟨h, rfl, rfl⟩)) (Part.takeArrival_moves _ _ _ _ _ ?_)
          intro r' hr'
          rw [Part.record_put, if_pos rfl] at hr'
          cases hr'
          exact hs
        · exact .refl p
      · exact p.takeArrival_moves s b _ _ live

theorem Part.arriveOther_moves {timed : Bool} (p : Part) (s : SlotId) (r : Record) (a b : BayId) (hr : p.record s = some r)
    (hs : r.state.upcoming = true) : Part.Moves timed p (p.arriveOther s r a b).2 := by
  unfold Part.arriveOther
  split
  · dsimp only
    refine .trans (.trans (.trans (p.put_moves s (r := r.startingAt b (r.arrivalStart p.now)) hr
      (r.startingAt_keeps b p.now hs) (fun h => .inl ⟨h, rfl, rfl⟩))
      (Part.derive_moves _ _)) (Part.retryDue_moves _)) (Part.takeArrival_moves _ _ _ _ _ ?_)
    intro r' hr'
    rw [Part.retryDue_record, Part.derive_record, Part.record_put, if_pos rfl] at hr'
    cases hr'
    exact hs
  · exact .refl p

theorem Part.arriveRequest_edits (q : Nat × Nat) (p : Part) : Part.Edits frees p (p.arriveRequest q).2 := by
  unfold Part.arriveRequest
  split
  · exact .refl p
  · split
    · exact .refl p
    · split
      · exact .refl p
      · next s r hs =>
        obtain ⟨hr, _, _⟩ := Part.findLive_some hs
        split
        · next up _ =>
          split
          · exact .refl p
          · split
            · exact .moves (p.arriveOwn_moves s r _ hr up)
            · exact .moves (p.arriveOther_moves s r _ _ hr up)
        · exact .refl p

/-- A walk-in ends at most its granted duration after now (R110). -/
theorem Part.walkinEnd_le (p : Part) (b : BayId) (duration : Nat) : p.walkinEnd b duration ≤ p.now + duration := by
  unfold Part.walkinEnd
  dsimp only
  rw [List.append_assoc, List.singleton_append]
  generalize (_ ++ _ : List Nat) = l
  cases hm : ((p.now + duration) :: l).min? with
  | none => exact Nat.le_add_right _ _
  | some m => exact (List.min?_eq_some_iff.1 hm).2 _ (by simp)

theorem Part.walkinRequest_edits (q : WalkinReq) (p : Part) : Part.Edits frees p (p.walkinRequest q).2 := by
  unfold Part.walkinRequest
  split
  · split
    · exact .refl p
    · split
      · exact .refl p
      · exact .refl p
      · next m hm =>
        unfold Part.walkinAccepted
        dsimp only
        split
        · exact .refl p
        · split
          · exact .refl p
          · split
            · exact .refl p
            · split
              · exact .refl p
              · next s l hs =>
                refine .trans (.trans (p.create_edits s l _ hs (p.newRecord_fresh _ _ _ ⟨fun _ => rfl, fun e => by simp at e⟩ ?_
                  (clampDuration_le _)
                  (clampQuota_range _)) (fun h => by simp [Part.newRecord] at h))
                  (.moves (Part.takeArrival_moves _ _ _ _ _ ?_))) (Part.advanceAfter_edits hm ?_)
                · exact Nat.le_trans (p.walkinEnd_le _ _) (Nat.add_le_add_left (clampDuration_le _) _)
                · intro r hr
                  rw [Part.record_put, if_pos rfl] at hr
                  cases hr
                  rfl
                · rw [Part.takeArrival_rules, Part.put_rules]
  · exact .refl p

/-! ## END-SESSION and SESSION-RESUME (R125, R127) -/

theorem Part.endSessionRequest_edits (n : Nat) (p : Part) : Part.Edits frees p (p.endSessionRequest n).2 := by
  unfold Part.endSessionRequest
  split
  · exact .refl p
  · next s r hs =>
    split
    · refine .moves (p.endSession_moves s _ (fun r' hr' => ?_))
      cases (Part.findLive_some hs).1.symm.trans hr'
      exact (Part.findLive_some hs).2.1
    · exact .refl p

theorem Part.resume_moves {timed : Bool} (p : Part) (s : SlotId) (r : Record) (x : Session) (b : BayId) (added : Option Nat)
    (hr : p.record s = some r) (hx : r.session = some x) (hs : r.state ≠ .closing) (done : Part)
    (h : p.resume s r x b added = .ok done) : Part.Moves timed p done := by
  have here : ∀ r' y, p.record s = some r' → r'.session = some y → r' = r ∧ y = x := by
    intro r' y hr' hy
    cases hr.symm.trans hr'
    exact ⟨rfl, Option.some.inj (hy.symm.trans hx)⟩
  unfold Part.resume at h
  dsimp only at h
  split at h
  · next hp =>
    split at h
    · cases h
      refine p.updSession_moves s _ (fun r' y hr' hy => ?_)
      obtain ⟨rfl, rfl⟩ := here r' y hr' hy
      exact .resumed _ _ hp
    · cases h
  · next hp =>
    cases h
    refine p.updSession_moves s _ (fun r' y hr' hy => ?_)
    obtain ⟨rfl, rfl⟩ := here r' y hr' hy
    unfold Session.intoCharge
    split <;> refine ⟨?_, ?_, ?_⟩ <;> intro h <;>
      simp_all [Session.residueSound, Session.energySound, Session.phaseSound]
  · next hp =>
    split at h
    · cases h
    · next n =>
      split at h
      · cases h
      · next hq =>
        cases h
        have below : r.quota.getD 0 < 200000 := Nat.lt_of_not_le hq
        refine .trans (p.put_moves s (r := { r.flag .session with
          quota := some (min (r.quota.getD 0 + n) Config.largestQuota) }) hr
          ⟨id, id, fun e => ?_, id, fun h => absurd h hs, id⟩ (fun h => .inl ⟨h, rfl, rfl⟩)) ?_
        · obtain ⟨q, hq⟩ := Option.isSome_iff_exists.1 ((e.2 x hx).2.1 (.inl hp))
          rw [hq] at below ⊢
          have first := e.1 q hq
          refine ⟨fun k hk => ?_, fun y hy => ⟨fun k hk => ?_, fun _ => rfl, (e.2 y hy).2.2⟩⟩
          · cases hk
            unfold Config.largestQuota
            simp only [Option.getD_some] at below ⊢
            omega
          · cases hk
            have := (e.2 y hy).1 q hq
            unfold Config.largestQuota
            simp only [Option.getD_some] at below ⊢
            omega
        · refine Part.updSession_moves _ s _ (fun r' y hr' hy => ?_)
          rw [Part.record_put, if_pos rfl] at hr'
          cases hr'
          cases hx.symm.trans hy
          unfold Session.intoCharge
          repeat' split
          all_goals
            refine ⟨?_, ?_, ?_⟩ <;> intro h <;>
              simp_all [Session.residueSound, Session.energySound, Session.phaseSound]
  all_goals cases h

theorem Part.resumeRequest_edits (q : Nat × Option Nat) (p : Part) : Part.Edits frees p (p.resumeRequest q).2 := by
  unfold Part.resumeRequest
  split
  · exact .refl p
  · next s r hs =>
    obtain ⟨hr, live, _⟩ := Part.findLive_some hs
    split
    · next hx _ =>
      split
      · next done hd => exact .moves (p.resume_moves s r _ _ _ hr hx live done hd)
      · exact .refl p
    · exact .refl p

end Sys2Proof.Machine
end

