-- ==== Sys2Proof/Laws/Serve.lean ====
section
/-! SUPPORT. The port's shared operations: the completion of a command, the transmitter's choice, the serving of a request;
and what every command can do behind the port, as a chain of edits (Laws/Edits.lean). -/

namespace Sys2Proof.Machine

variable {frees : Bool}

/-! ## The transmitter and the completion (R171, R172) -/

/-- The transmitter's choice clears at most one notice flag behind the port. -/
theorem State.choose_moves {timed : Bool} (s : State) : Part.Moves timed s.part s.choose.part := by
  have rule : Part.Moves timed s.part s.chooseRule.part := by
    unfold State.chooseRule
    split
    · exact .rule s.part _ _ rfl id
    · exact .refl _
  have bay : Part.Moves timed s.part s.chooseBay.part := by
    unfold State.chooseBay
    split
    · exact s.part.modBay_moves _ (fun x => { x with notice := false }) rfl id
    · exact rule
  have feeder : Part.Moves timed s.part s.chooseFeeder.part := by
    unfold State.chooseFeeder
    split
    · exact s.part.modFeeder_moves _ (fun x => { x with notice := false }) rfl id
    · exact bay
  have post : Part.Moves timed s.part s.choosePost.part := by
    unfold State.choosePost
    split
    · exact s.part.modPost_moves _ (fun x => { x with notice := false }) rfl id
    · exact feeder
  have record : Part.Moves timed s.part s.chooseRecord.part := by
    unfold State.chooseRecord
    split
    · exact s.part.modRecord_moves _ (fun r => { r with notice := false })
        (fun r _ => ⟨⟨id, id, id, id, fun h => ⟨h, rfl⟩, id⟩, fun h => ⟨h, rfl, rfl⟩⟩)
    · exact post
  unfold State.choose State.chooseClose
  split
  · exact .refl _
  · split
    · exact .refl _
    · exact record

theorem State.kick_moves {timed : Bool} (s : State) : Part.Moves timed s.part s.kick.part := by
  unfold State.kick
  split
  · exact .refl _
  · exact s.choose_moves

/-- The end of a command: the event completes, and an idle transmitter begins. -/
theorem State.complete_moves {timed : Bool} (s : State) : Part.Moves timed s.part s.complete.part :=
  .trans s.part.finish_moves (State.kick_moves { s with part := s.part.finish })

/-- A frame in transmission is left alone (R171). -/
theorem State.kick_busy (s : State) (x : Transmission) (h : s.port.sending = some x) : s.kick = s := by
  unfold State.kick
  rw [h]

/-- An idle transmitter begins the reply at the head of its queue (R171). -/
theorem State.kick_reply (s : State) (r : Reply) (l : List Reply) (h : s.port.sending = none)
    (hr : s.port.replies = r :: l) :
    s.kick = { s with port := { s.port with replies := l, sending := some r.sent } } := by
  unfold State.kick State.choose
  rw [h, hr]
  rfl

/-- The machine after a served request has been answered: the reply stands at the tail of its queue, and an idle
transmitter has begun the queue's head. -/
theorem State.complete_answered (s : State) (p : Part) (rest : List Frame) (f : Frame) (a : Answer) :
    State.complete { s with part := p, port := { s.port with
      requests := rest, replies := s.port.replies ++ [⟨f.answer a, false⟩] } } = s.replied rest f a p.finish := by
  obtain ⟨part, ⟨receiver, requests, replies, sending, next, stopped⟩, pending⟩ := s
  cases sending <;> cases replies <;> rfl

/-! ## Serving (R170) -/

theorem Kind.ofCode_code (k : Kind) : Kind.ofCode k.code = some k := by
  cases k <;> decide

/-- The request at the head that the port serves. -/
theorem Port.head_asks {s : State} {k : Kind} {payload : List Byte} {f : Frame} {rest : List Frame}
    (h : s.Asks k payload f rest) {mine : List Byte → Bool} (hm : mine payload = true) :
    s.port.head k mine = some (f, rest) := by
  unfold Port.head
  have room : s.port.replies.length < Config.queuePlaces := h.room
  rw [h.queue]
  simp [h.kind, Kind.ofCode_code, h.fields, hm, h.serving, room]

/-- A request whose fields read well is taken whole, and its answer joins the reply queue (R170). -/
theorem State.serve_asks {α : Type} {s : State} {k : Kind} {payload : List Byte} {f : Frame} {rest : List Frame}
    (h : s.Asks k payload f rest) {mine : List Byte → Bool} (hm : mine payload = true) {rd : Rd α} {x : α}
    (hx : rd.all payload = some x) (act : α → Part → Answer × Part) :
    (s.serve k mine rd act).done = .next (s.replied rest f (act x s.part).1 (act x s.part).2.finish) := by
  unfold State.done
  rw [← s.complete_answered (act x s.part).2 rest f (act x s.part).1]
  unfold State.serve State.serveWith
  rw [Port.head_asks h hm]
  simp only [h.tag, if_false, h.fields, hx]
  unfold State.answer Port.pushReply
  simp only [h.serving]

/-- A request whose fields do not read is answered MALFORMED (R170, R180). -/
theorem State.serve_malformed {α : Type} {s : State} {k : Kind} {payload : List Byte} {f : Frame} {rest : List Frame}
    (h : s.Asks k payload f rest) {mine : List Byte → Bool} (hm : mine payload = true) {rd : Rd α}
    (hx : rd.all payload = none) (act : α → Part → Answer × Part) :
    (s.serve k mine rd act).done = .next (s.replied rest f ⟨.malformed, []⟩ s.part.finish) := by
  unfold State.done
  rw [← s.complete_answered s.part rest f ⟨.malformed, []⟩]
  unfold State.serve State.serveWith
  rw [Port.head_asks h hm]
  simp only [h.tag, if_false, h.fields, hx]
  unfold State.answer Port.pushReply
  simp only [h.serving, Status.alone]

/-- Without a request at the head that the row serves, nothing is served. -/
theorem State.serveWith_none {α : Type} {s : State} {k : Kind} {mine : List Byte → Bool} (h : s.port.head k mine = none)
    (rd : Rd α) (act : α → State → Answer × State) : s.serveWith k mine rd act = s := by
  unfold State.serveWith
  rw [h]

/-! ## What every command can do behind the port -/

theorem State.answer_part (s : State) (f : Frame) (a : Answer) : (s.answer f a).part = s.part := rfl

/-- Serving a request is a chain of edits where its action is. -/
theorem State.serveWith_edits {α : Type} (s : State) (k : Kind) (mine : List Byte → Bool) (rd : Rd α)
    {act : α → State → Answer × State} (h : ∀ x u, Part.Edits frees u.part (act x u).2.part) :
    Part.Edits frees s.part (s.serveWith k mine rd act).part := by
  unfold State.serveWith
  split
  · exact .refl _
  · next f rest _ =>
    dsimp only
    split
    · exact .refl _
    · split
      · exact .refl _
      · next req _ => exact h req { s with port := { s.port with requests := rest } }

theorem State.serve_edits {α : Type} (s : State) (k : Kind) (mine : List Byte → Bool) (rd : Rd α)
    {act : α → Part → Answer × Part} (h : ∀ x p, Part.Edits frees p (act x p).2) :
    Part.Edits frees s.part (s.serve k mine rd act).part := s.serveWith_edits k mine rd (fun x u => h x u.part)

theorem State.fullReset_edits (s : State) : Part.Edits true s.part s.fullReset.part := .reset _ _ _ _ rfl

theorem State.frameSent_edits (s : State) : Part.Edits true s.part s.frameSent.part := by
  unfold State.frameSent
  split
  · exact .refl _
  · split
    · exact .release _ _ rfl
    · exact .reset _ _ _ _ rfl
    all_goals exact .refl _

/-- A command that ends in its completion. -/
theorem State.done_edits {s u t : State} (h : u.done = .next t) (hu : Part.Edits frees s.part u.part) :
    Part.Edits frees s.part t.part := by
  cases h
  exact .trans hu (.moves u.complete_moves)

theorem withObject_edits {s t : State} {n i : Nat} {effect : Fin n → State} (h : withObject n i effect = .next t)
    (he : ∀ x, Part.Edits frees s.part (effect x).part) : Part.Edits frees s.part t.part := by
  unfold withObject at h
  split at h
  · exact State.done_edits h (he _)
  · cases h

theorem State.at_edits (s : State) (time : Nat) : Part.Edits frees s.part (s.at time).part := .time _ _

/-! ### Requests that read one object -/

theorem Part.getBayRequest_edits (n : Nat) (p : Part) : Part.Edits frees p (p.getBayRequest n).2 := by
  unfold Part.getBayRequest
  split <;> exact .refl p

theorem Part.getFeederRequest_edits (n : Nat) (p : Part) : Part.Edits frees p (p.getFeederRequest n).2 := by
  unfold Part.getFeederRequest
  split <;> exact .refl p

theorem Part.getPostRequest_edits (n : Nat) (p : Part) : Part.Edits frees p (p.getPostRequest n).2 := by
  unfold Part.getPostRequest
  split <;> exact .refl p

theorem Part.ruleReadRequest_edits (n : Nat) (p : Part) : Part.Edits frees p (p.ruleReadRequest n).2 := by
  unfold Part.ruleReadRequest
  split <;> exact .refl p

theorem Part.laneGetRequest_edits (n : Nat) (p : Part) : Part.Edits frees p (p.laneGetRequest n).2 := by
  unfold Part.laneGetRequest
  split <;> exact .refl p

theorem Part.resGetRequest_edits (n : Nat) (p : Part) : Part.Edits frees p (p.resGetRequest n).2 := by
  unfold Part.resGetRequest
  split <;> exact .refl p

/-! ### Events of the blocks -/

theorem Part.debounce_edits (p : Part) (f : FeederId) : Part.Edits frees p (p.debounce f) := by
  unfold Part.debounce
  dsimp only
  split
  · split
    · exact .trans (.trip p f _) (.moves (Part.levelChanged_moves _ _ _))
    · exact .refl p
  · exact .refl p

theorem Part.recovered_moves {timed : Bool} (p : Part) (f : FeederId) : Part.Moves timed p (p.recovered f) := by
  unfold Part.recovered
  split
  · split
    · exact p.restore_moves f
    · exact .refl p
  · exact .refl p

theorem Part.settleExpired_moves {timed : Bool} (p : Part) (s : SlotId) : Part.Moves timed p (p.settleExpired s) := by
  unfold Part.settleExpired
  split
  · split
    · next h =>
      refine p.closeRecord_moves s _ _ (fun r hr => ?_)
      simp only [Bool.and_eq_true, Part.recordIs, hr, decide_eq_true_eq] at h
      simp [h.1]
    · exact .refl p
  · exact .refl p

theorem Part.startRound_moves {timed : Bool} (p : Part) : Part.Moves timed p p.startRound := by
  unfold Part.startRound
  split
  · exact .trans (.link p ⟨(p.link.roundCount + 1) % 10, p.time, false, none, none⟩
      (fun _ => Nat.le_of_lt_succ (Nat.mod_lt _ (by decide)))) (.work _ _)
  · exact .refl p

theorem Part.commandSent_moves {timed : Bool} (p : Part) : Part.Moves timed p p.commandSent := by
  unfold Part.commandSent
  split
  · split
    · exact .link p _ id
    · exact .refl p
  · exact .refl p

theorem Part.replyReceived_moves {timed : Bool} (p : Part) (bytes : List Byte) :
    Part.Moves timed p (p.replyReceived bytes) := by
  unfold Part.replyReceived
  split
  · exact .refl p
  · split
    · next hr =>
      obtain ⟨ha, hb⟩ := LinkReply.ofBytes_inRange hr
      split
      · exact .trans (p.takeReply_moves _ _ ha hb) (Part.endExchange_moves _ _)
      · exact .refl p
    · exact .refl p

theorem Part.replyMissed_moves {timed : Bool} (p : Part) : Part.Moves timed p p.replyMissed := by
  unfold Part.replyMissed
  split
  · exact .refl p
  · split
    · split
      · exact .trans (p.takeMiss_moves _) (Part.endExchange_moves _ _)
      · exact .refl p
    · exact .refl p

theorem Part.quotaEvent_moves {timed : Bool} (p : Part) (s : SlotId) : Part.Moves timed p (p.quotaEvent s) := by
  unfold Part.quotaEvent
  split
  · exact .refl p
  · split
    · split
      · exact p.meterSlot_moves s
      · exact .refl p
    · exact .refl p

theorem Part.satisfiedEvent_moves {timed : Bool} (p : Part) (s : SlotId) : Part.Moves timed p (p.satisfiedEvent s) := by
  unfold Part.satisfiedEvent
  split
  · exact .refl p
  · split
    · split
      · exact p.checkSlot_moves s
      · exact .refl p
    · exact .refl p

/-! ### The commands -/

theorem execReceivedByte_edits {b : Byte} {time : Nat} {s t : State} (h : execReceivedByte b time s = .next t) :
    Part.Edits frees s.part t.part := by
  unfold execReceivedByte at h
  dsimp only at h
  split at h
  · exact State.done_edits h (s.at_edits time)
  · exact State.done_edits h (s.at_edits time)

theorem execFrameGapTimeout_edits {time : Nat} {s t : State} (h : execFrameGapTimeout time s = .next t) :
    Part.Edits frees s.part t.part := by
  unfold execFrameGapTimeout at h
  dsimp only at h
  split at h
  · exact State.done_edits h (s.at_edits time)
  · exact State.done_edits h (s.at_edits time)

/-- The commands that may free slots (R43, R49, R179). -/
def mayFree : Instr → Bool
  | .powerOn | .rstN | .fullReset | .resetPartBook | .frameSent => true
  | _ => false

/-- Every command is a chain of edits behind the port. -/
theorem exec_edits {c : Instr} {s t : State} (h : exec c s = .next t) : Part.Edits (mayFree c) s.part t.part := by
  have at_ : ∀ {frees : Bool} (time : Nat) (g : Part → Part), (∀ p, Part.Edits frees p (g p)) →
      Part.Edits frees s.part ((s.at time).onPart g).part := fun time g hg => .trans (s.at_edits time) (hg _)
  cases c with
  | powerOn => cases h; exact s.fullReset_edits
  | rstN => cases h; exact s.fullReset_edits
  | fullReset =>
    simp only [exec, execFullReset] at h
    split at h
    · split at h
      · cases h; exact s.fullReset_edits
      · cases h; exact .refl _
    · cases h; exact .refl _
  | resetPartBook =>
    refine State.done_edits h (s.serveWith_edits _ _ _ (fun x u => ?_))
    unfold State.resetBookRequest
    split
    · dsimp only
      exact u.part.bookReset_edits
    · exact .refl _
  | resetPartFull =>
    refine State.done_edits h (s.serveWith_edits _ _ _ (fun x u => ?_))
    unfold State.resetFullRequest
    split <;> exact .refl _
  | frameReceived tag kind payload =>
    simp only [exec, execFrameReceived] at h
    split at h
    · exact State.done_edits h (.refl _)
    · cases h
  | frameGapTimeout time => exact execFrameGapTimeout_edits h
  | receivedByte b time => exact execReceivedByte_edits h
  | unknownKind =>
    simp only [exec, execUnknownKind] at h
    split at h
    · exact State.done_edits h (.refl _)
    · split at h
      · exact State.done_edits h (.refl _)
      · exact State.done_edits h (.refl _)
  | frameSent => exact State.done_edits h s.frameSent_edits
  | identify => exact State.done_edits h (s.serve_edits _ _ _ (fun _ p => .refl p))
  | status => exact State.done_edits h (s.serveWith_edits _ _ _ (fun _ u => .refl u.part))
  | clockSet => exact State.done_edits h (s.serve_edits _ _ _ Part.clockSetRequest_edits)
  | clockGet => exact State.done_edits h (s.serve_edits _ _ _ (fun _ p => .refl p))
  | partSet => exact State.done_edits h (s.serve_edits _ _ _ Part.partSetRequest_edits)
  | partGet => exact State.done_edits h (s.serve_edits _ _ _ (fun _ p => .refl p))
  | baySet => exact State.done_edits h (s.serve_edits _ _ _ Part.setBayRequest_edits)
  | bayRemove => exact State.done_edits h (s.serve_edits _ _ _ Part.setBayRequest_edits)
  | bayGet => exact State.done_edits h (s.serve_edits _ _ _ Part.getBayRequest_edits)
  | bayServiceOut => exact State.done_edits h (s.serve_edits _ _ _ Part.bayServiceRequest_edits)
  | bayServiceIn => exact State.done_edits h (s.serve_edits _ _ _ Part.bayServiceRequest_edits)
  | feederSet => exact State.done_edits h (s.serve_edits _ _ _ Part.setFeederRequest_edits)
  | feederGet => exact State.done_edits h (s.serve_edits _ _ _ Part.getFeederRequest_edits)
  | feederTrim => exact State.done_edits h (s.serve_edits _ _ _ Part.trimRequest_edits)
  | feederClear => exact State.done_edits h (s.serve_edits _ _ _ Part.clearFlagsRequest_edits)
  | postSetInUse => exact State.done_edits h (s.serve_edits _ _ _ Part.setPostRequest_edits)
  | postSetWithdraw => exact State.done_edits h (s.serve_edits _ _ _ Part.setPostRequest_edits)
  | postGet => exact State.done_edits h (s.serve_edits _ _ _ Part.getPostRequest_edits)
  | postForceReseek =>
    exact State.done_edits h (s.serve_edits _ _ _ (Part.forceRequest_edits Part.forceReseek_edits))
  | postForceIsolate =>
    exact State.done_edits h (s.serve_edits _ _ _ (Part.forceRequest_edits Part.forceIsolate_edits))
  | postForceWake => exact State.done_edits h (s.serve_edits _ _ _ (Part.forceRequest_edits Part.forceWake_edits))
  | ruleWrite => exact State.done_edits h (s.serve_edits _ _ _ Part.ruleWriteRequest_edits)
  | ruleRead => exact State.done_edits h (s.serve_edits _ _ _ Part.ruleReadRequest_edits)
  | tallyClear => exact State.done_edits h (s.serve_edits _ _ _ Part.tallyClearRequest_edits)
  | laneSet => exact State.done_edits h (s.serve_edits _ _ _ Part.laneSetRequest_edits)
  | laneGet => exact State.done_edits h (s.serve_edits _ _ _ Part.laneGetRequest_edits)
  | book => exact State.done_edits h (s.serve_edits _ _ _ Part.bookRequest_edits)
  | findFree => exact State.done_edits h (s.serve_edits _ _ _ Part.findFreeRequest_edits)
  | extend => exact State.done_edits h (s.serve_edits _ _ _ Part.extendRequest_edits)
  | retract => exact State.done_edits h (s.serve_edits _ _ _ Part.retractRequest_edits)
  | cancel => exact State.done_edits h (s.serve_edits _ _ _ Part.cancelRequest_edits)
  | resGet => exact State.done_edits h (s.serve_edits _ _ _ Part.resGetRequest_edits)
  | waitListGet => exact State.done_edits h (s.serve_edits _ _ _ (fun _ p => .refl p))
  | arrive => exact State.done_edits h (s.serve_edits _ _ _ Part.arriveRequest_edits)
  | arriveWalkin => exact State.done_edits h (s.serve_edits _ _ _ Part.walkinRequest_edits)
  | endSession => exact State.done_edits h (s.serve_edits _ _ _ Part.endSessionRequest_edits)
  | sessionResume => exact State.done_edits h (s.serve_edits _ _ _ Part.resumeRequest_edits)
  | tick time => exact State.done_edits h (at_ time _ (fun p => .moves p.tick_moves))
  | minuteEvent => exact State.done_edits h (.moves s.part.minuteEvent_moves)
  | sessionTick => exact State.done_edits h (.moves s.part.sessionTick_moves)
  | quotaMet slot => exact withObject_edits h (fun x => .moves (s.part.quotaEvent_moves x))
  | satisfied slot => exact withObject_edits h (fun x => .moves (s.part.satisfiedEvent_moves x))
  | shareTick => exact State.done_edits h (.moves s.part.shareTick_moves)
  | overdrawPenalty feeder =>
    refine withObject_edits h (fun x => .moves ?_)
    show Part.Moves true s.part (if s.part.overdrawNext x ≥ Config.overdrawTicks then s.part.penalize x else s.part)
    split
    · exact s.part.penalize_moves x
    · exact .refl _
  | penaltyEnd bay =>
    refine withObject_edits h (fun x => .moves ?_)
    show Part.Moves true s.part (if (s.part.bay x).penalty = 1 then s.part.countDown x else s.part)
    split
    · exact s.part.countDown_moves x
    · exact .refl _
  | recompute feeder => exact withObject_edits h (fun x => .moves (s.part.recompute_moves x))
  | leadCheck slot => exact withObject_edits h (fun x => .moves (s.part.timedEvent_moves _))
  | wakeCheck slot => exact withObject_edits h (fun x => .moves (s.part.timedEvent_moves _))
  | windowStart slot => exact withObject_edits h (fun x => .moves (s.part.timedEvent_moves _))
  | graceEnd slot => exact withObject_edits h (fun x => .moves (s.part.timedEvent_moves _))
  | windowEnd slot => exact withObject_edits h (fun x => .moves (s.part.timedEvent_moves _))
  | waitingDeadline slot => exact withObject_edits h (fun x => .moves (s.part.timedEvent_moves _))
  | verifyExpiry bay => exact withObject_edits h (fun x => .moves (s.part.timedEvent_moves _))
  | idleTimer post => exact withObject_edits h (fun x => .moves (s.part.timedEvent_moves _))
  | rollover => exact State.done_edits h (.moves (s.part.timedEvent_moves _))
  | tripInputChange pin low time =>
    exact withObject_edits h (fun x => at_ time (fun p => p.pinChanged x low) (fun p => .trip p x _))
  | debounce pin time => exact withObject_edits h (fun x => at_ time _ (fun p => p.debounce_edits x))
  | recoveryTimer feeder time => exact withObject_edits h (fun x => at_ time _ (fun p => .moves (p.recovered_moves x)))
  | settleTimer slot time => exact withObject_edits h (fun x => at_ time _ (fun p => .moves (p.settleExpired_moves x)))
  | roundStart time => exact State.done_edits h (at_ time _ (fun p => .moves p.startRound_moves))
  | commandSent time => exact State.done_edits h (at_ time _ (fun p => .moves p.commandSent_moves))
  | reply bytes time =>
    simp only [exec, execReply] at h
    split at h
    · exact State.done_edits h (at_ time _ (fun p => .moves (p.replyReceived_moves bytes)))
    · cases h
  | replyGap bytes time =>
    simp only [exec, execReplyGap] at h
    split at h
    · exact State.done_edits h (s.at_edits time)
    · cases h
  | miss time => exact State.done_edits h (at_ time _ (fun p => .moves p.replyMissed_moves))
  | prepareLimit post time => exact withObject_edits h (fun x => at_ time _ (fun p => .moves (p.prepareLimit_moves x)))
  | wakeLimit post time => exact withObject_edits h (fun x => at_ time _ (fun p => .moves (p.wakeLimit_moves x)))

end Sys2Proof.Machine
end

