-- ==== Sys2Proof/Laws/Port.lean ====
section
/-! SUPPORT. The bounds of the Management Port (R168 to R171), what the end of a command leaves undone, and the time base:
one lemma for each operation that touches them. -/

namespace Sys2Proof.Machine

/-! ## The queues -/

/-- At most four requests and four replies wait. -/
def Port.queuesShort (x : Port) : Prop := x.requests.length ≤ 4 ∧ x.replies.length ≤ 4

/-- What the receiver keeps: fewer bytes than a whole frame, a LEN of 2 to 240, and none while HUNTING (R168). -/
def Receiver.sound (x : Receiver) : Prop :=
  (∀ len rest, x.bytes = len :: rest → 2 ≤ len.toNat ∧ len.toNat ≤ 240 ∧ rest.length < len.toNat + 2) ∧
  (x.inFrame = false → x.bytes = [])

theorem Port.queuesSound_iff (x : Port) : x.queuesSound ↔ x.queuesShort ∧ x.receiver.sound :=
  ⟨fun h => ⟨⟨h.1, h.2.1⟩, h.2.2⟩, fun h => ⟨h.1.1, h.1.2, h.2⟩⟩

/-- One port stands at another's receiver, with no longer queues. -/
structure Port.Within (x y : Port) : Prop where
  receiver : y.receiver = x.receiver
  requests : y.requests.length ≤ x.requests.length
  replies : y.replies.length ≤ x.replies.length

theorem Port.Within.refl (x : Port) : x.Within x := ⟨rfl, Nat.le_refl _, Nat.le_refl _⟩

theorem Port.Within.sound {x y : Port} (h : x.Within y) (hx : x.queuesSound) : y.queuesSound := by
  rw [Port.queuesSound_iff] at hx ⊢
  exact ⟨⟨Nat.le_trans h.requests hx.1.1, Nat.le_trans h.replies hx.1.2⟩, h.receiver ▸ hx.2⟩

/-- The transmitter only takes from the reply queue. -/
theorem State.choose_within (s : State) : s.port.Within s.choose.port := by
  have rule : s.port.Within s.chooseRule.port := by
    unfold State.chooseRule
    split
    · exact ⟨rfl, Nat.le_refl _, Nat.le_refl _⟩
    · exact .refl _
  have bay : s.port.Within s.chooseBay.port := by
    unfold State.chooseBay
    split
    · exact ⟨rfl, Nat.le_refl _, Nat.le_refl _⟩
    · exact rule
  have feeder : s.port.Within s.chooseFeeder.port := by
    unfold State.chooseFeeder
    split
    · exact ⟨rfl, Nat.le_refl _, Nat.le_refl _⟩
    · exact bay
  have post : s.port.Within s.choosePost.port := by
    unfold State.choosePost
    split
    · exact ⟨rfl, Nat.le_refl _, Nat.le_refl _⟩
    · exact feeder
  have record : s.port.Within s.chooseRecord.port := by
    unfold State.chooseRecord
    split
    · exact ⟨rfl, Nat.le_refl _, Nat.le_refl _⟩
    · exact post
  unfold State.choose State.chooseClose
  split
  · next r rest hr => exact ⟨rfl, Nat.le_refl _, by simp [hr]⟩
  · split
    · exact ⟨rfl, Nat.le_refl _, Nat.le_refl _⟩
    · exact record

theorem State.kick_within (s : State) : s.port.Within s.kick.port := by
  unfold State.kick
  split
  · exact .refl _
  · exact s.choose_within

theorem State.complete_within (s : State) : s.port.Within s.complete.port :=
  State.kick_within { s with part := s.part.finish }

/-- A reply joins a queue that has a free place. -/
theorem State.answer_short {s : State} (f : Frame) (a : Answer) (h : s.port.queuesSound)
    (room : s.port.replies.length < 4) : (s.answer f a).port.queuesSound := by
  refine ⟨h.1, ?_, h.2.2⟩
  simp only [State.answer, Port.pushReply, List.length_append, List.length_cons, List.length_nil]
  omega

/-- A frame is queued, answered BUSY or dropped (R169). -/
theorem Port.acceptFrame_sound {x : Port} (f : Frame) (h : x.queuesSound) : (x.acceptFrame f).queuesSound := by
  unfold Port.acceptFrame Config.queuePlaces
  split
  · refine ⟨?_, h.2.1, h.2.2⟩
    simp only [List.length_append, List.length_cons, List.length_nil]
    omega
  · split
    · refine ⟨h.1, ?_, h.2.2⟩
      simp only [Port.pushReply, List.length_append, List.length_cons, List.length_nil]
      omega
    · exact h

/-- Every byte leaves the receiver sound, whatever it held (R168). -/
theorem Receiver.take_sound {x : Receiver} (b : Byte) (time : Nat) (h : x.sound) : (x.take b time).1.sound := by
  have hunting : (Receiver.hunting time).sound := ⟨fun _ _ e => by simp [Receiver.hunting] at e, fun _ => rfl⟩
  unfold Receiver.take
  split
  · unfold Receiver.inFrameByte
    split
    · split
      · exact hunting
      · next hb =>
        refine ⟨fun len rest e => ?_, fun e => by simp at e⟩
        simp only [List.cons.injEq] at e
        obtain ⟨rfl, rfl⟩ := e
        simp only [List.length_nil]
        omega
    · next len t ht =>
      dsimp only
      split
      · next hl =>
        refine ⟨fun len' rest e => ?_, fun e => by simp at e⟩
        simp only [List.cons_append, List.cons.injEq] at e
        obtain ⟨rfl, rfl⟩ := e
        have := h.1 len t ht
        unfold frameSize at hl
        simp only [List.length_append, List.length_cons, List.length_nil] at hl ⊢
        omega
      · exact hunting
  · split
    · exact ⟨fun _ _ e => by simp at e, fun e => by simp at e⟩
    · exact hunting

theorem State.fullReset_port (s : State) : s.fullReset.port = .reset := rfl

theorem Port.reset_sound : Port.reset.queuesSound :=
  ⟨Nat.zero_le _, Nat.zero_le _, fun _ _ e => by simp [Port.reset] at e, fun _ => rfl⟩

/-- Serving keeps the queues within their bounds where the row's own action leaves the port's queues alone. -/
theorem State.serveWith_sound {α : Type} {s : State} (k : Kind) (mine : List Byte → Bool) (rd : Rd α)
    {act : α → State → Answer × State} (h : ∀ (x : α) (u : State), u.port.Within (act x u).2.port) (hs : s.port.queuesSound) :
    (s.serveWith k mine rd act).port.queuesSound := by
  unfold State.serveWith
  split
  · exact hs
  · next f rest hf =>
    unfold Port.head at hf
    split at hf
    · cases hf
    · next g l hq =>
      split at hf
      · next c =>
        cases hf
        simp only [Bool.and_eq_true, decide_eq_true_eq] at c
        have room : s.port.replies.length < 4 := c.1.2
        have taken : ({ s.port with requests := rest } : Port).queuesSound := by
          refine ⟨?_, hs.2⟩
          have := hs.1
          rw [hq] at this
          exact Nat.le_of_succ_le this
        dsimp only
        split
        · exact State.answer_short (s := { s with port := { s.port with requests := rest } }) _ _ taken room
        · split
          · exact State.answer_short (s := { s with port := { s.port with requests := rest } }) _ _ taken room
          · next x _ =>
            have w := h x { s with port := { s.port with requests := rest } }
            exact State.answer_short _ _ (w.sound taken) (Nat.lt_of_le_of_lt w.replies room)
      · cases hf

theorem State.serve_sound {α : Type} {s : State} (k : Kind) (mine : List Byte → Bool) (rd : Rd α)
    (act : α → Part → Answer × Part) (hs : s.port.queuesSound) : (s.serve k mine rd act).port.queuesSound :=
  State.serveWith_sound k mine rd (fun _ u => Port.Within.refl u.port) hs

/-! ## Nothing is left undone -/

/-- Clearing a notice flag of a record stores it where it stood: nothing is noted for the posts. -/
theorem Part.clearNotice_work (p : Part) (s : SlotId) :
    (p.modRecord s (fun r => { r with notice := false })).work = p.work := by
  unfold Part.modRecord
  cases hr : p.record s with
  | none => rfl
  | some r =>
    dsimp only
    unfold Part.put
    rw [hr]
    have same : ∀ r : Record, r.home = Record.home { r with notice := false } := fun r => rfl
    simp only [← same r, and_self, if_true]

theorem State.choose_work (s : State) : s.choose.part.work = s.part.work := by
  have rule : s.chooseRule.part.work = s.part.work := by
    unfold State.chooseRule
    split <;> rfl
  have bay : s.chooseBay.part.work = s.part.work := by
    unfold State.chooseBay
    split
    · rfl
    · exact rule
  have feeder : s.chooseFeeder.part.work = s.part.work := by
    unfold State.chooseFeeder
    split
    · rfl
    · exact bay
  have post : s.choosePost.part.work = s.part.work := by
    unfold State.choosePost
    split
    · rfl
    · exact feeder
  have record : s.chooseRecord.part.work = s.part.work := by
    unfold State.chooseRecord
    split
    · exact s.part.clearNotice_work _
    · exact post
  unfold State.choose State.chooseClose
  split
  · rfl
  · split
    · rfl
    · exact record

/-- Nothing is left undone at the end of a command (R90). -/
theorem State.complete_settled (s : State) : s.complete.settled := by
  show s.complete.part.work = .empty
  unfold State.complete State.kick
  split
  · rfl
  · exact State.choose_work _

/-! ## The commands that wait -/

theorem State.choose_pending (s : State) : s.choose.pending = s.pending := by
  unfold State.choose State.chooseClose State.chooseRecord State.choosePost State.chooseFeeder State.chooseBay
    State.chooseRule
  repeat' split
  all_goals rfl

theorem State.complete_pending (s : State) : s.complete.pending = s.pending := by
  unfold State.complete State.kick
  split
  · rfl
  · exact State.choose_pending _

end Sys2Proof.Machine
end

