-- ==== Sys2Proof/Laws/Finish.lean ====
section
/-! SUPPORT. What the completion of an event leaves alone, whatever it relocates, demotes, closes or places (R90, R111,
R112, R161): the records that are ENGAGED or CLOSING, and every field of the tables but those that a condition, a wake or
an idle timer writes. -/

namespace Sys2Proof.Machine

/-- A bay apart from its condition and its notice flag. -/
def Bay.core (x : Bay) : Bay := { x with condition := .out, notice := false }

/-- A feeder apart from the mark of a recompute that has become due. -/
def Feeder.core (x : Feeder) : Feeder := { x with recomputeDue := false }

/-- A post apart from its link state, its timer and its notice flag. -/
def Post.core (x : Post) : Post := { x with link := .absent, timer := .stopped, notice := false }

/-- A post's link state stays, or goes from STANDBY to WAKING. -/
def LinkState.WakesTo (x y : LinkState) : Prop := y = x ∨ (x = .standby ∧ y = .waking)

theorem LinkState.WakesTo.trans {x y z : LinkState} (h : x.WakesTo y) (k : y.WakesTo z) : x.WakesTo z := by
  rcases h with rfl | ⟨rfl, rfl⟩
  · exact k
  · rcases k with rfl | ⟨h, _⟩
    · exact .inr ⟨rfl, rfl⟩
    · exact absurd h (by decide)

/-- What the completion of an event leaves alone. With `linked`, the exchange stands as well. -/
structure Part.Tidies (linked : Bool) (p q : Part) : Prop where
  time : q.time = p.time
  clock : q.clock = p.clock
  settings : q.settings = p.settings
  trips : q.trips = p.trips
  lanes : q.lanes = p.lanes
  rules : q.rules = p.rules
  outstanding : q.outstanding = p.outstanding
  choices : q.choices = p.choices
  bay (b : BayId) : (q.bay b).core = (p.bay b).core
  feeder (f : FeederId) : (q.feeder f).core = (p.feeder f).core
  post (a : PostId) : (q.post a).core = (p.post a).core
  postLink (a : PostId) : (p.post a).link.WakesTo (q.post a).link
  generation (s : SlotId) : (q.pool.slot s).generation = (p.pool.slot s).generation
  free (s : SlotId) : p.record s = none → q.record s = none
  engaged (s : SlotId) (r : Record) : p.record s = some r → r.state = .engaged → q.record s = some r
  closing (s : SlotId) (r : Record) : p.record s = some r → r.state = .closing → q.record s = some r
  link : linked = true → q.link = p.link ∧ q.work.nextExchange = p.work.nextExchange

namespace Part.Tidies

variable {linked : Bool}

theorem refl (p : Part) : Part.Tidies linked p p where
  time := rfl
  clock := rfl
  settings := rfl
  trips := rfl
  lanes := rfl
  rules := rfl
  outstanding := rfl
  choices := rfl
  bay _ := rfl
  feeder _ := rfl
  post _ := rfl
  postLink _ := .inl rfl
  generation _ := rfl
  free _ h := h
  engaged _ _ h _ := h
  closing _ _ h _ := h
  link _ := ⟨rfl, rfl⟩

theorem trans {p q r : Part} (h : Part.Tidies linked p q) (k : Part.Tidies linked q r) : Part.Tidies linked p r where
  time := k.time.trans h.time
  clock := k.clock.trans h.clock
  settings := k.settings.trans h.settings
  trips := k.trips.trans h.trips
  lanes := k.lanes.trans h.lanes
  rules := k.rules.trans h.rules
  outstanding := k.outstanding.trans h.outstanding
  choices := k.choices.trans h.choices
  bay b := (k.bay b).trans (h.bay b)
  feeder f := (k.feeder f).trans (h.feeder f)
  post a := (k.post a).trans (h.post a)
  postLink a := (h.postLink a).trans (k.postLink a)
  generation s := (k.generation s).trans (h.generation s)
  free s e := k.free s (h.free s e)
  engaged s r e hs := k.engaged s r (h.engaged s r e hs) hs
  closing s r e hs := k.closing s r (h.closing s r e hs) hs
  link e := ⟨(k.link e).1.trans (h.link e).1, (k.link e).2.trans (h.link e).2⟩

theorem foldl {α : Type} {f : Part → α → Part} (l : List α) (h : ∀ p, ∀ a ∈ l, Part.Tidies linked p (f p a)) (p : Part) :
    Part.Tidies linked p (l.foldl f p) := by
  induction l generalizing p with
  | nil => exact .refl p
  | cons a l ih => exact .trans (h p a (by simp)) (ih (fun p b hb => h p b (by simp [hb])) _)

variable {p q : Part}

theorem now_eq (h : Part.Tidies linked p q) : q.now = p.now := by
  unfold Part.now
  rw [h.clock]

/-- The fields of a bay that the completion leaves alone. -/
theorem bay_eq (h : Part.Tidies linked p q) (b : BayId) :
    q.bay b = { p.bay b with condition := (q.bay b).condition, notice := (q.bay b).notice } := by
  have := h.bay b
  unfold Bay.core at this
  cases hx : q.bay b
  cases hy : p.bay b
  simp_all

theorem bay_config (h : Part.Tidies linked p q) (b : BayId) : (q.bay b).config = (p.bay b).config := by
  rw [h.bay_eq b]
  rfl

theorem feeder_eq (h : Part.Tidies linked p q) (f : FeederId) :
    q.feeder f = { p.feeder f with recomputeDue := (q.feeder f).recomputeDue } := by
  have := h.feeder f
  unfold Feeder.core at this
  cases hx : q.feeder f
  cases hy : p.feeder f
  simp_all

theorem post_eq (h : Part.Tidies linked p q) (a : PostId) :
    q.post a = { p.post a with link := (q.post a).link, timer := (q.post a).timer, notice := (q.post a).notice } := by
  have := h.post a
  unfold Post.core at this
  cases hx : q.post a
  cases hy : p.post a
  simp_all

/-- A post stays serviceable, or not serviceable. -/
theorem serviceable (h : Part.Tidies linked p q) (a : PostId) : (q.post a).serviceable = (p.post a).serviceable := by
  have e := congrArg Post.inUse (h.post_eq a)
  unfold Post.serviceable
  rw [e]
  rcases h.postLink a with w | ⟨w1, w2⟩
  · rw [w]
  · rw [w1, w2]
    rfl

end Part.Tidies

/-! ## The operations -/

variable {linked : Bool}

/-- A change of the event's own list of work. -/
theorem Part.work_tidies (p : Part) (w : Work) (h : w.nextExchange = p.work.nextExchange) :
    Part.Tidies linked p { p with work := w } :=
  { Part.Tidies.refl (linked := linked) p with link := fun _ => ⟨rfl, h⟩ }

theorem Part.touchPost_tidies (p : Part) (q : PostId) : Part.Tidies linked p (p.touchPost q) := by
  unfold Part.touchPost
  split
  · exact .refl p
  · exact p.work_tidies _ rfl

theorem Part.touchBayOf_tidies (p : Part) (b : Option BayId) : Part.Tidies linked p (p.touchBayOf b) := by
  unfold Part.touchBayOf
  split
  · exact p.touchPost_tidies _
  · exact .refl p

theorem Part.retryDue_tidies (p : Part) : Part.Tidies linked p p.retryDue := p.work_tidies _ rfl

/-- A change of the condition and the notice flag of a bay. -/
theorem Part.modBay_tidies (p : Part) (b : BayId) (g : Bay → Bay) (h : (g (p.bay b)).core = (p.bay b).core) :
    Part.Tidies linked p (p.modBay b g) where
  time := rfl
  clock := rfl
  settings := rfl
  trips := rfl
  lanes := rfl
  rules := rfl
  outstanding := rfl
  choices := rfl
  bay b' := by
    rw [show Part.bay (p.modBay b g) b' = _ from Part.bay_setBay p b _ b']
    split
    · next e => rw [e, h]
    · rfl
  feeder _ := rfl
  post _ := rfl
  postLink _ := .inl rfl
  generation _ := rfl
  free _ h := h
  engaged _ _ h _ := h
  closing _ _ h _ := h
  link _ := ⟨rfl, rfl⟩

theorem Part.shareChanged_tidies (p : Part) (f : FeederId) : Part.Tidies linked p (p.shareChanged f) where
  time := rfl
  clock := rfl
  settings := rfl
  trips := rfl
  lanes := rfl
  rules := rfl
  outstanding := rfl
  choices := rfl
  bay _ := rfl
  feeder f' := by
    rw [show Part.feeder (p.shareChanged f) f' = _ from Part.feeder_setFeeder p f _ f']
    split
    · next e => rw [e]; rfl
    · rfl
  post _ := rfl
  postLink _ := .inl rfl
  generation _ := rfl
  free _ h := h
  engaged _ _ h _ := h
  closing _ _ h _ := h
  link _ := ⟨rfl, rfl⟩

/-- A change of the link state, the timer and the notice flag of a post. -/
theorem Part.modPost_tidies (p : Part) (a : PostId) (g : Post → Post) (h : (g (p.post a)).core = (p.post a).core)
    (hl : (p.post a).link.WakesTo (g (p.post a)).link) : Part.Tidies linked p (p.modPost a g) where
  time := rfl
  clock := rfl
  settings := rfl
  trips := rfl
  lanes := rfl
  rules := rfl
  outstanding := rfl
  choices := rfl
  bay _ := rfl
  feeder _ := rfl
  post a' := by
    rw [show Part.post (p.modPost a g) a' = _ from Part.post_setPost p a _ a']
    split
    · next e => rw [e, h]
    · rfl
  postLink a' := by
    rw [show Part.post (p.modPost a g) a' = _ from Part.post_setPost p a _ a']
    split
    · next e => exact e ▸ hl
    · exact .inl rfl
  generation _ := rfl
  free _ h := h
  engaged _ _ h _ := h
  closing _ _ h _ := h
  link _ := ⟨rfl, rfl⟩

/-- A record that is neither ENGAGED nor CLOSING is stored anew. -/
theorem Part.put_tidies (p : Part) (s : SlotId) {old : Record} (r : Record) (h : p.record s = some old)
    (he : old.state ≠ .engaged) (hc : old.state ≠ .closing) : Part.Tidies linked p (p.put s r) where
  time := by simp
  clock := by simp
  settings := by simp
  trips := by simp
  lanes := by simp
  rules := by simp
  outstanding := by simp
  choices := by simp
  bay b := by simp [Part.bay]
  feeder f := by simp [Part.feeder]
  post a := by simp [Part.post]
  postLink a := by simp [Part.post, LinkState.WakesTo]
  generation k := by
    have : (p.put s r).pool = p.pool.put s r := by simp
    rw [this, Pool.generation_put]
  free k e := by
    rw [Part.record_put]
    split
    · next x =>
      subst x
      exact absurd (h.symm.trans e) (by simp)
    · exact e
  engaged k r' e hs := by
    rw [Part.record_put]
    split
    · next x =>
      subst x
      exact absurd (Option.some.inj (h.symm.trans e) ▸ hs) he
    · exact e
  closing k r' e hs := by
    rw [Part.record_put]
    split
    · next x =>
      subst x
      exact absurd (Option.some.inj (h.symm.trans e) ▸ hs) hc
    · exact e
  link _ := by
    refine ⟨by simp, ?_⟩
    have touched : ∀ (u : Part) (b : Option BayId), (u.touchBayOf b).work.nextExchange = u.work.nextExchange :=
      fun u b => ((u.touchBayOf_tidies (linked := true) b).link rfl).2
    unfold Part.put
    dsimp only
    split
    · split
      · rfl
      · rw [touched, touched]
    · rw [touched]

theorem Part.deriveWith_tidies (raise : Bool) (p : Part) (b : BayId) : Part.Tidies linked p (p.deriveWith raise b) := by
  unfold Part.deriveWith
  dsimp only
  split
  · exact .refl p
  · have stored : Part.Tidies linked p
        ((p.modBay b (fun x => { x with condition := p.conditionOf b, notice := true })).touchPost (p.bay b).post) :=
      .trans (p.modBay_tidies b _ rfl) (Part.touchPost_tidies _ _)
    generalize (p.modBay b _).touchPost _ = u at stored ⊢
    have raised : ∀ k : Bool, Part.Tidies linked p (if k then u.reportBlocked b false else u) := by
      intro k
      cases k
      · exact stored
      · exact .trans stored (Part.work_tidies _ _ rfl)
    split
    · exact raised _
    · exact .trans (raised _) (Part.shareChanged_tidies _ _)

theorem Part.derive_tidies (p : Part) (b : BayId) : Part.Tidies linked p (p.derive b) := p.deriveWith_tidies true b

theorem Part.wakeBay_tidies (p : Part) (b : BayId) : Part.Tidies linked p (p.wakeBay b) := by
  unfold Part.wakeBay Part.wakePost
  split
  · next h => exact p.modPost_tidies _ _ rfl (.inr ⟨h, rfl⟩)
  · exact .refl p

theorem Part.armChecks_tidies (p : Part) (s : SlotId) {old : Record} (h : p.record s = some old)
    (he : old.state ≠ .engaged) (hc : old.state ≠ .closing) : Part.Tidies linked p (p.armChecks s) := by
  unfold Part.armChecks
  rw [h]
  dsimp only
  have armed : ∀ l w : Bool, Part.Tidies linked p (p.put s { old with leadTaken := l, wakeTaken := w }) := fun l w =>
    p.put_tidies s _ h he hc
  have queued : ∀ l w k : Bool, Part.Tidies linked p (if k then
      (p.put s { old with leadTaken := l, wakeTaken := w }).leadDue s
      else p.put s { old with leadTaken := l, wakeTaken := w }) := by
    intro l w k
    cases k
    · exact armed l w
    · exact .trans (armed l w) (Part.work_tidies _ _ rfl)
  split
  · split
    · exact .trans (queued _ _ _) (Part.wakeBay_tidies _ _)
    · exact queued _ _ _
  · exact queued _ _ _

/-- The close of a record that is neither ENGAGED nor CLOSING (R41). -/
theorem Part.closeRecord_tidies (p : Part) (s : SlotId) (result : Result) (by' : ClosedBy) {old : Record}
    (h : p.record s = some old) (he : old.state ≠ .engaged) (hc : old.state ≠ .closing) :
    Part.Tidies linked p (p.closeRecord s result by') := by
  unfold Part.closeRecord
  rw [h]
  dsimp only
  have stored : Part.Tidies linked p (p.put s (old.closed (p.pool.handle s) p.now result by')) :=
    p.put_tidies s _ h he hc
  simp only [he, if_false, decide_false, Bool.false_and]
  split
  · exact stored
  · split
    · exact stored
    · exact .trans (.trans stored (Part.retryDue_tidies _)) (Part.derive_tidies _ _)

theorem RecState.upcoming_live {x : RecState} (h : x.upcoming = true) : x ≠ .engaged ∧ x ≠ .closing := by
  cases x <;> simp_all [RecState.upcoming]

theorem Part.demote_tidies (p : Part) (s : SlotId) {old : Record} (h : p.record s = some old)
    (hs : old.state.upcoming = true) : Part.Tidies linked p (p.demote s) := by
  obtain ⟨he, hc⟩ := RecState.upcoming_live hs
  unfold Part.demote
  rw [h]
  dsimp only
  split
  · have stored : Part.Tidies linked p (p.put s (old.demoted p.now)).retryDue :=
      .trans (p.put_tidies s _ h he hc) (Part.retryDue_tidies _)
    split
    · exact .trans stored (Part.derive_tidies _ _)
    · exact stored
  · exact p.closeRecord_tidies s _ _ h he hc

theorem Part.relocate_tidies (p : Part) (s : SlotId) : Part.Tidies linked p (p.relocate s) := by
  unfold Part.relocate
  cases hr : p.record s with
  | none => exact .refl p
  | some r =>
    dsimp only
    split
    · exact .refl p
    · split
      · exact .refl p
      · next h =>
        have up : r.state.upcoming = true := by simpa using h
        obtain ⟨he, hc⟩ := RecState.upcoming_live up
        split
        · exact p.closeRecord_tidies s _ _ hr he hc
        · split
          · next c _ =>
            have live : (r.relocated c p.now).state ≠ .engaged ∧ (r.relocated c p.now).state ≠ .closing := by
              unfold Record.relocated
              dsimp only
              split <;> simp [he, hc]
            refine .trans ?_ (Part.retryDue_tidies _)
            refine .trans ?_ (Part.armChecks_tidies _ s (old := r.relocated c p.now) ?_ live.1 live.2)
            · exact .trans (.trans (p.put_tidies s _ hr he hc) (Part.derive_tidies _ _)) (Part.derive_tidies _ _)
            · rw [Part.derive_record, Part.derive_record, Part.record_put, if_pos rfl]
          · exact p.demote_tidies s hr up

theorem Part.leadCheck_tidies (p : Part) (s : SlotId) : Part.Tidies linked p (p.leadCheck s) := by
  unfold Part.leadCheck
  split
  · exact .refl p
  · split
    · exact .refl p
    · split
      · exact p.relocate_tidies s
      · exact .refl p

theorem Part.walkBlocked_tidies (p : Part) (x : Blocked) : Part.Tidies linked p (p.walkBlocked x) := by
  unfold Part.walkBlocked
  refine Part.Tidies.foldl _ (fun p s _ => ?_) p
  split
  · exact .refl p
  · split
    · exact p.relocate_tidies s
    · exact .refl p

theorem Part.tryWaiting_tidies (p : Part) (s : SlotId) : Part.Tidies linked p (p.tryWaiting s) := by
  unfold Part.tryWaiting
  cases hr : p.record s with
  | none => exact .refl p
  | some r =>
    dsimp only
    split
    · exact .refl p
    · next h =>
      have hw : r.state = .waiting := by simpa using h
      split
      · next b _ =>
        have live : (r.placed b (max r.windowStart p.now) p.now).state ≠ .engaged ∧
            (r.placed b (max r.windowStart p.now) p.now).state ≠ .closing := by
          unfold Record.placed
          dsimp only
          split <;> simp
        refine .trans ?_ (Part.armChecks_tidies _ s (old := r.placed b (max r.windowStart p.now) p.now) ?_ live.1 live.2)
        · exact .trans (p.put_tidies s _ hr (by simp [hw]) (by simp [hw])) (Part.derive_tidies _ _)
        · rw [Part.derive_record, Part.record_put, if_pos rfl]
      · exact .refl p

theorem Part.evalIdle_tidies (p : Part) (q : PostId) : Part.Tidies linked p (p.evalIdle q) := by
  unfold Part.evalIdle
  split
  · split
    · split
      · exact .refl p
      · exact p.modPost_tidies q _ rfl (.inl rfl)
    all_goals
      split
      · exact p.modPost_tidies q _ rfl (.inl rfl)
      · exact .refl p
  · exact .refl p

theorem Part.touchActive_tidies (p : Part) : Part.Tidies linked p p.touchActive := by
  refine Part.Tidies.foldl _ (fun p q _ => ?_) p
  split
  · exact p.touchPost_tidies q
  · exact .refl p

theorem Part.takeBlocked_tidies (p : Part) : Part.Tidies linked p p.takeBlocked :=
  .trans (p.work_tidies { p.work with blocked := [] } rfl) (Part.Tidies.foldl _ (fun p x _ => p.walkBlocked_tidies x) _)

theorem Part.takeLeads_tidies (p : Part) : Part.Tidies linked p p.takeLeads :=
  .trans (p.work_tidies { p.work with leads := [] } rfl) (Part.Tidies.foldl _ (fun p s _ => p.leadCheck_tidies s) _)

theorem Part.takeRetry_tidies (p : Part) : Part.Tidies linked p p.takeRetry := by
  unfold Part.takeRetry
  split
  · exact .trans (.trans (Part.Tidies.foldl _ (fun p s _ => p.tryWaiting_tidies s) p) (Part.takeLeads_tidies _))
      (Part.work_tidies _ _ rfl)
  · exact .refl p

theorem Part.takeIdle_tidies (p : Part) : Part.Tidies linked p p.takeIdle :=
  .trans (p.work_tidies { p.work with idle := [] } rfl) (Part.Tidies.foldl _ (fun p q _ => p.evalIdle_tidies q) _)

theorem Part.openNext_tidies (p : Part) : Part.Tidies false p p.openNext := by
  unfold Part.openNext
  split
  · exact { Part.Tidies.refl (linked := false) p with link := fun h => absurd h (by decide) }
  · exact .refl p

/-- The completion of an event, with an exchange that it may open. -/
theorem Part.finish_tidies (p : Part) : Part.Tidies false p p.finish := by
  have before : Part.Tidies false p p.takeBlocked.takeLeads.takeRetry.takeIdle :=
    .trans (.trans (.trans p.takeBlocked_tidies (Part.takeLeads_tidies _)) (Part.takeRetry_tidies _)) (Part.takeIdle_tidies _)
  unfold Part.finish
  dsimp only
  have exchange : Part.Tidies false p p.takeBlocked.takeLeads.takeRetry.takeIdle.takeExchange := by
    refine .trans before ?_
    generalize p.takeBlocked.takeLeads.takeRetry.takeIdle = u
    unfold Part.takeExchange
    split
    · have cleared : Part.Tidies false u { u with work := { u.work with nextExchange := false } } :=
        { Part.Tidies.refl (linked := false) u with link := fun h => absurd h (by decide) }
      exact .trans cleared (Part.openNext_tidies _)
    · exact .refl u
  exact { exchange with link := fun h => absurd h (by decide) }

/-- The completion of an event that ended no exchange and began no round leaves the link as it is (R151). -/
theorem Part.finish_link (p : Part) (h : p.work.nextExchange = false) : p.finish.link = p.link := by
  have before : Part.Tidies true p p.takeBlocked.takeLeads.takeRetry.takeIdle :=
    .trans (.trans (.trans p.takeBlocked_tidies (Part.takeLeads_tidies _)) (Part.takeRetry_tidies _)) (Part.takeIdle_tidies _)
  obtain ⟨hl, hn⟩ := before.link rfl
  show p.takeBlocked.takeLeads.takeRetry.takeIdle.takeExchange.link = p.link
  unfold Part.takeExchange
  rw [if_neg (by simp [hn, h])]
  exact hl

/-! ## Completions with little to do -/

/-- A completion with nothing but idle conditions to evaluate leaves the pool and the bays as they are. -/
theorem Part.evalIdle_pool (p : Part) (q : PostId) : (p.evalIdle q).pool = p.pool ∧ (p.evalIdle q).bays = p.bays ∧
    (p.evalIdle q).feeders = p.feeders ∧ (p.evalIdle q).work = p.work := by
  unfold Part.evalIdle
  repeat' split
  all_goals exact ⟨rfl, rfl, rfl, rfl⟩

theorem Part.finish_idle (p : Part) (hb : p.work.blocked = []) (hl : p.work.leads = []) (hr : p.work.retry = false)
    (hn : p.work.nextExchange = false) :
    p.finish = { p.work.idle.foldl Part.evalIdle { p with work := .empty } with work := .empty } := by
  obtain ⟨time, clock, settings, bays, feeders, trips, posts, pool, lanes, rules, link, outstanding,
    ⟨blocked, leads, idle, retry, next⟩, choices⟩ := p
  dsimp only at hb hl hr hn
  subst hb hl hr hn
  have next : ∀ (l : List PostId) (u : Part), u.work.nextExchange = false → (l.foldl Part.evalIdle u).work.nextExchange = false := by
    intro l
    induction l with
    | nil => exact fun u h => h
    | cons a l ih => exact fun u h => ih _ ((u.evalIdle_pool a).2.2.2 ▸ h)
  unfold Part.finish
  simp only [Part.takeBlocked, Part.takeLeads, Part.takeRetry, List.foldl_nil, Part.takeIdle, Bool.false_eq_true, if_false]
  unfold Part.takeExchange
  rw [if_neg (by rw [next _ _ rfl]; simp)]
  rfl

theorem Part.finish_idle_pool (p : Part) (hb : p.work.blocked = []) (hl : p.work.leads = []) (hr : p.work.retry = false)
    (hn : p.work.nextExchange = false) :
    p.finish.pool = p.pool ∧ p.finish.bays = p.bays ∧ p.finish.feeders = p.feeders := by
  have walk : ∀ (l : List PostId) (u : Part), (l.foldl Part.evalIdle u).pool = u.pool ∧
      (l.foldl Part.evalIdle u).bays = u.bays ∧ (l.foldl Part.evalIdle u).feeders = u.feeders := by
    intro l
    induction l with
    | nil => exact fun u => ⟨rfl, rfl, rfl⟩
    | cons a l ih =>
      intro u
      obtain ⟨h1, h2, h3⟩ := ih (u.evalIdle a)
      obtain ⟨e1, e2, e3, _⟩ := u.evalIdle_pool a
      exact ⟨h1.trans e1, h2.trans e2, h3.trans e3⟩
  rw [p.finish_idle hb hl hr hn]
  exact walk _ _

end Sys2Proof.Machine
end

