-- ==== Sys2Proof/Laws/Order.lean ====
section
/-! SUPPORT. What the moves of the Reservation Pool keep of its orders: the order of the Waiting List (R85), the order and
the guard along every chain (R35), and the ENGAGED record at the head of its chain. -/

namespace Sys2Proof.Machine

/-! ## Membership in a partitioned pool -/

theorem Pool.mem_members {q : Pool} (hq : q.partitioned) {s : SlotId} {h : Home} : s ∈ q.members h ↔ q.homeOf s = h := by
  have := hq s h
  rw [← List.count_pos_iff, this]
  split <;> simp_all

theorem Pool.nodup_members {q : Pool} (hq : q.partitioned) (h : Home) : (q.members h).Nodup := by
  rw [List.nodup_iff_count]
  intro s
  rw [hq s h]
  split <;> omega

theorem Pool.mem_chain {q : Pool} (hq : q.partitioned) {s : SlotId} {b : BayId} :
    s ∈ q.chains.get b ↔ q.homeOf s = .chain b := q.mem_members hq (h := .chain b)

/-- A member of a chain holds a chained record (R27). -/
theorem Pool.record_of_chain {q : Pool} (hq : q.partitioned) {s : SlotId} {b : BayId} (h : s ∈ q.chains.get b) :
    ∃ r, q.record s = some r ∧ r.home = .chain b := by
  have home := (q.mem_chain hq).1 h
  unfold Pool.homeOf at home
  cases hr : q.record s with
  | none => rw [hr] at home; cases home
  | some r => rw [hr] at home; exact ⟨r, rfl, home⟩

theorem Record.home_chain {r : Record} {b : BayId} (h : r.home = .chain b) : r.state.chained = true := by
  unfold Record.home at h
  cases hs : r.state <;> simp_all [RecState.chained]

theorem Record.home_of_chained {r : Record} (h : r.state.chained = true) : r.home = .chain (r.bay.getD 0) := by
  unfold Record.home
  cases hs : r.state <;> simp_all [RecState.chained]

theorem Record.home_of_bay {r : Record} {b : BayId} (h : r.state.chained = true) (hb : r.bay = some b) :
    r.home = .chain b := by
  rw [Record.home_of_chained h, hb]
  rfl

theorem Record.home_waiting {r : Record} : r.home = .waiting ↔ r.state = .waiting := by
  unfold Record.home
  cases hs : r.state <;> simp

theorem Pool.homeOf_record {q : Pool} {s : SlotId} {r : Record} (h : q.record s = some r) : q.homeOf s = r.home := by
  unfold Pool.homeOf
  rw [h]

/-- A waiting slot holds a WAITING record (R27). -/
theorem Pool.record_of_waiting {q : Pool} (hq : q.partitioned) {s : SlotId} (h : s ∈ q.waiting) :
    ∃ r, q.record s = some r ∧ r.state = .waiting := by
  have home := (q.mem_members hq (h := .waiting)).1 h
  unfold Pool.homeOf at home
  cases hr : q.record s with
  | none => rw [hr] at home; cases home
  | some r => rw [hr] at home; exact ⟨r, rfl, Record.home_waiting.1 home⟩

/-! ## The collections after a put -/

/-- A record that changes its collection leaves the old one, and then joins the new one (R27). -/
theorem Pool.put_leaves (q : Pool) (s : SlotId) (r : Record) (e : q.homeOf s ≠ r.home) :
    ∃ u : Pool, q.put s r = u.join r.home s r ∧ (∀ y, y ≠ s → u.record y = q.record y) ∧
      ∀ h, u.members h = (q.members h).filter (fun y => q.homeOf s ≠ h ∨ y ≠ s) := by
  refine ⟨(q.setSlot s { q.slot s with record := some r }).leave (q.homeOf s) s, ?_, fun y hy => ?_, fun h => ?_⟩
  · simp only [Pool.put, e, if_false]
  · unfold Pool.leave
    rw [Pool.record_setMembers, Pool.record_setSlot, if_neg hy]
  · unfold Pool.leave
    rw [Pool.members_setMembers]
    by_cases k : h = q.homeOf s
    · subst k
      simp
    · have k' : ¬ q.homeOf s = h := fun x => k x.symm
      simp [k, k']

theorem insertBefore_congr {α : Type} {f g : α → Bool} (x : α) (l : List α) (h : ∀ y ∈ l, f y = g y) :
    insertBefore f x l = insertBefore g x l := by
  induction l with
  | nil => rfl
  | cons y l ih =>
    unfold insertBefore
    rw [h y (by simp), ih (fun z hz => h z (by simp [hz]))]

/-- A collection that a slot does not belong to loses nothing at its departure. -/
theorem Pool.filter_away {q : Pool} {s : SlotId} {h : Home} (e : q.homeOf s ≠ h) :
    (q.members h).filter (fun y => q.homeOf s ≠ h ∨ y ≠ s) = q.members h := by simp [e]

/-- The chain that a record joins (R35). -/
theorem Pool.chain_join {q : Pool} (hq : q.partitioned) {s : SlotId} {r : Record} {b : BayId} (e : r.home = .chain b)
    (ne : q.homeOf s ≠ r.home) :
    (q.put s r).chains.get b = insertBefore (fun y => match q.record y with
      | some r' => r.windowStart < r'.windowStart
      | none => false) s (q.chains.get b) := by
  obtain ⟨u, put, record, members⟩ := q.put_leaves s r ne
  have away := (members (.chain b)).trans (Pool.filter_away (e ▸ ne))
  show (q.put s r).members (.chain b) = _
  rw [put, e]
  unfold Pool.join
  rw [Pool.members_setMembers, if_pos rfl]
  dsimp only
  rw [show u.chains.get b = q.chains.get b from away]
  refine insertBefore_congr s _ (fun y hy => ?_)
  have same := record y (fun x => ne (((q.mem_chain hq).1 (x ▸ hy)).trans e.symm))
  generalize u.record y = a at same ⊢
  subst same
  cases q.record y <;> rfl

/-- The Waiting List that a record joins (R85). -/
theorem Pool.waiting_join {q : Pool} (hq : q.partitioned) {s : SlotId} {r : Record} (e : r.home = .waiting)
    (ne : q.homeOf s ≠ r.home) :
    (q.put s r).waiting = insertBefore (fun y => match q.record y with
      | some r' => ranksBefore r s r' y
      | none => false) s q.waiting := by
  obtain ⟨u, put, record, members⟩ := q.put_leaves s r ne
  have away := (members .waiting).trans (Pool.filter_away (e ▸ ne))
  show (q.put s r).members .waiting = _
  rw [put, e]
  unfold Pool.join
  rw [Pool.members_setMembers, if_pos rfl]
  dsimp only
  rw [show u.waiting = q.waiting from away]
  refine insertBefore_congr s _ (fun y hy => ?_)
  have same := record y (fun x => ne (((q.mem_members hq (h := .waiting)).1 (x ▸ hy)).trans e.symm))
  generalize u.record y = a at same ⊢
  subst same
  cases q.record y <;> rfl

/-- A collection that a record does not join keeps the members that are not that record's slot. -/
theorem Pool.members_put_away (q : Pool) (s : SlotId) (r : Record) (h : Home) (e : h ≠ r.home) (ne : q.homeOf s ≠ r.home) :
    (q.put s r).members h = (q.members h).filter (fun y => q.homeOf s ≠ h ∨ y ≠ s) := by
  obtain ⟨u, put, _, members⟩ := q.put_leaves s r ne
  rw [put]
  unfold Pool.join
  rw [Pool.members_setMembers, if_neg e]
  exact members h

/-- A collection that a record does not join only loses members. -/
theorem Pool.members_put_sublist {q : Pool} (s : SlotId) (r : Record) (h : Home) (e : h ≠ r.home) :
    ((q.put s r).members h).Sublist (q.members h) := by
  by_cases k : q.homeOf s = r.home
  · rw [Pool.members_put_home q s r h k]
  · rw [q.members_put_away s r h e k]
    exact List.filter_sublist

/-- A collection that a record neither leaves nor joins stays as it is. -/
theorem Pool.members_put_other {q : Pool} (s : SlotId) (r : Record) (h : Home) (e : h ≠ r.home) (k : h ≠ q.homeOf s) :
    (q.put s r).members h = q.members h := by
  by_cases same : q.homeOf s = r.home
  · exact Pool.members_put_home q s r h same
  · rw [q.members_put_away s r h e same]
    exact Pool.filter_away (fun x => k x.symm)

/-! ## Insertion -/

theorem mem_insertBefore {α : Type} {before : α → Bool} {x z : α} {l : List α} :
    z ∈ insertBefore before x l ↔ z = x ∨ z ∈ l := by
  induction l with
  | nil => simp [insertBefore]
  | cons y l ih =>
    unfold insertBefore
    split
    · simp
    · simp only [List.mem_cons, ih]
      grind

/-- Insertion keeps a list in order: the new member stands before the ones it comes before, and after the others. -/
theorem insertBefore_pairwise {α : Type} {R : α → α → Prop} {before : α → Bool} {x : α} {l : List α} (hl : l.Pairwise R)
    (after : ∀ y ∈ l, before y = false → R y x) (first : ∀ y ∈ l, before y = true → R x y)
    (up : ∀ y ∈ l, ∀ z ∈ l, R y z → before y = true → before z = true) : (insertBefore before x l).Pairwise R := by
  induction l with
  | nil => simp [insertBefore]
  | cons y l ih =>
    obtain ⟨hy, hl'⟩ := List.pairwise_cons.1 hl
    unfold insertBefore
    split
    · next hb =>
      refine List.pairwise_cons.2 ⟨?_, hl⟩
      intro z hz
      rcases List.mem_cons.1 hz with e | e
      · exact e ▸ first y (by simp) hb
      · exact first z hz (up y (by simp) z hz (hy z e) hb)
    · next hb =>
      refine List.pairwise_cons.2 ⟨?_, ih hl' (fun z hz => after z (by simp [hz])) (fun z hz => first z (by simp [hz]))
        (fun z hz w hw => up z (by simp [hz]) w (by simp [hw]))⟩
      intro z hz
      rcases mem_insertBefore.1 hz with e | e
      · exact e ▸ after y (by simp) (by simpa using hb)
      · exact hy z e

/-! ## Orders along a collection -/

/-- The members of a collection stand in the order `before`, read from their records. -/
def Pool.inOrder (q : Pool) (h : Home) (before : SlotId → Record → SlotId → Record → Prop) : Prop :=
  (q.members h).Pairwise (fun i j => ∀ x y, q.record i = some x → q.record j = some y → before i x j y)

namespace Pool.inOrder

variable {q : Pool} {h : Home} {before : SlotId → Record → SlotId → Record → Prop}

/-- A record that does not join the collection leaves the others in their order. -/
theorem away (hq : q.partitioned) (o : q.inOrder h before) (s : SlotId) (r : Record) (e : h ≠ r.home) :
    (q.put s r).inOrder h before := by
  refine (List.Pairwise.sublist (Pool.members_put_sublist s r h e) o).imp_of_mem ?_
  intro i j hi hj k x y hx hy
  have other : ∀ z, z ∈ (q.put s r).members h → z ≠ s := by
    rintro z hz rfl
    have := (Pool.mem_members (Pool.partitioned_put hq z r)).1 hz
    rw [Pool.homeOf_put, if_pos rfl] at this
    exact e this.symm
  rw [Pool.record_put_ne q r (other i hi)] at hx
  rw [Pool.record_put_ne q r (other j hj)] at hy
  exact k x y hx hy

/-- A record that stays in the collection, as far from the others as it was, leaves the order. -/
theorem stays (hq : q.partitioned) (o : q.inOrder h before) {s : SlotId} {old r : Record} (hs : q.record s = some old)
    (e : old.home = r.home) (f : ∀ y ry, y ∈ q.members h → y ≠ s → q.record y = some ry →
      (before s old y ry → before s r y ry) ∧ (before y ry s old → before y ry s r)) :
    (q.put s r).inOrder h before := by
  unfold Pool.inOrder
  rw [Pool.members_put_home q s r h ((Pool.homeOf_record hs).trans e)]
  refine List.Pairwise.imp_of_mem ?_ ((List.nodup_iff_pairwise_ne.1 (Pool.nodup_members hq h)).and o)
  intro i j hi hj k x y hx hy
  rw [Pool.record_put] at hx hy
  by_cases ei : i = s
  · have ej : j ≠ s := fun x => k.1 (ei.trans x.symm)
    rw [if_pos ei] at hx
    rw [if_neg ej] at hy
    cases hx
    exact ei ▸ (f j y hj ej hy).1 (ei ▸ k.2 old y (ei ▸ hs) hy)
  · rw [if_neg ei] at hx
    by_cases ej : j = s
    · rw [if_pos ej] at hy
      cases hy
      exact ej ▸ (f i x hi ei hx).2 (ej ▸ k.2 x old hx (ej ▸ hs))
    · rw [if_neg ej] at hy
      exact k.2 x y hx hy

/-- A record that joins the collection at its place keeps the order. -/
theorem joins (hq : q.partitioned) (o : q.inOrder h before) {s : SlotId} {r : Record} (e : r.home = h)
    (ne : q.homeOf s ≠ r.home) {first : Record → SlotId → Bool}
    (list : (q.put s r).members h = insertBefore (fun y => match q.record y with
      | some r' => first r' y
      | none => false) s (q.members h))
    (some_ : ∀ y ∈ q.members h, ∃ ry, q.record y = some ry)
    (after : ∀ y ry, y ∈ q.members h → q.record y = some ry → first ry y = false → before y ry s r)
    (ahead : ∀ y ry, y ∈ q.members h → q.record y = some ry → first ry y = true → before s r y ry)
    (up : ∀ y ry z rz, before y ry z rz → first ry y = true → first rz z = true) : (q.put s r).inOrder h before := by
  have out : ∀ y ∈ q.members h, y ≠ s := by
    rintro y hy rfl
    exact ne (((Pool.mem_members hq).1 hy).trans e.symm)
  unfold Pool.inOrder
  rw [list]
  refine insertBefore_pairwise (List.Pairwise.imp_of_mem ?_ o) ?_ ?_ ?_
  · intro i j hi hj k x y hx hy
    rw [Pool.record_put_ne q r (out i hi)] at hx
    rw [Pool.record_put_ne q r (out j hj)] at hy
    exact k x y hx hy
  · intro y hy hb x z hx hz
    rw [Pool.record_put_ne q r (out y hy)] at hx
    rw [Pool.record_put_self] at hz
    cases hz
    rw [hx] at hb
    exact after y x hy hx hb
  · intro y hy hb x z hx hz
    rw [Pool.record_put_ne q r (out y hy)] at hz
    rw [Pool.record_put_self] at hx
    cases hx
    rw [hz] at hb
    exact ahead y z hy hz hb
  · intro y hy z hz k hb
    obtain ⟨ry, ey⟩ := some_ y hy
    obtain ⟨rz, ez⟩ := some_ z hz
    have := k ry rz ((Pool.record_put_ne q r (out y hy)).trans ey) ((Pool.record_put_ne q r (out z hz)).trans ez)
    rw [ey] at hb
    rw [ez]
    exact up y ry z rz this hb

end Pool.inOrder

/-! ## The Waiting List (R85) -/

/-- A stored record keeps the order of the Waiting List, where one that stays in it keeps its keys (R85, R86). -/
theorem Pool.listOrdered_put {q : Pool} (hq : q.partitioned) (o : q.listOrdered) (s : SlotId) (r : Record)
    (keys : r.state = .waiting → ∀ old, q.record s = some old → old.state = .waiting →
      r.priority = old.priority ∧ r.created = old.created) : (q.put s r).listOrdered := by
  have o' : q.inOrder .waiting (fun i x j y => y.priority < x.priority ∨
      (x.priority = y.priority ∧ (x.created < y.created ∨ (x.created = y.created ∧ i < j)))) := o
  show (q.put s r).inOrder .waiting _
  by_cases w : r.home = .waiting
  · by_cases k : q.homeOf s = .waiting
    · have member := (q.mem_members hq (h := .waiting)).2 k
      obtain ⟨old, hs, ho⟩ := q.record_of_waiting hq member
      obtain ⟨kp, kc⟩ := keys (Record.home_waiting.1 w) old hs ho
      refine o'.stays hq hs ((Record.home_waiting.2 ho).trans w.symm) (fun y ry _ _ _ => ?_)
      rw [kp, kc]
      exact ⟨id, id⟩
    · have ne : q.homeOf s ≠ r.home := fun e => k (e.trans w)
      have out : ∀ y ∈ q.waiting, y ≠ s := by
        rintro y hy rfl
        exact k ((q.mem_members hq (h := .waiting)).1 hy)
      refine o'.joins hq w ne (first := fun r' y => ranksBefore r s r' y) (q.waiting_join hq w ne) ?_ ?_ ?_ ?_
      · intro y hy
        obtain ⟨ry, e, _⟩ := q.record_of_waiting hq hy
        exact ⟨ry, e⟩
      · intro y ry hy _ hf
        have := out y hy
        have ne' : y.val ≠ s.val := fun e => this (Fin.ext e)
        simp only [ranksBefore, Bool.or_eq_false_iff, Bool.and_eq_false_iff, decide_eq_false_iff_not, Fin.lt_def,
          Bool.or_eq_false_iff, Bool.and_eq_false_iff] at hf ⊢
        omega
      · intro y ry hy _ hf
        simp only [ranksBefore, Bool.or_eq_true, Bool.and_eq_true, decide_eq_true_eq] at hf
        omega
      · intro y ry z rz hb hf
        simp only [ranksBefore, Bool.or_eq_true, Bool.and_eq_true, decide_eq_true_eq, Fin.lt_def] at hf hb ⊢
        omega
  · exact o'.away hq s r (fun e => w e.symm)

/-! ## The chains (R35) -/

/-- A stored record that does not join a chain it was not on leaves the chains in order. -/
theorem Pool.chainsOrdered_away {q : Pool} {guard : Nat} (hq : q.partitioned) (o : q.chainsOrdered guard) (s : SlotId)
    (r : Record) (out : r.state.chained = false) (asks : r.state = .waiting → 1 ≤ r.duration) :
    (q.put s r).chainsOrdered guard := by
  refine ⟨fun b => ?_, fun k x hk hx => ?_, fun k x hk hx => ?_⟩
  · have c : q.inOrder (.chain b) (fun _ x _ y => x.windowStart < y.windowStart ∧ x.windowEnd + guard ≤ y.windowStart) :=
      o.chain b
    refine c.away hq s r (fun e => ?_)
    simp [Record.home_chain e.symm] at out
  · rw [Pool.record_put] at hk
    split at hk
    · cases hk
      simp [hx] at out
    · exact o.window k x hk hx
  · rw [Pool.record_put] at hk
    split at hk
    · cases hk
      exact asks hx
    · exact o.duration k x hk hx

/-- A stored record that stays on its chain, clear of its neighbours, leaves the chains in order. -/
theorem Pool.chainsOrdered_stays {q : Pool} {guard : Nat} (hq : q.partitioned) (o : q.chainsOrdered guard) {s : SlotId}
    {old r : Record} (hs : q.record s = some old) (e : old.home = r.home)
    (window : r.state.chained = true → r.windowStart < r.windowEnd) (asks : r.state = .waiting → 1 ≤ r.duration)
    (clear : ∀ b y ry, r.home = .chain b → y ∈ q.chains.get b → y ≠ s → q.record y = some ry →
      (ry.windowStart < old.windowStart → ry.windowEnd + guard ≤ old.windowStart →
        ry.windowStart < r.windowStart ∧ ry.windowEnd + guard ≤ r.windowStart) ∧
      (old.windowStart < ry.windowStart → old.windowEnd + guard ≤ ry.windowStart →
        r.windowStart < ry.windowStart ∧ r.windowEnd + guard ≤ ry.windowStart)) : (q.put s r).chainsOrdered guard := by
  refine ⟨fun b => ?_, fun k x hk hx => ?_, fun k x hk hx => ?_⟩
  · have c : q.inOrder (.chain b) (fun _ x _ y => x.windowStart < y.windowStart ∧ x.windowEnd + guard ≤ y.windowStart) :=
      o.chain b
    by_cases here : r.home = .chain b
    · refine c.stays hq hs e (fun y ry hy ne hr => ?_)
      have := clear b y ry here hy ne hr
      exact ⟨fun h => this.2 h.1 h.2, fun h => this.1 h.1 h.2⟩
    · exact c.away hq s r (fun x => here x.symm)
  · rw [Pool.record_put] at hk
    split at hk
    · cases hk
      exact window hx
    · exact o.window k x hk hx
  · rw [Pool.record_put] at hk
    split at hk
    · cases hk
      exact asks hx
    · exact o.duration k x hk hx

/-- A stored record that joins a chain whose members it clears by the guard leaves the chains in order (R76). -/
theorem Pool.chainsOrdered_joins {q : Pool} {guard : Nat} (hq : q.partitioned) (o : q.chainsOrdered guard) {s : SlotId}
    {r : Record} {b : BayId} (e : r.home = .chain b) (ne : q.homeOf s ≠ r.home) (window : r.windowStart < r.windowEnd)
    (clear : ∀ y ry, y ∈ q.chains.get b → q.record y = some ry →
      ry.windowEnd + guard ≤ r.windowStart ∨ r.windowEnd + guard ≤ ry.windowStart) : (q.put s r).chainsOrdered guard := by
  refine ⟨fun b' => ?_, fun k x hk hx => ?_, fun k x hk hx => ?_⟩
  · have c : q.inOrder (.chain b') (fun _ x _ y => x.windowStart < y.windowStart ∧ x.windowEnd + guard ≤ y.windowStart) :=
      o.chain b'
    by_cases here : b' = b
    · subst here
      have chained : ∀ y ry, y ∈ q.chains.get b' → q.record y = some ry → ry.windowStart < ry.windowEnd := by
        intro y ry hy hr
        obtain ⟨r', hr', hh⟩ := q.record_of_chain hq hy
        cases hr.symm.trans hr'
        exact o.window y _ hr (Record.home_chain hh)
      refine c.joins hq e ne (first := fun r' _ => decide (r.windowStart < r'.windowStart)) (q.chain_join hq e ne) ?_ ?_ ?_ ?_
      · intro y hy
        obtain ⟨ry, er, _⟩ := q.record_of_chain hq hy
        exact ⟨ry, er⟩
      · intro y ry hy hr hf
        have := chained y ry hy hr
        have := clear y ry hy hr
        simp only [decide_eq_false_iff_not] at hf
        omega
      · intro y ry hy hr hf
        have := chained y ry hy hr
        have := clear y ry hy hr
        simp only [decide_eq_true_eq] at hf
        omega
      · intro y ry z rz hb hf
        simp only [decide_eq_true_eq] at hf ⊢
        omega
    · refine c.away hq s r (fun x => here ?_)
      rw [e] at x
      exact Home.chain.inj x
  · rw [Pool.record_put] at hk
    split at hk
    · cases hk
      exact window
    · exact o.window k x hk hx
  · rw [Pool.record_put] at hk
    split at hk
    · next e' =>
      cases hk
      have := Record.home_chain e
      simp [hx, RecState.chained] at this
    · exact o.duration k x hk hx

/-- A freed slot leaves its collection; no other slot moves but into the free list (R43). -/
theorem Pool.members_release_sublist (q : Pool) (s : SlotId) (h : Home) (e : h ≠ .free) :
    ((q.release s).members h).Sublist (q.members h) := by
  have left : ((q.leave (q.homeOf s) s).members h).Sublist (q.members h) := by
    unfold Pool.leave
    rw [Pool.members_setMembers]
    split
    · next e => exact e ▸ List.filter_sublist
    · exact List.Sublist.refl _
  cases h
  · exact absurd rfl e
  all_goals exact left

/-- A freed slot leaves the chains in order (R43). -/
theorem Pool.chainsOrdered_release {q : Pool} {guard : Nat} (o : q.chainsOrdered guard)
    (s : SlotId) : (q.release s).chainsOrdered guard := by
  have record : ∀ k x, (q.release s).record k = some x → q.record k = some x := by
    intro k x hk
    rw [Pool.record_release] at hk
    split at hk
    · cases hk
    · exact hk
  exact ⟨fun b => ((o.chain b).sublist (Pool.members_release_sublist q s (.chain b) (by simp))).imp (fun h x y hx hy => h x y (record _ _ hx) (record _ _ hy)),
    fun k x hk hx => o.window k x (record k x hk) hx, fun k x hk hx => o.duration k x (record k x hk) hx⟩

/-! ## The ENGAGED record at the head (R35) -/

theorem List.tail_filter_subset {α : Type} (f : α → Bool) (l : List α) {x : α} (h : x ∈ (l.filter f).tail) : x ∈ l.tail := by
  cases l with
  | nil => simp at h
  | cons a l =>
    simp only [List.filter_cons] at h
    split at h
    · exact (List.mem_filter.1 h).1
    · exact (List.mem_filter.1 (List.mem_of_mem_tail h)).1

/-- A stored record that is not ENGAGED, and joins no chain, leaves every ENGAGED record at the head. -/
theorem Pool.engagedFirst_away {q : Pool} (o : q.engagedFirst) (s : SlotId) (r : Record) (out : r.state.chained = false) :
    (q.put s r).engagedFirst := by
  intro b k x hk hx
  have e : Home.chain b ≠ r.home := fun e => by simp [Record.home_chain e.symm] at out
  have tail : k ∈ (q.chains.get b).tail := by
    have hk : k ∈ ((q.put s r).members (.chain b)).tail := hk
    by_cases same : q.homeOf s = r.home
    · rw [Pool.members_put_home q s r _ same] at hk
      exact hk
    · rw [q.members_put_away s r _ e same] at hk
      exact List.tail_filter_subset _ _ hk
  rw [Pool.record_put] at hx
  split at hx
  · cases hx
    intro he
    simp [he, RecState.chained] at out
  · exact o b k x tail hx

/-- A stored record that stays on its chain, and is ENGAGED only at its head, leaves every ENGAGED record at the head. -/
theorem Pool.engagedFirst_stays {q : Pool} (o : q.engagedFirst) {s : SlotId} {old r : Record} (hs : q.record s = some old)
    (e : old.home = r.home) (head : r.state = .engaged → ∀ b, s ∉ (q.chains.get b).tail) :
    (q.put s r).engagedFirst := by
  intro b k x hk hx
  have hk : k ∈ ((q.put s r).members (.chain b)).tail := hk
  rw [Pool.members_put_home q s r _ ((Pool.homeOf_record hs).trans e)] at hk
  rw [Pool.record_put] at hx
  split at hx
  · next ek =>
    cases hx
    exact fun he => head he b (ek ▸ hk)
  · exact o b k x hk hx

/-- A stored record that joins a chain behind its ENGAGED record leaves every ENGAGED record at the head. -/
theorem Pool.engagedFirst_joins {q : Pool} (hq : q.partitioned) (o : q.engagedFirst) {s : SlotId} {r : Record} {b : BayId}
    (e : r.home = .chain b) (ne : q.homeOf s ≠ r.home) (idle : r.state ≠ .engaged)
    (behind : ∀ y ry, y ∈ q.chains.get b → q.record y = some ry → ry.state = .engaged → ry.windowStart ≤ r.windowStart) :
    (q.put s r).engagedFirst := by
  intro b' k x hk hx
  rw [Pool.record_put] at hx
  by_cases here : b' = b
  · subst here
    split at hx
    · cases hx
      exact idle
    · next ek =>
      rw [q.chain_join hq e ne] at hk
      by_cases tail : k ∈ (q.chains.get b').tail
      · exact o b' k x tail hx
      · intro he
        cases hl : q.chains.get b' with
        | nil =>
          rw [hl] at hk
          simp [insertBefore] at hk
        | cons a l =>
          rw [hl] at hk tail
          have mem : k ∈ q.chains.get b' := by
            have := mem_insertBefore.1 (List.mem_of_mem_tail hk)
            rw [hl]
            exact this.resolve_left ek
          have head : k = a := by
            rw [hl] at mem
            exact (List.mem_cons.1 mem).resolve_right tail
          subst head
          have le := behind k x mem hx he
          unfold insertBefore at hk
          rw [hx] at hk
          have nlt : ¬ r.windowStart < x.windowStart := Nat.not_lt.2 le
          simp only [nlt, decide_false, Bool.false_eq_true, if_false, List.tail_cons] at hk
          rcases mem_insertBefore.1 hk with h | h
          · exact ek h
          · have nd := q.nodup_members hq (.chain b')
            rw [show q.members (.chain b') = k :: l from hl] at nd
            exact (List.nodup_cons.1 nd).1 h
  · have other : (q.put s r).members (.chain b') = (q.members (.chain b')).filter (fun y => q.homeOf s ≠ .chain b' ∨ y ≠ s) :=
      q.members_put_away s r _ (fun x => here (Home.chain.inj (x.trans e))) ne
    have hk : k ∈ ((q.put s r).members (.chain b')).tail := hk
    rw [other] at hk
    have tail := List.tail_filter_subset _ _ hk
    split at hx
    · cases hx
      exact idle
    · exact o b' k x tail hx

/-! ## What every chain of moves and edits keeps of the Waiting List's order (R85) -/

theorem Part.Moves.listOrdered {timed : Bool} {p q : Part} (h : Part.Moves timed p q) (hp : p.pool.partitioned)
    (o : p.pool.listOrdered) : q.pool.listOrdered := by
  induction h with
  | trans h1 _ i1 i2 => exact i2 (h1.partitioned hp) (i1 hp o)
  | store p s old r hs _ hw =>
    refine Pool.listOrdered_put hp o s r (fun w old' hs' ho => ?_)
    cases (show p.pool.record s = some old from hs).symm.trans hs'
    rcases hw w with h | h
    · exact ⟨h.2.1, h.2.2⟩
    · exact absurd ho h.1
  | _ => exact o

theorem Pool.listOrdered_release {q : Pool} (o : q.listOrdered) (s : SlotId) : (q.release s).listOrdered := by
  refine (List.Pairwise.sublist (Pool.members_release_sublist q s .waiting (by simp)) o).imp ?_
  intro i j h x y hx hy
  rw [Pool.record_release] at hx hy
  split at hx
  · cases hx
  · split at hy
    · cases hy
    · exact h x y hx hy

/-- A free slot holds no record (R27). -/
theorem Pool.record_of_free {q : Pool} (hq : q.partitioned) {s : SlotId} (h : q.free.head? = some s) : q.record s = none := by
  have member : s ∈ q.members .free := List.mem_of_mem_head? h
  have home := (Pool.mem_members hq).1 member
  unfold Pool.homeOf at home
  cases hr : q.record s with
  | none => rfl
  | some r =>
    rw [hr] at home
    unfold Record.home at home
    cases hs : r.state <;> simp [hs] at home

theorem Part.Edits.listOrdered {frees : Bool} {p q : Part} (h : Part.Edits frees p q) (hp : p.pool.partitioned)
    (o : p.pool.listOrdered) : q.pool.listOrdered := by
  induction h with
  | moves h => exact h.listOrdered hp o
  | trans h1 _ i1 i2 => exact i2 (h1.partitioned hp) (i1 hp o)
  | create p s r hs _ _ =>
    refine Pool.listOrdered_put hp o s r (fun _ old h _ => ?_)
    exact absurd ((Pool.record_of_free hp hs).symm.trans h) (by simp)
  | release p s _ => exact Pool.listOrdered_release o s
  | rebuild p _ => exact List.Pairwise.nil
  | reset p _ _ _ _ => exact List.Pairwise.nil
  | _ => exact o

end Sys2Proof.Machine
end

