-- ==== Sys2Proof/Laws/Steady.lean ====
section
/-! SUPPORT. What every event keeps of the conditions of the bays (R8) and of the chains (R35): one lemma for each shared
operation of an event. A step between two derivations may leave the conditions of some bays behind; `late` says of
which. -/

namespace Sys2Proof.Machine

/-! ## What a condition reads (R7) -/

/-- What the condition of a bay reads of the bay itself, its post aside. -/
def Bay.sight (x : Bay) : Bool × Service × Occupancy × Bool :=
  (x.configured, x.service, x.occupancy, match x.verify with
    | .running _ => true
    | .idle | .expired => false)

/-- What the condition of a bay reads of a record on its chain. -/
def Record.look (r : Record) : Bool × Bool × Bool :=
  (r.state = .engaged, r.state = .held || r.state = .arriving,
    r.state = .engaged && r.session.any (·.phase.isOverstay))

theorem find?_congr {α : Type} {f g : α → Bool} (l : List α) (h : ∀ x ∈ l, f x = g x) : l.find? f = l.find? g := by
  induction l with
  | nil => rfl
  | cons a l ih => simp only [List.find?_cons, h a (by simp), ih (fun x hx => h x (by simp [hx]))]

theorem any_congr {α : Type} {f g : α → Bool} (l : List α) (h : ∀ x ∈ l, f x = g x) : l.any f = l.any g := by
  induction l with
  | nil => rfl
  | cons a l ih => simp only [List.any_cons, h a (by simp), ih (fun x hx => h x (by simp [hx]))]

/-- Equal sights, posts and chains with records that look alike give equal conditions. -/
theorem Part.conditionOf_congr {p q : Part} {b : BayId} (bay : (q.bay b).sight = (p.bay b).sight)
    (post : q.serviceable b = p.serviceable b) (chain : q.chain b = p.chain b)
    (look : ∀ s ∈ p.chain b, (q.record s).map Record.look = (p.record s).map Record.look) :
    q.conditionOf b = p.conditionOf b := by
  have engaged : ∀ s ∈ p.chain b, q.recordIs (fun r => r.state = .engaged) s = p.recordIs (fun r => r.state = .engaged) s := by
    intro s hs
    have := look s hs
    unfold Part.recordIs
    cases hq : q.record s <;> cases hp : p.record s <;> rw [hq, hp] at this <;> simp [Record.look] at this ⊢
    exact this.1
  have held : ∀ s ∈ p.chain b, q.recordIs (fun r => r.state = .held || r.state = .arriving) s =
      p.recordIs (fun r => r.state = .held || r.state = .arriving) s := by
    intro s hs
    have := look s hs
    unfold Part.recordIs
    cases hq : q.record s <;> cases hp : p.record s <;> rw [hq, hp] at this <;> simp [Record.look] at this ⊢
    exact this.2.1
  have occupant : q.occupant b = p.occupant b := by
    unfold Part.occupant
    rw [chain]
    exact find?_congr _ engaged
  have overstay : ∀ s, p.occupant b = some s →
      (q.session s).any (·.phase.isOverstay) = (p.session s).any (·.phase.isOverstay) := by
    intro s hs
    obtain ⟨rp, hp, ep⟩ := Part.occupant_engaged hs
    obtain ⟨rq, hq, eq⟩ := Part.occupant_engaged (occupant.trans hs)
    have := look s (List.mem_of_find?_eq_some hs)
    rw [hq, hp] at this
    simp only [Record.look, Option.map_some, Option.some.injEq, Prod.mk.injEq, ep, eq, decide_true, Bool.true_and] at this
    unfold Part.session
    rw [hq, hp]
    exact this.2.2
  have any_held := any_congr (p.chain b) held
  simp only [Bay.sight, Prod.mk.injEq] at bay
  obtain ⟨b1, b2, b3, b4⟩ := bay
  unfold Part.conditionOf Part.occupancyOf
  simp only [b1, b2, b3, post, occupant, chain, any_held]
  cases ho : p.occupant b with
  | some s => simp only [overstay s ho]
  | none =>
    cases hx : (q.bay b).verify <;> cases hy : (p.bay b).verify <;> simp [hx, hy] at b4 ⊢

/-- The condition of a bay without a serviceable post reads no more than its configuration and service. -/
theorem Part.conditionOf_unserviceable {p : Part} {b : BayId} (h : p.serviceable b = false) :
    p.conditionOf b = if (p.bay b).configured = false ∨ (p.bay b).service = .out then .out else .dark := by
  unfold Part.conditionOf
  simp only [h]
  cases (p.bay b).configured <;> cases (p.bay b).service <;> simp

theorem Part.conditionOf_unconfigured {p : Part} {b : BayId} (h : (p.bay b).configured = false) :
    p.conditionOf b = .out := by
  unfold Part.conditionOf
  simp [h]

/-! ## Steady parts -/

/-- A part in the middle of an event: the pool is partitioned (R27), every condition is current (R8) but for the bays in
`late`; from level 1 the chains are in order (R35); from level 2 the started records have started and the ENGAGED records
stand at the heads; from level 3 the window ends of the records before engagement lie ahead. -/
structure Part.Steady (n : Nat) (late : BayId → Prop) (p : Part) : Prop where
  parts : p.pool.partitioned
  bayed : p.allRecords Record.bayed
  current (b : BayId) : ¬ late b → (p.bay b).condition = p.conditionOf b
  chains : 1 ≤ n → p.pool.chainsOrdered p.settings.guard
  started : 2 ≤ n → p.allRecords (Record.started p.now)
  first : 2 ≤ n → p.pool.engagedFirst
  ahead : 3 ≤ n → p.allRecords (Record.ahead p.now)

/-- No bay is left behind. -/
def noBay (_ : BayId) : Prop := False

variable {n : Nat} {late : BayId → Prop} {p q : Part}

theorem Part.Steady.mono {late' : BayId → Prop} (h : p.Steady n late) (sub : ∀ b, late b → late' b) : p.Steady n late' :=
  { h with current := fun b hb => h.current b (fun k => hb (sub b k)) }

/-- A write that leaves the pool, the guard and now as they are. -/
theorem Part.Steady.of_conditions (h : p.Steady n late) (pool : q.pool = p.pool)
    (guard : q.settings.guard = p.settings.guard) (now : q.now = p.now)
    (current : ∀ b, ¬ late b → (p.bay b).condition = p.conditionOf b → (q.bay b).condition = q.conditionOf b) :
    q.Steady n late where
  parts := pool ▸ h.parts
  bayed := fun s r hr => h.bayed s r (by rw [Part.record, ← pool]; exact hr)
  current b hb := current b hb (h.current b hb)
  chains k := by rw [pool, guard]; exact h.chains k
  started k := fun s r hr => by
    rw [now]
    exact h.started k s r (by rw [Part.record, ← pool]; exact hr)
  first k := by rw [pool]; exact h.first k
  ahead k := fun s r hr => by
    rw [now]
    exact h.ahead k s r (by rw [Part.record, ← pool]; exact hr)

/-- A write that leaves the pool, the guard and now as they are, and what the conditions read of bays and posts. -/
theorem Part.Steady.of_sights (h : p.Steady n late) (pool : q.pool = p.pool)
    (guard : q.settings.guard = p.settings.guard) (now : q.now = p.now)
    (bay : ∀ b, ¬ late b → (q.bay b).sight = (p.bay b).sight ∧ (q.bay b).condition = (p.bay b).condition)
    (post : ∀ b, ¬ late b → q.serviceable b = p.serviceable b) : q.Steady n late := by
  refine h.of_conditions pool guard now (fun b hb c => ?_)
  rw [(bay b hb).2, c]
  refine (Part.conditionOf_congr (bay b hb).1 (post b hb) ?_ (fun s _ => ?_)).symm
  · unfold Part.chain
    rw [pool]
  · unfold Part.record
    rw [pool]

/-- A write of something that no condition and no chain reads. -/
theorem Part.Steady.of_eq (h : p.Steady n late) (pool : q.pool = p.pool) (settings : q.settings = p.settings)
    (clock : q.clock = p.clock) (bays : q.bays = p.bays) (posts : q.posts = p.posts) : q.Steady n late := by
  refine h.of_sights pool (by rw [settings]) (by rw [Part.now, clock, Part.now]) (fun b _ => ?_) (fun b _ => ?_)
  · unfold Part.bay
    rw [bays]
    exact ⟨rfl, rfl⟩
  · unfold Part.serviceable Part.bay Part.post
    rw [bays, posts]

theorem Part.Steady.foldl {α : Type} {f : Part → α → Part} (l : List α) (step : ∀ p, ∀ a ∈ l, Part.Steady n late p →
    Part.Steady n late (f p a)) (h : p.Steady n late) : (l.foldl f p).Steady n late := by
  induction l generalizing p with
  | nil => exact h
  | cons a l ih => exact ih (fun p b hb => step p b (by simp [hb])) (step p a (by simp) h)

/-! ## Writes of bays, posts and feeders -/

/-- A write of a bay that its condition does not read. -/
theorem Part.modBay_steady (h : p.Steady n late) (b : BayId) (g : Bay → Bay) (sight : (g (p.bay b)).sight = (p.bay b).sight)
    (condition : (g (p.bay b)).condition = (p.bay b).condition) (post : (g (p.bay b)).post = (p.bay b).post) :
    (p.modBay b g).Steady n late := by
  refine h.of_sights rfl rfl rfl (fun j _ => ?_) (fun j _ => ?_)
  · rw [show (p.modBay b g).bay j = _ from Part.bay_setBay p b _ j]
    split
    · next e =>
      subst e
      exact ⟨sight, condition⟩
    · exact ⟨rfl, rfl⟩
  · unfold Part.serviceable
    rw [show (p.modBay b g).bay j = _ from Part.bay_setBay p b _ j]
    split
    · next e =>
      subst e
      rw [post]
      rfl
    · rfl

/-- A write of a bay whose condition is late anyway. -/
theorem Part.modBay_late (h : p.Steady n late) (b : BayId) (g : Bay → Bay) (hb : late b) : (p.modBay b g).Steady n late := by
  have same : ∀ j, ¬ late j → (p.modBay b g).bay j = p.bay j := by
    intro j hj
    rw [show (p.modBay b g).bay j = _ from Part.bay_setBay p b _ j, if_neg]
    rintro rfl
    exact hj hb
  refine h.of_sights rfl rfl rfl (fun j hj => ?_) (fun j hj => ?_)
  · rw [same j hj]
    exact ⟨rfl, rfl⟩
  · unfold Part.serviceable
    rw [same j hj]
    rfl

/-- A write of a post that stays serviceable or not serviceable. -/
theorem Part.setPost_steady (h : p.Steady n late) (a : PostId) (x : Post) (same : x.serviceable = (p.post a).serviceable) :
    (p.setPost a x).Steady n late := by
  refine h.of_sights rfl rfl rfl (fun j _ => ⟨rfl, rfl⟩) (fun j _ => ?_)
  unfold Part.serviceable
  rw [Part.setPost_bay, Part.post_setPost]
  split
  · next e => rw [e, same]
  · rfl

theorem Part.modPost_steady (h : p.Steady n late) (a : PostId) (g : Post → Post)
    (same : (g (p.post a)).serviceable = (p.post a).serviceable) : (p.modPost a g).Steady n late :=
  Part.setPost_steady h a _ same

/-- A write of a post whose configured bays are late anyway. -/
theorem Part.setPost_late (h : p.Steady n late) (a : PostId) (x : Post)
    (hb : ∀ b, (p.bay b).configured = true → (p.bay b).post = a → late b) : (p.setPost a x).Steady n late := by
  refine h.of_conditions rfl rfl rfl (fun j hj c => ?_)
  by_cases k : (p.bay j).configured = true
  · have ne : (p.bay j).post ≠ a := fun e => hj (hb j k e)
    rw [Part.setPost_bay, c]
    refine (Part.conditionOf_congr (p := p) (q := p.setPost a x) rfl ?_ rfl (fun _ _ => rfl)).symm
    unfold Part.serviceable
    rw [Part.setPost_bay, Part.post_setPost, if_neg ne]
  · have k' : (p.bay j).configured = false := by simpa using k
    rw [Part.setPost_bay, c, Part.conditionOf_unconfigured k', Part.conditionOf_unconfigured (p := p.setPost a x) k']

theorem Part.mem_baysOfPost {p : Part} {a : PostId} {b : BayId} :
    b ∈ p.baysOfPost a ↔ (p.bay b).configured = true ∧ (p.bay b).post = a := by
  unfold Part.baysOfPost
  simp [allBays, allBelow]

theorem Part.modFeeder_steady (h : p.Steady n late) (f : FeederId) (g : Feeder → Feeder) :
    (p.modFeeder f g).Steady n late := h.of_eq rfl rfl rfl rfl rfl

theorem Part.shareChanged_steady (h : p.Steady n late) (f : FeederId) : (p.shareChanged f).Steady n late :=
  Part.modFeeder_steady h f _

theorem Part.evalCondition_steady (h : p.Steady n late) (f : FeederId) : (p.evalCondition f).Steady n late :=
  Part.modFeeder_steady h f _

theorem Part.work_steady (h : p.Steady n late) (w : Work) : Part.Steady n late { p with work := w } :=
  h.of_eq rfl rfl rfl rfl rfl

theorem Part.touchPost_steady (h : p.Steady n late) (a : PostId) : (p.touchPost a).Steady n late := by
  unfold Part.touchPost
  split
  · exact h
  · exact Part.work_steady h _

theorem Part.touchBayOf_steady (h : p.Steady n late) (b : Option BayId) : (p.touchBayOf b).Steady n late := by
  unfold Part.touchBayOf
  split
  · exact Part.touchPost_steady h _
  · exact h

theorem Part.retryDue_steady (h : p.Steady n late) : p.retryDue.Steady n late := Part.work_steady h _

theorem Part.reportBlocked_steady (h : p.Steady n late) (b : BayId) (k : Bool) : (p.reportBlocked b k).Steady n late :=
  Part.work_steady h _

theorem Part.leadDue_steady (h : p.Steady n late) (s : SlotId) : (p.leadDue s).Steady n late := Part.work_steady h _

theorem Part.outstanding_steady (h : p.Steady n late) (o : Outstanding) : Part.Steady n late { p with outstanding := o } :=
  h.of_eq rfl rfl rfl rfl rfl

theorem Part.choices_steady (h : p.Steady n late) (k : Nat) : Part.Steady n late { p with choices := k } :=
  h.of_eq rfl rfl rfl rfl rfl

theorem Part.time_steady (h : p.Steady n late) (k : Nat) : Part.Steady n late { p with time := k } :=
  h.of_eq rfl rfl rfl rfl rfl

theorem Part.setRule_steady (h : p.Steady n late) (r : RuleId) (x : Rule) : (p.setRule r x).Steady n late :=
  h.of_eq rfl rfl rfl rfl rfl

/-! ## The derivation of a condition (R8) -/

theorem Part.deriveWith_sights (raise : Bool) (p : Part) (b j : BayId) :
    ((p.deriveWith raise b).bay j).sight = (p.bay j).sight ∧ ((p.deriveWith raise b).bay j).post = (p.bay j).post ∧
    ((p.deriveWith raise b).bay j).condition = if j = b then p.conditionOf b else (p.bay j).condition := by
  unfold Part.deriveWith
  dsimp only
  split
  · next e =>
    refine ⟨rfl, rfl, ?_⟩
    split
    · next k => rw [k, e]
    · rfl
  · have stored : ∀ u : Part, u.bays = (p.modBay b (fun x => { x with condition := p.conditionOf b, notice := true })).bays →
        (u.bay j).sight = (p.bay j).sight ∧ (u.bay j).post = (p.bay j).post ∧
        (u.bay j).condition = if j = b then p.conditionOf b else (p.bay j).condition := by
      intro u hu
      have : u.bay j = (p.modBay b (fun x => { x with condition := p.conditionOf b, notice := true })).bay j := by
        unfold Part.bay
        rw [hu]
      rw [this, show (p.modBay b _).bay j = _ from Part.bay_setBay p b _ j]
      split
      · next e => exact e ▸ ⟨rfl, rfl, rfl⟩
      · exact ⟨rfl, rfl, rfl⟩
    split <;> split <;> exact stored _ (by simp [Part.shareChanged])

/-- A derivation brings its bay up to date. -/
theorem Part.deriveWith_steady {late' : BayId → Prop} (h : p.Steady n late) (raise : Bool) (b : BayId)
    (sub : ∀ j, late j → late' j ∨ j = b) : (p.deriveWith raise b).Steady n late' := by
  have tidies := p.deriveWith_tidies (linked := false) raise b
  have pool := Part.deriveWith_pool raise p b
  have sights := p.deriveWith_sights raise b
  have post : ∀ a, (p.deriveWith raise b).serviceable a = p.serviceable a := by
    intro a
    unfold Part.serviceable
    rw [(sights a).2.1, tidies.serviceable]
  have condition : ∀ j, (p.deriveWith raise b).conditionOf j = p.conditionOf j := by
    intro j
    refine Part.conditionOf_congr (sights j).1 (post j) ?_ (fun s _ => ?_)
    · unfold Part.chain
      rw [pool]
    · unfold Part.record
      rw [pool]
  have steady : (p.deriveWith raise b).Steady n (fun j => late' j ∨ j = b) := by
    refine (h.mono sub).of_conditions pool (by rw [tidies.settings]) tidies.now_eq (fun j hj c => ?_)
    rw [(sights j).2.2, if_neg (fun e => hj (.inr e)), condition, c]
  refine { steady with current := fun j hj => ?_ }
  by_cases e : j = b
  · rw [(sights j).2.2, if_pos e, condition, e]
  · exact steady.current j (fun k => k.elim hj e)

theorem Part.derive_steady {late' : BayId → Prop} (h : p.Steady n late) (b : BayId)
    (sub : ∀ j, late j → late' j ∨ j = b) : (p.derive b).Steady n late' := Part.deriveWith_steady h true b sub

/-- Where nothing is late, a derivation leaves nothing late. -/
theorem Part.derive_steady' (h : p.Steady n late) (b : BayId) : (p.derive b).Steady n late :=
  Part.derive_steady h b (fun _ => .inl)

/-- A bay may be late until it is derived. -/
def withBay (late : BayId → Prop) (b j : BayId) : Prop := late j ∨ j = b

theorem Part.Steady.with (h : p.Steady n late) (b : BayId) : p.Steady n (withBay late b) := h.mono (fun _ => .inl)

theorem Part.derive_with {b : BayId} (h : p.Steady n (withBay late b)) : (p.derive b).Steady n late :=
  Part.derive_steady h b (fun _ => id)

/-- A walk of derivations brings all its bays up to date. -/
theorem Part.derives_steady (l : List BayId) (h : p.Steady n (fun j => late j ∨ j ∈ l)) : (l.foldl Part.derive p).Steady n late := by
  induction l generalizing p with
  | nil => exact h.mono (fun b hb => hb.elim id (fun k => by simp at k))
  | cons a l ih =>
    refine ih (Part.derive_steady h a (fun j hj => ?_))
    rcases hj with k | k
    · exact .inl (.inl k)
    · rcases List.mem_cons.1 k with e | e
      · exact .inr e
      · exact .inl (.inr e)

/-! ## Storing a record -/

/-- A stored record, with what it must do to the chains and be itself. A bay that it leaves, joins or changes for the eye
of its condition is late. -/
theorem Part.put_steady (h : p.Steady n late) (s : SlotId) {r : Record} (bayed : r.bayed)
    (view : (∃ old, p.record s = some old ∧ old.home = r.home ∧ old.look = r.look) ∨
      ∀ b, p.pool.homeOf s = .chain b ∨ r.home = .chain b → late b)
    (chains : 1 ≤ n → p.pool.chainsOrdered p.settings.guard → (p.pool.put s r).chainsOrdered p.settings.guard)
    (started : 2 ≤ n → r.started p.now) (first : 2 ≤ n → p.pool.engagedFirst → (p.pool.put s r).engagedFirst)
    (ahead : 3 ≤ n → r.ahead p.now) : (p.put s r).Steady n late := by
  have stored : Part.Steady n late { p with pool := p.pool.put s r } := by
    have record : ∀ k, Part.record { p with pool := p.pool.put s r } k = if k = s then some r else p.record k :=
      fun k => Pool.record_put p.pool s k r
    have all : ∀ {good : Record → Prop}, p.allRecords good → good r →
        Part.allRecords { p with pool := p.pool.put s r } good := by
      intro good hp hr k x hk
      rw [record] at hk
      split at hk
      · cases hk
        exact hr
      · exact hp k x hk
    refine ⟨Pool.partitioned_put h.parts s r, all h.bayed bayed, fun b hb => ?_, fun k => chains k (h.chains k),
      fun k => all (h.started k) (started k), fun k => first k (h.first k), fun k => all (h.ahead k) (ahead k)⟩
    show (p.bay b).condition = _
    rw [h.current b hb]
    refine (Part.conditionOf_congr (p := p) (q := { p with pool := p.pool.put s r }) rfl rfl ?_ (fun k hk => ?_)).symm
    · show (p.pool.put s r).members (.chain b) = p.pool.members (.chain b)
      rcases view with ⟨old, hs, home, _⟩ | view
      · exact Pool.members_put_home p.pool s r _ ((Pool.homeOf_record hs).trans home)
      · exact Pool.members_put_other s r _ (fun e => hb (view b (.inr e.symm))) (fun e => hb (view b (.inl e.symm)))
    · rw [record]
      split
      · next e =>
        subst e
        rcases view with ⟨old, hs, _, look⟩ | view
        · rw [hs, Option.map_some, Option.map_some, look]
        · exact absurd (view b (.inl ((Pool.mem_chain h.parts).1 hk))) hb
      · rfl
  exact stored.of_eq (by simp) (by simp) (by simp) (by simp) (by simp)

/-- A record that stays where it is with the same state and the same window. -/
theorem Part.put_inPlace_steady (h : p.Steady n late) (s : SlotId) {old r : Record} (hs : p.record s = some old)
    (state : r.state = old.state) (bay : r.bay = old.bay) (start : r.windowStart = old.windowStart)
    (stop : r.windowEnd = old.windowEnd) (duration : r.duration = old.duration)
    (look : old.look = r.look ∨ ∀ b, r.home = .chain b → late b) : (p.put s r).Steady n late := by
  have home : old.home = r.home := by unfold Record.home; rw [state, bay]
  have bayed := h.bayed s old hs
  refine Part.put_steady h s ?_ ?_ (fun k o => ?_) (fun k => ?_) (fun k o => ?_) (fun k => ?_)
  · unfold Record.bayed
    rw [state, bay]
    exact bayed
  · rcases look with look | look
    · exact .inl ⟨old, hs, home, look⟩
    · refine .inr (fun b hb => look b (hb.elim (fun e => ?_) id))
      exact home.symm.trans ((Pool.homeOf_record hs).symm.trans e)
  · refine Pool.chainsOrdered_stays h.parts o hs home (fun c => ?_) (fun w => ?_) (fun b y ry _ _ _ _ => ?_)
    · rw [start, stop]
      exact o.window s old hs (state ▸ c)
    · rw [duration]
      exact o.duration s old hs (state ▸ w)
    · rw [start, stop]
      exact ⟨fun a c => ⟨a, c⟩, fun a c => ⟨a, c⟩⟩
  · unfold Record.started
    rw [state, start]
    exact h.started k s old hs
  · exact Pool.engagedFirst_stays o hs home (fun e b m => o b s old m hs (state ▸ e))
  · unfold Record.ahead
    rw [state, stop]
    exact h.ahead k s old hs

/-- A change of marks, flags and causes. -/
theorem Part.modRecord_steady (h : p.Steady n late) (s : SlotId) (g : Record → Record) (state : ∀ r, (g r).state = r.state)
    (bay : ∀ r, (g r).bay = r.bay) (start : ∀ r, (g r).windowStart = r.windowStart)
    (stop : ∀ r, (g r).windowEnd = r.windowEnd) (duration : ∀ r, (g r).duration = r.duration)
    (session : ∀ r, (g r).session = r.session) : (p.modRecord s g).Steady n late := by
  unfold Part.modRecord
  cases hr : p.record s with
  | none => exact h
  | some r =>
    refine Part.put_inPlace_steady h s hr (state r) (bay r) (start r) (stop r) (duration r) (.inl ?_)
    unfold Record.look
    rw [state, session]

/-- A chained record names the bay of its chain (R27). -/
theorem Record.home_bay {r : Record} (h : r.bayed) {b : BayId} (e : r.home = .chain b) : r.bay = some b := by
  have c := Record.home_chain e
  obtain ⟨b', hb⟩ := Option.isSome_iff_exists.1 (h.1 c)
  rw [Record.home_of_bay c hb] at e
  cases e
  exact hb

theorem Part.updSession_steady (h : p.Steady n late) (s : SlotId) (g : Session → Session) :
    (p.updSession s g).Steady n late := by
  unfold Part.updSession
  cases hr : p.record s with
  | none => exact h
  | some r =>
    dsimp only
    cases hx : r.session with
    | none => exact h
    | some x =>
      dsimp only
      have flagged : ∀ k : Bool, (p.put s (if k then Record.flag { r with session := some (g x) } .session
          else { r with session := some (g x) })).Steady n (fun j => late j ∨ (x.phase.isOverstay ≠ (g x).phase.isOverstay ∧
            r.bay = some j)) := by
        intro k
        have look : ∀ y : Record, y.state = r.state → y.bay = r.bay → y.session = some (g x) → (r.look = y.look ∨ ∀ b, y.home = .chain b →
            (late b ∨ (x.phase.isOverstay ≠ (g x).phase.isOverstay ∧ r.bay = some b))) := by
          intro y e1 e2 e3
          by_cases same : x.phase.isOverstay = (g x).phase.isOverstay
          · left
            unfold Record.look
            rw [e1, e3, hx, Option.any_some, Option.any_some, same]
          · refine .inr (fun b hb => .inr ⟨same, ?_⟩)
            refine Record.home_bay (h.bayed s r hr) (Eq.trans ?_ hb)
            unfold Record.home
            rw [e1, e2]
        have wide := h.mono (late' := fun j => late j ∨ (x.phase.isOverstay ≠ (g x).phase.isOverstay ∧ r.bay = some j))
          (fun _ => .inl)
        cases k
        · exact Part.put_inPlace_steady wide s hr rfl rfl rfl rfl rfl (look _ rfl rfl rfl)
        · exact Part.put_inPlace_steady wide s hr rfl rfl rfl rfl rfl (look _ rfl rfl rfl)
      have stored := flagged (x.reports (g x))
      generalize p.put s _ = u at stored ⊢
      cases hb : r.bay with
      | none => exact stored.mono (fun j hj => hj.elim id (fun k => by simp [hb] at k))
      | some b =>
        dsimp only
        have told : Part.Steady n (fun j => late j ∨ (x.phase.isOverstay ≠ (g x).phase.isOverstay ∧ r.bay = some j))
            (if x.phase.demands = (g x).phase.demands then u else u.shareChanged (p.bay b).feeder) := by
          split
          · exact stored
          · exact Part.shareChanged_steady stored _
        generalize (if x.phase.demands = (g x).phase.demands then u else u.shareChanged (p.bay b).feeder) = v at told ⊢
        split
        · next same => exact told.mono (fun j hj => hj.elim id (fun k => absurd same k.1))
        · refine Part.derive_steady told b (fun j hj => hj.imp id (fun k => ?_))
          rw [hb] at k
          exact (Option.some.inj k.2).symm

/-! ## The moves of one record -/

theorem Part.wakePost_steady (h : p.Steady n late) (a : PostId) : (p.wakePost a).Steady n late := by
  unfold Part.wakePost
  split
  · next e =>
    refine Part.setPost_steady h a _ ?_
    unfold Post.serviceable
    rw [e]
    rfl
  · exact h

theorem Part.wakeBay_steady (h : p.Steady n late) (b : BayId) : (p.wakeBay b).Steady n late := Part.wakePost_steady h _

theorem Part.armChecks_steady (h : p.Steady n late) (s : SlotId) : (p.armChecks s).Steady n late := by
  unfold Part.armChecks
  cases hr : p.record s with
  | none => exact h
  | some r =>
    have queued : ∀ l w k : Bool, Part.Steady n late (if k then
        (p.put s { r with leadTaken := l, wakeTaken := w }).leadDue s
        else p.put s { r with leadTaken := l, wakeTaken := w }) := by
      intro l w k
      have armed : (p.put s { r with leadTaken := l, wakeTaken := w }).Steady n late :=
        Part.put_inPlace_steady h s hr rfl rfl rfl rfl rfl (.inl rfl)
      cases k
      · exact armed
      · exact Part.leadDue_steady armed s
    dsimp only
    split
    · split
      · exact Part.wakeBay_steady (queued _ _ _) _
      · exact queued _ _ _
    · exact queued _ _ _

/-- Engagement of a record before it, that has started and stands at the head of its chain (R101). -/
theorem Part.engage_steady (h : p.Steady n late) (s : SlotId) (cause : LastCause)
    (up : ∀ r, p.record s = some r → r.state.upcoming = true)
    (start : 2 ≤ n → ∀ r, p.record s = some r → r.windowStart ≤ p.now)
    (head : 2 ≤ n → ∀ b, s ∉ (p.chain b).tail) : (p.engage s cause).Steady n late := by
  unfold Part.engage
  cases hr : p.record s with
  | none => exact h
  | some r =>
    dsimp only
    cases hb : r.bay with
    | none => exact h
    | some b =>
      dsimp only
      have c := RecState.upcoming_chained (up r hr)
      have home : r.home = .chain b := Record.home_of_bay c hb
      refine Part.derive_with (Part.shareChanged_steady (Part.modBay_late ?_ b _ (.inr rfl)) _)
      have home' : ∀ x : Session, Record.home { r.flag cause with state := .engaged, session := some x } = .chain b :=
        fun x => Record.home_of_bay rfl hb
      refine Part.put_steady (h.with b) s ⟨fun _ => by simp [Record.flag, hb], fun e => by simp at e⟩
        (.inr (fun j hj => ?_)) (fun k o => ?_) (fun k _ => ?_) (fun k o => ?_) (fun _ e => by simp [RecState.upcoming] at e)
      · rcases hj with e | e
        · rw [Pool.homeOf_record hr, home] at e
          exact .inr (Home.chain.inj e).symm
        · rw [home'] at e
          exact .inr (Home.chain.inj e).symm
      · refine Pool.chainsOrdered_stays h.parts o hr (home.trans (home' _).symm) (fun _ => o.window s r hr c)
          (fun e => by simp at e) (fun b y ry _ _ _ _ => ⟨fun a c => ⟨a, c⟩, fun a c => ⟨a, c⟩⟩)
      · exact start k r hr
      · exact Pool.engagedFirst_stays o hr (home.trans (home' _).symm) (fun _ j => head k j)

/-- A record at its place on a chain has every record before it clear of it (R35). -/
theorem Pool.chainsOrdered.before_tail {q : Pool} {guard : Nat} (o : q.chainsOrdered guard) {b : BayId} {a s : SlotId}
    {t : List SlotId} {x y : Record} (list : q.chains.get b = a :: t) (mem : s ∈ t) (hx : q.record a = some x)
    (hy : q.record s = some y) : x.windowStart < y.windowStart ∧ x.windowEnd + guard ≤ y.windowStart := by
  have := o.chain b
  rw [list] at this
  exact (List.pairwise_cons.1 this).1 s mem x y hx hy

theorem Part.occupied_steady (h : p.Steady n late) (b : BayId) (hb : late b) (level : n ≠ 2) :
    (p.occupied b).Steady n late := by
  unfold Part.occupied
  split
  · exact h
  · next free =>
    split
    · next s hs =>
      obtain ⟨r, hr, ha⟩ := Part.recordIs_find hs
      have state : r.state = .arriving := by simpa using ha
      have mem : s ∈ p.pool.chains.get b := List.mem_of_find?_eq_some hs
      have here : ∀ r', p.record s = some r' → r' = r := fun r' hr' => Option.some.inj (hr'.symm.trans hr)
      have start : 2 ≤ n → r.windowStart ≤ p.now := fun k => h.started k s r hr (.inr (.inl state))
      refine Part.engage_steady h s _ (fun r' hr' => ?_) (fun k r' hr' => here r' hr' ▸ start k) (fun k j tail => ?_)
      · rw [here r' hr', state]
        rfl
      · have e : j = b := by
          have h1 := (Pool.mem_chain h.parts).1 (List.mem_of_mem_tail tail)
          have h2 := (Pool.mem_chain h.parts).1 mem
          exact Home.chain.inj (h1.symm.trans h2)
        subst e
        have tail : s ∈ (p.pool.chains.get j).tail := tail
        cases hl : p.pool.chains.get j with
        | nil => simp [hl] at tail
        | cons a t =>
          rw [hl] at tail
          have first : a ∈ p.pool.chains.get j := by simp [hl]
          obtain ⟨x, hx, home⟩ := Pool.record_of_chain h.parts first
          have o := h.chains (by omega)
          have clear := o.before_tail hl tail hx hr
          have ahead := h.ahead (by omega) a x hx
          have up : x.state.upcoming = true := by
            have c := Record.home_chain home
            have idle : x.state ≠ .engaged := by
              intro e
              unfold Part.occupant at free
              have := List.find?_eq_none.1 free a first
              simp [Part.recordIs, show p.record a = some x from hx, e] at this
            cases hst : x.state <;> simp_all [RecState.upcoming, RecState.chained]
          have := ahead up
          have := start k
          omega
    · split
      · exact Part.modBay_late h b _ hb
      · exact h
      · exact h

theorem Part.vacated_steady (h : p.Steady n late) (b : BayId) (hb : late b) : (p.vacated b).Steady n late := by
  unfold Part.vacated
  split
  · exact h
  · exact Part.modBay_late h b _ hb

theorem Part.occupancyEvent_steady {b : BayId} (h : p.Steady n (withBay late b)) (k : Bool) (level : n ≠ 2) :
    (p.occupancyEvent b k).Steady n late := by
  unfold Part.occupancyEvent
  refine Part.derive_with ?_
  cases k
  · exact Part.vacated_steady h b (.inr rfl)
  · exact Part.occupied_steady h b (.inr rfl) level

/-- The close of a record (R41, R42, R102). A departure may engage the next record. -/
theorem Part.closeRecord_steady (h : p.Steady n late) (s : SlotId) (result : Result) (by' : ClosedBy)
    (level : n ≠ 2 ∨ by' ≠ .departed) : (p.closeRecord s result by').Steady n late := by
  unfold Part.closeRecord
  cases hr : p.record s with
  | none => exact h
  | some r =>
    dsimp only
    have closed : ∀ late' : BayId → Prop, (∀ b, late b → late' b) → (∀ b, r.home = .chain b → late' b) →
        (p.put s (r.closed (p.pool.handle s) p.now result by')).Steady n late' := by
      intro late' sub hl
      refine Part.put_steady (h.mono sub) s ⟨fun e => by simp [Record.closed, RecState.chained] at e,
        fun e => by simp [Record.closed] at e⟩ (.inr (fun b hb => ?_))
        (fun _ o => Pool.chainsOrdered_away h.parts o s _ rfl (fun e => by simp [Record.closed] at e))
        (fun _ e => by simp [Record.closed] at e) (fun _ o => Pool.engagedFirst_away o s _ rfl)
        (fun _ e => by simp [Record.closed, RecState.upcoming] at e)
      rcases hb with e | e
      · exact hl b ((Pool.homeOf_record hr).symm.trans e)
      · simp [Record.closed, Record.home] at e
    split
    · next c => exact closed late (fun _ => id) (fun b e => absurd (Record.home_chain e) (by simpa using c))
    · next c =>
      cases hb : r.bay with
      | none =>
        have := (h.bayed s r hr).1 (by simpa using c)
        simp [hb] at this
      | some b =>
        dsimp only
        refine Part.derive_with ?_
        have stored := closed (withBay late b) (fun _ => .inl) (fun j e => by
          have := Record.home_bay (h.bayed s r hr) e
          rw [hb] at this
          exact .inr (Option.some.inj this).symm)
        have retried := Part.retryDue_steady stored
        have freed : ∀ k : Bool, Part.Steady n (withBay late b) (if k then
            ((p.put s (r.closed (p.pool.handle s) p.now result by')).retryDue.modBay b
              (fun x => { x with penalty := 0 })).shareChanged (p.bay b).feeder
            else (p.put s (r.closed (p.pool.handle s) p.now result by')).retryDue) := by
          intro k
          cases k
          · exact retried
          · exact Part.shareChanged_steady (Part.modBay_late retried b _ (.inr rfl)) _
        have free := freed (decide (r.state = .engaged))
        simp only [decide_eq_true_eq] at free
        generalize (if r.state = .engaged then _ else _ : Part) = freed at free ⊢
        split
        · next k =>
          simp only [Bool.and_eq_true, decide_eq_true_eq] at k
          exact Part.occupied_steady free b (.inr rfl) (level.resolve_right (fun e => e k.1.2))
        · exact free

/-! ## Relocation and placement -/

/-- The bay that ranks first is one of the candidates (R78). -/
theorem Part.best_mem {p : Part} {c : Call} {l : List BayId} {b : BayId} (h : p.best c l = some b) : b ∈ l := by
  induction l generalizing b with
  | nil => cases h
  | cons a l ih =>
    unfold Part.best at h
    split at h
    · cases h
      simp
    · next k hk =>
      split at h
      · cases h
        simp
      · cases h
        exact List.mem_cons_of_mem _ (ih hk)

/-- The bay that the engine returns passes every test (R74). -/
theorem Part.place_passes {p : Part} {c : Call} {b : BayId} (h : p.place c = some b) : p.passes c b = true :=
  (List.mem_filter.1 (Part.best_mem h)).2

theorem Part.place_excluded {p : Part} {c : Call} {b : BayId} (h : p.place c = some b) : c.excluded ≠ some b := by
  have := Part.place_passes h
  simp only [Part.passes, Part.candidate, Bool.and_eq_true] at this
  simpa using this.1.1.2

/-- Every other record on the chain of the bay that the engine returns clears the window by the guard (R76). -/
theorem Part.place_clear {p : Part} {c : Call} {b : BayId} (h : p.place c = some b) {y : SlotId} {ry : Record}
    (hy : y ∈ p.pool.chains.get b) (moving : c.moving ≠ some y) (hr : p.pool.record y = some ry) :
    ry.windowEnd + p.settings.guard ≤ c.start ∨ c.stop + p.settings.guard ≤ ry.windowStart := by
  have := Part.place_passes h
  simp only [Part.passes, Part.fits, Bool.and_eq_true] at this
  have all := List.all_eq_true.1 this.1.2 ry (List.mem_filterMap.2 ⟨y, List.mem_filter.2 ⟨hy, by simpa using moving⟩, hr⟩)
  simpa using all

/-- A minute that has not been reached lies ahead of now, and a later one than the start of a window does (R23). -/
theorem Part.reached_ahead {p : Part} {start stop : Nat} (h : p.reached stop 0 = false) (window : start < stop) :
    max start p.now < stop := by
  unfold Part.reached at h
  by_cases k : p.clock.set = true
  · simp only [k, Bool.true_and, decide_eq_false_iff_not, Nat.add_zero] at h
    omega
  · have : p.now = 0 := by unfold Part.now; rw [if_neg k]
    omega

theorem Part.demote_steady (h : p.Steady n late) (s : SlotId) (up : ∀ r, p.record s = some r → r.state.upcoming = true) :
    (p.demote s).Steady n late := by
  unfold Part.demote
  cases hr : p.record s with
  | none => exact h
  | some r =>
    dsimp only
    have c := RecState.upcoming_chained (up r hr)
    split
    · obtain ⟨b, hb⟩ := Option.isSome_iff_exists.1 ((h.bayed s r hr).1 c)
      rw [hb]
      dsimp only
      refine Part.derive_with (Part.retryDue_steady ?_)
      refine Part.put_steady (h.with b) s ⟨fun e => by simp [Record.demoted, RecState.chained] at e, fun _ => rfl⟩
        (.inr (fun j hj => ?_)) (fun k o => ?_) (fun _ e => by simp [Record.demoted] at e)
        (fun _ o => Pool.engagedFirst_away o s _ rfl) (fun _ e => by simp [Record.demoted, RecState.upcoming] at e)
      · rcases hj with e | e
        · rw [Pool.homeOf_record hr, Record.home_of_bay c hb] at e
          exact .inr (Home.chain.inj e).symm
        · simp [Record.demoted, Record.home] at e
      · refine Pool.chainsOrdered_away h.parts o s _ rfl (fun _ => one_le_remainingLength _ _)
    · exact Part.closeRecord_steady h s _ _ (.inr (by decide))

theorem Part.relocate_steady (h : p.Steady n late) (s : SlotId) : (p.relocate s).Steady n late := by
  unfold Part.relocate
  cases hr : p.record s with
  | none => exact h
  | some r =>
    dsimp only
    cases ha : r.bay with
    | none => exact h
    | some a =>
      dsimp only
      split
      · exact h
      · next u =>
        have up : r.state.upcoming = true := by simpa using u
        have c := RecState.upcoming_chained up
        split
        · exact Part.closeRecord_steady h s _ _ (.inr (by decide))
        · next reach =>
          have reach : p.reached r.windowEnd 0 = false := by simpa using reach
          have room : 1 ≤ n → max r.windowStart p.now < r.windowEnd := fun k =>
            Part.reached_ahead reach ((h.chains k).window s r hr c)
          split
          · next b hc =>
            refine Part.retryDue_steady (Part.armChecks_steady (Part.derive_with (Part.derive_with ?_)) s)
            have old : p.pool.homeOf s = .chain a := by rw [Pool.homeOf_record hr, Record.home_of_bay c ha]
            have state : (r.relocated b p.now).state.upcoming = true := by
              unfold Record.relocated
              dsimp only
              split
              · rfl
              · exact up
            have home : (r.relocated b p.now).home = .chain b := Record.home_of_bay (RecState.upcoming_chained state) rfl
            have moved : a ≠ b := by
              have := Part.place_excluded hc
              simpa [Record.call] using this
            have ne : p.pool.homeOf s ≠ (r.relocated b p.now).home := by
              rw [old, home]
              exact fun e => moved (Home.chain.inj e)
            refine Part.put_steady ((h.with b).with a) s ⟨fun _ => rfl, fun e => ?_⟩ (.inr (fun j hj => ?_)) (fun k o => ?_)
              (fun k e => ?_) (fun k o => ?_) (fun k e => ?_)
            · rw [e] at state
              cases state
            · rcases hj with e | e
              · rw [old] at e
                exact .inr (Home.chain.inj e).symm
              · rw [home] at e
                exact .inl (.inr (Home.chain.inj e).symm)
            · refine Pool.chainsOrdered_joins h.parts o home ne (room k) (fun y ry hy hry => ?_)
              refine Part.place_clear hc hy (fun e => ?_) hry
              cases e
              exact ne (((Pool.mem_chain h.parts).1 hy).trans home.symm)
            · have start := h.started k s r hr
              simp only [Record.relocated] at e ⊢
              split at e
              · next k =>
                simp only [Bool.and_eq_true, decide_eq_true_eq] at k
                exact k.2
              · have := start e
                omega
            · refine Pool.engagedFirst_joins h.parts o home ne (fun e => ?_) (fun y ry hy hry e => ?_)
              · rw [e] at state
                cases state
              · exact Nat.le_trans (h.started k y ry hry (.inr (.inr e))) (Nat.le_max_right _ _)
            · exact h.ahead k s r hr up
          · exact Part.demote_steady h s (fun r' hr' => Option.some.inj (hr.symm.trans hr') ▸ up)

theorem Part.leadCheck_steady (h : p.Steady n late) (s : SlotId) : (p.leadCheck s).Steady n late := by
  unfold Part.leadCheck
  split
  · exact h
  · split
    · exact h
    · split
      · exact Part.relocate_steady h s
      · exact h

theorem Part.walkBlocked_steady (h : p.Steady n late) (x : Blocked) : (p.walkBlocked x).Steady n late := by
  unfold Part.walkBlocked
  refine Part.Steady.foldl _ (fun p s _ h => ?_) h
  split
  · exact h
  · split
    · exact Part.relocate_steady h s
    · exact h

theorem Part.settle_steady (h : p.Steady n late) (s : SlotId) (cause : SettleCause) : (p.settle s cause).Steady n late :=
  Part.updSession_steady h s _

theorem Part.endSession_steady (h : p.Steady n late) (s : SlotId) (cause : SettleCause) (hc : cause ≠ .departed) :
    (p.endSession s cause).Steady n late := by
  unfold Part.endSession
  split
  · exact h
  · split
    · refine Part.closeRecord_steady h s _ _ (.inr ?_)
      cases cause <;> simp_all [SettleCause.closedBy]
    · exact h
    all_goals exact Part.settle_steady h s _

theorem Part.tryWaiting_steady (h : p.Steady n late) (s : SlotId) : (p.tryWaiting s).Steady n late := by
  unfold Part.tryWaiting
  cases hr : p.record s with
  | none => exact h
  | some r =>
    dsimp only
    split
    · exact h
    · next hw =>
      have wait : r.state = .waiting := by simpa using hw
      split
      · next b hc =>
        refine Part.armChecks_steady (Part.derive_with ?_) s
        have state : (r.placed b (max r.windowStart p.now) p.now).state.upcoming = true := by
          unfold Record.placed
          dsimp only
          split <;> rfl
        have home : (r.placed b (max r.windowStart p.now) p.now).home = .chain b :=
          Record.home_of_bay (RecState.upcoming_chained state) rfl
        have old : p.pool.homeOf s = .waiting := by rw [Pool.homeOf_record hr, Record.home_waiting.2 wait]
        have ne : p.pool.homeOf s ≠ (r.placed b (max r.windowStart p.now) p.now).home := by rw [old, home]; simp
        refine Part.put_steady (h.with b) s ⟨fun _ => rfl, fun e => ?_⟩ (.inr (fun j hj => ?_)) (fun k o => ?_) (fun k e => ?_)
          (fun k o => ?_) (fun k e => ?_)
        · rw [e] at state
          cases state
        · rcases hj with e | e
          · rw [old] at e
            cases e
          · rw [home] at e
            exact .inr (Home.chain.inj e).symm
        · refine Pool.chainsOrdered_joins h.parts o home ne ?_ (fun y ry hy hry => ?_)
          · have := o.duration s r hr wait
            simp only [Record.placed]
            omega
          · exact Part.place_clear hc hy (by simp [Record.call]) hry
        · simp only [Record.placed] at e ⊢
          split at e
          · simp at e
          · omega
        · refine Pool.engagedFirst_joins h.parts o home ne (fun e => ?_) (fun y ry hy hry e => ?_)
          · rw [e] at state
            cases state
          · exact Nat.le_trans (h.started k y ry hry (.inr (.inr e))) (Nat.le_max_right _ _)
        · have := (h.chains (by omega)).duration s r hr wait
          simp only [Record.placed]
          omega
      · exact h

/-! ## The completion of an event -/

theorem Part.link_steady (h : p.Steady n late) (l : Link) : Part.Steady n late { p with link := l } :=
  h.of_eq rfl rfl rfl rfl rfl

theorem Part.openNext_steady (h : p.Steady n late) : p.openNext.Steady n late := by
  unfold Part.openNext
  split
  · exact Part.link_steady h _
  · exact h

theorem Part.endExchange_steady (h : p.Steady n late) (a : PostId) : (p.endExchange a).Steady n late :=
  h.of_eq rfl rfl rfl rfl rfl

theorem Part.cut_steady (h : p.Steady n late) (a : PostId) : (p.cut a).Steady n late := by
  unfold Part.cut
  split
  · split
    · exact Part.endExchange_steady h a
    · exact h
  · exact h

theorem Part.retry_steady (h : p.Steady n late) : p.retry.Steady n late :=
  Part.Steady.foldl _ (fun _ s _ h => Part.tryWaiting_steady h s) h

theorem Part.evalIdle_steady (h : p.Steady n late) (a : PostId) : (p.evalIdle a).Steady n late := by
  unfold Part.evalIdle
  split
  · split
    · split
      · exact h
      · exact Part.setPost_steady h a _ rfl
    all_goals
      split
      · exact Part.setPost_steady h a _ rfl
      · exact h
  · exact h

theorem Part.touchActive_steady (h : p.Steady n late) : p.touchActive.Steady n late := by
  refine Part.Steady.foldl _ (fun p a _ h => ?_) h
  split
  · exact Part.touchPost_steady h a
  · exact h

theorem Part.takeBlocked_steady (h : p.Steady n late) : p.takeBlocked.Steady n late :=
  Part.Steady.foldl _ (fun _ x _ h => Part.walkBlocked_steady h x) (Part.work_steady h { p.work with blocked := [] })

theorem Part.takeLeads_steady (h : p.Steady n late) : p.takeLeads.Steady n late :=
  Part.Steady.foldl _ (fun _ s _ h => Part.leadCheck_steady h s) (Part.work_steady h { p.work with leads := [] })

theorem Part.takeRetry_steady (h : p.Steady n late) : p.takeRetry.Steady n late := by
  unfold Part.takeRetry
  split
  · exact Part.work_steady (Part.takeLeads_steady (Part.retry_steady h)) _
  · exact h

theorem Part.takeIdle_steady (h : p.Steady n late) : p.takeIdle.Steady n late :=
  Part.Steady.foldl _ (fun _ a _ h => Part.evalIdle_steady h a) (Part.work_steady h { p.work with idle := [] })

theorem Part.takeExchange_steady (h : p.Steady n late) : p.takeExchange.Steady n late := by
  unfold Part.takeExchange
  split
  · exact Part.openNext_steady (Part.work_steady h _)
  · exact h

theorem Part.finish_steady (h : p.Steady n late) : p.finish.Steady n late :=
  Part.work_steady (Part.takeExchange_steady (Part.takeIdle_steady (Part.takeRetry_steady (Part.takeLeads_steady
    (Part.takeBlocked_steady h))))) _

end Sys2Proof.Machine
end

