-- ==== Sys2Proof/Laws/SteadyBlocks.lean ====
section
/-! SUPPORT. The operations of the Share Unit, the Session Unit, the posts and the clock keep a part steady
(Laws/Steady.lean): one lemma for each operation of Share.lean, Posts.lean and Timed.lean. -/

namespace Sys2Proof.Machine

variable {n : Nat} {late : BayId → Prop} {p q : Part}

/-! ## The recompute and the ticks (R128 to R145) -/

theorem Part.share_steady (h : p.Steady n late) (f : FeederId) : (p.share f).Steady n late := by
  unfold Part.share
  dsimp only
  refine Part.evalCondition_steady (Part.modFeeder_steady ?_ f _) f
  refine Part.Steady.foldl _ (fun p m _ h => Part.updSession_steady h _ _) ?_
  exact Part.Steady.foldl _ (fun p b _ h => Part.modBay_steady h b _ rfl rfl rfl) h

theorem Part.recompute_steady (h : p.Steady n late) (f : FeederId) : (p.recompute f).Steady n late := by
  unfold Part.recompute
  split
  · exact Part.modFeeder_steady h f _
  · exact Part.share_steady h f

theorem Part.recomputes_steady (l : List FeederId) (h : p.Steady n late) : (l.foldl Part.recompute p).Steady n late :=
  Part.Steady.foldl _ (fun _ f _ h => Part.recompute_steady h f) h

theorem Part.tripFeeder_steady (h : p.Steady n late) (f : FeederId) : (p.tripFeeder f).Steady n late :=
  Part.recompute_steady (Part.modFeeder_steady h f _) f

theorem Part.restore_steady (h : p.Steady n late) (f : FeederId) : (p.restore f).Steady n late :=
  Part.retryDue_steady (Part.recompute_steady (Part.modFeeder_steady h f _) f)

theorem Part.levelChanged_steady (h : p.Steady n late) (f : FeederId) (active : Bool) :
    (p.levelChanged f active).Steady n late := by
  have stored : (p.modFeeder f (fun x => { x with active := active, notice := true })).Steady n late :=
    Part.modFeeder_steady h f _
  unfold Part.levelChanged
  dsimp only
  split
  · split
    · exact Part.tripFeeder_steady stored f
    · exact stored
  · split
    · exact Part.recompute_steady (Part.modFeeder_steady stored f _) f
    · exact stored

theorem Part.countDown_steady (h : p.Steady n late) (b : BayId) : (p.countDown b).Steady n late := by
  have lowered : (p.modBay b (fun x => { x with penalty := (p.bay b).penalty - 1 })).Steady n late :=
    Part.modBay_steady h b _ rfl rfl rfl
  unfold Part.countDown
  dsimp only
  split
  · exact h
  · split
    · exact Part.shareChanged_steady lowered _
    · exact lowered

theorem Part.penalize_steady (h : p.Steady n late) (f : FeederId) : (p.penalize f).Steady n late := by
  unfold Part.penalize
  dsimp only
  refine Part.modFeeder_steady ?_ f _
  split
  · exact h
  · next b _ =>
    have set : ((p.modBay b (fun x => { x with penalty := Config.penaltyTicks })).shareChanged f).Steady n late :=
      Part.shareChanged_steady (Part.modBay_steady h b _ rfl rfl rfl) f
    split
    · exact Part.updSession_steady set _ _
    · exact set

theorem Part.checkOverdraw_steady (h : p.Steady n late) (f : FeederId) : (p.checkOverdraw f).Steady n late := by
  unfold Part.checkOverdraw
  dsimp only
  split
  · exact Part.penalize_steady h f
  · exact Part.modFeeder_steady h f _

theorem Part.shareTick_steady (h : p.Steady n late) : p.shareTick.Steady n late := by
  have ticked : (allFeeders.foldl Part.shareTickOf p).Steady n late := by
    refine Part.Steady.foldl _ (fun p f _ h => ?_) h
    exact Part.recompute_steady (Part.evalCondition_steady (Part.checkOverdraw_steady
      (Part.Steady.foldl _ (fun _ b _ h => Part.countDown_steady h b) h) f) f) f
  exact Part.outstanding_steady ticked _

theorem Part.meterSlot_steady (h : p.Steady n late) (s : SlotId) : (p.meterSlot s).Steady n late := by
  unfold Part.meterSlot
  repeat' split
  all_goals first | exact h | exact Part.updSession_steady h _ _

theorem Part.checkSlot_steady (h : p.Steady n late) (s : SlotId) : (p.checkSlot s).Steady n late := by
  unfold Part.checkSlot
  repeat' split
  all_goals first | exact h | exact Part.updSession_steady h _ _

theorem Part.sessionTick_steady (h : p.Steady n late) : p.sessionTick.Steady n late := by
  have ticked : (allSlots.foldl (fun p s => (p.meterSlot s).checkSlot s) p).Steady n late :=
    Part.Steady.foldl _ (fun _ s _ h => Part.checkSlot_steady (Part.meterSlot_steady h s) s) h
  exact Part.outstanding_steady ticked _

/-! ## Posts (R97, R121, R154 to R165) -/

theorem Part.haltBay_steady (h : p.Steady n late) (b : BayId) : (p.haltBay b).Steady n late := by
  unfold Part.haltBay
  split
  · exact h
  · split
    · exact h
    · split
      · exact Part.closeRecord_steady h _ _ _ (.inr (by decide))
      · exact Part.updSession_steady h _ _

theorem Part.meterGap_steady (h : p.Steady n late) (b : BayId) : (p.meterGap b).Steady n late := by
  unfold Part.meterGap
  split
  · exact Part.modFeeder_steady h _ _
  · exact h

/-- Once the bays of a post are late, going dark brings them up to date. -/
theorem Part.darken_steady (bays : List BayId) (h : p.Steady n (fun j => late j ∨ j ∈ bays)) :
    (p.darken bays).Steady n late := by
  unfold Part.darken Part.idleTimers
  refine Part.Steady.foldl _ (fun _ b _ h => Part.haltBay_steady h b) (Part.derives_steady bays ?_)
  exact Part.Steady.foldl _ (fun p b hb h => Part.modBay_late h b _ (.inr hb)) h

/-- A post that takes a record which is not serviceable (R159). -/
theorem Part.leavePost_steady (h : p.Steady n late) (a : PostId) (x : Post) (hx : x.serviceable = false) :
    (p.leavePost a x).Steady n late := by
  unfold Part.leavePost
  dsimp only
  split
  · refine Part.recomputes_steady _ (Part.darken_steady _ ?_)
    exact Part.setPost_late (h.mono (fun _ => .inl)) a x (fun b hc hp => .inr (Part.mem_baysOfPost.2 ⟨hc, hp⟩))
  · next k =>
    refine Part.setPost_steady h a x ?_
    rw [hx]
    simpa [hx] using k

theorem Post.serviceable_link {x : Post} (h : x.link.serviceable = false) : x.serviceable = false := by
  unfold Post.serviceable
  rw [h, Bool.and_false]

theorem Part.isolate_steady (h : p.Steady n late) (a : PostId) (cause : IsolationCause) :
    (p.isolate a cause).Steady n late := Part.leavePost_steady h a _ (Post.serviceable_link rfl)

theorem Part.lose_steady (h : p.Steady n late) (a : PostId) : (p.lose a).Steady n late := by
  unfold Part.lose
  refine Part.leavePost_steady ?_ a _ (Post.serviceable_link rfl)
  refine Part.Steady.foldl _ (fun _ b _ h => Part.meterGap_steady h b) ?_
  exact Part.Steady.foldl _ (fun _ b _ h => Part.modBay_steady h b _ rfl rfl rfl) h

theorem Part.reseek_steady (h : p.Steady n late) (a : PostId) : (p.reseek a).Steady n late :=
  Part.leavePost_steady h a _ (Post.serviceable_link rfl)

theorem Part.activate_steady (h : p.Steady n late) (a : PostId) : (p.activate a).Steady n late := by
  unfold Part.activate
  dsimp only
  refine Part.retryDue_steady (Part.derives_steady _ (Part.touchPost_steady ?_ a))
  refine Part.setPost_late (h.mono (fun _ => .inl)) a _ (fun b hc hp => .inr ?_)
  rw [Part.mem_baysOfPost]
  simp only [Part.bay, Part.touchPost_bays, Part.modPost_bays]
  exact ⟨hc, hp⟩

theorem Part.sessionReply_steady (h : p.Steady n late) (b : BayId) (v : SocketReading) (k : Bool) (level : n ≠ 2) :
    (p.sessionReply b v k).Steady n late := by
  unfold Part.sessionReply
  cases p.occupant b with
  | none => exact h
  | some s =>
    dsimp only
    cases p.record s with
    | none => exact h
    | some r =>
      dsimp only
      cases r.session with
      | none => exact h
      | some x =>
        dsimp only
        split
        · cases x.settle with
          | none => exact h
          | some z =>
            dsimp only
            split
            · exact Part.closeRecord_steady h s _ _ (.inl level)
            · exact h
        · split
          · exact Part.settle_steady h s _
          · split
            · exact Part.updSession_steady h s _
            · exact h

theorem Part.writeSocket_steady (h : p.Steady n late) (first : Bool) (b : BayId) (v : SocketReading) (level : n ≠ 2) :
    (p.writeSocket first b v).Steady n late := by
  unfold Part.writeSocket
  dsimp only
  have stored : (p.setBay b ((p.bay b).written v)).Steady n (withBay late b) :=
    Part.modBay_late (h.with b) b (fun x => x.written v) (.inr rfl)
  have seen : ∀ k : Bool, (k = false → (p.bay b).occupancy = ((p.bay b).written v).occupancy) → Part.Steady n late
      (if k then (p.setBay b ((p.bay b).written v)).occupancyEvent b v.occupied else p.setBay b ((p.bay b).written v)) := by
    intro k same
    cases k
    · refine Part.modBay_steady h b (fun x => x.written v) ?_ rfl rfl
      have e := same rfl
      show ((p.bay b).configured, (p.bay b).service, ((p.bay b).written v).occupancy, _) = _
      rw [← e]
      rfl
    · exact Part.occupancyEvent_steady stored _ level
  have done := seen (first || (p.bay b).occupancy ≠ ((p.bay b).written v).occupancy) (by
    intro e
    simpa using (Bool.or_eq_false_iff.1 e).2)
  have served := Part.sessionReply_steady done b v ((p.bay b).plug ≠ ((p.bay b).written v).plug) level
  split
  · exact Part.recompute_steady served _
  · exact served

theorem Part.writeReadings_steady (h : p.Steady n late) (first : Bool) (a : PostId) (r : LinkReply) (level : n ≠ 2) :
    (p.writeReadings first a r).Steady n late := by
  unfold Part.writeReadings
  dsimp only
  split <;> split
  · exact Part.writeSocket_steady (Part.writeSocket_steady h _ _ _ level) _ _ _ level
  · exact Part.writeSocket_steady h _ _ _ level
  · exact Part.writeSocket_steady h _ _ _ level
  · exact h

theorem Part.takeReply_steady (h : p.Steady n late) (a : PostId) (r : LinkReply) (level : n ≠ 2) :
    (p.takeReply a r).Steady n late := by
  have counted : (p.modPost a (fun x => x.answered r.fault)).Steady n late := Part.setPost_steady h a _ rfl
  have isolated := Part.isolate_steady counted a .postFault
  have link : ((p.modPost a (fun x => x.answered r.fault)).post a).link = (p.post a).link := by
    rw [show Part.post (p.modPost a (fun x => x.answered r.fault)) a = _ from Part.post_setPost_same p a _]
    rfl
  have written := Part.writeReadings_steady counted false a r level
  have preparing : (p.post a).link.serviceable = false →
      ((p.modPost a (fun x => x.answered r.fault)).modPost a (fun x => { x with
        link := .preparing, timer := .prepare (p.time + Config.prepareTime), notice := true })).Steady n late := by
    intro k
    refine Part.setPost_steady counted a _ ?_
    rw [Post.serviceable_link (x := { (p.modPost a (fun x => x.answered r.fault)).post a with
      link := .preparing, timer := .prepare (p.time + Config.prepareTime), notice := true }) rfl]
    rw [Post.serviceable_link]
    rw [link]
    exact k
  unfold Part.takeReply
  dsimp only
  split
  · next e =>
    split
    · exact isolated
    · split
      · exact preparing (by rw [e]; rfl)
      · exact counted
  · next e =>
    split
    · exact isolated
    · split
      · exact preparing (by rw [e]; rfl)
      · exact counted
  · split
    · exact isolated
    · split
      · exact Part.writeReadings_steady (Part.activate_steady counted a) true a r level
      · exact counted
  · split
    · exact isolated
    · exact written
  · split
    · exact isolated
    · split
      · exact Part.wakePost_steady written a
      · exact written
  · split
    · exact isolated
    · split
      · exact Part.activate_steady (Part.modPost_steady written a _ rfl) a
      · exact written
  · exact counted
  · exact counted

theorem Part.takeMiss_steady (h : p.Steady n late) (a : PostId) : (p.takeMiss a).Steady n late := by
  have counted : (p.modPost a Post.missed).Steady n late := Part.setPost_steady h a _ rfl
  unfold Part.takeMiss
  dsimp only
  split <;> (try split) <;> first | exact counted | exact Part.lose_steady counted a

theorem Part.prepareLimit_steady (h : p.Steady n late) (a : PostId) : (p.prepareLimit a).Steady n late := by
  unfold Part.prepareLimit
  split
  · split
    · exact Part.isolate_steady h a _
    · exact h
  all_goals exact h

theorem Part.wakeLimit_steady (h : p.Steady n late) (a : PostId) : (p.wakeLimit a).Steady n late := by
  have counted : (p.modPost a (fun x => { x with slowWakes := x.slowWakes + 1, notice := true })).Steady n late :=
    Part.setPost_steady h a _ rfl
  unfold Part.wakeLimit
  split
  · split
    · dsimp only
      split
      · exact Part.setPost_steady counted a _ rfl
      · exact Part.isolate_steady counted a _
    · exact h
  all_goals exact h

/-! ## Timed events, minutes and ticks (R19 to R25) -/

theorem Part.deriveBayOf_steady (h : p.Steady n late) (s : SlotId) : (p.deriveBayOf s).Steady n late := by
  unfold Part.deriveBayOf
  split
  · exact Part.derive_steady' h _
  · exact h

theorem Part.clearTallies_steady (h : p.Steady n late) : p.clearTallies.Steady n late :=
  Part.Steady.foldl _ (fun _ r _ h => Part.setRule_steady h r _) h

/-- A write of the clock that leaves now as it is. -/
theorem Part.clock_steady (h : p.Steady n late) (c : Clock) (now : Part.now { p with clock := c } = p.now) :
    Part.Steady n late { p with clock := c } := h.of_sights rfl rfl now (fun _ _ => ⟨rfl, rfl⟩) (fun _ _ => rfl)

/-- A write of the clock that moves now forward, or below level 2 anywhere. -/
theorem Part.clock_forward (h : p.Steady n late) (c : Clock) (level : n ≤ 2)
    (now : n = 2 → p.now ≤ Part.now { p with clock := c }) : Part.Steady n late { p with clock := c } where
  parts := h.parts
  bayed := h.bayed
  current := h.current
  chains := h.chains
  started k := fun s r hr e => Nat.le_trans (h.started k s r hr e) (now (by omega))
  first := h.first
  ahead k := absurd k (by omega)

theorem Part.takeRollover_steady (h : p.Steady n late) : p.takeRollover.Steady n late :=
  Part.clearTallies_steady (Part.clock_steady h _ rfl)

/-- The start of a BOOKED record's window (R38). -/
theorem Part.takeWindowStart_steady (h : p.Steady n late) (s : SlotId) {r : Record} (hr : p.record s = some r)
    (booked : r.state = .booked) (due : r.windowStart ≤ p.now) : (p.takeWindowStart s).Steady n late := by
  unfold Part.takeWindowStart Part.modRecord
  rw [hr]
  dsimp only
  have c : r.state.chained = true := by rw [booked]; rfl
  obtain ⟨b, hb⟩ := Option.isSome_iff_exists.1 ((h.bayed s r hr).1 c)
  have derived : ∀ u : Part, Part.Steady n (withBay late b) u → u.record s = some { r.flag .windowStart with state := .held } →
      (u.deriveBayOf s).Steady n late := by
    intro u hu e
    unfold Part.deriveBayOf
    rw [e]
    simp only [Option.bind_some, Record.flag, hb]
    exact Part.derive_with hu
  refine derived _ ?_ (by rw [Part.record_put, if_pos rfl])
  have home : r.home = .chain b := Record.home_of_bay c hb
  have home' : Record.home { r.flag .windowStart with state := .held } = .chain b := Record.home_of_bay rfl hb
  refine Part.put_steady (h.with b) s ⟨fun _ => by simp [Record.flag, hb], fun e => by simp at e⟩ (.inr (fun j hj => ?_))
    (fun k o => ?_) (fun _ _ => due) (fun k o => ?_) (fun k _ => ?_)
  · rcases hj with e | e
    · rw [Pool.homeOf_record hr, home] at e
      exact .inr (Home.chain.inj e).symm
    · rw [home'] at e
      exact .inr (Home.chain.inj e).symm
  · exact Pool.chainsOrdered_stays h.parts o hr (home.trans home'.symm) (fun _ => o.window s r hr c)
      (fun e => by simp at e) (fun b y ry _ _ _ _ => ⟨fun a c => ⟨a, c⟩, fun a c => ⟨a, c⟩⟩)
  · exact Pool.engagedFirst_stays o hr (home.trans home'.symm) (fun e => by simp at e)
  · exact h.ahead k s r hr (by rw [booked]; rfl)

/-- A timed event that is due (R23). -/
theorem Part.takeTimed_steady (h : p.Steady n late) (e : Timed) (due : p.isDue e = true) : (p.takeTimed e).Steady n late := by
  have taken : ∀ s : SlotId, (p.modRecord s (fun r => { r with endTaken := true })).Steady n late := fun s =>
    Part.modRecord_steady h s _ (fun _ => rfl) (fun _ => rfl) (fun _ => rfl) (fun _ => rfl) (fun _ => rfl) (fun _ => rfl)
  cases e with
  | leadCheck s =>
    exact Part.leadCheck_steady (Part.modRecord_steady h s (fun r => { r with leadTaken := true }) (fun _ => rfl)
      (fun _ => rfl) (fun _ => rfl) (fun _ => rfl) (fun _ => rfl) (fun _ => rfl)) s
  | wakeCheck s =>
    have marked := Part.modRecord_steady h s (fun r => { r with wakeTaken := true }) (fun _ => rfl)
      (fun _ => rfl) (fun _ => rfl) (fun _ => rfl) (fun _ => rfl) (fun _ => rfl)
    simp only [Part.takeTimed]
    split
    · exact Part.wakeBay_steady marked _
    · exact marked
  | windowStart s =>
    obtain ⟨r, hr, hb⟩ := Part.pendingFor_record due
    simp only [Bool.and_eq_true, decide_eq_true_eq] at hb
    exact Part.takeWindowStart_steady h s hr hb.1 hb.2
  | graceEnd s => exact Part.closeRecord_steady h s _ _ (.inr (by decide))
  | windowEnd s =>
    simp only [Part.takeTimed, Part.takeWindowEnd]
    split
    · exact Part.updSession_steady (taken s) s _
    · exact Part.closeRecord_steady h s _ _ (.inr (by decide))
  | deadline s => exact Part.closeRecord_steady h s _ _ (.inr (by decide))
  | verify b => exact Part.derive_with (Part.modBay_late (h.with b) b _ (.inr rfl))
  | idle a =>
    simp only [Part.isDue, Bool.and_eq_true, decide_eq_true_eq] at due
    simp only [Part.takeTimed, Part.takeIdleTimer]
    split
    · refine Part.setPost_steady h a _ ?_
      unfold Post.serviceable
      rw [due.1.2]
      rfl
    · exact Part.setPost_steady h a _ rfl
  | rollover => exact Part.takeRollover_steady h

theorem Part.timedEvent_steady (h : p.Steady n late) (e : Timed) : (p.timedEvent e).Steady n late := by
  unfold Part.timedEvent
  split
  · next due => exact Part.takeTimed_steady h e due
  · exact h

theorem Part.takeMinute_steady (fuel : Nat) (h : p.Steady n late) : (p.takeMinute fuel).Steady n late := by
  induction fuel generalizing p with
  | zero => exact h
  | succ k ih =>
    simp only [Part.takeMinute]
    cases hc : p.chooseDue p.dueEvents with
    | none => exact h
    | some c =>
      obtain ⟨e, q⟩ := c
      obtain ⟨hm, i, rfl⟩ := Part.chooseDue_some hc
      have due : p.isDue e = true := (List.mem_filter.1 hm).2
      exact ih (Part.finish_steady (Part.takeTimed_steady (Part.choices_steady h i) e ((p.isDue_choices i e).trans due)))

theorem Part.minuteEvents_steady (h : p.Steady n late) : p.minuteEvents.Steady n late := by
  unfold Part.minuteEvents
  generalize Config.minuteFuel = fuel
  exact Part.takeMinute_steady fuel (Part.finish_steady (Part.touchActive_steady (Part.outstanding_steady h _)))

/-- Below level 2 any minute may follow; at level 2 the minute before the largest count. -/
theorem Part.nextMinute_steady (h : p.Steady n late) (level : n ≤ 2) (room : n = 2 → p.clock.minute < 4294967295) :
    p.nextMinute.Steady n late := by
  refine Part.clock_forward h _ level (fun k => ?_)
  unfold Part.now
  dsimp only
  split
  · rw [if_pos (show p.clock.minute < Config.largestMinute from room k)]
    exact Nat.le_succ _
  · exact Nat.le_refl _

theorem Part.flushMinute_steady (h : p.Steady n late) : p.flushMinute.Steady n late := by
  unfold Part.flushMinute
  split
  · exact Part.minuteEvents_steady h
  · exact h

/-! ## The minute count through the events of a minute -/

theorem Part.takeTimed_minute (p : Part) (e : Timed) (due : p.isDue e = true) :
    (p.takeTimed e).clock.minute = p.clock.minute ∧ (p.takeTimed e).clock.set = p.clock.set := by
  by_cases k : e = .rollover
  · subst k
    have h : Part.Moves false { p with clock := { p.clock with
        lastDay := some (dayNumber p.settings.rolloverMinute p.now) } } (p.takeTimed .rollover) := Part.clearTallies_moves _
    rw [h.clock_eq]
    exact ⟨rfl, rfl⟩
  · rw [(p.takeTimed_moves (timed := false) e due (fun x => absurd x k)).clock_eq]
    exact ⟨rfl, rfl⟩

theorem Part.takeMinute_minute (fuel : Nat) (p : Part) :
    (p.takeMinute fuel).clock.minute = p.clock.minute ∧ (p.takeMinute fuel).clock.set = p.clock.set := by
  induction fuel generalizing p with
  | zero => exact ⟨rfl, rfl⟩
  | succ k ih =>
    simp only [Part.takeMinute]
    cases hc : p.chooseDue p.dueEvents with
    | none => exact ⟨rfl, rfl⟩
    | some c =>
      obtain ⟨e, q⟩ := c
      obtain ⟨hm, i, rfl⟩ := Part.chooseDue_some hc
      have due : p.isDue e = true := (List.mem_filter.1 hm).2
      have taken := Part.takeTimed_minute { p with choices := i } e ((p.isDue_choices i e).trans due)
      have done := ((Part.takeTimed { p with choices := i } e).finish_moves (timed := false)).clock_eq
      have next := ih (Part.takeTimed { p with choices := i } e).finish
      rw [done] at next
      exact ⟨next.1.trans taken.1, next.2.trans taken.2⟩

/-- The events of a minute leave the minute count and the clock's state as they are (R24). -/
theorem Part.minuteEvents_minute (p : Part) :
    p.minuteEvents.clock.minute = p.clock.minute ∧ p.minuteEvents.clock.set = p.clock.set := by
  unfold Part.minuteEvents
  generalize Config.minuteFuel = fuel
  have start : Part.Moves false p { p with outstanding := { p.outstanding with minute := false } }.touchActive.finish :=
    .trans (.trans (.outstanding p _) (Part.touchActive_moves _)) (Part.finish_moves _)
  have := Part.takeMinute_minute fuel { p with outstanding := { p.outstanding with minute := false } }.touchActive.finish
  rw [start.clock_eq] at this
  exact this

theorem Part.flushMinute_minute (p : Part) :
    p.flushMinute.clock.minute = p.clock.minute ∧ p.flushMinute.clock.set = p.clock.set := by
  unfold Part.flushMinute
  split
  · exact p.minuteEvents_minute
  · exact ⟨rfl, rfl⟩

/-! ## The tick, the minute event and CLOCK-SET (R19 to R22) -/

theorem Part.advanceSecond_steady (h : p.Steady n late) (level : n ≤ 2) (room : n = 2 → p.clock.minute < 4294967295) :
    p.advanceSecond.Steady n late := by
  unfold Part.advanceSecond
  split
  · exact Part.clock_steady h _ rfl
  · have wrapped : Part.Steady n late { p with clock := { p.clock with second := 0 } } := Part.clock_steady h _ rfl
    dsimp only
    split
    · refine Part.outstanding_steady (Part.nextMinute_steady (Part.flushMinute_steady wrapped) level (fun k => ?_)) _
      rw [(Part.flushMinute_minute _).1]
      exact room k
    · exact wrapped

theorem Part.flushTicks_steady (h : p.Steady n late) : p.flushTicks.Steady n late := by
  unfold Part.flushTicks
  split
  · obtain ⟨k, hk⟩ := p.inFreeOrder_part [Part.sessionTick, Part.shareTick]
    have hm := p.inFreeOrder_mem [Part.sessionTick, Part.shareTick]
    generalize p.inFreeOrder [Part.sessionTick, Part.shareTick] = c at hk hm
    obtain ⟨order, q⟩ := c
    cases hk
    refine Part.Steady.foldl _ (fun p f hf h => Part.finish_steady ?_) (Part.choices_steady h k)
    have := hm f hf
    simp only [List.mem_cons, List.not_mem_nil, or_false] at this
    rcases this with e | e
    · exact e ▸ Part.sessionTick_steady h
    · exact e ▸ Part.shareTick_steady h
  · split
    · exact Part.finish_steady (Part.sessionTick_steady h)
    · split
      · exact Part.finish_steady (Part.shareTick_steady h)
      · exact h

theorem Part.tick_steady (h : p.Steady n late) (level : n ≤ 2) (room : n = 2 → p.clock.minute < 4294967295) :
    p.tick.Steady n late := by
  refine Part.outstanding_steady (Part.advanceSecond_steady (Part.flushTicks_steady h) level (fun k => ?_)) _
  have same : Part.Moves false p p.flushTicks := by
    unfold Part.flushTicks
    split
    · obtain ⟨i, hi⟩ := p.inFreeOrder_part [Part.sessionTick, Part.shareTick]
      have hm := p.inFreeOrder_mem [Part.sessionTick, Part.shareTick]
      generalize p.inFreeOrder [Part.sessionTick, Part.shareTick] = c at hi hm
      obtain ⟨order, q⟩ := c
      cases hi
      refine .trans (.choices p i) (Part.Moves.foldl _ (fun p f hf => .trans ?_ (Part.finish_moves _)) _)
      have := hm f hf
      simp only [List.mem_cons, List.not_mem_nil, or_false] at this
      rcases this with e | e
      · exact e ▸ p.sessionTick_moves
      · exact e ▸ p.shareTick_moves
    · split
      · exact .trans p.sessionTick_moves (Part.finish_moves _)
      · split
        · exact .trans p.shareTick_moves (Part.finish_moves _)
        · exact .refl p
  rw [same.clock_eq]
  exact room k

theorem Part.minuteEvent_steady (h : p.Steady n late) (level : n ≤ 2) (room : n = 2 → p.clock.minute < 4294967295) :
    p.minuteEvent.Steady n late := by
  unfold Part.minuteEvent
  split
  · exact h
  · split
    · exact Part.minuteEvents_steady h
    · split
      · exact Part.minuteEvents_steady (Part.nextMinute_steady
          (Part.clock_steady h { p.clock with second := 0 } rfl) level room)
      · exact h

theorem Part.setFromUnset_steady (h : p.Steady n late) (minute second : Nat) (level : n ≤ 1) :
    (p.setFromUnset minute second).Steady n late := by
  unfold Part.setFromUnset
  dsimp only
  refine Part.touchActive_steady ?_
  have set : Part.Steady n late { p with
      clock := ⟨true, minute, second, some (dayNumber p.settings.rolloverMinute minute)⟩
      outstanding := { p.outstanding with minute := false } } :=
    Part.outstanding_steady
      (Part.clock_forward h ⟨true, minute, second, some (dayNumber p.settings.rolloverMinute minute)⟩ (by omega) (by omega))
      { p.outstanding with minute := false }
  refine Part.Steady.foldl _ (fun q b _ h => ?_) set
  cases e : (q.bay b).verify with
  | running due =>
    refine Part.modBay_steady h b _ ?_ rfl rfl
    unfold Bay.sight
    rw [e]
  | idle => exact h
  | expired => exact h

theorem Part.stepForward_steady (k : Nat) (h : p.Steady n late) (level : n ≤ 1) : (p.stepForward k).Steady n late := by
  induction k generalizing p with
  | zero => exact h
  | succ k ih => exact ih (Part.minuteEvents_steady (Part.nextMinute_steady h (by omega) (by omega)))

theorem Part.stepClock_steady (h : p.Steady n late) (minute second : Nat) (level : n ≤ 1) :
    (p.stepClock minute second).Steady n late := by
  unfold Part.stepClock
  dsimp only
  refine Part.clock_forward ?_ _ (by omega) (by omega)
  split
  · exact Part.outstanding_steady (Part.clock_forward h { p.clock with minute := minute } (by omega) (by omega)) _
  · split
    · exact h
    · exact Part.stepForward_steady _ (Part.flushMinute_steady h) level

end Sys2Proof.Machine
end

