-- ==== Sys2Proof/Laws/Forms.lean ====
section
/-! SUPPORT. The forms in which the statements name what the model computes: the count of R77 at a minute, the events of a
minute (R24), a forward step of the clock (R21). -/

namespace Sys2Proof.Machine

/-! ## The count of R77 -/

/-- The records of a chain that cover a minute, counted over slots or over records. -/
theorem Part.others_covering (p : Part) (j : BayId) (moving : Option SlotId) (m : Nat) :
    ((p.others j moving).filter (·.covers m)).length =
      ((p.chain j).filter (fun k => moving ≠ some k && p.recordIs (fun r => r.covers m) k)).length := by
  unfold Part.others
  induction p.chain j with
  | nil => rfl
  | cons k l ih =>
    by_cases h : moving = some k
    · simpa [h] using ih
    · cases e : p.record k with
      | none => simpa [h, e, Part.recordIs] using ih
      | some r =>
        by_cases c : r.covers m = true
        · simpa [h, e, Part.recordIs, c] using ih
        · simpa [h, e, Part.recordIs, c] using ih

/-- The count of R77, as the statements write it. -/
theorem Part.overlap_eq_carriedAt (p : Part) (f : FeederId) (moving : Option SlotId) (m : Nat) :
    p.overlap f moving m = p.carriedAt f moving m := by
  unfold Part.overlap Part.feederOthers Part.carriedAt
  rw [List.filter_flatMap, List.length_flatMap]
  refine congrArg List.sum (List.map_congr_left (fun j _ => ?_))
  exact p.others_covering j moving m

/-! ## The events of a minute -/

/-- The choice among due events takes one of them and moves the counter of free orders alone (log 4). -/
theorem Part.chooseDue_cases (p : Part) (l : List Timed) :
    (p.chooseDue l = none ∧ l = []) ∨ ∃ e choices, e ∈ l ∧ p.chooseDue l = some (e, { p with choices := choices }) := by
  match l with
  | [] => exact .inl ⟨rfl, rfl⟩
  | [e] => exact .inr ⟨e, p.choices, List.mem_singleton_self e, rfl⟩
  | e :: x :: es =>
    refine .inr ⟨_, p.choices + 1, ?_, rfl⟩
    have h : Config.freeOrder p.choices % ((x :: es).length + 1) < (e :: x :: es).length := Nat.mod_lt _ (Nat.succ_pos _)
    rw [List.getElem?_eq_getElem h, Option.getD_some]
    exact List.getElem_mem h

/-- Every due event is among the due events of the part. -/
theorem Part.mem_dueEvents (p : Part) {e : Timed} (h : p.isDue e = true) : e ∈ p.dueEvents := by
  refine List.mem_filter.mpr ⟨?_, h⟩
  cases e <;> simp [allTimed, allBays, allPosts, allSlots, allBelow, List.mem_finRange]

/-- The walk of a minute takes due events alone, and ends with none due or out of fuel (R24). -/
theorem Part.takeMinute_takesDue (fuel : Nat) (p : Part) :
    ∃ n, Part.TakesDue n p (p.takeMinute fuel) ∧ (n = fuel ∨ ∀ e, (p.takeMinute fuel).isDue e = false) := by
  induction fuel generalizing p with
  | zero => exact ⟨0, .none p, .inl rfl⟩
  | succ fuel ih =>
    rcases p.chooseDue_cases p.dueEvents with ⟨h, none⟩ | ⟨e, choices, he, h⟩
    · refine ⟨0, ?_, .inr (fun e => ?_)⟩
      · simp only [Part.takeMinute, h]
        exact .none p
      · simp only [Part.takeMinute, h]
        cases d : p.isDue e with
        | false => rfl
        | true => exact absurd (p.mem_dueEvents d) (none ▸ List.not_mem_nil)
    · obtain ⟨n, takes, last⟩ := ih ((({ p with choices := choices }).takeTimed e).finish)
      refine ⟨n + 1, ?_, ?_⟩
      · simp only [Part.takeMinute, h]
        exact .take n p e choices _ (List.mem_filter.mp he).2 takes
      · simp only [Part.takeMinute, h]
        exact last.imp (congrArg (· + 1)) id

/-- The events of a minute, as the statements name them (R19, R23, R24). -/
theorem Part.minuteEvents_takesMinute (p : Part) : p.TakesMinute p.minuteEvents :=
  Part.takeMinute_takesDue Config.minuteFuel _

/-- A forward step of the clock, as the statements name it, below the largest minute (R21). -/
theorem Part.stepForward_passesMinutes (n : Nat) (p : Part) (below : p.clock.minute + n ≤ Config.largestMinute) :
    Part.PassesMinutes n p (p.stepForward n) := by
  induction n generalizing p with
  | zero => exact .none p
  | succ n ih =>
    have next : p.nextMinute = { p with clock := { p.clock with minute := p.clock.minute + 1 } } := by
      unfold Part.nextMinute
      rw [if_pos (by omega)]
    refine .minute n p _ _ (next ▸ p.nextMinute.minuteEvents_takesMinute) (ih _ ?_)
    rw [(Part.minuteEvents_minute _).1, next]
    show p.clock.minute + 1 + n ≤ _
    omega

end Sys2Proof.Machine
end

