-- ==== Sys2Proof/Laws/SteadyRequests.lean ====
section
/-! SUPPORT. What every request and every command keeps of the conditions of the bays (R8) and of the chains (R35): one
lemma for each request, then one for each command. -/

namespace Sys2Proof.Machine

variable {n : Nat} {late : BayId → Prop} {p : Part}

/-! ## Bays, feeders and posts -/

theorem Part.configureBay_steady (h : p.Steady n late) (q : BayConfig) : (p.configureBay q).Steady n late :=
  Part.touchPost_steady (Part.derive_with (Part.modBay_late (h.with q.bay) _ _ (.inr rfl))) _

theorem Part.changeBay_steady (h : p.Steady n late) (q : BayConfig) (configured : (p.bay q.bay).configured = true) :
    (p.changeBay q).Steady n late := by
  unfold Part.changeBay
  dsimp only
  split
  · exact h
  · have stored : ∀ k : Bool, (k = false → (p.bay q.bay).post = q.post ∧ (p.bay q.bay).socket = q.socket) →
        Part.Steady n late (if k then
          (((p.modBay q.bay (fun _ => { (if k then ((p.bay q.bay).configuredAs q).unread else (p.bay q.bay).configuredAs q)
            with notice := true })).derive q.bay).touchPost (p.bay q.bay).post).touchPost q.post
          else p.modBay q.bay (fun _ => { (if k then ((p.bay q.bay).configuredAs q).unread
            else (p.bay q.bay).configuredAs q) with notice := true })) := by
      intro k same
      cases k
      · show (p.modBay q.bay (fun _ => { (p.bay q.bay).configuredAs q with notice := true })).Steady n late
        refine Part.modBay_steady h q.bay _ ?_ rfl ?_
        · show (true, _, _, _) = _
          unfold Bay.sight
          rw [configured]
          rfl
        · exact (same rfl).1.symm
      · exact Part.touchPost_steady (Part.touchPost_steady (Part.derive_with
          (Part.modBay_late (h.with q.bay) _ _ (.inr rfl))) _) _
    have bound := stored (decide ((p.bay q.bay).post ≠ q.post) || decide ((p.bay q.bay).socket ≠ q.socket)) (by
      intro e
      simpa using e)
    split
    · exact Part.recompute_steady bound _
    · exact bound

theorem Part.removeBay_steady (h : p.Steady n late) (b : BayId) : (p.removeBay b).Steady n late :=
  Part.touchPost_steady (Part.derive_with (Part.modBay_late (h.with b) _ _ (.inr rfl))) _

theorem Part.setBayRequest_steady (h : p.Steady n late) (q : BaySetReq) : (p.setBayRequest q).2.Steady n late := by
  unfold Part.setBayRequest
  split
  · exact h
  · next c _ =>
    split
    · exact h
    · dsimp only
      split
      · exact Part.configureBay_steady h c
      · next k => exact Part.changeBay_steady h c k
      · exact Part.removeBay_steady h _
      · exact h

theorem Part.takeOut_steady (h : p.Steady n late) (b : BayId) : (p.takeOut b).Steady n late := by
  have out : ((p.modBay b (fun x => { x with service := .out, notice := true })).deriveWith false b).Steady n late :=
    Part.deriveWith_steady (Part.modBay_late (h.with b) b _ (.inr rfl)) false b (fun _ => id)
  unfold Part.takeOut
  dsimp only
  refine Part.reportBlocked_steady ?_ _ _
  split
  · exact Part.endSession_steady out _ _ (by decide)
  · exact out

theorem Part.takeIn_steady (h : p.Steady n late) (b : BayId) : (p.takeIn b).Steady n late :=
  Part.retryDue_steady (Part.derive_with (Part.modBay_late (h.with b) b _ (.inr rfl)))

theorem Part.bayServiceRequest_steady (h : p.Steady n late) (q : BayServiceReq) :
    (p.bayServiceRequest q).2.Steady n late := by
  unfold Part.bayServiceRequest
  split
  · split
    · exact h
    · split
      · exact h
      · split
        · split
          · exact h
          · exact Part.takeOut_steady h _
        · exact Part.takeIn_steady h _
  · exact h

theorem Part.changeFeeder_steady (h : p.Steady n late) (f : FeederId) (q : FeederSetReq) :
    (p.changeFeeder f q).Steady n late := by
  have stored : (p.modFeeder f (fun _ =>
      if (p.feeder f).configuredAs q = p.feeder f then p.feeder f
      else { (p.feeder f).configuredAs q with notice := true })).Steady n late := Part.modFeeder_steady h f _
  unfold Part.changeFeeder
  dsimp only
  generalize p.modFeeder f _ = u at stored ⊢
  have acted : ∀ a b c : Prop, ∀ (_ : Decidable a) (_ : Decidable b) (_ : Decidable c), Part.Steady n late
      (if a then u.tripFeeder f else if b then u.restore f else if c then u.recompute f else u) := by
    intro a b c _ _ _
    split
    · exact Part.tripFeeder_steady stored f
    · split
      · exact Part.restore_steady stored f
      · split
        · exact Part.recompute_steady stored f
        · exact stored
  exact acted _ _ _ _ _ _

theorem Part.setFeederRequest_steady (h : p.Steady n late) (q : FeederSetReq) :
    (p.setFeederRequest q).2.Steady n late := by
  unfold Part.setFeederRequest
  split
  · exact h
  · next f _ =>
    dsimp only
    split
    · exact h
    · dsimp only
      have retried : ∀ (u : Part) (k : Prop) (_ : Decidable k), u.Steady n late →
          Part.Steady n late (if k then u.retryDue else u) := by
        intro u k _ h
        split
        · exact Part.retryDue_steady h
        · exact h
      refine retried _ _ _ ?_
      split
      · split
        · split
          · exact Part.tripFeeder_steady (Part.modFeeder_steady h f _) f
          · exact Part.recompute_steady (Part.modFeeder_steady h f _) f
        · exact Part.modFeeder_steady h f _
      all_goals
        split
        · exact Part.changeFeeder_steady h f q
        · exact Part.modFeeder_steady h f _

theorem Part.trimRequest_steady (h : p.Steady n late) (q : Nat × Nat) : (p.trimRequest q).2.Steady n late := by
  unfold Part.trimRequest
  split
  · exact h
  · split
    · exact h
    · dsimp only
      split
      · exact h
      · exact Part.recompute_steady (Part.modFeeder_steady h _ _) _

theorem Part.clearFlagsRequest_steady (h : p.Steady n late) (q : Nat × Nat) :
    (p.clearFlagsRequest q).2.Steady n late := by
  unfold Part.clearFlagsRequest
  split
  · dsimp only
    exact Part.modFeeder_steady h _ _
  · exact h

/-- What a withdrawal leaves of the bays of its post (R16). -/
theorem Part.unread_bay (l : List BayId) (p : Part) (b : BayId) :
    (l.foldl (fun p b => p.modBay b Bay.withdrawn) p).bay b = p.bay b ∨
    (b ∈ l ∧ (l.foldl (fun p b => p.modBay b Bay.withdrawn) p).bay b = (p.bay b).withdrawn) := by
  induction l generalizing p with
  | nil => exact .inl rfl
  | cons a l ih =>
    rw [List.foldl_cons]
    have step : (p.modBay a Bay.withdrawn).bay b = if b = a then (p.bay a).withdrawn else p.bay b := Part.bay_setBay p a _ b
    rcases ih (p.modBay a Bay.withdrawn) with e | ⟨m, e⟩ <;> rw [step] at e <;> split at e
    · next k => exact .inr ⟨by simp [k], k ▸ e⟩
    · exact .inl e
    · next k => exact .inr ⟨by simp [k], k ▸ e⟩
    · exact .inr ⟨by simp [m], e⟩

theorem Part.unread_rest (l : List BayId) (p : Part) :
    (l.foldl (fun p b => p.modBay b Bay.withdrawn) p).pool = p.pool ∧
    (l.foldl (fun p b => p.modBay b Bay.withdrawn) p).settings = p.settings ∧
    (l.foldl (fun p b => p.modBay b Bay.withdrawn) p).clock = p.clock ∧
    (l.foldl (fun p b => p.modBay b Bay.withdrawn) p).posts = p.posts := by
  induction l generalizing p with
  | nil => exact ⟨rfl, rfl, rfl, rfl⟩
  | cons a l ih => exact ih (p.modBay a Bay.withdrawn)

theorem Part.withdraw_steady (h : p.Steady n late) (a : PostId) : (p.withdraw a).Steady n late := by
  unfold Part.withdraw
  dsimp only
  refine Part.cut_steady ?_ a
  split
  · refine Part.darken_steady _ ?_
    have wide : Part.Steady n (fun j => late j ∨ j ∈ p.baysOfPost a) p := h.mono (fun _ => .inl)
    have unread : Part.Steady n (fun j => late j ∨ j ∈ p.baysOfPost a)
        ((p.baysOfPost a).foldl (fun p b => p.modBay b Bay.withdrawn) p) :=
      Part.Steady.foldl _ (fun _ b hb h => Part.modBay_late h b _ (.inr hb)) wide
    refine Part.setPost_late unread a _ (fun b hc hp => .inr (Part.mem_baysOfPost.2 ?_))
    rcases p.unread_bay (p.baysOfPost a) b with e | ⟨_, e⟩ <;> rw [e] at hc hp <;> exact ⟨hc, hp⟩
  · next off =>
    have off : (p.post a).serviceable = false := by simpa using off
    obtain ⟨pool, settings, clock, posts⟩ := p.unread_rest (p.baysOfPost a)
    have bay := p.unread_bay (p.baysOfPost a)
    generalize (p.baysOfPost a).foldl (fun p b => p.modBay b Bay.withdrawn) p = u at pool settings clock posts bay
    refine h.of_conditions pool (by show u.settings.guard = _; rw [settings])
      (by show Part.now u = _; rw [Part.now, clock, Part.now]) (fun j _ c => ?_)
    have facts : (u.bay j).condition = (p.bay j).condition ∧ (u.bay j).post = (p.bay j).post ∧
        (u.bay j).configured = (p.bay j).configured ∧ (u.bay j).service = (p.bay j).service := by
      rcases bay j with e | ⟨_, e⟩ <;> rw [e] <;> exact ⟨rfl, rfl, rfl, rfl⟩
    show (u.bay j).condition = _
    rw [facts.1, c]
    have post : ∀ x, u.post x = p.post x := fun x => by unfold Part.post; rw [posts]
    by_cases e : (p.bay j).post = a
    · have dark : p.serviceable j = false := by unfold Part.serviceable; rw [e, off]
      have dark' : Part.serviceable (u.setPost a (p.post a).withdrawn) j = false := by
        unfold Part.serviceable
        rw [Part.setPost_bay, facts.2.1, e, Part.post_setPost, if_pos rfl]
        rfl
      rw [Part.conditionOf_unserviceable dark, Part.conditionOf_unserviceable dark', Part.setPost_bay, facts.2.2.1,
        facts.2.2.2]
    · rcases bay j with same | ⟨mem, _⟩
      · refine (Part.conditionOf_congr (p := p) (q := u.setPost a (p.post a).withdrawn) ?_ ?_ ?_ (fun s _ => ?_)).symm
        · rw [Part.setPost_bay, same]
        · unfold Part.serviceable
          rw [Part.setPost_bay, same, Part.post_setPost, if_neg e, post]
        · show u.pool.chains.get j = p.pool.chains.get j
          rw [pool]
        · show (u.pool.record s).map _ = (p.pool.record s).map _
          rw [pool]
      · exact absurd (Part.mem_baysOfPost.1 mem).2 e

theorem Part.setPostRequest_steady (h : p.Steady n late) (q : Nat × Bool) : (p.setPostRequest q).2.Steady n late := by
  unfold Part.setPostRequest
  split
  · exact h
  · next a _ =>
    split
    · next e =>
      refine Part.setPost_steady h a _ ?_
      unfold Post.serviceable
      rw [e]
      rfl
    · exact h
    · exact h
    · split
      · exact h
      · exact Part.withdraw_steady h a

theorem Part.forceRequest_steady {act : PostId → Part → Option Part} (h : p.Steady n late)
    (acts : ∀ a done, act a p = some done → done.Steady n late) (q : Nat × Nat) : (p.forceRequest act q).2.Steady n late := by
  unfold Part.forceRequest
  split
  · exact h
  · split
    · exact h
    · split
      · exact h
      · split
        · exact h
        · next hd => exact acts _ _ hd

theorem Part.forceReseek_steady (h : p.Steady n late) (a : PostId) (done : Part) (e : p.forceReseek a = some done) :
    done.Steady n late := by
  cases e
  exact Part.cut_steady (Part.reseek_steady h a) a

theorem Part.forceIsolate_steady (h : p.Steady n late) (a : PostId) (done : Part) (e : p.forceIsolate a = some done) :
    done.Steady n late := by
  cases e
  exact Part.cut_steady (Part.isolate_steady h a _) a

theorem Part.forceWake_steady (h : p.Steady n late) (a : PostId) (done : Part) (e : p.forceWake a = some done) :
    done.Steady n late := by
  unfold Part.forceWake at e
  split at e
  · cases e
    exact Part.cut_steady (Part.wakePost_steady h a) a
  · cases e

/-! ## Clock, settings, policy table, resets -/

theorem Part.clockSetRequest_steady (h : p.Steady n late) (q : Nat × Nat) (level : n ≤ 1) :
    (p.clockSetRequest q).2.Steady n late := by
  unfold Part.clockSetRequest
  split
  · exact h
  · split
    · dsimp only
      exact Part.setFromUnset_steady h _ _ level
    · split
      · exact h
      · dsimp only
        exact Part.stepClock_steady h _ _ level

/-- The settings may change; the guard changes with every chain empty alone (R47). -/
theorem Part.settings_steady (h : p.Steady n late) (x : Settings)
    (guard : x.guard = p.settings.guard ∨ ∀ b, p.chain b = []) : Part.Steady n late { p with settings := x } where
  parts := h.parts
  bayed := h.bayed
  current := h.current
  chains k := by
    rcases guard with e | e
    · show p.pool.chainsOrdered x.guard
      rw [e]
      exact h.chains k
    · have o := h.chains k
      refine ⟨fun b => ?_, o.window, o.duration⟩
      rw [show p.pool.chains.get b = [] from e b]
      exact .nil
  started := h.started
  first := h.first
  ahead := h.ahead

theorem Part.leadChanged_steady (h : p.Steady n late) : p.leadChanged.Steady n late := by
  have marked : (p.upcomingSlots.foldl (fun q s => q.modRecord s (fun r =>
      { r with leadTaken := q.reached r.windowStart q.settings.lead })) p).Steady n late :=
    Part.Steady.foldl _ (fun q s _ h => Part.modRecord_steady h s _ (fun _ => rfl) (fun _ => rfl) (fun _ => rfl)
      (fun _ => rfl) (fun _ => rfl) (fun _ => rfl)) h
  unfold Part.leadChanged
  dsimp only
  generalize p.upcomingSlots.foldl _ p = u at marked ⊢
  generalize u.upcomingSlots.filter _ = due
  obtain ⟨k, hk⟩ := u.inFreeOrder_part due
  rw [hk]
  exact Part.retryDue_steady (Part.Steady.foldl _ (fun q s _ h => Part.leadDue_steady h s) (Part.choices_steady marked k))

theorem Part.standbyLeadChanged_steady (h : p.Steady n late) : p.standbyLeadChanged.Steady n late := by
  unfold Part.standbyLeadChanged
  refine Part.touchActive_steady (Part.Steady.foldl _ (fun q s _ h => ?_) h)
  have marked : ∀ k : Bool, (q.modRecord s (fun r => { r with wakeTaken := k })).Steady n late := fun k =>
    Part.modRecord_steady h s _ (fun _ => rfl) (fun _ => rfl) (fun _ => rfl) (fun _ => rfl) (fun _ => rfl) (fun _ => rfl)
  dsimp only
  split
  · split
    · exact Part.wakeBay_steady (marked _) _
    · exact marked _
  · exact marked _

theorem Part.applySettings_steady (h : p.Steady n late) (x : Settings)
    (guard : x.guard = p.settings.guard ∨ ∀ b, p.chain b = []) : (p.applySettings x).Steady n late := by
  have opt : ∀ {k : Prop} {_ : Decidable k} {u : Part} (g : Part → Part), u.Steady n late →
      (∀ v, Part.Steady n late v → Part.Steady n late (g v)) → Part.Steady n late (if k then g u else u) := by
    intro k _ u g hu hg
    split
    · exact hg u hu
    · exact hu
  unfold Part.applySettings
  dsimp only
  refine opt Part.recomputeAll ?_ (fun v h => Part.recomputes_steady _ h)
  refine opt Part.touchActive ?_ (fun v h => Part.touchActive_steady h)
  refine opt Part.standbyLeadChanged ?_ (fun v h => Part.standbyLeadChanged_steady h)
  refine opt Part.leadChanged ?_ (fun v h => Part.leadChanged_steady h)
  exact opt Part.rolloverChanged (Part.settings_steady h x guard) (fun v h => Part.clock_steady h _ rfl)

theorem Part.partSetRequest_steady (h : p.Steady n late) (q : Settings) : (p.partSetRequest q).2.Steady n late := by
  unfold Part.partSetRequest
  split
  · exact h
  · split
    · exact h
    · next k =>
      refine Part.applySettings_steady h q ?_
      by_cases e : q.guard = p.settings.guard
      · exact .inl e
      · refine .inr (fun b => ?_)
        have none : p.someChained = false := by simpa [e] using k
        unfold Part.someChained at none
        have := List.any_eq_false.1 none b (by simp [allBays, allBelow])
        simpa using this

theorem Part.ruleWriteRequest_steady (h : p.Steady n late) (q : RuleWriteReq) :
    (p.ruleWriteRequest q).2.Steady n late := by
  unfold Part.ruleWriteRequest
  split
  · exact h
  · dsimp only
    split
    · exact h
    · exact Part.setRule_steady h _ _

theorem Part.tallyClearRequest_steady (h : p.Steady n late) (k : Nat) : (p.tallyClearRequest k).2.Steady n late := by
  unfold Part.tallyClearRequest
  split
  · exact Part.clearTallies_steady h
  · split
    · exact h
    · exact Part.setRule_steady h _ _

theorem Part.laneSetRequest_steady (h : p.Steady n late) (q : LaneSetReq) : (p.laneSetRequest q).2.Steady n late := by
  unfold Part.laneSetRequest
  split
  · exact h
  · exact h.of_eq rfl rfl rfl rfl rfl

/-- A part without a live record, whose bays are all late. -/
theorem Part.steady_of_empty (parts : p.pool.partitioned) (none : ∀ s, p.record s = none)
    (current : ∀ b, ¬ late b → (p.bay b).condition = p.conditionOf b) : p.Steady n late := by
  have chain : ∀ b, p.pool.chains.get b = [] := by
    intro b
    refine List.eq_nil_iff_forall_not_mem.2 (fun s hs => ?_)
    obtain ⟨r, hr, _⟩ := Pool.record_of_chain parts hs
    exact absurd ((none s).symm.trans hr) (by simp)
  have all : ∀ good, p.allRecords good := fun good s r hr => absurd ((none s).symm.trans hr) (by simp)
  refine ⟨parts, all _, current, fun _ => ⟨fun b => ?_, fun s r hr => ?_, fun s r hr => ?_⟩, fun _ => all _,
    fun _ b s r hs => ?_, fun _ => all _⟩
  · rw [chain b]
    exact .nil
  · exact absurd ((none s).symm.trans hr) (by simp)
  · exact absurd ((none s).symm.trans hr) (by simp)
  · rw [chain b] at hs
    simp at hs

theorem Part.bookReset_steady (p : Part) : p.bookReset.Steady n noBay := by
  unfold Part.bookReset
  dsimp only
  have rebuilt : Part.Steady n (fun j => noBay j ∨ j ∈ allBays) { p with pool := p.pool.rebuild } := by
    have parts := p.pool.partitioned_rebuild
    have none := p.pool.record_rebuild
    generalize p.pool.rebuild = z at parts none
    exact Part.steady_of_empty parts none (fun b hb => absurd (.inr (by simp [allBays, allBelow])) hb)
  generalize ({ p with pool := p.pool.rebuild } : Part) = u at rebuilt ⊢
  have derived : (allBays.foldl Part.derive (allBays.foldl Part.bookBay u)).Steady n noBay := by
    refine Part.derives_steady _ (Part.Steady.foldl _ (fun q b hb h => ?_) rebuilt)
    unfold Part.bookBay
    exact Part.modBay_late h b _ (.inr hb)
  refine Part.touchActive_steady (Part.Steady.foldl _ (fun q r _ h => Part.setRule_steady h r _) ?_)
  exact Part.Steady.foldl _ (fun q f _ h => Part.modFeeder_steady h f _) derived

theorem Part.afterReset_steady (time choices : Nat) (trips : Vector TripInput 8) :
    (Part.afterReset time choices trips).Steady n late := by
  refine Part.steady_of_empty Pool.partitioned_reset (fun s => ?_) (fun b _ => ?_)
  · show Pool.reset.record s = none
    simp [Pool.record, Pool.slot, Pool.reset, Vector.get]
  · have bay : (Part.afterReset time choices trips).bay b = Bay.reset := by
      simp [Part.bay, Part.afterReset, Vector.get]
    rw [Part.conditionOf_unconfigured (by rw [bay]; rfl), bay]
    rfl

/-! ## Records that requests create and change -/

theorem Part.advanceTallies_steady (h : p.Steady n late) (l : List RuleId) : (p.advanceTallies l).Steady n late :=
  Part.Steady.foldl _ (fun _ r _ h => Part.setRule_steady h r _) h

/-- A granted duration is 15 minutes at least (R67). -/
theorem clampDuration_ge (k : Nat) : 15 ≤ clampDuration k := by
  unfold clampDuration Config.longestWindow
  omega

/-- The window that BOOK asks for starts now or later (R68). -/
theorem Part.windowStartOf_ge {q : WindowReq} {start : Nat} (h : p.windowStartOf q = .ok start) : p.now ≤ start := by
  unfold Part.windowStartOf at h
  split at h
  · cases h
  · split at h
    · cases h
      exact Nat.le_refl _
    · split at h
      · cases h
      · next k =>
        cases h
        simp only [Bool.or_eq_true, decide_eq_true_eq, not_or] at k
        omega

theorem Pool.homeOf_free {q : Pool} {s : SlotId} (h : q.record s = none) : q.homeOf s = .free := by
  unfold Pool.homeOf
  rw [h]

/-- A record that is created on a chain: it clears the members of the chain, has started where it says so, and is not
ENGAGED (R69, R110). -/
theorem Part.create_steady {b : BayId} (h : p.Steady n late) (s : SlotId) (free : p.record s = none) {r : Record}
    (up : r.state.upcoming = true) (bay : r.bay = some b) (window : r.windowStart < r.windowEnd)
    (clear : ∀ guard, p.pool.chainsOrdered guard → guard = p.settings.guard → ∀ y ry, y ∈ p.pool.chains.get b →
      p.pool.record y = some ry → ry.windowEnd + guard ≤ r.windowStart ∨ r.windowEnd + guard ≤ ry.windowStart)
    (started : r.started p.now) (later : p.now ≤ r.windowStart) : (p.put s r).Steady n (withBay late b) := by
  have home : r.home = .chain b := Record.home_of_bay (RecState.upcoming_chained up) bay
  have none : p.pool.homeOf s = .free := Pool.homeOf_free free
  have ne : p.pool.homeOf s ≠ r.home := by rw [none, home]; simp
  refine Part.put_steady (h.with b) s ⟨fun _ => by rw [bay]; rfl, fun e => ?_⟩ (.inr (fun j hj => ?_)) (fun _ o => ?_)
    (fun _ => started) (fun k o => ?_) (fun _ _ => by omega)
  · rw [e] at up
    cases up
  · rw [none, home] at hj
    rcases hj with e | e
    · cases e
    · exact .inr (Home.chain.inj e).symm
  · exact Pool.chainsOrdered_joins h.parts o home ne window (clear _ o rfl)
  · refine Pool.engagedFirst_joins h.parts o home ne (fun e => ?_) (fun y ry hy hry e => ?_)
    · rw [e] at up
      cases up
    · exact Nat.le_trans (h.started k y ry hry (.inr (.inr e))) later

/-- The head of the free list names no record (R27). -/
theorem Part.free_record (parts : p.pool.partitioned) {s : SlotId} {l : List SlotId} (h : p.pool.free = s :: l) :
    p.record s = none := Pool.record_of_free parts (by rw [h]; rfl)

theorem Part.bookInRange_steady (h : p.Steady n late) (q : BookReq) (a : Asker) (pinned : Option BayId) :
    (p.bookInRange q a pinned).2.Steady n late := by
  unfold Part.bookInRange
  dsimp only
  split
  · exact h
  · next start hstart =>
    have later := Part.windowStartOf_ge hstart
    have long := clampDuration_ge q.window.duration
    split
    · exact h
    · exact h
    · next m _ =>
      split
      · exact h
      · next s l hs =>
        have free := Part.free_record h.parts hs
        split
        · next b hb =>
          unfold Part.bookPlaced
          dsimp only
          refine Part.advanceTallies_steady (Part.derive_with (Part.armChecks_steady ?_ s)) _
          refine Part.create_steady h s free ?_ rfl ?_ (fun guard _ e y ry hy hry => e ▸ ?_) (fun e => ?_) ?_
          · unfold Part.newRecord
            dsimp only
            split <;> rfl
          · show start < start + clampDuration q.window.duration
            omega
          · exact Part.place_clear hb hy (by simp) hry
          · show start ≤ p.now
            unfold Part.newRecord at e
            dsimp only at e
            split at e
            · simp at e
            · omega
          · exact later
        · unfold Part.bookWaiting
          split
          · exact h
          · split
            · exact h
            · split
              · dsimp only
                refine Part.advanceTallies_steady ?_ _
                refine Part.put_steady h s ⟨fun e => by simp [Part.newRecord, RecState.chained] at e, fun _ => rfl⟩
                  (.inr (fun j hj => ?_)) (fun _ o => ?_) (fun _ e => by simp [Part.newRecord] at e)
                  (fun _ o => Pool.engagedFirst_away o s _ rfl) (fun _ e => by simp [Part.newRecord, RecState.upcoming] at e)
                · rw [Pool.homeOf_free free] at hj
                  simp [Part.newRecord, Record.home] at hj
                · refine Pool.chainsOrdered_away h.parts o s _ rfl (fun _ => ?_)
                  show 1 ≤ clampDuration q.window.duration
                  omega
              · exact h

theorem Part.bookRequest_steady (h : p.Steady n late) (q : BookReq) : (p.bookRequest q).2.Steady n late := by
  unfold Part.bookRequest
  split
  · exact h
  · exact Part.bookInRange_steady h q _ _

theorem Part.findFreeRequest_steady (h : p.Steady n late) (q : AskerReq × WindowReq) :
    (p.findFreeRequest q).2.Steady n late := by
  unfold Part.findFreeRequest
  split
  · exact h
  · dsimp only
    split
    · exact h
    · split <;> exact h

/-- The record after slot `s` on a chain comes before every later record (R81). -/
theorem successorOf_before {R : SlotId → SlotId → Prop} {l : List SlotId} {s y : SlotId} (o : l.Pairwise R)
    (hs : s ∈ l) (hy : y ∈ l) (ne : y ≠ s) (after : ¬ R y s) : ∃ x, successorOf s l = some x ∧ x ∈ l ∧ (x = y ∨ R x y) := by
  induction l with
  | nil => cases hs
  | cons a l ih =>
    obtain ⟨first, rest⟩ := List.pairwise_cons.1 o
    unfold successorOf
    by_cases e : a = s
    · subst e
      rw [if_pos rfl]
      have mem : y ∈ l := (List.mem_cons.1 hy).resolve_left ne
      cases l with
      | nil => cases mem
      | cons x t =>
        refine ⟨x, rfl, by simp, ?_⟩
        rcases List.mem_cons.1 mem with e | e
        · exact .inl e.symm
        · exact .inr ((List.pairwise_cons.1 rest).1 y e)
    · rw [if_neg e]
      have hs' : s ∈ l := (List.mem_cons.1 hs).resolve_left (fun x => e x.symm)
      have hy' : y ∈ l := by
        refine (List.mem_cons.1 hy).resolve_left (fun x => after ?_)
        rw [x]
        exact first s hs'
      obtain ⟨x, hx, mem, hxy⟩ := ih rest hs' hy'
      exact ⟨x, hx, by simp [mem], hxy⟩

theorem Part.extendRequest_steady (h : p.Steady n late) (q : Nat × Nat) : (p.extendRequest q).2.Steady n late := by
  unfold Part.extendRequest
  split
  · exact h
  · split
    · exact h
    · next s r hs =>
      split
      · next b c hb =>
        obtain ⟨hr, live, _⟩ := Part.findLive_some hs
        split
        · exact h
        · split
          · exact h
          · dsimp only
            split
            · exact h
            · next some_ =>
              have home : r.home = .chain b := Record.home_of_bay c hb
              generalize hg : p.grant s r b q.2 = g at some_
              have bound : ∀ k ∈ p.grantLimits s r b q.2, g ≤ k := fun k hk => hg ▸ p.grant_le s r b q.2 k hk
              have state : (r.extended g).state = r.state := rfl
              refine Part.put_steady h s (h.bayed s r hr) (.inl ⟨r, hr, rfl, rfl⟩) (fun k o => ?_) (fun k => h.started k s r hr)
                (fun k o => Pool.engagedFirst_stays o hr rfl (fun e b m => o b s r m hr e)) (fun k u => ?_)
              · refine Pool.chainsOrdered_stays h.parts o hr rfl (fun _ => ?_) (fun w => o.duration s r hr w)
                  (fun b' y ry hb' hy ne hry => ⟨fun a c => ⟨a, c⟩, fun a c => ⟨a, ?_⟩⟩)
                · have := o.window s r hr c
                  show r.windowStart < r.windowEnd + g
                  omega
                · have e : b' = b := Home.chain.inj (hb'.symm.trans home)
                  subst e
                  have mem : s ∈ p.pool.chains.get b' := (Pool.mem_chain h.parts).2 ((Pool.homeOf_record hr).trans home)
                  obtain ⟨x, hx, hxm, hxy⟩ := successorOf_before (o.chain b') mem hy ne (fun k => by
                    have := (k ry r hry hr).1
                    omega)
                  obtain ⟨rx, hrx, _⟩ := Pool.record_of_chain h.parts hxm
                  have limit : g ≤ rx.windowStart - p.settings.guard - r.windowEnd := by
                    refine bound _ ?_
                    unfold Part.grantLimits
                    have hx' : successorOf s (p.chain b') = some x := hx
                    have hrx' : p.record x = some rx := hrx
                    simp [hx', hrx']
                  have before : rx.windowStart ≤ ry.windowStart := by
                    rcases hxy with e | k
                    · subst e
                      rw [Option.some.inj (hrx.symm.trans hry)]
                    · exact Nat.le_of_lt (k rx ry hrx hry).1
                  show r.windowEnd + g + p.settings.guard ≤ ry.windowStart
                  omega
              · have := h.ahead k s r hr u
                show p.now < r.windowEnd + g
                omega
      · exact h

theorem Part.retractRequest_steady (h : p.Steady n late) (k : Nat)
    (retract : 1 ≤ n → p.allRecords Record.retractable) : (p.retractRequest k).2.Steady n late := by
  unfold Part.retractRequest
  split
  · exact h
  · next s r hs =>
    obtain ⟨hr, _, _⟩ := Part.findLive_some hs
    split
    · exact h
    · next x rest hx =>
      split
      · exact h
      · next late_ =>
        dsimp only
        refine Part.retryDue_steady (Part.put_steady h s (h.bayed s r hr) (.inl ⟨r, hr, rfl, rfl⟩) (fun k o => ?_)
          (fun k => h.started k s r hr) (fun k o => Pool.engagedFirst_stays o hr rfl (fun e b m => o b s r m hr e))
          (fun k u => ?_))
        · refine Pool.chainsOrdered_stays h.parts o hr rfl (fun _ => ?_) (fun w => o.duration s r hr w)
            (fun b y ry _ _ _ _ => ⟨fun a c => ⟨a, c⟩, fun a c => ⟨a, ?_⟩⟩)
          · have := retract k s r hr x rest hx
            show r.windowStart < r.windowEnd - x
            omega
          · show r.windowEnd - x + p.settings.guard ≤ ry.windowStart
            omega
        · simp only [Bool.or_eq_true, decide_eq_true_eq, not_or] at late_
          show p.now < r.windowEnd - x
          omega

theorem Part.cancelRequest_steady (h : p.Steady n late) (k : Nat) : (p.cancelRequest k).2.Steady n late := by
  unfold Part.cancelRequest
  split
  · exact h
  · split
    · exact h
    · exact Part.closeRecord_steady h _ _ _ (.inr (by decide))

theorem Part.resGetRequest_steady (h : p.Steady n late) (k : Nat) : (p.resGetRequest k).2.Steady n late := by
  unfold Part.resGetRequest
  split <;> exact h

theorem Part.put_now (p : Part) (s : SlotId) (r : Record) : (p.put s r).now = p.now := by
  unfold Part.now
  rw [Part.put_clock]

/-! ## Arrivals (R103 to R106, R109, R110) -/

/-- A record whose window starts before every other on its chain stands at the head (R35). -/
theorem Pool.head_of_first {q : Pool} {guard : Nat} {b : BayId} (hq : q.partitioned) (o : q.chainsOrdered guard)
    {s : SlotId} {r : Record} (hr : q.record s = some r) (home : r.home = .chain b)
    (least : ∀ y ry, y ∈ q.chains.get b → y ≠ s → q.record y = some ry → r.windowStart < ry.windowStart) (j : BayId) :
    s ∉ (q.chains.get j).tail := by
  intro tail
  have e : j = b := Home.chain.inj (((Pool.mem_chain hq).1 (List.mem_of_mem_tail tail)).symm.trans
    ((Pool.homeOf_record hr).trans home))
  subst e
  cases hl : q.chains.get j with
  | nil => simp [hl] at tail
  | cons a t =>
    rw [hl] at tail
    have mem : a ∈ q.chains.get j := by simp [hl]
    obtain ⟨x, hx, _⟩ := Pool.record_of_chain hq mem
    have ne : a ≠ s := by
      rintro rfl
      have nd := Pool.nodup_members hq (.chain j)
      rw [show q.members (.chain j) = a :: t from hl] at nd
      exact (List.nodup_cons.1 nd).1 tail
    have := least a x mem ne hx
    have := (o.before_tail hl tail hx hr).1
    omega

/-- A record before engagement that has started, at the head of its chain, arrives on its bay (R104, R106, R110). -/
theorem Part.takeArrival_steady {b : BayId} (h : p.Steady n (withBay late b)) (s : SlotId) (cause : LastCause)
    (moved : Bool) {r : Record} (hr : p.record s = some r) (up : r.state.upcoming = true) (hb : r.bay = some b)
    (start : 2 ≤ n → r.windowStart ≤ p.now) (head : 2 ≤ n → ∀ j, s ∉ (p.chain j).tail) :
    (p.takeArrival s b cause moved).Steady n late := by
  have here : ∀ r', p.record s = some r' → r' = r := fun r' hr' => Option.some.inj (hr'.symm.trans hr)
  have home : r.home = .chain b := Record.home_of_bay (RecState.upcoming_chained up) hb
  have waits : (p.modRecord s (fun r => { r.flag cause with state := .arriving })).Steady n (withBay late b) := by
    unfold Part.modRecord
    rw [hr]
    dsimp only
    have home' : Record.home { r.flag cause with state := .arriving } = .chain b := Record.home_of_bay rfl hb
    refine Part.put_steady h s ⟨fun _ => by simp [Record.flag, hb], fun e => by simp at e⟩ (.inr (fun j hj => ?_))
      (fun k o => ?_) (fun k _ => start k) (fun k o => ?_) (fun k _ => h.ahead k s r hr up)
    · rcases hj with e | e
      · rw [Pool.homeOf_record hr, home] at e
        exact .inr (Home.chain.inj e).symm
      · rw [home'] at e
        exact .inr (Home.chain.inj e).symm
    · exact Pool.chainsOrdered_stays h.parts o hr (home.trans home'.symm)
        (fun _ => o.window s r hr (RecState.upcoming_chained up)) (fun e => by simp at e)
        (fun _ y ry _ _ _ _ => ⟨fun a c => ⟨a, c⟩, fun a c => ⟨a, c⟩⟩)
    · exact Pool.engagedFirst_stays o hr (home.trans home'.symm) (fun e => by simp at e)
  unfold Part.takeArrival
  dsimp only
  refine Part.wakeBay_steady (Part.derive_with ?_) b
  split
  · exact Part.engage_steady h s cause (fun r' hr' => here r' hr' ▸ up) (fun k r' hr' => here r' hr' ▸ start k) head
  · split
    · exact Part.armChecks_steady waits s
    · exact waits

theorem Part.arriveOwn_steady (h : p.Steady n late) (s : SlotId) (r : Record) (b : BayId) (hr : p.record s = some r)
    (up : r.state.upcoming = true) (hb : r.bay = some b) (ahead : 1 ≤ n → r.windowEnd > p.now)
    (near : 2 ≤ n → r.windowEnd ≤ p.now + 720) : (p.arriveOwn s r b).2.Steady n late := by
  have c := RecState.upcoming_chained up
  have home : r.home = .chain b := Record.home_of_bay c hb
  unfold Part.arriveOwn
  dsimp only
  split
  · exact h
  · next open_ =>
    have first : p.pool.chains.get b = s :: (p.pool.chains.get b).tail := by
      simp only [Bool.or_eq_true, decide_eq_true_eq, not_or, ne_eq, not_not] at open_
      have := open_.2
      unfold Part.chain at this
      cases hl : p.pool.chains.get b with
      | nil => simp [hl] at this
      | cons a t =>
        rw [hl] at this
        cases this
        rfl
    have least : 1 ≤ n → ∀ y ry, y ∈ p.pool.chains.get b → y ≠ s → p.pool.record y = some ry →
        r.windowStart < ry.windowStart := by
      intro k y ry hy ne hry
      rw [first] at hy
      exact ((h.chains k).before_tail first ((List.mem_cons.1 hy).resolve_left ne) hr hry).1
    split
    · exact h
    · split
      · next early =>
        simp only [Bool.and_eq_true, decide_eq_true_eq] at early
        split
        · dsimp only
          have home' : (r.startingAt b (r.arrivalStart p.now)).home = .chain b := Record.home_of_bay c rfl
          have small : r.arrivalStart p.now < r.windowStart := early.2
          have stored : (p.put s (r.startingAt b (r.arrivalStart p.now))).Steady n late := by
            refine Part.put_steady h s ⟨fun _ => rfl, fun e => ?_⟩ (.inl ⟨r, hr, home.trans home'.symm, rfl⟩) (fun k o => ?_)
              (fun k e => ?_) (fun k o => ?_) (fun k _ => h.ahead k s r hr up)
            · rw [show (r.startingAt b (r.arrivalStart p.now)).state = r.state from rfl] at e
              rw [e] at up
              cases up
            · refine Pool.chainsOrdered_stays h.parts o hr (home.trans home'.symm) (fun _ => ?_) (fun e => ?_)
                (fun j y ry hj hy ne hry => ⟨fun a _ => ?_, fun a c => ⟨Nat.lt_trans small a, c⟩⟩)
              · have := ahead k
                show max p.now (r.windowEnd - 720) < r.windowEnd
                omega
              · rw [show (r.startingAt b (r.arrivalStart p.now)).state = r.state from rfl] at e
                rw [e] at up
                cases up
              · cases Home.chain.inj (home'.symm.trans hj)
                have := least k y ry hy ne hry
                omega
            · simp [Record.startingAt, early.1] at e
            · refine Pool.engagedFirst_stays o hr (home.trans home'.symm) (fun e => ?_)
              rw [show (r.startingAt b (r.arrivalStart p.now)).state = r.state from rfl] at e
              rw [e] at up
              cases up
          refine Part.takeArrival_steady (stored.with b) s _ _ (r := r.startingAt b (r.arrivalStart p.now))
            ((Part.record_put p s _ s).trans (if_pos rfl)) up rfl (fun k => ?_) (fun k => ?_)
          · have := near k
            rw [Part.put_now]
            show max p.now (r.windowEnd - 720) ≤ p.now
            omega
          · refine Pool.head_of_first stored.parts (stored.chains (by omega)) (b := b)
              (r := r.startingAt b (r.arrivalStart p.now)) ?_ home' (fun y ry hy ne hry => ?_)
            · exact (Part.record_put p s _ s).trans (if_pos rfl)
            · have hry' : (p.put s (r.startingAt b (r.arrivalStart p.now))).record y = some ry := hry
              rw [Part.record_put, if_neg ne] at hry'
              have hy' : y ∈ p.pool.chains.get b := by
                refine (Pool.mem_chain h.parts).2 ?_
                have := (Pool.mem_chain stored.parts).1 hy
                rw [Pool.homeOf_record hry] at this
                exact (Pool.homeOf_record hry').trans this
              exact Nat.lt_trans small (least (by omega) y ry hy' ne hry')
        · exact h
      · next other =>
        refine Part.takeArrival_steady (h.with b) s _ _ hr up hb (fun k => ?_) (fun k => ?_)
        · cases hst : r.state
          case booked =>
            simp only [hst, Bool.and_eq_true, decide_eq_true_eq, true_and, decide_true, Nat.not_lt] at other
            have : r.windowStart ≤ max p.now (r.windowEnd - 720) := other
            have := near k
            omega
          case held => exact h.started k s r hr (.inl hst)
          case arriving => exact h.started k s r hr (.inr (.inl hst))
          all_goals simp [hst, RecState.upcoming] at up
        · exact Pool.head_of_first h.parts (h.chains (by omega)) hr home (least (by omega))

theorem Part.arriveOther_steady (h : p.Steady n late) (s : SlotId) (r : Record) (a b : BayId) (ne : a ≠ b)
    (hr : p.record s = some r) (up : r.state.upcoming = true) (ha : r.bay = some a) (ahead : 1 ≤ n → r.windowEnd > p.now)
    (near : 2 ≤ n → r.windowEnd ≤ p.now + 720) : (p.arriveOther s r a b).2.Steady n late := by
  have c := RecState.upcoming_chained up
  have home : r.home = .chain a := Record.home_of_bay c ha
  unfold Part.arriveOther
  split
  · next fit =>
    dsimp only
    have home' : (r.startingAt b (r.arrivalStart p.now)).home = .chain b := Record.home_of_bay c rfl
    have state : (r.startingAt b (r.arrivalStart p.now)).state = r.state := rfl
    have moves : p.pool.homeOf s ≠ (r.startingAt b (r.arrivalStart p.now)).home := by
      rw [Pool.homeOf_record hr, home, home']
      exact fun e => ne (Home.chain.inj e)
    simp only [Part.arrivalFits, Bool.and_eq_true] at fit
    have free := fit.1.1.2
    have clear : ∀ y ry, y ∈ p.pool.chains.get b → p.pool.record y = some ry →
        r.windowEnd + p.settings.guard ≤ ry.windowStart := by
      intro y ry hy hry
      have := List.all_eq_true.1 fit.1.2 ry (List.mem_filterMap.2 ⟨y, List.mem_filter.2 ⟨hy, by simp⟩, hry⟩)
      simpa using this
    have begin_ : 1 ≤ n → r.arrivalStart p.now < r.windowEnd := fun k => by
      have := ahead k
      show max p.now (r.windowEnd - 720) < r.windowEnd
      omega
    have stored : (p.put s (r.startingAt b (r.arrivalStart p.now))).Steady n (withBay (withBay late b) a) := by
      refine Part.put_steady ((h.with b).with a) s ⟨fun _ => rfl, fun e => ?_⟩ (.inr (fun j hj => ?_)) (fun k o => ?_)
        (fun k e => ?_) (fun k o => ?_) (fun k _ => h.ahead k s r hr up)
      · rw [state] at e
        rw [e] at up
        cases up
      · rcases hj with e | e
        · rw [Pool.homeOf_record hr, home] at e
          exact .inr (Home.chain.inj e).symm
        · rw [home'] at e
          exact .inl (.inr (Home.chain.inj e).symm)
      · exact Pool.chainsOrdered_joins h.parts o home' moves (begin_ k) (fun y ry hy hry => .inr (clear y ry hy hry))
      · have := near k
        show max p.now (r.windowEnd - 720) ≤ p.now
        omega
      · refine Pool.engagedFirst_joins h.parts o home' moves (fun e => ?_) (fun y ry hy hry e => ?_)
        · rw [state] at e
          rw [e] at up
          cases up
        · have taken : p.takenBy b = false := by simpa using free
          have := List.any_eq_false.1 taken y hy
          simp [Part.recordIs, show p.record y = some ry from hry, e] at this
    have derived := Part.retryDue_steady (Part.derive_with stored)
    have record : ∀ y, (((p.put s (r.startingAt b (r.arrivalStart p.now))).derive a).retryDue).record y =
        if y = s then some (r.startingAt b (r.arrivalStart p.now)) else p.record y := fun y => by
      rw [Part.retryDue_record, Part.derive_record, Part.record_put]
    refine Part.takeArrival_steady derived s _ _ ((record s).trans (if_pos rfl)) up rfl (fun k => ?_) (fun k => ?_)
    · have := near k
      have now : (((p.put s (r.startingAt b (r.arrivalStart p.now))).derive a).retryDue).now = p.now :=
        (Part.Tidies.now_eq (Part.deriveWith_tidies (linked := false) true _ a)).trans (Part.put_now p s _)
      rw [now]
      show max p.now (r.windowEnd - 720) ≤ p.now
      omega
    · refine Pool.head_of_first derived.parts (derived.chains (by omega)) (b := b)
        (r := r.startingAt b (r.arrivalStart p.now)) ((record s).trans (if_pos rfl)) home' (fun y ry hy ne hry => ?_)
      have hry' : p.pool.record y = some ry := by
        have := record y
        rw [if_neg ne] at this
        exact this.symm.trans hry
      have hy' : y ∈ p.pool.chains.get b := by
        refine (Pool.mem_chain h.parts).2 ?_
        have := (Pool.mem_chain derived.parts).1 hy
        rw [Pool.homeOf_record hry] at this
        exact (Pool.homeOf_record hry').trans this
      have := clear y ry hy' hry'
      have := begin_ (by omega)
      show r.arrivalStart p.now < ry.windowStart
      omega
  · exact h

theorem Part.arriveRequest_steady (h : p.Steady n late) (q : Nat × Nat)
    (ahead : 1 ≤ n → p.allRecords (Record.ahead p.now))
    (near : 2 ≤ n → p.allRecords (Record.arrivesNow p.now p.settings.earlyAllowance)) :
    (p.arriveRequest q).2.Steady n late := by
  unfold Part.arriveRequest
  split
  · exact h
  · split
    · exact h
    · split
      · exact h
      · next s r hs =>
        obtain ⟨hr, _, _⟩ := Part.findLive_some hs
        split
        · next a up ha =>
          split
          · exact h
          · next soon =>
            have soon_ : 2 ≤ n → r.windowStart ≤ p.now + p.settings.earlyAllowance := by
              intro k
              cases hst : r.state
              case booked =>
                simp only [hst, Bool.and_eq_true, decide_eq_true_eq, true_and, decide_true, Nat.not_lt] at soon
                exact soon
              case held => exact Nat.le_trans (h.started k s r hr (.inl hst)) (Nat.le_add_right _ _)
              case arriving => exact Nat.le_trans (h.started k s r hr (.inr (.inl hst))) (Nat.le_add_right _ _)
              all_goals simp [hst, RecState.upcoming] at up
            split
            · next e =>
              exact Part.arriveOwn_steady h s r _ hr up (e ▸ ha) (fun k => ahead k s r hr up)
                (fun k => near k s r hr up (soon_ k))
            · next e =>
              exact Part.arriveOther_steady h s r _ _ e hr up ha (fun k => ahead k s r hr up)
                (fun k => near k s r hr up (soon_ k))
        · exact h

/-- A walk-in that finds 15 minutes ends the guard before the first record on the chain (R110). -/
theorem Part.walkinEnd_clear {b : BayId} {duration : Nat} (parts : p.pool.partitioned) {guard : Nat}
    (o : p.pool.chainsOrdered guard) (e : guard = p.settings.guard) (room : p.now + 15 ≤ p.walkinEnd b duration)
    {y : SlotId} {ry : Record} (hy : y ∈ p.pool.chains.get b) (hry : p.pool.record y = some ry) :
    p.walkinEnd b duration + guard ≤ ry.windowStart := by
  cases hl : p.pool.chains.get b with
  | nil => simp [hl] at hy
  | cons a t =>
    have mem : a ∈ p.pool.chains.get b := by simp [hl]
    obtain ⟨x, hx, _⟩ := Pool.record_of_chain parts mem
    have first : (p.others b none).head? = some x := by
      unfold Part.others
      have hl' : p.chain b = a :: t := hl
      have hx' : p.record a = some x := hx
      rw [hl']
      simp [hx']
    have le : p.walkinEnd b duration ≤ x.windowStart - p.settings.guard := by
      unfold Part.walkinEnd
      simp only [first, Option.map_some, Option.toList_some]
      have : ∀ (l : List Nat) (k d : Nat), k ∈ l → (l.min?.getD d) ≤ k := by
        intro l k d hk
        cases hm : l.min? with
        | none => simp [List.min?_eq_none_iff.1 hm] at hk
        | some m => exact (List.min?_eq_some_iff.1 hm).2 k hk
      exact this _ _ _ (by simp)
    have before : x.windowStart ≤ ry.windowStart := by
      rw [hl] at hy
      rcases List.mem_cons.1 hy with e | e
      · subst e
        rw [Option.some.inj (hx.symm.trans hry)]
      · exact Nat.le_of_lt (o.before_tail hl e hx hry).1
    omega

theorem Part.walkinRequest_steady (h : p.Steady n late) (q : WalkinReq) : (p.walkinRequest q).2.Steady n late := by
  unfold Part.walkinRequest
  split
  · next b a _ _ =>
    split
    · exact h
    · split
      · exact h
      · exact h
      · next m _ =>
        unfold Part.walkinAccepted
        dsimp only
        split
        · exact h
        · split
          · exact h
          · split
            · exact h
            · next room =>
              have room : p.now + 15 ≤ p.walkinEnd b (clampDuration q.duration) := Nat.le_of_not_lt room
              split
              · exact h
              · next s l hs =>
                have free := Part.free_record h.parts hs
                dsimp only
                refine Part.advanceTallies_steady ?_ _
                generalize hn : (NewRecord.mk a m p.now (p.walkinEnd b (clampDuration q.duration)) (clampDuration q.duration)
                  (clampQuota q.quota) (clampRate q.rateCap) none none .walkIn) = w
                have start : (p.newRecord w .arriving (some b)).windowStart = p.now := hn ▸ rfl
                have stop : (p.newRecord w .arriving (some b)).windowEnd = p.walkinEnd b (clampDuration q.duration) :=
                  hn ▸ rfl
                have clear : ∀ guard, p.pool.chainsOrdered guard → guard = p.settings.guard → ∀ y ry,
                    y ∈ p.pool.chains.get b → p.pool.record y = some ry →
                    (p.newRecord w .arriving (some b)).windowEnd + guard ≤ ry.windowStart := fun guard o e y ry hy hry =>
                  stop ▸ Part.walkinEnd_clear h.parts o e room hy hry
                have created : (p.put s (p.newRecord w .arriving (some b))).Steady n (withBay late b) :=
                  Part.create_steady h s free rfl rfl (by omega) (fun guard o e y ry hy hry => .inr (clear guard o e y ry hy hry))
                    (fun _ => by omega) (by omega)
                refine Part.takeArrival_steady created s _ _ ((Part.record_put p s _ s).trans (if_pos rfl)) rfl rfl
                  (fun _ => ?_) (fun k => ?_)
                · rw [Part.put_now]
                  omega
                · have home : (p.newRecord w .arriving (some b)).home = .chain b := Record.home_of_bay rfl rfl
                  refine Pool.head_of_first created.parts (created.chains (by omega)) (b := b)
                    ((Part.record_put p s _ s).trans (if_pos rfl)) home (fun y ry hy ne hry => ?_)
                  have hry' : (p.put s (p.newRecord w .arriving (some b))).record y = some ry := hry
                  rw [Part.record_put, if_neg ne] at hry'
                  have hy' : y ∈ p.pool.chains.get b := by
                    refine (Pool.mem_chain h.parts).2 ?_
                    have := (Pool.mem_chain created.parts).1 hy
                    rw [Pool.homeOf_record hry] at this
                    exact (Pool.homeOf_record hry').trans this
                  have := clear _ (h.chains (by omega)) rfl y ry hy' hry'
                  omega
  · exact h

/-! ## END-SESSION and SESSION-RESUME (R125, R127) -/

theorem Part.endSessionRequest_steady (h : p.Steady n late) (k : Nat) : (p.endSessionRequest k).2.Steady n late := by
  unfold Part.endSessionRequest
  split
  · exact h
  · split
    · exact Part.endSession_steady h _ _ (by decide)
    · exact h

theorem Part.resumeRequest_steady (h : p.Steady n late) (q : Nat × Option Nat) :
    (p.resumeRequest q).2.Steady n late := by
  unfold Part.resumeRequest
  split
  · exact h
  · next s r hs =>
    obtain ⟨hr, _, _⟩ := Part.findLive_some hs
    split
    · split
      · next done hd =>
        dsimp only
        unfold Part.resume at hd
        dsimp only at hd
        split at hd
        · split at hd
          · cases hd
            exact Part.updSession_steady h s _
          · cases hd
        · cases hd
          exact Part.updSession_steady h s _
        · split at hd
          · cases hd
          · split at hd
            · cases hd
            · cases hd
              refine Part.updSession_steady ?_ s _
              exact Part.put_inPlace_steady h s hr rfl rfl rfl rfl rfl (.inl rfl)
        all_goals cases hd
      · exact h
    · exact h

end Sys2Proof.Machine
end

