-- ==== Sys2Proof/Laws/SteadyCommands.lean ====
section
/-! SUPPORT. What every command keeps of the conditions of the bays (R8), of the chains (R35) and of the CLOSE-NOTICE in
transmission (R43). -/

namespace Sys2Proof.Machine

variable {n : Nat} {s t : State}

/-! ## The port's shared operations -/

theorem State.choose_steady (h : s.part.Steady n noBay) : s.choose.part.Steady n noBay := by
  have rule : s.chooseRule.part.Steady n noBay := by
    unfold State.chooseRule
    split
    · exact Part.setRule_steady h _ _
    · exact h
  have bay : s.chooseBay.part.Steady n noBay := by
    unfold State.chooseBay
    split
    · exact Part.modBay_steady h _ (fun x => { x with notice := false }) rfl rfl rfl
    · exact rule
  have feeder : s.chooseFeeder.part.Steady n noBay := by
    unfold State.chooseFeeder
    split
    · exact Part.modFeeder_steady h _ (fun x => { x with notice := false })
    · exact bay
  have post : s.choosePost.part.Steady n noBay := by
    unfold State.choosePost
    split
    · exact Part.modPost_steady h _ (fun x => { x with notice := false }) rfl
    · exact feeder
  have record : s.chooseRecord.part.Steady n noBay := by
    unfold State.chooseRecord
    split
    · exact Part.modRecord_steady h _ (fun r => { r with notice := false }) (fun _ => rfl) (fun _ => rfl) (fun _ => rfl)
        (fun _ => rfl) (fun _ => rfl) (fun _ => rfl)
    · exact post
  unfold State.choose State.chooseClose
  split
  · exact h
  · split
    · exact h
    · exact record

theorem State.kick_steady (h : s.part.Steady n noBay) : s.kick.part.Steady n noBay := by
  unfold State.kick
  split
  · exact h
  · exact State.choose_steady h

/-- A command that ends in its completion. -/
theorem State.done_steady {u : State} (h : u.done = .next t) (hu : u.part.Steady n noBay) : t.part.Steady n noBay := by
  cases h
  exact State.kick_steady (s := { u with part := u.part.finish }) (Part.finish_steady hu)

theorem withObject_steady {k i : Nat} {effect : Fin k → State} (h : withObject k i effect = .next t)
    (he : ∀ x, (effect x).part.Steady n noBay) : t.part.Steady n noBay := by
  unfold withObject at h
  split at h
  · exact State.done_steady h (he _)
  · cases h

theorem State.serveWith_steady {α : Type} (h : s.part.Steady n noBay) (k : Kind) (mine : List Byte → Bool) (rd : Rd α)
    {act : α → State → Answer × State} (acts : ∀ x u, u.part = s.part → (act x u).2.part.Steady n noBay) :
    (s.serveWith k mine rd act).part.Steady n noBay := by
  unfold State.serveWith
  split
  · exact h
  · next f rest _ =>
    dsimp only
    split
    · exact h
    · split
      · exact h
      · next req _ => exact acts req { s with port := { s.port with requests := rest } } rfl

theorem State.serve_steady {α : Type} (h : s.part.Steady n noBay) {k : Kind} {mine : List Byte → Bool} {rd : Rd α}
    {act : α → Part → Answer × Part} (acts : ∀ x, (act x s.part).2.Steady n noBay) :
    (s.serve k mine rd act).part.Steady n noBay :=
  State.serveWith_steady h k mine rd (fun x u e => by
    show (act x u.part).2.Steady n noBay
    rw [e]
    exact acts x)

theorem State.at_steady (h : s.part.Steady n noBay) (time : Nat) : (s.at time).part.Steady n noBay := Part.time_steady h _

theorem State.fullReset_steady : s.fullReset.part.Steady n noBay := Part.afterReset_steady _ _ _

/-- A freed slot whose record is CLOSING leaves every chain and every condition as it was (R43). -/
theorem Part.release_steady {p : Part} (h : p.Steady n noBay) (s : SlotId) {r : Record} (hr : p.record s = some r)
    (closing : r.state = .closing) : Part.Steady n noBay { p with pool := p.pool.release s } := by
  have record : ∀ k x, Part.record { p with pool := p.pool.release s } k = some x → p.record k = some x := by
    intro k x hk
    rw [show Part.record _ k = (p.pool.release s).record k from rfl, Pool.record_release] at hk
    split at hk
    · cases hk
    · exact hk
  have home : p.pool.homeOf s = .closing := by
    rw [Pool.homeOf_record hr]
    unfold Record.home
    rw [closing]
  have chain : ∀ b, (p.pool.release s).chains.get b = p.pool.chains.get b := by
    intro b
    unfold Pool.release
    rw [home]
    rfl
  have all : ∀ {good : Record → Prop}, p.allRecords good → Part.allRecords { p with pool := p.pool.release s } good :=
    fun hp k x hk => hp k x (record k x hk)
  refine ⟨Pool.partitioned_release h.parts s, all h.bayed, fun b hb => ?_, fun k => Pool.chainsOrdered_release (h.chains k) s,
    fun k => all (h.started k), fun k b y x hy hx => ?_, fun k => all (h.ahead k)⟩
  · show (p.bay b).condition = _
    rw [h.current b hb]
    refine (Part.conditionOf_congr (p := p) (q := { p with pool := p.pool.release s }) rfl rfl (chain b) (fun y hy => ?_)).symm
    rw [show Part.record { p with pool := p.pool.release s } y = (p.pool.release s).record y from rfl, Pool.record_release]
    split
    · next e =>
      subst e
      have := (Pool.mem_chain h.parts).1 hy
      rw [home] at this
      cases this
    · rfl
  · have hy : y ∈ ((p.pool.release s).chains.get b).tail := hy
    rw [chain b] at hy
    exact h.first k b y x hy (record y x hx)

theorem State.frameSent_steady (h : s.part.Steady n noBay) (notice : s.noticeSound) : s.frameSent.part.Steady n noBay := by
  unfold State.frameSent
  split
  · exact h
  · next x hx =>
    dsimp only
    split
    · next k hk =>
      obtain ⟨r, hr, closing⟩ := notice x k hx hk
      exact Part.release_steady h k hr closing
    · exact State.fullReset_steady
    all_goals exact h

/-! ## Events of the blocks -/

variable {p : Part}

theorem Part.debounce_steady (h : p.Steady n noBay) (f : FeederId) : (p.debounce f).Steady n noBay := by
  have trip : ∀ x, (p.setTrip f x).Steady n noBay := fun x => h.of_eq rfl rfl rfl rfl rfl
  unfold Part.debounce
  dsimp only
  split
  · split
    · exact Part.levelChanged_steady (trip _) f _
    · exact h
  · exact h

theorem Part.recovered_steady (h : p.Steady n noBay) (f : FeederId) : (p.recovered f).Steady n noBay := by
  unfold Part.recovered
  split
  · split
    · exact Part.restore_steady h f
    · exact h
  · exact h

theorem Part.settleExpired_steady (h : p.Steady n noBay) (s : SlotId) (level : n ≠ 2) :
    (p.settleExpired s).Steady n noBay := by
  unfold Part.settleExpired
  split
  · split
    · exact Part.closeRecord_steady h s _ _ (.inl level)
    · exact h
  · exact h

theorem Part.startRound_steady (h : p.Steady n noBay) : p.startRound.Steady n noBay := by
  unfold Part.startRound
  split
  · exact h.of_eq rfl rfl rfl rfl rfl
  · exact h

theorem Part.commandSent_steady (h : p.Steady n noBay) : p.commandSent.Steady n noBay := by
  unfold Part.commandSent
  split
  · split
    · exact Part.link_steady h _
    · exact h
  · exact h

theorem Part.replyReceived_steady (h : p.Steady n noBay) (bytes : List Byte) (level : n ≠ 2) :
    (p.replyReceived bytes).Steady n noBay := by
  unfold Part.replyReceived
  split
  · exact h
  · split
    · split
      · exact Part.endExchange_steady (Part.takeReply_steady h _ _ level) _
      · exact h
    · exact h

theorem Part.replyMissed_steady (h : p.Steady n noBay) : p.replyMissed.Steady n noBay := by
  unfold Part.replyMissed
  split
  · exact h
  · split
    · split
      · exact Part.endExchange_steady (Part.takeMiss_steady h _) _
      · exact h
    · exact h

theorem Part.quotaEvent_steady (h : p.Steady n noBay) (s : SlotId) : (p.quotaEvent s).Steady n noBay := by
  unfold Part.quotaEvent
  split
  · exact h
  · split
    · split
      · exact Part.meterSlot_steady h s
      · exact h
    · exact h

theorem Part.satisfiedEvent_steady (h : p.Steady n noBay) (s : SlotId) : (p.satisfiedEvent s).Steady n noBay := by
  unfold Part.satisfiedEvent
  split
  · exact h
  · split
    · split
      · exact Part.checkSlot_steady h s
      · exact h
    · exact h

/-! ## Every command -/

/-- What a level asks of a command: TICK and MINUTE_EVENT move now forward, CLOCK-SET anywhere, and ARRIVE and RETRACT
move a start or an end of a window (R21, R84, R103). -/
structure Part.Admits (n : Nat) (p : Part) (c : Instr) : Prop where
  minute : (∃ k, c = .tick k) ∨ c = .minuteEvent → n ≤ 2 ∧ (n = 2 → p.clock.minute < 4294967295)
  others : ¬ ((∃ k, c = .tick k) ∨ c = .minuteEvent) → n ≠ 2
  set : c = .clockSet → n ≤ 1
  arrive : c = .arrive → 1 ≤ n → p.allRecords (Record.ahead p.now)
  near : c = .arrive → 2 ≤ n → p.allRecords (Record.arrivesNow p.now p.settings.earlyAllowance)
  retract : c = .retract → 1 ≤ n → p.allRecords Record.retractable

/-- Every command keeps a steady part. -/
theorem exec_steady {c : Instr} (e : exec c s = .next t) (h : s.part.Steady n noBay) (notice : s.noticeSound)
    (level : s.part.Admits n c) : t.part.Steady n noBay := by
  have at_ : ∀ (time : Nat) (g : Part → Part), (∀ p, Part.Steady n noBay p → (g p).Steady n noBay) →
      Part.Steady n noBay ((s.at time).onPart g).part := fun time g hg => hg _ (State.at_steady h time)
  cases c with
  | powerOn => cases e; exact State.fullReset_steady
  | rstN => cases e; exact State.fullReset_steady
  | fullReset =>
    simp only [exec, execFullReset] at e
    split at e
    · split at e
      · cases e; exact State.fullReset_steady
      · cases e; exact h
    · cases e; exact h
  | resetPartBook =>
    refine State.done_steady e (State.serveWith_steady h _ _ _ (fun x u hu => ?_))
    unfold State.resetBookRequest
    split
    · dsimp only
      exact Part.bookReset_steady _
    · exact hu ▸ h
  | resetPartFull =>
    refine State.done_steady e (State.serveWith_steady h _ _ _ (fun x u hu => ?_))
    unfold State.resetFullRequest
    split <;> exact hu ▸ h
  | frameReceived tag kind payload =>
    simp only [exec, execFrameReceived] at e
    split at e
    · exact State.done_steady e h
    · cases e
  | frameGapTimeout time =>
    simp only [exec, execFrameGapTimeout] at e
    split at e
    · exact State.done_steady e (State.at_steady h time)
    · exact State.done_steady e (State.at_steady h time)
  | receivedByte b time =>
    simp only [exec, execReceivedByte] at e
    split at e
    · exact State.done_steady e (State.at_steady h time)
    · exact State.done_steady e (State.at_steady h time)
  | unknownKind =>
    simp only [exec, execUnknownKind] at e
    split at e
    · exact State.done_steady e h
    · split at e
      · exact State.done_steady e h
      · exact State.done_steady e h
  | frameSent => exact State.done_steady e (State.frameSent_steady h notice)
  | identify => exact State.done_steady e (State.serve_steady h (fun _ => h))
  | status =>
    exact State.done_steady e (State.serveWith_steady h _ _ _ (fun _ u hu => (hu ▸ h : u.part.Steady n noBay)))
  | clockSet =>
    exact State.done_steady e (State.serve_steady h (fun q => Part.clockSetRequest_steady h q (level.set rfl)))
  | clockGet => exact State.done_steady e (State.serve_steady h (fun _ => h))
  | partSet => exact State.done_steady e (State.serve_steady h (Part.partSetRequest_steady h))
  | partGet => exact State.done_steady e (State.serve_steady h (fun _ => h))
  | baySet => exact State.done_steady e (State.serve_steady h (Part.setBayRequest_steady h))
  | bayRemove => exact State.done_steady e (State.serve_steady h (Part.setBayRequest_steady h))
  | bayGet =>
    refine State.done_steady e (State.serve_steady h (fun k => ?_))
    unfold Part.getBayRequest
    split <;> exact h
  | bayServiceOut => exact State.done_steady e (State.serve_steady h (Part.bayServiceRequest_steady h))
  | bayServiceIn => exact State.done_steady e (State.serve_steady h (Part.bayServiceRequest_steady h))
  | feederSet => exact State.done_steady e (State.serve_steady h (Part.setFeederRequest_steady h))
  | feederGet =>
    refine State.done_steady e (State.serve_steady h (fun k => ?_))
    unfold Part.getFeederRequest
    split <;> exact h
  | feederTrim => exact State.done_steady e (State.serve_steady h (Part.trimRequest_steady h))
  | feederClear => exact State.done_steady e (State.serve_steady h (Part.clearFlagsRequest_steady h))
  | postSetInUse => exact State.done_steady e (State.serve_steady h (Part.setPostRequest_steady h))
  | postSetWithdraw => exact State.done_steady e (State.serve_steady h (Part.setPostRequest_steady h))
  | postGet =>
    refine State.done_steady e (State.serve_steady h (fun k => ?_))
    unfold Part.getPostRequest
    split <;> exact h
  | postForceReseek =>
    exact State.done_steady e (State.serve_steady h (Part.forceRequest_steady h (Part.forceReseek_steady h)))
  | postForceIsolate =>
    exact State.done_steady e (State.serve_steady h (Part.forceRequest_steady h (Part.forceIsolate_steady h)))
  | postForceWake =>
    exact State.done_steady e (State.serve_steady h (Part.forceRequest_steady h (Part.forceWake_steady h)))
  | ruleWrite => exact State.done_steady e (State.serve_steady h (Part.ruleWriteRequest_steady h))
  | ruleRead =>
    refine State.done_steady e (State.serve_steady h (fun k => ?_))
    unfold Part.ruleReadRequest
    split <;> exact h
  | tallyClear => exact State.done_steady e (State.serve_steady h (Part.tallyClearRequest_steady h))
  | laneSet => exact State.done_steady e (State.serve_steady h (Part.laneSetRequest_steady h))
  | laneGet =>
    refine State.done_steady e (State.serve_steady h (fun k => ?_))
    unfold Part.laneGetRequest
    split <;> exact h
  | book => exact State.done_steady e (State.serve_steady h (Part.bookRequest_steady h))
  | findFree => exact State.done_steady e (State.serve_steady h (Part.findFreeRequest_steady h))
  | extend => exact State.done_steady e (State.serve_steady h (Part.extendRequest_steady h))
  | retract =>
    exact State.done_steady e (State.serve_steady h (fun q => Part.retractRequest_steady h q (level.retract rfl)))
  | cancel => exact State.done_steady e (State.serve_steady h (Part.cancelRequest_steady h))
  | resGet => exact State.done_steady e (State.serve_steady h (Part.resGetRequest_steady h))
  | waitListGet => exact State.done_steady e (State.serve_steady h (fun _ => h))
  | arrive =>
    exact State.done_steady e (State.serve_steady h (fun q => Part.arriveRequest_steady h q (level.arrive rfl) (level.near rfl)))
  | arriveWalkin => exact State.done_steady e (State.serve_steady h (Part.walkinRequest_steady h))
  | endSession => exact State.done_steady e (State.serve_steady h (Part.endSessionRequest_steady h))
  | sessionResume => exact State.done_steady e (State.serve_steady h (Part.resumeRequest_steady h))
  | tick time =>
    exact State.done_steady e (Part.tick_steady (State.at_steady h time) (level.minute (.inl ⟨_, rfl⟩)).1 (level.minute (.inl ⟨_, rfl⟩)).2)
  | minuteEvent =>
    exact State.done_steady e (Part.minuteEvent_steady h (level.minute (.inr rfl)).1 (level.minute (.inr rfl)).2)
  | sessionTick => exact State.done_steady e (Part.sessionTick_steady h)
  | quotaMet slot => exact withObject_steady e (fun x => Part.quotaEvent_steady h x)
  | satisfied slot => exact withObject_steady e (fun x => Part.satisfiedEvent_steady h x)
  | shareTick => exact State.done_steady e (Part.shareTick_steady h)
  | overdrawPenalty feeder =>
    refine withObject_steady e (fun x => ?_)
    show Part.Steady n noBay (if s.part.overdrawNext x ≥ Config.overdrawTicks then s.part.penalize x else s.part)
    split
    · exact Part.penalize_steady h x
    · exact h
  | penaltyEnd bay =>
    refine withObject_steady e (fun x => ?_)
    show Part.Steady n noBay (if (s.part.bay x).penalty = 1 then s.part.countDown x else s.part)
    split
    · exact Part.countDown_steady h x
    · exact h
  | recompute feeder => exact withObject_steady e (fun x => Part.recompute_steady h x)
  | leadCheck slot => exact withObject_steady e (fun x => Part.timedEvent_steady h _)
  | wakeCheck slot => exact withObject_steady e (fun x => Part.timedEvent_steady h _)
  | windowStart slot => exact withObject_steady e (fun x => Part.timedEvent_steady h _)
  | graceEnd slot => exact withObject_steady e (fun x => Part.timedEvent_steady h _)
  | windowEnd slot => exact withObject_steady e (fun x => Part.timedEvent_steady h _)
  | waitingDeadline slot => exact withObject_steady e (fun x => Part.timedEvent_steady h _)
  | verifyExpiry bay => exact withObject_steady e (fun x => Part.timedEvent_steady h _)
  | idleTimer post => exact withObject_steady e (fun x => Part.timedEvent_steady h _)
  | rollover => exact State.done_steady e (Part.timedEvent_steady h _)
  | tripInputChange pin low time =>
    exact withObject_steady e (fun x => at_ time (fun p => p.pinChanged x low) (fun p h => h.of_eq rfl rfl rfl rfl rfl))
  | debounce pin time => exact withObject_steady e (fun x => at_ time _ (fun p h => Part.debounce_steady h x))
  | recoveryTimer feeder time =>
    exact withObject_steady e (fun x => at_ time _ (fun p h => Part.recovered_steady h x))
  | settleTimer slot time =>
    exact withObject_steady e (fun x => at_ time _ (fun p h => Part.settleExpired_steady h x (level.others (by simp))))
  | roundStart time => exact State.done_steady e (at_ time _ (fun p h => Part.startRound_steady h))
  | commandSent time => exact State.done_steady e (at_ time _ (fun p h => Part.commandSent_steady h))
  | reply bytes time =>
    simp only [exec, execReply] at e
    split at e
    · exact State.done_steady e (at_ time _ (fun p h => Part.replyReceived_steady h bytes (level.others (by simp))))
    · cases e
  | replyGap bytes time =>
    simp only [exec, execReplyGap] at e
    split at e
    · exact State.done_steady e (State.at_steady h time)
    · cases e
  | miss time => exact State.done_steady e (at_ time _ (fun p h => Part.replyMissed_steady h))
  | prepareLimit post time =>
    exact withObject_steady e (fun x => at_ time _ (fun p h => Part.prepareLimit_steady h x))
  | wakeLimit post time => exact withObject_steady e (fun x => at_ time _ (fun p h => Part.wakeLimit_steady h x))

/-! ## The CLOSE-NOTICE in transmission (R43) -/

/-- The completion leaves the frame in transmission as it is, or begins a frame that is sound (R171). -/
theorem State.complete_sending (u : State) (parts : u.complete.part.pool.partitioned) :
    (u.complete.port.sending = u.port.sending) ∨ ∀ x k, u.complete.port.sending = some x → x.what = .closeNotice (some k) →
      ∃ r, u.complete.part.record k = some r ∧ r.state = .closing := by
  have rule : ∀ v : State, v.port.sending = none → ∀ x k, v.chooseRule.port.sending = some x →
      x.what ≠ .closeNotice (some k) := by
    intro v hv x k hx
    unfold State.chooseRule at hx
    split at hx
    · cases hx
      simp [noticeFrame]
    · simp [hv] at hx
  have bay : ∀ v : State, v.port.sending = none → ∀ x k, v.chooseBay.port.sending = some x →
      x.what ≠ .closeNotice (some k) := by
    intro v hv x k hx
    unfold State.chooseBay at hx
    split at hx
    · cases hx
      simp [noticeFrame]
    · exact rule v hv x k hx
  have feeder : ∀ v : State, v.port.sending = none → ∀ x k, v.chooseFeeder.port.sending = some x →
      x.what ≠ .closeNotice (some k) := by
    intro v hv x k hx
    unfold State.chooseFeeder at hx
    split at hx
    · cases hx
      simp [noticeFrame]
    · exact bay v hv x k hx
  have post : ∀ v : State, v.port.sending = none → ∀ x k, v.choosePost.port.sending = some x →
      x.what ≠ .closeNotice (some k) := by
    intro v hv x k hx
    unfold State.choosePost at hx
    split at hx
    · cases hx
      simp [noticeFrame]
    · exact feeder v hv x k hx
  have record : ∀ v : State, v.port.sending = none → ∀ x k, v.chooseRecord.port.sending = some x →
      x.what ≠ .closeNotice (some k) := by
    intro v hv x k hx
    unfold State.chooseRecord at hx
    split at hx
    · cases hx
      simp [noticeFrame]
    · exact post v hv x k hx
  have chosen : ∀ v : State, v.port.sending = none → v.choose.part.pool.partitioned → ∀ x k,
      v.choose.port.sending = some x → x.what = .closeNotice (some k) →
      ∃ r, v.choose.part.record k = some r ∧ r.state = .closing := by
    intro v idle parts x k hx hk
    cases hr : v.port.replies with
    | cons r rest =>
      have e : v.choose = { v with port := { v.port with
          replies := rest, sending := some ⟨r.frame, if r.resets then .resetReply else .reply⟩ } } := by
        unfold State.choose
        rw [hr]
      rw [e] at hx
      cases hx
      dsimp only at hk
      split at hk <;> cases hk
    | nil =>
      have e : v.choose = v.chooseClose := by
        unfold State.choose
        rw [hr]
      rw [e] at parts hx ⊢
      cases hl : v.part.pool.closing with
      | cons a l =>
        have e : v.chooseClose = v.begin ⟨⟨0, closeNotice, v.part.closePayload a⟩, .closeNotice (some a)⟩ := by
          unfold State.chooseClose
          rw [hl]
        rw [e] at parts hx ⊢
        cases hx
        cases hk
        have home := (Pool.mem_members (q := v.part.pool) parts (h := .closing)).1
          (show _ ∈ v.part.pool.closing by rw [hl]; exact List.mem_cons_self)
        cases ha : v.part.pool.record k with
        | none =>
          rw [Pool.homeOf_free ha] at home
          cases home
        | some r =>
          rw [Pool.homeOf_record ha] at home
          refine ⟨r, ha, ?_⟩
          unfold Record.home at home
          cases hs : r.state <;> simp [hs] at home ⊢
      | nil =>
        have e : v.chooseClose = v.chooseRecord := by
          unfold State.chooseClose
          rw [hl]
        rw [e] at hx
        exact absurd hk (record v idle x k hx)
  cases hs : u.port.sending with
  | some y =>
    left
    unfold State.complete State.kick
    rw [show ({ u with part := u.part.finish } : State).port.sending = some y from hs]
    exact hs
  | none =>
    right
    have e : u.complete = ({ u with part := u.part.finish } : State).choose := by
      unfold State.complete State.kick
      rw [show ({ u with part := u.part.finish } : State).port.sending = none from hs]
    rw [e] at parts ⊢
    exact chosen _ hs parts

theorem State.done_sending {u : State} (h : u.done = .next t) (hu : u.port.sending = s.port.sending) :
    ∃ v : State, t = v.complete ∧ v.port.sending = s.port.sending := by
  cases h
  exact ⟨u, rfl, hu⟩

theorem withObject_sending {k i : Nat} {effect : Fin k → State} (h : withObject k i effect = .next t)
    (he : ∀ x, (effect x).port.sending = s.port.sending) : ∃ v : State, t = v.complete ∧ v.port.sending = s.port.sending := by
  unfold withObject at h
  split at h
  · exact State.done_sending h (he _)
  · cases h

theorem State.serveWith_sending {α : Type} (k : Kind) (mine : List Byte → Bool) (rd : Rd α)
    {act : α → State → Answer × State} (acts : ∀ x u, (act x u).2.port.sending = u.port.sending) :
    (s.serveWith k mine rd act).port.sending = s.port.sending := by
  unfold State.serveWith
  split
  · rfl
  · dsimp only
    split
    · rfl
    · split
      · rfl
      · next req _ => exact acts req _

theorem State.serve_sending {α : Type} (k : Kind) (mine : List Byte → Bool) (rd : Rd α) (act : α → Part → Answer × Part) :
    (s.serve k mine rd act).port.sending = s.port.sending := State.serveWith_sending k mine rd (fun _ _ => rfl)

/-- A command that frees no slot leaves the frame in transmission to its completion. -/
theorem exec_sending {c : Instr} (e : exec c s = .next t) (keeps : mayFree c = false) :
    ∃ u : State, t = u.complete ∧ u.port.sending = s.port.sending := by
  cases c with
  | powerOn => cases keeps
  | rstN => cases keeps
  | fullReset => cases keeps
  | resetPartBook => cases keeps
  | resetPartFull =>
    refine State.done_sending e (State.serveWith_sending _ _ _ (fun x u => ?_))
    unfold State.resetFullRequest
    split <;> rfl
  | frameReceived tag kind payload =>
    simp only [exec, execFrameReceived] at e
    split at e
    · refine State.done_sending e ?_
      unfold Port.acceptFrame
      dsimp only
      split
      · rfl
      · split <;> rfl
    · cases e
  | frameGapTimeout time =>
    simp only [exec, execFrameGapTimeout] at e
    split at e
    · exact State.done_sending e rfl
    · exact State.done_sending e rfl
  | receivedByte b time =>
    simp only [exec, execReceivedByte] at e
    split at e
    · refine State.done_sending e ?_
      unfold Port.acceptFrame
      dsimp only
      split
      · rfl
      · split <;> rfl
    · exact State.done_sending e rfl
  | unknownKind =>
    simp only [exec, execUnknownKind] at e
    split at e
    · exact State.done_sending e rfl
    · split at e
      · exact State.done_sending e rfl
      · exact State.done_sending e rfl
  | frameSent => cases keeps
  | identify => exact State.done_sending e (State.serve_sending _ _ _ _)
  | status => exact State.done_sending e (State.serveWith_sending _ _ _ (fun _ _ => rfl))
  | clockSet => exact State.done_sending e (State.serve_sending _ _ _ _)
  | clockGet => exact State.done_sending e (State.serve_sending _ _ _ _)
  | partSet => exact State.done_sending e (State.serve_sending _ _ _ _)
  | partGet => exact State.done_sending e (State.serve_sending _ _ _ _)
  | baySet => exact State.done_sending e (State.serve_sending _ _ _ _)
  | bayRemove => exact State.done_sending e (State.serve_sending _ _ _ _)
  | bayGet => exact State.done_sending e (State.serve_sending _ _ _ _)
  | bayServiceOut => exact State.done_sending e (State.serve_sending _ _ _ _)
  | bayServiceIn => exact State.done_sending e (State.serve_sending _ _ _ _)
  | feederSet => exact State.done_sending e (State.serve_sending _ _ _ _)
  | feederGet => exact State.done_sending e (State.serve_sending _ _ _ _)
  | feederTrim => exact State.done_sending e (State.serve_sending _ _ _ _)
  | feederClear => exact State.done_sending e (State.serve_sending _ _ _ _)
  | postSetInUse => exact State.done_sending e (State.serve_sending _ _ _ _)
  | postSetWithdraw => exact State.done_sending e (State.serve_sending _ _ _ _)
  | postGet => exact State.done_sending e (State.serve_sending _ _ _ _)
  | postForceReseek => exact State.done_sending e (State.serve_sending _ _ _ _)
  | postForceIsolate => exact State.done_sending e (State.serve_sending _ _ _ _)
  | postForceWake => exact State.done_sending e (State.serve_sending _ _ _ _)
  | ruleWrite => exact State.done_sending e (State.serve_sending _ _ _ _)
  | ruleRead => exact State.done_sending e (State.serve_sending _ _ _ _)
  | tallyClear => exact State.done_sending e (State.serve_sending _ _ _ _)
  | laneSet => exact State.done_sending e (State.serve_sending _ _ _ _)
  | laneGet => exact State.done_sending e (State.serve_sending _ _ _ _)
  | book => exact State.done_sending e (State.serve_sending _ _ _ _)
  | findFree => exact State.done_sending e (State.serve_sending _ _ _ _)
  | extend => exact State.done_sending e (State.serve_sending _ _ _ _)
  | retract => exact State.done_sending e (State.serve_sending _ _ _ _)
  | cancel => exact State.done_sending e (State.serve_sending _ _ _ _)
  | resGet => exact State.done_sending e (State.serve_sending _ _ _ _)
  | waitListGet => exact State.done_sending e (State.serve_sending _ _ _ _)
  | arrive => exact State.done_sending e (State.serve_sending _ _ _ _)
  | arriveWalkin => exact State.done_sending e (State.serve_sending _ _ _ _)
  | endSession => exact State.done_sending e (State.serve_sending _ _ _ _)
  | sessionResume => exact State.done_sending e (State.serve_sending _ _ _ _)
  | tick time => exact State.done_sending e rfl
  | minuteEvent => exact State.done_sending e rfl
  | sessionTick => exact State.done_sending e rfl
  | quotaMet slot => exact withObject_sending e (fun _ => rfl)
  | satisfied slot => exact withObject_sending e (fun _ => rfl)
  | shareTick => exact State.done_sending e rfl
  | overdrawPenalty feeder => exact withObject_sending e (fun _ => rfl)
  | penaltyEnd bay => exact withObject_sending e (fun _ => rfl)
  | recompute feeder => exact withObject_sending e (fun _ => rfl)
  | leadCheck slot => exact withObject_sending e (fun _ => rfl)
  | wakeCheck slot => exact withObject_sending e (fun _ => rfl)
  | windowStart slot => exact withObject_sending e (fun _ => rfl)
  | graceEnd slot => exact withObject_sending e (fun _ => rfl)
  | windowEnd slot => exact withObject_sending e (fun _ => rfl)
  | waitingDeadline slot => exact withObject_sending e (fun _ => rfl)
  | verifyExpiry bay => exact withObject_sending e (fun _ => rfl)
  | idleTimer post => exact withObject_sending e (fun _ => rfl)
  | rollover => exact State.done_sending e rfl
  | tripInputChange pin low time => exact withObject_sending e (fun _ => rfl)
  | debounce pin time => exact withObject_sending e (fun _ => rfl)
  | recoveryTimer feeder time => exact withObject_sending e (fun _ => rfl)
  | settleTimer slot time => exact withObject_sending e (fun _ => rfl)
  | roundStart time => exact State.done_sending e rfl
  | commandSent time => exact State.done_sending e rfl
  | reply bytes time =>
    simp only [exec, execReply] at e
    split at e
    · exact State.done_sending e rfl
    · cases e
  | replyGap bytes time =>
    simp only [exec, execReplyGap] at e
    split at e
    · exact State.done_sending e rfl
    · cases e
  | miss time => exact State.done_sending e rfl
  | prepareLimit post time => exact withObject_sending e (fun _ => rfl)
  | wakeLimit post time => exact withObject_sending e (fun _ => rfl)

/-- A slot whose record is CLOSING stays so while no slot is freed (R41, R43). -/
theorem Part.Edits.closing {p q : Part} (h : Part.Edits false p q) (parts : p.pool.partitioned) {k : SlotId}
    (hk : ∃ r, p.record k = some r ∧ r.state = .closing) : ∃ r, q.record k = some r ∧ r.state = .closing := by
  induction h with
  | moves h =>
    obtain ⟨r, hr, e⟩ := hk
    obtain ⟨r', hr', e', _⟩ := h.closed k r hr e
    exact ⟨r', hr', e'⟩
  | trans h1 _ i1 i2 => exact i2 (h1.partitioned parts) (i1 parts hk)
  | create p s r hs _ _ =>
    obtain ⟨x, hx, e⟩ := hk
    refine ⟨x, ?_, e⟩
    have ne : k ≠ s := by
      rintro rfl
      exact absurd ((Pool.record_of_free parts hs).symm.trans hx) (by simp)
    exact (Pool.record_put_ne p.pool r ne).trans hx
  | release p s h => cases h
  | rebuild p h => cases h
  | reset p _ _ _ h => cases h
  | _ => exact hk

/-- Every command keeps the CLOSE-NOTICE in transmission sound (R43, R49). -/
theorem exec_noticeSound {c : Instr} (e : exec c s = .next t) (parts : s.part.pool.partitioned) (notice : s.noticeSound) :
    t.noticeSound := by
  have parts' : t.part.pool.partitioned := (exec_edits e).partitioned parts
  have reset : ∀ v : State, State.noticeSound v.fullReset := fun v x k hx => by cases hx
  have complete : ∀ u : State, t = u.complete → u.noticeSound → t.noticeSound := by
    rintro u rfl sound x k hx hk
    rcases u.complete_sending parts' with same | begun
    · rw [same] at hx
      obtain ⟨r, hr, closing⟩ := sound x k hx hk
      obtain ⟨r', hr', closing', _⟩ := (State.complete_moves (timed := true) u).closed k r hr closing
      exact ⟨r', hr', closing'⟩
    · exact begun x k hx hk
  cases hf : mayFree c with
  | false =>
    obtain ⟨u, rfl, sending⟩ := exec_sending e hf
    have edits := exec_edits e
    rw [hf] at edits
    intro x k hx hk
    rcases u.complete_sending parts' with same | sound
    · rw [same, sending] at hx
      exact edits.closing parts (notice x k hx hk)
    · exact sound x k hx hk
  | true =>
    cases c <;> first | exact absurd (show false = true from hf) (by decide) | skip
    case powerOn => cases e; exact reset s
    case rstN => cases e; exact reset s
    case fullReset =>
      simp only [exec, execFullReset] at e
      split at e
      · split at e
        · cases e; exact reset s
        · cases e; exact notice
      · cases e; exact notice
    case frameSent =>
      have e : s.frameSent.done = .next t := e
      cases e
      refine complete s.frameSent rfl (fun x k hx => ?_)
      have none : s.frameSent.port.sending = none := by
        unfold State.frameSent
        split
        · next idle => exact idle
        · dsimp only
          split <;> rfl
      rw [none] at hx
      cases hx
    case resetPartBook =>
      have e : (s.serveWith .resetPart (byteNot 0 [1]) Rd.u8 State.resetBookRequest).done = .next t := e
      cases e
      refine complete _ rfl ?_
      have act : ∀ level (u : State), u.part = s.part → u.port.sending = s.port.sending →
          (State.resetBookRequest level u).2.noticeSound := by
        intro level u hp hs
        unfold State.resetBookRequest
        split
        · intro x k hx hk
          dsimp only at hx
          unfold Port.orphanClose at hx
          split at hx
          · next y hy =>
            split at hx
            · cases hx
              cases hk
            all_goals
              next hw =>
              rw [hy] at hx
              cases hx
              rw [hk] at hw
              cases hw
          · next hy =>
            rw [hy] at hx
            cases hx
        · intro x k hx hk
          dsimp only at hx ⊢
          rw [hs] at hx
          rw [hp]
          exact notice x k hx hk
      unfold State.serveWith
      split
      · exact notice
      · dsimp only
        split
        · exact notice
        · split
          · exact notice
          · exact act _ _ rfl rfl

end Sys2Proof.Machine
end

