-- ==== Sys2Proof/Tests/Slice0.lean ====
section
/-! SUPPORT. Tests on fixed values, computed by the kernel: the check of commands, the two CRCs and the receiver, one step of
each command on a small level, and for each statement with hypotheses the states and operands that meet them, clause by
clause. -/

open Sys2Proof Sys2Proof.Machine

namespace Sys2Proof.Tests

set_option Elab.async false

/-! ## A small level -/

/-- A configured bay on a socket of post 0, on feeder 0, vacant and free. -/
def freeBay (k : Socket) : Bay :=
  { Bay.reset with
    configured := true, socket := k, ctype := .ct1, rating := 320, condition := .free, occupancy := .vacant
    plug := .unplugged }

/-- A NORMAL feeder of 160 A with a concurrency cap of 2 and its trip input enabled. -/
def goodFeeder : Feeder := { Feeder.reset with state := .normal, limit := 1600, concurrency := 2, tripEnabled := true }

/-- A post in use in a link state. -/
def livePost (l : LinkState) : Post := { Post.reset with inUse := true, link := l }

/-- Bays 0 and 1 on post 0, on feeder 0, with the clock SET at minute 1000. -/
def level : Part :=
  let p := { State.reset.part with clock := ⟨true, 1000, 0, some 0⟩ }
  (((p.setFeeder 0 goodFeeder).setPost 0 (livePost .active)).setBay 0 (freeBay .a)).setBay 1 (freeBay .b)

/-- The driver of the tests. -/
def driver : Asker := ⟨0, 0, .ct1, 0⟩

/-- A record with a state, a bay and a window of an hour. -/
def stay (state : RecState) (bay : Option BayId) (start : Nat) : Record :=
  { createdRecord level driver ⟨2, BitVec.allOnes 64, 0, none, []⟩ start (start + 60) 60 state bay .booked with
    notice := false }

/-- A session part in a phase. -/
def sessionIn (phase : Phase) : Session := { Session.start .unknown 0 990 with phase := phase }

/-- The record ENGAGED on a bay with a session. -/
def charging (b : BayId) (x : Session) : Record := { stay .engaged (some b) 960 with session := some x }

/-- A part between two events: conditions derived, nothing left to do. -/
def calm (p : Part) : Part := { p with bays := (([0, 1] : List BayId).foldl Part.derive p).bays, work := .empty }

/-- The level with a record in slot 0. -/
def holding (r : Record) : Part := calm (level.put 0 r)

/-- The level with bay 0 occupied by a vehicle, plugged or not, and a record in slot 0. -/
def occupiedBy (r : Record) (plug : Plug) : Part :=
  calm ((level.put 0 r).modBay 0 (fun x => { x with occupancy := .occupied, plug := plug }))

/-- The machine with one request waiting. -/
def asking (p : Part) (k : Kind) (payload : List Byte) : State :=
  ⟨p, { Port.reset with requests := [⟨7, k.code, payload⟩] }, []⟩

/-- The machine with no request waiting. -/
def quietly (p : Part) : State := ⟨p, Port.reset, []⟩

/-- The command gives a next state that passes a check. -/
def runs (c : Instr) (s : State) (check : State → Bool) : Bool :=
  match exec c s with
  | .next t => check t
  | .fault _ | .refused _ => false

/-- The request is served by the row with this answer, and the part afterwards passes a check. -/
def answers (c : Instr) (p : Part) (k : Kind) (payload : List Byte) (a : Answer) (check : Part → Bool) : Bool :=
  runs c (asking p k payload) (fun t =>
    t.port = Port.reset.withReply [] ⟨⟨7, replyKind k.code, a.payload⟩, false⟩ && check t.part)

/-- The request meets the hypotheses that every statement on a request row has, and is served so. -/
def Serves (c : Instr) (p : Part) (k : Kind) (payload : List Byte) (a : Answer) (check : Part → Bool) : Prop :=
  (asking p k payload).settled ∧ (asking p k payload).Asks k payload ⟨7, k.code, payload⟩ [] ∧
    answers c p k payload a check = true

theorem serves {c : Instr} {p : Part} {k : Kind} {payload : List Byte} {a : Answer} {check : Part → Bool}
    (h : (decide (p.work = Work.empty) && answers c p k payload a check) = true) : Serves c p k payload a check := by
  simp only [Bool.and_eq_true, decide_eq_true_eq] at h
  exact ⟨h.1, ⟨rfl, rfl, (by decide : (7 : Byte) ≠ 0), rfl, Nat.zero_lt_succ 3, rfl⟩, h.2⟩

/-- No change, where the small level holds anything. -/
def same (p q : Part) : Bool :=
  p.bay 0 = q.bay 0 && p.bay 1 = q.bay 1 && p.feeder 0 = q.feeder 0 && p.post 0 = q.post 0 && p.record 0 = q.record 0 &&
    p.clock = q.clock && p.settings = q.settings && p.work = q.work && p.link = q.link

/-- A check of the record in slot 0. -/
def slot0 (test : Record → Bool) (p : Part) : Bool := p.recordIs test 0

/-- A check of the session in slot 0. -/
def session0 (test : Session → Bool) (p : Part) : Bool := (p.session 0).any test

/-- Every stored condition is current, as a computation. -/
def currentNow (p : Part) : Bool := allBays.all (fun b => (p.bay b).condition = p.conditionOf b)

theorem current_of_now {p : Part} (h : currentNow p = true) : p.conditionsCurrent := by
  intro b
  simp only [currentNow, List.all_eq_true, decide_eq_true_eq] at h
  exact h b (List.mem_finRange b)

/-! ## The check of commands refuses each ill-formed term -/

theorem test_payload_too_long_is_ill_formed :
    Instr.wellFormed (.frameReceived 1 1 (List.replicate 239 0)) = false ∧
    Instr.wellFormed (.frameReceived 1 1 (List.replicate 238 0)) = true := by decide +kernel

theorem test_slot_192_is_ill_formed :
    ([.quotaMet 192, .satisfied 192, .leadCheck 192, .wakeCheck 192, .windowStart 192, .graceEnd 192, .windowEnd 192,
      .waitingDeadline 192, .settleTimer 192 0] : List Instr).all (fun c => !c.wellFormed) = true ∧
    ([.quotaMet 191, .satisfied 191, .leadCheck 191, .wakeCheck 191, .windowStart 191, .graceEnd 191, .windowEnd 191,
      .waitingDeadline 191, .settleTimer 191 0] : List Instr).all Instr.wellFormed = true := by decide +kernel

theorem test_bay_64_is_ill_formed :
    ([.penaltyEnd 64, .verifyExpiry 64] : List Instr).all (fun c => !c.wellFormed) = true ∧
    ([.penaltyEnd 63, .verifyExpiry 63] : List Instr).all Instr.wellFormed = true := by decide +kernel

theorem test_feeder_8_is_ill_formed :
    ([.overdrawPenalty 8, .recompute 8, .recoveryTimer 8 0, .tripInputChange 8 true 0, .debounce 8 0] : List Instr).all
      (fun c => !c.wellFormed) = true ∧
    ([.overdrawPenalty 7, .recompute 7, .recoveryTimer 7 0, .tripInputChange 7 true 0, .debounce 7 0] : List Instr).all
      Instr.wellFormed = true := by decide +kernel

theorem test_post_32_is_ill_formed :
    ([.prepareLimit 32 0, .wakeLimit 32 0, .idleTimer 32] : List Instr).all (fun c => !c.wellFormed) = true ∧
    ([.prepareLimit 31 0, .wakeLimit 31 0, .idleTimer 31] : List Instr).all Instr.wellFormed = true := by
  decide +kernel

theorem test_link_frame_of_another_length_is_ill_formed :
    Instr.wellFormed (.reply (List.replicate 11 0) 0) = false ∧
    Instr.wellFormed (.reply (List.replicate 13 0) 0) = false ∧
    Instr.wellFormed (.replyGap (List.replicate 12 0) 0) = false ∧
    Instr.wellFormed (.replyGap (List.replicate 11 0) 0) = true := by decide +kernel

theorem test_ill_formed_command_faults :
    (match exec (.leadCheck 192) State.reset with
      | .fault .illFormedCommand => true
      | .next _ | .refused _ => false) = true := by decide +kernel

/-! ## The two checksums, on the string 123456789 -/

theorem test_crc16_check_value :
    crc16 [0x31, 0x32, 0x33, 0x34, 0x35, 0x36, 0x37, 0x38, 0x39] = 0x29B1#16 := by decide +kernel

theorem test_crc8_check_value :
    crc8 [0x31, 0x32, 0x33, 0x34, 0x35, 0x36, 0x37, 0x38, 0x39] = 0xF4#8 := by decide +kernel

/-- The frame of the example in 12.2: CANCEL for handle 770 with TAG 0x21. -/
theorem test_cancel_frame_on_the_line :
    (Frame.line ⟨0x21, 0x34, [0x03, 0x02]⟩).take 6 = [0xC3, 0x04, 0x21, 0x34, 0x03, 0x02] := by decide +kernel

/-! ## Resets -/

theorem test_step_takes_the_front_command :
    (match step { State.reset with pending := [.clockGet, .tick 5] } with
      | .next t => t.pending = [.tick 5]
      | .fault _ | .refused _ => false) = true := by decide +kernel

theorem test_full_reset_clears_the_level :
    runs .powerOn (quietly level) (fun t => t.part.bay 0 = Bay.reset && t.part.clock = Clock.reset) = true ∧
    runs .rstN (quietly level) (fun t => t.part.post 0 = Post.reset && t.port = Port.reset) = true := by
  decide +kernel

/-- The reply of RESET-PART FULL in transmission. -/
def resetting : State :=
  { quietly level with port := { Port.reset with sending := some ⟨⟨7, 0x83, [0]⟩, .resetReply⟩, stopped := true } }

theorem witness_FullResetFollowsTheAnswerToResetPart :
    ((asking level .resetPart [1]).settled ∧ (asking level .resetPart [1]).Asks .resetPart [1] ⟨7, 0x03, [1]⟩ [] ∧
      runs .resetPartFull (asking level .resetPart [1]) (fun t =>
        t.port = { Port.reset with sending := some ⟨⟨7, 0x83, [0]⟩, .resetReply⟩, stopped := true } &&
        same t.part level) = true) ∧
    (runs .fullReset resetting (fun t => t.part.bay 0 = Bay.reset && !t.port.stopped) &&
      runs .frameSent resetting (fun t => t.part.bay 0 = Bay.reset && !t.port.stopped)) = true ∧
    runs .fullReset (quietly level) (fun t => same t.part level && t.port = Port.reset) = true :=
  ⟨⟨rfl, ⟨rfl, rfl, by decide, rfl, Nat.zero_lt_succ 3, rfl⟩, by decide +kernel⟩, by decide +kernel, by decide +kernel⟩

theorem witness_ResetPartBookFreesEveryRecord :
    (asking (occupiedBy (charging 0 (sessionIn .charge)) .plugged) .resetPart [0]).settled ∧
    (asking (occupiedBy (charging 0 (sessionIn .charge)) .plugged) .resetPart [0]).Asks .resetPart [0] ⟨7, 0x03, [0]⟩ [] ∧
    runs .resetPartBook (asking (occupiedBy (charging 0 (sessionIn .charge)) .plugged) .resetPart [0]) (fun t =>
      t.part.pool.slot 0 = ⟨2, none⟩ && t.part.pool.slot 1 = ⟨1, none⟩ && t.part.pool.free.head? = some 0 &&
      (t.part.bay 0).verify = .running 1005 && (t.part.bay 0).condition = .unverified &&
      (t.part.bay 1).condition = .free && (t.part.feeder 0).state = .normal && t.part.clock.minute = 1000) = true :=
  ⟨rfl, ⟨rfl, rfl, by decide, rfl, Nat.zero_lt_succ 3, rfl⟩, by decide +kernel⟩

/-! ## The Management Port -/

/-- The machine with so many requests and replies waiting while a notice is sent. -/
def crowded (requests replies : Nat) : State :=
  { quietly level with port := { Port.reset with
      requests := List.replicate requests ⟨9, 0x05, []⟩
      replies := List.replicate replies ⟨⟨9, 0x85, [0]⟩, false⟩
      sending := some ⟨⟨0, 0xE0, []⟩, .notice⟩ } }

theorem witness_FrameReceivedIsQueuedAnsweredBusyOrDropped :
    runs (.frameReceived 3 0x30 (List.replicate 238 0)) (crowded 3 4) (fun t => t.port.requests.length = 4 &&
      t.port.replies.length = 4) = true ∧
    runs (.frameReceived 3 0x30 []) (crowded 4 3) (fun t => t.port.requests = (crowded 4 3).port.requests &&
      t.port.replies.getLast? = some ⟨⟨3, 0xB0, [0x10]⟩, false⟩) = true ∧
    runs (.frameReceived 3 0x80 []) (crowded 4 3) (fun t =>
      t.port.replies.getLast? = some ⟨⟨3, 0x80, [0x10]⟩, false⟩) = true ∧
    runs (.frameReceived 3 0x30 []) (crowded 4 4) (fun t => t.port = (crowded 4 4).port) = true := by decide +kernel

/-- The machine with a receiver. -/
def receiving (x : Receiver) : State := { crowded 0 0 with port := { (crowded 0 0).port with receiver := x } }

/-- A receiver after a byte at a time. -/
def receiverAfter (x : Receiver) (b : Byte) (time : Nat) (y : Receiver) : Bool :=
  runs (.receivedByte b time) (receiving x) (fun t => t.port = { (receiving x).port with receiver := y })

theorem witness_ReceiverFollowsItsReceiveState :
    receiverAfter ⟨false, [], 0⟩ 0xC3 5 ⟨true, [], 5⟩ = true ∧
    receiverAfter ⟨true, [4, 1], 0⟩ 0xC3 10001 ⟨true, [], 10001⟩ = true ∧
    receiverAfter ⟨true, [4, 1], 0⟩ 0x07 10001 ⟨false, [], 10001⟩ = true ∧
    receiverAfter ⟨true, [], 0⟩ 1 10000 ⟨false, [], 10000⟩ = true ∧
    receiverAfter ⟨true, [], 0⟩ 241 0 ⟨false, [], 0⟩ = true ∧
    receiverAfter ⟨true, [], 0⟩ 2 10000 ⟨true, [2], 10000⟩ = true ∧
    receiverAfter ⟨true, [], 0⟩ 240 0 ⟨true, [240], 0⟩ = true ∧
    receiverAfter ⟨true, [2, 7, 5], 0⟩ 0xC3 9 ⟨true, [2, 7, 5, 0xC3], 9⟩ = true ∧
    (Frame.line ⟨7, 5, []⟩ = [0xC3, 2, 7, 5, 0x6B, 0xCE] ∧
      runs (.receivedByte 0xCE 9) (receiving ⟨true, [2, 7, 5, 0x6B], 0⟩) (fun t =>
        t.port.receiver = ⟨false, [], 9⟩ && t.port.requests = [⟨7, 5, []⟩]) = true) ∧
    receiverAfter ⟨true, [2, 7, 5, 0x6B], 0⟩ 0xCF 9 ⟨false, [], 9⟩ = true ∧
    runs (.frameGapTimeout 10001) (receiving ⟨true, [2], 0⟩) (fun t => t.port.receiver = ⟨false, [], 0⟩) = true ∧
    runs (.frameGapTimeout 10000) (receiving ⟨true, [2], 0⟩) (fun t => t.port.receiver = ⟨true, [2], 0⟩) = true := by
  decide +kernel

theorem test_bytes_that_spell_no_frame (f : Frame) : f.line ≠ [0xC3, 2, 7, 5, 0x6B, 0xCF] := by
  intro h
  have h1 : f.payload.length = 0 := by
    have := congrArg List.length h
    simp only [Frame.line, u8, u16, List.length_cons, List.length_append, List.length_nil] at this
    omega
  have h2 : f.payload = [] := List.eq_nil_of_length_eq_zero h1
  obtain ⟨tag, kind, payload⟩ := f
  subst h2
  simp only [Frame.line, u8, List.cons_append, List.nil_append, List.cons.injEq] at h
  obtain ⟨-, -, rfl, rfl, h⟩ := h
  revert h
  decide +kernel

theorem witness_ReceiverReadsBackEveryFrame :
    List.IsChain (fun a b => a ≤ b ∧ b ≤ a + 10000) (0 :: [10000, 10000, 20000, 20000, 20001]) ∧
    (Receiver.feed ⟨false, [], 0⟩ ((Frame.line ⟨7, 5, []⟩).zip [0, 10000, 10000, 20000, 20000, 20001])).2 =
      [⟨7, 5, []⟩] := by decide +kernel

theorem witness_ServingChecksKindTagAndLength :
    runs .unknownKind { asking level .identify [] with port := { Port.reset with requests := [⟨0, 0x44, [1]⟩] } }
      (fun t => t.port.sending = some ⟨⟨0, 0xC4, [0x11]⟩, .reply⟩ && same t.part level) = true ∧
    (∀ k : Kind, (0x44 : Byte) ≠ k.code) ∧
    runs .bayGet { asking level .identify [] with port := { Port.reset with requests := [⟨0, 0x11, [1]⟩] } }
      (fun t => t.port.sending = some ⟨⟨0, 0x91, [0x12]⟩, .reply⟩ && same t.part level) = true ∧
    Serves .bayGet level .bayGet [] ⟨.malformed, []⟩ (same level) ∧
    Serves .bayGet level .bayGet [1, 1] ⟨.malformed, []⟩ (same level) ∧
    runs .clockGet (crowded 1 4) (fun t => t.port = (crowded 1 4).port) = true ∧
    runs .clockGet { resetting with port := { resetting.port with requests := [⟨9, 0x05, []⟩] } }
      (fun t => t.port.requests.length = 1) = true :=
  ⟨by decide +kernel, by intro k; cases k <;> decide, by decide +kernel, serves (by decide +kernel),
    serves (by decide +kernel), by decide +kernel, by decide +kernel⟩

/-- The level with a CLOSING record in slot 0. -/
def withClosed : Part :=
  calm ((level.put 0 (stay .booked (some 0) 1100)).closeRecord 0 .cancelled .host)

/-- The CLOSE-NOTICE of slot 0 in transmission. -/
def sendingClose : State :=
  { quietly withClosed with port := { Port.reset with sending := some ⟨⟨0, 0xE2, []⟩, .closeNotice (some 0)⟩ } }

theorem witness_FrameSentTakesTheNextSource :
    (crowded 0 0).complete.port = (crowded 0 0).port ∧
    ({ quietly level with port := { Port.reset with replies := [⟨⟨7, 0x85, [0]⟩, false⟩] } } : State).complete.port =
      { Port.reset with sending := some ⟨⟨7, 0x85, [0]⟩, .reply⟩ } ∧
    (quietly withClosed).complete.port.sending = some ⟨⟨0, 0xE2, withClosed.closePayload 0⟩, .closeNotice (some 0)⟩ ∧
    runs .frameSent (crowded 0 1) (fun t => t.port.sending = some ⟨⟨9, 0x85, [0]⟩, .reply⟩) = true ∧
    runs .frameSent (quietly level) (fun t => t.port = Port.reset) = true ∧
    (slot0 (fun r => r.state = .closing) withClosed = true ∧
      runs .frameSent sendingClose (fun t => t.part.pool.slot 0 = ⟨2, none⟩ && t.part.pool.free.head? = some 0 &&
        t.part.pool.closing = [] && t.port.sending = none) = true) := by decide +kernel

/-- The next-indexes of the tests: a wrapped search for every kind. -/
def nextIndexes : NextIndex := ⟨191, 31, 7, 63, 31⟩

/-- The machine with notice flags of a part and its next-indexes. -/
def flagged (p : Part) : State := { quietly p with port := { Port.reset with next := nextIndexes } }

/-- The frame that an idle transmitter begins, and the next-indexes after it. -/
def begun (s : State) : Option (Byte × NextIndex) := s.complete.port.sending.map (fun x => (x.frame.kind, s.complete.port.next))

theorem witness_NoticesFollowTheSourceOrder :
    begun (flagged (level.put 0 { stay .booked (some 0) 1100 with notice := true })) =
      some (0xE1, { nextIndexes with record := 1 }) ∧
    begun (flagged (level.modPost 1 (fun x => { x with notice := true }))) =
      some (0xE4, { nextIndexes with post := 2 }) ∧
    begun (flagged (level.modFeeder 7 (fun x => { x with notice := true }))) =
      some (0xE3, { nextIndexes with feeder := 0 }) ∧
    begun (flagged (level.modBay 63 (fun x => { x with notice := true }))) =
      some (0xE0, { nextIndexes with bay := 0 }) ∧
    begun (flagged (level.setRule 0 { Rule.reset with notice := true })) =
      some (0xE5, { nextIndexes with rule := 1 }) ∧
    begun (flagged level) = none := by decide +kernel

/-! ## Requests that read -/

theorem witness_PartReportsAnswerAndChangeNothing :
    Serves .identify level .identify []
      ⟨.ok, [0x42, 0x52, 0x36, 0x34, 1, 64, 8, 32, 192, 32, 32, 8, 3, 240]⟩ (same level) ∧
    Serves .status level .status []
      ⟨.ok, [1, 0, 0, 3, 0xE8, 0, 192, 0, 0, 0, 1, 0, 0, 0, 0, 0, 0, 0, 3] ++ List.replicate 31 0 ++ [0, 0]⟩
      (same level) ∧
    Serves .clockGet level .clockGet [] ⟨.ok, [1, 0, 0, 3, 0xE8, 0, 0x03, 0xE8, 0, 0, 1, 0, 0, 0, 0]⟩ (same level) :=
  ⟨serves (by decide +kernel), serves (by decide +kernel), serves (by decide +kernel)⟩

theorem witness_TableReadsAnswerAndChangeNothing :
    Serves .partGet level .partGet [] ⟨.ok, [10, 10, 5, 20, 15, 30, 10, 1, 2, 3, 4, 0, 30, 0, 0]⟩ (same level) ∧
    Serves .laneGet level .laneGet [7]
      ⟨.ok, [0, 0, 0, 0, 1, 2, 255, 255, 255, 255, 255, 255, 255, 255]⟩ (same level) ∧
    Serves .laneGet level .laneGet [8] ⟨.range, []⟩ (same level) ∧
    Serves .ruleRead level .ruleRead [31]
      ⟨.ok, [0, 255, 15, 0, 15, 0, 0, 0, 0, 0, 15, 2, 0xD0, 0, 0, 1] ++ List.replicate 20 0 ++ [255, 255, 0, 0, 0]⟩
      (same level) ∧
    Serves .ruleRead level .ruleRead [32] ⟨.range, []⟩ (same level) ∧
    Serves .waitListGet (level.put 0 (stay .waiting none 1100)) .waitListGet [] ⟨.ok, [1, 1, 0]⟩ (fun _ => true) :=
  ⟨serves (by decide +kernel), serves (by decide +kernel), serves (by decide +kernel), serves (by decide +kernel),
    serves (by decide +kernel), serves (by decide +kernel)⟩

theorem witness_SnapshotsAnswerAndChangeNothing :
    Serves .bayGet level .bayGet [0]
      ⟨.ok, [0, 1, 0, 0, 0, 1, 1, 0x40, 0, 0, 0, 0, 0, 0, 0, 0, 0, 0, 0, 0, 0, 0, 0, 0, 0]⟩ (same level) ∧
    Serves .bayGet level .bayGet [64] ⟨.range, []⟩ (same level) ∧
    Serves .feederGet level .feederGet [0]
      ⟨.ok, [0, 6, 0x40, 0, 0, 0, 230, 2, 1, 0, 2, 0, 0, 0, 0, 0, 0, 0, 3, 1, 6, 0x40, 0, 0, 0, 0, 0, 0]⟩ (same level) ∧
    Serves .feederGet level .feederGet [8] ⟨.range, []⟩ (same level) ∧
    Serves .postGet level .postGet [0] ⟨.ok, [0, 1, 3, 1, 0, 0, 0, 0, 0, 0, 1, 0, 1, 1]⟩ (same level) ∧
    Serves .postGet level .postGet [32] ⟨.range, []⟩ (same level) ∧
    Serves .resGet (holding (stay .held (some 0) 980)) .resGet [1, 0]
      ⟨.ok, (holding (stay .held (some 0) 980)).recordSnapshot 0 (stay .held (some 0) 980)⟩ (fun _ => true) ∧
    Serves .resGet (holding (stay .held (some 0) 980)) .resGet [2, 0] ⟨.unknownReservation, []⟩ (fun _ => true) ∧
    Serves .resGet level .resGet [1, 192] ⟨.unknownReservation, []⟩ (same level) ∧
    (level.pool.waiting = [] ∧ level.pool.position 0 = 0) ∧
    ((holding (stay .waiting none 1100)).pool.waiting = [] ++ 0 :: [] ∧
      (holding (stay .waiting none 1100)).pool.position 0 = 1) :=
  ⟨serves (by decide +kernel), serves (by decide +kernel), serves (by decide +kernel), serves (by decide +kernel),
    serves (by decide +kernel), serves (by decide +kernel), serves (by decide +kernel), serves (by decide +kernel),
    serves (by decide +kernel), by decide +kernel, by decide +kernel⟩

/-- The level with one admission rule that lane 0 considers. -/
def ruled (v : Verdict) (t : Tally) (counter : Nat) : Part :=
  (level.setLane 0 { Lane.reset with rules := 1 }).setRule 0 { Rule.reset with
    matchA := { Rule.reset.matchA with active := true }, action := { Rule.reset.action with verdict := v }
    tally := t, counter := counter }

theorem witness_FindFreeAnswersTheFreeBays :
    Serves .findFree level .findFree [8, 0, 1, 0, 1, 0, 0, 0, 0, 0, 60] ⟨.range, []⟩ (same level) ∧
    Serves .findFree { level with clock := Clock.reset } .findFree [7, 7, 3, 15, 1, 0, 0, 0, 0, 0, 60]
      ⟨.noClock, []⟩ (fun _ => true) ∧
    Serves .findFree level .findFree [0, 0, 1, 0, 0, 0, 0, 3, 0xE7, 0, 60] ⟨.windowRange, []⟩ (same level) ∧
    Serves .findFree level .findFree [0, 0, 1, 0, 0, 0, 0, 0x2B, 0x49, 0, 60] ⟨.windowRange, []⟩ (same level) ∧
    Serves .findFree level .findFree [0, 0, 1, 0, 0, 0, 0, 0x2B, 0x48, 0, 60]
      ⟨.ok, [0, 0, 0, 0, 0, 0, 0, 3, 0, 0, 0x2B, 0x48, 0, 0, 0x2B, 0x84, 0, 60, 2]⟩ (same level) ∧
    Serves .findFree level .findFree [0, 0, 1, 0, 1, 9, 9, 9, 9, 0, 1]
      ⟨.ok, [0, 0, 0, 0, 0, 0, 0, 3, 0, 0, 3, 0xE8, 0, 0, 3, 0xF7, 0, 15, 2]⟩ (same level) ∧
    Serves .findFree (ruled .refuse ⟨false, 65535⟩ 0) .findFree [0, 0, 1, 0, 1, 0, 0, 0, 0, 0, 60]
      ⟨.policyRefused, [1, 0]⟩ (fun _ => true) ∧
    Serves .findFree (ruled .accept ⟨true, 3⟩ 3) .findFree [0, 0, 1, 0, 1, 0, 0, 0, 0, 0, 60]
      ⟨.policyQuota, [1, 0]⟩ (fun _ => true) ∧
    Serves .findFree (level.setLane 0 { Lane.reset with verdict := .refuse }) .findFree [0, 0, 1, 0, 1, 0, 0, 0, 0, 0, 60]
      ⟨.policyRefused, [0]⟩ (fun _ => true) :=
  ⟨serves (by decide +kernel), serves (by decide +kernel), serves (by decide +kernel), serves (by decide +kernel),
    serves (by decide +kernel), serves (by decide +kernel), serves (by decide +kernel), serves (by decide +kernel),
    serves (by decide +kernel)⟩

/-! ## Requests that write settings and tables -/

/-- The level with a BOOKED record whose window starts in the next minute. -/
def coming : Part := holding { stay .booked (some 0) 1001 with leadTaken := true, wakeTaken := true }

theorem witness_ClockSetMovesTheClock :
    Serves .clockSet level .clockSet [0xEE, 0x6B, 0x28, 1, 0] ⟨.range, []⟩ (same level) ∧
    Serves .clockSet level .clockSet [0, 0, 0, 0, 60] ⟨.range, []⟩ (same level) ∧
    Serves .clockSet level .clockSet [0, 0, 3, 0xF3, 0] ⟨.clockStep, []⟩ (same level) ∧
    Serves .clockSet level .clockSet [0, 0, 3, 0xDD, 0] ⟨.clockStep, []⟩ (same level) ∧
    Serves .clockSet { (level.modBay 0 (fun x => { x with verify := .running 5 })) with clock := Clock.reset } .clockSet
      [0xEE, 0x6B, 0x28, 0, 59] ⟨.ok, []⟩ (fun p => p.clock.set && p.clock.minute = 4000000000 && p.clock.second = 59 &&
        (p.bay 0).verify = .running 4000000005) ∧
    Serves .clockSet level .clockSet [0, 0, 3, 0xDE, 59] ⟨.ok, []⟩ (fun p => p.clock = ⟨true, 990, 59, some 0⟩) ∧
    Serves .clockSet level .clockSet [0, 0, 3, 0xE8, 7] ⟨.ok, []⟩ (fun p => p.clock = ⟨true, 1000, 7, some 0⟩) ∧
    Serves .clockSet { level with clock := Clock.reset } .clockSet [0, 0, 0, 7, 0] ⟨.ok, []⟩
      (fun p => (p.post 0).timer = .idle 17) ∧
    Serves .clockSet coming .clockSet [0, 0, 3, 0xE9, 7] ⟨.ok, []⟩ (fun p => p.clock = ⟨true, 1001, 7, some 0⟩ &&
      slot0 (fun r => r.state = .held) p) ∧
    Serves .clockSet { coming with outstanding := ⟨true, false, false⟩ } .clockSet [0, 0, 3, 0xE9, 7] ⟨.ok, []⟩
      (fun p => p.clock.minute = 1001 && slot0 (fun r => r.state = .held) p && !p.outstanding.minute) :=
  ⟨serves (by decide +kernel), serves (by decide +kernel), serves (by decide +kernel), serves (by decide +kernel),
    serves (by decide +kernel), serves (by decide +kernel), serves (by decide +kernel), serves (by decide +kernel),
    serves (by decide +kernel), serves (by decide +kernel)⟩

theorem witness_PartSetStoresAllOrNothing :
    Serves .partSet level .partSet { Settings.reset with guard := 31 }.bytes ⟨.range, []⟩ (same level) ∧
    Serves .partSet (holding (stay .booked (some 0) 1100)) .partSet { Settings.reset with guard := 30 }.bytes
      ⟨.conflict, []⟩ (same (holding (stay .booked (some 0) 1100))) ∧
    Serves .partSet level .partSet { Settings.reset with guard := 30, lead := 60, w1 := 15 }.bytes ⟨.ok, []⟩
      (fun p => p.settings = { Settings.reset with guard := 30, lead := 60, w1 := 15 }) ∧
    Serves .partSet level .partSet { Settings.reset with guard := 0, recoveryDelay := 600 }.bytes ⟨.ok, []⟩
      (fun p => p.settings = { Settings.reset with guard := 0, recoveryDelay := 600 }) :=
  ⟨serves (by decide +kernel), serves (by decide +kernel), serves (by decide +kernel), serves (by decide +kernel)⟩

theorem witness_SettingsSurviveTheirEncoding : Rd.partSet.all Settings.reset.bytes = some Settings.reset := by
  decide +kernel

theorem witness_PolicyWritesStoreWhatTheyCarry :
    Serves .laneSet level .laneSet ([8] ++ [0, 0, 0, 1] ++ [1, 1] ++ List.replicate 8 0) ⟨.range, []⟩ (same level) ∧
    Serves .laneSet level .laneSet ([7] ++ [0, 0, 0, 1] ++ [0, 1] ++ List.replicate 8 0) ⟨.range, []⟩ (same level) ∧
    Serves .laneSet level .laneSet ([7] ++ [0, 0, 0, 1] ++ [1, 5] ++ List.replicate 8 0) ⟨.range, []⟩ (same level) ∧
    Serves .laneSet level .laneSet ([7] ++ [0, 0, 0, 1] ++ [2, 4] ++ List.replicate 8 0) ⟨.ok, []⟩
      (fun p => p.lane 7 = ⟨1, .refuse, 4, 0⟩) ∧
    Serves .ruleWrite level .ruleWrite [32, 0, 0, 0, 1, 1, 0, 1] ⟨.range, []⟩ (same level) ∧
    Serves .ruleWrite level .ruleWrite [31, 0, 0, 0, 1, 1, 0, 0] ⟨.range, []⟩ (same level) ∧
    Serves .ruleWrite (ruled .accept ⟨true, 9⟩ 3) .ruleWrite [0, 0, 0, 0, 1, 1, 0, 2] ⟨.conflict, []⟩
      (fun p => (p.rule 0).tally.limit = 9) ∧
    Serves .ruleWrite (ruled .accept ⟨true, 9⟩ 3) .ruleWrite [0, 0, 0, 0, 1, 1, 0, 3] ⟨.ok, []⟩
      (fun p => (p.rule 0).tally = ⟨true, 3⟩ && (p.rule 0).counter = 3 && (p.rule 0).notice) ∧
    Serves .ruleWrite level .ruleWrite [31, 0, 0, 0, 0] ⟨.ok, []⟩ (same level) ∧
    Serves .tallyClear level .tallyClear [32] ⟨.range, []⟩ (same level) ∧
    Serves .tallyClear level .tallyClear [254] ⟨.range, []⟩ (same level) ∧
    Serves .tallyClear (ruled .accept ⟨true, 3⟩ 3) .tallyClear [0] ⟨.ok, []⟩
      (fun p => (p.rule 0).counter = 0 && (p.rule 0).notice) ∧
    Serves .tallyClear (ruled .accept ⟨true, 3⟩ 3) .tallyClear [31] ⟨.ok, []⟩ (fun p => (p.rule 0).counter = 3) ∧
    Serves .tallyClear (ruled .accept ⟨true, 3⟩ 2) .tallyClear [255] ⟨.ok, []⟩
      (fun p => (p.rule 0).counter = 0 && !(p.rule 0).notice) :=
  ⟨serves (by decide +kernel), serves (by decide +kernel), serves (by decide +kernel), serves (by decide +kernel),
    serves (by decide +kernel), serves (by decide +kernel), serves (by decide +kernel), serves (by decide +kernel),
    serves (by decide +kernel), serves (by decide +kernel), serves (by decide +kernel), serves (by decide +kernel),
    serves (by decide +kernel), serves (by decide +kernel)⟩

/-! ## Bays, feeders and posts -/

/-- The level with a record ENGAGED on bay 0. -/
def busy (phase : Phase) : Part := occupiedBy (charging 0 (sessionIn phase)) .plugged

theorem witness_BaySetConfiguresAndRemovesTheBay :
    Serves .baySet level .baySet [63, 1, 31, 1, 7, 3, 0, 59] ⟨.range, []⟩ (same level) ∧
    Serves .baySet level .baySet [63, 1, 31, 1, 7, 3, 3, 33] ⟨.range, []⟩ (same level) ∧
    Serves .baySet level .baySet [2, 1, 0, 0, 0, 1, 0, 60] ⟨.conflict, []⟩ (same level) ∧
    Serves .baySet level .baySet [2, 1, 1, 0, 7, 1, 0, 60] ⟨.conflict, []⟩ (same level) ∧
    Serves .baySet (holding (stay .booked (some 0) 1100)) .baySet [0, 1, 0, 0, 0, 2, 1, 0x40] ⟨.conflict, []⟩
      (fun p => (p.bay 0).ctype = .ct1) ∧
    Serves .baySet (busy .charge) .baySet [0, 1, 1, 0, 0, 1, 1, 0x40] ⟨.conflict, []⟩ (fun p => (p.bay 0).post = 0) ∧
    Serves .baySet level .baySet [63, 1, 31, 1, 0, 3, 3, 0x20] ⟨.ok, []⟩ (fun p => (p.bay 63).configured &&
      (p.bay 63).post = 31 && (p.bay 63).rating = 800 && (p.bay 63).condition = .dark && (p.bay 63).notice) ∧
    Serves .baySet level .baySet [0, 1, 0, 0, 0, 1, 1, 0x40] ⟨.ok, []⟩ (same level) ∧
    Serves .baySet level .baySet [0, 1, 0, 0, 0, 2, 1, 0x40] ⟨.ok, []⟩ (fun p => (p.bay 0).ctype = .ct2 &&
      (p.bay 0).occupancy = .vacant) ∧
    Serves .baySet level .baySet [0, 1, 0, 0, 0, 1, 0, 60] ⟨.ok, []⟩ (fun p => (p.bay 0).rating = 60) ∧
    Serves .baySet level .baySet [0, 1, 1, 0, 0, 1, 1, 0x40] ⟨.ok, []⟩ (fun p => (p.bay 0).post = 1 &&
      (p.bay 0).occupancy = .unknown && (p.bay 0).condition = .dark) ∧
    Serves .bayRemove (holding (stay .booked (some 0) 1100)) .baySet [0, 0, 0, 0, 0, 0, 0, 60] ⟨.conflict, []⟩
      (fun p => (p.bay 0).configured) ∧
    Serves .bayRemove level .baySet [2, 0, 0, 0, 0, 0, 0, 60] ⟨.ok, []⟩ (same level) ∧
    Serves .bayRemove level .baySet [1, 0, 0, 0, 0, 0, 3, 0x20] ⟨.ok, []⟩ (fun p => !(p.bay 1).configured &&
      (p.bay 1).condition = .out) :=
  ⟨serves (by decide +kernel), serves (by decide +kernel), serves (by decide +kernel), serves (by decide +kernel),
    serves (by decide +kernel), serves (by decide +kernel), serves (by decide +kernel), serves (by decide +kernel),
    serves (by decide +kernel), serves (by decide +kernel), serves (by decide +kernel), serves (by decide +kernel),
    serves (by decide +kernel), serves (by decide +kernel)⟩

theorem witness_BayServiceTakesTheBayOutAndIn :
    Serves .bayServiceOut level .bayService [2, 1, 0] ⟨.conflict, []⟩ (same level) ∧
    Serves .bayServiceOut (level.modBay 0 (fun x => { x with service := .out })) .bayService [0, 1, 1] ⟨.ok, []⟩
      (fun p => (p.bay 0).service = .out) ∧
    Serves .bayServiceOut (busy .charge) .bayService [0, 1, 0] ⟨.wrongState, []⟩ (fun p => (p.bay 0).service = .inService) ∧
    Serves .bayServiceOut level .bayService [1, 1, 0] ⟨.ok, []⟩ (fun p => (p.bay 1).condition = .out) ∧
    Serves .bayServiceOut (busy .charge) .bayService [0, 1, 1] ⟨.ok, []⟩ (fun p => (p.bay 0).condition = .out &&
      session0 (fun x => x.phase = .settling && x.settle = some ⟨.service, 30000000⟩) p) ∧
    Serves .bayServiceOut (busy .halted) .bayService [0, 1, 1] ⟨.ok, []⟩ (slot0 (fun r => r.state = .closing)) ∧
    Serves .bayServiceOut (holding (stay .booked (some 0) 1100)) .bayService [0, 1, 0] ⟨.ok, []⟩
      (slot0 (fun r => r.state = .booked && r.bay = some 1)) ∧
    Serves .bayServiceIn level .bayService [2, 0, 0] ⟨.conflict, []⟩ (same level) ∧
    Serves .bayServiceIn level .bayService [0, 0, 1] ⟨.ok, []⟩ (same level) ∧
    Serves .bayServiceIn (level.modBay 0 (fun x => { x with service := .out, condition := .out })) .bayService [0, 0, 0]
      ⟨.ok, []⟩ (fun p => (p.bay 0).service = .inService && (p.bay 0).condition = .free) :=
  ⟨serves (by decide +kernel), serves (by decide +kernel), serves (by decide +kernel), serves (by decide +kernel),
    serves (by decide +kernel), serves (by decide +kernel), serves (by decide +kernel), serves (by decide +kernel),
    serves (by decide +kernel), serves (by decide +kernel)⟩

theorem witness_FeederSetEnablesAndDisables :
    Serves .feederSet level .feederSet [8, 1, 0, 0, 0, 230, 1, 0] ⟨.range, []⟩ (same level) ∧
    Serves .feederSet level .feederSet [7, 1, 0x4E, 0x21, 0, 230, 1, 0] ⟨.range, []⟩ (same level) ∧
    Serves .feederSet level .feederSet [7, 1, 0, 0, 0, 99, 1, 0] ⟨.range, []⟩ (same level) ∧
    Serves .feederSet level .feederSet [7, 1, 0, 0, 0, 230, 65, 0] ⟨.range, []⟩ (same level) ∧
    Serves .feederSet level .feederSet [0, 0, 6, 0x40, 0, 230, 2, 1] ⟨.conflict, []⟩ (same level) ∧
    Serves .feederSet level .feederSet [7, 1, 0x4E, 0x20, 1, 0xF4, 64, 0] ⟨.ok, []⟩ (fun p =>
      (p.feeder 7).state = .normal && (p.feeder 7).config = (20000, 0, 500, 64, false)) ∧
    Serves .feederSet (level.modFeeder 7 (fun x => { x with active := true })) .feederSet [7, 1, 0, 0, 0, 100, 1, 1]
      ⟨.ok, []⟩ (fun p => (p.feeder 7).state = .tripped && (p.feeder 7).sticky.tripSeen) ∧
    Serves .feederSet (level.setFeeder 7 goodFeeder) .feederSet [7, 0, 6, 0x40, 0, 230, 2, 1] ⟨.ok, []⟩
      (fun p => (p.feeder 7).state = .unused && (p.feeder 7).notice) ∧
    Serves .feederSet level .feederSet [7, 0, 0, 0, 0, 230, 1, 0] ⟨.ok, []⟩ (same level) ∧
    Serves .feederSet level .feederSet [7, 0, 0, 1, 0, 230, 1, 0] ⟨.ok, []⟩ (fun p => (p.feeder 7).limit = 1) ∧
    Serves .feederSet (holding (stay .waiting none 1100)) .feederSet [7, 0, 0, 0, 0, 230, 2, 0] ⟨.ok, []⟩
      (fun p => (p.feeder 7).concurrency = 2 && slot0 (fun r => r.state = .booked && r.bay = some 0) p) ∧
    Serves .feederSet ((holding (stay .waiting none 1100)).setFeeder 7 goodFeeder) .feederSet
      [7, 0, 6, 0x40, 0, 230, 3, 1] ⟨.ok, []⟩
      (fun p => (p.feeder 7).state = .unused && slot0 (fun r => r.state = .booked) p) ∧
    Serves .feederSet level .feederSet [0, 1, 6, 0x40, 0, 230, 2, 1] ⟨.ok, []⟩ (same level) ∧
    Serves .feederSet level .feederSet [0, 1, 6, 0x40, 0, 230, 3, 1] ⟨.ok, []⟩ (fun p => (p.feeder 0).concurrency = 3 &&
      (p.feeder 0).state = .normal) ∧
    Serves .feederSet (level.modFeeder 0 (fun x => { x with state := .tripped, active := true })) .feederSet
      [0, 1, 6, 0x40, 0, 230, 2, 0] ⟨.ok, []⟩ (fun p => (p.feeder 0).state = .normal) ∧
    Serves .feederSet (holding (stay .waiting none 1100)) .feederSet [7, 1, 0, 0, 0, 230, 2, 0] ⟨.ok, []⟩
      (fun p => (p.feeder 7).state = .normal && slot0 (fun r => r.state = .booked && r.bay = some 0) p) ∧
    Serves .feederSet (holding (stay .waiting none 1100)) .feederSet [0, 1, 6, 0x40, 0, 230, 3, 1] ⟨.ok, []⟩
      (fun p => (p.feeder 0).concurrency = 3 && slot0 (fun r => r.state = .booked && r.bay = some 0) p) ∧
    Serves .feederSet (busy .charge) .feederSet [0, 1, 0, 100, 0, 230, 2, 1] ⟨.ok, []⟩
      (fun p => (p.bay 0).limit = 100 && (p.feeder 0).notice) ∧
    Serves .feederSet ((busy .charge).modFeeder 0 (fun x => { x with tripEnabled := false, active := true })) .feederSet
      [0, 1, 6, 0x40, 0, 230, 2, 1] ⟨.ok, []⟩ (fun p => (p.feeder 0).state = .tripped && (p.feeder 0).sticky.tripSeen &&
        session0 (fun x => x.phase = .paused && x.pause = .trip) p) :=
  ⟨serves (by decide +kernel), serves (by decide +kernel), serves (by decide +kernel), serves (by decide +kernel),
    serves (by decide +kernel), serves (by decide +kernel), serves (by decide +kernel), serves (by decide +kernel),
    serves (by decide +kernel), serves (by decide +kernel), serves (by decide +kernel), serves (by decide +kernel),
    serves (by decide +kernel), serves (by decide +kernel), serves (by decide +kernel), serves (by decide +kernel),
    serves (by decide +kernel), serves (by decide +kernel), serves (by decide +kernel)⟩

theorem witness_FeederTrimStoresAndRecomputes :
    Serves .feederTrim level .feederTrim [8, 0, 0] ⟨.range, []⟩ (same level) ∧
    Serves .feederTrim level .feederTrim [0, 0x4E, 0x21] ⟨.range, []⟩ (same level) ∧
    Serves .feederTrim level .feederTrim [0, 0, 0] ⟨.ok, [0, 0, 6, 0x40]⟩ (same level) ∧
    Serves .feederTrim level .feederTrim [0, 0x4E, 0x20] ⟨.ok, [0x4E, 0x20, 0, 0]⟩ (fun p => (p.feeder 0).trim = 20000) ∧
    Serves .feederTrim level .feederTrim [0, 0, 100] ⟨.ok, [0, 100, 5, 0xDC]⟩ (fun p => (p.feeder 0).notice) :=
  ⟨serves (by decide +kernel), serves (by decide +kernel), serves (by decide +kernel), serves (by decide +kernel),
    serves (by decide +kernel)⟩

theorem witness_FeederClearClearsTheNamedFlags :
    Serves .feederClear level .feederClear [8, 0] ⟨.range, []⟩ (same level) ∧
    Serves .feederClear level .feederClear [0, 16] ⟨.range, []⟩ (same level) ∧
    Serves .feederClear (level.modFeeder 0 (fun x => { x with sticky := ⟨true, true, false, true⟩ })) .feederClear [0, 9]
      ⟨.ok, [2]⟩ (fun p => (p.feeder 0).sticky = ⟨false, true, false, false⟩ && !(p.feeder 0).notice) ∧
    Serves .feederClear level .feederClear [7, 15] ⟨.ok, [0]⟩ (same level) :=
  ⟨serves (by decide +kernel), serves (by decide +kernel), serves (by decide +kernel), serves (by decide +kernel)⟩

/-- The level with an exchange with post 0 in progress. -/
def exchanging (p : Part) (deadline : Option Nat) : Part :=
  { p with link := ⟨1, 0, false, none, some ⟨0, 0, p.commandFor 0, deadline⟩⟩ }

theorem witness_PostSetDeclaresAndWithdraws :
    Serves .postSetInUse level .postSet [32, 1] ⟨.range, []⟩ (same level) ∧
    Serves .postSetInUse level .postSet [0, 1] ⟨.ok, []⟩ (same level) ∧
    Serves .postSetInUse level .postSet [31, 1] ⟨.ok, []⟩ (fun p => (p.post 31).inUse && (p.post 31).link = .seeking) ∧
    Serves .postSetWithdraw level .postSet [31, 0] ⟨.ok, []⟩ (same level) ∧
    Serves .postSetWithdraw (busy .charge) .postSet [0, 0] ⟨.conflict, []⟩ (fun p => (p.post 0).inUse) ∧
    Serves .postSetWithdraw (exchanging level (some 9)) .postSet [0, 0] ⟨.ok, []⟩ (fun p => !(p.post 0).inUse &&
      (p.bay 0).condition = .dark && (p.bay 1).occupancy = .unknown && p.link.exchange.isNone) :=
  ⟨serves (by decide +kernel), serves (by decide +kernel), serves (by decide +kernel), serves (by decide +kernel),
    serves (by decide +kernel), serves (by decide +kernel)⟩

theorem witness_PostForceActsOnThePost :
    (rowTakes .postForceReseek [32, 0] = true ∧ rowTakes .postForceIsolate [32, 1] = true ∧
      rowTakes .postForceWake [32, 2] = true ∧ rowTakes .postForceReseek [0, 3] = true) ∧
    Serves .postForceReseek level .postForce [32, 0] ⟨.range, []⟩ (same level) ∧
    Serves .postForceIsolate level .postForce [32, 1] ⟨.range, []⟩ (same level) ∧
    Serves .postForceWake level .postForce [32, 2] ⟨.range, []⟩ (same level) ∧
    Serves .postForceReseek level .postForce [0, 3] ⟨.range, []⟩ (same level) ∧
    Serves .postForceReseek level .postForce [31, 0] ⟨.wrongState, []⟩ (same level) ∧
    Serves .postForceIsolate level .postForce [31, 1] ⟨.wrongState, []⟩ (same level) ∧
    Serves .postForceWake level .postForce [31, 2] ⟨.wrongState, []⟩ (same level) ∧
    Serves .postForceReseek (exchanging level none) .postForce [0, 0] ⟨.ok, [1]⟩ (fun p => (p.post 0).link = .seeking &&
      p.link.exchange.isNone) ∧
    Serves .postForceIsolate level .postForce [0, 1] ⟨.ok, [6]⟩ (fun p => (p.post 0).cause = .host &&
      (p.bay 0).condition = .dark) ∧
    Serves .postForceWake (level.setPost 0 (livePost .standby)) .postForce [0, 2] ⟨.ok, [5]⟩
      (fun p => (p.post 0).timer = .wake 3000000) ∧
    Serves .postForceWake level .postForce [0, 2] ⟨.wrongState, []⟩ (same level) :=
  ⟨by decide +kernel, serves (by decide +kernel), serves (by decide +kernel), serves (by decide +kernel),
    serves (by decide +kernel), serves (by decide +kernel), serves (by decide +kernel), serves (by decide +kernel),
    serves (by decide +kernel),
    serves (by decide +kernel), serves (by decide +kernel), serves (by decide +kernel)⟩

/-! ## Reservations -/

/-- Storing records one after another keeps the partition. -/
theorem partitioned_foldl_put (r : Record) (l : List SlotId) (q : Pool) (h : q.partitioned) :
    (l.foldl (fun q s => q.put s r) q).partitioned := by
  induction l generalizing q with
  | nil => exact h
  | cons s l ih => exact ih _ (Pool.partitioned_put h s r)

theorem level_partitioned : level.pool.partitioned := Pool.partitioned_reset

theorem holding_partitioned (r : Record) : (holding r).pool.partitioned := by
  show (level.put 0 r).pool.partitioned
  rw [Part.put_pool]
  exact Pool.partitioned_put level_partitioned 0 r

/-- A pool with 32 records waiting in slots 0 to 31, none of which has a place. -/
def listedPool : Pool :=
  (allSlots.take 32).foldl (fun q s => q.put s { stay .waiting none 1100 with eligible := 0 }) Pool.reset

theorem listedPool_partitioned : listedPool.partitioned :=
  partitioned_foldl_put { stay .waiting none 1100 with eligible := 0 } (allSlots.take 32) Pool.reset
    Pool.partitioned_reset

/-- The level with the Waiting List full. -/
def crowdedList : Part :=
  { level with
    pool := listedPool
    lanes := level.lanes.set 0 { Lane.reset with eligible := 0 } }

theorem crowdedList_partitioned : crowdedList.pool.partitioned := by
  dsimp only [crowdedList]
  exact listedPool_partitioned

/-- The level with every slot CLOSING. -/
def fullHouse : Part :=
  { level with
    pool := { Pool.reset with
      slots := Vector.replicate 192 ⟨1, some (stay .closing none 900)⟩, free := [], closing := allSlots } }

theorem fullHouse_partitioned : fullHouse.pool.partitioned := by
  intro s h
  have home : fullHouse.pool.homeOf s = .closing := by
    simp [Pool.homeOf, Pool.record, Pool.slot, fullHouse, Vector.get, Record.home, stay, createdRecord]
  rw [home]
  cases h with
  | chain b => simp [Pool.members, fullHouse, Pool.reset, Vector.get]
  | free | waiting => simp [Pool.members, fullHouse, Pool.reset]
  | closing => simp [Pool.members, fullHouse, count_allSlots]

/-- The admission of the tests' driver by lane 0 as reset leaves it. -/
def admittedAs (mask : BayMask) : Verdicts := .accepted ⟨2, mask, 0, none, []⟩

/-- The level with no bay that its lane admits. -/
def shut : Part := level.setLane 0 { Lane.reset with eligible := 0 }

theorem witness_BookPlacesOrListsTheRecord_placed :
    level.conditionsCurrent ∧ level.pool.partitioned ∧ level.evaluate ⟨driver, 1100, 60⟩ = admittedAs (BitVec.allOnes 64) ∧
      Serves .book level .book (bookBytes driver 1100 60 none)
        ⟨.ok, [1, 0, 1, 0, 0, 0, 4, 0x4C, 0, 0, 4, 0x88, 0, 60, 2, 2, 0]⟩ (slot0 (fun r => r.bay = some 0)) ∧
      Serves .book level .book (bookBytes driver 1000 1 (some 999))
        ⟨.ok, [1, 0, 1, 0, 0, 0, 3, 0xE8, 0, 0, 3, 0xF7, 0, 15, 2, 3, 0]⟩
        (slot0 (fun r => r.state = .held && r.deadline = some 1000)) :=
  ⟨current_of_now (by decide +kernel), level_partitioned, by decide +kernel, serves (by decide +kernel),
    serves (by decide +kernel)⟩

theorem witness_BookPlacesOrListsTheRecord_pool_full :
    fullHouse.conditionsCurrent ∧ fullHouse.pool.partitioned ∧
      Serves .book fullHouse .book (bookBytes driver 11080 720 none) ⟨.poolFull, []⟩ (fun p => p.pool.free.isEmpty) :=
  ⟨current_of_now (by decide +kernel), fullHouse_partitioned, serves (by decide +kernel)⟩

theorem witness_BookPlacesOrListsTheRecord_no_bay :
    shut.conditionsCurrent ∧ shut.pool.partitioned ∧
      Serves .book shut .book (bookBytes driver 1001 60 (some 0))
        ⟨.waiting, [1, 0, 0, 0, 0, 3, 0xE9, 0, 0, 4, 0x25, 0, 60, 2, 1, 1]⟩ (slot0 (fun r => r.deadline = some 1001)) ∧
      Serves .book shut .book (bookBytes driver 1000 60 (some 1000)) ⟨.noBay, []⟩ (fun p => (p.record 0).isNone) ∧
      Serves .book shut .book (bookBytes driver 1100 60 none) ⟨.noBay, []⟩ (fun p => (p.record 0).isNone) :=
  ⟨current_of_now (by decide +kernel), level_partitioned, serves (by decide +kernel), serves (by decide +kernel),
    serves (by decide +kernel)⟩

theorem witness_BookPlacesOrListsTheRecord_list_full :
    crowdedList.conditionsCurrent ∧ crowdedList.pool.partitioned ∧ crowdedList.pool.waiting.length = 32 ∧
      Serves .book crowdedList .book (bookBytes driver 1100 60 (some 1100)) ⟨.listFull, []⟩ (fun _ => true) :=
  ⟨current_of_now (by decide +kernel), crowdedList_partitioned, by decide +kernel, serves (by decide +kernel)⟩

/-- A HELD record on bay 0. -/
def held : Record := stay .held (some 0) 980

theorem witness_ExtensionsArePushedAndPopped :
    (holding held).findLive 256 = some (0, held) ∧
    Serves .extend (holding held) .extend [1, 0, 0, 0] ⟨.range, []⟩ (slot0 (fun r => r = held)) ∧
    Serves .extend (holding (stay .waiting none 1100)) .extend [1, 0, 0, 5] ⟨.wrongState, []⟩ (fun _ => true) ∧
    Serves .extend (holding { held with windowEnd := 1000 }) .extend [1, 0, 0, 5] ⟨.tooLate, []⟩ (fun _ => true) ∧
    Serves .extend (busy .overstay) .extend [1, 0, 0, 5] ⟨.tooLate, []⟩ (fun _ => true) ∧
    Serves .extend (holding { held with extensions := [5, 5, 5] }) .extend [1, 0, 0, 5] ⟨.extendLimit, []⟩ (fun _ => true) ∧
    Serves .extend (holding { held with windowEnd := 1700 }) .extend [1, 0, 0, 5] ⟨.noRoom, []⟩ (fun _ => true) ∧
    Serves .extend (holding held) .extend [1, 0, 0, 31] ⟨.ok, [0, 35, 0, 0, 4, 0x33, 1]⟩
      (slot0 (fun r => r.extensions = [35] && r.windowEnd = 1075 && r.notice)) ∧
    (35 % 5 = 0 ∧ 35 ≤ (31 + 4) / 5 * 5 ∧ held.windowEnd + 35 ≤ held.windowStart + 720 ∧
      (holding held).chain 0 = [0] ∧
      (∀ m < 35, (holding held).carriedAt 0 (some 0) (1040 + m) < ((holding held).feeder 0).concurrency) ∧
      ¬ 40 ≤ (31 + 4) / 5 * 5) ∧
    Serves .retract (holding held) .retract [1, 0] ⟨.nothingToRetract, []⟩ (fun _ => true) ∧
    Serves .retract (holding { held with extensions := [40] }) .retract [1, 0] ⟨.tooLate, []⟩ (fun _ => true) ∧
    Serves .retract (holding { held with extensions := [39, 5], windowEnd := 1040 }) .retract [1, 0]
      ⟨.ok, [0, 39, 0, 0, 3, 0xE9, 1]⟩ (slot0 (fun r => r.extensions = [5] && r.windowEnd = 1001)) :=
  ⟨by decide +kernel, serves (by decide +kernel), serves (by decide +kernel), serves (by decide +kernel),
    serves (by decide +kernel), serves (by decide +kernel), serves (by decide +kernel), serves (by decide +kernel),
    by decide +kernel, serves (by decide +kernel), serves (by decide +kernel), serves (by decide +kernel)⟩

/-- A record whose window has lost its minutes: of [620, 615), 720 − (u − t) is 725 (R81), at 1000 minutes more. -/
theorem witness_ExtensionsArePushedAndPopped_no_minutes :
    Serves .extend (holding { stay .booked (some 0) 1620 with windowEnd := 1615 }) .extend [1, 0, 0xFF, 0xFF]
      ⟨.ok, [2, 0xD5, 0, 0, 9, 0x24, 1]⟩ (slot0 (fun r => r.extensions = [725] && r.windowEnd = 2340)) :=
  serves (by decide +kernel)

theorem witness_CancelClosesTheRecord :
    Serves .cancel (holding held) .cancel [2, 0] ⟨.unknownReservation, []⟩ (slot0 (fun r => r = held)) ∧
    Serves .cancel withClosed .cancel [1, 0] ⟨.unknownReservation, []⟩ (fun _ => true) ∧
    Serves .cancel (busy .charge) .cancel [1, 0] ⟨.wrongState, []⟩ (fun _ => true) ∧
    Serves .cancel (holding held) .cancel [1, 0] ⟨.ok, []⟩
      (slot0 (fun r => r.state = .closing && r.close.any (fun c => c.result = .cancelled && c.handle = 256))) :=
  ⟨serves (by decide +kernel), serves (by decide +kernel), serves (by decide +kernel), serves (by decide +kernel)⟩

theorem witness_ArriveOnTheOwnBayEngagesOrWaits :
    ((holding held).conditionsCurrent ∧ (holding held).findLive 256 = some (0, held) ∧
      Serves .arrive (holding held) .arrive [1, 0, 0]
        ⟨.ok, [1, 0, 4, 0, 0, 0, 3, 0xD4, 0, 0, 4, 0x10, 1, 0, 0, 3, 0xE8]⟩ (slot0 (fun r => r.state = .arriving))) ∧
    ((occupiedBy held .plugged).conditionsCurrent ∧
      Serves .arrive (occupiedBy held .plugged) .arrive [1, 0, 0]
        ⟨.ok, [1, 0, 5, 0, 0, 0, 3, 0xD4, 0, 0, 4, 0x10, 0]⟩ (session0 (fun x => x.phase = .charge))) ∧
    Serves .arrive (occupiedBy held .unplugged) .arrive [1, 0, 0]
      ⟨.ok, [1, 0, 5, 0, 0, 0, 3, 0xD4, 0, 0, 4, 0x10, 0]⟩ (session0 (fun x => x.phase = .plugWait)) ∧
    Serves .arrive (calm ((holding held).modBay 0 (fun x => { x with service := .out }))) .arrive [1, 0, 0]
      ⟨.bayBusy, []⟩ (slot0 (fun r => r = held)) :=
  ⟨⟨current_of_now (by decide +kernel), by decide +kernel, serves (by decide +kernel)⟩,
    ⟨current_of_now (by decide +kernel), serves (by decide +kernel)⟩, serves (by decide +kernel),
    serves (by decide +kernel)⟩

theorem witness_ArriveWalkinCreatesTheStay :
    (level.conditionsCurrent ∧ level.pool.partitioned ∧ level.evaluate ⟨driver, 1000, 60⟩ = admittedAs (BitVec.allOnes 64) ∧
      level.walkinEnd 0 60 = 1060 ∧
      Serves .arriveWalkin level .arriveWalkin [0, 0, 0, 1, 0, 0, 60, 0, 0]
        ⟨.ok, [1, 0, 0, 4, 0, 0, 3, 0xE8, 0, 0, 4, 0x24, 0, 60, 2, 1, 0, 0, 3, 0xFC]⟩
        (slot0 (fun r => r.state = .arriving && r.origin = .walkIn))) ∧
    Serves .arriveWalkin (calm (level.modBay 0 (fun x => { x with occupancy := .occupied, plug := .plugged })))
      .arriveWalkin [0, 0, 0, 1, 0, 0, 15, 0, 0]
      ⟨.ok, [1, 0, 0, 5, 0, 0, 3, 0xE8, 0, 0, 3, 0xF7, 0, 15, 2, 0]⟩ (session0 (fun x => x.phase = .charge)) ∧
    Serves .arriveWalkin level .arriveWalkin [2, 0, 0, 1, 0, 0, 60, 0, 0] ⟨.wrongBay, []⟩ (fun _ => true) ∧
    Serves .arriveWalkin level .arriveWalkin [0, 0, 0, 2, 0, 0, 60, 0, 0] ⟨.wrongBay, []⟩ (fun _ => true) ∧
    Serves .arriveWalkin shut .arriveWalkin [0, 0, 0, 1, 0, 0, 60, 0, 0] ⟨.wrongBay, []⟩ (fun _ => true) ∧
    Serves .arriveWalkin (holding held) .arriveWalkin [0, 0, 0, 1, 0, 0, 60, 0, 0] ⟨.bayBusy, []⟩ (fun _ => true) ∧
    Serves .arriveWalkin (holding (stay .booked (some 0) 1024)) .arriveWalkin [0, 0, 0, 1, 0, 0, 60, 0, 0]
      ⟨.noRoom, []⟩ (fun _ => true) ∧
    Serves .arriveWalkin fullHouse .arriveWalkin [0, 0, 0, 1, 0, 0, 60, 0, 0] ⟨.poolFull, []⟩ (fun _ => true) :=
  ⟨⟨current_of_now (by decide +kernel), level_partitioned, by decide +kernel, by decide +kernel,
      serves (by decide +kernel)⟩,
    serves (by decide +kernel), serves (by decide +kernel), serves (by decide +kernel), serves (by decide +kernel),
    serves (by decide +kernel), serves (by decide +kernel), serves (by decide +kernel)⟩

/-! ## Sessions -/

theorem witness_EndSessionSettlesOrCloses :
    Serves .endSession (holding held) .endSession [1, 0] ⟨.wrongState, []⟩ (slot0 (fun r => r = held)) ∧
    Serves .endSession (busy .settling) .endSession [1, 0] ⟨.ok, [8]⟩ (session0 (fun x => x = sessionIn .settling)) ∧
    Serves .endSession (busy .halted) .endSession [1, 0] ⟨.ok, [6]⟩
      (slot0 (fun r => r.close.any (fun c => c.result = .stopped && c.closedBy = .host && c.engaged = some 990))) ∧
    Serves .endSession (busy .overstay) .endSession [1, 0] ⟨.ok, [8]⟩
      (session0 (fun x => x.settle = some ⟨.host, 30000000⟩)) :=
  ⟨serves (by decide +kernel), serves (by decide +kernel), serves (by decide +kernel), serves (by decide +kernel)⟩

/-- The level with a HALTED session on bay 0, stopped in a phase. -/
def halted (phase : Phase) (plug : Plug) : Part :=
  occupiedBy (charging 0 { sessionIn .halted with stoppedIn := some phase }) plug

/-- The level with a session at its quota. -/
def atQuota (quota : Nat) (plug : Plug) : Part :=
  occupiedBy { charging 0 (sessionIn .quotaMet) with quota := some quota } plug

theorem witness_SessionResumeReturnsToCharge :
    Serves .sessionResume (holding held) .sessionResume [1, 0, 0] ⟨.wrongState, []⟩ (fun _ => true) ∧
    Serves .sessionResume (busy .charge) .sessionResume [1, 0, 0] ⟨.wrongState, []⟩ (fun _ => true) ∧
    Serves .sessionResume (calm ((halted .charge .plugged).setPost 0 (livePost .lost))) .sessionResume [1, 0, 0]
      ⟨.notReady, []⟩ (fun _ => true) ∧
    Serves .sessionResume (halted .quotaMet .plugged) .sessionResume [1, 0, 0] ⟨.ok, [4, 0]⟩
      (session0 (fun x => x.phase = .quotaMet && x.stoppedIn = none)) ∧
    Serves .sessionResume (halted .satisfied .plugged) .sessionResume [1, 0, 0] ⟨.ok, [5, 0]⟩
      (session0 (fun x => x.satisfied = 300)) ∧
    Serves .sessionResume (halted .paused .plugged) .sessionResume [1, 0, 0] ⟨.ok, [2, 0]⟩
      (session0 (fun x => x.phase = .charge)) ∧
    Serves .sessionResume ((halted .charge .plugged).modBay 0 (fun x => { x with penalty := 1 })) .sessionResume [1, 0, 0]
      ⟨.ok, [3, 0]⟩ (session0 (fun x => x.pause = .overdraw)) ∧
    Serves .sessionResume (halted .satisfied .unplugged) .sessionResume [1, 0, 0] ⟨.ok, [1, 0]⟩
      (session0 (fun x => x.phase = .plugWait)) ∧
    Serves .sessionResume (busy .satisfied) .sessionResume [1, 0, 0] ⟨.ok, [2, 0]⟩ (session0 (fun x => x.phase = .charge)) ∧
    Serves .sessionResume (atQuota 5 .plugged) .sessionResume [1, 0, 0] ⟨.wrongState, []⟩ (fun _ => true) ∧
    Serves .sessionResume (atQuota 5 .plugged) .sessionResume [1, 0, 1, 0, 0, 0, 0] ⟨.wrongState, []⟩ (fun _ => true) ∧
    Serves .sessionResume (atQuota 200000 .plugged) .sessionResume [1, 0, 1, 0, 0, 0, 1] ⟨.range, []⟩ (fun _ => true) ∧
    Serves .sessionResume (atQuota 199999 .plugged) .sessionResume [1, 0, 1, 255, 255, 255, 255]
      ⟨.ok, [2, 1, 0, 3, 0x0D, 0x40]⟩ (slot0 (fun r => r.quota = some 200000)) ∧
    Serves .sessionResume (atQuota 5 .unplugged) .sessionResume [1, 0, 1, 0, 0, 0, 1]
      ⟨.ok, [1, 1, 0, 0, 0, 6]⟩ (session0 (fun x => x.phase = .plugWait)) :=
  ⟨serves (by decide +kernel), serves (by decide +kernel), serves (by decide +kernel), serves (by decide +kernel),
    serves (by decide +kernel), serves (by decide +kernel), serves (by decide +kernel), serves (by decide +kernel),
    serves (by decide +kernel), serves (by decide +kernel), serves (by decide +kernel), serves (by decide +kernel),
    serves (by decide +kernel), serves (by decide +kernel)⟩

/-- The machine after a command, its transmitter busy with a notice throughout. -/
def talking (p : Part) : State := { quietly p with port := (crowded 0 0).port }

theorem witness_SessionTickMetersEveryEngagedRecord :
    runs .sessionTick (talking ((busy .charge).modBay 0 (fun x => { x with reading := 800 }))) (fun t =>
      session0 (fun x => x.within = 5 && x.residue = 4000) t.part && !t.part.outstanding.session) = true ∧
    ((sessionIn .charge).meter (some 6) 800 230).within = 5 ∧
    ((sessionIn .charge).meter (some 5) 800 230).phase = .quotaMet ∧
    ((sessionIn .overstay).meter (some 4) 800 230).excess = 1 ∧
    ((sessionIn .halted).meter (some 4) 800 230).seen = ⟨true, true, false, false, false⟩ ∧
    ({ sessionIn .charge with within := 4 }.meter (some 4) 800 230).excess = 5 ∧
    ({ sessionIn .charge with satisfied := 298 }.checkSatisfied 60 9).satisfied = 299 ∧
    ({ sessionIn .charge with satisfied := 299 }.checkSatisfied 60 9).phase = .satisfied ∧
    ({ sessionIn .charge with satisfied := 299 }.checkSatisfied 59 9).satisfied = 0 ∧
    ({ sessionIn .charge with satisfied := 299 }.checkSatisfied 60 10).satisfied = 0 ∧
    ((sessionIn .satisfied).checkSatisfied 0 800).satisfied = 300 := by decide +kernel

/-- The level with a session at the edge of a quota. -/
def nearQuota (quota : Nat) : Part :=
  ((occupiedBy { charging 0 (sessionIn .charge) with quota := some quota } .plugged).modBay 0
    (fun x => { x with reading := 800 }))

/-- The level with a session that draws nothing. -/
def sated (count : Nat) : Part :=
  (occupiedBy (charging 0 { sessionIn .charge with satisfied := count }) .plugged).modBay 0
    (fun x => { x with limit := 60, reading := 9 })

theorem witness_QuotaAndSatisfactionEndTheCharge :
    runs (.quotaMet 0) (talking (nearQuota 5)) (fun t => session0 (fun x => x.phase = .quotaMet && x.excess = 0) t.part) =
      true ∧
    runs (.quotaMet 0) (talking (nearQuota 1)) (fun t => session0 (fun x => x.within = 1 && x.excess = 4) t.part) = true ∧
    runs (.quotaMet 0) (talking (nearQuota 6)) (fun t => session0 (fun x => x.within = 0) t.part) = true ∧
    runs (.satisfied 0) (talking (sated 299)) (fun t => session0 (fun x => x.phase = .satisfied) t.part &&
      (t.part.feeder 0).recomputeDue) = true ∧
    runs (.satisfied 0) (talking (sated 298)) (fun t => session0 (fun x => x.satisfied = 298) t.part) = true := by
  decide +kernel

/-! ## Power sharing and trips -/

theorem busy_partitioned (phase : Phase) : (busy phase).pool.partitioned := by
  dsimp only [busy, occupiedBy, calm]
  rw [Part.modBay_pool, Part.put_pool]
  exact Pool.partitioned_put level_partitioned 0 _

theorem witness_RecomputeStaysWithinTheAvailableCurrent :
    (busy .charge).pool.partitioned ∧
    runs (.recompute 0) (talking (busy .charge)) (fun t => (t.part.bay 0).limit = 320 && (t.part.bay 1).limit = 0) = true ∧
    (runs (.recompute 7) (talking level) (fun t => same t.part level) = true ∧ (level.feeder 7).state = .unused) ∧
    ((goodFeeder.available = 1600 ∧ { goodFeeder with trim := 20000 }.available = 0) ∧ Feeder.reset.available = 0) ∧
    (runs (.recompute 0) (talking ((busy .paused).modFeeder 0 (fun x => { x with limit := 59 }))) (fun t =>
      session0 (fun x => x.phase = .paused && x.pause = .shortfall) t.part && (t.part.feeder 0).sticky.shortfall) = true ∧
    runs (.recompute 0) (talking ((busy .charge).modFeeder 0 (fun x => { x with state := .recovering }))) (fun t =>
      session0 (fun x => x.phase = .paused && x.pause = .trip) t.part && !(t.part.feeder 0).sticky.shortfall) = true ∧
    (busy .charge).demanding 0 = [⟨0, 0, 320, 2, 990, (busy .charge).settings.w2⟩]) :=
  ⟨busy_partitioned .charge, by decide +kernel, by decide +kernel, by decide +kernel, by decide +kernel⟩

/-- Two members of a demanding set. -/
def twoMembers : List Member := [⟨0, 0, 100, 2, 990, 2⟩, ⟨1, 1, 320, 3, 995, 3⟩]

theorem witness_DivisionAdmitsAndFillsUpToTheCaps :
    (twoMembers.map (·.bay)).Nodup ∧ (∀ m ∈ twoMembers, 60 ≤ m.cap ∧ 1 ≤ m.weight) ∧
    (divide 59 0 twoMembers).given = [] ∧ (divide 119 0 twoMembers).given = [(1, 119)] ∧
    (divide 121 0 twoMembers).given = [(0, 61), (1, 60)] ∧ (divide 300 0 twoMembers).given = [(0, 100), (1, 200)] ∧
    (divide 1600 0 twoMembers).given = [(0, 100), (1, 320)] := by decide +kernel

/-- The level with a session that draws more than its feeder has. -/
def overdrawn (count : Nat) : Part :=
  ((busy .charge).modFeeder 0 (fun x => { x with overdrawCount := count, trim := 1000 })).modBay 0
    (fun x => { x with reading := 700, limit := 320 })

theorem witness_OverdrawPenaltiesFallRunAndEnd :
    (busy .charge).pool.partitioned ∧
    runs .shareTick (talking ((busy .charge).modBay 0 (fun x => { x with penalty := 60, reading := 800 }))) (fun t =>
      (t.part.bay 0).penalty = 59 && (t.part.feeder 0).overdrawCount = 0) = true ∧
    runs (.overdrawPenalty 0) (talking (overdrawn 2)) (fun t => (t.part.bay 0).penalty = 60 &&
      (t.part.feeder 0).sticky.overdraw && session0 (fun x => x.pause = .overdraw) t.part) = true ∧
    runs (.overdrawPenalty 0) (talking (overdrawn 1)) (fun t => (t.part.bay 0).penalty = 0) = true ∧
    runs (.penaltyEnd 0) (talking (level.modBay 0 (fun x => { x with penalty := 1 }))) (fun t =>
      (t.part.bay 0).penalty = 0 && (t.part.feeder 0).recomputeDue) = true ∧
    runs (.penaltyEnd 0) (talking (level.modBay 0 (fun x => { x with penalty := 2 }))) (fun t =>
      (t.part.bay 0).penalty = 2) = true :=
  ⟨busy_partitioned .charge, by decide +kernel, by decide +kernel, by decide +kernel, by decide +kernel,
    by decide +kernel⟩

/-- The level with a debounce difference on pin 0. -/
def differing (low : Bool) (p : Part) : Part := p.setTrip 0 ⟨low, some 0⟩

/-- The level with feeder 0 TRIPPED or RECOVERING. -/
def tripped (state : FeederState) (recovery : Option Nat) : Part :=
  level.modFeeder 0 (fun x => { x with state := state, active := true, recovery := recovery })

theorem witness_TripInputsTripAndReleaseTheFeeder :
    runs (.tripInputChange 0 true 7) (talking level) (fun t => t.part.trip 0 = ⟨true, some 7⟩) = true ∧
    runs (.tripInputChange 0 false 9) (talking (differing true level)) (fun t => t.part.trip 0 = ⟨false, none⟩) = true ∧
    runs (.debounce 0 199999) (talking (differing true level)) (fun t => (t.part.feeder 0).state = .normal) = true ∧
    runs (.debounce 0 200000) (talking (differing true (busy .charge))) (fun t => (t.part.feeder 0).state = .tripped &&
      (t.part.bay 0).limit = 0 && session0 (fun x => x.pause = .trip) t.part) = true ∧
    runs (.debounce 0 200000) (talking (differing false (tripped .tripped none))) (fun t =>
      (t.part.feeder 0).state = .recovering && (t.part.feeder 0).recovery = some 30200000) = true ∧
    runs (.debounce 7 200000) (talking (level.setTrip 7 ⟨true, some 0⟩)) (fun t => (t.part.feeder 7).state = .unused &&
      (t.part.feeder 7).active) = true ∧
    runs (.debounce 0 200000) (talking level) (fun t => same t.part level) = true ∧
    runs (.debounce 0 200000) (talking (differing false ((busy .charge).modFeeder 0 (fun x => { x with
      state := .tripped, active := true })))) (fun t => (t.part.feeder 0).state = .recovering &&
      session0 (fun x => x.pause = .trip) t.part) = true ∧
    runs (.recoveryTimer 0 50) (talking (tripped .recovering (some 50))) (fun t => (t.part.feeder 0).state = .normal) =
      true ∧
    runs (.recoveryTimer 0 49) (talking (tripped .recovering (some 50))) (fun t =>
      (t.part.feeder 0).state = .recovering) = true := by decide +kernel

/-! ## The clock and the timed events -/

theorem witness_TickAndMinuteMoveTheClock :
    runs (.tick 5) (talking level) (fun t => t.part.clock.second = 1 && t.part.outstanding = ⟨false, true, true⟩) = true ∧
    runs (.tick 5) (talking { level with clock := ⟨true, 4294967294, 59, none⟩ }) (fun t =>
      t.part.clock = ⟨true, 4294967295, 0, none⟩ && t.part.outstanding.minute) = true ∧
    runs (.tick 5) (talking { level with clock := ⟨false, 0, 59, none⟩ }) (fun t => t.part.clock = ⟨false, 0, 0, none⟩) =
      true ∧
    runs .minuteEvent (talking State.reset.part) (fun t => t.part.clock = Clock.reset) = true ∧
    runs .minuteEvent (talking level) (fun t => t.part.clock = level.clock) = true := by decide +kernel

theorem witness_DueRecordsAreHeldClosedOrOverstay :
    (currentNow (holding (stay .booked (some 0) 1000)) = true ∧ (holding (stay .booked (some 0) 1000)).pool.partitioned ∧
      runs (.windowStart 0) (talking (holding (stay .booked (some 0) 1000))) (fun t =>
        slot0 (fun r => r.state = .held) t.part && (t.part.bay 0).condition = .reserved) = true) ∧
    runs (.graceEnd 0) (talking (holding held)) (fun t => slot0 (fun r => r.close.any (fun c => c.result = .noShow))
      t.part) = true ∧
    runs (.windowEnd 0) (talking (holding (stay .arriving (some 0) 940))) (fun t => slot0 (fun r =>
      r.close.any (fun c => c.result = .noShow && c.windowEnd = 1000)) t.part) = true ∧
    runs (.waitingDeadline 0) (talking (holding { stay .waiting none 900 with deadline := some 1000 })) (fun t =>
      slot0 (fun r => r.close.any (fun c => c.result = .expired)) t.part) = true ∧
    runs (.windowEnd 0) (talking (occupiedBy { charging 0 (sessionIn .charge) with windowEnd := 1000 } .plugged)) (fun t =>
      session0 (fun x => x.phase = .overstay && x.overstayStart = some 1000) t.part &&
      (t.part.bay 0).condition = .overstay) = true ∧
    runs (.windowEnd 0) (talking (occupiedBy { charging 0 (sessionIn .settling) with windowEnd := 1000 } .plugged))
      (fun t => session0 (fun x => x = sessionIn .settling) t.part) = true :=
  ⟨⟨by decide +kernel, holding_partitioned _, by decide +kernel⟩, by decide +kernel, by decide +kernel, by decide +kernel,
    by decide +kernel, by decide +kernel⟩

/-- The level with bay 0 out of service under a BOOKED record. -/
def blocked (mask : BayMask) : Part :=
  calm ((level.put 0 { stay .booked (some 0) 1010 with eligible := mask }).modBay 0
    (fun x => { x with service := .out }))

/-- The level with the Waiting List full and a BOOKED record on bay 0. -/
def crowdedOut : Part :=
  { crowdedList with pool := listedPool.put 32 { stay .booked (some 0) 1010 with eligible := 0 } }

/-- The level with bay 0 out of service under a BOOKED record whose window has lost its minutes (log 40). -/
def minuteless : Part := (blocked 1).put 0 { stay .booked (some 0) 1010 with eligible := 1, windowEnd := 1005 }

theorem witness_LeadCheckRelocatesOffABlockedBay :
    runs (.leadCheck 0) (talking (holding (stay .booked (some 0) 1010))) (fun t => slot0 (fun r => r.leadTaken &&
      r.bay = some 0) t.part) = true ∧
    runs (.leadCheck 0) (talking (blocked (BitVec.allOnes 64))) (fun t => slot0 (fun r => r.bay = some 1 &&
      r.lastCause = .relocated) t.part) = true ∧
    ((blocked 1).relocate 0).recordIs (fun r => r.state = .waiting && r.priority = 3 && r.deadline = some 1030) 0 = true ∧
    (minuteless.relocate 0).recordIs (fun r => r.state = .waiting && r.windowStart = 1010 && r.windowEnd = 1005) 0 = true ∧
    (crowdedOut.relocate 32).recordIs (fun r => r.close.any (fun c => c.result = .displaced)) 32 = true := by
  decide +kernel

theorem witness_WakeBayPostAndClockEventsActWhenDue :
    runs (.wakeCheck 0) (talking ((holding (stay .booked (some 0) 1030)).setPost 0 (livePost .standby))) (fun t =>
      (t.part.post 0).link = .waking && (t.part.post 0).timer = .wake 3000000) = true ∧
    runs (.wakeCheck 0) (talking (holding (stay .booked (some 0) 1030))) (fun t => (t.part.post 0).link = .active &&
      slot0 (fun r => r.wakeTaken) t.part) = true ∧
    runs (.verifyExpiry 0) (talking (level.modBay 0 (fun x => { x with
      occupancy := .occupied, verify := .running 1000, condition := .unverified }))) (fun t =>
      (t.part.bay 0).verify = .expired && (t.part.bay 0).condition = .intruded) = true ∧
    runs (.idleTimer 0) (talking (level.setPost 0 { livePost .active with timer := .idle 1000 })) (fun t =>
      (t.part.post 0).link = .standby) = true ∧
    runs .rollover (talking { level with clock := ⟨true, 1440, 0, some 0⟩ }) (fun t => t.part.clock.lastDay = some 1) =
      true ∧
    runs (.verifyExpiry 0) (talking (level.modBay 0 (fun x => { x with verify := .running 1001 }))) (fun t =>
      (t.part.bay 0).verify = .running 1001) = true := by decide +kernel

/-! ## The bay link -/

theorem witness_RoundStartSendsTheLowestDuePostItsCommand :
    runs (.roundStart 0) (talking level) (fun t => t.part.link = ⟨1, 0, false, none,
      some ⟨0, 0, [0, 2, 0, 0, 0, 0, 0, 0x52], none⟩⟩) = true ∧
    runs (.roundStart 3) (talking State.reset.part) (fun t => t.part.link = ⟨1, 3, false, none, none⟩) = true ∧
    runs (.roundStart 249999) (talking { level with link := ⟨9, 0, false, some 0, none⟩ }) (fun t =>
      t.part.link.exchange.isNone) = true ∧
    runs (.roundStart 250000) (talking { (level.setPost 0 (livePost .standby)) with link := ⟨9, 0, false, some 0, none⟩ })
      (fun t => t.part.link.roundCount = 0 && t.part.link.exchange.isSome) = true ∧
    runs (.roundStart 250000) (talking { (level.setPost 0 (livePost .standby)) with link := ⟨8, 0, false, some 0, none⟩ })
      (fun t => t.part.link.roundCount = 9 && t.part.link.exchange.isNone) = true := by decide +kernel

/-- A clean reply of post 0 with its first socket occupied and plugged. -/
def cleanReply (ready : Byte) : List Byte :=
  let l : List Byte := [0, 0, ready ||| 0x0C, 0, 100, 0, 0, 0, 0, 0, 0]
  l ++ [crc8 l]

/-- Posts 0, 3 and 5 in use, with the exchange of a round just ended at an address. -/
def between (visited : PostId) (count : Nat) : Part :=
  { ((level.setPost 3 (livePost .standby)).setPost 5 (livePost .lost)) with
    link := ⟨count, 0, false, some visited, none⟩
    work := { Work.empty with nextExchange := true } }

theorem witness_RoundStartSendsTheLowestDuePostItsCommand_next :
    (between 0 0).finish.link.exchange.map (·.post) = some 3 ∧ (between 0 1).finish.link.exchange.map (·.post) = some 5 ∧
    (between 5 0).finish.link.exchange = none ∧ (between 5 0).finish.work = Work.empty ∧
    level.takeExchange.link.exchange = none ∧
    ((exchanging level none).cut 0).link.lastVisited = some 0 ∧
    ((exchanging level none).cut 1).link.exchange.isSome = true := by decide +kernel

theorem witness_ExchangeEndsByValidReplyOrMiss :
    runs (.commandSent 5) (talking (exchanging level none)) (fun t => t.part.link.exchange.any (fun x =>
      x.deadline = some 3005)) = true ∧
    runs (.commandSent 5) (talking (exchanging level (some 9))) (fun t => t.part.link.exchange.any (fun x =>
      x.deadline = some 9)) = true ∧
    runs (.reply (cleanReply 0) 8) (talking (exchanging level (some 9))) (fun t => t.part.link.exchange.isNone &&
      (t.part.bay 0).reading = 100 && (t.part.bay 0).verify = .running 1005 && (t.part.post 0).seq = 1) = true ∧
    runs (.reply (cleanReply 0) 9) (talking (exchanging level (some 9))) (fun t => t.part.link.exchange.isSome) = true ∧
    runs (.reply (List.replicate 12 1) 8) (talking (exchanging level (some 9))) (fun t => t.part.link.exchange.isSome) =
      true ∧
    runs (.replyGap (List.replicate 11 1) 8) (talking (exchanging level (some 9))) (fun t =>
      t.part.link.exchange.isSome) = true ∧
    runs (.miss 9) (talking (exchanging level (some 9))) (fun t => (t.part.post 0).misses = 1 &&
      t.part.link.lastVisited = some 0) = true ∧
    runs (.miss 8) (talking (exchanging level (some 9))) (fun t => (t.part.post 0).misses = 0) = true ∧
    runs (.miss 9) (talking (exchanging (level.setPost 0 { livePost .active with misses := 2 }) (some 9))) (fun t =>
      (t.part.post 0).link = .lost && (t.part.bay 0).condition = .dark) = true := by decide +kernel

/-- A reply of post 0 without fault and without vehicles. -/
def emptyReply (fault : Nat) (ready : Bool) : LinkReply := ⟨0, 0, fault, ready, ⟨false, false, 0, 0⟩, ⟨false, false, 0, 0⟩⟩

/-- The link state of post 0 after a reply. -/
def linkAfter (x : Post) (fault : Nat) (ready : Bool) : LinkState :=
  (((level.setPost 0 x).takeReply 0 (emptyReply fault ready)).post 0).link

theorem witness_ValidReplyDrivesThePostState :
    linkAfter (livePost .waking) 1 true = .isolated ∧ linkAfter (livePost .isolated) 15 true = .isolated ∧
    linkAfter (livePost .seeking) 0 true = .seeking ∧ linkAfter { livePost .lost with valid := 1 } 0 false = .preparing ∧
    linkAfter (livePost .preparing) 0 true = .active ∧ linkAfter (livePost .preparing) 0 false = .preparing ∧
    linkAfter (livePost .waking) 0 true = .active ∧ linkAfter (livePost .waking) 0 false = .waking ∧
    linkAfter (livePost .standby) 0 true = .standby ∧ level.boundBay 0 .a = some 0 ∧ level.boundBay 0 .b = some 1 := by
  decide +kernel

theorem witness_LinkAndSettleLimitsAct :
    runs (.prepareLimit 0 9) (talking (level.setPost 0 { livePost .preparing with timer := .prepare 9 })) (fun t =>
      (t.part.post 0).cause = .prepareTimeout) = true ∧
    runs (.prepareLimit 0 8) (talking (level.setPost 0 { livePost .preparing with timer := .prepare 9 })) (fun t =>
      (t.part.post 0).link = .preparing) = true ∧
    runs (.wakeLimit 0 9) (talking (level.setPost 0 { livePost .waking with timer := .wake 9, slowWakes := 1 })) (fun t =>
      (t.part.post 0).slowWakes = 2 && (t.part.post 0).timer = .wake 3000009) = true ∧
    runs (.wakeLimit 0 9) (talking (level.setPost 0 { livePost .waking with timer := .wake 9, slowWakes := 2 })) (fun t =>
      (t.part.post 0).cause = .wakeFault) = true ∧
    runs (.wakeLimit 0 8) (talking (level.setPost 0 { livePost .waking with timer := .wake 9, slowWakes := 2 })) (fun t =>
      (t.part.post 0).link = .waking) = true ∧
    runs (.settleTimer 0 9) (talking (occupiedBy (charging 0 { sessionIn .settling with settle := some ⟨.departed, 9⟩ })
      .plugged)) (fun t => slot0 (fun r => r.close.any (fun c => c.result = .stopped && c.closedBy = .departed)) t.part) =
      true ∧
    runs (.settleTimer 0 8) (talking (occupiedBy (charging 0 { sessionIn .settling with settle := some ⟨.departed, 9⟩ })
      .plugged)) (fun t => slot0 (fun r => r.state = .engaged) t.part) = true := by decide +kernel

/-! ## The rules behind the commands -/

/-- The session in slot 0 after a reply for bay 0. -/
def sessionAfter (x : Session) (quota : Option Nat) (v : SocketReading) (changed : Bool) : Option Session :=
  ((occupiedBy { charging 0 x with quota := quota } .plugged).sessionReply 0 v changed).session 0

theorem witness_RepliesPlugSettleAndCompleteSessions :
    ((busy .charge).occupant 0 = some 0 ∧
      ((occupiedBy (charging 0 { sessionIn .settling with settle := some ⟨.host, 9⟩ }) .plugged).sessionReply 0
        ⟨true, true, 9, 0⟩ false).recordIs (fun r => r.close.any (fun c => c.result = .complete)) 0 = true) ∧
    sessionAfter { sessionIn .settling with settle := some ⟨.host, 9⟩ } none ⟨true, true, 10, 0⟩ true =
      some { sessionIn .settling with settle := some ⟨.host, 9⟩ } ∧
    (sessionAfter (sessionIn .charge) none ⟨false, false, 0, 0⟩ true).any (fun x => x.settle = some ⟨.departed, 30000000⟩) =
      true ∧
    (sessionAfter (sessionIn .plugWait) none ⟨true, true, 0, 0⟩ true).any (fun x => x.phase = .charge) = true ∧
    (sessionAfter (sessionIn .plugWait) (some 0) ⟨true, true, 0, 0⟩ true).any (fun x => x.phase = .quotaMet) = true ∧
    (sessionAfter (sessionIn .satisfied) none ⟨true, false, 0, 0⟩ true).any (fun x => x.phase = .plugWait) = true ∧
    sessionAfter (sessionIn .charge) none ⟨false, true, 0, 0⟩ false = some (sessionIn .charge) := by decide +kernel

theorem witness_ConditionIsTheFirstTestThatHolds :
    level.conditionOf 2 = .out ∧ (level.setPost 0 (livePost .seeking)).conditionOf 0 = .dark ∧
    (busy .overstay).conditionOf 0 = .overstay ∧ (busy .charge).conditionOf 0 = .inUse ∧
    (level.modBay 0 (fun x => { x with occupancy := .occupied, verify := .running 5 })).conditionOf 0 = .unverified ∧
    (level.modBay 0 (fun x => { x with occupancy := .occupied, verify := .expired })).conditionOf 0 = .intruded ∧
    (holding held).conditionOf 0 = .reserved ∧ level.conditionOf 0 = .free ∧
    ((level.modBay 0 (fun x => { x with service := .out })).derive 0).work.blocked = [⟨0, false⟩] := by decide +kernel

/-- A call for a window. -/
def callFor (start stop : Nat) (preferred : BayMask) : Call :=
  ⟨start, stop, .ct1, BitVec.allOnes 64, preferred, none, none, none⟩

theorem witness_FitAndConcurrencyTestsAreThoseOfEveryMinute :
    (holding held).fits (callFor 1050 1110 0) 0 = true ∧ (holding held).fits (callFor 1049 1110 0) 0 = false ∧
    (holding held).carries 0 none 1039 1040 = true ∧
    ((holding held).modFeeder 0 (fun x => { x with concurrency := 1 })).carries 0 none 1039 1040 = false ∧
    ((holding held).modFeeder 0 (fun x => { x with concurrency := 1 })).carries 0 none 1040 1050 = true := by
  decide +kernel

theorem witness_PlacementReturnsTheBestPassingBay :
    level.place (callFor 1000 1060 0) = some 0 ∧ level.place (callFor 1000 1060 2) = some 1 ∧
    shut.place { callFor 1000 1060 0 with eligible := 0 } = none := by decide +kernel

theorem witness_PolicyWalkTakesTheRulesInOrder :
    (ruled .accept ⟨true, 3⟩ 3).evaluate ⟨driver, 1000, 60⟩ = .policyQuota 0 ∧
    (ruled .refuse ⟨true, 3⟩ 2).evaluate ⟨driver, 1000, 60⟩ = .policyRefused (some 0) ∧
    (ruled .continue_ ⟨true, 3⟩ 2).evaluate ⟨driver, 1000, 60⟩ = .accepted ⟨2, BitVec.allOnes 64, 0, none, [0]⟩ ∧
    level.evaluate ⟨driver, 1000, 60⟩ = admittedAs (BitVec.allOnes 64) := by decide +kernel

/-! ## The further clauses of the wide statements -/

theorem calm_pool (p : Part) : (calm p).pool = p.pool := rfl

theorem blocked_partitioned (mask : BayMask) : (blocked mask).pool.partitioned := by
  rw [blocked, calm_pool, Part.modBay_pool, Part.put_pool]
  exact Pool.partitioned_put level_partitioned 0 _

/-- The settings after reset with one change. -/
def changed (f : Settings → Settings) : List Byte := (f Settings.reset).bytes

theorem witness_PartSetStoresAllOrNothing_leads :
    ((blocked 1).conditionsCurrent ∧ (blocked 1).pool.partitioned ∧
      Serves .partSet (blocked 1) .partSet (changed (fun x => { x with lead := 11 })) ⟨.ok, []⟩
        (slot0 (fun r => r.state = .waiting && r.bay = none))) ∧
    ((holding (stay .booked (some 0) 1060)).conditionsCurrent ∧
      (holding (stay .booked (some 0) 1060)).pool.partitioned ∧
      Serves .partSet (holding (stay .booked (some 0) 1060)) .partSet (changed (fun x => { x with lead := 60 })) ⟨.ok, []⟩
        (slot0 (fun r => r.leadTaken && r.bay = some 0)) ∧
      Serves .partSet (holding (stay .booked (some 0) 1060)) .partSet (changed (fun x => { x with lead := 59 })) ⟨.ok, []⟩
        (slot0 (fun r => !r.leadTaken && r.bay = some 0))) :=
  ⟨⟨current_of_now (by decide +kernel), blocked_partitioned 1, serves (by decide +kernel)⟩,
    ⟨current_of_now (by decide +kernel), holding_partitioned _, serves (by decide +kernel), serves (by decide +kernel)⟩⟩

/-- The level with a BOOKED record that starts at 1040 and its post in a state. -/
def awaiting (x : Post) : Part := (holding (stay .booked (some 0) 1040)).setPost 0 x

theorem witness_PartSetStoresAllOrNothing_retry :
    Serves .partSet (holding (stay .waiting none 1100)) .partSet (changed (fun x => { x with lead := 11 })) ⟨.ok, []⟩
      (slot0 (fun r => r.state = .booked && r.bay = some 0)) :=
  serves (by decide +kernel)

theorem witness_PartSetStoresAllOrNothing_wakes :
    Serves .partSet (awaiting (livePost .standby)) .partSet (changed (fun x => { x with standbyLead := 40 })) ⟨.ok, []⟩
      (fun p => (p.post 0).link = .waking && (p.post 0).timer = .wake 3000000 && slot0 (fun r => r.wakeTaken) p) ∧
    Serves .partSet (awaiting (livePost .standby)) .partSet (changed (fun x => { x with standbyLead := 39 })) ⟨.ok, []⟩
      (fun p => (p.post 0).link = .standby && slot0 (fun r => !r.wakeTaken) p) ∧
    Serves .partSet (awaiting { livePost .active with timer := .idle 1005 }) .partSet
      (changed (fun x => { x with standbyLead := 40 })) ⟨.ok, []⟩ (fun p => (p.post 0).timer = .stopped) ∧
    Serves .partSet (awaiting { livePost .active with timer := .idle 1005 }) .partSet
      (changed (fun x => { x with standbyLead := 39 })) ⟨.ok, []⟩ (fun p => (p.post 0).timer = .idle 1005) ∧
    Serves .partSet level .partSet (changed (fun x => { x with idleTime := 120 })) ⟨.ok, []⟩
      (fun p => (p.post 0).timer = .idle 1120) ∧
    Serves .partSet level .partSet (changed (fun x => { x with idleTime := 0 })) ⟨.ok, []⟩
      (fun p => (p.post 0).timer = .stopped) :=
  ⟨serves (by decide +kernel), serves (by decide +kernel), serves (by decide +kernel), serves (by decide +kernel),
    serves (by decide +kernel), serves (by decide +kernel)⟩

theorem witness_PartSetStoresAllOrNothing_rollover_and_weights :
    Serves .partSet level .partSet (changed (fun x => { x with rolloverMinute := 1001 })) ⟨.ok, []⟩
      (fun p => p.clock.lastDay = some (-1)) ∧
    Serves .partSet (busy .charge) .partSet (changed (fun x => { x with w4 := 15 })) ⟨.ok, []⟩
      (fun p => (p.bay 0).limit = 320) :=
  ⟨serves (by decide +kernel), serves (by decide +kernel)⟩

/-- A RULE-WRITE of all four groups at the edges of their ranges. -/
def fullRule : RuleWriteReq :=
  ⟨0, some ⟨true, 255, 15, 15, 15⟩, some ⟨1439, 0, 15, 720⟩, some ⟨2, 3, 4, 4, 5, 2, 6, 60⟩, some ⟨true, 3⟩⟩

theorem fullRule_fits : fullRule.Fits :=
  ⟨by decide, fun x h => by cases h; decide, fun x h => by cases h; decide, fun x h => by cases h; decide,
    fun x h => by cases h; decide⟩

/-- The bytes of a RULE-WRITE request. -/
def RuleWriteReq.bytes (q : RuleWriteReq) : List Byte := ruleWriteBytes q.rule q.matchA q.matchB q.action q.tally

/-- RULE-WRITE on the level with a counter of 3, refused. -/
def ruleRefused (q : RuleWriteReq) (e : Status) : Prop :=
  Serves .ruleWrite (ruled .accept ⟨true, 9⟩ 3) .ruleWrite (RuleWriteReq.bytes q) ⟨e, []⟩
    (fun p => p.rule 0 = (ruled .accept ⟨true, 9⟩ 3).rule 0)

theorem witness_PolicyWritesStoreWhatTheyCarry_groups :
    fullRule.Fits ∧
    Serves .ruleWrite (ruled .accept ⟨true, 9⟩ 3) .ruleWrite (RuleWriteReq.bytes fullRule) ⟨.ok, []⟩ (fun p =>
      (p.rule 0).matchA = ⟨true, 255, 15, 15, 15⟩ && (p.rule 0).matchB = ⟨1439, 0, 15, 720⟩ &&
      (p.rule 0).action = ⟨.refuse, .set, 4, .exclude, 5, .set, 6, 60⟩ && (p.rule 0).tally = ⟨true, 3⟩ &&
      (p.rule 0).counter = 3 && (p.rule 0).notice) ∧
    ruleRefused { fullRule with rule := 32 } .range ∧
    ruleRefused { fullRule with matchA := some ⟨true, 0, 0, 0, 16⟩ } .range ∧
    ruleRefused { fullRule with matchA := some ⟨true, 0, 0, 1, 0⟩ } .range ∧
    ruleRefused { fullRule with matchB := some ⟨1440, 0, 15, 720⟩ } .range ∧
    ruleRefused { fullRule with matchB := some ⟨0, 1440, 15, 720⟩ } .range ∧
    ruleRefused { fullRule with matchB := some ⟨0, 0, 14, 720⟩ } .range ∧
    ruleRefused { fullRule with matchB := some ⟨0, 0, 15, 721⟩ } .range ∧
    ruleRefused { fullRule with matchB := some ⟨0, 0, 16, 15⟩ } .range ∧
    ruleRefused { fullRule with tally := some ⟨true, 0⟩ } .range ∧
    ruleRefused { fullRule with tally := some ⟨true, 2⟩ } .conflict := by
  exact ⟨fullRule_fits, serves (by decide +kernel), serves (by decide +kernel), serves (by decide +kernel), serves (by decide +kernel),
    serves (by decide +kernel), serves (by decide +kernel), serves (by decide +kernel), serves (by decide +kernel),
    serves (by decide +kernel), serves (by decide +kernel), serves (by decide +kernel)⟩

theorem witness_PolicyWritesStoreWhatTheyCarry_action :
    ruleRefused { fullRule with action := some ⟨3, 0, 1, 0, 0, 0, 0, 0⟩ } .range ∧
    ruleRefused { fullRule with action := some ⟨0, 4, 1, 0, 0, 0, 0, 0⟩ } .range ∧
    ruleRefused { fullRule with action := some ⟨0, 0, 0, 0, 0, 0, 0, 0⟩ } .range ∧
    ruleRefused { fullRule with action := some ⟨0, 0, 5, 0, 0, 0, 0, 0⟩ } .range ∧
    ruleRefused { fullRule with action := some ⟨0, 0, 1, 5, 0, 0, 0, 0⟩ } .range ∧
    ruleRefused { fullRule with action := some ⟨0, 0, 1, 0, 0, 3, 0, 0⟩ } .range ∧
    ruleRefused { fullRule with action := some ⟨0, 0, 1, 0, 0, 0, 0, 4⟩ } .range ∧
    ruleRefused { fullRule with action := some ⟨0, 0, 1, 0, 0, 0, 0, 61⟩ } .range :=
  ⟨serves (by decide +kernel), serves (by decide +kernel), serves (by decide +kernel), serves (by decide +kernel),
    serves (by decide +kernel), serves (by decide +kernel), serves (by decide +kernel), serves (by decide +kernel)⟩

theorem witness_BookPlacesOrListsTheRecord_ranges :
    Serves .book level .book ([8, 0, 1, 0] ++ bookTail false 1100 60 none none none none) ⟨.range, []⟩ (same level) ∧
    Serves .book level .book ([7, 8, 3, 15] ++ bookTail false 1100 60 none none none none) ⟨.range, []⟩ (same level) ∧
    Serves .book level .book ([7, 7, 4, 15] ++ bookTail false 1100 60 none none none none) ⟨.range, []⟩ (same level) ∧
    Serves .book level .book ([7, 7, 3, 16] ++ bookTail false 1100 60 none none none none) ⟨.range, []⟩ (same level) ∧
    Serves .book level .book ([7, 7, 3, 15] ++ bookTail true 0 60 (some 1) (some 1) (some 1) (some 64)) ⟨.range, []⟩
      (same level) :=
  ⟨serves (by decide +kernel), serves (by decide +kernel), serves (by decide +kernel), serves (by decide +kernel),
    serves (by decide +kernel)⟩

/-- A part that BOOK is shown on: its pool is the level's, its conditions are current. -/
def bookable (p : Part) : Prop := p.conditionsCurrent ∧ p.pool.partitioned

theorem bookable_of {p : Part} (h : currentNow p = true) (pool : p.pool = level.pool) : bookable p :=
  ⟨current_of_now h, pool ▸ level_partitioned⟩

theorem witness_BookPlacesOrListsTheRecord_refusals :
    (bookable { level with clock := Clock.reset } ∧
      Serves .book { level with clock := Clock.reset } .book (bookBytes driver 1100 60 none) ⟨.noClock, []⟩
        (fun _ => true)) ∧
    (bookable level ∧
      Serves .book level .book (bookBytes driver 999 60 none) ⟨.windowRange, []⟩ (same level) ∧
      Serves .book level .book (bookBytes driver 11081 60 none) ⟨.windowRange, []⟩ (same level)) ∧
    (bookable (ruled .refuse ⟨false, 65535⟩ 0) ∧
      Serves .book (ruled .refuse ⟨false, 65535⟩ 0) .book (bookBytes driver 1100 60 none) ⟨.policyRefused, [1, 0]⟩
        (fun _ => true)) ∧
    (bookable (ruled .accept ⟨true, 3⟩ 3) ∧
      Serves .book (ruled .accept ⟨true, 3⟩ 3) .book (bookBytes driver 1100 60 none) ⟨.policyQuota, [1, 0]⟩
        (fun _ => true)) ∧
    (bookable (level.setLane 0 { Lane.reset with verdict := .refuse }) ∧
      Serves .book (level.setLane 0 { Lane.reset with verdict := .refuse }) .book (bookBytes driver 1100 60 none)
        ⟨.policyRefused, [0]⟩ (fun _ => true)) :=
  ⟨⟨bookable_of (by decide +kernel) rfl, serves (by decide +kernel)⟩,
    ⟨bookable_of (by decide +kernel) rfl, serves (by decide +kernel), serves (by decide +kernel)⟩,
    ⟨bookable_of (by decide +kernel) rfl, serves (by decide +kernel)⟩,
    ⟨bookable_of (by decide +kernel) rfl, serves (by decide +kernel)⟩,
    ⟨bookable_of (by decide +kernel) rfl, serves (by decide +kernel)⟩⟩

theorem witness_BookPlacesOrListsTheRecord_every_field :
    Serves .book level .book (askerBytes driver ++ bookTail true 0 60 (some 200001) (some 59) none (some 1))
      ⟨.ok, [1, 0, 1, 1, 0, 0, 3, 0xE8, 0, 0, 4, 0x24, 0, 60, 2, 3, 0]⟩
      (slot0 (fun r => r.state = .held && r.bay = some 1 && r.quota = some 200000 && r.rateCap = some 60 &&
        r.pinned = some 1 && r.deadline = none)) ∧
    Serves .book level .book (askerBytes driver ++ bookTail false 1001 60 (some 0) (some 801) (some 0) none)
      ⟨.ok, [1, 0, 1, 0, 0, 0, 3, 0xE9, 0, 0, 4, 0x25, 0, 60, 2, 2, 0]⟩
      (slot0 (fun r => r.state = .booked && r.quota = none && r.rateCap = some 800 && r.deadline = some 1001)) :=
  ⟨serves (by decide +kernel), serves (by decide +kernel)⟩

/-- The level with two records. -/
def pair (r x : Record) : Part := calm ((level.put 0 r).put 1 x)

theorem pair_partitioned (r x : Record) : (pair r x).pool.partitioned := by
  rw [pair, calm_pool, Part.put_pool, Part.put_pool]
  exact Pool.partitioned_put (Pool.partitioned_put level_partitioned 0 _) 1 _

/-- ARRIVE of the record in slot 0 is served so, on a level that the statement holds on. -/
def arrives (p : Part) (bay : Byte) (a : Answer) (check : Record → Bool) : Prop :=
  p.conditionsCurrent ∧ p.pool.partitioned ∧ Serves .arrive p .arrive [1, 0, bay] a (slot0 check)

theorem arrives_of {p : Part} {bay : Byte} {a : Answer} {check : Record → Bool} (parts : p.pool.partitioned)
    (h : (currentNow p && (decide (p.work = Work.empty) && answers .arrive p .arrive [1, 0, bay] a (slot0 check))) = true) :
    arrives p bay a check := by
  rw [Bool.and_eq_true] at h
  exact ⟨current_of_now h.1, parts, serves h.2⟩

theorem witness_ArriveOnTheOwnBayEngagesOrWaits_refusals :
    arrives (holding held) 64 ⟨.range, []⟩ (fun r => r = held) ∧
    arrives { holding held with clock := Clock.reset } 63 ⟨.noClock, []⟩ (fun r => r = held) ∧
    arrives (holding (stay .closing none 900)) 0 ⟨.unknownReservation, []⟩ (fun r => r.state = .closing) ∧
    arrives (holding (stay .waiting none 1100)) 0 ⟨.wrongState, []⟩ (fun r => r.state = .waiting) ∧
    arrives (busy .charge) 0 ⟨.wrongState, []⟩ (fun r => r.state = .engaged) ∧
    arrives (holding (stay .booked (some 0) 1016)) 0 ⟨.tooEarly, []⟩ (fun r => r.state = .booked) ∧
    arrives (pair (stay .booked (some 0) 1130) held) 0 ⟨.tooEarly, []⟩ (fun r => r.state = .booked) ∧
    arrives ((pair (stay .booked (some 0) 1010) (stay .held (some 1) 980)).modFeeder 0 (fun x =>
      { x with concurrency := 1 })) 0 ⟨.noRoom, []⟩ (fun r => r.windowStart = 1010) ∧
    arrives (holding held) 2 ⟨.wrongBay, []⟩ (fun r => r = held) ∧
    arrives (pair held (stay .booked (some 1) 1049)) 1 ⟨.wrongBay, []⟩ (fun r => r = held) := by
  exact ⟨arrives_of (holding_partitioned _) (by decide +kernel), arrives_of (holding_partitioned _) (by decide +kernel),
    arrives_of (holding_partitioned _) (by decide +kernel), arrives_of (holding_partitioned _) (by decide +kernel),
    arrives_of (busy_partitioned _) (by decide +kernel), arrives_of (holding_partitioned _) (by decide +kernel),
    arrives_of (pair_partitioned _ _) (by decide +kernel), arrives_of (pair_partitioned _ _) (by decide +kernel),
    arrives_of (holding_partitioned _) (by decide +kernel), arrives_of (pair_partitioned _ _) (by decide +kernel)⟩

theorem witness_ArriveOnTheOwnBayEngagesOrWaits_moves :
    arrives (holding (stay .booked (some 0) 1015)) 0
      ⟨.ok, [1, 0, 4, 0, 0, 0, 3, 0xE8, 0, 0, 4, 0x33, 1, 0, 0, 3, 0xFC]⟩
      (fun r => r.state = .arriving && r.windowStart = 1000 && r.leadTaken && r.wakeTaken) ∧
    arrives (holding (stay .arriving (some 0) 980)) 0
      ⟨.ok, [1, 0, 4, 0, 0, 0, 3, 0xD4, 0, 0, 4, 0x10, 1, 0, 0, 3, 0xE8]⟩ (fun r => r = stay .arriving (some 0) 980) ∧
    arrives (pair held (stay .booked (some 1) 1050)) 1
      ⟨.ok, [1, 0, 4, 1, 0, 0, 3, 0xE8, 0, 0, 4, 0x10, 1, 0, 0, 3, 0xFC]⟩
      (fun r => r.state = .arriving && r.bay = some 1 && r.windowStart = 1000) ∧
    arrives (calm ((holding held).modBay 1 (fun x => { x with
        occupancy := .occupied, plug := .plugged, verify := .running 1005, penalty := 7 }))) 1
      ⟨.ok, [1, 0, 5, 1, 0, 0, 3, 0xE8, 0, 0, 4, 0x10, 0]⟩
      (fun r => r.state = .engaged && r.session.any (fun x => x.phase = .paused && x.pause = .overdraw)) ∧
    arrives ((pair (stay .booked (some 0) 1010) (stay .held (some 1) 940)).modFeeder 0 (fun x =>
      { x with concurrency := 1 })) 0 ⟨.ok, [1, 0, 4, 0, 0, 0, 3, 0xE8, 0, 0, 4, 0x2E, 1, 0, 0, 3, 0xFC]⟩
      (fun r => r.windowStart = 1000) := by
  refine ⟨arrives_of (holding_partitioned _) (by decide +kernel), arrives_of (holding_partitioned _) (by decide +kernel),
    arrives_of (pair_partitioned _ _) (by decide +kernel), arrives_of ?_ (by decide +kernel),
    arrives_of (pair_partitioned _ _) (by decide +kernel)⟩
  rw [calm_pool, Part.modBay_pool]
  exact holding_partitioned _

theorem witness_ArriveWalkinCreatesTheStay_end :
    (level.walkinEnd 0 60 = 1060 ∧ level.carriedAt 0 none 1059 = 0) ∧
    ((holding (stay .booked (some 0) 1100)).chain 0 = [0] ∧ (holding (stay .booked (some 0) 1100)).walkinEnd 0 720 = 1090) ∧
    (((pair (stay .booked (some 1) 1030) held).modFeeder 0 (fun x => { x with concurrency := 1 })).walkinEnd 1 60 = 1000 ∧
      (pair (stay .booked (some 1) 1030) held).carriedAt 0 none 1000 = 1) ∧
    ((holding (stay .booked (some 1) 1030)).modFeeder 0 (fun x => { x with concurrency := 1 })).walkinEnd 0 60 = 1030 ∧
    Serves .arriveWalkin level .arriveWalkin [0, 0, 0, 1, 0, 0, 15, 1, 0, 0, 0, 0, 1, 0, 59]
      ⟨.ok, [1, 0, 0, 4, 0, 0, 3, 0xE8, 0, 0, 3, 0xF7, 0, 15, 2, 1, 0, 0, 3, 0xF7]⟩
      (slot0 (fun r => r.quota = none && r.rateCap = some 60)) ∧
    Serves .arriveWalkin level .arriveWalkin [0, 0, 0, 1, 0, 0, 15, 1, 0, 3, 0x0D, 0x41, 1, 3, 0x21]
      ⟨.ok, [1, 0, 0, 4, 0, 0, 3, 0xE8, 0, 0, 3, 0xF7, 0, 15, 2, 1, 0, 0, 3, 0xF7]⟩
      (slot0 (fun r => r.quota = some 200000 && r.rateCap = some 800)) :=
  ⟨by decide +kernel, by decide +kernel, by decide +kernel, by decide +kernel, serves (by decide +kernel),
    serves (by decide +kernel)⟩

theorem witness_DivisionAdmitsAndFillsUpToTheCaps_passes :
    sharePasses 3 7 [] [(0, 100)] = ⟨[(0, 100)], [], 0⟩ ∧
    sharePasses 3 7 twoMembers [] = ⟨[], [(0, 62), (1, 64)], 1⟩ ∧
    sharePasses 3 180 twoMembers [] = ⟨[(0, 100)], [(1, 200)], 0⟩ ∧
    (divide 127 1 twoMembers = ⟨[(1, 65), (0, 62)], 2⟩ ∧ divide 127 2 twoMembers = ⟨[(0, 63), (1, 64)], 1⟩ ∧
      divide 300 5 twoMembers = ⟨[(0, 100), (1, 200)], 5⟩) := by decide +kernel

theorem witness_OverdrawPenaltiesFallRunAndEnd_difficulty :
    (level.modFeeder 0 (fun x => { x with overdrawCount := 1 })).difficulty 0 = true ∧
    (level.modPost 0 (fun x => { x with misses := 1 })).difficulty 0 = true ∧
    (occupiedBy (charging 0 { sessionIn .paused with pause := .shortfall }) .plugged).difficulty 0 = true ∧
    (occupiedBy (charging 0 { sessionIn .paused with pause := .trip }) .plugged).difficulty 0 = false := by decide +kernel

theorem witness_TickAndMinuteMoveTheClock_events :
    runs .minuteEvent (talking { coming with clock := ⟨true, 1001, 0, some 0⟩, outstanding := ⟨true, true, true⟩ })
      (fun t => slot0 (fun r => r.state = .held) t.part && t.part.outstanding = ⟨false, true, true⟩) = true ∧
    runs .minuteEvent (talking { coming with clock := ⟨true, 1000, 59, some 0⟩ }) (fun t =>
      t.part.clock = ⟨true, 1001, 0, some 0⟩ && slot0 (fun r => r.state = .held) t.part) = true ∧
    runs .minuteEvent (talking { level with clock := ⟨true, 4294967294, 59, some 2982616⟩ }) (fun t =>
      t.part.clock.minute = 4294967295) = true := by decide +kernel

theorem witness_LeadCheckRelocatesOffABlockedBay_finish :
    { blocked (BitVec.allOnes 64) with work := ⟨[⟨0, false⟩], [0], [0], true, true⟩ }.finish.recordIs (fun r =>
      r.bay = some 1) 0 = true ∧
    ((blocked (BitVec.allOnes 64)).leadCheck 0).recordIs (fun r => r.bay = some 1) 0 = true ∧
    ((holding (stay .booked (some 0) 1010)).leadCheck 0).recordIs (fun r => r.bay = some 0) 0 = true ∧
    (level.evalIdle 0).post 0 = { level.post 0 with timer := .idle (1000 + level.settings.idleTime) } ∧
    ((level.setPost 0 { livePost .active with timer := .idle 1005 }).evalIdle 0).post 0 =
      { livePost .active with timer := .idle 1005 } ∧
    (((busy .charge).setPost 0 { livePost .active with timer := .idle 1005 }).evalIdle 0).post 0 = livePost .active ∧
    ((busy .charge).evalIdle 0).post 0 = livePost .active ∧
    ((level.setPost 0 (livePost .standby)).evalIdle 0).post 0 = livePost .standby := by decide +kernel

theorem witness_LeadCheckRelocatesOffABlockedBay_walks :
    ((holding (stay .held (some 0) 940)).relocate 0).recordIs (fun r => r.close.any (fun c =>
      c.result = .noShow && c.bay = some 0)) 0 = true ∧
    (((blocked (BitVec.allOnes 64)).chain 0 = [0] ∧
      ((blocked (BitVec.allOnes 64)).walkBlocked ⟨0, false⟩).recordIs (fun r => r.bay = some 1) 0 = true)) ∧
    ((holding (stay .booked (some 0) 1011)).walkBlocked ⟨0, false⟩).recordIs (fun r => r.bay = some 0) 0 = true ∧
    ((holding (stay .booked (some 0) 1011)).walkBlocked ⟨0, true⟩).recordIs (fun r => r.bay = some 1) 0 = true ∧
    ((holding (stay .waiting none 999)).tryWaiting 0).recordIs (fun r => r.state = .held && r.windowStart = 1000 &&
      r.windowEnd = 1060 && r.leadTaken && r.wakeTaken) 0 = true ∧
    ((holding (stay .waiting none 1031)).tryWaiting 0).recordIs (fun r => r.state = .booked && r.windowStart = 1031 &&
      r.graceEnd = 1051 && !r.leadTaken && !r.wakeTaken) 0 = true ∧
    ((holding { stay .waiting none 999 with eligible := 4 }).tryWaiting 0).recordIs (fun r => r.state = .waiting) 0 = true ∧
    (holding (stay .waiting none 999)).takeRetry.recordIs (fun r => r.state = .waiting) 0 = true ∧
    (holding (stay .waiting none 999)).retryDue.takeRetry.recordIs (fun r => r.state = .held) 0 = true := by
  decide +kernel

theorem witness_WakeBayPostAndClockEventsActWhenDue_idle :
    level.idleHolds 0 = true ∧ (holding (stay .booked (some 0) 1030)).idleHolds 0 = false ∧
    (holding (stay .booked (some 0) 1031)).idleHolds 0 = true ∧ (holding held).idleHolds 0 = false ∧
    { level with settings := { Settings.reset with idleTime := 0 } }.idleHolds 0 = false := by decide +kernel

/-- The level with its post in a state, after a reply. -/
def replied (x : Post) (r : LinkReply) : Part := (level.setPost 0 x).takeReply 0 r

/-- A clean reply with a vehicle in both sockets. -/
def fullReply (ready : Bool) : LinkReply := ⟨0, 0, 0, ready, ⟨true, true, 100, 200⟩, ⟨true, false, 50, 60⟩⟩

/-- Both bays hold the values of that reply. -/
def written (p : Part) : Bool :=
  (p.bay 0).occupancy = .occupied && (p.bay 0).plug = .plugged && (p.bay 0).reading = 100 && (p.bay 0).cap = 200 &&
  (p.bay 1).occupancy = .occupied && (p.bay 1).plug = .unplugged && (p.bay 1).reading = 50 && (p.bay 1).cap = 60

/-- Both bays hold what they held. -/
def unwritten (p : Part) : Bool :=
  (p.bay 0).occupancy = .vacant && (p.bay 0).plug = .unplugged && (p.bay 0).reading = 0 && (p.bay 0).cap = 0 &&
  (p.bay 1).occupancy = .vacant && (p.bay 1).plug = .unplugged && (p.bay 1).reading = 0 && (p.bay 1).cap = 0

theorem witness_ValidReplyDrivesThePostState_values :
    (written (replied (livePost .active) (fullReply false)) && written (replied (livePost .waking) (fullReply false)) &&
      written (replied (livePost .preparing) (fullReply true)) && written (replied (livePost .standby) (fullReply false)))
      = true ∧
    (unwritten (replied (livePost .preparing) (fullReply false)) &&
      unwritten (replied { livePost .seeking with valid := 1 } (fullReply true)) &&
      unwritten (replied { livePost .lost with valid := 1 } (fullReply true)) &&
      unwritten (replied (livePost .isolated) (fullReply true)) && unwritten (replied (livePost .absent) (fullReply true)) &&
      unwritten (replied (livePost .active) { fullReply true with fault := 1 })) = true ∧
    ((replied (livePost .standby) (fullReply false)).post 0).link = .waking ∧
    ((replied (livePost .standby) (fullReply false)).post 0).timer = .wake 3000000 ∧
    ((replied (livePost .standby) { emptyReply 0 true with b := ⟨false, true, 0, 0⟩ }).post 0).link = .waking := by
  decide +kernel

/-- The level with a session in a phase on bay 0, which draws current within a limit. -/
def drawing (x : Session) : Part :=
  (occupiedBy (charging 0 x) .plugged).modBay 0 (fun y => { y with limit := 300, reading := 290, cap := 320 })

theorem drawing_partitioned (x : Session) : (drawing x).pool.partitioned := by
  rw [drawing, Part.modBay_pool, occupiedBy, calm_pool, Part.modBay_pool, Part.put_pool]
  exact Pool.partitioned_put level_partitioned 0 _

theorem witness_LinkAndSettleLimitsAct_leaving :
    (∀ x, (drawing x).pool.partitioned) ∧
    (((drawing (sessionIn .charge)).lose 0).bay 0).condition = .dark ∧
    (((drawing (sessionIn .charge)).lose 0).bay 0).limit = 0 ∧
    (((drawing (sessionIn .charge)).lose 0).bay 0).reading = 0 ∧
    ((drawing (sessionIn .charge)).lose 0).work.blocked = [⟨0, false⟩, ⟨1, false⟩] ∧
    (((drawing (sessionIn .charge)).lose 0).feeder 0).sticky.meterGap = true ∧
    session0 (fun x => x.phase = .halted && x.stoppedIn = some .charge) ((drawing (sessionIn .charge)).lose 0) = true ∧
    session0 (fun x => x = sessionIn .overstay) ((drawing (sessionIn .overstay)).isolate 0 .host) = true ∧
    slot0 (fun r => r.close.any (fun c => c.result = .stopped && c.closedBy = .link))
      ((drawing { sessionIn .settling with settle := some ⟨.host, 9⟩ }).reseek 0) = true ∧
    (((drawing (sessionIn .charge)).isolate 0 .host).bay 0).reading = 290 ∧
    (((drawing (sessionIn .charge)).setPost 0 (livePost .preparing)).lose 0).bay 0 =
      { (drawing (sessionIn .charge)).bay 0 with reading := 0, cap := 0 } := by
  exact ⟨drawing_partitioned, by decide +kernel⟩

theorem witness_RepliesPlugSettleAndCompleteSessions_occupancy :
    (((busy .charge).occupancyEvent 0 true).bay 0).verify = .idle ∧
    ((level.modBay 0 (fun x => { x with verify := .running 1003 })).occupancyEvent 0 false).bay 0 =
      { level.bay 0 with verify := .idle } ∧
    ((level.occupancyEvent 0 true).bay 0).verify = .running 1005 ∧
    slot0 (fun r => r.state = .engaged && r.session.any (fun x => x.engaged = 1000 && x.phase = .charge))
      ((occupiedBy (stay .arriving (some 0) 980) .plugged).occupancyEvent 0 true) = true ∧
    (((busy .charge).closeRecord 0 .stopped .host).bay 0).penalty = 0 ∧
    (((busy .charge).closeRecord 0 .complete .departed).bay 0).verify = .running 1005 ∧
    ((calm ((pair (charging 0 (sessionIn .charge)) (stay .arriving (some 0) 1060)).modBay 0 (fun x =>
      { x with occupancy := .occupied }))).closeRecord 0 .complete .departed).recordIs (fun r =>
        r.state = .engaged && r.session.any (fun x => x.engaged = 1000)) 1 = true := by decide +kernel

theorem witness_PlacementReturnsTheBestPassingBay_tests :
    (holding held).leadGap (callFor 1060 1120 0) 0 = 10 ∧ (holding held).leadGap (callFor 1049 1120 0) 0 = 0 ∧
    (holding held).leadGap (callFor 1060 1120 0) 1 = 60 ∧
    (level.modBay 0 (fun x => { x with condition := .dark })).passes (callFor 1010 1060 0) 0 = false ∧
    (level.modBay 0 (fun x => { x with condition := .dark })).passes (callFor 1011 1060 0) 0 = true ∧
    (level.modBay 0 (fun x => { x with condition := .out })).passes (callFor 1011 1060 0) 0 = false ∧
    level.passes { callFor 1000 1060 0 with pinned := some 1 } 0 = false ∧
    level.passes { callFor 1000 1060 0 with excluded := some 0 } 0 = false ∧
    level.passes { callFor 1000 1060 0 with ctype := .ct2 } 0 = false ∧
    level.passes { callFor 1000 1060 0 with eligible := 2 } 0 = false := by decide +kernel

/-- The rule after reset with a time-of-day range, on a request that starts at a minute-of-day. -/
def firesAt (start stop minute : Nat) : Bool :=
  Rule.fires { Rule.reset with matchB := ⟨start, stop, 60, 60⟩ } ⟨driver, 1440 + minute, 60⟩

theorem witness_PolicyWalkTakesTheRulesInOrder_fires :
    (firesAt 100 200 100 && firesAt 100 200 199 && !firesAt 100 200 200 && !firesAt 100 200 99) = true ∧
    (firesAt 200 100 200 && firesAt 200 100 99 && !firesAt 200 100 100 && !firesAt 200 100 199) = true ∧
    (firesAt 5 5 4 && firesAt 5 5 5) = true ∧
    ({ Rule.reset with matchB := ⟨0, 0, 61, 720⟩ }.fires ⟨driver, 0, 60⟩ = false ∧
      { Rule.reset with matchB := ⟨0, 0, 15, 59⟩ }.fires ⟨driver, 0, 60⟩ = false ∧
      { Rule.reset with matchA := ⟨true, 254, 15, 0, 15⟩ }.fires ⟨driver, 0, 60⟩ = false ∧
      { Rule.reset with matchA := ⟨true, 255, 13, 0, 15⟩ }.fires ⟨driver, 0, 60⟩ = false ∧
      { Rule.reset with matchA := ⟨true, 255, 15, 1, 15⟩ }.fires ⟨driver, 0, 60⟩ = false) := by decide +kernel

theorem witness_ResetPartBookFreesEveryRecord_level :
    Serves .resetPartBook level .resetPart [2] ⟨.range, []⟩ (same level) ∧
    Serves .resetPartFull level .resetPart [255] ⟨.range, []⟩ (same level) :=
  ⟨serves (by decide +kernel), serves (by decide +kernel)⟩

/-- A row that takes a payload which does not conform to its kind's layout, and answers it MALFORMED. -/
def misread (c : Instr) (k : Kind) (payload : List Byte) : Prop :=
  servedKind c = some k ∧ rowTakes c payload = true ∧ conforms k.layout payload = false ∧
    Serves c level k payload ⟨.malformed, []⟩ (same level)

theorem misread_of {c : Instr} {k : Kind} {payload : List Byte}
    (h : (decide (servedKind c = some k) && rowTakes c payload && !conforms k.layout payload &&
      (decide (level.work = Work.empty) && answers c level k payload ⟨.malformed, []⟩ (same level))) = true) :
    misread c k payload := by
  rw [Bool.and_eq_true, Bool.and_eq_true, Bool.and_eq_true, decide_eq_true_eq, Bool.not_eq_true'] at h
  exact ⟨h.1.1.1, h.1.1.2, h.1.2, serves h.2⟩

theorem witness_ServingChecksKindTagAndLength_flags :
    misread .baySet .baySet [0, 2, 0, 0, 0, 1, 0, 60] ∧ misread .bayRemove .baySet [0, 2, 0, 0, 0, 1, 0, 60] ∧
    misread .bayServiceOut .bayService [0, 1, 2] ∧ misread .postSetWithdraw .postSet [0, 2] ∧
    misread .feederSet .feederSet [0, 1, 0, 0, 0, 230, 1, 2] ∧ misread .ruleWrite .ruleWrite [0, 1, 2, 0, 0, 0, 0, 0, 0, 0] ∧
    misread .ruleWrite .ruleWrite [0, 0, 0, 0, 1, 2, 0, 1] ∧
    misread .findFree .findFree [0, 0, 1, 0, 2, 0, 0, 0, 0, 0, 60] :=
  ⟨misread_of (by decide +kernel), misread_of (by decide +kernel), misread_of (by decide +kernel),
    misread_of (by decide +kernel), misread_of (by decide +kernel), misread_of (by decide +kernel),
    misread_of (by decide +kernel), misread_of (by decide +kernel)⟩

theorem witness_ServingChecksKindTagAndLength_optional_fields :
    misread .ruleWrite .ruleWrite [0, 0, 0, 0] ∧ misread .ruleWrite .ruleWrite [0, 0, 0, 0, 2] ∧
    misread .book .book [0, 0, 1, 0, 1, 0, 0, 0, 0, 0, 60, 0, 0, 0] ∧
    misread .book .book [0, 0, 1, 0, 1, 0, 0, 0, 0, 0, 60, 0, 0, 0, 2] ∧
    misread .book .book [0, 0, 1, 0, 1, 0, 0, 0, 0, 0, 60, 0, 0, 0, 0, 0] ∧
    misread .arriveWalkin .arriveWalkin [0, 0, 0, 1, 0, 0, 60, 1, 0, 0, 0] ∧
    misread .arriveWalkin .arriveWalkin [0, 0, 0, 1, 0, 0, 60, 0, 2] ∧
    misread .sessionResume .sessionResume [1, 0, 1] ∧ misread .sessionResume .sessionResume [1, 0, 0, 0] :=
  ⟨misread_of (by decide +kernel), misread_of (by decide +kernel), misread_of (by decide +kernel),
    misread_of (by decide +kernel), misread_of (by decide +kernel), misread_of (by decide +kernel),
    misread_of (by decide +kernel), misread_of (by decide +kernel), misread_of (by decide +kernel)⟩

theorem witness_level_requests_out_of_range :
    Serves .bayRemove level .baySet [64, 0, 31, 1, 7, 3, 3, 0x20] ⟨.range, []⟩ (same level) ∧
    Serves .bayRemove level .baySet [63, 0, 32, 1, 7, 3, 3, 0x20] ⟨.range, []⟩ (same level) ∧
    Serves .bayRemove level .baySet [63, 0, 31, 1, 7, 3, 0, 59] ⟨.range, []⟩ (same level) ∧
    Serves .bayServiceOut level .bayService [64, 1, 0] ⟨.range, []⟩ (same level) ∧
    Serves .bayServiceIn level .bayService [64, 0, 1] ⟨.range, []⟩ (same level) ∧
    Serves .bayServiceOut level .bayService [0, 2, 1] ⟨.range, []⟩ (same level) ∧
    Serves .bayServiceIn level .bayService [0, 2, 0] ⟨.range, []⟩ (same level) ∧
    Serves .postSetWithdraw level .postSet [32, 0] ⟨.range, []⟩ (same level) :=
  ⟨serves (by decide +kernel), serves (by decide +kernel), serves (by decide +kernel), serves (by decide +kernel),
    serves (by decide +kernel), serves (by decide +kernel), serves (by decide +kernel), serves (by decide +kernel)⟩

/-- That a handle names no live record, as a computation. -/
def namesNone (p : Part) (generation slot : Byte) : Bool :=
  allSlots.all (fun k => match p.record k with
    | some r => !(slot.toNat = k.val && generation.toNat ≠ 0 && generation.toNat = (p.pool.slot k).generation) ||
        r.state = .closing
    | none => true)

theorem namesNone_of {p : Part} {a b : Byte} (h : namesNone p a b = true) : p.NamesNone a b := by
  intro k r hb ha hg hr
  have := List.all_eq_true.mp h k (List.mem_finRange k)
  simp only [hr] at this
  simpa [hb, ha, ← hg] using this

/-- A request on a handle that names no live record is refused. -/
def unnamed (c : Instr) (p : Part) (k : Kind) (a b : Byte) (more : List Byte) : Prop :=
  p.NamesNone a b ∧ Serves c p k ([a, b] ++ more) ⟨.unknownReservation, []⟩ (same p)

theorem witness_handles_that_name_no_live_record :
    unnamed .extend (holding held) .extend 2 0 [0, 5] ∧ unnamed .extend withClosed .extend 1 0 [0, 5] ∧
    Serves .extend (holding held) .extend [2, 0, 0, 0] ⟨.range, []⟩ (same (holding held)) ∧
    unnamed .retract (holding held) .retract 0 0 [] ∧ unnamed .retract level .retract 1 0 [] ∧
    unnamed .endSession (holding held) .endSession 1 192 [] ∧ unnamed .endSession withClosed .endSession 1 0 [] ∧
    unnamed .sessionResume (holding held) .sessionResume 1 1 (opt u32 none) ∧
    unnamed .sessionResume (holding held) .sessionResume 2 0 (opt u32 (some 5)) :=
  ⟨⟨namesNone_of (by decide +kernel), serves (by decide +kernel)⟩,
    ⟨namesNone_of (by decide +kernel), serves (by decide +kernel)⟩, serves (by decide +kernel),
    ⟨namesNone_of (by decide +kernel), serves (by decide +kernel)⟩,
    ⟨namesNone_of (by decide +kernel), serves (by decide +kernel)⟩,
    ⟨namesNone_of (by decide +kernel), serves (by decide +kernel)⟩,
    ⟨namesNone_of (by decide +kernel), serves (by decide +kernel)⟩,
    ⟨namesNone_of (by decide +kernel), serves (by decide +kernel)⟩,
    ⟨namesNone_of (by decide +kernel), serves (by decide +kernel)⟩⟩

theorem witness_ArriveWalkinCreatesTheStay_refusals :
    Serves .arriveWalkin level .arriveWalkin [64, 7, 7, 3, 15, 0, 60, 0, 0] ⟨.range, []⟩ (same level) ∧
    Serves .arriveWalkin level .arriveWalkin [63, 8, 7, 3, 15, 0, 60, 0, 0] ⟨.range, []⟩ (same level) ∧
    Serves .arriveWalkin level .arriveWalkin [63, 7, 8, 3, 15, 0, 60, 0, 0] ⟨.range, []⟩ (same level) ∧
    Serves .arriveWalkin level .arriveWalkin [63, 7, 7, 4, 15, 0, 60, 0, 0] ⟨.range, []⟩ (same level) ∧
    Serves .arriveWalkin level .arriveWalkin [63, 7, 7, 3, 16, 0, 60, 0, 0] ⟨.range, []⟩ (same level) ∧
    Serves .arriveWalkin { level with clock := Clock.reset } .arriveWalkin [63, 7, 7, 3, 15, 0, 60, 0, 0] ⟨.noClock, []⟩
      (fun _ => true) ∧
    Serves .arriveWalkin (ruled .accept ⟨true, 3⟩ 3) .arriveWalkin [0, 0, 0, 1, 0, 0, 60, 0, 0] ⟨.policyQuota, [1, 0]⟩
      (fun _ => true) ∧
    Serves .arriveWalkin (ruled .refuse ⟨false, 65535⟩ 0) .arriveWalkin [0, 0, 0, 1, 0, 0, 60, 0, 0]
      ⟨.policyRefused, [1, 0]⟩ (fun _ => true) ∧
    Serves .arriveWalkin (level.setLane 0 { Lane.reset with verdict := .refuse }) .arriveWalkin
      [0, 0, 0, 1, 0, 0, 60, 0, 0] ⟨.policyRefused, [0]⟩ (fun _ => true) :=
  ⟨serves (by decide +kernel), serves (by decide +kernel), serves (by decide +kernel), serves (by decide +kernel),
    serves (by decide +kernel), serves (by decide +kernel), serves (by decide +kernel), serves (by decide +kernel),
    serves (by decide +kernel)⟩

theorem overdrawn_partitioned (count : Nat) : (overdrawn count).pool.partitioned := by
  rw [overdrawn, Part.modBay_pool, Part.modFeeder_pool]
  exact busy_partitioned .charge

theorem witness_OverdrawPenaltiesFallRunAndEnd_tick :
    (∀ n, (overdrawn n).pool.partitioned) ∧
    runs .shareTick (talking (overdrawn 1)) (fun t => (t.part.feeder 0).overdrawCount = 2 &&
      (t.part.bay 0).penalty = 0 && !(t.part.feeder 0).sticky.overdraw) = true ∧
    runs .shareTick (talking (overdrawn 2)) (fun t => (t.part.feeder 0).overdrawCount = 0 &&
      (t.part.bay 0).penalty = 60 && (t.part.feeder 0).sticky.overdraw && (t.part.bay 0).limit = 0 &&
      session0 (fun x => x.phase = .paused && x.pause = .overdraw) t.part) = true ∧
    runs .shareTick (talking ((overdrawn 2).modFeeder 0 (fun x => { x with trim := 900 }))) (fun t =>
      (t.part.feeder 0).overdrawCount = 0 && (t.part.bay 0).penalty = 0) = true ∧
    runs .shareTick (talking ((overdrawn 2).modFeeder 0 (fun x => { x with state := .tripped }))) (fun t =>
      (t.part.feeder 0).overdrawCount = 0 && (t.part.bay 0).penalty = 0) = true :=
  ⟨overdrawn_partitioned, by decide +kernel, by decide +kernel, by decide +kernel, by decide +kernel⟩

/-- The bytes of a reply of post 31 before its CRC-8. -/
def replyBytes (flags : Byte) : List Byte := [31, 0x5A, flags, 3, 0x21, 3, 0x20, 0, 59, 3, 0x21]

theorem witness_ExchangeEndsByValidReplyOrMiss_bytes :
    LinkReply.ofBytes (replyBytes 0x8A ++ [crc8 (replyBytes 0x8A)]) =
      some ⟨31, 5, 10, true, ⟨true, false, 800, 60⟩, ⟨true, false, 800, 800⟩⟩ ∧
    LinkReply.ofBytes (replyBytes 0x75 ++ [crc8 (replyBytes 0x75)]) =
      some ⟨31, 5, 10, false, ⟨false, true, 800, 60⟩, ⟨false, true, 800, 800⟩⟩ ∧
    LinkReply.ofBytes (replyBytes 0x75 ++ [crc8 (replyBytes 0x75) + 1]) = none ∧
    LinkReply.ofBytes (replyBytes 0x75) = none ∧
    LinkReply.ofBytes (replyBytes 0x75 ++ [crc8 (replyBytes 0x75), 0]) = none := by decide +kernel

/-! ## Invariants -/

theorem witness_ClosedRecordsStayAsTheyClosed :
    (holding (stay .closing none 900)).pool.partitioned ∧
    runs (.tick 0) (talking (holding (stay .closing none 900))) (fun t => slot0 (fun r => r.state = .closing) t.part) =
      true :=
  ⟨holding_partitioned _, by decide +kernel⟩

theorem level_record (s : SlotId) : level.record s = none := by
  show (Vector.get (Vector.replicate 192 (⟨1, none⟩ : Slot)) s).record = none
  simp [Vector.get]

theorem holding_allRecords {good : Record → Prop} {r : Record} (h : good r) : (holding r).allRecords good := by
  intro s x hx
  have e : (holding r).record s = (level.pool.put 0 r).record s := by
    show (level.put 0 r).pool.record s = _
    rw [Part.put_pool]
  rw [e, Pool.record_put] at hx
  split at hx
  · exact Option.some.inj hx ▸ h
  · exact absurd hx (by rw [show level.pool.record s = none from level_record s]; simp)

/-- The machine that the statements on every step are shown on: a HELD record, a clock tick waiting. -/
def stepping : State := { talking (holding held) with pending := [.tick 0] }

theorem witness_StepKeepsThePoolPartition :
    stepping.part.pool.partitioned ∧ stepping.part.pool.generationsSound := by
  refine ⟨holding_partitioned held, ?_⟩
  · intro s
    have e : (stepping.part.pool.slot s).generation = 1 := by
      show ((level.put 0 held).pool.slot s).generation = 1
      rw [Part.put_pool, Pool.generation_put]
      show (Vector.get (Vector.replicate 192 (⟨1, none⟩ : Slot)) s).generation = 1
      simp [Vector.get]
    omega

theorem holding_chains : ∀ b : BayId, ((holding held).pool.chains.get b).length ≤ 1 := by decide +kernel

/-- The machine with a HELD record and other commands waiting. -/
def steppingWith (l : List Instr) : State := { stepping with pending := l }

theorem stepping_headed (l : List Instr) : (steppingWith l).Headed where
  chained := {
    coherent := {
      parts := holding_partitioned held
      bayed := holding_allRecords ⟨fun _ => rfl, fun h => by cases h⟩
      current := current_of_now (by decide +kernel : currentNow (holding held) = true)
      notice := fun x k hx hk => by cases hx; cases hk }
    chains := {
      chain := fun b => by
        have h := holding_chains b
        show List.Pairwise _ ((holding held).pool.chains.get b)
        match e : (holding held).pool.chains.get b with
        | [] => exact .nil
        | [_] => exact List.pairwise_singleton _ _
        | _ :: _ :: _ => rw [e] at h; exact absurd h (by simp)
      window := fun s r hr _ => holding_allRecords (good := fun r => r.windowStart < r.windowEnd) (by decide) s r hr
      duration := fun s r hr _ => holding_allRecords (good := fun r => 1 ≤ r.duration) (by decide) s r hr } }
  started := holding_allRecords (fun _ => (by decide : 980 ≤ 1000))
  first := fun b s r hs => by
    have h := holding_chains b
    replace hs : s ∈ ((holding held).pool.chains.get b).tail := hs
    match e : (holding held).pool.chains.get b with
    | [] => rw [e] at hs; cases hs
    | [_] => rw [e] at hs; cases hs
    | _ :: _ :: _ => rw [e] at h; exact absurd h (by simp)

theorem witness_StepKeepsThePoolPartition_order (l : List Instr) :
    (steppingWith l).Headed ∧ (steppingWith l).part.pool.listOrdered ∧
    (steppingWith l).part.allRecords (Record.ahead (steppingWith l).part.now) ∧
    (steppingWith l).part.allRecords Record.retractable ∧
    (steppingWith l).part.allRecords
      (Record.arrivesNow (steppingWith l).part.now (steppingWith l).part.settings.earlyAllowance) ∧
    (steppingWith l).part.clock.minute < 4294967295 :=
  ⟨stepping_headed l, .nil, holding_allRecords (fun _ => (by decide : 1000 < 1040)), holding_allRecords (fun x l h => by cases h),
    holding_allRecords (fun _ _ => (by decide : 1040 ≤ 1000 + 720)), (by decide : 1000 < 4294967295)⟩

theorem witness_StepKeepsTheRecordsSound :
    stepping.part.allRecords Record.windowSound ∧ stepping.part.allRecords Record.residueSound ∧
      stepping.part.allRecords Record.energySound ∧ stepping.part.allRecords Record.phaseSound := by
  have h1 : held.windowSound := by
    unfold Record.windowSound
    decide +kernel
  have e : ∀ x, held.session ≠ some x := fun x h => absurd ((rfl : held.session = none).symm.trans h) (Option.some_ne_none x).symm
  have e' : ∀ n, held.quota ≠ some n := fun n h => absurd ((rfl : held.quota = none).symm.trans h) (Option.some_ne_none n).symm
  have h2 : held.residueSound := fun x h => absurd h (e x)
  have h3 : held.energySound := ⟨fun n h => absurd h (e' n), fun x h => absurd h (e x)⟩
  have h4 : held.phaseSound := fun x h => absurd h (e x)
  exact ⟨holding_allRecords h1, holding_allRecords h2, holding_allRecords h3, holding_allRecords h4⟩

theorem witness_StepKeepsTheRecordsSound_options :
    stepping.part.policySound ∧ stepping.part.allRecords Record.windowed ∧ stepping.part.allRecords Record.optionsSound := by
  have rules : ∀ r : RuleId, stepping.part.rule r = Rule.reset := by decide +kernel
  have lanes : ∀ l : LaneId, (stepping.part.lane l).numbersSound := by
    unfold Lane.numbersSound
    decide +kernel
  have options : held.optionsSound :=
    ⟨fun n h => (by cases h), fun n h => (by cases h), (by decide : 1 ≤ 2), (by decide : 2 ≤ 4)⟩
  exact ⟨⟨lanes, fun r => rules r ▸ ⟨by decide, by decide, by decide, by decide, by decide, by decide⟩⟩,
    holding_allRecords (fun _ => (by decide : 980 < 1040)), holding_allRecords options⟩

theorem witness_StepKeepsTheTablesInRange_limits :
    (∀ a : PostId, (level.post a).wakesSound) ∧ (∀ b : BayId, (level.bay b).limitSound) := by
  have fresh : ∀ a : PostId, (level.post a).fault = 0 ∧ (level.post a).slowWakes = 0 ∧ (level.post a).timer = .stopped := by
    decide +kernel
  refine ⟨fun a => ?_, ?_⟩
  · obtain ⟨h1, h2, h3⟩ := fresh a
    exact ⟨by omega, by omega, fun h => by omega, fun e h => by rw [h3] at h; cases h⟩
  · unfold Bay.limitSound
    decide +kernel

theorem witness_StepKeepsTheTablesInRange :
    level.numbersSound ∧ level.talliesSound ∧ level.pool.waiting.length ≤ 32 := by
  have bays : ∀ b : BayId, (level.bay b).numbersSound := by
    unfold Bay.numbersSound
    decide +kernel
  have feeders : ∀ f : FeederId, (level.feeder f).numbersSound := by
    unfold Feeder.numbersSound
    decide +kernel
  have posts : ∀ a : PostId, (level.post a).countersSound := by
    unfold Post.countersSound
    decide +kernel
  have settings : level.settings.inRange = true := by decide +kernel
  have tallies : ∀ r : RuleId, (level.rule r).counter ≤ (level.rule r).tally.limit := by decide +kernel
  exact ⟨⟨bays, feeders, posts, settings, ⟨by decide, by decide⟩, Nat.zero_le 9⟩, tallies, Nat.zero_le 32⟩

theorem witness_StepKeepsThePortBounded : stepping.port.queuesSound ∧ stepping.settled :=
  ⟨⟨by decide, by decide, nofun, fun _ => rfl⟩, rfl⟩

/-- The machine with a CLOSING record whose CLOSE-NOTICE is in transmission. -/
def notifying : State :=
  { quietly (holding (stay .closing none 900)) with
    port := { Port.reset with sending := some ⟨⟨0, 0xE2, []⟩, .closeNotice (some 0)⟩ } }

theorem witness_StepKeepsThePortBounded_notice : notifying.part.pool.partitioned ∧ notifying.noticeSound :=
  ⟨holding_partitioned _, fun x k hx hk => by
    cases hx
    cases hk
    exact ⟨stay .closing none 900, by decide +kernel, rfl⟩⟩

theorem witness_EventsLeaveTheConfiguration :
    servedKind (.tick 0) = none ∧
    runs (.tick 0) (talking level) (fun t => t.part.settings = level.settings && (t.part.bay 0).rating = 320) =
      true := by decide +kernel

end Sys2Proof.Tests
end

namespace Sys2Proof.Machine

/-! ## Numbers, codes and tables -/

@[simp] theorem fin?_val {n : Nat} (i : Fin n) : fin? n i.val = some i := by simp [fin?]

theorem fin?_of_le {n i : Nat} (h : n ≤ i) : fin? n i = none := by simp [fin?, Nat.not_lt.2 h]

@[simp] theorem Socket.ofCode_code (k : Socket) : Socket.ofCode k.code = some k := by cases k <;> rfl

@[simp] theorem ConnType.ofCode_code (c : ConnType) : ConnType.ofCode c.code = some c := by cases c <;> rfl

theorem Socket.ofCode_of_lt {n : Nat} (h : 1 < n) : Socket.ofCode n = none := by
  match n, h with
  | n + 2, _ => rfl

theorem ConnType.ofCode_of_lt {n : Nat} (h : 3 < n) : ConnType.ofCode n = none := by
  match n, h with
  | n + 4, _ => rfl

theorem Service.ofCode_of_lt {n : Nat} (h : 1 < n) : Service.ofCode n = none := by
  match n, h with
  | n + 2, _ => rfl

theorem Part.setFeeder_self (p : Part) (f : FeederId) : p.setFeeder f (p.feeder f) = p := by
  simp [Part.setFeeder, Part.feeder, Vector.get]

/-! ## Served requests -/

/-- A request gives the answer and the part of its action, completed. -/
theorem State.serve_gives {α : Type} {s : State} {k : Kind} {payload : List Byte} {f : Frame} {rest : List Frame}
    (h : s.Asks k payload f rest) {mine : List Byte → Bool} (hm : mine payload = true) {rd : Rd α} {x : α}
    (hx : rd.all payload = some x) {act : α → Part → Answer × Part} {a : Answer} {p : Part}
    (ha : act x s.part = (a, p)) : (s.serve k mine rd act).done = .next (s.replied rest f a p.finish) := by
  rw [State.serve_asks h hm hx, ha]

/-- A request of a settled machine that changes nothing behind the port. -/
theorem State.serve_unchanged {α : Type} {s : State} {k : Kind} {payload : List Byte} {f : Frame} {rest : List Frame}
    (settled : s.settled) (h : s.Asks k payload f rest) {mine : List Byte → Bool} (hm : mine payload = true) {rd : Rd α}
    {x : α} (hx : rd.all payload = some x) {act : α → Part → Answer × Part} {a : Answer}
    (ha : act x s.part = (a, s.part)) :
    (s.serve k mine rd act).done = .next (s.replied rest f a s.part) := by
  rw [State.serve_gives h hm hx ha, Part.finish_of_settled s.part settled]

theorem Part.setPostRequest_declares {p : Part} {q : PostId} (h : (p.post q).inUse = false) :
    Part.setPostRequest (q.val, true) p = (Answer.ok [], p.modPost q Post.declared) := by
  simp only [Part.setPostRequest, fin?_val, h]

/-! ## O56: a post out of use may hold a wake limit -/

/-- A post out of use, left in WAKING with its wake limit running: in the ranges of R15 and R163. -/
def Post.wakingUnused : Post := { Post.reset with link := .waking, timer := .wake 0 }

theorem Post.wakingUnused_sound : Post.wakingUnused.wakesSound :=
  ⟨Nat.zero_le _, Nat.zero_le _, fun h => absurd h (by decide), fun _ _ => rfl⟩

/-- POST-SET with the flag set stores a post in SEEKING and leaves its timer, so a wake limit goes on outside WAKING. -/
theorem Post.declared_not_wakesSound : ¬ Post.wakingUnused.declared.wakesSound :=
  fun ⟨_, _, _, timer⟩ => absurd (timer 0 rfl) (by decide)

/-- The machine after reset but for post 0, with a POST-SET waiting that declares post 0 in use. -/
def State.declaring : State where
  part := State.reset.part.setPost 0 .wakingUnused
  port := { Port.reset with requests := [⟨1, Kind.postSet.code, [0, 1]⟩] }
  pending := [.postSetInUse]

theorem State.declaring_wakesSound (a : PostId) : (State.declaring.part.post a).wakesSound := by
  show ((State.reset.part.setPost 0 .wakingUnused).post a).wakesSound
  rw [Part.post_setPost]
  split
  · exact Post.wakingUnused_sound
  · have : State.reset.part.post a = Post.reset := by simp [State.reset, Part.post, Part.afterReset, Vector.get]
    rw [this]
    exact ⟨Nat.zero_le _, Nat.zero_le _, fun h => absurd h (by decide), fun _ h => absurd h (by simp [Post.reset])⟩

/-- The step declares post 0. -/
theorem State.step_declaring : ∃ t, step State.declaring = .next t ∧ t.part.post 0 = Post.wakingUnused.declared := by
  have asks : { State.declaring with pending := [] }.Asks .postSet [0, 1] ⟨1, Kind.postSet.code, [0, 1]⟩ [] :=
    ⟨rfl, rfl, by decide, rfl, Nat.zero_lt_succ 3, rfl⟩
  refine ⟨_, State.serve_asks asks (mine := byteNot 1 [0]) (by decide) (rd := Rd.byteFlag) (x := (0, true)) rfl
    Part.setPostRequest, ?_⟩
  have post : State.declaring.part.post 0 = Post.wakingUnused := Part.post_setPost_same _ _ _
  show ((Part.setPostRequest (0, true) State.declaring.part).2.finish).post 0 = _
  have set : (Part.setPostRequest (0, true) State.declaring.part).2 = State.declaring.part.modPost 0 Post.declared := by
    rw [show ((0 : Nat), true) = ((0 : PostId).val, true) from rfl,
      Part.setPostRequest_declares (congrArg Post.inUse post)]
  rw [set, Part.finish_of_settled _ rfl, Part.post_modPost_same, post]

/-- Refutes O56: the clause on slow wakes fails. A POST-SET that declares a post whose timer holds a wake limit stores
SEEKING beside that timer (R16 sets no timer); the post out of use in WAKING was in its ranges before. -/
theorem not_stepKeepsTheTablesInRange : ¬ Obligations.StepKeepsTheTablesInRange := by
  unfold Obligations.StepKeepsTheTablesInRange
  intro ⟨_, _, _, wakes, _⟩
  obtain ⟨t, next, post⟩ := State.step_declaring
  exact Post.declared_not_wakesSound (post ▸ wakes _ t State.declaring_wakesSound next 0)

/-! ## O3: the values after reset -/

/-- Settles O3: every block of the reset state is its literal value, the tables entry by entry. -/
theorem valuesAfterReset : Obligations.ValuesAfterReset := by
  unfold Obligations.ValuesAfterReset
  refine ⟨fun b => ?_, fun f => ?_, fun q => ?_, rfl, rfl, fun l => ?_, fun r => ?_, fun k => ?_, rfl, fun b => ?_,
    rfl, rfl, rfl, rfl, rfl⟩
  all_goals exact Vector.getElem_replicate _

/-! ## The mask of a set of bays (R180) -/

theorem BayMask.getLsbD_bit (b c : BayId) : (1#64 <<< b.val : BayMask).getLsbD c.val = decide (b = c) := by
  rw [← BitVec.twoPow_eq, BitVec.getLsbD_twoPow]
  simp [Fin.ext_iff]

/-- Setting a clear bit adds it. -/
theorem BayMask.toNat_or_bit {m : BayMask} {b : BayId} (h : m.getLsbD b.val = false) :
    (m ||| 1#64 <<< b.val).toNat = m.toNat + 2 ^ b.val := by
  have disjoint : m &&& 1#64 <<< b.val = 0#64 := by
    refine BitVec.eq_of_getLsbD_eq fun i hi => ?_
    have bit := BayMask.getLsbD_bit b ⟨i, hi⟩
    rw [BitVec.getLsbD_and, bit, BitVec.getLsbD_zero, Bool.and_eq_false_iff, decide_eq_false_iff_not]
    by_cases e : b = ⟨i, hi⟩
    · exact .inl (by rw [e] at h; exact h)
    · exact .inr e
  rw [← BitVec.add_eq_or_of_and_eq_zero _ _ disjoint, BitVec.toNat_add_of_and_eq_zero disjoint, ← BitVec.twoPow_eq,
    BitVec.toNat_twoPow_of_lt b.isLt]

theorem BayMask.toNat_foldl_bits (l : List BayId) :
    ∀ m : BayMask, l.Nodup → (∀ b ∈ l, m.getLsbD b.val = false) →
      (l.foldl (fun m b => m ||| 1#64 <<< b.val) m).toNat = m.toNat + (l.map (fun b => 2 ^ b.val)).sum := by
  induction l with
  | nil => intro m _ _; rfl
  | cons b l ih =>
    intro m nodup clear
    obtain ⟨hb, hl⟩ := List.nodup_cons.1 nodup
    rw [List.foldl_cons, ih _ hl, BayMask.toNat_or_bit (clear b List.mem_cons_self), List.map_cons, List.sum_cons,
      Nat.add_assoc]
    intro c hc
    rw [BitVec.getLsbD_or, clear c (List.mem_cons_of_mem _ hc), BayMask.getLsbD_bit, Bool.false_or]
    exact decide_eq_false fun e => hb (e ▸ hc)

/-- The mask of bays with distinct numbers is the sum of their bits. -/
theorem BayMask.toNat_ofList {l : List BayId} (nodup : l.Nodup) :
    (BayMask.ofList l).toNat = (l.map (fun b => 2 ^ b.val)).sum := by
  unfold BayMask.ofList
  rw [BayMask.toNat_foldl_bits l _ nodup (fun b _ => BitVec.getLsbD_zero), BitVec.toNat_zero, Nat.zero_add]

theorem Part.baysOfFeeder_nodup (p : Part) (f : FeederId) : (p.baysOfFeeder f).Nodup :=
  (List.nodup_finRange 64).filter _

/-! ## The snapshots, byte by byte -/

/-- The occupancy that a bay reports, by its code: 2 is UNKNOWN. -/
theorem Part.occupancyOf_code (p : Part) (b : BayId) :
    (p.occupancyOf b).code = if p.serviceable b then (p.bay b).occupancy.code else 2 := by
  unfold Part.occupancyOf
  split <;> rfl

theorem Part.plugOf_code (p : Part) (b : BayId) :
    (p.plugOf b).code = if p.serviceable b then (p.bay b).plug.code else 2 := by
  unfold Part.plugOf
  split <;> rfl

/-- The bay snapshot, over the codes of the stored fields (12.7). -/
theorem Part.baySnapshot_eq (p : Part) (b : BayId) :
    p.baySnapshot b =
      let x := p.bay b
      let due : Option Nat := match x.verify with
        | .running m => some m
        | .idle | .expired => none
      u8 b.val ++ bit x.configured ++ u8 x.post.val ++ u8 x.socket.code ++ u8 x.feeder.val ++ u8 x.ctype.code ++
      u16 x.rating ++ u8 x.service.code ++ u8 x.condition.code ++ u8 x.condition.indicator.code ++ u16 x.limit ++
      u8 x.penalty ++ u16 x.reading ++
      u8 (if (p.post x.post).serviceable then x.occupancy.code else 2) ++
      u8 (if (p.post x.post).serviceable then x.plug.code else 2) ++ u16 x.cap ++ u8 x.verify.code ++
      opt u32 due ++ u8 (p.chain b).length ++
      counted (fun k => u16 ((p.pool.slot k).generation * 256 + k.val)) ((p.chain b).take 8) ++
      opt (fun k : SlotId => u16 ((p.pool.slot k).generation * 256 + k.val)) (p.occupant b) := by
  unfold Part.baySnapshot
  rw [Part.occupancyOf_code, Part.plugOf_code]
  rfl

theorem Post.serviceable_eq (x : Post) :
    x.serviceable = (x.inUse && (x.link = .active || x.link = .standby || x.link = .waking)) := by
  unfold Post.serviceable LinkState.serviceable
  cases x.link <;> simp

/-- The session part of a reservation snapshot, with 0 for a phase or a cause that is absent (12.6). -/
theorem Session.bytes_eq : Session.bytes = fun x =>
    u8 x.phase.code ++ u8 x.pause.code ++
      u8 (match x.stoppedIn with
        | some y => y.code
        | none => 0) ++
      u8 (match x.settle with
        | some z => z.cause.code
        | none => 0) ++
      u32 x.engaged ++ u32 x.within ++ u32 x.excess ++ u16 x.satisfied ++ u8 x.seen.code ++ opt u32 x.overstayStart := by
  funext x
  unfold Session.bytes
  cases x.stoppedIn <;> cases x.settle <;> rfl

/-- The reservation snapshot, its extension stack after the count (12.6). -/
theorem Part.recordSnapshot_eq (p : Part) (k : SlotId) (r : Record) :
    p.recordSnapshot k r =
      u16 ((p.pool.slot k).generation * 256 + k.val) ++ u8 r.state.code ++ optBay r.bay ++ u8 r.lastCause.code ++
        u32 r.windowStart ++ u32 r.windowEnd ++ u16 r.duration ++ u8 r.grace ++ u32 r.graceEnd ++ u8 r.lane.val ++
        u8 r.vclass.val ++ u8 r.ctype.code ++ u8 r.tier.val ++ u8 r.priority ++ maskBytes 8 r.eligible.toNat ++
        maskBytes 8 r.preferred.toNat ++ u32 r.created ++ u8 r.origin.code ++ opt u32 r.quota ++ opt u16 r.rateCap ++
        opt u32 r.deadline ++ optBay r.pinned ++ u8 r.extensions.length ++ r.extensions.reverse.flatMap u16 ++
        u8 (p.pool.position k) ++ opt Session.bytes r.session ++ opt CloseSummary.bytes r.close := by
  unfold Part.recordSnapshot counted
  rw [List.length_reverse, List.append_assoc (_ ++ optBay r.pinned) (u8 r.extensions.length)]
  rfl

theorem Pool.position_of_not_mem {q : Pool} {k : SlotId} (h : k ∉ q.waiting) : q.position k = 0 := by
  have none : q.waiting.findIdx? (fun y => y = k) = none :=
    List.findIdx?_eq_none_iff.2 fun y hy => decide_eq_false fun e => h (e ▸ hy)
  unfold Pool.position
  rw [none]

theorem Pool.position_of_waiting {q : Pool} {k : SlotId} {l m : List SlotId} (h : q.waiting = l ++ k :: m)
    (hl : k ∉ l) : q.position k = l.length + 1 := by
  have before : l.findIdx? (fun y => y = k) = none :=
    List.findIdx?_eq_none_iff.2 fun y hy => decide_eq_false fun e => hl (e ▸ hy)
  have found : q.waiting.findIdx? (fun y => y = k) = some l.length := by
    simp [h, List.findIdx?_append, before, List.findIdx?_cons]
  unfold Pool.position
  rw [found]

section
variable {q : Pool} {a b : Byte}

/-- A handle names the record of the slot of its low byte, in the generation of its high byte (R28, R32). -/
theorem Pool.find_bytes {k : SlotId} {r : Record} (slot : b.toNat = k.val) (pos : 1 ≤ a.toNat)
    (gen : a.toNat = (q.slot k).generation) (live : q.record k = some r) :
    q.find (a.toNat * 256 + b.toNat) = some (k, r) := by
  have hb := b.isLt
  have hk : (a.toNat * 256 + b.toNat) % 256 = k.val := by omega
  have ha : (a.toNat * 256 + b.toNat) / 256 = a.toNat := by omega
  simp only [Pool.find, hk, ha, fin?_val, if_neg (show ¬ (a.toNat = 0 ∨ a.toNat ≠ (q.slot k).generation) by omega), live,
    Option.map_some]

theorem Pool.find_bytes_none
    (h : ∀ k : SlotId, b.toNat ≠ k.val ∨ a.toNat = 0 ∨ a.toNat ≠ (q.slot k).generation ∨ q.record k = none) :
    q.find (a.toNat * 256 + b.toNat) = none := by
  have hb := b.isLt
  have ha : (a.toNat * 256 + b.toNat) / 256 = a.toNat := by omega
  unfold Pool.find
  split
  · rfl
  · next k hk =>
    have slot : b.toNat = k.val := by
      unfold fin? at hk
      split at hk
      · have := congrArg Fin.val (Option.some.inj hk)
        simp only at this
        omega
      · nomatch hk
    split
    · rfl
    · next live =>
      rw [ha] at live
      rcases h k with h | h | h | h
      · exact absurd slot h
      · exact absurd (.inl h) live
      · exact absurd (.inr h) live
      · rw [h, Option.map_none]

end

/-- Settles O15: each read leaves the part as it is and answers the bytes of its snapshot. -/
theorem snapshotsAnswerAndChangeNothing : Obligations.SnapshotsAnswerAndChangeNothing := by
  unfold Obligations.SnapshotsAnswerAndChangeNothing
  refine ⟨fun s f rest n settled asks => ?bay, fun s f rest n settled asks => ?feeder,
    fun s f rest n settled asks => ?post,
    fun s f rest a b settled asks => ⟨fun k r slot pos gen live => ?found, fun h => ?missed⟩,
    fun p k r => ⟨fun c => rfl, ?record, Pool.position_of_not_mem, fun l m => Pool.position_of_waiting⟩⟩
  case bay =>
    refine State.serve_unchanged settled asks rfl (rd := Rd.u8) (x := n.toNat) rfl ?_
    unfold Part.getBayRequest
    by_cases h : n.toNat < 64
    · simp only [fin?, h, dif_pos, Part.baySnapshot_eq]
      rfl
    · simp [fin?, h, Status.alone]
  case feeder =>
    refine State.serve_unchanged settled asks rfl (rd := Rd.u8) (x := n.toNat) rfl ?_
    unfold Part.getFeederRequest
    by_cases h : n.toNat < 8
    · simp only [fin?, h, dif_pos, Part.feederSnapshot, bayMask, BayMask.toNat_ofList (Part.baysOfFeeder_nodup _ _)]
      rfl
    · simp [fin?, h, Status.alone]
  case post =>
    refine State.serve_unchanged settled asks rfl (rd := Rd.u8) (x := n.toNat) rfl ?_
    unfold Part.getPostRequest
    by_cases h : n.toNat < 32
    · simp only [fin?, h, dif_pos, Part.postSnapshot, Post.serviceable_eq]
      rfl
    · simp [fin?, h, Status.alone]
  case found =>
    refine State.serve_unchanged settled asks rfl (rd := Rd.u16) (x := a.toNat * 256 + b.toNat) rfl ?_
    simp only [Part.resGetRequest, Pool.find_bytes slot pos gen live]
    rfl
  case missed =>
    refine State.serve_unchanged settled asks rfl (rd := Rd.u16) (x := a.toNat * 256 + b.toNat) rfl ?_
    simp only [Part.resGetRequest, Pool.find_bytes_none h]
    rfl
  case record =>
    rw [Part.recordSnapshot_eq, Session.bytes_eq]
    rfl

/-! ## O50: the condition of a bay -/

theorem LinkState.serviceable_iff (l : LinkState) :
    l.serviceable = true ↔ l = .active ∨ l = .standby ∨ l = .waking := by
  cases l <;> decide

theorem Post.serviceable_iff (x : Post) :
    x.serviceable = true ↔ x.inUse = true ∧ (x.link = .active ∨ x.link = .standby ∨ x.link = .waking) := by
  simp [Post.serviceable, LinkState.serviceable_iff]

theorem Condition.blocking_iff (c : Condition) :
    c.blocking = true ↔ c = .out ∨ c = .dark ∨ c = .intruded ∨ c = .overstay := by
  cases c <;> decide

theorem Condition.unusable_iff (c : Condition) : c.unusable = true ↔ c = .out ∨ c = .dark := by
  cases c <;> decide

theorem Phase.isOverstay_iff (x : Phase) : x.isOverstay = true ↔ x = .overstay := by
  cases x <;> decide

/-- The test of a slot's record, as a live record of which it holds. -/
theorem Part.recordIs_iff {p : Part} {test : Record → Bool} {s : SlotId} :
    p.recordIs test s = true ↔ ∃ r, p.record s = some r ∧ test r = true := by
  unfold Part.recordIs
  cases p.record s <;> simp

/-- A record whose session is in OVERSTAY. -/
def Part.overstaying (p : Part) (k : SlotId) : Prop :=
  ∃ r y, p.record k = some r ∧ r.session = some y ∧ y.phase = .overstay

theorem Part.session_any_overstay {p : Part} {k : SlotId} :
    (p.session k).any (·.phase.isOverstay) = true ↔ p.overstaying k := by
  unfold Part.session Part.overstaying
  cases p.record k with
  | none => simp
  | some r => simp [Option.any_eq_true, Phase.isOverstay_iff]

/-- A chain with a HELD or ARRIVING record. -/
def Part.expecting (p : Part) (b : BayId) : Prop :=
  ∃ k r, k ∈ p.chain b ∧ p.record k = some r ∧ (r.state = .held ∨ r.state = .arriving)

theorem Part.any_held {p : Part} {b : BayId} :
    (p.chain b).any (p.recordIs (fun r => r.state = .held || r.state = .arriving)) = true ↔ p.expecting b := by
  simp [List.any_eq_true, Part.recordIs_iff, Part.expecting]

/-! ## The table of R7, entry by entry -/

section
variable {p : Part} {b : BayId}

theorem Part.conditionOf_out (h : (p.bay b).configured = false ∨ (p.bay b).service = .out) : p.conditionOf b = .out := by
  unfold Part.conditionOf
  rcases h with h | h
  · simp [h]
  · simp [h]

theorem Part.conditionOf_dark (hc : (p.bay b).configured = true) (hi : (p.bay b).service = .inService)
    (h : p.serviceable b = false) : p.conditionOf b = .dark := by
  simp [Part.conditionOf, hc, hi, h]

/-- With an occupant the condition is OVERSTAY or IN USE, by the phase of its session. -/
theorem Part.conditionOf_occupied (hc : (p.bay b).configured = true) (hi : (p.bay b).service = .inService)
    (h : p.serviceable b = true) {k : SlotId} (hk : p.occupant b = some k) :
    p.conditionOf b = if (p.session k).any (·.phase.isOverstay) then .overstay else .inUse := by
  simp [Part.conditionOf, hc, hi, h, hk]

/-- Without an occupant the condition follows the reported occupancy, the verify timer and the chain. -/
theorem Part.conditionOf_unoccupied (hc : (p.bay b).configured = true) (hi : (p.bay b).service = .inService)
    (h : p.serviceable b = true) (hk : p.occupant b = none) :
    p.conditionOf b =
      if (p.bay b).occupancy = .occupied then
        match (p.bay b).verify with
        | .running _ => .unverified
        | .idle | .expired => .intruded
      else if (p.chain b).any (p.recordIs (fun r => r.state = .held || r.state = .arriving)) then .reserved
      else .free := by
  simp only [Part.conditionOf, hc, hi, h, hk, Part.occupancyOf]
  rfl

/-- A derivation that finds the stored condition has no effect (R8). -/
theorem Part.derive_of_eq (h : p.conditionOf b = (p.bay b).condition) : p.derive b = p := by
  simp [Part.derive, Part.deriveWith, h]

/-- The bay as a derivation that finds another condition leaves it. -/
def Part.rederived (p : Part) (b : BayId) : Part :=
  (p.modBay b (fun x => { x with condition := p.conditionOf b, notice := true })).touchPost (p.bay b).post

theorem Part.derive_of_ne (h : p.conditionOf b ≠ (p.bay b).condition) :
    p.derive b =
      let raised := if (p.conditionOf b).blocking && !(p.bay b).condition.blocking
        then (p.rederived b).reportBlocked b false else p.rederived b
      if (p.conditionOf b).unusable = (p.bay b).condition.unusable then raised
      else raised.shareChanged (p.bay b).feeder := by
  simp [Part.derive, Part.deriveWith, h, Part.rederived]

theorem Part.touchPost_blocked (p : Part) (q : PostId) : (p.touchPost q).work.blocked = p.work.blocked := by
  unfold Part.touchPost; split <;> rfl

theorem Part.derive_bay_of_ne (h : p.conditionOf b ≠ (p.bay b).condition) (j : BayId) :
    (p.derive b).bay j = if j = b then { p.bay b with condition := p.conditionOf b, notice := true } else p.bay j := by
  rw [Part.derive_of_ne h]
  dsimp only
  split <;> split <;> simp [Part.rederived, Part.bay_modBay]

theorem Part.derive_blocked_of_ne (h : p.conditionOf b ≠ (p.bay b).condition) :
    (p.derive b).work.blocked =
      p.work.blocked ++ if (p.conditionOf b).blocking && !(p.bay b).condition.blocking then [⟨b, false⟩] else [] := by
  rw [Part.derive_of_ne h]
  dsimp only
  split <;> split <;> simp [Part.rederived, Part.touchPost_blocked, Part.reportBlocked]

theorem Part.derive_recomputeDue (h : p.conditionOf b ≠ (p.bay b).condition)
    (hu : (p.conditionOf b).unusable ≠ (p.bay b).condition.unusable) :
    ((p.derive b).feeder (p.bay b).feeder).recomputeDue = true := by
  rw [Part.derive_of_ne h]
  simp only [hu, if_false, Part.shareChanged, Part.feeder_modFeeder_same]

end

/-- Settles O50: the branches of `Part.conditionOf` in R7's order, then the two outcomes of a derivation (R8). -/
theorem conditionIsTheFirstTestThatHolds : Obligations.ConditionIsTheFirstTestThatHolds := by
  unfold Obligations.ConditionIsTheFirstTestThatHolds
  intro p b
  dsimp only
  have serviceable : p.serviceable b = true ↔ _ := (p.post (p.bay b).post).serviceable_iff
  refine ⟨Part.conditionOf_out, fun hc hi => ⟨fun h => ?dark, fun h k hk => ?occupied, fun h hk => ?unoccupied⟩,
    Part.derive_of_eq, fun h => ⟨?_, ?blocked, fun hu => ?due, fun j hj => ?_, Part.deriveWith_pool true p b⟩⟩
  case dark => exact Part.conditionOf_dark hc hi (Bool.eq_false_iff.2 (mt serviceable.1 h))
  case occupied =>
    have phase : (p.session k).any (·.phase.isOverstay) = true ↔ _ := Part.session_any_overstay
    rw [Part.conditionOf_occupied hc hi (serviceable.2 h) hk]
    exact ⟨fun e => if_pos (phase.2 e), fun e => if_neg (mt phase.1 e)⟩
  case unoccupied =>
    have held := Part.any_held (p := p) (b := b)
    rw [Part.conditionOf_unoccupied hc hi (serviceable.2 h) hk]
    refine ⟨fun e => ?_, fun e => ?_⟩
    · rw [if_pos e]
      exact ⟨fun due hv => by rw [hv], fun hv => by rcases hv with hv | hv <;> rw [hv]⟩
    · rw [if_neg e]
      exact ⟨fun r => if_pos (held.2 r), fun r => if_neg (mt held.1 r)⟩
  case blocked =>
    rw [Part.derive_blocked_of_ne h]
    congr 1
    refine if_congr ?_ rfl rfl
    rw [Bool.and_eq_true, Bool.not_eq_true', ← Bool.not_eq_true, Condition.blocking_iff, Condition.blocking_iff]
    simp only [not_or, ne_eq]
  case due =>
    refine Part.derive_recomputeDue h (fun e => hu ?_)
    rw [← Condition.unusable_iff, ← Condition.unusable_iff, e]
  · rw [Part.derive_bay_of_ne h, if_pos rfl]
  · rw [Part.derive_bay_of_ne h, if_neg hj]

/-! ## O60: what the events leave as it was -/

/-- The configuration stays as it was, and the Park Clock too where the event does not move it. -/
structure Part.KeepsConfig (timed : Bool) (p q : Part) : Prop where
  config : p.SameConfig q
  clock : timed = false → q.clock = p.clock

namespace Part.KeepsConfig

variable {timed : Bool} {p q r : Part}

/-- The time base, the trip inputs and the pool hold no configuration. -/
theorem besides (p : Part) (time : Nat) (trips : Vector TripInput 8) (pool : Pool) :
    Part.KeepsConfig timed p { p with time := time, trips := trips, pool := pool } :=
  ⟨⟨rfl, rfl, fun _ => rfl, fun _ => rfl, fun _ => rfl, fun _ => rfl⟩, fun _ => rfl⟩

theorem refl (p : Part) : Part.KeepsConfig timed p p := .besides p p.time p.trips p.pool

theorem trans (h : Part.KeepsConfig timed p q) (h' : Part.KeepsConfig timed q r) : Part.KeepsConfig timed p r where
  config :=
    { settings := h'.config.settings.trans h.config.settings
      lanes := h'.config.lanes.trans h.config.lanes
      bay := fun b => (h'.config.bay b).trans (h.config.bay b)
      feeder := fun f => (h'.config.feeder f).trans (h.config.feeder f)
      post := fun a => (h'.config.post a).trans (h.config.post a)
      rule := fun x => (h'.config.rule x).trans (h.config.rule x) }
  clock := fun e => (h'.clock e).trans (h.clock e)

/-- The moves of an event write no configuration, and the clock only where they are timed. -/
theorem moves (h : Part.Moves timed p q) : Part.KeepsConfig timed p q :=
  ⟨h.sameConfig, fun e => Part.Moves.clock_eq (e ▸ h)⟩

theorem at_ (p : Part) (time : Nat) : Part.KeepsConfig timed p (p.at time) := .besides p _ p.trips p.pool

theorem setTrip (p : Part) (f : FeederId) (x : TripInput) : Part.KeepsConfig timed p (p.setTrip f x) :=
  .besides p p.time _ p.pool

end Part.KeepsConfig

section
variable {timed : Bool}

theorem Part.timedEvent_keepsConfig (p : Part) (e : Timed) (h : e = .rollover → timed = true) :
    Part.KeepsConfig timed p (p.timedEvent e) := by
  unfold Part.timedEvent
  split
  · next due => exact .moves (p.takeTimed_moves e due h)
  · exact .refl p

theorem Part.debounce_keepsConfig (p : Part) (f : FeederId) : Part.KeepsConfig timed p (p.debounce f) := by
  unfold Part.debounce
  dsimp only
  split
  · split
    · exact .trans (.setTrip p f _) (.moves (Part.levelChanged_moves _ _ _))
    · exact .refl p
  · exact .refl p

/-- The end of a frame frees a slot at most, but for the reply that takes the full reset. -/
theorem State.frameSent_keepsConfig {s : State} (h : ∀ fr, s.port.sending ≠ some ⟨fr, .resetReply⟩) :
    Part.KeepsConfig timed s.part s.frameSent.part := by
  unfold State.frameSent
  split
  · exact .refl _
  · next x sending =>
    obtain ⟨fr, what⟩ := x
    cases what with
    | closeNotice k =>
      cases k with
      | some k => exact .besides s.part s.part.time s.part.trips _
      | none => exact .refl _
    | resetReply => exact absurd sending (h fr)
    | reply => exact .refl _
    | notice => exact .refl _

theorem State.done_keepsConfig {s u t : State} (h : u.done = .next t) (hu : Part.KeepsConfig timed s.part u.part) :
    Part.KeepsConfig timed s.part t.part := by
  cases h
  exact .trans hu (.moves u.complete_moves)

theorem withObject_keepsConfig {s t : State} {n i : Nat} {effect : Fin n → State} (h : withObject n i effect = .next t)
    (he : ∀ x, Part.KeepsConfig timed s.part (effect x).part) : Part.KeepsConfig timed s.part t.part := by
  unfold withObject at h
  split at h
  · exact State.done_keepsConfig h (he _)
  · cases h

end

/-- The commands that move the Park Clock by themselves (R19, R21, R25). -/
def movesClock : Instr → Bool
  | .tick _ | .minuteEvent | .rollover => true
  | _ => false

/-- Every command but the requests and the resets leaves the configuration. -/
theorem exec_keepsConfig {c : Instr} {s t : State} (event : servedKind c = none) (powerOn : c ≠ .powerOn)
    (rstN : c ≠ .rstN) (fullReset : c ≠ .fullReset) (sending : ∀ fr, s.port.sending ≠ some ⟨fr, .resetReply⟩)
    (h : exec c s = .next t) : Part.KeepsConfig (movesClock c) s.part t.part := by
  have at_ : ∀ {timed : Bool} (time : Nat) (g : Part → Part), (∀ p, Part.KeepsConfig timed p (g p)) →
      Part.KeepsConfig timed s.part ((s.at time).onPart g).part :=
    fun time g hg => .trans (.at_ s.part time) (hg _)
  have moved : ∀ {timed : Bool} (time : Nat) (g : Part → Part), (∀ p, Part.Moves timed p (g p)) →
      Part.KeepsConfig timed s.part ((s.at time).onPart g).part := fun time g hg => at_ time g (fun p => .moves (hg p))
  have untimed : ∀ {e : Timed}, e ≠ .rollover → Part.KeepsConfig false s.part (s.part.timedEvent e) :=
    fun ne => s.part.timedEvent_keepsConfig _ (fun e => absurd e ne)
  cases c with
  | powerOn => exact absurd rfl powerOn
  | rstN => exact absurd rfl rstN
  | fullReset => exact absurd rfl fullReset
  | frameReceived tag kind payload =>
    simp only [exec, execFrameReceived] at h
    split at h
    · exact State.done_keepsConfig h (.refl _)
    · cases h
  | frameGapTimeout time =>
    simp only [exec, execFrameGapTimeout] at h
    split at h <;> exact State.done_keepsConfig h (.at_ _ time)
  | receivedByte b time =>
    simp only [exec, execReceivedByte] at h
    split at h <;> exact State.done_keepsConfig h (.at_ _ time)
  | unknownKind =>
    simp only [exec, execUnknownKind] at h
    split at h
    · exact State.done_keepsConfig h (.refl _)
    · split at h <;> exact State.done_keepsConfig h (.refl _)
  | frameSent => exact State.done_keepsConfig h (State.frameSent_keepsConfig sending)
  | tick time => exact State.done_keepsConfig h (moved time _ Part.tick_moves)
  | minuteEvent => exact State.done_keepsConfig h (.moves s.part.minuteEvent_moves)
  | sessionTick => exact State.done_keepsConfig h (.moves s.part.sessionTick_moves)
  | quotaMet slot => exact withObject_keepsConfig h (fun x => .moves (s.part.quotaEvent_moves x))
  | satisfied slot => exact withObject_keepsConfig h (fun x => .moves (s.part.satisfiedEvent_moves x))
  | shareTick => exact State.done_keepsConfig h (.moves s.part.shareTick_moves)
  | overdrawPenalty feeder =>
    refine withObject_keepsConfig h (fun x => .moves ?_)
    show Part.Moves _ s.part (if s.part.overdrawNext x ≥ Config.overdrawTicks then s.part.penalize x else s.part)
    split
    · exact s.part.penalize_moves x
    · exact .refl _
  | penaltyEnd bay =>
    refine withObject_keepsConfig h (fun x => .moves ?_)
    show Part.Moves _ s.part (if (s.part.bay x).penalty = 1 then s.part.countDown x else s.part)
    split
    · exact s.part.countDown_moves x
    · exact .refl _
  | recompute feeder => exact withObject_keepsConfig h (fun x => .moves (s.part.recompute_moves x))
  | leadCheck slot => exact withObject_keepsConfig h (fun x => untimed (by simp))
  | wakeCheck slot => exact withObject_keepsConfig h (fun x => untimed (by simp))
  | windowStart slot => exact withObject_keepsConfig h (fun x => untimed (by simp))
  | graceEnd slot => exact withObject_keepsConfig h (fun x => untimed (by simp))
  | windowEnd slot => exact withObject_keepsConfig h (fun x => untimed (by simp))
  | waitingDeadline slot => exact withObject_keepsConfig h (fun x => untimed (by simp))
  | verifyExpiry bay => exact withObject_keepsConfig h (fun x => untimed (by simp))
  | idleTimer post => exact withObject_keepsConfig h (fun x => untimed (by simp))
  | rollover => exact State.done_keepsConfig h (s.part.timedEvent_keepsConfig _ (fun _ => rfl))
  | tripInputChange pin low time =>
    exact withObject_keepsConfig h (fun x => at_ time (fun p => p.pinChanged x low) (fun p => .setTrip p x _))
  | debounce pin time => exact withObject_keepsConfig h (fun x => at_ time _ (fun p => p.debounce_keepsConfig x))
  | recoveryTimer feeder time => exact withObject_keepsConfig h (fun x => moved time _ (fun p => p.recovered_moves x))
  | settleTimer slot time => exact withObject_keepsConfig h (fun x => moved time _ (fun p => p.settleExpired_moves x))
  | roundStart time => exact State.done_keepsConfig h (moved time _ Part.startRound_moves)
  | commandSent time => exact State.done_keepsConfig h (moved time _ Part.commandSent_moves)
  | reply bytes time =>
    simp only [exec, execReply] at h
    split at h
    · exact State.done_keepsConfig h (moved time _ (fun p => p.replyReceived_moves bytes))
    · cases h
  | replyGap bytes time =>
    simp only [exec, execReplyGap] at h
    split at h
    · exact State.done_keepsConfig h (.at_ _ time)
    · cases h
  | miss time => exact State.done_keepsConfig h (moved time _ Part.replyMissed_moves)
  | prepareLimit post time => exact withObject_keepsConfig h (fun x => moved time _ (fun p => p.prepareLimit_moves x))
  | wakeLimit post time => exact withObject_keepsConfig h (fun x => moved time _ (fun p => p.wakeLimit_moves x))
  | _ => nomatch event

/-- Settles O60: the configuration by `exec_keepsConfig`, and no command but the three moves the clock. -/
theorem eventsLeaveTheConfiguration : Obligations.EventsLeaveTheConfiguration := by
  unfold Obligations.EventsLeaveTheConfiguration
  intro c s t event powerOn rstN fullReset sending h
  have keeps := exec_keepsConfig event powerOn rstN fullReset sending h
  refine ⟨keeps.config, fun tick minute rollover => keeps.clock ?_⟩
  cases c with
  | tick time => exact absurd rfl (tick time)
  | minuteEvent => exact absurd rfl minute
  | rollover => exact absurd rfl rollover
  | _ => rfl

/-! ## O21: BAY-SET -/

theorem Part.engagedOn_iff {p : Part} {b : BayId} : p.engagedOn b = true ↔ p.occupant b ≠ none := by
  unfold Part.engagedOn
  rw [Option.isSome_iff_ne_none]

theorem BaySetReq.inRange_none {q : BaySetReq}
    (h : 63 < q.bay ∨ 31 < q.post ∨ 1 < q.socket ∨ 7 < q.feeder ∨ 3 < q.ctype ∨ q.rating < 60 ∨ 800 < q.rating) :
    q.inRange = none := by
  unfold BaySetReq.inRange
  split
  · next bay post socket feeder ctype =>
    rcases h with h | h | h | h | h | h
    · rw [fin?_of_le h] at bay; nomatch bay
    · rw [fin?_of_le h] at post; nomatch post
    · rw [Socket.ofCode_of_lt h] at socket; nomatch socket
    · rw [fin?_of_le h] at feeder; nomatch feeder
    · rw [ConnType.ofCode_of_lt h] at ctype; nomatch ctype
    · exact if_neg (by simp only [Config.leastCurrent, Config.largestCurrent]; omega)
  · rfl

section
variable (p : Part) (b : BayId) (q : PostId) (k : Socket) (g : FeederId) (c : ConnType) (rating : Nat)

theorem BaySetReq.inRange_some (e : Bool) (lo : 60 ≤ rating) (hi : rating ≤ 800) :
    BaySetReq.inRange ⟨b.val, e, q.val, k.code, g.val, c.code, rating⟩ = some ⟨b, e, q, k, g, c, rating⟩ := by
  simp [BaySetReq.inRange, Config.leastCurrent, Config.largestCurrent, lo, hi]

/-- The conflicts of BAY-SET with the configure flag set (R2). -/
def Part.bindingConflict : Prop :=
  (∃ j : BayId, j ≠ b ∧ (p.bay j).configured = true ∧ (p.bay j).post = q ∧ (p.bay j).socket = k) ∨
  (p.feeder g).state = .unused ∨
  ((p.bay b).configured = true ∧ ((p.bay b).feeder ≠ g ∨ (p.bay b).ctype ≠ c) ∧ p.chain b ≠ []) ∨
  ((p.bay b).configured = true ∧ ((p.bay b).post ≠ q ∨ (p.bay b).socket ≠ k) ∧ p.occupant b ≠ none)

theorem Part.bayConflict_iff : p.bayConflict ⟨b, true, q, k, g, c, rating⟩ = true ↔ p.bindingConflict b q k g c := by
  unfold Part.bayConflict Part.bindingConflict
  simp [List.any_eq_true, Part.engagedOn_iff, allBays, allBelow, and_assoc, or_assoc]

/-- A refused request changes nothing. -/
theorem Part.setBayRequest_range {r : BaySetReq} (h : r.inRange = none) : p.setBayRequest r = (⟨.range, []⟩, p) := by
  simp only [Part.setBayRequest, h, Status.alone]

variable {p}

theorem Part.setBayRequest_conflict {r : BaySetReq} {x : BayConfig} (h : r.inRange = some x)
    (hx : p.bayConflict x = true) : p.setBayRequest r = (⟨.conflict, []⟩, p) := by
  simp only [Part.setBayRequest, h, hx, if_pos, Status.alone]

theorem Part.setBayRequest_configure {r : BaySetReq} (h : r.inRange = some ⟨b, true, q, k, g, c, rating⟩)
    (hx : ¬ p.bindingConflict b q k g c) (hb : (p.bay b).configured = false) :
    p.setBayRequest r = (⟨.ok, []⟩, p.configureBay ⟨b, true, q, k, g, c, rating⟩) := by
  rw [← p.bayConflict_iff b q k g c rating] at hx
  simp only [Part.setBayRequest, h, hx, hb, Answer.ok]
  rfl

theorem Part.setBayRequest_change {r : BaySetReq} (h : r.inRange = some ⟨b, true, q, k, g, c, rating⟩)
    (hx : ¬ p.bindingConflict b q k g c) (hb : (p.bay b).configured = true) :
    p.setBayRequest r = (⟨.ok, []⟩, p.changeBay ⟨b, true, q, k, g, c, rating⟩) := by
  rw [← p.bayConflict_iff b q k g c rating] at hx
  simp only [Part.setBayRequest, h, hx, hb, Answer.ok]
  rfl

theorem Part.changeBay_same (hb : (p.bay b).configured = true) :
    p.changeBay ⟨b, true, (p.bay b).post, (p.bay b).socket, (p.bay b).feeder, (p.bay b).ctype, (p.bay b).rating⟩ = p := by
  have same : (p.bay b).configuredAs
      ⟨b, true, (p.bay b).post, (p.bay b).socket, (p.bay b).feeder, (p.bay b).ctype, (p.bay b).rating⟩ = p.bay b := by
    simp only [Bay.configuredAs, ← hb]
  unfold Part.changeBay
  exact if_pos same

/-- A change that leaves the binding. -/
theorem Part.changeBay_bound (hb : (p.bay b).configured = true)
    (h : (p.bay b).feeder ≠ g ∨ (p.bay b).ctype ≠ c ∨ (p.bay b).rating ≠ rating) :
    p.changeBay ⟨b, true, (p.bay b).post, (p.bay b).socket, g, c, rating⟩ =
      let stored := p.setBay b { p.bay b with feeder := g, ctype := c, rating := rating, notice := true }
      if (p.bay b).rating ≠ rating then stored.recompute g else stored := by
  have new : (p.bay b).configuredAs ⟨b, true, (p.bay b).post, (p.bay b).socket, g, c, rating⟩ =
      { p.bay b with feeder := g, ctype := c, rating := rating } := by
    simp only [Bay.configuredAs, ← hb]
  have changed : ({ p.bay b with feeder := g, ctype := c, rating := rating } : Bay) ≠ p.bay b := by
    intro e
    rcases h with h | h | h
    · exact h (congrArg Bay.feeder e).symm
    · exact h (congrArg Bay.ctype e).symm
    · exact h (congrArg Bay.rating e).symm
  unfold Part.changeBay
  simp only [new, if_neg changed, ne_eq, not_true_eq_false, decide_false, Bool.or_false, Bool.false_eq_true, if_false,
    Part.modBay]

/-- A change of the binding: the readings of the old one are dropped (R3). -/
theorem Part.changeBay_moved (hb : (p.bay b).configured = true) (h : (p.bay b).post ≠ q ∨ (p.bay b).socket ≠ k) :
    p.changeBay ⟨b, true, q, k, g, c, rating⟩ =
      let bound := (((p.setBay b { p.bay b with
        post := q, socket := k, feeder := g, ctype := c, rating := rating, reading := 0, occupancy := .unknown
        plug := .unknown, cap := 0, verify := .idle, notice := true }).derive b).touchPost (p.bay b).post).touchPost q
      if (p.bay b).rating ≠ rating then bound.recompute g else bound := by
  have new : (p.bay b).configuredAs ⟨b, true, q, k, g, c, rating⟩ =
      { p.bay b with post := q, socket := k, feeder := g, ctype := c, rating := rating } := by
    simp only [Bay.configuredAs, ← hb]
  have changed :
      ({ p.bay b with post := q, socket := k, feeder := g, ctype := c, rating := rating } : Bay) ≠ p.bay b := by
    intro e
    rcases h with h | h
    · exact h (congrArg Bay.post e).symm
    · exact h (congrArg Bay.socket e).symm
  have moved : ((p.bay b).post ≠ q || (p.bay b).socket ≠ k) = true := by simpa using h
  unfold Part.changeBay
  simp only [new, if_neg changed, moved, if_true, Part.modBay, Bay.unread]

/-- BAY-SET with the configure flag clear (R2, R3). -/
theorem Part.setBayRequest_clear {r : BaySetReq} (h : r.inRange = some ⟨b, false, q, k, g, c, rating⟩) :
    p.setBayRequest r =
      if (p.bay b).configured = true then
        if p.chain b = [] then (⟨.ok, []⟩, p.removeBay b) else (⟨.conflict, []⟩, p)
      else (⟨.ok, []⟩, p) := by
  simp only [Part.setBayRequest, h, Part.bayConflict, Answer.ok, Status.alone]
  cases hb : (p.bay b).configured <;> cases hc : p.chain b <;> simp

end

theorem Socket.exists_code {n : Nat} (h : n ≤ 1) : ∃ k : Socket, n = k.code := by
  match n, h with
  | 0, _ => exact ⟨.a, rfl⟩
  | 1, _ => exact ⟨.b, rfl⟩

theorem ConnType.exists_code {n : Nat} (h : n ≤ 3) : ∃ c : ConnType, n = c.code := by
  match n, h with
  | 0, _ => exact ⟨.ct0, rfl⟩
  | 1, _ => exact ⟨.ct1, rfl⟩
  | 2, _ => exact ⟨.ct2, rfl⟩
  | 3, _ => exact ⟨.ct3, rfl⟩

section
variable {s : State} {f : Frame} {rest : List Frame} {nb np ns nf nc r1 r0 : Byte}

/-- BAY-SET with the configure flag set gives what `Part.setBayRequest` gives, completed. -/
theorem execBaySet_gives (asks : s.Asks .baySet [nb, 1, np, ns, nf, nc, r1, r0] f rest) {a : Answer} {p : Part}
    (h : s.part.setBayRequest ⟨nb.toNat, true, np.toNat, ns.toNat, nf.toNat, nc.toNat, r1.toNat * 256 + r0.toNat⟩ =
      (a, p)) :
    exec .baySet s = .next (s.replied rest f a p.finish) :=
  State.serve_gives asks (mine := byteNot 1 [0]) rfl (rd := Rd.baySet) rfl h

theorem execBayRemove_gives (asks : s.Asks .baySet [nb, 0, np, ns, nf, nc, r1, r0] f rest) {a : Answer} {p : Part}
    (h : s.part.setBayRequest ⟨nb.toNat, false, np.toNat, ns.toNat, nf.toNat, nc.toNat, r1.toNat * 256 + r0.toNat⟩ =
      (a, p)) :
    exec .bayRemove s = .next (s.replied rest f a p.finish) :=
  State.serve_gives asks (mine := byteNot 1 [1]) rfl (rd := Rd.baySet) rfl h

end

/-- Settles O21: the outcomes of `Part.setBayRequest`, by the checks of R2 and the cases of R3. -/
theorem baySetConfiguresAndRemovesTheBay : Obligations.BaySetConfiguresAndRemovesTheBay := by
  unfold Obligations.BaySetConfiguresAndRemovesTheBay
  refine ⟨fun s f rest nb np ns nf nc r1 r0 settled asks => ⟨fun h => ?_, fun b q k g c hb hq hk hg hc lo hi => ?_⟩,
    fun s f rest nb np ns nf nc r1 r0 settled asks h => ?_,
    fun s f rest nb np ns nf nc r1 r0 b settled asks hb hq hk hg hc lo hi => ?_⟩
  · rw [execBaySet_gives asks (Part.setBayRequest_range _ (BaySetReq.inRange_none h)), Part.finish_of_settled _ settled]
  · have range := BaySetReq.inRange_some b q k g c _ true lo hi
    rw [← hb, ← hq, ← hk, ← hg, ← hc] at range
    refine ⟨fun conflict => ?_, fun clear unset => ?_, fun clear set' ep es ef ec er => ?_,
      fun clear set' ep es er ne => ?_, fun clear set' ep es ne => ?_, fun clear set' ne => ?_⟩
    · rw [execBaySet_gives asks (Part.setBayRequest_conflict range ((Part.bayConflict_iff ..).2 conflict)),
        Part.finish_of_settled _ settled]
    · rw [execBaySet_gives asks (Part.setBayRequest_configure b q k g c _ range clear unset)]
      rfl
    · rw [execBaySet_gives asks (Part.setBayRequest_change b q k g c _ range clear set'), ← ep, ← es, ← ef, ← ec, ← er,
        Part.changeBay_same b set', Part.finish_of_settled _ settled]
    · rw [execBaySet_gives asks (Part.setBayRequest_change b q k g c _ range clear set'), ← ep, ← es,
        Part.changeBay_bound b g c _ set' (ne.imp_right .inl)]
      dsimp only
      rw [if_neg (not_not.2 er), ← er, Part.finish_of_settled (s.part.setBay b _) settled]
    · rw [execBaySet_gives asks (Part.setBayRequest_change b q k g c _ range clear set'), ← ep, ← es,
        Part.changeBay_bound b g c _ set' (.inr (.inr ne))]
      dsimp only
      rw [if_pos ne]
    · rw [execBaySet_gives asks (Part.setBayRequest_change b q k g c _ range clear set'),
        Part.changeBay_moved b q k g c _ set' ne]
      dsimp only
      rw [ite_not]
  · rw [execBayRemove_gives asks (Part.setBayRequest_range _ (BaySetReq.inRange_none h)),
      Part.finish_of_settled _ settled]
  · obtain ⟨k, hk⟩ := Socket.exists_code hk
    obtain ⟨c, hc⟩ := ConnType.exists_code hc
    have range := BaySetReq.inRange_some b ⟨np.toNat, by omega⟩ k ⟨nf.toNat, by omega⟩ c _ false lo hi
    rw [← hb, ← hk, ← hc] at range
    have clear := Part.setBayRequest_clear (p := s.part) b _ k _ c _ range
    refine ⟨fun set' chained => ?_, fun unset => ?_, fun set' empty => ?_⟩
    · rw [if_pos set', if_neg chained] at clear
      rw [execBayRemove_gives asks clear, Part.finish_of_settled _ settled]
    · rw [if_neg (by simp [unset])] at clear
      rw [execBayRemove_gives asks clear, Part.finish_of_settled _ settled]
    · rw [if_pos set', if_pos empty] at clear
      rw [execBayRemove_gives asks clear]
      rfl

/-! ## O23: FEEDER-SET -/

theorem Part.setFeeder_setFeeder (p : Part) (f : FeederId) (x y : Feeder) :
    (p.setFeeder f x).setFeeder f y = p.setFeeder f y := by
  simp only [Part.setFeeder, Vector.set_set]

theorem Part.modFeeder_setFeeder (p : Part) (f : FeederId) (x : Feeder) (g : Feeder → Feeder) :
    (p.setFeeder f x).modFeeder f g = p.setFeeder f (g x) := by
  rw [Part.modFeeder, Part.feeder_setFeeder_same, Part.setFeeder_setFeeder]

theorem Sticky.union_justTrip (s : Sticky) : s.union .justTrip = { s with tripSeen := true } := by
  simp [Sticky.union, Sticky.justTrip, Sticky.empty]

/-- With the notice flag up, a sticky flag is only added. -/
theorem Feeder.stick_of_notice {x : Feeder} (h : x.notice = true) (s : Sticky) :
    x.stick s = { x with sticky := x.sticky.union s } := by
  unfold Feeder.stick
  split
  · next e => rw [e]
  · rw [← h]

/-! ### What a recompute leaves of a feeder -/

/-- The feeder keeps its state, configuration, recovery timer and overdraw count, and loses neither TRIP-SEEN nor the
notice flag. -/
structure Feeder.Stays (x y : Feeder) : Prop where
  state : y.state = x.state
  config : y.config = x.config
  recovery : y.recovery = x.recovery
  overdrawCount : y.overdrawCount = x.overdrawCount
  tripSeen : x.sticky.tripSeen = true → y.sticky.tripSeen = true
  notice : x.notice = true → y.notice = true

theorem Feeder.Stays.trans {x y z : Feeder} (h : x.Stays y) (h' : y.Stays z) : x.Stays z where
  state := h'.state.trans h.state
  config := h'.config.trans h.config
  recovery := h'.recovery.trans h.recovery
  overdrawCount := h'.overdrawCount.trans h.overdrawCount
  tripSeen e := h'.tripSeen (h.tripSeen e)
  notice e := h'.notice (h.notice e)

theorem Feeder.stays_of_core {x y : Feeder} (h : y.core = x.core) : x.Stays y where
  state := (congrArg Feeder.state h :)
  config := (congrArg Feeder.config h :)
  recovery := (congrArg Feeder.recovery h :)
  overdrawCount := (congrArg Feeder.overdrawCount h :)
  tripSeen e := (congrArg (·.sticky.tripSeen) h).trans e
  notice e := (congrArg Feeder.notice h).trans e

theorem Feeder.stick_stays (x : Feeder) (s : Sticky) : x.Stays (x.stick s) := by
  unfold Feeder.stick
  split
  · exact Feeder.stays_of_core rfl
  · exact ⟨rfl, rfl, rfl, rfl, fun e => by simp [Sticky.union, e], fun _ => rfl⟩

theorem Part.shareChanged_core (p : Part) (f g : FeederId) : ((p.shareChanged f).feeder g).core = (p.feeder g).core := by
  unfold Part.shareChanged Part.modFeeder
  rw [Part.feeder_setFeeder]
  split
  · next e => rw [e]; rfl
  · rfl

theorem Part.put_feeder (p : Part) (s : SlotId) (r : Record) (g : FeederId) : (p.put s r).feeder g = p.feeder g := by
  simp [Part.feeder]

/-- A changed session marks feeders for a recompute, and writes nothing else of them. -/
theorem Part.updSession_feeder_core (p : Part) (s : SlotId) (g : Session → Session) (f : FeederId) :
    ((p.updSession s g).feeder f).core = (p.feeder f).core := by
  have derived : ∀ (u : Part) (b : BayId), ((u.derive b).feeder f).core = (u.feeder f).core :=
    fun u b => (u.deriveWith_tidies (linked := true) true b).feeder f
  unfold Part.updSession
  cases p.record s with
  | none => rfl
  | some r =>
    dsimp only
    cases r.session with
    | none => rfl
    | some x =>
      dsimp only
      split
      · rw [Part.put_feeder]
      · split <;> split <;> simp only [derived, Part.shareChanged_core, Part.put_feeder]

theorem Part.share_stays (p : Part) (f : FeederId) : (p.feeder f).Stays ((p.share f).feeder f) := by
  unfold Part.share
  dsimp only
  generalize hl : (p.baysOfFeeder f).foldl (fun u b => u.modBay b
    (fun y => { y with limit := (p.division f).limit b })) p = limited
  have first : (limited.feeder f).core = (p.feeder f).core := by
    rw [← hl]
    exact foldl_view (fun u : Part => (u.feeder f).core) (f := fun u b => u.modBay b _) (fun u b => rfl) _ _
  generalize hp : (p.demanding f).foldl (fun u m => u.updSession m.slot (fun y =>
    y.shared ((p.division f).given.lookup m.bay).isSome (p.feeder f).state.pauseCause)) limited = phased
  have second : (phased.feeder f).core = (limited.feeder f).core := by
    rw [← hp]
    exact foldl_view (fun u : Part => (u.feeder f).core) (fun u m => u.updSession_feeder_core _ _ f) _ _
  refine .trans (Feeder.stays_of_core (second.trans first)) ?_
  unfold Part.evalCondition
  rw [Part.feeder_modFeeder_same, Part.feeder_modFeeder_same]
  have marked : ∀ d : Bool, ∀ z : Feeder, z.Stays { z with condition := d } := fun _ _ => ⟨rfl, rfl, rfl, rfl, id, id⟩
  have turned : (phased.feeder f).Stays { phased.feeder f with rotor := (p.division f).rotor, recomputeDue := false } :=
    ⟨rfl, rfl, rfl, rfl, id, id⟩
  refine .trans ?_ (marked _ _)
  split
  · exact .trans turned (Feeder.stick_stays _ _)
  · exact turned

theorem Part.recompute_stays (p : Part) (f : FeederId) : (p.feeder f).Stays ((p.recompute f).feeder f) := by
  unfold Part.recompute
  split
  · rw [Part.feeder_modFeeder_same]
    exact Feeder.stays_of_core rfl
  · exact p.share_stays f

theorem Part.setFeeder_recompute_stays (p : Part) (f : FeederId) (x : Feeder) :
    x.Stays (((p.setFeeder f x).recompute f).feeder f) := by
  have h := (p.setFeeder f x).recompute_stays f
  rwa [Part.feeder_setFeeder_same] at h

/-! ### The outcomes -/

theorem FeederSetReq.inRange_none {r : FeederSetReq} 
    (h : 7 < r.feeder ∨ 20000 < r.limit ∨ r.voltage < 100 ∨ 500 < r.voltage ∨ r.concurrency < 1 ∨ 64 < r.concurrency) :
    r.inRange = none := by
  unfold FeederSetReq.inRange
  split
  · exact fin?_of_le (by omega)
  · rfl

theorem FeederSetReq.inRange_some (f : FeederId) (e t : Bool) {limit volts cap : Nat} (hl : limit ≤ 20000)
    (lo : 100 ≤ volts) (hi : volts ≤ 500) (one : 1 ≤ cap) (most : cap ≤ 64) :
    FeederSetReq.inRange ⟨f.val, e, limit, volts, cap, t⟩ = some f := by
  simp [FeederSetReq.inRange, hl, lo, hi, one, most]

/-- The retry of the Waiting List after a request that raises the concurrency cap (R13, R89). -/
def Part.retryFor (p : Part) (old new : Nat) : Part := if old < new then p.retryDue else p

theorem Part.retryFor_feeder (p : Part) (old new : Nat) (f : FeederId) : (p.retryFor old new).feeder f = p.feeder f := by
  unfold Part.retryFor
  split <;> rfl

theorem Part.retryFor_finish_feeder_core (p : Part) (old new : Nat) (f : FeederId) :
    ((p.retryFor old new).finish.feeder f).core = (p.feeder f).core := by
  rw [(Part.finish_tidies _).feeder f, Part.retryFor_feeder]

/-- With nothing else to complete, the retry is all that follows. -/
theorem Part.retryFor_finish {p : Part} (h : p.work = .empty) (old new : Nat) :
    (p.retryFor old new).finish = if old < new then p.retryDue.finish else p := by
  unfold Part.retryFor
  split
  · rfl
  · exact p.finish_of_settled h

section
variable {p : Part} {f : FeederId} {r : FeederSetReq}

theorem Part.setFeederRequest_range (h : r.inRange = none) : p.setFeederRequest r = (⟨.range, []⟩, p) := by
  simp only [Part.setFeederRequest, h, Status.alone]

theorem Part.setFeederRequest_conflict (h : r.inRange = some f) (off : r.enable = false)
    (used : (p.feeder f).state ≠ .unused) (bays : p.baysOfFeeder f ≠ []) :
    p.setFeederRequest r = (⟨.conflict, []⟩, p) := by
  simp [Part.setFeederRequest, h, off, used, bays, Status.alone]

theorem Part.setFeederRequest_enable (h : r.inRange = some f) (on : r.enable = true)
    (unused : (p.feeder f).state = .unused) :
    p.setFeederRequest r = (⟨.ok, []⟩,
      (let started := p.setFeeder f (((p.feeder f).configuredAs r).fresh .normal)
      if r.tripEnabled && (p.feeder f).active then started.tripFeeder f else started.recompute f).retryFor
        (p.feeder f).concurrency r.concurrency) := by
  simp only [Part.setFeederRequest, h, on, unused, Answer.ok, Part.retryFor, Part.modFeeder]
  rfl

theorem Part.setFeederRequest_disable (h : r.inRange = some f) (off : r.enable = false)
    (used : (p.feeder f).state ≠ .unused) (bays : p.baysOfFeeder f = []) :
    p.setFeederRequest r = (⟨.ok, []⟩,
      (p.setFeeder f (((p.feeder f).configuredAs r).fresh .unused)).retryFor (p.feeder f).concurrency r.concurrency) := by
  cases state : (p.feeder f).state with
  | unused => exact absurd state used
  | _ => simp [Part.setFeederRequest, h, off, state, bays, Answer.ok, Part.retryFor, Part.modFeeder]

theorem Part.setFeederRequest_unused (h : r.inRange = some f) (off : r.enable = false)
    (unused : (p.feeder f).state = .unused) :
    p.setFeederRequest r = (⟨.ok, []⟩,
      (p.setFeeder f (if (p.feeder f).configuredAs r = p.feeder f then p.feeder f
        else { (p.feeder f).configuredAs r with notice := true })).retryFor (p.feeder f).concurrency r.concurrency) := by
  simp [Part.setFeederRequest, h, off, unused, Answer.ok, Part.retryFor, Part.modFeeder]

theorem Part.setFeederRequest_change (h : r.inRange = some f) (on : r.enable = true)
    (used : (p.feeder f).state ≠ .unused) :
    p.setFeederRequest r = (⟨.ok, []⟩, (p.changeFeeder f r).retryFor (p.feeder f).concurrency r.concurrency) := by
  cases state : (p.feeder f).state with
  | unused => exact absurd state used
  | _ => simp [Part.setFeederRequest, h, on, state, Answer.ok, Part.retryFor]

/-- A trip of a feeder that has just been stored with its flag up. -/
theorem Part.setFeeder_tripFeeder (x : Feeder) :
    (p.setFeeder f x).tripFeeder f =
      (p.setFeeder f { x with
        state := .tripped, recovery := none, overdrawCount := 0, sticky := { x.sticky with tripSeen := true }
        notice := true }).recompute f := by
  unfold Part.tripFeeder
  rw [Part.modFeeder_setFeeder, Feeder.stick_of_notice rfl, Sticky.union_justTrip]

/-- A request that repeats the configuration changes nothing. -/
theorem Part.changeFeeder_same (h : (p.feeder f).configuredAs r = p.feeder f) : p.changeFeeder f r = p := by
  have limit : (p.feeder f).limit = r.limit := (congrArg Feeder.limit h).symm
  have trip : (p.feeder f).tripEnabled = r.tripEnabled := (congrArg Feeder.tripEnabled h).symm
  unfold Part.changeFeeder
  simp only [h, if_true, limit, trip, ne_eq, not_true_eq_false, if_false, Part.modFeeder, Part.setFeeder_self]
  cases r.tripEnabled <;> rfl

theorem Part.changeFeeder_of_ne (h : (p.feeder f).configuredAs r ≠ p.feeder f) :
    p.changeFeeder f r =
      let x := p.feeder f
      let stored := { x.configuredAs r with notice := true }
      if x.tripEnabled = false ∧ r.tripEnabled = true ∧ x.active = true then
        (p.setFeeder f { stored with
          state := .tripped, recovery := none, overdrawCount := 0
          sticky := { x.sticky with tripSeen := true } }).recompute f
      else if x.tripEnabled = true ∧ r.tripEnabled = false ∧ (x.state = .tripped ∨ x.state = .recovering) then
        ((p.setFeeder f { stored with state := .normal, recovery := none }).recompute f).retryDue
      else if x.limit ≠ r.limit then (p.setFeeder f stored).recompute f
      else p.setFeeder f stored := by
  unfold Part.changeFeeder
  simp only [if_neg h, Part.modFeeder, Part.setFeeder_tripFeeder]
  simp [Part.restore, Part.modFeeder_setFeeder, and_assoc]
  rfl

/-- The state of a feeder in use after a request that changes its configuration (R13, R135). -/
theorem Part.changeFeeder_feeder (h : (p.feeder f).configuredAs r ≠ p.feeder f) :
    let x := p.feeder f
    let y := (p.changeFeeder f r).feeder f
    y.config = (x.configuredAs r).config ∧ y.notice = true ∧
      y.state =
        if x.tripEnabled = false ∧ r.tripEnabled = true ∧ x.active = true then .tripped
        else if x.tripEnabled = true ∧ r.tripEnabled = false ∧ (x.state = .tripped ∨ x.state = .recovering) then .normal
        else x.state := by
  dsimp only
  rw [Part.changeFeeder_of_ne h]
  dsimp only
  split
  · have stays := p.setFeeder_recompute_stays f
    exact ⟨(stays _).config, (stays _).notice rfl, (stays _).state⟩
  · split
    · have stays := p.setFeeder_recompute_stays f
      exact ⟨(stays _).config, (stays _).notice rfl, (stays _).state⟩
    · split
      · have stays := p.setFeeder_recompute_stays f
        exact ⟨(stays _).config, (stays _).notice rfl, (stays _).state⟩
      · rw [Part.feeder_setFeeder_same]
        exact ⟨rfl, rfl, rfl⟩

end

/-- FEEDER-SET gives what `Part.setFeederRequest` gives, completed. -/
theorem execFeederSet_gives {s : State} {f : Frame} {rest : List Frame} {ng en l1 l0 v1 v0 nc tr : Byte}
    (asks : s.Asks .feederSet [ng, en, l1, l0, v1, v0, nc, tr] f rest) (hen : en = 0 ∨ en = 1) (htr : tr = 0 ∨ tr = 1)
    {a : Answer} {p : Part}
    (h : s.part.setFeederRequest ⟨ng.toNat, decide (en = 1), l1.toNat * 256 + l0.toNat, v1.toNat * 256 + v0.toNat,
      nc.toNat, decide (tr = 1)⟩ = (a, p)) :
    exec .feederSet s = .next (s.replied rest f a p.finish) := by
  refine State.serve_gives asks rfl (rd := Rd.feederSet) ?_ h
  rcases hen with rfl | rfl <;> rcases htr with rfl | rfl <;> rfl

/-- Settles O23: the outcomes of `Part.setFeederRequest`, of which a recompute and the completion leave the stored state,
configuration and notice flag (`Feeder.Stays`). -/
theorem feederSetEnablesAndDisables : Obligations.FeederSetEnablesAndDisables := by
  unfold Obligations.FeederSetEnablesAndDisables
  intro s f rest ng en l1 l0 v1 v0 nc tr settled asks hen htr
  dsimp only
  refine ⟨fun h => ?range, fun g hg hl lo hi one most => ?_⟩
  case range =>
    rw [execFeederSet_gives asks hen htr (Part.setFeederRequest_range (FeederSetReq.inRange_none h)),
      Part.finish_of_settled _ settled]
  have inRange := FeederSetReq.inRange_some g (decide (en = 1)) (decide (tr = 1)) hl lo hi one most
  rw [← hg] at inRange
  have on (h : en = 1) : decide (en = 1) = true := decide_eq_true h
  have off (h : en = 0) : decide (en = 1) = false := by rw [h]; rfl
  have kept (p : Part) := Feeder.stays_of_core (p.retryFor_finish_feeder_core (s.part.feeder g).concurrency nc.toNat g)
  have stays (x : Feeder) := (s.part.setFeeder_recompute_stays g x).trans (kept _)
  refine ⟨fun he used bays => ?conflict, fun he unused still => ?enable, fun he unused ht active => ?tripped,
    fun he used bays => ?disable, fun he unused => ?unused, fun he used same => ?same, fun he used ne => ?change⟩
  case conflict =>
    rw [execFeederSet_gives asks hen htr (Part.setFeederRequest_conflict inRange (off he) used bays),
      Part.finish_of_settled _ settled]
  case enable =>
    have gives := execFeederSet_gives asks hen htr (Part.setFeederRequest_enable inRange (on he) unused)
    have quiet : ¬ (decide (tr = 1) && (s.part.feeder g).active) = true := by
      rcases still with h | h
      · simp [h]
      · simp [h]
    dsimp only at gives
    rw [if_neg quiet] at gives
    exact ⟨gives, (stays _).state, (stays _).config, (stays _).recovery, (stays _).overdrawCount, (stays _).notice rfl⟩
  case tripped =>
    have gives := execFeederSet_gives asks hen htr (Part.setFeederRequest_enable inRange (on he) unused)
    have trips : (decide (tr = 1) && (s.part.feeder g).active) = true := by simp [ht, active]
    dsimp only at gives
    rw [if_pos trips, Part.setFeeder_tripFeeder] at gives
    exact ⟨gives, (stays _).state, (stays _).config, (stays _).tripSeen rfl, (stays _).notice rfl⟩
  case disable =>
    rw [execFeederSet_gives asks hen htr (Part.setFeederRequest_disable inRange (off he) used bays),
      Part.retryFor_finish (p := s.part.setFeeder g _) settled]
    rfl
  case unused =>
    rw [execFeederSet_gives asks hen htr (Part.setFeederRequest_unused inRange (off he) unused),
      Part.retryFor_finish (p := s.part.setFeeder g _) settled]
    rfl
  case same =>
    have same : (s.part.feeder g).configuredAs ⟨ng.toNat, decide (en = 1), l1.toNat * 256 + l0.toNat,
      v1.toNat * 256 + v0.toNat, nc.toNat, decide (tr = 1)⟩ = s.part.feeder g := same
    rw [execFeederSet_gives asks hen htr (Part.setFeederRequest_change inRange (on he) used), Part.changeFeeder_same same]
    have cap : (s.part.feeder g).concurrency = nc.toNat := (congrArg Feeder.concurrency same).symm
    rw [Part.retryFor_finish settled, cap, if_neg (Nat.lt_irrefl _)]
  case change =>
    have gives := execFeederSet_gives asks hen htr (Part.setFeederRequest_change inRange (on he) used)
    have set' : decide (tr = 1) = true ↔ tr = 1 := decide_eq_true_iff
    have clear : decide (tr = 1) = false ↔ tr = 0 := by rcases htr with rfl | rfl <;> decide
    have ne : (s.part.feeder g).configuredAs ⟨ng.toNat, decide (en = 1), l1.toNat * 256 + l0.toNat,
      v1.toNat * 256 + v0.toNat, nc.toNat, decide (tr = 1)⟩ ≠ s.part.feeder g := ne
    obtain ⟨config, notice, state⟩ := Part.changeFeeder_feeder ne
    have outcome := And.intro gives
      (And.intro ((kept _).config.trans config) (And.intro ((kept _).notice notice) ((kept _).state.trans state)))
    rw [Part.changeFeeder_of_ne ne] at outcome
    simp only [set', clear] at outcome
    exact outcome

/-! ## What follows on a change: the effects of an event up to the end of its completion -/

/-- A record as it is stored within an event: it closes, it is in no bay, it keeps its state and bay, or it takes a bay
whose condition is not OUT (R75). -/
def Part.MayStore (p : Part) (old r : Record) : Prop :=
  r.state = .closing ∨ r.bay = none ∨ (r.bay = old.bay ∧ r.state = old.state) ∨
    ∃ c, r.bay = some c ∧ (p.bay c).condition ≠ .out

/-- The fields of a bay that its post's replies, a withdrawal and the requests write. -/
def Bay.told (x : Bay) : (Bool × PostId × Socket × FeederId × ConnType × Nat × Service) × Nat × Nat × Occupancy × Plug :=
  (x.config, x.reading, x.cap, x.occupancy, x.plug)

/-- A chain of changes that follow on a first one. Of a bay they write the condition as it is derived, of a post the state
of one that is ACTIVE or STANDBY. -/
inductive Part.Follows : Part → Part → Prop where
  | refl (p : Part) : Part.Follows p p
  | trans {p q r : Part} : Part.Follows p q → Part.Follows q r → Part.Follows p r
  | besides {p q : Part} : q.bays = p.bays → q.posts = p.posts → q.pool = p.pool → Part.Follows p q
  | bay (p : Part) (b : BayId) (x : Bay) : x.told = (p.bay b).told →
      x.condition = (p.bay b).condition ∨ x.condition = p.conditionOf b →
      ((p.bay b).notice = true → x.notice = true) → Part.Follows p (p.setBay b x)
  | post (p : Part) (q : PostId) (x : Post) : (p.post q).link = .active ∨ (p.post q).link = .standby →
      Part.Follows p (p.setPost q x)
  | store (p : Part) (k : SlotId) (old r : Record) : p.record k = some old → p.MayStore old r →
      Part.Follows p { p with pool := p.pool.put k r }

/-- A bay that is out of service, its condition derived and its notice flag up. -/
structure Part.IsOut (p : Part) (b : BayId) : Prop where
  service : (p.bay b).service = .out
  condition : (p.bay b).condition = .out
  notice : (p.bay b).notice = true

/-- A record that has closed or names another bay or none. -/
def Part.Away (p : Part) (b : BayId) (k : SlotId) : Prop :=
  ∃ r, p.record k = some r ∧ (r.state = .closing ∨ r.bay ≠ some b)

/-- A record that is away from the bay, or stands on its chain before engagement. -/
def Part.Leaving (p : Part) (b : BayId) (k : SlotId) : Prop :=
  p.Away b k ∨ ∃ r, p.record k = some r ∧ r.bay = some b ∧ r.state.upcoming = true ∧ k ∈ p.chain b

theorem Pool.mem_members_put (q : Pool) (s : SlotId) (r : Record) (h : Home) {k : SlotId} (ne : k ≠ s)
    (hk : k ∈ q.members h) : k ∈ (q.put s r).members h := by
  by_cases e : q.homeOf s = r.home
  · rwa [Pool.members_put_home q s r h e]
  · obtain ⟨u, put, _, members⟩ := q.put_leaves s r e
    have hu : k ∈ u.members h := by
      rw [members]
      exact List.mem_filter.2 ⟨hk, by simp [ne]⟩
    rw [put]
    unfold Pool.join
    rw [Pool.members_setMembers]
    split
    · next same =>
      subst same
      generalize r.home = home at hu ⊢
      cases home with
      | free => exact List.mem_cons_of_mem _ hu
      | chain b => exact mem_insertBefore.2 (.inr hu)
      | waiting => exact mem_insertBefore.2 (.inr hu)
      | closing => exact List.mem_append_left _ hu
    · exact hu

namespace Part.Follows

variable {p q : Part} {b : BayId} {k : SlotId}

theorem foldl {α : Type} {f : Part → α → Part} (l : List α) (h : ∀ p a, Part.Follows p (f p a)) (p : Part) :
    Part.Follows p (l.foldl f p) := by
  induction l generalizing p with
  | nil => exact .refl p
  | cons a l ih => exact .trans (h p a) (ih _)

theorem bay_told (h : Part.Follows p q) (b : BayId) : (q.bay b).told = (p.bay b).told := by
  induction h with
  | refl p => rfl
  | trans _ _ h1 h2 => exact h2.trans h1
  | besides hb => simp only [Part.bay, hb]
  | bay p b' x told =>
    rw [Part.bay_setBay]
    split
    · next e => rw [e, told]
    · rfl
  | post => rfl
  | store => rfl

theorem isOut (h : Part.Follows p q) (out : p.IsOut b) : q.IsOut b := by
  induction h with
  | refl p => exact out
  | trans _ _ h1 h2 => exact h2 (h1 out)
  | @besides p q hb =>
    have same : q.bay b = p.bay b := by simp only [Part.bay, hb]
    exact ⟨same ▸ out.service, same ▸ out.condition, same ▸ out.notice⟩
  | bay p b' x told condition notice =>
    have set' : (p.setBay b' x).bay b = if b = b' then x else p.bay b := Part.bay_setBay p b' x b
    split at set'
    · next e =>
      subst e
      have service : x.service = (p.bay b).service := congrArg (·.1.2.2.2.2.2.2) told
      refine ⟨by rw [set', service, out.service], ?_, by rw [set', notice out.notice]⟩
      rw [set']
      rcases condition with c | c
      · rw [c, out.condition]
      · rw [c, Part.conditionOf_out (.inr out.service)]
    · exact ⟨set' ▸ out.service, set' ▸ out.condition, set' ▸ out.notice⟩
  | post => exact ⟨out.service, out.condition, out.notice⟩
  | store => exact ⟨out.service, out.condition, out.notice⟩

/-- A post that is neither ACTIVE nor STANDBY stays as it is. -/
theorem post_eq (h : Part.Follows p q) {a : PostId} (active : (p.post a).link ≠ .active)
    (standby : (p.post a).link ≠ .standby) : q.post a = p.post a := by
  induction h with
  | refl p => rfl
  | trans _ _ h1 h2 =>
    have e := h1 active standby
    exact (h2 (e ▸ active) (e ▸ standby)).trans e
  | besides _ hp => simp only [Part.post, hp]
  | bay => rfl
  | post p a' x hl =>
    rw [Part.post_setPost]
    split
    · next e =>
      subst e
      rcases hl with hl | hl
      · exact absurd hl active
      · exact absurd hl standby
    · rfl
  | store => rfl


/-- A record that is away from a bay out of service stays away. -/
theorem away (h : Part.Follows p q) (out : p.IsOut b) (away : p.Away b k) : q.Away b k := by
  induction h with
  | refl p => exact away
  | trans h1 _ ih1 ih2 => exact ih2 (h1.isOut out) (ih1 out away)
  | besides _ _ hp =>
    obtain ⟨r, hr, gone⟩ := away
    exact ⟨r, by simpa only [Part.record, hp] using hr, gone⟩
  | bay => exact away
  | post => exact away
  | store p s old r hs may =>
    by_cases e : k = s
    · subst e
      refine ⟨r, (Pool.record_put p.pool k k r).trans (if_pos rfl), ?_⟩
      obtain ⟨r', hr', gone⟩ := away
      cases hs.symm.trans hr'
      rcases may with closing | none | ⟨bay, state⟩ | ⟨c, bay, taken⟩
      · exact .inl closing
      · exact .inr (by simp [none])
      · rw [bay, state]
        exact gone
      · refine .inr (fun e => taken ?_)
        cases bay.symm.trans e
        exact out.condition
    · obtain ⟨r', hr', gone⟩ := away
      exact ⟨r', (Pool.record_put p.pool s k r).trans ((if_neg e).trans hr'), gone⟩

/-- A record that has still to leave a bay out of service leaves it, or stays on its chain before engagement. -/
theorem leaving (h : Part.Follows p q) (out : p.IsOut b) (leaving : p.Leaving b k) : q.Leaving b k := by
  induction h with
  | refl p => exact leaving
  | trans h1 _ ih1 ih2 => exact ih2 (h1.isOut out) (ih1 out leaving)
  | besides hb hq hp =>
    rcases leaving with gone | ⟨r, hr, bay, up, mem⟩
    · exact .inl (away (.besides hb hq hp) out gone)
    · exact .inr ⟨r, by simpa only [Part.record, hp] using hr, bay, up, by simpa only [Part.chain, hp] using mem⟩
  | bay => exact leaving
  | post => exact leaving
  | store p s old r hs may =>
    rcases leaving with gone | ⟨r', hr', bay', up, mem⟩
    · exact .inl (away (.store p s old r hs may) out gone)
    by_cases e : k = s
    · subst e
      cases hs.symm.trans hr'
      have stored := (Pool.record_put p.pool k k r).trans (if_pos rfl)
      rcases may with closing | none | ⟨bay, state⟩ | ⟨c, bay, taken⟩
      · exact .inl ⟨r, stored, .inl closing⟩
      · exact .inl ⟨r, stored, .inr (by simp [none])⟩
      · have home : p.pool.homeOf k = r.home := by
          rw [Pool.homeOf_record hs]
          unfold Record.home
          rw [bay, state]
        refine .inr ⟨r, stored, bay.trans bay', state ▸ up, ?_⟩
        show k ∈ (p.pool.put k r).members (.chain b)
        rw [Pool.members_put_home p.pool k r _ home]
        exact mem
      · refine .inl ⟨r, stored, .inr (fun e => taken ?_)⟩
        cases bay.symm.trans e
        exact out.condition
    · exact .inr ⟨r', (Pool.record_put p.pool s k r).trans ((if_neg e).trans hr'), bay', up,
        Pool.mem_members_put p.pool s r (.chain b) e mem⟩

end Part.Follows

/-! ### The operations -/

theorem Part.touchPost_follows (p : Part) (q : PostId) : Part.Follows p (p.touchPost q) := by
  unfold Part.touchPost
  split
  · exact .refl p
  · exact .besides rfl rfl rfl

theorem Part.work_follows (p : Part) (w : Work) : Part.Follows p { p with work := w } := .besides rfl rfl rfl

theorem Part.retryDue_follows (p : Part) : Part.Follows p p.retryDue := p.work_follows _

theorem Part.shareChanged_follows (p : Part) (f : FeederId) : Part.Follows p (p.shareChanged f) := .besides rfl rfl rfl

theorem Part.modBay_follows (p : Part) (b : BayId) (g : Bay → Bay) (told : (g (p.bay b)).told = (p.bay b).told)
    (condition : (g (p.bay b)).condition = (p.bay b).condition ∨ (g (p.bay b)).condition = p.conditionOf b)
    (notice : (p.bay b).notice = true → (g (p.bay b)).notice = true) : Part.Follows p (p.modBay b g) :=
  .bay p b _ told condition notice

theorem Part.touchBayOf_follows (p : Part) (b : Option BayId) : Part.Follows p (p.touchBayOf b) := by
  unfold Part.touchBayOf
  split
  · exact p.touchPost_follows _
  · exact .refl p

theorem Part.put_follows (p : Part) (s : SlotId) {old r : Record} (h : p.record s = some old) (may : p.MayStore old r) :
    Part.Follows p (p.put s r) := by
  have stored : Part.Follows p { p with pool := p.pool.put s r } := .store p s old r h may
  unfold Part.put
  rw [h]
  dsimp only
  split
  · exact stored
  · exact .trans stored (.trans (Part.touchBayOf_follows _ _) (Part.touchBayOf_follows _ _))

theorem Part.deriveWith_follows (raise : Bool) (p : Part) (b : BayId) : Part.Follows p (p.deriveWith raise b) := by
  unfold Part.deriveWith
  dsimp only
  split
  · exact .refl p
  · have stored : Part.Follows p
        ((p.modBay b (fun x => { x with condition := p.conditionOf b, notice := true })).touchPost (p.bay b).post) :=
      .trans (p.modBay_follows b _ rfl (.inr rfl) (fun _ => rfl)) (Part.touchPost_follows _ _)
    refine .trans stored ?_
    split <;> split <;> exact .besides rfl rfl rfl

theorem Part.derive_follows (p : Part) (b : BayId) : Part.Follows p (p.derive b) := p.deriveWith_follows true b

theorem Part.wakeBay_follows (p : Part) (b : BayId) : Part.Follows p (p.wakeBay b) := by
  unfold Part.wakeBay Part.wakePost
  split
  · next h => exact .post p _ _ (.inr h)
  · exact .refl p

theorem Part.armChecks_follows (p : Part) (s : SlotId) : Part.Follows p (p.armChecks s) := by
  unfold Part.armChecks
  cases hr : p.record s with
  | none => exact .refl p
  | some r =>
    dsimp only
    have armed (l w : Bool) : Part.Follows p (p.put s { r with leadTaken := l, wakeTaken := w }) :=
      p.put_follows s hr (.inr (.inr (.inl ⟨rfl, rfl⟩)))
    have queued (l w k : Bool) : Part.Follows p (if k then
        (p.put s { r with leadTaken := l, wakeTaken := w }).leadDue s
        else p.put s { r with leadTaken := l, wakeTaken := w }) := by
      cases k
      · exact armed l w
      · exact .trans (armed l w) (Part.work_follows _ _)
    split
    · split
      · exact .trans (queued _ _ _) (Part.wakeBay_follows _ _)
      · exact queued _ _ _
    · exact queued _ _ _

/-- What a close stores, and what follows on it, other than by departure (R41); a departure may leave an occupied bay,
which starts its verify timer (R102). -/
theorem Part.closeRecord_after {p : Part} {s : SlotId} {r : Record} (hr : p.record s = some r) (result : Result)
    {by' : ClosedBy} (h : by' ≠ .departed) :
    Part.Follows (p.put s (r.closed (p.pool.handle s) p.now result by')) (p.closeRecord s result by') ∧
      (p.closeRecord s result by').pool = (p.put s (r.closed (p.pool.handle s) p.now result by')).pool := by
  unfold Part.closeRecord
  rw [hr]
  dsimp only
  generalize p.put s (r.closed (p.pool.handle s) p.now result by') = stored
  simp only [h, decide_false, Bool.and_false, Bool.false_and, Bool.false_eq_true, if_false]
  split
  · exact ⟨.refl _, rfl⟩
  · split
    · exact ⟨.refl _, rfl⟩
    · refine ⟨.trans ?_ (Part.derive_follows _ _), (Part.deriveWith_pool true _ _).trans ?_⟩
      · split
        · exact .trans (Part.retryDue_follows _)
            (.trans (Part.modBay_follows _ _ _ rfl (.inl rfl) id) (Part.shareChanged_follows _ _))
        · exact Part.retryDue_follows _
      · split <;> rfl

theorem Part.closeRecord_follows (p : Part) (s : SlotId) (result : Result) {by' : ClosedBy} (h : by' ≠ .departed) :
    Part.Follows p (p.closeRecord s result by') := by
  cases hr : p.record s with
  | none =>
    unfold Part.closeRecord
    rw [hr]
    exact .refl p
  | some r => exact .trans (p.put_follows s hr (.inl rfl)) (Part.closeRecord_after hr result h).1

/-- What a demotion stores first: the record waits, or has closed (R88, R114). -/
theorem Part.demote_after {p : Part} {s : SlotId} {r : Record} (hr : p.record s = some r) :
    ∃ r' : Record, (r'.state = .closing ∨ r'.bay = none) ∧ Part.Follows (p.put s r') (p.demote s) := by
  unfold Part.demote
  rw [hr]
  dsimp only
  split
  · refine ⟨r.demoted p.now, .inr rfl, .trans (Part.retryDue_follows _) ?_⟩
    split
    · exact Part.derive_follows _ _
    · exact .refl _
  · exact ⟨_, .inl rfl, (Part.closeRecord_after hr _ (by decide)).1⟩

theorem Part.place_inService {p : Part} {c : Call} {b : BayId} (h : p.place c = some b) : (p.bay b).condition ≠ .out := by
  have passes := Part.place_passes h
  simp only [Part.passes, Part.candidate, Bool.and_eq_true, decide_eq_true_eq] at passes
  obtain ⟨⟨⟨⟨⟨⟨_, inService⟩, _⟩, _⟩, _⟩, _⟩, _⟩ := passes
  exact inService

/-- What a relocation off bay `a` stores first: the record closes, waits, or takes another bay in service (R113, R114). -/
theorem Part.relocate_after {p : Part} {s : SlotId} {r : Record} {a : BayId} (hr : p.record s = some r)
    (bay : r.bay = some a) (up : r.state.upcoming = true) :
    ∃ r' : Record, (r'.state = .closing ∨ r'.bay = none ∨ ∃ c, r'.bay = some c ∧ c ≠ a ∧ (p.bay c).condition ≠ .out) ∧
      Part.Follows (p.put s r') (p.relocate s) := by
  unfold Part.relocate
  rw [hr]
  dsimp only
  rw [bay]
  dsimp only
  rw [if_neg (by simp [up])]
  split
  · exact ⟨_, .inl rfl, (Part.closeRecord_after hr _ (by decide)).1⟩
  · split
    · next c hc =>
      refine ⟨r.relocated c p.now,
        .inr (.inr ⟨c, rfl, fun e => Part.place_excluded hc (congrArg some e.symm), Part.place_inService hc⟩), ?_⟩
      refine .trans ?_ (Part.retryDue_follows _)
      exact .trans (.trans (Part.derive_follows _ _) (Part.derive_follows _ _)) (Part.armChecks_follows _ s)
    · obtain ⟨r', gone, after⟩ := Part.demote_after hr
      exact ⟨r', gone.imp_right .inl, after⟩

/-- A relocation of a record that is not before its engagement in a bay changes nothing. -/
theorem Part.relocate_eq_self {p : Part} {s : SlotId}
    (h : ∀ r a, p.record s = some r → r.bay = some a → r.state.upcoming = false) : p.relocate s = p := by
  unfold Part.relocate
  split
  · rfl
  · next r hr =>
    split
    · rfl
    · next a ha => rw [if_pos (by simp [h r a hr ha])]

theorem Part.relocate_follows (p : Part) (s : SlotId) : Part.Follows p (p.relocate s) := by
  by_cases h : ∃ r a, p.record s = some r ∧ r.bay = some a ∧ r.state.upcoming = true
  · obtain ⟨r, a, hr, bay, up⟩ := h
    obtain ⟨r', may, after⟩ := Part.relocate_after hr bay up
    refine .trans (p.put_follows s hr ?_) after
    rcases may with closing | none | ⟨c, taken, _, inService⟩
    · exact .inl closing
    · exact .inr (.inl none)
    · exact .inr (.inr (.inr ⟨c, taken, inService⟩))
  · have same : p.relocate s = p :=
      Part.relocate_eq_self (fun r a hr ha => Bool.eq_false_iff.2 (fun up => h ⟨r, a, hr, ha, up⟩))
    rw [same]
    exact .refl p

/-- A relocation takes a record away from its bay, where that is out of service (R111, R113). -/
theorem Part.relocate_away {p : Part} {b : BayId} {k : SlotId} {r : Record} (out : p.IsOut b) (hr : p.record k = some r)
    (bay : r.bay = some b) (up : r.state.upcoming = true) : (p.relocate k).Away b k := by
  obtain ⟨r', may, after⟩ := Part.relocate_after hr bay up
  have stored : (p.put k r').record k = some r' := by rw [Part.record_put, if_pos rfl]
  have gone : r'.state = .closing ∨ r'.bay ≠ some b := by
    rcases may with closing | none | ⟨c, taken, ne, _⟩
    · exact .inl closing
    · exact .inr (by simp [none])
    · exact .inr (by simpa [taken] using ne)
  have out' : (p.put k r').IsOut b := by
    have bays : (p.put k r').bay b = p.bay b := by simp [Part.bay]
    exact ⟨bays ▸ out.service, bays ▸ out.condition, bays ▸ out.notice⟩
  exact after.away out' ⟨r', stored, gone⟩

theorem Part.leadCheck_follows (p : Part) (s : SlotId) : Part.Follows p (p.leadCheck s) := by
  unfold Part.leadCheck
  split
  · exact .refl p
  · split
    · exact .refl p
    · split
      · exact p.relocate_follows s
      · exact .refl p

/-- One record of the walk of a blocking event (R111). -/
def Part.walkStep (x : Blocked) (p : Part) (s : SlotId) : Part :=
  match p.record s with
  | none => p
  | some r =>
    if r.state.upcoming && r.bay = some x.bay && (x.service || r.windowStart ≤ p.now + p.settings.lead) then p.relocate s
    else p

theorem Part.walkBlocked_eq (p : Part) (x : Blocked) : p.walkBlocked x = (p.chain x.bay).foldl (Part.walkStep x) p := rfl

theorem Part.walkStep_follows (x : Blocked) (p : Part) (s : SlotId) : Part.Follows p (p.walkStep x s) := by
  unfold Part.walkStep
  split
  · exact .refl p
  · split
    · exact p.relocate_follows s
    · exact .refl p

theorem Part.walkBlocked_follows (p : Part) (x : Blocked) : Part.Follows p (p.walkBlocked x) := by
  rw [Part.walkBlocked_eq]
  exact .foldl _ (Part.walkStep_follows x) p

theorem Part.tryWaiting_follows (p : Part) (s : SlotId) : Part.Follows p (p.tryWaiting s) := by
  unfold Part.tryWaiting
  cases hr : p.record s with
  | none => exact .refl p
  | some r =>
    dsimp only
    split
    · exact .refl p
    · split
      · next b hb =>
        refine .trans (.trans ?_ (Part.derive_follows _ _)) (Part.armChecks_follows _ s)
        exact p.put_follows s hr (.inr (.inr (.inr ⟨b, rfl, Part.place_inService hb⟩)))
      · exact .refl p

theorem Part.evalIdle_follows (p : Part) (q : PostId) : Part.Follows p (p.evalIdle q) := by
  unfold Part.evalIdle
  split
  · next active =>
    split
    · split
      · exact .refl p
      · exact .post p q _ (.inl active)
    all_goals
      split
      · exact .post p q _ (.inl active)
      · exact .refl p
  · exact .refl p

theorem Part.takeBlocked_follows (p : Part) : Part.Follows p p.takeBlocked :=
  .trans (p.work_follows { p.work with blocked := [] }) (.foldl _ Part.walkBlocked_follows _)

theorem Part.takeLeads_follows (p : Part) : Part.Follows p p.takeLeads :=
  .trans (p.work_follows { p.work with leads := [] }) (.foldl _ Part.leadCheck_follows _)

theorem Part.takeRetry_follows (p : Part) : Part.Follows p p.takeRetry := by
  unfold Part.takeRetry
  split
  · exact .trans (.trans (.foldl _ Part.tryWaiting_follows p) (Part.takeLeads_follows _)) (Part.work_follows _ _)
  · exact .refl p

theorem Part.takeIdle_follows (p : Part) : Part.Follows p p.takeIdle :=
  .trans (p.work_follows { p.work with idle := [] }) (.foldl _ Part.evalIdle_follows _)

theorem Part.takeExchange_follows (p : Part) : Part.Follows p p.takeExchange := by
  unfold Part.takeExchange Part.openNext
  split
  · dsimp only
    split <;> exact .besides rfl rfl rfl
  · exact .refl p

/-- What completes an event after its blocking walks. -/
theorem Part.takeBlocked_finish_follows (p : Part) : Part.Follows p.takeBlocked p.finish :=
  .trans (.trans (.trans (.trans (Part.takeLeads_follows _) (Part.takeRetry_follows _)) (Part.takeIdle_follows _))
    (Part.takeExchange_follows _)) (Part.work_follows _ _)

theorem Part.finish_follows (p : Part) : Part.Follows p p.finish :=
  .trans p.takeBlocked_follows p.takeBlocked_finish_follows

/-! ## O26: POST-SET -/

/-- The occupants are read from the pool alone. -/
theorem Part.occupant_of_pool {p q : Part} (h : q.pool = p.pool) (b : BayId) : q.occupant b = p.occupant b := by
  unfold Part.occupant Part.chain Part.recordIs Part.record
  rw [h]

theorem Part.haltBays_of_vacant {p : Part} (bays : List BayId) (h : ∀ b ∈ bays, p.occupant b = none) :
    bays.foldl Part.haltBay p = p := by
  induction bays with
  | nil => rfl
  | cons b bays ih =>
    have halted : p.haltBay b = p := by
      unfold Part.haltBay
      rw [h b List.mem_cons_self]
    rw [List.foldl_cons, halted, ih (fun c hc => h c (List.mem_cons_of_mem _ hc))]

theorem Part.idleTimers_pool (p : Part) (bays : List BayId) : (p.idleTimers bays).pool = p.pool :=
  foldl_view Part.pool (f := fun u b => Part.modBay u b _) (fun _ _ => rfl) bays p

/-- Bays without an occupant go dark with what follows on a change alone (R159). -/
theorem Part.darken_follows {p : Part} (bays : List BayId) (h : ∀ b ∈ bays, p.occupant b = none) :
    Part.Follows p (p.darken bays) := by
  have pool : (bays.foldl Part.derive (p.idleTimers bays)).pool = p.pool :=
    (foldl_view Part.pool (fun u b => u.deriveWith_pool true b) bays _).trans (p.idleTimers_pool bays)
  unfold Part.darken
  rw [Part.haltBays_of_vacant bays (fun b hb => (Part.occupant_of_pool pool b).trans (h b hb))]
  refine .trans ?_ (.foldl bays Part.derive_follows _)
  exact .foldl bays (fun u b => u.modBay_follows b _ rfl (.inl rfl) id) p

theorem Part.cut_follows (p : Part) (q : PostId) : Part.Follows p (p.cut q) := by
  unfold Part.cut
  split
  · split
    · exact .besides rfl rfl rfl
    · exact .refl p
  · exact .refl p

/-- A cut leaves no exchange with its post (R152). -/
theorem Part.cut_exchange_ne (p : Part) (q : PostId) {y : Exchange} (h : (p.cut q).link.exchange = some y) :
    y.post ≠ q := by
  unfold Part.cut at h
  split at h
  · next x hx =>
    split at h
    · nomatch h
    · next ne =>
      cases hx.symm.trans h
      exact ne
  · next none => exact absurd (none.symm.trans h) (by simp)

/-- A post that is due is in use (R151). -/
theorem Part.postDue_inUse {p : Part} {q : PostId} (h : p.postDue q = true) : (p.post q).inUse = true := by
  unfold Part.postDue at h
  rw [Bool.and_eq_true] at h
  exact h.1

/-- The completion of an event opens no exchange with a post that is not in use. -/
theorem Part.finish_exchange_ne {p : Part} {q : PostId} (cut : ∀ y, p.link.exchange = some y → y.post ≠ q)
    (unused : (p.post q).inUse = false) : ∀ y, p.finish.link.exchange = some y → y.post ≠ q := by
  have before : Part.Tidies true p p.takeBlocked.takeLeads.takeRetry.takeIdle :=
    .trans (.trans (.trans p.takeBlocked_tidies (Part.takeLeads_tidies _)) (Part.takeRetry_tidies _))
      (Part.takeIdle_tidies _)
  obtain ⟨link, _⟩ := before.link rfl
  have still : (p.takeBlocked.takeLeads.takeRetry.takeIdle.post q).inUse = false :=
    (congrArg Post.inUse (before.post q) :).trans unused
  show ∀ y, p.takeBlocked.takeLeads.takeRetry.takeIdle.takeExchange.link.exchange = some y → y.post ≠ q
  generalize p.takeBlocked.takeLeads.takeRetry.takeIdle = u at link still ⊢
  intro y hy
  unfold Part.takeExchange Part.openNext at hy
  split at hy
  · dsimp only at hy
    split at hy
    · next a ha =>
      have due := List.find?_some ha
      rw [Bool.and_eq_true] at due
      cases hy
      rintro rfl
      exact absurd ((Part.postDue_inUse due.2).symm.trans still) (by decide)
    · exact cut y (link ▸ hy)
  · exact cut y (link ▸ hy)

theorem Part.unread_bay_mem {l : List BayId} {b : BayId} (h : b ∈ l) (p : Part) :
    (l.foldl (fun p b => p.modBay b Bay.withdrawn) p).bay b = (p.bay b).withdrawn := by
  induction l generalizing p with
  | nil => nomatch h
  | cons a l ih =>
    have first : (p.modBay a Bay.withdrawn).bay b = if b = a then (p.bay a).withdrawn else p.bay b :=
      Part.bay_setBay p a _ b
    rw [List.foldl_cons]
    by_cases e : b = a
    · subst e
      rw [if_pos rfl] at first
      rcases Part.unread_bay l (p.modBay b Bay.withdrawn) b with k | ⟨_, k⟩
      · rw [k, first]
      · rw [k, first]
        rfl
    · rw [if_neg e] at first
      rw [ih ((List.mem_cons.1 h).resolve_left e), first]

section
variable (p : Part) (q : PostId)

/-- The part as a withdrawal begins: the readings of the post's bays dropped, the post withdrawn (R16). -/
def Part.unread : Part :=
  ((p.baysOfPost q).foldl (fun p b => p.modBay b Bay.withdrawn) p).setPost q (p.post q).withdrawn

theorem Part.withdraw_eq :
    p.withdraw q =
      (if (p.post q).serviceable then (p.unread q).darken (p.baysOfPost q) else p.unread q).cut q := rfl

theorem Part.unread_post : (p.unread q).post q = (p.post q).withdrawn := Part.post_setPost_same _ _ _

theorem Part.unread_pool : (p.unread q).pool = p.pool := (Part.unread_rest (p.baysOfPost q) p).1

variable {p q}

theorem Part.withdraw_follows (vacant : ∀ b ∈ p.baysOfPost q, p.occupant b = none) :
    Part.Follows (p.unread q) (p.withdraw q) := by
  rw [Part.withdraw_eq]
  refine .trans ?_ (Part.cut_follows _ q)
  split
  · exact Part.darken_follows _ (fun b hb => (Part.occupant_of_pool (p.unread_pool q) b).trans (vacant b hb))
  · exact .refl _

theorem Part.setPostRequest_range {n : Nat} (h : 31 < n) (flag : Bool) :
    p.setPostRequest (n, flag) = (⟨.range, []⟩, p) := by
  simp only [Part.setPostRequest, fin?_of_le (show 32 ≤ n by omega), Status.alone]

theorem Part.setPostRequest_inUse (h : (p.post q).inUse = true) : p.setPostRequest (q.val, true) = (⟨.ok, []⟩, p) := by
  simp only [Part.setPostRequest, fin?_val, h, Answer.ok]

theorem Part.setPostRequest_unused (h : (p.post q).inUse = false) : p.setPostRequest (q.val, false) = (⟨.ok, []⟩, p) := by
  simp only [Part.setPostRequest, fin?_val, h, Answer.ok]

theorem Part.any_engagedOn : (p.baysOfPost q).any p.engagedOn = true ↔ ∃ b ∈ p.baysOfPost q, p.occupant b ≠ none := by
  simp only [List.any_eq_true, Part.engagedOn_iff]

theorem Part.setPostRequest_conflict (h : (p.post q).inUse = true) (engaged : ∃ b ∈ p.baysOfPost q, p.occupant b ≠ none) :
    p.setPostRequest (q.val, false) = (⟨.conflict, []⟩, p) := by
  simp only [Part.setPostRequest, fin?_val, h, Part.any_engagedOn.2 engaged, if_true, Status.alone]

theorem Part.setPostRequest_withdraw (h : (p.post q).inUse = true)
    (vacant : ¬ ∃ b ∈ p.baysOfPost q, p.occupant b ≠ none) :
    p.setPostRequest (q.val, false) = (⟨.ok, []⟩, p.withdraw q) := by
  simp only [Part.setPostRequest, fin?_val, h, if_neg (mt Part.any_engagedOn.1 vacant), Answer.ok]

end

section
variable {s : State} {f : Frame} {rest : List Frame} {na : Byte} {n : Nat} {a : Answer} {p : Part}

theorem execPostSetInUse_gives (asks : s.Asks .postSet [na, 1] f rest) (hn : na.toNat = n)
    (h : s.part.setPostRequest (n, true) = (a, p)) : exec .postSetInUse s = .next (s.replied rest f a p.finish) :=
  State.serve_gives asks (mine := byteNot 1 [0]) rfl (rd := Rd.byteFlag) rfl (hn ▸ h)

theorem execPostSetWithdraw_gives (asks : s.Asks .postSet [na, 0] f rest) (hn : na.toNat = n)
    (h : s.part.setPostRequest (n, false) = (a, p)) : exec .postSetWithdraw s = .next (s.replied rest f a p.finish) :=
  State.serve_gives asks (mine := byteNot 1 [1]) rfl (rd := Rd.byteFlag) rfl (hn ▸ h)

end

/-- Settles O26: the outcomes of `Part.setPostRequest`; a withdrawn post and the readings of its bays stay through what
follows on the withdrawal (`Part.Follows`), which opens no exchange with it. -/
theorem postSetDeclaresAndWithdraws : Obligations.PostSetDeclaresAndWithdraws := by
  unfold Obligations.PostSetDeclaresAndWithdraws
  refine ⟨fun s f rest na settled asks => ?declare, fun s f rest na settled asks h => ?range,
    fun s f rest na q settled asks hq => ?withdraw⟩
  case declare =>
    refine ⟨fun h => ?_, fun q hq => ?_⟩
    · rw [execPostSetInUse_gives asks rfl (Part.setPostRequest_range h true), Part.finish_of_settled _ settled]
    · dsimp only
      cases inUse : (s.part.post q).inUse with
      | true =>
        rw [execPostSetInUse_gives asks hq (Part.setPostRequest_inUse inUse), Part.finish_of_settled _ settled,
          if_pos rfl]
      | false =>
        rw [execPostSetInUse_gives asks hq (Part.setPostRequest_declares inUse),
          Part.finish_of_settled (s.part.modPost q _) settled, if_neg (by decide)]
        rfl
  case range =>
    rw [execPostSetWithdraw_gives asks rfl (Part.setPostRequest_range h false), Part.finish_of_settled _ settled]
  case withdraw =>
    refine ⟨fun unused => ?_, fun inUse engaged => ?_,
      fun inUse vacant => ⟨_, execPostSetWithdraw_gives asks hq (Part.setPostRequest_withdraw inUse vacant), ?_⟩⟩
    · rw [execPostSetWithdraw_gives asks hq (Part.setPostRequest_unused unused), Part.finish_of_settled _ settled]
    · rw [execPostSetWithdraw_gives asks hq (Part.setPostRequest_conflict inUse engaged),
        Part.finish_of_settled _ settled]
    · have unread : (s.part.unread q).post q = (s.part.post q).withdrawn := s.part.unread_post q
      have follows : Part.Follows (s.part.unread q) (s.part.withdraw q) :=
        Part.withdraw_follows (fun b hb => not_not.1 (fun h => vacant ⟨b, hb, h⟩))
      have finished := follows.trans (s.part.withdraw q).finish_follows
      have post : (s.part.withdraw q).finish.post q = (s.part.post q).withdrawn :=
        (finished.post_eq (by simp [unread, Post.withdrawn]) (by simp [unread, Post.withdrawn])).trans unread
      have told (b : BayId) (hb : b ∈ s.part.baysOfPost q) :
          ((s.part.withdraw q).finish.bay b).told = (s.part.bay b).withdrawn.told :=
        (finished.bay_told b).trans (congrArg Bay.told (Part.unread_bay_mem hb s.part))
      have unused : ((s.part.withdraw q).post q).inUse = false :=
        (congrArg Post.inUse ((Part.finish_tidies _).post q) :).symm.trans (congrArg Post.inUse post)
      rw [post]
      refine ⟨rfl, rfl, rfl, rfl, rfl, rfl, rfl, rfl, fun b hb => ?_,
        Part.finish_exchange_ne (fun y => Part.cut_exchange_ne _ q) unused⟩
      obtain ⟨config, reading, cap, occupancy, plug⟩ := by simpa only [Bay.told, Prod.mk.injEq] using told b hb
      exact ⟨reading, cap, occupancy, plug, config⟩

/-! ## O22: BAY-SERVICE -/

/-! ### The walk along the chain of a bay out of service -/

section
variable {p : Part} {b : BayId} {k : SlotId}

theorem Part.walkStep_away (out : p.IsOut b) (leaving : p.Leaving b k) : (p.walkStep ⟨b, true⟩ k).Away b k := by
  rcases leaving with gone | ⟨r, hr, bay, up, _⟩
  · exact (Part.walkStep_follows _ p k).away out gone
  · have moved : p.walkStep ⟨b, true⟩ k = p.relocate k := by
      unfold Part.walkStep
      rw [hr]
      exact if_pos (by simp [up, bay])
    rw [moved]
    exact Part.relocate_away out hr bay up

theorem Part.walk_away (l : List SlotId) (mem : k ∈ l) {p : Part} (out : p.IsOut b) (leaving : p.Leaving b k) :
    (l.foldl (Part.walkStep ⟨b, true⟩) p).Away b k := by
  induction l generalizing p with
  | nil => nomatch mem
  | cons a l ih =>
    have step := Part.walkStep_follows ⟨b, true⟩ p a
    rw [List.foldl_cons]
    rcases List.mem_cons.1 mem with rfl | mem
    · exact (Part.Follows.foldl l (Part.walkStep_follows _) _).away (step.isOut out) (Part.walkStep_away out leaving)
    · exact ih mem (step.isOut out) (step.leaving out leaving)

/-- The walk of a bay taken out of service takes every record before engagement away from it (R5, R111). -/
theorem Part.walkBlocked_away (out : p.IsOut b) (leaving : p.Leaving b k) : (p.walkBlocked ⟨b, true⟩).Away b k := by
  rw [Part.walkBlocked_eq]
  rcases leaving with gone | ⟨r, hr, bay, up, mem⟩
  · exact (Part.Follows.foldl _ (Part.walkStep_follows _) p).away out gone
  · exact Part.walk_away _ mem out (.inr ⟨r, hr, bay, up, mem⟩)

theorem Part.reportBlocked_follows (p : Part) (b : BayId) (service : Bool) : Part.Follows p (p.reportBlocked b service) :=
  p.work_follows _

/-- The walk that is reported last is taken within the completion of the event. -/
theorem Part.reportBlocked_finish_away (out : p.IsOut b) (leaving : p.Leaving b k) :
    (p.reportBlocked b true).finish.Away b k := by
  have first : (p.reportBlocked b true).takeBlocked =
      (p.work.blocked.foldl Part.walkBlocked { p with work := { p.work with blocked := [] } }).walkBlocked
        ⟨b, true⟩ := by
    unfold Part.takeBlocked Part.reportBlocked
    dsimp only
    rw [List.foldl_append]
    rfl
  have walks := (p.work_follows { p.work with blocked := [] }).trans
    (.foldl p.work.blocked Part.walkBlocked_follows _)
  have away := Part.walkBlocked_away (walks.isOut out) (walks.leaving out leaving)
  rw [← first] at away
  have blocked := (p.reportBlocked_follows b true).trans (p.reportBlocked b true).takeBlocked_follows
  exact (p.reportBlocked b true).takeBlocked_finish_follows.away (blocked.isOut out) away

end

/-! ### Taking a bay out -/

theorem Part.deriveWith_bay_same (raise : Bool) (p : Part) (b : BayId) :
    (p.deriveWith raise b).bay b =
      if p.conditionOf b = (p.bay b).condition then p.bay b
      else { p.bay b with condition := p.conditionOf b, notice := true } := by
  unfold Part.deriveWith
  dsimp only
  split
  · rfl
  · split <;> split <;> simp

/-- What a session change stores, and what follows on it (R117). -/
theorem Part.updSession_after {p : Part} {s : SlotId} {r : Record} {x : Session} (hr : p.record s = some r)
    (hx : r.session = some x) (g : Session → Session) :
    ∃ r' : Record, r'.state = r.state ∧ r'.bay = r.bay ∧ r'.session = some (g x) ∧
      Part.Follows (p.put s r') (p.updSession s g) ∧ (p.updSession s g).pool = (p.put s r').pool := by
  refine ⟨if x.reports (g x) then { r with session := some (g x) }.flag .session else { r with session := some (g x) },
    ?_, ?_, ?_, ?_⟩
  · split <;> rfl
  · split <;> rfl
  · split <;> rfl
  · unfold Part.updSession
    rw [hr]
    dsimp only
    rw [hx]
    dsimp only
    generalize p.put s _ = stored
    split
    · exact ⟨.refl _, rfl⟩
    · next b _ =>
      have told (c : Prop) [Decidable c] :
          Part.Follows stored (if c then stored else stored.shareChanged (p.bay b).feeder) ∧
          (if c then stored else stored.shareChanged (p.bay b).feeder).pool = stored.pool := by
        split
        · exact ⟨.refl _, rfl⟩
        · exact ⟨Part.shareChanged_follows _ _, rfl⟩
      obtain ⟨follows, pool⟩ := told (x.phase.demands = (g x).phase.demands)
      split
      · exact ⟨follows, pool⟩
      · exact ⟨follows.trans (Part.derive_follows _ _), (Part.deriveWith_pool true _ _).trans pool⟩

theorem Part.updSession_follows (p : Part) (s : SlotId) (g : Session → Session) : Part.Follows p (p.updSession s g) := by
  cases hr : p.record s with
  | none =>
    unfold Part.updSession
    rw [hr]
    exact .refl p
  | some r =>
    cases hx : r.session with
    | none =>
      unfold Part.updSession
      rw [hr]
      dsimp only
      rw [hx]
      exact .refl p
    | some x =>
      obtain ⟨r', state, bay, _, follows, _⟩ := Part.updSession_after hr hx g
      exact .trans (p.put_follows s hr (.inr (.inr (.inl ⟨bay, state⟩)))) follows

theorem SettleCause.closedBy_ne {cause : SettleCause} (h : cause ≠ .departed) : cause.closedBy ≠ .departed := by
  cases cause with
  | departed => exact absurd rfl h
  | host => decide
  | service => decide

theorem Part.endSession_follows (p : Part) (s : SlotId) {cause : SettleCause} (h : cause ≠ .departed) :
    Part.Follows p (p.endSession s cause) := by
  have by' := SettleCause.closedBy_ne h
  unfold Part.endSession
  split
  · exact .refl p
  · split
    · exact p.closeRecord_follows s _ by'
    · exact .refl p
    all_goals exact p.updSession_follows s _

section
variable (p : Part) (b : BayId)

/-- The bay with its service state OUT and its condition derived (R5). -/
def Part.markedOut : Part := (p.modBay b (fun x => { x with service := .out, notice := true })).deriveWith false b

/-- The bay's session is ended as by END-SESSION (R5). -/
def Part.endedOut : Part :=
  match (p.markedOut b).occupant b with
  | some s => (p.markedOut b).endSession s .service
  | none => p.markedOut b

theorem Part.takeOut_eq : p.takeOut b = (p.endedOut b).reportBlocked b true := rfl

theorem Part.markedOut_pool : (p.markedOut b).pool = p.pool := Part.deriveWith_pool false _ b

theorem Part.markedOut_isOut : (p.markedOut b).IsOut b := by
  have bay := (p.modBay b (fun x => { x with service := .out, notice := true })).deriveWith_bay_same false b
  have stored : (p.modBay b (fun x => { x with service := .out, notice := true })).bay b =
      { p.bay b with service := .out, notice := true } := Part.bay_setBay_same _ _ _
  have derived : (p.modBay b (fun x => { x with service := .out, notice := true })).conditionOf b = .out :=
    Part.conditionOf_out (.inr (by rw [stored]))
  unfold Part.markedOut
  rw [derived, stored] at bay
  split at bay
  · next e => exact ⟨by rw [bay], by rw [bay]; exact e.symm, by rw [bay]⟩
  · exact ⟨by rw [bay], by rw [bay], by rw [bay]⟩

theorem Part.endedOut_follows : Part.Follows (p.markedOut b) (p.endedOut b) := by
  unfold Part.endedOut
  split
  · exact Part.endSession_follows _ _ (by decide)
  · exact .refl _

variable {p b}

theorem Part.takeOut_isOut : (p.takeOut b).finish.IsOut b := by
  have ended := (p.endedOut_follows b).isOut (p.markedOut_isOut b)
  rw [Part.takeOut_eq]
  exact (Part.finish_follows _).isOut (((p.endedOut b).reportBlocked_follows b true).isOut ended)

/-- Every record before its engagement leaves a bay that is taken out of service (R5, R111). -/
theorem Part.takeOut_away {k : SlotId} {r : Record} (mem : k ∈ p.chain b) (hr : p.record k = some r)
    (bay : r.bay = some b) (up : r.state.upcoming = true) : (p.takeOut b).finish.Away b k := by
  have pool := p.markedOut_pool b
  have leaving : (p.markedOut b).Leaving b k :=
    .inr ⟨r, by simpa only [Part.record, pool] using hr, bay, up, by simpa only [Part.chain, pool] using mem⟩
  have ended := p.endedOut_follows b
  rw [Part.takeOut_eq]
  exact Part.reportBlocked_finish_away (ended.isOut (p.markedOut_isOut b)) (ended.leaving (p.markedOut_isOut b) leaving)

end

/-! ### The session of a bay that is taken out -/

section
variable {p : Part} {b : BayId} {k : SlotId} {r : Record} {y : Session}

/-- How a session ends other than by departure (R125): HALTED closes, SETTLING goes on, every other phase settles. -/
theorem Part.endSession_record {cause : SettleCause} (h : cause ≠ .departed) (hr : p.record k = some r)
    (hy : r.session = some y) :
    ∃ r', (p.endSession k cause).record k = some r' ∧
      (y.phase = .halted → r'.state = .closing ∧
        ∃ c, r'.close = some c ∧ c.result = .stopped ∧ c.closedBy = cause.closedBy) ∧
      (y.phase = .settling → r'.state = r.state ∧ r'.session = some y) ∧
      (y.phase ≠ .halted → y.phase ≠ .settling →
        r'.state = r.state ∧ r'.session = some (y.intoSettling cause p.time)) := by
  have by' := SettleCause.closedBy_ne h
  have session : p.session k = some y := by simp [Part.session, hr, hy]
  have put (r' : Record) {q : Part} (pool : q.pool = (p.put k r').pool) : q.record k = some r' := by
    have : q.record k = (p.put k r').record k := by simp only [Part.record, pool]
    rw [this, Part.record_put, if_pos rfl]
  obtain ⟨r', state, _, settling, _, pool⟩ := Part.updSession_after hr hy (fun x => x.intoSettling cause p.time)
  unfold Part.endSession
  rw [session]
  dsimp only
  cases phase : y.phase with
  | halted =>
    obtain ⟨_, pool⟩ := Part.closeRecord_after hr .stopped by'
    exact ⟨_, put _ pool, fun _ => ⟨rfl, _, rfl, rfl, rfl⟩, (nomatch ·), fun e => absurd rfl e⟩
  | settling => exact ⟨r, hr, (nomatch ·), fun _ => ⟨rfl, hy⟩, fun _ e => absurd rfl e⟩
  | _ => exact ⟨r', put r' pool, (nomatch ·), (nomatch ·), fun _ _ => ⟨state, settling⟩⟩

theorem Part.markedOut_time (p : Part) (b : BayId) : (p.markedOut b).time = p.time :=
  (Part.deriveWith_moves (timed := false) false _ b).time

/-- The occupant of a bay that is taken out of service, once the event is complete. -/
theorem Part.takeOut_occupant (occupant : p.occupant b = some k) (hr : p.record k = some r) (hy : r.session = some y) :
    ∃ r', (p.takeOut b).finish.record k = some r' ∧
      (y.phase = .halted → r'.state = .closing ∧
        ∃ c, r'.close = some c ∧ c.result = .stopped ∧ c.closedBy = .service) ∧
      (y.phase = .settling → r'.state = .engaged ∧ r'.session = some y) ∧
      (y.phase ≠ .halted → y.phase ≠ .settling →
        r'.state = .engaged ∧ r'.session = some (y.intoSettling .service p.time)) := by
  have pool := p.markedOut_pool b
  have ended : p.endedOut b = (p.markedOut b).endSession k .service := by
    unfold Part.endedOut
    rw [Part.occupant_of_pool pool b, occupant]
  have engaged : r.state = .engaged := by
    obtain ⟨r', hr', state⟩ := Part.occupant_engaged occupant
    exact Option.some.inj (hr.symm.trans hr') ▸ state
  have marked : (p.markedOut b).record k = some r := by simpa only [Part.record, pool] using hr
  obtain ⟨r', hr', halted, settling, other⟩ := Part.endSession_record (cause := .service) (by decide) marked hy
  rw [← ended] at hr'
  rw [p.markedOut_time b, engaged] at other
  rw [engaged] at settling
  have kept := (p.takeOut b).finish_tidies
  have stored : (p.takeOut b).record k = some r' := by
    rw [Part.takeOut_eq, Part.reportBlocked_record]
    exact hr'
  refine ⟨r', ?_, halted, settling, other⟩
  by_cases h : y.phase = .halted
  · exact kept.closing k r' stored (halted h).1
  · by_cases h' : y.phase = .settling
    · exact kept.engaged k r' stored (settling h').1
    · exact kept.engaged k r' stored (other h h').1

/-- The derivation of R5 reports no blocking event, and leaves only idle conditions to be evaluated. -/
theorem Part.markedOut_work (settled : p.work = .empty) :
    (p.markedOut b).work.blocked = [] ∧ (p.markedOut b).work.leads = [] ∧ (p.markedOut b).work.retry = false ∧
      (p.markedOut b).work.nextExchange = false := by
  have touched (u : Part) (q : PostId) : (u.touchPost q).work.blocked = u.work.blocked ∧
      (u.touchPost q).work.leads = u.work.leads ∧ (u.touchPost q).work.retry = u.work.retry ∧
      (u.touchPost q).work.nextExchange = u.work.nextExchange := by
    unfold Part.touchPost
    split <;> exact ⟨rfl, rfl, rfl, rfl⟩
  have stored : (p.modBay b (fun x => { x with service := .out, notice := true })).work = .empty := settled
  unfold Part.markedOut Part.deriveWith
  dsimp only
  generalize p.modBay b _ = u at stored ⊢
  split
  · rw [stored]
    exact ⟨rfl, rfl, rfl, rfl⟩
  · have after := touched (u.modBay b (fun x => { x with condition := u.conditionOf b, notice := true })) (u.bay b).post
    rw [show (u.modBay b (fun x => { x with condition := u.conditionOf b, notice := true })).work = .empty
      from stored] at after
    split <;> exact after

/-- A bay with an empty chain is taken out of service without a change of the pool. -/
theorem Part.takeOut_pool (settled : p.work = .empty) (empty : p.chain b = []) : (p.takeOut b).finish.pool = p.pool := by
  have pool := p.markedOut_pool b
  have chain : (p.markedOut b).chain b = [] := by rw [← empty]; simp only [Part.chain, pool]
  have vacant : (p.markedOut b).occupant b = none := by
    unfold Part.occupant
    rw [chain]
    rfl
  have ended : p.endedOut b = p.markedOut b := by
    unfold Part.endedOut
    rw [vacant]
  obtain ⟨blocked, leads, retry, next⟩ := Part.markedOut_work (b := b) settled
  rw [Part.takeOut_eq, ended, ← pool]
  generalize p.markedOut b = u at blocked leads retry next chain
  have walked : (u.reportBlocked b true).takeBlocked = u.takeBlocked := by
    unfold Part.takeBlocked Part.reportBlocked
    dsimp only
    rw [blocked, List.nil_append, List.foldl_cons, Part.walkBlocked_eq]
    rw [show Part.chain { u with work := { u.work with blocked := [] } } b = [] from chain]
    rfl
  have same : (u.reportBlocked b true).finish = u.finish := by
    unfold Part.finish
    rw [walked]
  rw [same]
  exact (u.finish_idle_pool blocked leads retry next).1

end

/-! ### The outcomes -/

section
variable {p : Part} {b : BayId} {n : BayServiceReq}

theorem Part.bayServiceRequest_range (h : 63 < n.bay ∨ 1 < n.target) : p.bayServiceRequest n = (⟨.range, []⟩, p) := by
  unfold Part.bayServiceRequest
  split
  · next bay target =>
    rcases h with h | h
    · rw [fin?_of_le h] at bay
      nomatch bay
    · rw [Service.ofCode_of_lt h] at target
      nomatch target
  · rfl

theorem Part.bayServiceRequest_conflict {t : Nat} {force : Bool} {target : Service} (ht : Service.ofCode t = some target)
    (h : (p.bay b).configured = false) : p.bayServiceRequest ⟨b.val, t, force⟩ = (⟨.conflict, []⟩, p) := by
  simp [Part.bayServiceRequest, ht, h, Status.alone]

theorem Part.bayServiceRequest_same {t : Nat} {force : Bool} {target : Service} (ht : Service.ofCode t = some target)
    (h : (p.bay b).configured = true) (same : (p.bay b).service = target) :
    p.bayServiceRequest ⟨b.val, t, force⟩ = (⟨.ok, []⟩, p) := by
  simp [Part.bayServiceRequest, ht, h, same, Answer.ok]

theorem Part.bayServiceRequest_wrongState (h : (p.bay b).configured = true) (inService : (p.bay b).service = .inService)
    (engaged : p.occupant b ≠ none) : p.bayServiceRequest ⟨b.val, 1, false⟩ = (⟨.wrongState, []⟩, p) := by
  simp [Part.bayServiceRequest, Service.ofCode, h, inService, Part.engagedOn_iff.2 engaged, Status.alone]

theorem Part.bayServiceRequest_out {force : Bool} (h : (p.bay b).configured = true)
    (inService : (p.bay b).service = .inService) (free : p.occupant b = none ∨ force = true) :
    p.bayServiceRequest ⟨b.val, 1, force⟩ = (⟨.ok, []⟩, p.takeOut b) := by
  have passes : ¬ (p.engagedOn b && !force) = true := by
    rcases free with e | e
    · simp [Part.engagedOn, e]
    · simp [e]
  simp only [Part.bayServiceRequest, fin?_val, Service.ofCode, h, inService, if_neg passes, Answer.ok]
  rfl

theorem Part.bayServiceRequest_in {force : Bool} (h : (p.bay b).configured = true) (out : (p.bay b).service = .out) :
    p.bayServiceRequest ⟨b.val, 0, force⟩ = (⟨.ok, []⟩, p.takeIn b) := by
  simp [Part.bayServiceRequest, Service.ofCode, h, out, Answer.ok]

end

section
variable {s : State} {f : Frame} {rest : List Frame} {nb target force : Byte} {n : Nat} {a : Answer} {p : Part}

/-- BAY-SERVICE gives what `Part.bayServiceRequest` gives, completed, on the row that takes its target. -/
theorem execBayService_gives {c : Instr} (hc : c = .bayServiceOut ∨ c = .bayServiceIn)
    (takes : rowTakes c [nb, target, force] = true) (asks : s.Asks .bayService [nb, target, force] f rest)
    (hf : force = 0 ∨ force = 1) (hn : nb.toNat = n)
    (h : s.part.bayServiceRequest ⟨n, target.toNat, decide (force = 1)⟩ = (a, p)) :
    exec c s = .next (s.replied rest f a p.finish) := by
  subst hn
  have read : Rd.bayService.all [nb, target, force] = some ⟨nb.toNat, target.toNat, decide (force = 1)⟩ := by
    rcases hf with rfl | rfl <;> rfl
  rcases hc with rfl | rfl
  · exact State.serve_gives asks takes read h
  · exact State.serve_gives asks takes read h

end

/-- Settles O22: the outcomes of `Part.bayServiceRequest`; of a bay taken out, the walk that completes the request
(`Part.takeOut_away`) and the end of its session (`Part.takeOut_occupant`). -/
theorem bayServiceTakesTheBayOutAndIn : Obligations.BayServiceTakesTheBayOutAndIn := by
  unfold Obligations.BayServiceTakesTheBayOutAndIn
  refine ⟨fun c s f rest nb target force hc settled asks takes hf h => ?range,
    fun s f rest nb force b settled asks hb hf => ?out, fun s f rest nb force b settled asks hb hf => ?in'⟩
  case range =>
    rw [execBayService_gives hc takes asks hf rfl (Part.bayServiceRequest_range h), Part.finish_of_settled _ settled]
  case out =>
    have gives {a : Answer} {p : Part} := execBayService_gives (a := a) (p := p) (.inl rfl) rfl asks hf hb
    refine ⟨fun unset => ?_, fun set' out => ?_, fun set' inService engaged hf => ?_,
      fun set' inService free =>
        ⟨_, gives (Part.bayServiceRequest_out set' inService (free.imp_right decide_eq_true)), ?_⟩⟩
    · rw [gives (Part.bayServiceRequest_conflict rfl unset), Part.finish_of_settled _ settled]
    · rw [gives (Part.bayServiceRequest_same rfl set' out), Part.finish_of_settled _ settled]
    · subst hf
      rw [gives (Part.bayServiceRequest_wrongState set' inService engaged), Part.finish_of_settled _ settled]
    · have out := Part.takeOut_isOut (p := s.part) (b := b)
      exact ⟨out.service, out.condition, out.notice, Part.takeOut_pool settled, fun k r => Part.takeOut_away,
        fun k r y occupant hr _ hy => Part.takeOut_occupant occupant hr hy⟩
  case in' =>
    have gives {a : Answer} {p : Part} := execBayService_gives (a := a) (p := p) (.inr rfl) rfl asks hf hb
    refine ⟨fun unset => ?_, fun set' inService => ?_, fun set' out => ?_⟩
    · rw [gives (Part.bayServiceRequest_conflict rfl unset), Part.finish_of_settled _ settled]
    · rw [gives (Part.bayServiceRequest_same rfl set' inService), Part.finish_of_settled _ settled]
    · rw [gives (Part.bayServiceRequest_in set' out)]
      rfl

end Sys2Proof.Machine

namespace Sys2Proof.Machine

/-! ## The minute that timed events are taken in (R19, R23, R24) -/

/-- What the events of a minute leave alone: the clock but for its last rollover day, and what is outstanding. -/
structure Part.InMinute (p q : Part) : Prop where
  clock : q.clock = { p.clock with lastDay := q.clock.lastDay }
  outstanding : q.outstanding = p.outstanding

namespace Part.InMinute

variable {linked : Bool} {p q r : Part}

theorem of_eq (clock : q.clock = p.clock) (outstanding : q.outstanding = p.outstanding) : Part.InMinute p q :=
  ⟨by rw [clock], outstanding⟩

theorem refl (p : Part) : Part.InMinute p p := .of_eq rfl rfl

theorem trans (h : Part.InMinute p q) (k : Part.InMinute q r) : Part.InMinute p r :=
  ⟨k.clock.trans (by rw [h.clock]), k.outstanding.trans h.outstanding⟩

theorem of_tidies (h : Part.Tidies linked p q) : Part.InMinute p q := .of_eq h.clock h.outstanding

theorem set (h : Part.InMinute p q) : q.clock.set = p.clock.set := by rw [h.clock]

theorem minute (h : Part.InMinute p q) : q.clock.minute = p.clock.minute := by rw [h.clock]

theorem second (h : Part.InMinute p q) : q.clock.second = p.clock.second := by rw [h.clock]

end Part.InMinute

section
variable {p q : Part}

theorem Part.modRecord_inMinute (p : Part) (s : SlotId) (g : Record → Record) : Part.InMinute p (p.modRecord s g) := by
  unfold Part.modRecord
  split
  · exact .of_eq (p.put_clock s _) (p.put_outstanding s _)
  · exact .refl p

theorem Part.derive_inMinute (p : Part) (b : BayId) : Part.InMinute p (p.derive b) :=
  .of_tidies (p.derive_tidies (linked := false) b)

theorem Part.updSession_inMinute (p : Part) (s : SlotId) (g : Session → Session) :
    Part.InMinute p (p.updSession s g) := by
  cases hr : p.record s with
  | none => simp only [Part.updSession, hr]; exact .refl p
  | some r =>
    cases hx : r.session with
    | none => simp only [Part.updSession, hr, hx]; exact .refl p
    | some x =>
      simp only [Part.updSession, hr, hx]
      have stored (r' : Record) : Part.InMinute p (p.put s r') := .of_eq (p.put_clock s r') (p.put_outstanding s r')
      split
      · exact stored _
      · have told (b : BayId) (r' : Record) : Part.InMinute p
            (if x.phase.demands = (g x).phase.demands then p.put s r'
              else (p.put s r').shareChanged (p.bay b).feeder) := by
          split
          · exact stored r'
          · exact .trans (stored r') (.of_eq rfl rfl)
        split
        · exact told _ _
        · exact .trans (told _ _) (Part.derive_inMinute _ _)

/-- The close of a record before engagement. -/
theorem Part.closeRecord_inMinute {s : SlotId} {r : Record} (hr : p.record s = some r) (engaged : r.state ≠ .engaged)
    (closing : r.state ≠ .closing) (result : Result) (by' : ClosedBy) : Part.InMinute p (p.closeRecord s result by') :=
  .of_tidies (p.closeRecord_tidies (linked := false) s result by' hr engaged closing)

theorem Part.takeWindowEnd_inMinute {s : SlotId} {r : Record} (hr : p.record s = some r)
    (chained : r.state.chained = true) :
    Part.InMinute p (p.takeWindowEnd s) := by
  unfold Part.takeWindowEnd
  split
  · exact .trans (p.modRecord_inMinute s _) (Part.updSession_inMinute _ s _)
  · next h =>
    refine Part.closeRecord_inMinute hr (fun e => h ?_) (RecState.chained_ne chained) _ _
    simp [Part.recordIs, hr, e]

theorem Part.clearTallies_inMinute (p : Part) : Part.InMinute p p.clearTallies :=
  .of_eq (foldl_view Part.clock (f := Part.clearTally) (fun _ _ => rfl) allRules p)
    (foldl_view Part.outstanding (f := Part.clearTally) (fun _ _ => rfl) allRules p)

/-- A timed event that is due leaves the minute as it is (R24). -/
theorem Part.takeTimed_inMinute (p : Part) (e : Timed) (due : p.isDue e = true) : Part.InMinute p (p.takeTimed e) := by
  cases e with
  | leadCheck s =>
    exact .trans (p.modRecord_inMinute s _) (.of_tidies (Part.leadCheck_tidies (linked := false) _ s))
  | wakeCheck s =>
    have marked := p.modRecord_inMinute s (fun r => { r with wakeTaken := true })
    simp only [Part.takeTimed]
    split
    · exact .trans marked (.of_tidies (Part.wakeBay_tidies (linked := false) _ _))
    · exact marked
  | windowStart s =>
    have held := p.modRecord_inMinute s (fun r => { r.flag .windowStart with state := .held })
    simp only [Part.takeTimed, Part.takeWindowStart, Part.deriveBayOf]
    split
    · exact .trans held (Part.derive_inMinute _ _)
    · exact held
  | graceEnd s =>
    obtain ⟨r, hr, test⟩ := Part.pendingFor_record due
    exact Part.closeRecord_inMinute hr (fun e => by simp [e] at test) (fun e => by simp [e] at test) _ _
  | windowEnd s =>
    obtain ⟨r, hr, test⟩ := Part.pendingFor_record due
    simp only [Bool.and_eq_true] at test
    exact Part.takeWindowEnd_inMinute hr test.1.1
  | deadline s =>
    obtain ⟨r, hr, test⟩ := Part.pendingFor_record due
    exact Part.closeRecord_inMinute hr (fun e => by simp [e] at test) (fun e => by simp [e] at test) _ _
  | verify b => exact .trans (q := p.modBay b _) (.of_eq rfl rfl) (Part.derive_inMinute _ b)
  | idle a =>
    simp only [Part.takeTimed, Part.takeIdleTimer]
    split
    · exact .of_eq rfl rfl
    · exact .of_eq rfl rfl
  | rollover =>
    have advanced : Part.InMinute p { p with clock := { p.clock with
        lastDay := some (dayNumber p.settings.rolloverMinute p.now) } } := ⟨rfl, rfl⟩
    exact .trans advanced (Part.clearTallies_inMinute _)

theorem Part.TakesDue.inMinute {n : Nat} (h : Part.TakesDue n p q) : Part.InMinute p q := by
  induction h with
  | none p => exact .refl p
  | take n p e choices q due _ ih =>
    have taken := Part.takeTimed_inMinute { p with choices := choices } e ((p.isDue_choices choices e).trans due)
    have chosen : Part.InMinute p { p with choices := choices } := .of_eq rfl rfl
    exact .trans chosen (.trans taken (.trans (.of_tidies (Part.finish_tidies _)) ih))

theorem Part.TakesDue.moves {n : Nat} (h : Part.TakesDue n p q) : Part.Moves true p q := by
  induction h with
  | none p => exact .refl p
  | take n p e choices q due _ ih =>
    have taken : Part.Moves true { p with choices := choices } _ :=
      Part.takeTimed_moves _ e ((p.isDue_choices choices e).trans due) (fun _ => rfl)
    exact .trans (.choices p choices) (.trans taken (.trans (Part.finish_moves _) ih))

theorem Part.TakesDue.settled {n : Nat} (h : Part.TakesDue n p q) (hp : p.work = .empty) : q.work = .empty := by
  induction h with
  | none p => exact hp
  | take n p e choices q due _ ih => exact ih (Part.finish_work _)

/-- The events of a minute leave the clock but for its rollover day, and none of them is outstanding afterwards. -/
theorem Part.TakesMinute.inMinute (h : p.TakesMinute q) :
    Part.InMinute { p with outstanding := { p.outstanding with minute := false } } q := by
  obtain ⟨n, takes, _⟩ := h
  exact .trans (.of_tidies (Part.touchActive_tidies (linked := false) _))
    (.trans (.of_tidies (Part.finish_tidies _)) takes.inMinute)

/-- The events of a minute change no configuration (R1, R11, R15, R50, R53, R174). -/
theorem Part.TakesMinute.sameConfig (h : p.TakesMinute q) : p.SameConfig q := by
  obtain ⟨n, takes, _⟩ := h
  have moves : Part.Moves true p q :=
    .trans (.trans (.outstanding p _) (.trans (Part.touchActive_moves _) (Part.finish_moves _))) takes.moves
  exact moves.sameConfig

theorem Part.TakesMinute.settled (h : p.TakesMinute q) : q.work = .empty := by
  obtain ⟨n, takes, _⟩ := h
  exact takes.settled (Part.finish_work _)

end

/-! ## The end of a command leaves the clock and what is outstanding -/

theorem State.chooseRecord_outstanding (s : State) : s.chooseRecord.part.outstanding = s.part.outstanding := by
  have rule : s.chooseRule.part.outstanding = s.part.outstanding := by
    unfold State.chooseRule
    split <;> rfl
  have bay : s.chooseBay.part.outstanding = s.part.outstanding := by
    unfold State.chooseBay
    split
    · rfl
    · exact rule
  have feeder : s.chooseFeeder.part.outstanding = s.part.outstanding := by
    unfold State.chooseFeeder
    split
    · rfl
    · exact bay
  have post : s.choosePost.part.outstanding = s.part.outstanding := by
    unfold State.choosePost
    split
    · rfl
    · exact feeder
  unfold State.chooseRecord
  split
  · exact (s.part.modRecord_inMinute _ _).outstanding
  · exact post

theorem State.kick_outstanding (s : State) : s.kick.part.outstanding = s.part.outstanding := by
  unfold State.kick State.choose State.chooseClose
  split
  · rfl
  · split
    · rfl
    · split
      · rfl
      · exact s.chooseRecord_outstanding

@[simp] theorem State.complete_outstanding (s : State) : s.complete.part.outstanding = s.part.outstanding :=
  (State.kick_outstanding _).trans s.part.finish_tidies.outstanding

@[simp] theorem State.complete_clock (s : State) : s.complete.part.clock = s.part.clock := s.complete_moves.clock_eq

@[simp] theorem State.complete_time (s : State) : s.complete.part.time = s.part.time :=
  (s.complete_moves (timed := false)).time

/-! ## The tick (R19) -/

theorem Part.flushTicks_clock (p : Part) : p.flushTicks.clock = p.clock := by
  have taken : ∀ f ∈ [Part.sessionTick, Part.shareTick], ∀ u : Part, Part.Moves false u (f u).finish := by
    intro f hf u
    simp only [List.mem_cons, List.not_mem_nil, or_false] at hf
    rcases hf with rfl | rfl
    · exact .trans u.sessionTick_moves (Part.finish_moves _)
    · exact .trans u.shareTick_moves (Part.finish_moves _)
  unfold Part.flushTicks
  split
  · obtain ⟨k, hk⟩ := p.inFreeOrder_part [Part.sessionTick, Part.shareTick]
    have hm := p.inFreeOrder_mem [Part.sessionTick, Part.shareTick]
    generalize p.inFreeOrder [Part.sessionTick, Part.shareTick] = c at hk hm
    obtain ⟨order, q⟩ := c
    cases hk
    exact Part.Moves.clock_eq (.trans (.choices p k) (Part.Moves.foldl order (fun u f hf => taken f (hm f hf) u) _))
  · split
    · exact (taken _ (by simp) p).clock_eq
    · split
      · exact (taken _ (by simp) p).clock_eq
      · rfl

theorem Part.nextMinute_of_lt {p : Part} (h : p.clock.minute < 4294967295) :
    p.nextMinute = { p with clock := { p.clock with minute := p.clock.minute + 1 } } := by
  unfold Part.nextMinute
  rw [if_pos (show p.clock.minute < Config.largestMinute from h)]

/-- The events still outstanding are taken in the minute that stands (log 3). -/
theorem Part.flushMinute_second (p : Part) : p.flushMinute.clock.second = p.clock.second := by
  unfold Part.flushMinute
  split
  · exact p.minuteEvents_takesMinute.inMinute.second
  · rfl

section
variable {p : Part}

theorem Part.advanceSecond_of_lt (h : p.clock.second < 59) :
    p.advanceSecond = { p with clock := { p.clock with second := p.clock.second + 1 } } := if_pos h

theorem Part.advanceSecond_unset (h : ¬ p.clock.second < 59) (unset : p.clock.set = false) :
    p.advanceSecond = { p with clock := { p.clock with second := 0 } } := by
  simp [Part.advanceSecond, h, unset]

/-- The wrap of the second count with the clock SET begins a minute, whose events are outstanding (R19). -/
theorem Part.advanceSecond_wraps (h : ¬ p.clock.second < 59) (set' : p.clock.set = true)
    (room : p.clock.minute < 4294967295) :
    p.advanceSecond.clock.second = 0 ∧ p.advanceSecond.clock.set = true ∧
      p.advanceSecond.clock.minute = p.clock.minute + 1 ∧ p.advanceSecond.outstanding.minute = true := by
  let wrapped := { p with clock := { p.clock with second := 0 } }
  obtain ⟨minute, stays⟩ := wrapped.flushMinute_minute
  have second := wrapped.flushMinute_second
  have next := Part.nextMinute_of_lt (p := wrapped.flushMinute) (minute ▸ room)
  have advanced : p.advanceSecond = { wrapped.flushMinute.nextMinute with
      outstanding := { wrapped.flushMinute.nextMinute.outstanding with minute := true } } := by
    simp only [Part.advanceSecond, h, set', if_false, if_true, wrapped]
  rw [advanced, next]
  exact ⟨second, stays.trans set', congrArg (· + 1) minute, rfl⟩

end

/-! ## The idle conditions to evaluate (R161) -/

/-- A touched post joins those whose idle condition is to be evaluated, and nothing else changes. -/
theorem Part.touchPost_eq (p : Part) (a : PostId) :
    ∃ idle, p.touchPost a = { p with work := { p.work with idle := idle } } ∧
      ∀ q, q ∈ idle ↔ q ∈ p.work.idle ∨ q = a := by
  unfold Part.touchPost
  split
  · next known => exact ⟨p.work.idle, rfl, fun q => ⟨.inl, fun h => h.elim id (fun e => e ▸ known)⟩⟩
  · exact ⟨p.work.idle ++ [a], rfl, by simp⟩

/-- The ACTIVE posts of a list are touched, and nothing else changes. -/
theorem Part.touchActive_walk (l : List PostId) (p : Part) :
    ∃ idle, l.foldl (fun p q => if (p.post q).link = .active then p.touchPost q else p) p =
        { p with work := { p.work with idle := idle } } ∧
      ∀ q, q ∈ idle ↔ q ∈ p.work.idle ∨ (q ∈ l ∧ (p.post q).link = .active) := by
  induction l generalizing p with
  | nil => exact ⟨p.work.idle, rfl, by simp⟩
  | cons a l ih =>
    rw [List.foldl_cons]
    by_cases active : (p.post a).link = .active
    · obtain ⟨first, touched, new⟩ := p.touchPost_eq a
      rw [if_pos active, touched]
      obtain ⟨idle, walk, mem⟩ := ih { p with work := { p.work with idle := first } }
      refine ⟨idle, walk, fun q => (mem q).trans ?_⟩
      show q ∈ first ∨ (q ∈ l ∧ (p.post q).link = .active) ↔ _
      rw [new, List.mem_cons]
      grind
    · rw [if_neg active]
      obtain ⟨idle, walk, mem⟩ := ih p
      refine ⟨idle, walk, fun q => (mem q).trans ?_⟩
      rw [List.mem_cons]
      grind

theorem Part.touchActive_eq (p : Part) :
    ∃ idle, p.touchActive = { p with work := { p.work with idle := idle } } ∧
      ∀ q, q ∈ idle ↔ q ∈ p.work.idle ∨ (p.post q).link = .active := by
  obtain ⟨idle, walk, mem⟩ := Part.touchActive_walk allPosts p
  exact ⟨idle, walk, fun q => (mem q).trans (by simp [allPosts, allBelow, List.mem_finRange])⟩

/-! ## TICK and MINUTE_EVENT (R19) -/

/-- The second count of a tick, and the minute count that its wrap advances while the clock is SET. -/
theorem Part.tick_clock {p : Part} (second : p.clock.second ≤ 59) (room : p.clock.minute < 4294967295) :
    p.tick.clock.second = (if p.clock.second = 59 then 0 else p.clock.second + 1) ∧
      p.tick.clock.set = p.clock.set ∧
      p.tick.clock.minute =
        (if p.clock.set = true ∧ p.clock.second = 59 then p.clock.minute + 1 else p.clock.minute) ∧
      (p.clock.set = true → p.clock.second = 59 → p.tick.outstanding.minute = true) := by
  have flushed := p.flushTicks_clock
  show p.flushTicks.advanceSecond.clock.second = _ ∧ p.flushTicks.advanceSecond.clock.set = _ ∧
    p.flushTicks.advanceSecond.clock.minute = _ ∧ (_ → _ → p.flushTicks.advanceSecond.outstanding.minute = true)
  rw [← flushed] at second room ⊢
  generalize p.flushTicks = u at second room ⊢
  by_cases lt : u.clock.second < 59
  · have ne : u.clock.second ≠ 59 := Nat.ne_of_lt lt
    simp [Part.advanceSecond_of_lt lt, ne]
  · have wraps : u.clock.second = 59 := by omega
    cases set' : u.clock.set with
    | false => simp [Part.advanceSecond_unset lt set', wraps, set']
    | true => simp [Part.advanceSecond_wraps lt set' room, wraps]

theorem execTick_gives (time : Nat) (s : State) :
    exec (.tick time) s = .next (s.withPart (s.part.at time).tick).complete := rfl

theorem execMinuteEvent_gives {s : State} {q : Part} (h : s.part.minuteEvent = q) :
    exec .minuteEvent s = .next (s.withPart q).complete := by
  subst h
  rfl

/-- A minute event that takes the events of a minute, through the completion of the command. -/
theorem execMinuteEvent_takes {s : State} {p : Part} (h : s.part.minuteEvent = p.minuteEvents) :
    ∃ q t, p.TakesMinute q ∧ t = (s.withPart q).complete ∧ exec .minuteEvent s = .next t ∧
      t.part.clock.minute = p.clock.minute ∧ t.part.clock.second = p.clock.second ∧
      t.part.outstanding.minute = false ∧ p.SameConfig t.part := by
  have takes := p.minuteEvents_takesMinute
  rw [← h] at takes
  have gives := execMinuteEvent_gives (s := s) rfl
  generalize s.part.minuteEvent = q at takes gives
  refine ⟨q, _, takes, rfl, gives, ?_⟩
  rw [State.complete_clock, State.complete_outstanding]
  have completed : Part.KeepsConfig true p (s.withPart q).complete.part :=
    .trans ⟨takes.sameConfig, nofun⟩ (.moves (s.withPart q).complete_moves)
  exact ⟨takes.inMinute.minute, takes.inMinute.second, congrArg Outstanding.minute takes.inMinute.outstanding,
    completed.config⟩

section
variable {p : Part}

theorem Part.minuteEvent_unset (unset : p.clock.set = false) : p.minuteEvent = p := by
  simp [Part.minuteEvent, unset]

theorem Part.minuteEvent_none (taken : p.outstanding.minute = false) (second : p.clock.second ≠ 59) :
    p.minuteEvent = p := by
  simp [Part.minuteEvent, taken, second]

theorem Part.minuteEvent_outstanding (set' : p.clock.set = true) (outstanding : p.outstanding.minute = true) :
    p.minuteEvent = p.minuteEvents := by
  simp [Part.minuteEvent, set', outstanding]

theorem Part.minuteEvent_advances (set' : p.clock.set = true) (taken : p.outstanding.minute = false)
    (second : p.clock.second = 59) (room : p.clock.minute < 4294967295) :
    p.minuteEvent =
      Part.minuteEvents { p with clock := { p.clock with minute := p.clock.minute + 1, second := 0 } } := by
  have next := Part.nextMinute_of_lt (p := { p with clock := { p.clock with second := 0 } }) room
  unfold Part.minuteEvent
  rw [if_neg (by simp [set']), if_neg (by simp [taken]), if_pos second]
  exact congrArg Part.minuteEvents next

end

/-- Settles O41: the tick by `Part.tick_clock`, the minute event by what the events of a minute leave alone
(`Part.TakesMinute.inMinute`), both through the completion of the command. -/
theorem tickAndMinuteMoveTheClock : Obligations.TickAndMinuteMoveTheClock := by
  unfold Obligations.TickAndMinuteMoveTheClock
  refine ⟨fun s time second room => ⟨_, execTick_gives time s, ?time, ?tick⟩,
    fun s => ⟨fun unset => ?unset, fun _ taken second => ?none, fun set' outstanding => ?outstanding,
      fun set' taken second room => ?advances⟩,
    fun p => ?touched⟩
  case time =>
    rw [State.complete_time]
    exact (Part.tick_moves _).time
  case tick =>
    rw [State.complete_clock, State.complete_outstanding]
    obtain ⟨second', set', minute', events⟩ := Part.tick_clock (p := s.part.at time) second room
    exact ⟨second', set', minute', events, rfl, rfl⟩
  case unset => exact execMinuteEvent_gives (Part.minuteEvent_unset unset)
  case none => exact execMinuteEvent_gives (Part.minuteEvent_none taken second)
  case outstanding => exact execMinuteEvent_takes (Part.minuteEvent_outstanding set' outstanding)
  case advances =>
    obtain ⟨q, t, takes, rfl, gives, minute, second', none, config⟩ :=
      execMinuteEvent_takes (Part.minuteEvent_advances set' taken second room)
    exact ⟨q, _, takes, rfl, gives, minute, second', none,
      ⟨config.settings, config.lanes, config.bay, config.feeder, config.post, config.rule⟩⟩
  case touched =>
    obtain ⟨idle, touched, mem⟩ := p.touchActive_eq
    rw [touched]
    exact ⟨rfl, mem⟩

/-! ## Walks that write each entry of a table for itself -/

/-- A walk whose every step writes the entry of its own index, by a change that takes no effect a second time and that
reads nothing but a view which the walk leaves alone, changes the entries of its list. -/
theorem foldl_entry {ι α β γ : Type} [DecidableEq ι] (entry : β → ι → α) (view : β → γ) {f : β → ι → β}
    {g : ι → α → α} {c : γ} (view_step : ∀ p i, view (f p i) = view p)
    (entry_step : ∀ p, view p = c → ∀ i j, entry (f p i) j = if j = i then g i (entry p i) else entry p j)
    (once : ∀ i x, g i (g i x) = g i x) (l : List ι) (p : β) (hp : view p = c) (j : ι) :
    entry (l.foldl f p) j = if j ∈ l then g j (entry p j) else entry p j := by
  induction l generalizing p with
  | nil => rfl
  | cons i l ih =>
    rw [List.foldl_cons, ih _ ((view_step p i).trans hp), entry_step p hp i j]
    by_cases e : j = i
    · subst e
      simp [once]
    · simp [e]

theorem Part.setBay_self (p : Part) (b : BayId) : p.setBay b (p.bay b) = p := by
  simp [Part.setBay, Part.bay, Vector.get]

theorem Part.setPost_self (p : Part) (q : PostId) : p.setPost q (p.post q) = p := by
  simp [Part.setPost, Part.post, Vector.get]

/-! ## The running verify timers when the clock is SET (R20) -/

/-- A running verify timer with a new due minute. -/
def VerifyTimer.restarted (due : Nat) : VerifyTimer → VerifyTimer
  | .running _ => .running due
  | .idle => .idle
  | .expired => .expired

/-- The step of CLOCK-SET from UNSET on the verify timer of one bay. -/
def Part.restartVerify (minute : Nat) (q : Part) (b : BayId) : Part :=
  match (q.bay b).verify with
  | .running _ => q.modBay b (fun x => { x with verify := .running (minute + q.settings.verifyWindow) })
  | .idle | .expired => q

theorem Part.restartVerify_eq (minute : Nat) (q : Part) (b : BayId) :
    q.restartVerify minute b =
      q.modBay b (fun x => { x with verify := x.verify.restarted (minute + q.settings.verifyWindow) }) := by
  have same (v : VerifyTimer) (hv : (q.bay b).verify = v) : q = q.setBay b { q.bay b with verify := v } := by
    rw [← hv]
    exact (q.setBay_self b).symm
  show _ = q.setBay b { q.bay b with verify := (q.bay b).verify.restarted (minute + q.settings.verifyWindow) }
  unfold Part.restartVerify
  cases hv : (q.bay b).verify with
  | running due => rfl
  | idle => exact same _ hv
  | expired => exact same _ hv

theorem Part.restartVerify_besides (minute : Nat) (bays : Vector Bay 64) (q : Part) (b : BayId) :
    { q.restartVerify minute b with bays := bays } = { q with bays := bays } := by
  rw [Part.restartVerify_eq]
  rfl

/-- The part with every running verify timer restarted at a minute. -/
def Part.restarted (p : Part) (minute : Nat) : Part := allBays.foldl (Part.restartVerify minute) p

theorem Part.restarted_bay (p : Part) (minute : Nat) (b : BayId) :
    (p.restarted minute).bay b =
      { p.bay b with verify := (p.bay b).verify.restarted (minute + p.settings.verifyWindow) } := by
  refine (foldl_entry Part.bay Part.settings (c := p.settings)
    (g := fun _ x => { x with verify := x.verify.restarted (minute + p.settings.verifyWindow) })
    (fun q b => ?_) (fun q hq b j => ?_) (fun _ x => ?_) allBays p rfl b).trans (if_pos (List.mem_finRange b))
  · rw [Part.restartVerify_eq]
    rfl
  · rw [Part.restartVerify_eq, hq]
    exact Part.bay_modBay q b _ j
  · cases x.verify <;> rfl

theorem Part.restarted_besides (p : Part) (minute : Nat) : { p.restarted minute with bays := p.bays } = p :=
  foldl_view (fun q : Part => { q with bays := p.bays }) (Part.restartVerify_besides minute p.bays) allBays p

/-! ## The evaluation of idle conditions (R161) -/

/-- A post after its idle condition has been evaluated. -/
def Post.idled (holds set : Bool) (due : Nat) (x : Post) : Post :=
  if x.link = .active then
    match x.timer with
    | .idle _ => if holds then x else { x with timer := .stopped }
    | .stopped | .prepare _ | .wake _ => if holds && set then { x with timer := .idle due } else x
  else x

theorem Post.idled_idled (holds set : Bool) (due : Nat) (x : Post) :
    (x.idled holds set due).idled holds set due = x.idled holds set due := by
  by_cases active : x.link = .active
  · cases holds <;> cases set <;> cases timer : x.timer <;> simp [Post.idled, active, timer]
  · simp [Post.idled, active]

/-- While the clock is SET an ACTIVE post whose idle timer does not run starts it when its idle condition holds. -/
theorem Post.idled_starts {x : Post} (active : x.link = .active) (stopped : ∀ due, x.timer ≠ .idle due) (holds : Bool)
    (due : Nat) : (x.idled holds true due).timer = if holds = true then .idle due else x.timer := by
  cases timer : x.timer with
  | idle m => exact absurd timer (stopped m)
  | _ => cases holds <;> simp [Post.idled, active, timer]

theorem Part.evalIdle_eq (p : Part) (a : PostId) :
    p.evalIdle a = p.modPost a (Post.idled (p.idleHolds a) p.clock.set (p.now + p.settings.idleTime)) := by
  unfold Part.evalIdle Post.idled Part.modPost
  by_cases active : (p.post a).link = .active
  · cases timer : (p.post a).timer with
    | idle due => cases p.idleHolds a <;> simp [active, timer, Part.setPost_self]
    | _ => cases p.idleHolds a <;> cases p.clock.set <;> simp [active, timer, Part.setPost_self]
  · simp [active, Part.setPost_self]

theorem Part.evalIdle_besides (posts : Vector Post 32) (p : Part) (a : PostId) :
    { p.evalIdle a with posts := posts } = { p with posts := posts } := by
  rw [Part.evalIdle_eq]
  rfl

theorem Part.evalIdles_post (l : List PostId) (p : Part) (q : PostId) :
    (l.foldl Part.evalIdle p).post q = if q ∈ l then
      (p.post q).idled (p.idleHolds q) p.clock.set (p.now + p.settings.idleTime) else p.post q := by
  refine foldl_entry Part.post (fun u : Part => { u with posts := p.posts }) (c := p)
    (g := fun q x => x.idled (p.idleHolds q) p.clock.set (p.now + p.settings.idleTime))
    (Part.evalIdle_besides p.posts) (fun u hu a j => ?_) (fun _ _ => Post.idled_idled _ _ _ _) l p rfl q
  rw [u.evalIdle_eq, ← hu]
  exact Part.post_modPost u a _ j

theorem Part.evalIdles_besides (l : List PostId) (p : Part) : { l.foldl Part.evalIdle p with posts := p.posts } = p :=
  foldl_view (fun u : Part => { u with posts := p.posts }) (Part.evalIdle_besides p.posts) l p

/-- A completion with nothing but the ACTIVE posts' idle conditions to evaluate. -/
theorem Part.touchActive_finish {p : Part} (settled : p.work = .empty) :
    { p.touchActive.finish with posts := p.posts } = p ∧
      ∀ q, (p.post q).link = .active → p.touchActive.finish.post q =
        (p.post q).idled (p.idleHolds q) p.clock.set (p.now + p.settings.idleTime) := by
  obtain ⟨idle, touched, mem⟩ := p.touchActive_eq
  have alone : { p with work := .empty } = p := by rw [← settled]
  have finished : p.touchActive.finish = { idle.foldl Part.evalIdle p with work := .empty } := by
    rw [touched, settled, Part.finish_idle _ rfl rfl rfl rfl]
    dsimp only
    rw [alone]
  have besides := Part.evalIdles_besides idle p
  rw [finished]
  refine ⟨?_, fun q active => ?_⟩
  · exact (congrArg (fun u : Part => { u with work := .empty }) besides).trans alone
  · exact (Part.evalIdles_post idle p q).trans (if_pos ((mem q).2 (.inr active)))

/-! ## CLOCK-SET from UNSET (R20, R161) -/

/-- The part as CLOCK-SET from UNSET leaves its clock and its verify timers. -/
def Part.clockStarted (p : Part) (minute second : Nat) : Part :=
  Part.restarted { p with
    clock := ⟨true, minute, second, some (dayNumber p.settings.rolloverMinute minute)⟩
    outstanding := { p.outstanding with minute := false } } minute

theorem Part.setFromUnset_eq (p : Part) (minute second : Nat) :
    p.setFromUnset minute second = (p.clockStarted minute second).touchActive := rfl

/-- What CLOCK-SET from UNSET leaves, its completion included. -/
structure Part.StartsClock (p : Part) (minute second : Nat) (q : Part) : Prop where
  clock : q.clock = ⟨true, minute, second, some (dayNumber p.settings.rolloverMinute minute)⟩
  verify (b : BayId) : (q.bay b).verify = (p.bay b).verify.restarted (minute + p.settings.verifyWindow)
  idle (a : PostId) : (p.post a).link = .active → (∀ due, (p.post a).timer ≠ .idle due) →
    (q.post a).timer = if q.idleHolds a = true then .idle (minute + p.settings.idleTime) else (p.post a).timer
  besides : q.pool = p.pool ∧ q.feeders = p.feeders ∧ q.rules = p.rules ∧ q.lanes = p.lanes ∧ q.settings = p.settings

theorem Part.setFromUnset_startsClock {p : Part} (settled : p.work = .empty) (minute second : Nat) :
    p.StartsClock minute second (p.setFromUnset minute second).finish := by
  let set' := { p with
    clock := ⟨true, minute, second, some (dayNumber p.settings.rolloverMinute minute)⟩
    outstanding := { p.outstanding with minute := false } }
  have verify : ∀ b, (p.clockStarted minute second).bay b =
      { p.bay b with verify := (p.bay b).verify.restarted (minute + p.settings.verifyWindow) } :=
    set'.restarted_bay minute
  have restarted : { p.clockStarted minute second with bays := p.bays } = set' := set'.restarted_besides minute
  rw [Part.setFromUnset_eq]
  generalize p.clockStarted minute second = u at verify restarted ⊢
  have started {α : Type} (f : Part → α) : f { u with bays := p.bays } = f set' := congrArg f restarted
  have work : u.work = .empty := (started Part.work).trans settled
  obtain ⟨besides, posts⟩ := Part.touchActive_finish work
  generalize u.touchActive.finish = q at besides posts ⊢
  have kept {α : Type} (f : Part → α) : f { q with posts := u.posts } = f u := congrArg f besides
  have post (a : PostId) : u.post a = p.post a := started (fun w => w.post a)
  have clock : u.clock = set'.clock := started Part.clock
  have now : u.now = minute := started Part.now
  have settings : u.settings = p.settings := started Part.settings
  refine ⟨(kept Part.clock).trans clock, fun b => ?_, fun a active stopped => ?_,
    (kept Part.pool).trans (started Part.pool), (kept Part.feeders).trans (started Part.feeders),
    (kept Part.rules).trans (started Part.rules), (kept Part.lanes).trans (started Part.lanes),
    (kept Part.settings).trans settings⟩
  · exact congrArg Bay.verify ((kept (fun w => w.bay b)).trans (verify b))
  · have holds : q.idleHolds a = u.idleHolds a := kept (fun w => w.idleHolds a)
    rw [← post] at active stopped ⊢
    rw [posts a active, holds, now, settings, clock]
    exact Post.idled_starts active stopped _ _

/-! ## CLOCK-SET with the clock SET (R21, R22) -/

section
variable {p q : Part} {n : Nat}

theorem Part.PassesMinutes.clock (h : Part.PassesMinutes n p q) :
    q.clock.minute = p.clock.minute + n ∧ q.clock.set = p.clock.set := by
  induction h with
  | none p => exact ⟨rfl, rfl⟩
  | minute n p q r takes _ ih =>
    have minute : q.clock.minute = p.clock.minute + 1 := takes.inMinute.minute
    exact ⟨by rw [ih.1, minute]; omega, ih.2.trans takes.inMinute.set⟩

theorem Part.PassesMinutes.settled (h : Part.PassesMinutes n p q) (hp : p.work = .empty) : q.work = .empty := by
  induction h with
  | none p => exact hp
  | minute n p q r takes _ ih => exact ih takes.settled

theorem Part.flushMinute_cases (p : Part) :
    (p.outstanding.minute = true → p.TakesMinute p.flushMinute) ∧
      (p.outstanding.minute = false → p.flushMinute = p) := by
  refine ⟨fun outstanding => ?_, fun none => ?_⟩
  · unfold Part.flushMinute
    rw [if_pos outstanding]
    exact p.minuteEvents_takesMinute
  · exact if_neg (by simp [none])

theorem Part.flushMinute_settled (settled : p.work = .empty) : p.flushMinute.work = .empty := by
  obtain ⟨takes, stays⟩ := p.flushMinute_cases
  cases h : p.outstanding.minute with
  | true => exact (takes h).settled
  | false => rw [stays h]; exact settled

/-- A step back drops the outstanding events of the minute it leaves, a step of 0 keeps them (R22, log 5). -/
theorem Part.stepClock_back {minute : Nat} (h : minute ≤ p.clock.minute) (second : Nat) :
    p.stepClock minute second = { p with
      clock := { p.clock with minute := minute, second := second }
      outstanding := if minute < p.clock.minute then { p.outstanding with minute := false } else p.outstanding } := by
  unfold Part.stepClock
  by_cases lt : minute < p.clock.minute
  · simp only [if_pos lt]
  · have same : minute = p.clock.minute := by omega
    subst same
    simp only [if_neg lt, if_true]

/-- A step forward passes minute by minute, after the events still outstanding (R21, log 5). -/
theorem Part.stepClock_forward {minute second : Nat} (h : p.clock.minute < minute)
    (room : minute ≤ Config.largestMinute) :
    ∃ q, Part.PassesMinutes (minute - p.clock.minute) p.flushMinute q ∧
      p.stepClock minute second = { q with clock := { q.clock with second := second } } := by
  refine ⟨_, Part.stepForward_passesMinutes _ _ ?_, ?_⟩
  · rw [(Part.flushMinute_minute p).1]
    omega
  · unfold Part.stepClock
    simp only [if_neg (show ¬ minute < p.clock.minute by omega), if_neg (show ¬ minute = p.clock.minute by omega)]

/-! ## The request CLOCK-SET (R20 to R22) -/

variable {minute second : Nat}

theorem Part.clockSetRequest_range (h : 4000000000 < minute ∨ 59 < second) :
    Part.clockSetRequest (minute, second) p = (⟨.range, []⟩, p) := by
  simp [Part.clockSetRequest, Config.largestClockSet, Status.alone, h]

theorem Part.clockSetRequest_unset (hm : minute ≤ 4000000000) (hs : second ≤ 59) (unset : p.clock.set = false) :
    Part.clockSetRequest (minute, second) p = (⟨.ok, []⟩, p.setFromUnset minute second) := by
  simp [Part.clockSetRequest, Config.largestClockSet, Answer.ok, Nat.not_lt.2 hm, Nat.not_lt.2 hs, unset]

theorem Part.clockSetRequest_step (hm : minute ≤ 4000000000) (hs : second ≤ 59) (set' : p.clock.set = true)
    (h : p.clock.minute + 10 < minute ∨ minute + 10 < p.clock.minute) :
    Part.clockSetRequest (minute, second) p = (⟨.clockStep, []⟩, p) := by
  simp [Part.clockSetRequest, Config.largestClockSet, Status.alone, Nat.not_lt.2 hm, Nat.not_lt.2 hs, set', h]

theorem Part.clockSetRequest_set (hm : minute ≤ 4000000000) (hs : second ≤ 59) (set' : p.clock.set = true)
    (forward : minute ≤ p.clock.minute + 10) (back : p.clock.minute ≤ minute + 10) :
    Part.clockSetRequest (minute, second) p = (⟨.ok, []⟩, p.stepClock minute second) := by
  simp [Part.clockSetRequest, Config.largestClockSet, Answer.ok, Nat.not_lt.2 hm, Nat.not_lt.2 hs, set',
    Nat.not_lt.2 forward, Nat.not_lt.2 back]

end

theorem Rd.u32_bytes (b3 b2 b1 b0 : Byte) (l : List Byte) :
    Rd.u32 (b3 :: b2 :: b1 :: b0 :: l) =
      some (b3.toNat * 16777216 + b2.toNat * 65536 + b1.toNat * 256 + b0.toNat, l) := by
  have sum (a b c d : Nat) :
      (a * 256 + b) * 65536 + (c * 256 + d) = a * 16777216 + b * 65536 + c * 256 + d := by ring
  exact congrArg (fun n => some (n, l)) (sum b3.toNat b2.toNat b1.toNat b0.toNat)

section
variable {s : State} {f : Frame} {rest : List Frame} {m3 m2 m1 m0 sec : Byte} {m : Nat} {a : Answer} {p : Part}

/-- CLOCK-SET gives what `Part.clockSetRequest` gives, completed. -/
theorem execClockSet_gives (asks : s.Asks .clockSet [m3, m2, m1, m0, sec] f rest)
    (hm : m3.toNat * 16777216 + m2.toNat * 65536 + m1.toNat * 256 + m0.toNat = m)
    (h : Part.clockSetRequest (m, sec.toNat) s.part = (a, p)) :
    exec .clockSet s = .next (s.replied rest f a p.finish) := by
  have read : Rd.clockSet.all [m3, m2, m1, m0, sec] = some (m, sec.toNat) := by
    simp [Rd.clockSet, Rd.all, bind, StateT.bind, Rd.u32_bytes, Rd.u8, pure, StateT.pure, hm]
  exact State.serve_gives asks rfl read h

/-- The same, where the request leaves nothing to complete. -/
theorem execClockSet_settled (asks : s.Asks .clockSet [m3, m2, m1, m0, sec] f rest)
    (hm : m3.toNat * 16777216 + m2.toNat * 65536 + m1.toNat * 256 + m0.toNat = m)
    (h : Part.clockSetRequest (m, sec.toNat) s.part = (a, p)) (settled : p.work = .empty) :
    exec .clockSet s = .next (s.replied rest f a p) := by
  rw [execClockSet_gives asks hm h, p.finish_of_settled settled]

end

/-- Settles O17: the outcomes of `Part.clockSetRequest`; from UNSET what `Part.StartsClock` lists, a step back or of 0
by `Part.stepClock_back`, a step forward minute by minute by `Part.stepClock_forward`. -/
theorem clockSetMovesTheClock : Obligations.ClockSetMovesTheClock := by
  unfold Obligations.ClockSetMovesTheClock
  intro s f rest m3 m2 m1 m0 sec settled asks m now
  have hm : m3.toNat * 16777216 + m2.toNat * 65536 + m1.toNat * 256 + m0.toNat = m := rfl
  clear_value m
  subst now
  refine ⟨fun range => ?range, fun mr sr set' far => ?step, fun mr sr unset => ?unset,
    fun mr sr set' back near => ?back, fun mr sr set' ahead near => ?forward⟩
  case range => exact execClockSet_settled asks hm (Part.clockSetRequest_range range) settled
  case step => exact execClockSet_settled asks hm (Part.clockSetRequest_step mr sr set' far) settled
  case unset =>
    have starts := Part.setFromUnset_startsClock settled m sec.toNat
    refine ⟨_, execClockSet_gives asks hm (Part.clockSetRequest_unset mr sr unset), starts.clock, fun b => ?_,
      starts.idle, starts.besides⟩
    rw [starts.verify]
    cases (s.part.bay b).verify <;> rfl
  case back =>
    have request := Part.clockSetRequest_set mr sr set' (by omega) near
    rw [Part.stepClock_back back] at request
    exact execClockSet_settled asks hm request settled
  case forward =>
    have request := Part.clockSetRequest_set mr sr set' near (by omega)
    have room : m ≤ Config.largestMinute := Nat.le_trans mr (by decide)
    have config := (s.part.stepClock_moves m sec.toNat room sr).sameConfig
    obtain ⟨q, passes, stepped⟩ := Part.stepClock_forward (second := sec.toNat) ahead room
    rw [stepped] at request config
    obtain ⟨minute, stays⟩ := passes.clock
    obtain ⟨flushed, flushedSet⟩ := s.part.flushMinute_minute
    obtain ⟨outstanding, none⟩ := s.part.flushMinute_cases
    have settled' : q.work = .empty := passes.settled (Part.flushMinute_settled settled)
    refine ⟨_, q, _, outstanding, none, passes, rfl, execClockSet_settled asks hm request settled', ?_, ?_, rfl, config⟩
    · exact stays.trans (flushedSet.trans set')
    · show q.clock.minute = m
      omega

end Sys2Proof.Machine

namespace Sys2Proof.Machine

/-! ## O54: what one step keeps of the pool -/

/-- A step takes the front command on a machine that differs from `s` in its queue alone; an idle step changes nothing. -/
theorem step_cases {s t : State} (h : step s = .next t) :
    (s.pending = [] ∧ t = s) ∨
    ∃ (c : Instr) (rest : List Instr), s.pending = c :: rest ∧ exec c { s with pending := rest } = .next t := by
  unfold step at h
  cases hp : s.pending with
  | nil =>
    rw [hp] at h
    cases h
    exact .inl ⟨rfl, rfl⟩
  | cons c rest =>
    rw [hp] at h
    exact .inr ⟨c, rest, rfl, h⟩

/-- What every command keeps, whatever waits behind it, every step keeps. -/
theorem step_keeps {good : Part → Prop} {s t : State} (h : step s = .next t) (hs : good s.part)
    (keeps : ∀ (c : Instr) (u : State), u.part = s.part → exec c u = .next t → good t.part) : good t.part := by
  rcases step_cases h with ⟨_, rfl⟩ | ⟨c, rest, _, e⟩
  · exact hs
  · exact keeps c { s with pending := rest } rfl e

/-- The lengths of a partition's collections sum to the number of slots (R27). -/
theorem Pool.partitioned.lengths_sum {q : Pool} (hq : q.partitioned) :
    q.free.length + ((List.finRange 64).map (fun b => (q.chains.get b).length)).sum + q.waiting.length +
      q.closing.length = 192 := by
  have chains : ∀ s : SlotId, ((List.finRange 64).flatMap q.chains.get).count s =
      if ∃ b, q.homeOf s = .chain b then 1 else 0 := by
    intro s
    rw [List.count_flatMap, show (List.count s ∘ q.chains.get) = fun b => if q.homeOf s = .chain b then 1 else 0 from
      funext (fun b => hq s (.chain b)), ← Fin.sum_univ_def]
    cases hs : q.homeOf s <;> simp
  have perm : (q.free ++ (List.finRange 64).flatMap q.chains.get ++ q.waiting ++ q.closing).Perm (List.finRange 192) := by
    refine List.perm_iff_count.2 (fun s => ?_)
    have free := hq s .free
    have waiting := hq s .waiting
    have closing := hq s .closing
    simp only [Pool.members] at free waiting closing
    rw [List.count_append, List.count_append, List.count_append, chains, free, waiting, closing,
      List.count_eq_one_of_mem (List.nodup_finRange 192) (List.mem_finRange s)]
    cases q.homeOf s <;> simp
  simpa [List.length_flatMap, Nat.add_assoc] using perm.length_eq

/-! ### Coherent, chained and headed machines as steady parts -/

section
variable {s t : State}

theorem State.Coherent.steady (h : s.Coherent) : s.part.Steady 0 noBay where
  parts := h.parts
  bayed := h.bayed
  current b _ := h.current b
  chains k := absurd k (by decide)
  started k := absurd k (by decide)
  first k := absurd k (by decide)
  ahead k := absurd k (by decide)

theorem State.Chained.steady (h : s.Chained) : s.part.Steady 1 noBay :=
  { h.coherent.steady with
    chains := fun _ => h.chains
    started := fun k => absurd k (by decide)
    first := fun k => absurd k (by decide)
    ahead := fun k => absurd k (by decide) }

theorem State.Headed.steady (h : s.Headed) : s.part.Steady 2 noBay :=
  { h.chained.steady with
    chains := fun _ => h.chained.chains
    started := fun _ => h.started
    first := fun _ => h.first
    ahead := fun k => absurd k (by decide) }

theorem State.Headed.steady_ahead (h : s.Headed) (ahead : s.part.allRecords (Record.ahead s.part.now)) :
    s.part.Steady 3 noBay :=
  { h.steady with
    chains := fun _ => h.chained.chains
    started := fun _ => h.started
    first := fun _ => h.first
    ahead := fun _ => ahead }

variable {n : Nat}

theorem Part.Steady.coherent (h : s.part.Steady n noBay) (notice : s.noticeSound) : s.Coherent :=
  ⟨h.parts, h.bayed, fun b => h.current b id, notice⟩

theorem Part.Steady.chained (h : s.part.Steady n noBay) (notice : s.noticeSound) (level : 1 ≤ n) : s.Chained :=
  ⟨h.coherent notice, h.chains level⟩

theorem Part.Steady.headed (h : s.part.Steady n noBay) (notice : s.noticeSound) (level : 2 ≤ n) : s.Headed :=
  ⟨h.chained notice (Nat.le_of_succ_le level), h.started level, h.first level⟩

/-- A step of a coherent machine keeps a steady part and the CLOSE-NOTICE, where its command is one the level admits. -/
theorem step_steady (e : step s = .next t) (h : s.part.Steady n noBay) (notice : s.noticeSound)
    (level : ∀ c, s.pending.head? = some c → s.part.Admits n c) : t.part.Steady n noBay ∧ t.noticeSound := by
  rcases step_cases e with ⟨_, rfl⟩ | ⟨c, rest, hp, run⟩
  · exact ⟨h, notice⟩
  · have admits := level c (by rw [hp]; rfl)
    exact ⟨exec_steady (s := { s with pending := rest }) run h notice admits,
      exec_noticeSound (s := { s with pending := rest }) run h.parts notice⟩

theorem Part.admits_zero (p : Part) (c : Instr) : p.Admits 0 c where
  minute _ := ⟨by decide, fun k => absurd k (by decide)⟩
  others _ := by decide
  set _ := by decide
  arrive _ k := absurd k (by decide)
  near _ k := absurd k (by decide)
  retract _ k := absurd k (by decide)

theorem Part.admits_one {p : Part} {c : Instr} (arrive : c = .arrive → p.allRecords (Record.ahead p.now))
    (retract : c = .retract → p.allRecords Record.retractable) : p.Admits 1 c where
  minute _ := ⟨by decide, fun k => absurd k (by decide)⟩
  others _ := by decide
  set _ := by decide
  arrive k _ := arrive k
  near _ k := absurd k (by decide)
  retract k _ := retract k

theorem Part.admits_two {p : Part} {c : Instr} (minute : (∃ k, c = .tick k) ∨ c = .minuteEvent)
    (room : p.clock.minute < 4294967295) : p.Admits 2 c := by
  rcases minute with ⟨k, rfl⟩ | rfl
  all_goals exact ⟨fun _ => ⟨by decide, fun _ => room⟩, fun k => absurd (by simp) k, nofun, nofun, nofun, nofun⟩

theorem Part.admits_three {p : Part} {c : Instr} (ahead : p.allRecords (Record.ahead p.now))
    (near : c = .arrive → p.allRecords (Record.arrivesNow p.now p.settings.earlyAllowance))
    (retract : c = .retract → p.allRecords Record.retractable) (tick : ∀ time, c ≠ .tick time)
    (minute : c ≠ .minuteEvent) (set' : c ≠ .clockSet) : p.Admits 3 c where
  minute k := by
    rcases k with ⟨time, e⟩ | e
    · exact absurd e (tick time)
    · exact absurd e minute
  others _ := by decide
  set e := absurd e set'
  arrive _ _ := ahead
  near e _ := near e
  retract e _ := retract e

end

/-- Settles O54: partition, generations and list order by `exec_edits`; the four levels of steady parts by
`exec_steady`. -/
theorem stepKeepsThePoolPartition : Obligations.StepKeepsThePoolPartition := by
  unfold Obligations.StepKeepsThePoolPartition
  refine ⟨fun s t parts e => ?_, fun s t sound e => ?_, fun q hq => hq.lengths_sum, fun s t parts order e => ?_,
    fun s t h e => ?_, fun s t h arrive retract e => ?_, fun s t h ahead near retract tick minute set' e => ?_,
    fun s t h room minute e => ?_⟩
  · exact step_keeps (good := fun p => p.pool.partitioned) e parts
      (fun c u hu run => (exec_edits run).partitioned (hu ▸ parts))
  · exact step_keeps (good := fun p => p.pool.generationsSound) e sound
      (fun c u hu run => (exec_edits run).generationsSound (hu ▸ sound))
  · exact step_keeps (good := fun p => p.pool.listOrdered) e order
      (fun c u hu run => (exec_edits run).listOrdered (hu ▸ parts) (hu ▸ order))
  · obtain ⟨steady, notice⟩ := step_steady e h.steady h.notice (fun c _ => s.part.admits_zero c)
    exact steady.coherent notice
  · obtain ⟨steady, notice⟩ := step_steady e h.steady h.coherent.notice
      (fun c hc => Part.admits_one (fun k => arrive (k ▸ hc)) (fun k => retract (k ▸ hc)))
    exact steady.chained notice (by decide)
  · obtain ⟨steady, notice⟩ := step_steady e (h.steady_ahead ahead) h.chained.coherent.notice
      (fun c hc => Part.admits_three ahead (fun k => near (k ▸ hc)) (fun k => retract (k ▸ hc))
        (fun time k => tick time (k ▸ hc)) (fun k => minute (k ▸ hc)) (fun k => set' (k ▸ hc)))
    exact ⟨steady.headed notice (by decide), steady.ahead (by decide)⟩
  · obtain ⟨steady, notice⟩ := step_steady e h.steady h.chained.coherent.notice
      (fun c hc => Part.admits_two (by simpa [hc] using minute) room)
    exact steady.headed notice (by decide)

/-! ## O4: POWER_ON and RST_N -/

/-- A walk that writes each trip input of a list leaves there what it writes, and the others as they were. -/
theorem trips_foldl (v : Vector TripInput 8) (g : FeederId → TripInput) (l : List FeederId) (f : FeederId) :
    (l.foldl (fun (v : Vector TripInput 8) f => v.set f.val (g f) f.isLt) v).get f = if f ∈ l then g f else v.get f := by
  induction l generalizing v with
  | nil => simp
  | cons a l ih =>
    rw [List.foldl_cons, ih]
    by_cases e : f = a
    · subst e
      simp [get_set_same]
    · simp [get_set_ne _ _ _ _ e, e]

/-- At the end of a reset a pin held low starts its difference (R134). -/
theorem State.fullReset_trip (s : State) (f : FeederId) :
    s.fullReset.part.trip f = .afterReset s.part.time (s.part.trip f).low :=
  (trips_foldl s.part.trips _ _ f).trans (if_pos (List.mem_finRange f))

/-- Settles O4: both commands are the full reset, which is `Part.afterReset` but for the pins, the time base and the
free-order counter. -/
theorem powerOnAndRstnResetThePart : Obligations.PowerOnAndRstnResetThePart := by
  unfold Obligations.PowerOnAndRstnResetThePart
  intro s
  exact ⟨s.fullReset, rfl, rfl, rfl, rfl, rfl, rfl, rfl, rfl, rfl, rfl, rfl, rfl, rfl, rfl, s.fullReset_trip, rfl, rfl⟩

/-! ## O58: the invariants after reset -/

theorem State.reset_record (k : SlotId) : State.reset.part.record k = none :=
  congrArg Slot.record (Vector.getElem_replicate _)

theorem State.reset_chain (b : BayId) : State.reset.part.pool.chains.get b = [] := Vector.getElem_replicate _

/-- After reset no slot holds a record (R48), so that every record has every property. -/
theorem State.reset_allRecords (good : Record → Prop) : State.reset.part.allRecords good := by
  intro k r hr
  rw [State.reset_record k] at hr
  cases hr

theorem State.reset_headed : State.reset.Headed := by
  have steady : State.reset.part.Steady 2 noBay := Part.afterReset_steady _ _ _
  exact steady.headed (fun x k hx => by cases hx) (by decide)

/-- The tables after reset stand in their ranges (R1, R11, R15, R18, R174). -/
theorem State.reset_numbersSound : State.reset.part.numbersSound := by
  refine ⟨fun b => ?_, fun f => ?_, fun a => ?_, rfl, ⟨Nat.zero_le _, Nat.zero_le _⟩, Nat.zero_le _⟩
  · rw [show State.reset.part.bay b = .reset from Vector.getElem_replicate _]
    simp [Bay.numbersSound, Bay.reset]
  · rw [show State.reset.part.feeder f = .reset from Vector.getElem_replicate _]
    simp [Feeder.numbersSound, Feeder.reset]
  · rw [show State.reset.part.post a = .reset from Vector.getElem_replicate _]
    simp [Post.countersSound, Post.reset]

theorem State.reset_rule (r : RuleId) : State.reset.part.rule r = .reset := Vector.getElem_replicate _

theorem State.reset_policySound : State.reset.part.policySound := by
  refine ⟨fun l => ?_, fun r => ?_⟩
  · rw [show State.reset.part.lane l = .reset from Vector.getElem_replicate _]
    simp [Lane.numbersSound, Lane.reset]
  · rw [State.reset_rule r]
    constructor <;> simp [Rule.reset]

theorem State.reset_wakesSound (a : PostId) : (State.reset.part.post a).wakesSound := by
  rw [show State.reset.part.post a = .reset from Vector.getElem_replicate _]
  simp [Post.wakesSound, Post.reset]

/-- Settles O58: no slot holds a record, every list but the free list is empty, and every table entry is its reset
value. -/
theorem resetHasEveryInvariant : Obligations.ResetHasEveryInvariant := by
  unfold Obligations.ResetHasEveryInvariant
  have headed := State.reset_headed
  have coherent := headed.chained.coherent
  have records := State.reset_allRecords
  have generations : State.reset.part.pool.generationsSound := by
    intro k
    rw [show State.reset.part.pool.slot k = ⟨1, none⟩ from Vector.getElem_replicate _]
    decide
  have tallies : State.reset.part.talliesSound := fun r => State.reset_rule r ▸ Nat.zero_le _
  have limits : ∀ b : BayId, (State.reset.part.bay b).limitSound :=
    fun b => .inl (congrArg Bay.limit (Vector.getElem_replicate _))
  exact ⟨coherent.parts, generations, records _, records _, records _, records _, State.reset_numbersSound, tallies,
    Nat.zero_le _, Port.reset_sound, rfl, coherent.current, .nil, coherent, headed.chained, headed, records _,
    records _, records _, State.reset_wakesSound, limits, State.reset_policySound, records _, records _⟩

/-! ## O2: which commands complete -/

/-- A command with well-formed operands completes and leaves the queue behind it; another stops by name (log 22). -/
def State.Ends (s : State) (o : Host.Outcome State Fault Refusal) (wellFormed : Bool) : Prop :=
  if wellFormed then ∃ t : State, o = .next t ∧ t.pending = s.pending else o = .fault .illFormedCommand

section
variable {s u : State}

theorem State.Ends.next (t : State) (h : t.pending = s.pending) : s.Ends (.next t) true := ⟨t, rfl, h⟩

theorem State.Ends.done (h : u.pending = s.pending) : s.Ends u.done true := .next _ (u.complete_pending.trans h)

theorem State.Ends.object {n i : Nat} {effect : Fin n → State} (h : ∀ x, (effect x).pending = s.pending) :
    s.Ends (withObject n i effect) (decide (i < n)) := by
  unfold withObject fin?
  by_cases hi : i < n
  · simp only [hi, dif_pos, decide_true]
    exact .done (h _)
  · simp only [hi, dif_neg, decide_false, not_false_eq_true]
    rfl

/-- A command on a frame of a length that its line allows. -/
theorem State.Ends.sized {c : Prop} [Decidable c] (h : u.pending = s.pending) :
    s.Ends (if c then u.done else .fault .illFormedCommand) (decide c) := by
  by_cases hc : c
  · simp only [hc, if_true, decide_true]
    exact .done h
  · simp only [hc, if_false, decide_false]
    rfl

theorem State.serveWith_pending {α : Type} (s : State) (k : Kind) (mine : List Byte → Bool) (rd : Rd α)
    {act : α → State → Answer × State} (h : ∀ x u, (act x u).2.pending = u.pending) :
    (s.serveWith k mine rd act).pending = s.pending := by
  unfold State.serveWith
  split
  · rfl
  · dsimp only
    split
    · rfl
    · split
      · rfl
      · exact h _ _

theorem State.onPart_pending (s : State) (g : Part → Part) : (s.onPart g).pending = s.pending := rfl

theorem State.serve_ends {α : Type} (s : State) (k : Kind) (mine : List Byte → Bool) (rd : Rd α)
    (act : α → Part → Answer × Part) : s.Ends (s.serve k mine rd act).done true :=
  .done (s.serveWith_pending k mine rd (fun _ _ => rfl))

theorem State.frameSent_pending (s : State) : s.frameSent.pending = s.pending := by
  unfold State.frameSent
  split
  · rfl
  · dsimp only
    split <;> rfl

end

/-- Every command completes or stops as its operands say. -/
theorem exec_ends (c : Instr) (s : State) : s.Ends (exec c s) c.wellFormed := by
  cases c with
  | powerOn | rstN => exact .next _ rfl
  | fullReset =>
    show s.Ends (execFullReset s) true
    unfold execFullReset
    split
    · split <;> exact .next _ rfl
    · exact .next _ rfl
  | resetPartBook =>
    refine .done (s.serveWith_pending _ _ _ (fun x u => ?_))
    unfold State.resetBookRequest
    split <;> rfl
  | resetPartFull =>
    refine .done (s.serveWith_pending _ _ _ (fun x u => ?_))
    unfold State.resetFullRequest
    split <;> rfl
  | status => exact .done (s.serveWith_pending _ _ _ (fun _ _ => rfl))
  | unknownKind =>
    show s.Ends (execUnknownKind s) true
    unfold execUnknownKind
    split
    · exact .done rfl
    · split <;> exact .done rfl
  | frameSent => exact .done s.frameSent_pending
  | frameGapTimeout time =>
    show s.Ends (execFrameGapTimeout time s) true
    unfold execFrameGapTimeout
    dsimp only
    split <;> exact .done rfl
  | receivedByte byte time =>
    show s.Ends (execReceivedByte byte time s) true
    unfold execReceivedByte
    dsimp only
    split <;> exact .done rfl
  | frameReceived | reply | replyGap => exact .sized rfl
  | identify | clockSet | clockGet | partSet | partGet | baySet | bayRemove | bayGet | bayServiceOut | bayServiceIn
  | feederSet | feederGet | feederTrim | feederClear | postSetInUse | postSetWithdraw | postGet | postForceReseek
  | postForceIsolate | postForceWake | ruleWrite | ruleRead | tallyClear | laneSet | laneGet | book | findFree | extend
  | retract | cancel | resGet | waitListGet | arrive | arriveWalkin | endSession | sessionResume =>
    exact s.serve_ends _ _ _ _
  | tick time | roundStart time | commandSent time | miss time => exact .done ((s.at time).onPart_pending _)
  | minuteEvent | sessionTick | shareTick | rollover => exact .done (s.onPart_pending _)
  | quotaMet | satisfied | leadCheck | wakeCheck | windowStart | graceEnd | windowEnd | waitingDeadline | settleTimer
  | penaltyEnd | verifyExpiry | overdrawPenalty | recompute | recoveryTimer | tripInputChange | debounce | prepareLimit
  | wakeLimit | idleTimer => exact .object (fun _ => rfl)

/-- Settles O2: by `exec_ends`; an ill-formed command has no next state whose queue could differ. -/
theorem exactlyWellFormedCommandsComplete : Obligations.ExactlyWellFormedCommandsComplete := by
  unfold Obligations.ExactlyWellFormedCommandsComplete
  refine ⟨fun c s => ?_, fun s idle => ?_, fun c s t e => ?_⟩
  · have ends := exec_ends c s
    refine ⟨fun well => ?_, fun ill => by rwa [ill] at ends⟩
    rw [well] at ends
    obtain ⟨t, e, _⟩ := ends
    exact ⟨t, e⟩
  · unfold step
    rw [idle]
  · have ends := exec_ends c s
    rw [e] at ends
    cases well : c.wellFormed with
    | true =>
      rw [well] at ends
      obtain ⟨t', e', h⟩ := ends
      cases e'
      exact h
    | false =>
      rw [well] at ends
      cases ends

/-! ## O59: closed records -/

section
variable {p q : Part} {k : SlotId} {r : Record} {s t : State}

/-- Slot `k` holds the record that closed as `r` did, or has been freed. -/
def Part.ClosedOrFreed (k : SlotId) (r : Record) (p : Part) : Prop :=
  (∃ r', p.record k = some r' ∧ r'.state = .closing ∧ r'.close = r.close) ∨ p.record k = none

theorem Part.Moves.closedOrFreed {timed : Bool} (h : Part.Moves timed p q) (hp : p.ClosedOrFreed k r) :
    q.ClosedOrFreed k r := by
  rcases hp with ⟨r', hr, closing, close⟩ | hr
  · obtain ⟨r'', hr'', closing', close'⟩ := h.closed k r' hr closing
    exact .inl ⟨r'', hr'', closing', close'.trans close⟩
  · exact .inr (h.record_none k hr)

/-- A closed record stands while no slot is freed: a record is created in a free slot alone (R30, R33). -/
theorem Part.Edits.closed (h : Part.Edits false p q) (parts : p.pool.partitioned) (hr : p.record k = some r)
    (closing : r.state = .closing) : ∃ r', q.record k = some r' ∧ r'.state = .closing ∧ r'.close = r.close := by
  induction h generalizing r with
  | moves h => exact h.closed k r hr closing
  | trans h1 _ i1 i2 =>
    obtain ⟨r1, hr1, closing1, close1⟩ := i1 parts hr closing
    obtain ⟨r2, hr2, closing2, close2⟩ := i2 (h1.partitioned parts) hr1 closing1
    exact ⟨r2, hr2, closing2, close2.trans close1⟩
  | create p s x hs _ _ =>
    have ne : k ≠ s := by
      rintro rfl
      exact absurd ((Pool.record_of_free parts hs).symm.trans hr) (by simp)
    exact ⟨r, (Pool.record_put_ne p.pool x ne).trans hr, closing, rfl⟩
  | release p s h => cases h
  | rebuild p h => cases h
  | reset p _ _ _ h => cases h
  | _ => exact ⟨r, hr, closing, rfl⟩

theorem State.done_closedOrFreed {u : State} (h : u.done = .next t) (hu : u.part.ClosedOrFreed k r) :
    t.part.ClosedOrFreed k r := by
  cases h
  exact (u.complete_moves (timed := true)).closedOrFreed hu

theorem State.fullReset_record (s : State) (k : SlotId) : s.fullReset.part.record k = none :=
  congrArg Slot.record (Vector.getElem_replicate _)

/-- The end of a frame frees one slot at most, or takes the full reset (R43, R179). -/
theorem State.frameSent_closedOrFreed (hs : s.part.ClosedOrFreed k r) : s.frameSent.part.ClosedOrFreed k r := by
  unfold State.frameSent
  split
  · exact hs
  · dsimp only
    split
    · next j _ =>
      by_cases e : k = j
      · exact .inr ((Pool.record_release _ _ _).trans (if_pos e))
      · have record : Part.record { s.part with pool := s.part.pool.release j } k = s.part.record k :=
          (Pool.record_release _ _ _).trans (if_neg e)
        unfold Part.ClosedOrFreed
        rw [record]
        exact hs
    · exact .inr (State.fullReset_record _ k)
    all_goals exact hs

/-- A walk whose steps leave the pool leaves it. -/
theorem Part.foldl_pool {α : Type} {f : Part → α → Part} (l : List α) (h : ∀ p a, (f p a).pool = p.pool) (p : Part) :
    (l.foldl f p).pool = p.pool := by
  induction l generalizing p with
  | nil => rfl
  | cons a l ih => exact (ih _).trans (h p a)

theorem Part.touchActive_pool (p : Part) : p.touchActive.pool = p.pool := by
  refine Part.foldl_pool _ (fun u q => ?_) p
  split
  · unfold Part.touchPost
    split <;> rfl
  · rfl

/-- RESET-PART BOOK frees every slot (R49). -/
theorem Part.bookReset_record (p : Part) (k : SlotId) : p.bookReset.record k = none := by
  have pool : p.bookReset.pool = p.pool.rebuild := by
    unfold Part.bookReset
    dsimp only
    rw [Part.touchActive_pool, Part.foldl_pool allRules (fun p r => p.setRule_pool r _),
      Part.foldl_pool allFeeders (fun p f => p.modFeeder_pool f _), Part.foldl_pool (f := Part.derive) allBays (Part.deriveWith_pool true),
      Part.foldl_pool (f := Part.bookBay) allBays (fun p b => p.modBay_pool b _)]
  unfold Part.record
  rw [pool]
  exact p.pool.record_rebuild k

theorem State.serveWith_closedOrFreed {α : Type} (hs : s.part.ClosedOrFreed k r) (x : Kind) (mine : List Byte → Bool)
    (rd : Rd α) {act : α → State → Answer × State}
    (acts : ∀ req u, u.part = s.part → (act req u).2.part.ClosedOrFreed k r) :
    (s.serveWith x mine rd act).part.ClosedOrFreed k r := by
  unfold State.serveWith
  split
  · exact hs
  · dsimp only
    split
    · exact hs
    · split
      · exact hs
      · next req _ => exact acts req _ rfl

/-- The commands that may free a slot keep a closed record or free it. -/
theorem exec_closedOrFreed {c : Instr} (frees : mayFree c = true) (e : exec c s = .next t)
    (hs : s.part.ClosedOrFreed k r) : t.part.ClosedOrFreed k r := by
  have reset : s.fullReset.part.ClosedOrFreed k r := .inr (s.fullReset_record k)
  cases c with
  | powerOn | rstN =>
    cases e
    exact reset
  | fullReset =>
    simp only [exec, execFullReset] at e
    split at e
    · split at e
      · cases e; exact reset
      · cases e; exact hs
    · cases e; exact hs
  | frameSent => exact State.done_closedOrFreed e (State.frameSent_closedOrFreed hs)
  | resetPartBook =>
    refine State.done_closedOrFreed e (State.serveWith_closedOrFreed hs _ _ _ (fun x u hu => ?_))
    unfold State.resetBookRequest
    split
    · dsimp only
      exact .inr (u.part.bookReset_record k)
    · exact hu ▸ hs
  | _ => nomatch frees

end

theorem mayFree_iff (c : Instr) :
    mayFree c = true ↔ c = .powerOn ∨ c = .rstN ∨ c = .fullReset ∨ c = .frameSent ∨ c = .resetPartBook := by
  cases c <;> simp [mayFree]

/-- Settles O59: a command that frees no slot keeps what closed, by `Part.Edits.closed`; the five others keep it or free
its slot. -/
theorem closedRecordsStayAsTheyClosed : Obligations.ClosedRecordsStayAsTheyClosed := by
  unfold Obligations.ClosedRecordsStayAsTheyClosed
  intro c s t k r parts hr closing e
  cases frees : mayFree c with
  | false =>
    have edits := exec_edits e
    rw [frees] at edits
    exact .inl (edits.closed parts hr closing)
  | true =>
    rcases exec_closedOrFreed frees e (.inl ⟨r, hr, closing, rfl⟩) with kept | freed
    · exact .inl kept
    · exact .inr ⟨freed, (mayFree_iff c).1 frees⟩

/-! ## What the transmitter's choice leaves (R171) -/

section
variable {p : Part} {s : State} {k : SlotId} {r : Record} {b : BayId}

/-- Clearing a record's notice flag moves no slot. -/
theorem Part.clearNotice_chain (p : Part) (k : SlotId) (b : BayId) :
    (p.modRecord k (fun r => { r with notice := false })).chain b = p.chain b := by
  unfold Part.modRecord
  cases hr : p.record k with
  | none => rfl
  | some r =>
    dsimp only
    unfold Part.chain
    rw [Part.put_pool]
    exact Pool.members_put_home p.pool k _ (.chain b) (Pool.homeOf_record (r := r) hr)

theorem Part.clearNotice_record (p : Part) (k j : SlotId) :
    ((p.modRecord k (fun r => { r with notice := false })).record j).map Record.quiet = (p.record j).map Record.quiet := by
  unfold Part.modRecord
  cases hr : p.record k with
  | none => rfl
  | some r =>
    dsimp only
    rw [Part.record_put]
    split
    · next e =>
      rw [e, hr]
      rfl
    · rfl

theorem Part.clearNotice_bays (p : Part) (k : SlotId) :
    (p.modRecord k (fun r => { r with notice := false })).bays = p.bays := by
  unfold Part.modRecord
  split
  · exact p.put_bays k _
  · rfl

/-- What a chosen frame leaves behind the port: the chains, the conditions, and the records but for a notice flag. -/
structure Part.ClearsNotice (p q : Part) : Prop where
  chain (b : BayId) : q.chain b = p.chain b
  condition (b : BayId) : (q.bay b).condition = (p.bay b).condition
  record (k : SlotId) : (q.record k).map Record.quiet = (p.record k).map Record.quiet

theorem Part.ClearsNotice.of_eq {q : Part} (pool : q.pool = p.pool) (bays : q.bays = p.bays) : p.ClearsNotice q := by
  refine ⟨fun b => ?_, fun b => ?_, fun k => ?_⟩
  · unfold Part.chain; rw [pool]
  · unfold Part.bay; rw [bays]
  · unfold Part.record; rw [pool]

theorem Part.ClearsNotice.trans {q u : Part} (h : p.ClearsNotice q) (h' : q.ClearsNotice u) : p.ClearsNotice u :=
  ⟨fun b => (h'.chain b).trans (h.chain b), fun b => (h'.condition b).trans (h.condition b),
    fun k => (h'.record k).trans (h.record k)⟩

theorem State.choose_clearsNotice (s : State) : s.part.ClearsNotice s.choose.part := by
  have rule : s.part.ClearsNotice s.chooseRule.part := by
    unfold State.chooseRule
    split <;> exact .of_eq rfl rfl
  have bay : s.part.ClearsNotice s.chooseBay.part := by
    unfold State.chooseBay
    split
    · refine ⟨fun _ => rfl, fun j => ?_, fun _ => rfl⟩
      dsimp only
      rw [Part.bay_modBay]
      split
      · next e => rw [e]
      · rfl
    · exact rule
  have feeder : s.part.ClearsNotice s.chooseFeeder.part := by
    unfold State.chooseFeeder
    split
    · exact .of_eq rfl rfl
    · exact bay
  have post : s.part.ClearsNotice s.choosePost.part := by
    unfold State.choosePost
    split
    · exact .of_eq rfl rfl
    · exact feeder
  have record : s.part.ClearsNotice s.chooseRecord.part := by
    unfold State.chooseRecord
    split
    · next k _ =>
      refine ⟨s.part.clearNotice_chain k, fun j => ?_, s.part.clearNotice_record k⟩
      unfold Part.bay
      rw [show Part.bays _ = s.part.bays from s.part.clearNotice_bays k]
    · exact post
  unfold State.choose State.chooseClose
  split
  · exact .of_eq rfl rfl
  · split
    · exact .of_eq rfl rfl
    · exact record

theorem State.kick_clearsNotice (s : State) : s.part.ClearsNotice s.kick.part := by
  unfold State.kick
  split
  · exact .of_eq rfl rfl
  · exact s.choose_clearsNotice

/-- A record stands after the transmitter's choice, but for its notice flag. -/
theorem Part.ClearsNotice.record_some {q : Part} (h : p.ClearsNotice q) (hr : p.record k = some r) :
    ∃ n : Bool, q.record k = some { r with notice := n } := by
  have same := h.record k
  rw [hr] at same
  cases hq : q.record k with
  | none =>
    rw [hq] at same
    cases same
  | some r' =>
    rw [hq] at same
    have quiet : r'.quiet = r.quiet := Option.some.inj same
    exact ⟨r'.notice, congrArg (fun x : Record => some { x with notice := r'.notice }) quiet⟩

end

/-! ## O30: CANCEL -/

section
variable {p : Part} {s : State} {k : SlotId} {r : Record} {f : Frame} {rest : List Frame} {h1 h0 : Byte}

/-- The record that a close other than by departure leaves (R41, R42). -/
theorem Part.closeRecord_record (hr : p.record k = some r) (result : Result) {by' : ClosedBy} (h : by' ≠ .departed) :
    (p.closeRecord k result by').record k = some (r.closed (p.pool.handle k) p.now result by') := by
  unfold Part.record
  rw [(Part.closeRecord_after hr result h).2, Part.put_pool, Pool.record_put_self]

theorem Part.cancelRequest_unknown {handle : Nat} (h : p.findLive handle = none) :
    p.cancelRequest handle = (⟨.unknownReservation, []⟩, p) := by
  unfold Part.cancelRequest
  rw [h]
  rfl

theorem Part.cancelRequest_engaged {handle : Nat} (h : p.findLive handle = some (k, r)) (engaged : r.state = .engaged) :
    p.cancelRequest handle = (⟨.wrongState, []⟩, p) := by
  unfold Part.cancelRequest
  rw [h]
  exact if_pos engaged

theorem Part.cancelRequest_closes {handle : Nat} (h : p.findLive handle = some (k, r)) (before : r.state ≠ .engaged) :
    p.cancelRequest handle = (⟨.ok, []⟩, p.closeRecord k .cancelled .host) := by
  unfold Part.cancelRequest
  rw [h]
  exact if_neg before

end

/-- Settles O30: the three outcomes of the request; the completion leaves a CLOSING record as it is. -/
theorem cancelClosesTheRecord : Obligations.CancelClosesTheRecord := by
  unfold Obligations.CancelClosesTheRecord
  intro s f rest h1 h0 settled asks
  dsimp only
  have read : Rd.u16.all [h1, h0] = some (h1.toNat * 256 + h0.toNat) := rfl
  refine ⟨fun h => ?_, fun k r h => ⟨fun engaged => ?_, fun before => ?_⟩⟩
  · exact State.serve_unchanged settled asks rfl read (Part.cancelRequest_unknown h)
  · exact State.serve_unchanged settled asks rfl read (Part.cancelRequest_engaged h engaged)
  · obtain ⟨hr, _, _⟩ := Part.findLive_some h
    have closed := Part.closeRecord_record hr .cancelled (by' := .host) (by decide)
    exact ⟨_, _, State.serve_gives asks rfl read (Part.cancelRequest_closes h before),
      (Part.finish_tidies _).closing k _ closed rfl, rfl, _, rfl, rfl, rfl, rfl, rfl, rfl, rfl, rfl, rfl⟩

/-! ## O42: WINDOW_START, GRACE_END, WINDOW_END, WAITING_DEADLINE -/

section
variable {p : Part} {s : State} {k : SlotId} {r : Record} {b : BayId}

/-- A timed event of a slot that is due is taken and completed. -/
theorem withSlot_timedEvent {e : SlotId → Timed} (due : s.part.isDue (e k) = true) :
    withObject 192 k.val (fun x => s.onPart (fun p => p.timedEvent (e x))) =
      .next (s.onPart (fun p => p.takeTimed (e k))).complete := by
  unfold withObject
  rw [fin?_val]
  show Host.Outcome.next (State.complete { s with part := s.part.timedEvent (e k) }) = _
  unfold Part.timedEvent
  rw [if_pos due]
  rfl

theorem Part.pendingFor_some {test : Record → Bool} (hr : p.record k = some r) (set' : p.clock.set = true)
    (holds : test r = true) : p.pendingFor k test = true := by
  simp [Part.pendingFor, Part.recordIs, set', hr, holds]

/-- A record closed by TIMER stays so through the completion of the event. -/
theorem complete_closes {u : State} {result : Result} (hr : p.record k = some r)
    (hu : u.part = p.closeRecord k result .timer) :
    ∃ r', u.complete.part.record k = some r' ∧ r'.state = .closing ∧
      r'.close = some (r.summary (p.pool.handle k) p.now result .timer) := by
  have closed := Part.closeRecord_record hr result (by' := .timer) (by decide)
  exact u.complete_moves (timed := true) |>.closed k _ (hu ▸ closed) rfl

/-- A due close by TIMER, of any of the three commands (R40, R93, R107). -/
theorem exec_closesByTimer {c : Instr} {result : Result} (set' : s.part.clock.set = true) (hr : s.part.record k = some r)
    (due : (c = .graceEnd k.val ∧ (r.state = .held ∨ r.state = .arriving) ∧ r.graceEnd ≤ s.part.now ∧ result = .noShow) ∨
      (c = .windowEnd k.val ∧ (r.state = .booked ∨ r.state = .held ∨ r.state = .arriving) ∧ r.endTaken = false ∧
        r.windowEnd ≤ s.part.now ∧ result = .noShow) ∨
      (c = .waitingDeadline k.val ∧ r.state = .waiting ∧ (∃ d, r.deadline = some d ∧ d ≤ s.part.now) ∧
        result = .expired)) :
    ∃ u : State, exec c s = .next u.complete ∧ u.part = s.part.closeRecord k result .timer := by
  rcases due with ⟨rfl, state, due, rfl⟩ | ⟨rfl, state, taken, due, rfl⟩ | ⟨rfl, state, ⟨d, deadline, due⟩, rfl⟩
  · exact ⟨_, withSlot_timedEvent (e := .graceEnd) (Part.pendingFor_some hr set' (by simpa using ⟨state, due⟩)), rfl⟩
  · refine ⟨_, withSlot_timedEvent (e := .windowEnd) (Part.pendingFor_some hr set' ?_), ?_⟩
    · rcases state with h | h | h <;> simp [h, taken, due, RecState.chained]
    · show s.part.takeWindowEnd k = _
      have before : s.part.recordIs (fun r => r.state = .engaged) k = false := by
        rcases state with h | h | h <;> simp [Part.recordIs, hr, h]
      unfold Part.takeWindowEnd
      rw [if_neg (by simp [before])]
  · exact ⟨_, withSlot_timedEvent (e := .deadline) (Part.pendingFor_some hr set' (by simp [state, deadline, due])), rfl⟩

/-! ### The window end of an ENGAGED record -/

/-- What a change of a session leaves of its record (R117). -/
theorem Part.updSession_record {x : Session} (hr : p.record k = some r) (hx : r.session = some x)
    (g : Session → Session) :
    (p.updSession k g).record k = some (if x.reports (g x) then { r with session := some (g x) }.flag .session
      else { r with session := some (g x) }) := by
  unfold Part.updSession
  rw [hr]
  dsimp only
  rw [hx]
  dsimp only
  split
  · rw [Part.record_put, if_pos rfl]
  · split <;> split <;> simp [Part.derive_record, Part.shareChanged, Part.record_put]

/-- A window end that an ENGAGED record takes leaves it ENGAGED, its session in OVERSTAY or in SETTLING (R40, R123). -/
theorem exec_overstays {x : Session} (set' : s.part.clock.set = true) (hr : s.part.record k = some r)
    (engaged : r.state = .engaged) (hx : r.session = some x) (taken : r.endTaken = false) (due : r.windowEnd ≤ s.part.now) :
    ∃ (t : State) (r' : Record), exec (.windowEnd k.val) s = .next t ∧ t.part.record k = some r' ∧ r'.state = .engaged ∧
      r'.endTaken = true ∧ r'.session = some (x.windowEnd s.part.now) ∧
      (x.phase ≠ (x.windowEnd s.part.now).phase → r'.lastCause = .session) := by
  have marked : (s.part.modRecord k (fun r => { r with endTaken := true })).record k = some { r with endTaken := true } := by
    unfold Part.modRecord
    rw [hr]
    exact (Part.record_put _ _ _ _).trans (if_pos rfl)
  have stored := Part.updSession_record marked hx (fun x => x.windowEnd s.part.now)
  have taking : s.part.takeWindowEnd k = (s.part.modRecord k (fun r => { r with endTaken := true })).updSession k
      (fun x => x.windowEnd s.part.now) := by
    unfold Part.takeWindowEnd
    rw [if_pos (by simp [Part.recordIs, hr, engaged])]
  rw [← taking] at stored
  have isDue : s.part.isDue (.windowEnd k) = true :=
    Part.pendingFor_some hr set' (by simp [engaged, taken, due, RecState.chained])
  have finished := (s.part.takeWindowEnd k).finish_tidies.engaged k _ stored (by split <;> exact engaged)
  obtain ⟨n, kept⟩ := (State.kick_clearsNotice { s with part := (s.part.takeWindowEnd k).finish }).record_some finished
  refine ⟨_, _, withSlot_timedEvent (e := .windowEnd) isDue, kept, ?_⟩
  split
  · exact ⟨engaged, rfl, rfl, fun _ => rfl⟩
  · next silent => exact ⟨engaged, rfl, rfl, fun ne => absurd (by simp [Session.reports, ne]) silent⟩

theorem Session.windowEnd_settling {x : Session} (h : x.phase = .settling) (now : Nat) : x.windowEnd now = x := by
  unfold Session.windowEnd
  rw [h]

theorem Session.windowEnd_overstays {x : Session} (h : x.phase ≠ .settling) (h' : x.phase ≠ .overstay) (now : Nat) :
    x.windowEnd now =
      { x with phase := .overstay, overstayStart := some now, seen := { x.seen with overstayed := true }
               pause := .none, stoppedIn := none, satisfied := 0 } := by
  unfold Session.windowEnd
  split
  · next e => exact absurd e h
  · next e => exact absurd e h'
  all_goals rfl

/-! ### The window start of a BOOKED record -/

/-- The record as its window start leaves it (R38). -/
def Record.begun (r : Record) : Record := { r.flag .windowStart with state := .held }

/-- The part after the record's window start has been stored, its bay not derived yet. -/
def Part.begun (p : Part) (k : SlotId) (r : Record) : Part := { p with pool := p.pool.put k r.begun }

theorem Record.begun_home (booked : r.state = .booked) : r.begun.home = r.home := by
  unfold Record.home
  rw [booked]
  rfl

theorem Part.begun_record (p : Part) (k : SlotId) (r : Record) (j : SlotId) :
    (p.begun k r).record j = if j = k then some r.begun else p.record j := Pool.record_put _ _ _ _

theorem Part.begun_chain (hr : p.record k = some r) (booked : r.state = .booked) (j : BayId) :
    (p.begun k r).chain j = p.chain j :=
  Pool.members_put_home p.pool k r.begun (.chain j) ((Pool.homeOf_record hr).trans (r.begun_home booked).symm)

theorem Part.put_begun (hr : p.record k = some r) (booked : r.state = .booked) : p.put k r.begun = p.begun k r := by
  unfold Part.put
  rw [hr]
  exact if_pos ⟨(r.begun_home booked).symm, rfl⟩

theorem Part.takeWindowStart_eq (hr : p.record k = some r) (booked : r.state = .booked) (bay : r.bay = some b) :
    p.takeWindowStart k = (p.begun k r).derive b := by
  have stored : p.modRecord k (fun r => { r.flag .windowStart with state := .held }) = p.begun k r := by
    unfold Part.modRecord
    rw [hr]
    exact Part.put_begun hr booked
  unfold Part.takeWindowStart Part.deriveBayOf
  rw [stored, Part.begun_record, if_pos rfl, show (some r.begun).bind Record.bay = some b from bay]

/-- A record that is HELD in place of BOOKED makes a FREE bay RESERVED, and changes no other condition (R7, R38). -/
theorem Part.begun_conditionOf (parts : p.pool.partitioned) (hr : p.record k = some r) (booked : r.state = .booked)
    (bay : r.bay = some b) :
    (p.begun k r).conditionOf b = if p.conditionOf b = .free then .reserved else p.conditionOf b := by
  have chain : (p.begun k r).chain b = p.chain b := Part.begun_chain hr booked b
  have engaged : ∀ j, (p.begun k r).recordIs (fun r => r.state = .engaged) j = p.recordIs (fun r => r.state = .engaged) j := by
    intro j
    unfold Part.recordIs
    rw [Part.begun_record]
    by_cases e : j = k
    · rw [if_pos e, e, hr]
      simp [Record.begun, booked]
    · rw [if_neg e]
  have occupant : (p.begun k r).occupant b = p.occupant b := by
    unfold Part.occupant
    rw [chain, funext engaged]
  have held : (((p.begun k r).chain b).any
      ((p.begun k r).recordIs (fun r => r.state = .held || r.state = .arriving))) = true := by
    refine List.any_eq_true.2 ⟨k, ?_, by simp [Part.recordIs, Part.begun_record, Record.begun]⟩
    rw [chain]
    exact (Pool.mem_chain parts).2 ((Pool.homeOf_record hr).trans (Record.home_of_bay (by simp [booked, RecState.chained]) bay))
  by_cases out : (p.bay b).configured = false ∨ (p.bay b).service = .out
  · rw [Part.conditionOf_out out, Part.conditionOf_out (p := p.begun k r) out]
    rfl
  · obtain ⟨configured, service⟩ := not_or.1 out
    have configured : (p.bay b).configured = true := by simpa using configured
    have service : (p.bay b).service = .inService := by cases h : (p.bay b).service <;> simp_all
    cases serviceable : p.serviceable b with
    | false =>
      rw [Part.conditionOf_dark configured service serviceable,
        Part.conditionOf_dark (p := p.begun k r) configured service serviceable]
      rfl
    | true =>
      cases ho : p.occupant b with
      | some j =>
        have session : (p.begun k r).session j = p.session j := by
          have ne : j ≠ k := by
            rintro rfl
            obtain ⟨r', hr', e⟩ := Part.occupant_engaged ho
            cases hr.symm.trans hr'
            exact absurd (booked.symm.trans e) (by decide)
          unfold Part.session
          rw [Part.begun_record, if_neg ne]
        rw [Part.conditionOf_occupied configured service serviceable ho,
          Part.conditionOf_occupied (p := p.begun k r) configured service serviceable (occupant.trans ho), session]
        split <;> rfl
      | none =>
        rw [Part.conditionOf_unoccupied configured service serviceable ho,
          Part.conditionOf_unoccupied (p := p.begun k r) configured service serviceable (occupant.trans ho), if_pos held]
        rw [show (p.begun k r).bay b = p.bay b from rfl]
        split
        · cases (p.bay b).verify <;> rfl
        · split <;> rfl

/-- A derivation that at most makes a FREE bay RESERVED leaves nothing to do but idle conditions (R8, R111). -/
theorem Part.derive_work_of_reserved (settled : p.work = .empty)
    (h : p.conditionOf b = if (p.bay b).condition = .free then .reserved else (p.bay b).condition) :
    (p.derive b).work.blocked = [] ∧ (p.derive b).work.leads = [] ∧ (p.derive b).work.retry = false ∧
      (p.derive b).work.nextExchange = false := by
  by_cases same : p.conditionOf b = (p.bay b).condition
  · rw [Part.derive_of_eq same, settled]
    exact ⟨rfl, rfl, rfl, rfl⟩
  · have free : (p.bay b).condition = .free := by
      by_contra ne
      exact same (h.trans (if_neg ne))
    rw [if_pos free] at h
    have derived : p.derive b = p.rederived b := by
      rw [Part.derive_of_ne same, h, free]
      rfl
    rw [derived]
    unfold Part.rederived Part.touchPost
    split <;> simp [settled, Work.empty]

theorem exec_windowStart (settled : s.settled) (current : s.part.conditionsCurrent) (set' : s.part.clock.set = true)
    (hr : s.part.record k = some r) (booked : r.state = .booked) (bay : r.bay = some b)
    (due : r.windowStart ≤ s.part.now) (parts : s.part.pool.partitioned) :
    ∃ t, exec (.windowStart k.val) s = .next t ∧ ((s.part.begun k r).derive b).ClearsNotice t.part := by
  have condition := Part.begun_conditionOf parts hr booked bay
  rw [← current b] at condition
  obtain ⟨blocked, leads, retry, next⟩ := Part.derive_work_of_reserved (p := s.part.begun k r) settled condition
  obtain ⟨pool, bays, _⟩ := ((s.part.begun k r).derive b).finish_idle_pool blocked leads retry next
  refine ⟨_, withSlot_timedEvent (e := .windowStart) (Part.pendingFor_some hr set' (by simp [booked, due])), ?_⟩
  have kicked := State.kick_clearsNotice { s with part := (s.part.takeWindowStart k).finish }
  have finished : ((s.part.begun k r).derive b).ClearsNotice (s.part.takeWindowStart k).finish := by
    rw [Part.takeWindowStart_eq hr booked bay]
    exact .of_eq pool bays
  exact finished.trans kicked

end

/-- Settles O42: the window start by `exec_windowStart`, the closes by `exec_closesByTimer`, the overstay by
`exec_overstays`. -/
theorem dueRecordsAreHeldClosedOrOverstay : Obligations.DueRecordsAreHeldClosedOrOverstay := by
  unfold Obligations.DueRecordsAreHeldClosedOrOverstay
  refine ⟨fun s k r b settled current set' hr booked bay due parts => ?_, fun s k r c result set' hr hx due => ?_,
    fun s k r x _ set' hr engaged hx taken due => ?_⟩
  · obtain ⟨t, run, after⟩ := exec_windowStart settled current set' hr booked bay due parts
    have sights := (s.part.begun k r).deriveWith_sights true b
    have stored : ((s.part.begun k r).derive b).record k = some r.begun := by
      rw [Part.derive_record, Part.begun_record, if_pos rfl]
    obtain ⟨n, record⟩ := after.record_some stored
    refine ⟨t, _, run, record, rfl, ?_, fun _ free => ?_, fun j ne => ?_⟩
    · rw [after.chain b, ← Part.begun_chain hr booked b]
      unfold Part.chain Part.derive
      rw [Part.deriveWith_pool true _ b]
    · rw [after.condition b, show Part.derive _ b = Part.deriveWith true _ b from rfl, (sights b).2.2, if_pos rfl,
        Part.begun_conditionOf parts hr booked bay, ← current b, if_pos free]
    · rw [after.condition j, show Part.derive _ b = Part.deriveWith true _ b from rfl, (sights j).2.2, if_neg ne]
      rfl
  · obtain ⟨u, run, part⟩ := exec_closesByTimer set' hr due
    obtain ⟨r', record, closing, close⟩ := complete_closes hr part
    refine ⟨_, r', run, record, closing, close.trans ?_⟩
    unfold Record.summary
    rw [hx]
    rfl
  · obtain ⟨t, r', run, record, state, ended, session, cause⟩ := exec_overstays set' hr engaged hx taken due
    refine ⟨t, r', run, record, state, ended, fun settling => ?_, fun settling overstay => ?_⟩
    · rw [session, Session.windowEnd_settling settling]
    · rw [session, Session.windowEnd_overstays settling overstay] at *
      exact ⟨cause overstay, rfl⟩

/-! ## O55: the rate caps, extension stacks and priority classes of the records -/

/-- Every live record of the part has options in their ranges (R28, R29). -/
def Part.optionsSound (p : Part) : Prop := p.allRecords Record.optionsSound

/-- A record with the rate cap, the extension stack and the priority class of another. -/
def Record.SameOptions (old new : Record) : Prop :=
  new.rateCap = old.rateCap ∧ new.extensions = old.extensions ∧ new.priority = old.priority

section
variable {p q : Part} {old r : Record}

theorem Record.optionsSound.same (h : old.optionsSound) (same : old.SameOptions r) : r.optionsSound := by
  obtain ⟨rate, extensions, priority⟩ := same
  unfold Record.optionsSound
  rw [rate, extensions, priority]
  exact h

/-! ### The state's operations -/

theorem Part.optionsSound.of_pool (h : p.optionsSound) (pool : q.pool = p.pool) : q.optionsSound := by
  intro k r hr
  unfold Part.record at hr
  rw [pool] at hr
  exact h k r hr

theorem Part.optionsSound.foldl {α : Type} {f : Part → α → Part} (l : List α)
    (step : ∀ p, ∀ a ∈ l, p.optionsSound → (f p a).optionsSound) (h : p.optionsSound) : (l.foldl f p).optionsSound := by
  induction l generalizing p with
  | nil => exact h
  | cons a l ih => exact ih (fun p b hb => step p b (by simp [hb])) (step p a (by simp) h)

/-- A choice between two parts. -/
theorem Part.optionsSound.ite {c : Prop} [Decidable c] (hp : p.optionsSound) (hq : q.optionsSound) :
    (if c then p else q).optionsSound := by
  split
  · exact hp
  · exact hq

theorem Part.put_options (h : p.optionsSound) (s : SlotId) (hr : r.optionsSound) : (p.put s r).optionsSound := by
  intro k x hx
  rw [Part.record_put] at hx
  split at hx
  · cases hx
    exact hr
  · exact h k x hx

theorem Part.put_same_options (h : p.optionsSound) {s : SlotId} (hs : p.record s = some old) (same : old.SameOptions r) :
    (p.put s r).optionsSound := Part.put_options h s ((h s old hs).same same)

theorem Part.modRecord_options (h : p.optionsSound) (s : SlotId) {g : Record → Record}
    (same : ∀ x : Record, x.SameOptions (g x)) : (p.modRecord s g).optionsSound := by
  unfold Part.modRecord
  split
  · next x hx => exact Part.put_same_options h hx (same x)
  · exact h

theorem Part.touchPost_options (h : p.optionsSound) (a : PostId) : (p.touchPost a).optionsSound := by
  unfold Part.touchPost
  exact .ite h (h.of_pool rfl)

theorem Part.touchBayOf_options (h : p.optionsSound) (b : Option BayId) : (p.touchBayOf b).optionsSound := by
  unfold Part.touchBayOf
  split
  · exact Part.touchPost_options h _
  · exact h

theorem Part.touchActive_options (h : p.optionsSound) : p.touchActive.optionsSound := h.of_pool p.touchActive_pool

theorem Part.deriveWith_options (h : p.optionsSound) (raise : Bool) (b : BayId) : (p.deriveWith raise b).optionsSound :=
  h.of_pool (Part.deriveWith_pool raise p b)

theorem Part.derive_options (h : p.optionsSound) (b : BayId) : (p.derive b).optionsSound := Part.deriveWith_options h true b

theorem Part.modBay_options (h : p.optionsSound) (b : BayId) (g : Bay → Bay) : (p.modBay b g).optionsSound := h.of_pool rfl

theorem Part.shareChanged_options (h : p.optionsSound) (f : FeederId) : (p.shareChanged f).optionsSound := h.of_pool rfl

theorem Part.retryDue_options (h : p.optionsSound) : p.retryDue.optionsSound := h.of_pool rfl

theorem Part.wakePost_options (h : p.optionsSound) (a : PostId) : (p.wakePost a).optionsSound := by
  unfold Part.wakePost
  split
  · exact h.of_pool rfl
  · exact h

theorem Part.wakeBay_options (h : p.optionsSound) (b : BayId) : (p.wakeBay b).optionsSound := Part.wakePost_options h _

/-- A change of a session changes no option of its record. -/
theorem Part.updSession_options (h : p.optionsSound) (s : SlotId) (g : Session → Session) :
    (p.updSession s g).optionsSound := by
  unfold Part.updSession
  split
  · exact h
  · next r hr =>
    split
    · exact h
    · next x hx =>
      dsimp only
      have stored : (p.put s (if x.reports (g x) then { r with session := some (g x) }.flag .session
          else { r with session := some (g x) })).optionsSound :=
        Part.put_same_options h hr (by split <;> exact ⟨rfl, rfl, rfl⟩)
      split
      · exact stored
      · exact .ite (.ite stored (Part.shareChanged_options stored _))
          (Part.derive_options (.ite stored (Part.shareChanged_options stored _)) _)

/-! ### The moves of one record -/

theorem Part.armChecks_options (h : p.optionsSound) (s : SlotId) : (p.armChecks s).optionsSound := by
  unfold Part.armChecks
  split
  · exact h
  · next r hr =>
    dsimp only
    have armed : ∀ l w : Bool, (p.put s { r with leadTaken := l, wakeTaken := w }).optionsSound := fun l w =>
      Part.put_same_options h hr ⟨rfl, rfl, rfl⟩
    have queued : ∀ k l w : Bool, (if k then (p.put s { r with leadTaken := l, wakeTaken := w }).leadDue s
        else p.put s { r with leadTaken := l, wakeTaken := w }).optionsSound := fun k l w =>
      .ite ((armed l w).of_pool rfl) (armed l w)
    split
    · exact .ite (Part.wakeBay_options (queued _ _ _) _) (queued _ _ _)
    · exact queued _ _ _

theorem Part.engage_options (h : p.optionsSound) (s : SlotId) (cause : LastCause) : (p.engage s cause).optionsSound := by
  unfold Part.engage
  split
  · exact h
  · next r hr =>
    split
    · exact h
    · next b _ =>
      have engaged := Part.put_same_options h hr (r := { r.flag cause with
        state := .engaged, session := some (Session.start (p.plugOf b) (p.bay b).penalty p.now) }) ⟨rfl, rfl, rfl⟩
      exact Part.derive_options (Part.shareChanged_options (Part.modBay_options engaged b _) _) b

theorem Part.occupied_options (h : p.optionsSound) (b : BayId) : (p.occupied b).optionsSound := by
  unfold Part.occupied
  split
  · exact h
  · split
    · exact Part.engage_options h _ _
    · split
      · exact h.of_pool rfl
      · exact h
      · exact h

theorem Part.vacated_options (h : p.optionsSound) (b : BayId) : (p.vacated b).optionsSound := by
  unfold Part.vacated
  split
  · exact h
  · exact h.of_pool rfl

theorem Part.occupancyEvent_options (h : p.optionsSound) (b : BayId) (k : Bool) : (p.occupancyEvent b k).optionsSound :=
  Part.derive_options (.ite (Part.occupied_options h b) (Part.vacated_options h b)) b

theorem Part.closeRecord_options (h : p.optionsSound) (s : SlotId) (result : Result) (by' : ClosedBy) :
    (p.closeRecord s result by').optionsSound := by
  unfold Part.closeRecord
  split
  · exact h
  · next r hr =>
    dsimp only
    have stored : (p.put s (r.closed (p.pool.handle s) p.now result by')).optionsSound :=
      Part.put_same_options h hr ⟨rfl, rfl, rfl⟩
    refine .ite stored ?_
    split
    · exact stored
    · next b _ =>
      have retried := Part.retryDue_options stored
      have freed := Part.optionsSound.ite (c := r.state = .engaged) (Part.shareChanged_options
        (Part.modBay_options retried b (fun x => { x with penalty := 0 })) (p.bay b).feeder) retried
      exact Part.derive_options (.ite (Part.occupied_options freed b) freed) b

/-- A demotion lowers the priority class, to class 4 at the lowest, and empties the extension stack (R88). -/
theorem Record.demoted_options (h : r.optionsSound) (now : Nat) : (r.demoted now).optionsSound := by
  obtain ⟨rate, _, low, high⟩ := h
  refine ⟨rate, fun _ e => absurd e List.not_mem_nil, ?_, ?_⟩
  · show 1 ≤ min (r.priority + 1) 4
    omega
  · show min (r.priority + 1) 4 ≤ 4
    omega

theorem Part.demote_options (h : p.optionsSound) (s : SlotId) : (p.demote s).optionsSound := by
  unfold Part.demote
  split
  · exact h
  · next r hr =>
    have stored := Part.retryDue_options (Part.put_options h s (Record.demoted_options (h s r hr) p.now))
    refine .ite ?_ (Part.closeRecord_options h s _ _)
    dsimp only
    split
    · exact Part.derive_options stored _
    · exact stored

theorem Part.relocate_options (h : p.optionsSound) (s : SlotId) : (p.relocate s).optionsSound := by
  unfold Part.relocate
  split
  · exact h
  · next r hr =>
    split
    · exact h
    · next a _ =>
      refine .ite h (.ite (Part.closeRecord_options h s _ _) ?_)
      split
      · next c _ =>
        have stored := Part.put_same_options h hr (r := r.relocated c p.now) ⟨rfl, rfl, rfl⟩
        exact Part.retryDue_options (Part.armChecks_options (Part.derive_options (Part.derive_options stored a) c) s)
      · exact Part.demote_options h s

theorem Part.leadCheck_options (h : p.optionsSound) (s : SlotId) : (p.leadCheck s).optionsSound := by
  unfold Part.leadCheck
  split
  · exact h
  · split
    · exact h
    · exact .ite (Part.relocate_options h s) h

theorem Part.walkBlocked_options (h : p.optionsSound) (x : Blocked) : (p.walkBlocked x).optionsSound := by
  unfold Part.walkBlocked
  refine .foldl _ (fun p s _ h => ?_) h
  split
  · exact h
  · exact .ite (Part.relocate_options h s) h

theorem Part.settle_options (h : p.optionsSound) (s : SlotId) (cause : SettleCause) : (p.settle s cause).optionsSound :=
  Part.updSession_options h s _

theorem Part.endSession_options (h : p.optionsSound) (s : SlotId) (cause : SettleCause) :
    (p.endSession s cause).optionsSound := by
  unfold Part.endSession
  split
  · exact h
  · split
    · exact Part.closeRecord_options h s _ _
    · exact h
    all_goals exact Part.settle_options h s _

theorem Part.tryWaiting_options (h : p.optionsSound) (s : SlotId) : (p.tryWaiting s).optionsSound := by
  unfold Part.tryWaiting
  split
  · exact h
  · next r hr =>
    refine .ite h ?_
    dsimp only
    split
    · next b _ =>
      have stored := Part.put_same_options h hr (r := r.placed b (max r.windowStart p.now) p.now) ⟨rfl, rfl, rfl⟩
      exact Part.armChecks_options (Part.derive_options stored b) s
    · exact h

/-! ### The completion of an event -/

theorem Part.openNext_options (h : p.optionsSound) : p.openNext.optionsSound := by
  unfold Part.openNext
  split
  · exact h.of_pool rfl
  · exact h

theorem Part.endExchange_options (h : p.optionsSound) (a : PostId) : (p.endExchange a).optionsSound := h.of_pool rfl

theorem Part.cut_options (h : p.optionsSound) (a : PostId) : (p.cut a).optionsSound := by
  unfold Part.cut
  split
  · exact .ite (Part.endExchange_options h a) h
  · exact h

theorem Part.takeBlocked_options (h : p.optionsSound) : p.takeBlocked.optionsSound :=
  .foldl _ (fun _ x _ h => Part.walkBlocked_options h x) (h.of_pool rfl)

theorem Part.takeLeads_options (h : p.optionsSound) : p.takeLeads.optionsSound :=
  .foldl _ (fun _ s _ h => Part.leadCheck_options h s) (h.of_pool rfl)

theorem Part.takeRetry_options (h : p.optionsSound) : p.takeRetry.optionsSound := by
  have scanned : p.retry.takeLeads.optionsSound :=
    Part.takeLeads_options (.foldl _ (fun _ s _ h => Part.tryWaiting_options h s) h)
  exact .ite (scanned.of_pool rfl) h

theorem Part.takeIdle_options (h : p.optionsSound) : p.takeIdle.optionsSound :=
  .foldl _ (fun p a _ h => h.of_pool (p.evalIdle_pool a).1) (h.of_pool rfl)

theorem Part.takeExchange_options (h : p.optionsSound) : p.takeExchange.optionsSound :=
  .ite (Part.openNext_options (h.of_pool rfl)) h

theorem Part.finish_options (h : p.optionsSound) : p.finish.optionsSound :=
  (Part.takeExchange_options (Part.takeIdle_options (Part.takeRetry_options (Part.takeLeads_options
    (Part.takeBlocked_options h))))).of_pool rfl

end

section
variable {p : Part}

/-! ### Recomputes and ticks -/

theorem Part.modFeeder_options (h : p.optionsSound) (f : FeederId) (g : Feeder → Feeder) : (p.modFeeder f g).optionsSound :=
  h.of_pool rfl

theorem Part.outstanding_options (h : p.optionsSound) (o : Outstanding) :
    Part.optionsSound { p with outstanding := o } := h.of_pool rfl

theorem Part.modBays_options (h : p.optionsSound) (l : List BayId) (g : BayId → Bay → Bay) :
    (l.foldl (fun p b => p.modBay b (g b)) p).optionsSound :=
  .foldl _ (fun _ b _ h => Part.modBay_options h b _) h

theorem Part.share_options (h : p.optionsSound) (f : FeederId) : (p.share f).optionsSound := by
  refine Part.modFeeder_options (Part.modFeeder_options (.foldl _ (fun p m _ h => ?_) ?_) f _) f _
  · exact Part.updSession_options h _ _
  · exact Part.modBays_options h _ _

theorem Part.recompute_options (h : p.optionsSound) (f : FeederId) : (p.recompute f).optionsSound :=
  .ite (Part.modFeeder_options h f _) (Part.share_options h f)

theorem Part.recomputes_options (h : p.optionsSound) (l : List FeederId) : (l.foldl Part.recompute p).optionsSound :=
  .foldl _ (fun _ f _ h => Part.recompute_options h f) h

theorem Part.tripFeeder_options (h : p.optionsSound) (f : FeederId) : (p.tripFeeder f).optionsSound :=
  Part.recompute_options (Part.modFeeder_options h f _) f

theorem Part.restore_options (h : p.optionsSound) (f : FeederId) : (p.restore f).optionsSound :=
  Part.retryDue_options (Part.recompute_options (Part.modFeeder_options h f _) f)

theorem Part.levelChanged_options (h : p.optionsSound) (f : FeederId) (active : Bool) :
    (p.levelChanged f active).optionsSound := by
  have stored := Part.modFeeder_options h f (fun x => { x with active := active, notice := true })
  exact .ite (.ite (Part.tripFeeder_options stored f) stored)
    (.ite (Part.recompute_options (Part.modFeeder_options stored f _) f) stored)

theorem Part.countDown_options (h : p.optionsSound) (b : BayId) : (p.countDown b).optionsSound := by
  have lowered := Part.modBay_options h b (fun x => { x with penalty := (p.bay b).penalty - 1 })
  exact .ite h (.ite (Part.shareChanged_options lowered _) lowered)

theorem Part.penalize_options (h : p.optionsSound) (f : FeederId) : (p.penalize f).optionsSound := by
  unfold Part.penalize
  refine Part.modFeeder_options ?_ f _
  split
  · exact h
  · next b _ =>
    have set := Part.shareChanged_options (Part.modBay_options h b (fun x => { x with penalty := Config.penaltyTicks })) f
    dsimp only
    split
    · exact Part.updSession_options set _ _
    · exact set

theorem Part.checkOverdraw_options (h : p.optionsSound) (f : FeederId) : (p.checkOverdraw f).optionsSound :=
  .ite (Part.penalize_options h f) (Part.modFeeder_options h f _)

theorem Part.shareTick_options (h : p.optionsSound) : p.shareTick.optionsSound := by
  have ticked : (allFeeders.foldl Part.shareTickOf p).optionsSound := .foldl _ (fun p f _ h => by
    have counted := Part.optionsSound.foldl (p.baysOfFeeder f) (fun _ b _ h => Part.countDown_options h b) h
    exact Part.recompute_options (Part.modFeeder_options (Part.checkOverdraw_options counted f) f _) f) h
  exact Part.outstanding_options ticked _

theorem Part.meterSlot_options (h : p.optionsSound) (s : SlotId) : (p.meterSlot s).optionsSound := by
  unfold Part.meterSlot
  split
  · exact h
  · split
    · exact h
    · exact .ite (Part.updSession_options h s _) h

theorem Part.checkSlot_options (h : p.optionsSound) (s : SlotId) : (p.checkSlot s).optionsSound := by
  unfold Part.checkSlot
  split
  · exact h
  · split
    · exact h
    · exact .ite (Part.updSession_options h s _) h

theorem Part.sessionTick_options (h : p.optionsSound) : p.sessionTick.optionsSound := by
  have ticked : (allSlots.foldl (fun p s => (p.meterSlot s).checkSlot s) p).optionsSound :=
    .foldl _ (fun _ s _ h => Part.checkSlot_options (Part.meterSlot_options h s) s) h
  exact Part.outstanding_options ticked _

/-! ### Posts -/

theorem Part.setPost_options (h : p.optionsSound) (a : PostId) (x : Post) : (p.setPost a x).optionsSound := h.of_pool rfl

theorem Part.modPost_options (h : p.optionsSound) (a : PostId) (g : Post → Post) : (p.modPost a g).optionsSound :=
  h.of_pool rfl

theorem Part.derives_options (h : p.optionsSound) (l : List BayId) : (l.foldl Part.derive p).optionsSound :=
  .foldl _ (fun _ b _ h => Part.derive_options h b) h

theorem Part.haltBay_options (h : p.optionsSound) (b : BayId) : (p.haltBay b).optionsSound := by
  unfold Part.haltBay
  split
  · exact h
  · split
    · exact h
    · exact .ite (Part.closeRecord_options h _ _ _) (Part.updSession_options h _ _)

theorem Part.meterGap_options (h : p.optionsSound) (b : BayId) : (p.meterGap b).optionsSound := by
  unfold Part.meterGap
  split
  · exact Part.modFeeder_options h _ _
  · exact h

theorem Part.darken_options (h : p.optionsSound) (bays : List BayId) : (p.darken bays).optionsSound :=
  .foldl _ (fun _ b _ h => Part.haltBay_options h b)
    (Part.derives_options (Part.modBays_options h bays (fun _ x => { x with verify := .idle })) bays)

theorem Part.leavePost_options (h : p.optionsSound) (a : PostId) (x : Post) : (p.leavePost a x).optionsSound := by
  have stored := Part.setPost_options h a x
  exact .ite (Part.recomputes_options (Part.darken_options stored _) _) stored

theorem Part.isolate_options (h : p.optionsSound) (a : PostId) (cause : IsolationCause) : (p.isolate a cause).optionsSound :=
  Part.leavePost_options h a _

theorem Part.lose_options (h : p.optionsSound) (a : PostId) : (p.lose a).optionsSound :=
  Part.leavePost_options (.foldl _ (fun _ b _ h => Part.meterGap_options h b)
    (Part.modBays_options h _ (fun _ => Bay.lost))) a _

theorem Part.reseek_options (h : p.optionsSound) (a : PostId) : (p.reseek a).optionsSound := Part.leavePost_options h a _

theorem Part.activate_options (h : p.optionsSound) (a : PostId) : (p.activate a).optionsSound :=
  Part.retryDue_options (Part.derives_options (Part.touchPost_options (Part.modPost_options h a _) a) _)

theorem Part.sessionReply_options (h : p.optionsSound) (b : BayId) (v : SocketReading) (k : Bool) :
    (p.sessionReply b v k).optionsSound := by
  unfold Part.sessionReply
  split
  · exact h
  · split
    · exact h
    · split
      · exact h
      · refine .ite ?_ (.ite (Part.settle_options h _ _) (.ite (Part.updSession_options h _ _) h))
        split
        · exact .ite (Part.closeRecord_options h _ _ _) h
        · exact h

theorem Part.writeSocket_options (h : p.optionsSound) (first : Bool) (b : BayId) (v : SocketReading) :
    (p.writeSocket first b v).optionsSound := by
  have stored : (p.setBay b ((p.bay b).written v)).optionsSound := h.of_pool rfl
  have seen := Part.optionsSound.ite (c := (first || decide ((p.bay b).occupancy ≠ ((p.bay b).written v).occupancy)) = true)
    (Part.occupancyEvent_options stored b v.occupied) stored
  have served := Part.sessionReply_options seen b v ((p.bay b).plug ≠ ((p.bay b).written v).plug)
  exact .ite (Part.recompute_options served _) served

theorem Part.writeReadings_options (h : p.optionsSound) (first : Bool) (a : PostId) (r : LinkReply) :
    (p.writeReadings first a r).optionsSound := by
  unfold Part.writeReadings
  dsimp only
  split <;> split
  · exact Part.writeSocket_options (Part.writeSocket_options h _ _ _) _ _ _
  · exact Part.writeSocket_options h _ _ _
  · exact Part.writeSocket_options h _ _ _
  · exact h

theorem Part.takeReply_options (h : p.optionsSound) (a : PostId) (r : LinkReply) : (p.takeReply a r).optionsSound := by
  have counted := Part.modPost_options h a (fun x => x.answered r.fault)
  have isolated := Part.isolate_options counted a .postFault
  have written := Part.writeReadings_options counted false a r
  unfold Part.takeReply
  dsimp only
  split
  · exact .ite isolated (.ite (Part.modPost_options counted a _) counted)
  · exact .ite isolated (.ite (Part.modPost_options counted a _) counted)
  · exact .ite isolated (.ite (Part.writeReadings_options (Part.activate_options counted a) true a r) counted)
  · exact .ite isolated written
  · exact .ite isolated (.ite (Part.wakePost_options written a) written)
  · exact .ite isolated (.ite (Part.activate_options (Part.modPost_options written a _) a) written)
  · exact counted
  · exact counted

theorem Part.takeMiss_options (h : p.optionsSound) (a : PostId) : (p.takeMiss a).optionsSound := by
  have counted := Part.modPost_options h a Post.missed
  have lost := Part.lose_options counted a
  unfold Part.takeMiss
  dsimp only
  split
  any_goals exact counted
  all_goals exact .ite lost counted

theorem Part.prepareLimit_options (h : p.optionsSound) (a : PostId) : (p.prepareLimit a).optionsSound := by
  unfold Part.prepareLimit
  split
  · exact .ite (Part.isolate_options h a _) h
  all_goals exact h

theorem Part.wakeLimit_options (h : p.optionsSound) (a : PostId) : (p.wakeLimit a).optionsSound := by
  have counted := Part.modPost_options h a (fun x => { x with slowWakes := x.slowWakes + 1, notice := true })
  unfold Part.wakeLimit
  split
  · exact .ite (.ite (Part.modPost_options counted a _) (Part.isolate_options counted a _)) h
  all_goals exact h

/-! ### Timed events, minutes and ticks -/

theorem Part.deriveBayOf_options (h : p.optionsSound) (s : SlotId) : (p.deriveBayOf s).optionsSound := by
  unfold Part.deriveBayOf
  split
  · exact Part.derive_options h _
  · exact h

theorem Part.clearTallies_options (h : p.optionsSound) : p.clearTallies.optionsSound :=
  .foldl _ (fun p r _ h => h.of_pool (p.setRule_pool r _)) h

theorem Part.takeRollover_options (h : p.optionsSound) : p.takeRollover.optionsSound := by
  have stored : Part.optionsSound { p with clock := { p.clock with
      lastDay := some (dayNumber p.settings.rolloverMinute p.now) } } := h.of_pool rfl
  unfold Part.takeRollover
  exact Part.clearTallies_options stored

/-- A timed event changes no option, but for the demotion that a lead check may end in (R88, R112). -/
theorem Part.takeTimed_options (h : p.optionsSound) (e : Timed) : (p.takeTimed e).optionsSound := by
  cases e with
  | leadCheck s =>
    have marked := Part.modRecord_options h s (g := fun r => { r with leadTaken := true }) (fun _ => ⟨rfl, rfl, rfl⟩)
    exact Part.leadCheck_options marked s
  | wakeCheck s =>
    have marked := Part.modRecord_options h s (g := fun r => { r with wakeTaken := true }) (fun _ => ⟨rfl, rfl, rfl⟩)
    unfold Part.takeTimed
    dsimp only
    split
    · exact Part.wakeBay_options marked _
    · exact marked
  | windowStart s =>
    exact Part.deriveBayOf_options (Part.modRecord_options h s (g := fun r => { r.flag .windowStart with state := .held })
      (fun _ => ⟨rfl, rfl, rfl⟩)) s
  | graceEnd s => exact Part.closeRecord_options h s _ _
  | windowEnd s =>
    have marked := Part.modRecord_options h s (g := fun r => { r with endTaken := true }) (fun _ => ⟨rfl, rfl, rfl⟩)
    exact .ite (Part.updSession_options marked s _) (Part.closeRecord_options h s _ _)
  | deadline s => exact Part.closeRecord_options h s _ _
  | verify b => exact Part.derive_options (Part.modBay_options h b _) b
  | idle a =>
    unfold Part.takeTimed Part.takeIdleTimer
    exact .ite (Part.modPost_options h a _) (Part.modPost_options h a _)
  | rollover => exact Part.takeRollover_options h

theorem Part.timedEvent_options (h : p.optionsSound) (e : Timed) : (p.timedEvent e).optionsSound :=
  .ite (Part.takeTimed_options h e) h

theorem Part.takeMinute_options (fuel : Nat) (h : p.optionsSound) : (p.takeMinute fuel).optionsSound := by
  induction fuel generalizing p with
  | zero => exact h
  | succ k ih =>
    unfold Part.takeMinute
    split
    · exact h
    · next e q hc =>
      obtain ⟨_, i, rfl⟩ := Part.chooseDue_some hc
      exact ih (Part.finish_options (Part.takeTimed_options (p := { p with choices := i }) (h.of_pool rfl) e))

theorem Part.minuteEvents_options (h : p.optionsSound) : p.minuteEvents.optionsSound := by
  unfold Part.minuteEvents
  exact Part.takeMinute_options _ (Part.finish_options (Part.touchActive_options (h.of_pool rfl)))

theorem Part.nextMinute_options (h : p.optionsSound) : p.nextMinute.optionsSound := h.of_pool rfl

theorem Part.flushMinute_options (h : p.optionsSound) : p.flushMinute.optionsSound := .ite (Part.minuteEvents_options h) h

theorem Part.advanceSecond_options (h : p.optionsSound) : p.advanceSecond.optionsSound := by
  have wrapped : Part.optionsSound { p with clock := { p.clock with second := 0 } } := h.of_pool rfl
  exact .ite (h.of_pool rfl)
    (.ite ((Part.nextMinute_options (Part.flushMinute_options wrapped)).of_pool rfl) wrapped)

theorem Part.flushTicks_options (h : p.optionsSound) : p.flushTicks.optionsSound := by
  have session := Part.finish_options (Part.sessionTick_options h)
  have share := Part.finish_options (Part.shareTick_options h)
  refine .ite ?_ (.ite session (.ite share h))
  obtain ⟨k, hk⟩ := p.inFreeOrder_part [Part.sessionTick, Part.shareTick]
  have mem := p.inFreeOrder_mem [Part.sessionTick, Part.shareTick]
  generalize p.inFreeOrder [Part.sessionTick, Part.shareTick] = c at hk mem
  obtain ⟨order, q⟩ := c
  cases hk
  refine .foldl _ (fun p f hf h => Part.finish_options ?_) (h.of_pool rfl)
  have := mem f hf
  simp only [List.mem_cons, List.not_mem_nil, or_false] at this
  rcases this with e | e
  · exact e ▸ Part.sessionTick_options h
  · exact e ▸ Part.shareTick_options h

theorem Part.tick_options (h : p.optionsSound) : p.tick.optionsSound :=
  (Part.advanceSecond_options (Part.flushTicks_options h)).of_pool rfl

theorem Part.minuteEvent_options (h : p.optionsSound) : p.minuteEvent.optionsSound :=
  .ite h (.ite (Part.minuteEvents_options h)
    (.ite (Part.minuteEvents_options (Part.nextMinute_options (h.of_pool rfl))) h))

theorem Part.setFromUnset_options (h : p.optionsSound) (minute second : Nat) : (p.setFromUnset minute second).optionsSound := by
  refine Part.touchActive_options (.foldl _ (fun q b _ h => ?_) (h.of_pool rfl))
  split
  · exact Part.modBay_options h b _
  · exact h
  · exact h

theorem Part.stepForward_options (k : Nat) (h : p.optionsSound) : (p.stepForward k).optionsSound := by
  induction k generalizing p with
  | zero => exact h
  | succ k ih => exact ih (Part.minuteEvents_options (Part.nextMinute_options h))

theorem Part.stepClock_options (h : p.optionsSound) (minute second : Nat) : (p.stepClock minute second).optionsSound := by
  have stepped := Part.optionsSound.ite (c := minute < p.clock.minute)
    (p := { p with clock := { p.clock with minute := minute }, outstanding := { p.outstanding with minute := false } })
    (h.of_pool rfl) (.ite (c := minute = p.clock.minute) h
      (Part.stepForward_options (minute - p.clock.minute) (Part.flushMinute_options h)))
  exact stepped.of_pool rfl

end

section
variable {p : Part}

/-! ### Requests on bays, feeders and posts -/

/-- A request that answers in one of two ways. -/
theorem Part.optionsSound.ite_snd {c : Prop} [Decidable c] {x y : Answer × Part} (hx : x.2.optionsSound)
    (hy : y.2.optionsSound) : (if c then x else y).2.optionsSound := by
  split
  · exact hx
  · exact hy

theorem Part.optionsSound.answer (h : p.optionsSound) (a : Answer) : (a, p).2.optionsSound := h

theorem Part.configureBay_options (h : p.optionsSound) (q : BayConfig) : (p.configureBay q).optionsSound :=
  Part.touchPost_options (Part.derive_options (Part.modBay_options h _ _) _) _

theorem Part.changeBay_options (h : p.optionsSound) (q : BayConfig) : (p.changeBay q).optionsSound := by
  have stored := fun g => Part.modBay_options h q.bay g
  unfold Part.changeBay
  dsimp only
  have moved := fun g => Part.touchPost_options (Part.touchPost_options (Part.derive_options (stored g) q.bay)
    (p.bay q.bay).post) q.post
  exact .ite h (.ite (Part.recompute_options (.ite (moved _) (stored _)) _) (.ite (moved _) (stored _)))

theorem Part.removeBay_options (h : p.optionsSound) (b : BayId) : (p.removeBay b).optionsSound :=
  Part.touchPost_options (Part.derive_options (Part.modBay_options h b _) b) _

theorem Part.setBayRequest_options (h : p.optionsSound) (q : BaySetReq) : (p.setBayRequest q).2.optionsSound := by
  unfold Part.setBayRequest
  split
  · exact h
  · next c _ =>
    refine .ite_snd h ?_
    dsimp only
    split
    · exact Part.configureBay_options h c
    · exact Part.changeBay_options h c
    · exact Part.removeBay_options h _
    · exact h

theorem Part.takeOut_options (h : p.optionsSound) (b : BayId) : (p.takeOut b).optionsSound := by
  have out := Part.deriveWith_options (Part.modBay_options h b (fun x => { x with service := .out, notice := true })) false b
  have reported : ∀ u : Part, u.optionsSound → (u.reportBlocked b true).optionsSound := fun _ hu => hu.of_pool rfl
  unfold Part.takeOut
  refine reported _ ?_
  split
  · exact Part.endSession_options out _ _
  · exact out

theorem Part.takeIn_options (h : p.optionsSound) (b : BayId) : (p.takeIn b).optionsSound :=
  Part.retryDue_options (Part.derive_options (Part.modBay_options h b _) b)

theorem Part.bayServiceRequest_options (h : p.optionsSound) (q : BayServiceReq) :
    (p.bayServiceRequest q).2.optionsSound := by
  unfold Part.bayServiceRequest
  split
  · refine .ite_snd h (.ite_snd h ?_)
    split
    · exact .ite_snd h (Part.takeOut_options h _)
    · exact Part.takeIn_options h _
  · exact h

theorem Part.changeFeeder_options (h : p.optionsSound) (f : FeederId) (q : FeederSetReq) :
    (p.changeFeeder f q).optionsSound := by
  have stored := Part.modFeeder_options h f (fun _ =>
    if (p.feeder f).configuredAs q = p.feeder f then p.feeder f else { (p.feeder f).configuredAs q with notice := true })
  exact .ite (Part.tripFeeder_options stored f) (.ite (Part.restore_options stored f)
    (.ite (Part.recompute_options stored f) stored))

theorem Part.setFeederRequest_options (h : p.optionsSound) (q : FeederSetReq) :
    (p.setFeederRequest q).2.optionsSound := by
  unfold Part.setFeederRequest
  split
  · exact h
  · next f _ =>
    refine .ite_snd h ?_
    have retried : ∀ {u : Part} {c : Prop} [Decidable c], u.optionsSound → (if c then u.retryDue else u).optionsSound :=
      fun hu => .ite (Part.retryDue_options hu) hu
    refine retried ?_
    have written := fun g => Part.modFeeder_options h f g
    split
    · exact .ite (.ite (Part.tripFeeder_options (written _) f) (Part.recompute_options (written _) f)) (written _)
    all_goals exact .ite (Part.changeFeeder_options h f q) (written _)

theorem Part.trimRequest_options (h : p.optionsSound) (q : Nat × Nat) : (p.trimRequest q).2.optionsSound := by
  unfold Part.trimRequest
  split
  · exact h
  · exact .ite_snd h (.ite h (Part.recompute_options (Part.modFeeder_options h _ _) _))

theorem Part.clearFlagsRequest_options (h : p.optionsSound) (q : Nat × Nat) : (p.clearFlagsRequest q).2.optionsSound := by
  unfold Part.clearFlagsRequest
  split
  · exact Part.modFeeder_options h _ _
  · exact h

theorem Part.withdraw_options (h : p.optionsSound) (a : PostId) : (p.withdraw a).optionsSound := by
  have stored := Part.setPost_options (Part.modBays_options h (p.baysOfPost a) (fun _ => Bay.withdrawn)) a
    (p.post a).withdrawn
  exact Part.cut_options (.ite (Part.darken_options stored _) stored) a

theorem Part.setPostRequest_options (h : p.optionsSound) (q : Nat × Bool) : (p.setPostRequest q).2.optionsSound := by
  unfold Part.setPostRequest
  split
  · exact h
  · next a _ =>
    split
    · exact Part.modPost_options h a _
    · exact h
    · exact h
    · exact .ite_snd h (Part.withdraw_options h a)

theorem Part.forceRequest_options {act : PostId → Part → Option Part} (h : p.optionsSound)
    (acts : ∀ a done, act a p = some done → done.optionsSound) (q : Nat × Nat) : (p.forceRequest act q).2.optionsSound := by
  unfold Part.forceRequest
  split
  · exact h
  · refine .ite_snd h (.ite_snd h ?_)
    split
    · exact h
    · next hd => exact acts _ _ hd

theorem Part.forceReseek_options (h : p.optionsSound) (a : PostId) (done : Part) (e : p.forceReseek a = some done) :
    done.optionsSound := by
  cases e
  exact Part.cut_options (Part.reseek_options h a) a

theorem Part.forceIsolate_options (h : p.optionsSound) (a : PostId) (done : Part) (e : p.forceIsolate a = some done) :
    done.optionsSound := by
  cases e
  exact Part.cut_options (Part.isolate_options h a _) a

theorem Part.forceWake_options (h : p.optionsSound) (a : PostId) (done : Part) (e : p.forceWake a = some done) :
    done.optionsSound := by
  unfold Part.forceWake at e
  split at e
  · cases e
    exact Part.cut_options (Part.wakePost_options h a) a
  · cases e

/-! ### Requests on the clock, the settings and the policy table -/

theorem Part.clockSetRequest_options (h : p.optionsSound) (q : Nat × Nat) : (p.clockSetRequest q).2.optionsSound := by
  unfold Part.clockSetRequest
  have set := Part.setFromUnset_options h q.1 q.2
  have stepped := Part.stepClock_options h q.1 q.2
  exact .ite_snd (h.answer _) (.ite_snd (set.answer _) (.ite_snd (h.answer _) (stepped.answer _)))

theorem Part.leadChanged_options (h : p.optionsSound) : p.leadChanged.optionsSound := by
  have marked : (p.upcomingSlots.foldl (fun q s => q.modRecord s (fun r =>
      { r with leadTaken := q.reached r.windowStart q.settings.lead })) p).optionsSound :=
    .foldl _ (fun _ s _ h => Part.modRecord_options h s (fun _ => ⟨rfl, rfl, rfl⟩)) h
  unfold Part.leadChanged
  dsimp only
  generalize p.upcomingSlots.foldl _ p = u at marked ⊢
  generalize u.upcomingSlots.filter _ = due
  obtain ⟨k, hk⟩ := u.inFreeOrder_part due
  rw [hk]
  exact Part.retryDue_options (.foldl _ (fun _ _ _ h => h.of_pool rfl) (marked.of_pool rfl))

theorem Part.standbyLeadChanged_options (h : p.optionsSound) : p.standbyLeadChanged.optionsSound := by
  refine Part.touchActive_options (.foldl _ (fun q s _ h => ?_) h)
  have marked := fun k : Bool => Part.modRecord_options h s (g := fun r => { r with wakeTaken := k })
    (fun _ => ⟨rfl, rfl, rfl⟩)
  dsimp only
  split
  · exact .ite (Part.wakeBay_options (marked _) _) (marked _)
  · exact marked _

theorem Part.applySettings_options (h : p.optionsSound) (x : Settings) : (p.applySettings x).optionsSound := by
  have opt : ∀ {c : Prop} [Decidable c] {u : Part} (g : Part → Part), u.optionsSound →
      (∀ v : Part, v.optionsSound → (g v).optionsSound) → (if c then g u else u).optionsSound :=
    fun g hu hg => .ite (hg _ hu) hu
  have stored : Part.optionsSound { p with settings := x } := h.of_pool rfl
  unfold Part.applySettings
  dsimp only
  refine opt Part.recomputeAll (opt Part.touchActive (opt Part.standbyLeadChanged (opt Part.leadChanged
    (opt Part.rolloverChanged stored ?_) ?_) ?_) ?_) ?_
  · exact fun v hv => hv.of_pool rfl
  · exact fun v hv => Part.leadChanged_options hv
  · exact fun v hv => Part.standbyLeadChanged_options hv
  · exact fun v hv => Part.touchActive_options hv
  · exact fun v hv => Part.recomputes_options hv _

theorem Part.partSetRequest_options (h : p.optionsSound) (q : Settings) : (p.partSetRequest q).2.optionsSound := by
  unfold Part.partSetRequest
  exact .ite_snd h (.ite_snd h (Part.applySettings_options h q))

theorem Part.setRule_options (h : p.optionsSound) (r : RuleId) (x : Rule) : (p.setRule r x).optionsSound :=
  h.of_pool (p.setRule_pool r x)

theorem Part.ruleWriteRequest_options (h : p.optionsSound) (q : RuleWriteReq) : (p.ruleWriteRequest q).2.optionsSound := by
  unfold Part.ruleWriteRequest
  split
  · exact h
  · exact .ite_snd h (Part.setRule_options h _ _)

theorem Part.tallyClearRequest_options (h : p.optionsSound) (k : Nat) : (p.tallyClearRequest k).2.optionsSound := by
  unfold Part.tallyClearRequest
  refine .ite_snd (Part.clearTallies_options h) ?_
  split
  · exact h
  · exact Part.setRule_options h _ _

theorem Part.laneSetRequest_options (h : p.optionsSound) (q : LaneSetReq) : (p.laneSetRequest q).2.optionsSound := by
  unfold Part.laneSetRequest
  split
  · exact h
  · exact h.of_pool rfl

theorem Part.bookReset_options (p : Part) : p.bookReset.optionsSound := by
  intro k r hr
  rw [p.bookReset_record k] at hr
  cases hr

/-! ### The options of a new record (R34, R59, R67) -/

theorem clampRate_range {q : Option Nat} {n : Nat} (h : clampRate q = some n) : 60 ≤ n ∧ n ≤ 800 := by
  obtain ⟨m, _, rfl⟩ := Option.map_eq_some_iff.1 h
  unfold Config.leastCurrent Config.largestCurrent
  omega

/-- A rule keeps a priority class, or takes its own or one of the two (R59). -/
theorem PriorityMode.apply_range (m : PriorityMode) {old value : Nat} (ho : 1 ≤ old ∧ old ≤ 4) (hv : 1 ≤ value ∧ value ≤ 4) :
    1 ≤ m.apply old value ∧ m.apply old value ≤ 4 := by
  cases m <;> simp only [PriorityMode.apply] <;> omega

/-- The rules lead from a priority class to a priority class (R59). -/
theorem Part.walkRules_priority (rules : ∀ r, (p.rule r).numbersSound) (l : Lane) (q : EvalInput) (rs : List RuleId)
    (a : Admission) (ha : 1 ≤ a.priority ∧ a.priority ≤ 4) {m : Admission} (h : p.walkRules l q rs a = .accepted m) :
    1 ≤ m.priority ∧ m.priority ≤ 4 := by
  induction rs generalizing a with
  | nil =>
    unfold Part.walkRules at h
    split at h
    · cases h
    · cases h
      exact ha
  | cons r rs ih =>
    have taken : 1 ≤ (a.take r (p.rule r)).priority ∧ (a.take r (p.rule r)).priority ≤ 4 :=
      PriorityMode.apply_range _ ha (rules r).priority
    unfold Part.walkRules at h
    dsimp only at h
    split at h
    · split at h
      · cases h
      · split at h
        · cases h
          exact taken
        · cases h
        · exact ih _ taken h
    · exact ih a ha h

theorem Part.evaluate_priority (policy : p.policySound) {q : EvalInput} {m : Admission} (h : p.evaluate q = .accepted m) :
    1 ≤ m.priority ∧ m.priority ≤ 4 :=
  Part.walkRules_priority policy.rule _ q allRules
    ⟨(p.lane q.asker.lane).priority, (p.lane q.asker.lane).eligible, 0, none, []⟩ (policy.lane q.asker.lane) h

/-- A new record has the rate cap of its request, no extension, and the priority class of its admission. -/
theorem Part.newRecord_options (p : Part) {n : NewRecord} (rate : ∀ k, n.rateCap = some k → 60 ≤ k ∧ k ≤ 800)
    (priority : 1 ≤ n.admission.priority ∧ n.admission.priority ≤ 4) (state : RecState) (bay : Option BayId) :
    (p.newRecord n state bay).optionsSound :=
  ⟨rate, fun _ e => absurd e List.not_mem_nil, priority⟩

/-! ### Requests on records -/

theorem Part.advanceTallies_options (h : p.optionsSound) (l : List RuleId) : (p.advanceTallies l).optionsSound :=
  .foldl _ (fun _ r _ h => Part.setRule_options h r _) h

theorem Part.bookPlaced_options (h : p.optionsSound) (s : SlotId) {n : NewRecord}
    (new : ∀ state bay, (p.newRecord n state bay).optionsSound) (b : BayId) : (p.bookPlaced s n b).2.optionsSound :=
  Part.advanceTallies_options (Part.derive_options (Part.armChecks_options (Part.put_options h s (new _ _)) s) b) _

theorem Part.bookWaiting_options (h : p.optionsSound) (s : SlotId) {n : NewRecord}
    (new : ∀ state bay, (p.newRecord n state bay).optionsSound) : (p.bookWaiting s n).2.optionsSound := by
  unfold Part.bookWaiting
  split
  · exact h
  · exact .ite_snd h (.ite_snd (Part.advanceTallies_options (Part.put_options h s (new _ _)) _) h)

theorem Part.bookInRange_options (h : p.optionsSound) (policy : p.policySound) (q : BookReq) (a : Asker)
    (pinned : Option BayId) : (p.bookInRange q a pinned).2.optionsSound := by
  unfold Part.bookInRange
  dsimp only
  split
  · exact h
  · split
    · exact h
    · exact h
    · next m hm =>
      split
      · exact h
      · next s _ _ =>
        have new := fun n (rate : n.rateCap = clampRate q.rateCap) (admission : n.admission = m) =>
          p.newRecord_options (n := n) (fun k e => clampRate_range (rate ▸ e)) (admission ▸ Part.evaluate_priority policy hm)
        split
        · exact Part.bookPlaced_options h s (new _ rfl rfl) _
        · exact Part.bookWaiting_options h s (new _ rfl rfl)

theorem Part.bookRequest_options (h : p.optionsSound) (policy : p.policySound) (q : BookReq) :
    (p.bookRequest q).2.optionsSound := by
  unfold Part.bookRequest
  split
  · exact h
  · exact Part.bookInRange_options h policy q _ _

theorem Part.findFreeRequest_options (h : p.optionsSound) (q : AskerReq × WindowReq) :
    (p.findFreeRequest q).2.optionsSound := by
  unfold Part.findFreeRequest
  split
  · exact h
  · dsimp only
    split
    · exact h
    · split <;> exact h

/-- A grant is a multiple of 5, and no longer than the longest window less the window (R81). -/
theorem Part.grant_range (p : Part) (s : SlotId) {r : Record} (window : r.windowStart < r.windowEnd) (b : BayId)
    (amount : Nat) : p.grant s r b amount % 5 = 0 ∧ p.grant s r b amount ≤ 715 := by
  have multiple : p.grant s r b amount % 5 = 0 := Nat.mul_mod_left _ 5
  have limit : p.grant s r b amount ≤ 720 + r.windowStart - r.windowEnd :=
    p.grant_le s r b amount _ (by simp [Part.grantLimits, Config.longestWindow])
  omega

theorem Record.extended_options {r : Record} (h : r.optionsSound) {g : Nat} (range : g % 5 = 0 ∧ g ≤ 715) (some_ : g ≠ 0) :
    (r.extended g).optionsSound := by
  obtain ⟨rate, extensions, priority⟩ := h
  refine ⟨rate, fun n hn => ?_, priority⟩
  rcases List.mem_cons.1 hn with rfl | old
  · omega
  · exact extensions n old

theorem Record.retracted_options {r : Record} {x : Nat} {rest : List Nat} (h : r.optionsSound) (hx : r.extensions = x :: rest) :
    (r.retracted x rest).optionsSound := by
  obtain ⟨rate, extensions, priority⟩ := h
  exact ⟨rate, fun n hn => extensions n (hx ▸ List.mem_cons_of_mem x hn), priority⟩

theorem Part.extendRequest_options (h : p.optionsSound) (windowed : p.allRecords Record.windowed) (q : Nat × Nat) :
    (p.extendRequest q).2.optionsSound := by
  unfold Part.extendRequest
  refine .ite_snd h ?_
  split
  · exact h
  · next s r hs =>
    obtain ⟨hr, _, _⟩ := Part.findLive_some hs
    split
    · next b chained _ =>
      refine .ite_snd h (.ite_snd h ?_)
      dsimp only
      split
      · exact h
      · next some_ =>
        exact Part.put_options h s
          (Record.extended_options (h s r hr) (p.grant_range s (windowed s r hr chained) b q.2) some_)
    · exact h

theorem Part.retractRequest_options (h : p.optionsSound) (k : Nat) : (p.retractRequest k).2.optionsSound := by
  unfold Part.retractRequest
  split
  · exact h
  · next s r hs =>
    obtain ⟨hr, _, _⟩ := Part.findLive_some hs
    split
    · exact h
    · next hx =>
      exact .ite_snd h (Part.retryDue_options (Part.put_options h s (Record.retracted_options (h s r hr) hx)))

theorem Part.cancelRequest_options (h : p.optionsSound) (k : Nat) : (p.cancelRequest k).2.optionsSound := by
  unfold Part.cancelRequest
  split
  · exact h
  · exact .ite_snd h (Part.closeRecord_options h _ _ _)

theorem Part.resGetRequest_options (h : p.optionsSound) (k : Nat) : (p.resGetRequest k).2.optionsSound := by
  unfold Part.resGetRequest
  split <;> exact h

theorem Part.takeArrival_options (h : p.optionsSound) (s : SlotId) (b : BayId) (cause : LastCause) (moved : Bool) :
    (p.takeArrival s b cause moved).optionsSound := by
  have waits := Part.modRecord_options h s (g := fun r => { r.flag cause with state := .arriving })
    (fun _ => ⟨rfl, rfl, rfl⟩)
  have taken := Part.optionsSound.ite (c := p.occupancyOf b = .occupied) (Part.engage_options h s cause)
    (.ite (c := moved = true) (Part.armChecks_options waits s) waits)
  exact Part.wakeBay_options (Part.derive_options taken b) b

theorem Part.arriveOwn_options (h : p.optionsSound) {s : SlotId} {r : Record} (hr : p.record s = some r) (b : BayId) :
    (p.arriveOwn s r b).2.optionsSound := by
  have stored := Part.put_same_options h hr (r := r.startingAt b (r.arrivalStart p.now)) ⟨rfl, rfl, rfl⟩
  have early := Part.takeArrival_options stored s b .arrive true
  have arrived := Part.takeArrival_options h s b .arrive false
  unfold Part.arriveOwn
  exact .ite_snd (h.answer _) (.ite_snd (h.answer _) (.ite_snd (.ite_snd (early.answer _) (h.answer _))
    (arrived.answer _)))

theorem Part.arriveOther_options (h : p.optionsSound) {s : SlotId} {r : Record} (hr : p.record s = some r) (a b : BayId) :
    (p.arriveOther s r a b).2.optionsSound := by
  have stored := Part.put_same_options h hr (r := r.startingAt b (r.arrivalStart p.now)) ⟨rfl, rfl, rfl⟩
  have arrived := Part.takeArrival_options (Part.retryDue_options (Part.derive_options stored a)) s b .arrive true
  unfold Part.arriveOther
  exact .ite_snd (arrived.answer _) (h.answer _)

theorem Part.arriveRequest_options (h : p.optionsSound) (q : Nat × Nat) : (p.arriveRequest q).2.optionsSound := by
  unfold Part.arriveRequest
  split
  · exact h
  · refine .ite_snd h ?_
    split
    · exact h
    · next hs =>
      obtain ⟨hr, _, _⟩ := Part.findLive_some hs
      split
      · exact .ite_snd h (.ite_snd (Part.arriveOwn_options h hr _) (Part.arriveOther_options h hr _ _))
      · exact h

theorem Part.walkinAccepted_options (h : p.optionsSound) (q : WalkinReq) (a : Asker) (b : BayId) {m : Admission}
    (priority : 1 ≤ m.priority ∧ m.priority ≤ 4) : (p.walkinAccepted q a b m).2.optionsSound := by
  unfold Part.walkinAccepted
  refine .ite_snd h (.ite_snd h (.ite_snd h ?_))
  split
  · exact h
  · next s _ _ =>
    dsimp only
    refine Part.advanceTallies_options (Part.takeArrival_options (Part.put_options h s ?_) s b _ _) _
    exact p.newRecord_options (fun _ e => clampRate_range e) priority _ _

theorem Part.walkinRequest_options (h : p.optionsSound) (policy : p.policySound) (q : WalkinReq) :
    (p.walkinRequest q).2.optionsSound := by
  unfold Part.walkinRequest
  split
  · refine .ite_snd h ?_
    split
    · exact h
    · exact h
    · next hm => exact Part.walkinAccepted_options h q _ _ (Part.evaluate_priority policy hm)
  · exact h

theorem Part.endSessionRequest_options (h : p.optionsSound) (k : Nat) : (p.endSessionRequest k).2.optionsSound := by
  unfold Part.endSessionRequest
  split
  · exact h
  · exact .ite_snd (Part.endSession_options h _ _) h

theorem Part.resume_options (h : p.optionsSound) {s : SlotId} {r : Record} (hr : p.record s = some r) {x : Session}
    {b : BayId} {added : Option Nat} {done : Part} (hd : p.resume s r x b added = .ok done) : done.optionsSound := by
  unfold Part.resume at hd
  dsimp only at hd
  split at hd
  · split at hd
    · cases hd
      exact Part.updSession_options h s _
    · cases hd
  · cases hd
    exact Part.updSession_options h s _
  · split at hd
    · cases hd
    · split at hd
      · cases hd
      · next n _ =>
        have raised := Part.put_same_options h hr (r := { r.flag .session with
          quota := some (min (r.quota.getD 0 + n) Config.largestQuota) }) ⟨rfl, rfl, rfl⟩
        cases hd
        exact Part.updSession_options raised s _
  all_goals cases hd

theorem Part.resumeRequest_options (h : p.optionsSound) (q : Nat × Option Nat) : (p.resumeRequest q).2.optionsSound := by
  unfold Part.resumeRequest
  split
  · exact h
  · next hs =>
    obtain ⟨hr, _, _⟩ := Part.findLive_some hs
    split
    · split
      · next hd => exact Part.resume_options h hr hd
      · exact h
    · exact h

end

section
variable {p : Part} {s t : State}

/-! ### The port and the completion of a command -/

theorem Part.release_options (h : p.optionsSound) (k : SlotId) :
    Part.optionsSound { p with pool := p.pool.release k } := by
  intro j r hr
  unfold Part.record at hr
  rw [Pool.record_release] at hr
  split at hr
  · cases hr
  · exact h j r hr

theorem State.choose_options (h : s.part.optionsSound) : s.choose.part.optionsSound := by
  have rule : s.chooseRule.part.optionsSound := by
    unfold State.chooseRule
    split
    · exact Part.setRule_options h _ _
    · exact h
  have bay : s.chooseBay.part.optionsSound := by
    unfold State.chooseBay
    split
    · exact Part.modBay_options h _ _
    · exact rule
  have feeder : s.chooseFeeder.part.optionsSound := by
    unfold State.chooseFeeder
    split
    · exact Part.modFeeder_options h _ _
    · exact bay
  have post : s.choosePost.part.optionsSound := by
    unfold State.choosePost
    split
    · exact Part.modPost_options h _ _
    · exact feeder
  have record : s.chooseRecord.part.optionsSound := by
    unfold State.chooseRecord
    split
    · exact Part.modRecord_options h _ (fun _ => ⟨rfl, rfl, rfl⟩)
    · exact post
  unfold State.choose State.chooseClose
  split
  · exact h
  · split
    · exact h
    · exact record

theorem State.done_options {u : State} (h : u.done = .next t) (hu : u.part.optionsSound) : t.part.optionsSound := by
  have finished : State.part { u with part := u.part.finish } |>.optionsSound := Part.finish_options hu
  cases h
  show (State.kick { u with part := u.part.finish }).part.optionsSound
  unfold State.kick
  split
  · exact finished
  · exact State.choose_options finished

theorem withObject_options {k i : Nat} {effect : Fin k → State} (h : withObject k i effect = .next t)
    (he : ∀ x, (effect x).part.optionsSound) : t.part.optionsSound := by
  unfold withObject at h
  split at h
  · exact State.done_options h (he _)
  · cases h

theorem State.serveWith_options {α : Type} (h : s.part.optionsSound) (k : Kind) (mine : List Byte → Bool) (rd : Rd α)
    {act : α → State → Answer × State} (acts : ∀ x u, u.part = s.part → (act x u).2.part.optionsSound) :
    (s.serveWith k mine rd act).part.optionsSound := by
  unfold State.serveWith
  split
  · exact h
  · next f rest _ =>
    dsimp only
    split
    · exact h
    · split
      · exact h
      · next req _ => exact acts req { s with port := { s.port with requests := rest } } rfl

theorem State.serve_options {α : Type} (h : s.part.optionsSound) {k : Kind} {mine : List Byte → Bool} {rd : Rd α}
    {act : α → Part → Answer × Part} (acts : ∀ x, (act x s.part).2.optionsSound) :
    (s.serve k mine rd act).part.optionsSound :=
  State.serveWith_options h k mine rd (fun x u e => by
    show (act x u.part).2.optionsSound
    rw [e]
    exact acts x)

theorem State.fullReset_options (s : State) : s.fullReset.part.optionsSound := by
  intro k r hr
  rw [s.fullReset_record k] at hr
  cases hr

theorem State.frameSent_options (h : s.part.optionsSound) : s.frameSent.part.optionsSound := by
  unfold State.frameSent
  split
  · exact h
  · dsimp only
    split
    · exact Part.release_options h _
    · exact State.fullReset_options _
    all_goals exact h

/-! ### Events of the blocks behind the port -/

theorem Part.debounce_options (h : p.optionsSound) (f : FeederId) : (p.debounce f).optionsSound := by
  have trip : ∀ x, (p.setTrip f x).optionsSound := fun x => h.of_pool rfl
  unfold Part.debounce
  dsimp only
  split
  · exact .ite (Part.levelChanged_options (trip _) f _) h
  · exact h

theorem Part.recovered_options (h : p.optionsSound) (f : FeederId) : (p.recovered f).optionsSound := by
  unfold Part.recovered
  split
  · exact .ite (Part.restore_options h f) h
  · exact h

theorem Part.settleExpired_options (h : p.optionsSound) (s : SlotId) : (p.settleExpired s).optionsSound := by
  unfold Part.settleExpired
  split
  · exact .ite (Part.closeRecord_options h s _ _) h
  · exact h

theorem Part.startRound_options (h : p.optionsSound) : p.startRound.optionsSound := by
  unfold Part.startRound
  split
  · exact h.of_pool rfl
  · exact h

theorem Part.commandSent_options (h : p.optionsSound) : p.commandSent.optionsSound := by
  unfold Part.commandSent
  split
  · split
    · exact h.of_pool rfl
    · exact h
  · exact h

theorem Part.replyReceived_options (h : p.optionsSound) (bytes : List Byte) : (p.replyReceived bytes).optionsSound := by
  unfold Part.replyReceived
  split
  · exact h
  · split
    · split
      · exact Part.endExchange_options (Part.takeReply_options h _ _) _
      · exact h
    · exact h

theorem Part.replyMissed_options (h : p.optionsSound) : p.replyMissed.optionsSound := by
  unfold Part.replyMissed
  split
  · exact h
  · split
    · split
      · exact Part.endExchange_options (Part.takeMiss_options h _) _
      · exact h
    · exact h

theorem Part.quotaEvent_options (h : p.optionsSound) (s : SlotId) : (p.quotaEvent s).optionsSound := by
  unfold Part.quotaEvent
  split
  · exact h
  · split
    · split
      · exact Part.meterSlot_options h s
      · exact h
    · exact h

theorem Part.satisfiedEvent_options (h : p.optionsSound) (s : SlotId) : (p.satisfiedEvent s).optionsSound := by
  unfold Part.satisfiedEvent
  split
  · exact h
  · split
    · split
      · exact Part.checkSlot_options h s
      · exact h
    · exact h

/-! ### Every command -/

/-- Every command keeps the options of the records in their ranges: the policy table bounds the class of a new record, and
the window of a record the grant of an extension. -/
theorem exec_options {c : Instr} (e : exec c s = .next t) (h : s.part.optionsSound) (policy : s.part.policySound)
    (windowed : s.part.allRecords Record.windowed) : t.part.optionsSound := by
  have now : ∀ time, (s.at time).part.optionsSound := fun time => h.of_pool rfl
  have at_ : ∀ (time : Nat) (g : Part → Part), (∀ p : Part, p.optionsSound → (g p).optionsSound) →
      ((s.at time).onPart g).part.optionsSound := fun time g hg => hg _ (now time)
  cases c with
  | powerOn | rstN => cases e; exact s.fullReset_options
  | fullReset =>
    simp only [exec, execFullReset] at e
    split at e
    · split at e
      · cases e; exact s.fullReset_options
      · cases e; exact h
    · cases e; exact h
  | resetPartBook =>
    refine State.done_options e (State.serveWith_options h _ _ _ (fun x u hu => ?_))
    unfold State.resetBookRequest
    split
    · dsimp only
      exact u.part.bookReset_options
    · exact hu ▸ h
  | resetPartFull =>
    refine State.done_options e (State.serveWith_options h _ _ _ (fun x u hu => ?_))
    unfold State.resetFullRequest
    split <;> exact hu ▸ h
  | frameReceived tag kind payload =>
    simp only [exec, execFrameReceived] at e
    split at e
    · exact State.done_options e h
    · cases e
  | frameGapTimeout time =>
    simp only [exec, execFrameGapTimeout] at e
    split at e <;> exact State.done_options e (now time)
  | receivedByte b time =>
    simp only [exec, execReceivedByte] at e
    split at e <;> exact State.done_options e (now time)
  | unknownKind =>
    simp only [exec, execUnknownKind] at e
    split at e
    · exact State.done_options e h
    · split at e <;> exact State.done_options e h
  | frameSent => exact State.done_options e (State.frameSent_options h)
  | status =>
    exact State.done_options e (State.serveWith_options h _ _ _ (fun _ u hu => (hu ▸ h : u.part.optionsSound)))
  | identify | clockGet | partGet | waitListGet => exact State.done_options e (State.serve_options h (fun _ => h))
  | clockSet => exact State.done_options e (State.serve_options h (Part.clockSetRequest_options h))
  | partSet => exact State.done_options e (State.serve_options h (Part.partSetRequest_options h))
  | baySet | bayRemove => exact State.done_options e (State.serve_options h (Part.setBayRequest_options h))
  | bayGet =>
    refine State.done_options e (State.serve_options h (fun k => ?_))
    unfold Part.getBayRequest
    split <;> exact h
  | bayServiceOut | bayServiceIn =>
    exact State.done_options e (State.serve_options h (Part.bayServiceRequest_options h))
  | feederSet => exact State.done_options e (State.serve_options h (Part.setFeederRequest_options h))
  | feederGet =>
    refine State.done_options e (State.serve_options h (fun k => ?_))
    unfold Part.getFeederRequest
    split <;> exact h
  | feederTrim => exact State.done_options e (State.serve_options h (Part.trimRequest_options h))
  | feederClear => exact State.done_options e (State.serve_options h (Part.clearFlagsRequest_options h))
  | postSetInUse | postSetWithdraw => exact State.done_options e (State.serve_options h (Part.setPostRequest_options h))
  | postGet =>
    refine State.done_options e (State.serve_options h (fun k => ?_))
    unfold Part.getPostRequest
    split <;> exact h
  | postForceReseek =>
    exact State.done_options e (State.serve_options h (Part.forceRequest_options h (Part.forceReseek_options h)))
  | postForceIsolate =>
    exact State.done_options e (State.serve_options h (Part.forceRequest_options h (Part.forceIsolate_options h)))
  | postForceWake =>
    exact State.done_options e (State.serve_options h (Part.forceRequest_options h (Part.forceWake_options h)))
  | ruleWrite => exact State.done_options e (State.serve_options h (Part.ruleWriteRequest_options h))
  | ruleRead =>
    refine State.done_options e (State.serve_options h (fun k => ?_))
    unfold Part.ruleReadRequest
    split <;> exact h
  | tallyClear => exact State.done_options e (State.serve_options h (Part.tallyClearRequest_options h))
  | laneSet => exact State.done_options e (State.serve_options h (Part.laneSetRequest_options h))
  | laneGet =>
    refine State.done_options e (State.serve_options h (fun k => ?_))
    unfold Part.laneGetRequest
    split <;> exact h
  | book => exact State.done_options e (State.serve_options h (Part.bookRequest_options h policy))
  | findFree => exact State.done_options e (State.serve_options h (Part.findFreeRequest_options h))
  | extend => exact State.done_options e (State.serve_options h (Part.extendRequest_options h windowed))
  | retract => exact State.done_options e (State.serve_options h (Part.retractRequest_options h))
  | cancel => exact State.done_options e (State.serve_options h (Part.cancelRequest_options h))
  | resGet => exact State.done_options e (State.serve_options h (Part.resGetRequest_options h))
  | arrive => exact State.done_options e (State.serve_options h (Part.arriveRequest_options h))
  | arriveWalkin => exact State.done_options e (State.serve_options h (Part.walkinRequest_options h policy))
  | endSession => exact State.done_options e (State.serve_options h (Part.endSessionRequest_options h))
  | sessionResume => exact State.done_options e (State.serve_options h (Part.resumeRequest_options h))
  | tick time => exact State.done_options e (Part.tick_options (now time))
  | minuteEvent => exact State.done_options e (Part.minuteEvent_options h)
  | sessionTick => exact State.done_options e (Part.sessionTick_options h)
  | quotaMet slot => exact withObject_options e (Part.quotaEvent_options h)
  | satisfied slot => exact withObject_options e (Part.satisfiedEvent_options h)
  | shareTick => exact State.done_options e (Part.shareTick_options h)
  | overdrawPenalty feeder =>
    refine withObject_options e (fun x => ?_)
    show Part.optionsSound (if s.part.overdrawNext x ≥ Config.overdrawTicks then s.part.penalize x else s.part)
    exact .ite (Part.penalize_options h x) h
  | penaltyEnd bay =>
    refine withObject_options e (fun x => ?_)
    show Part.optionsSound (if (s.part.bay x).penalty = 1 then s.part.countDown x else s.part)
    exact .ite (Part.countDown_options h x) h
  | recompute feeder => exact withObject_options e (Part.recompute_options h)
  | leadCheck | wakeCheck | windowStart | graceEnd | windowEnd | waitingDeadline | verifyExpiry | idleTimer =>
    exact withObject_options e (fun x => Part.timedEvent_options h _)
  | rollover => exact State.done_options e (Part.timedEvent_options h _)
  | tripInputChange pin low time =>
    exact withObject_options e (fun x => at_ time (fun p => p.pinChanged x low) (fun p h => h.of_pool rfl))
  | debounce pin time => exact withObject_options e (fun x => at_ time _ (fun p h => Part.debounce_options h x))
  | recoveryTimer feeder time => exact withObject_options e (fun x => at_ time _ (fun p h => Part.recovered_options h x))
  | settleTimer slot time => exact withObject_options e (fun x => at_ time _ (fun p h => Part.settleExpired_options h x))
  | roundStart time => exact State.done_options e (at_ time _ (fun p h => Part.startRound_options h))
  | commandSent time => exact State.done_options e (at_ time _ (fun p h => Part.commandSent_options h))
  | reply bytes time =>
    simp only [exec, execReply] at e
    split at e
    · exact State.done_options e (at_ time _ (fun p h => Part.replyReceived_options h bytes))
    · cases e
  | replyGap bytes time =>
    simp only [exec, execReplyGap] at e
    split at e
    · exact State.done_options e (now time)
    · cases e
  | miss time => exact State.done_options e (at_ time _ (fun p h => Part.replyMissed_options h))
  | prepareLimit post time => exact withObject_options e (fun x => at_ time _ (fun p h => Part.prepareLimit_options h x))
  | wakeLimit post time => exact withObject_options e (fun x => at_ time _ (fun p h => Part.wakeLimit_options h x))

end

/-- What every store keeps, and every new record has, every step keeps. -/
theorem step_keeps_records {good : Record → Prop} {s t : State} (keeps : ∀ old new : Record, old.Keeps new → good old → good new)
    (fresh : ∀ r : Record, r.Fresh → good r) (sound : s.part.allRecords good) (e : step s = .next t) :
    t.part.allRecords good :=
  step_keeps (good := fun p => p.allRecords good) e sound
    (fun _ _ hu run => (exec_edits run).allRecords keeps fresh (hu ▸ sound))

/-- Settles O55: what a record that is stored keeps of the one before it, by `exec_edits`; its options by
`exec_options`. -/
theorem stepKeepsTheRecordsSound : Obligations.StepKeepsTheRecordsSound := by
  unfold Obligations.StepKeepsTheRecordsSound
  refine ⟨fun s t => ?_, fun s t => ?_, fun s t => ?_, fun s t => ?_, fun s t policy windowed options e => ?_⟩
  · exact step_keeps_records (fun _ _ k => k.window) (fun _ f => f.window)
  · exact step_keeps_records (fun _ _ k => k.residue) (fun _ f => f.residue)
  · exact step_keeps_records (fun _ _ k => k.energy) (fun _ f => f.energy)
  · exact step_keeps_records (fun _ _ k => k.phase) (fun _ f => f.phase)
  · exact step_keeps (good := Part.optionsSound) e options (fun c u hu run =>
      exec_options run (hu ▸ options) (hu ▸ policy) (hu ▸ windowed))

end Sys2Proof.Machine

namespace Sys2Proof.Machine

/-! ## O53: the walk over the rules -/

theorem Rule.full_iff (x : Rule) : x.full = true ↔ x.tally.enabled = true ∧ x.counter = x.tally.limit := by
  rw [Rule.full, Bool.and_eq_true, decide_eq_true_eq]

/-- The time-of-day test of R58: a range within one day, one over midnight, or no restriction. -/
theorem MatchB.timeMatches_iff (x : MatchB) (m : Nat) :
    x.timeMatches m = true ↔
      (x.timeStart < x.timeEnd → x.timeStart ≤ m ∧ m < x.timeEnd) ∧
      (x.timeEnd < x.timeStart → x.timeStart ≤ m ∨ m < x.timeEnd) := by
  unfold MatchB.timeMatches
  split
  · next day => simp [day, Nat.lt_asymm day]
  · next notDay =>
    split
    · next night => simp [notDay, night]
    · next notNight => simp [notDay, notNight]

theorem Rule.fires_iff (x : Rule) (q : EvalInput) :
    x.fires q = true ↔
      x.matchA.classes.getLsbD q.asker.vclass.val = true ∧ x.matchA.connectors.getLsbD q.asker.ctype.code = true ∧
      x.matchA.tierMin ≤ q.asker.tier.val ∧ q.asker.tier.val ≤ x.matchA.tierMax ∧
      (x.matchB.timeStart < x.matchB.timeEnd →
        x.matchB.timeStart ≤ q.start % 1440 ∧ q.start % 1440 < x.matchB.timeEnd) ∧
      (x.matchB.timeEnd < x.matchB.timeStart →
        x.matchB.timeStart ≤ q.start % 1440 ∨ q.start % 1440 < x.matchB.timeEnd) ∧
      x.matchB.durMin ≤ q.duration ∧ q.duration ≤ x.matchB.durMax := by
  simp only [Rule.fires, Bool.and_eq_true, decide_eq_true_eq, MatchB.timeMatches_iff, minuteOfDay, and_assoc]

/-- Rule `r` is in the lane's set, active, and matches (R58). -/
def Part.meets (p : Part) (l : Lane) (q : EvalInput) (r : RuleId) : Prop :=
  l.rules.getLsbD r.val = true ∧ (p.rule r).matchA.active = true ∧ (p.rule r).fires q = true

section
variable {p : Part} {l : Lane} {q : EvalInput} {r : RuleId} {rs : List RuleId} {a : Admission}

theorem Part.meets_iff :
    p.meets l q r ↔ (l.rules.getLsbD r.val && (p.rule r).matchA.active && (p.rule r).fires q) = true := by
  rw [Part.meets, Bool.and_eq_true, Bool.and_eq_true, and_assoc]

theorem Part.walkRules_passes (h : ¬ p.meets l q r) : p.walkRules l q (r :: rs) a = p.walkRules l q rs a :=
  if_neg (mt Part.meets_iff.2 h)

theorem Part.walkRules_meets (h : p.meets l q r) :
    p.walkRules l q (r :: rs) a =
      if (p.rule r).full then .policyQuota r
      else match (p.rule r).action.verdict with
        | .accept => .accepted (a.take r (p.rule r))
        | .refuse => .policyRefused (some r)
        | .continue_ => p.walkRules l q rs (a.take r (p.rule r)) :=
  if_pos (Part.meets_iff.1 h)

end

/-- Settles O53: one step of `Part.walkRules` at a rule that it meets and at one that it passes over; `Admission.take` is
the changed result of R59. -/
theorem policyWalkTakesTheRulesInOrder : Obligations.PolicyWalkTakesTheRulesInOrder := by
  unfold Obligations.PolicyWalkTakesTheRulesInOrder
  intro p l q r rs a x hit b
  refine ⟨Part.walkRules_passes, fun meets enabled full => ?quota, fun meets notFull => ?taken,
    rfl, rfl, x.fires_iff q⟩
  case quota => rw [Part.walkRules_meets meets, if_pos ((Rule.full_iff _).2 ⟨enabled, full⟩)]
  case taken => exact (Part.walkRules_meets meets).trans (if_neg (mt (Rule.full_iff _).1 notFull))

/-! ## Reading what was written (R180) -/

/-- A reader takes exactly these bytes from the front of a payload, for the value `x`. -/
def Rd.Reads {α : Type} (rd : Rd α) (bytes : List Byte) (x : α) : Prop := ∀ l, rd (bytes ++ l) = some (x, l)

namespace Rd.Reads

variable {α β : Type} {rd : Rd α} {bytes bytes' : List Byte} {x : α}

theorem bind {f : α → Rd β} {y : β} (h : rd.Reads bytes x) (hf : (f x).Reads bytes' y) :
    (rd >>= f).Reads (bytes ++ bytes') y := by
  intro l
  show (rd (bytes ++ bytes' ++ l)).bind (fun v => f v.1 v.2) = some (y, l)
  rw [List.append_assoc, h]
  exact hf l

theorem nothing (x : α) : Rd.Reads (pure x) [] x := fun _ => rfl

/-- The last field of a group. -/
theorem last {g : α → β} (h : rd.Reads bytes x) : Rd.Reads (do return g (← rd)) bytes (g x) := by
  have read := h.bind (f := fun y => pure (g y)) (nothing (g x))
  rwa [List.append_nil] at read

theorem all (h : rd.Reads bytes x) : rd.all bytes = some x := by
  have read := h []
  rw [List.append_nil] at read
  rw [Rd.all, read]

end Rd.Reads

theorem Rd.byte_reads (b : Byte) : Rd.u8.Reads [b] b.toNat := fun _ => rfl

theorem Rd.u8_reads {n : Nat} (h : n < 256) : Rd.u8.Reads (Machine.u8 n) n := by
  have read := Rd.byte_reads (BitVec.ofNat 8 n)
  rwa [BitVec.toNat_ofNat, Nat.mod_eq_of_lt h] at read

theorem Rd.u16_reads {n : Nat} (h : n < 65536) : Rd.u16.Reads (Machine.u16 n) n := by
  have read : Rd.u16.Reads (Machine.u16 n) ((BitVec.ofNat 8 (n / 256)).toNat * 256 + (BitVec.ofNat 8 n).toNat) :=
    (Rd.byte_reads _).bind (Rd.byte_reads _).last
  have value : (BitVec.ofNat 8 (n / 256)).toNat * 256 + (BitVec.ofNat 8 n).toNat = n := by
    simp only [BitVec.toNat_ofNat]
    omega
  rwa [value] at read

theorem Rd.bit_reads (b : Bool) : Rd.bit.Reads (Machine.bit b) b := by
  cases b <;> exact fun _ => rfl

/-- A number of `n` bytes behind the digits read so far. -/
theorem Rd.big_reads (n m acc : Nat) : (Rd.big n acc).Reads (maskBytes n m) (acc * 256 ^ n + m % 256 ^ n) := by
  induction n generalizing acc with
  | zero =>
    rw [Nat.pow_zero, Nat.mod_one, Nat.mul_one]
    exact Rd.Reads.nothing acc
  | succ n ih =>
    have value : (acc * 256 + (BitVec.ofNat 8 (m / 256 ^ n)).toNat) * 256 ^ n + m % 256 ^ n =
        acc * 256 ^ (n + 1) + m % 256 ^ (n + 1) := by
      have digit : (BitVec.ofNat 8 (m / 256 ^ n)).toNat = m / 256 ^ n % 256 := BitVec.toNat_ofNat _ _
      rw [digit, Nat.pow_succ, Nat.mod_mul (a := 256 ^ n) (b := 256)]
      ring
    rw [← value]
    exact (Rd.byte_reads _).bind (ih _)

theorem Rd.mask_reads {n m : Nat} (h : m < 256 ^ n) : (Rd.mask n).Reads (maskBytes n m) m := by
  have read := Rd.big_reads n m 0
  rwa [Nat.zero_mul, Nat.zero_add, Nat.mod_eq_of_lt h] at read

theorem Rd.opt_reads {α : Type} {rd : Rd α} {enc : α → List Byte} {g : Option α}
    (h : ∀ x, g = some x → rd.Reads (enc x) x) : (Rd.opt rd).Reads (Machine.opt enc g) g := by
  cases g with
  | none => exact (Rd.bit_reads false).bind (Rd.Reads.nothing none)
  | some x => exact (Rd.bit_reads true).bind (h x rfl).last

theorem Rd.matchA_reads {x : MatchAReq}
    (h : x.classes < 256 ∧ x.connectors < 256 ∧ x.tierMin < 256 ∧ x.tierMax < 256) : Rd.matchA.Reads x.bytes x := by
  obtain ⟨classes, connectors, tierMin, tierMax⟩ := h
  simp only [MatchAReq.bytes, List.append_assoc]
  exact (Rd.bit_reads _).bind ((Rd.u8_reads classes).bind ((Rd.u8_reads connectors).bind
    ((Rd.u8_reads tierMin).bind (Rd.u8_reads tierMax).last)))

theorem Rd.matchB_reads {x : MatchB}
    (h : x.timeStart < 65536 ∧ x.timeEnd < 65536 ∧ x.durMin < 65536 ∧ x.durMax < 65536) :
    Rd.matchB.Reads x.bytes x := by
  obtain ⟨timeStart, timeEnd, durMin, durMax⟩ := h
  simp only [MatchB.bytes, List.append_assoc]
  exact (Rd.u16_reads timeStart).bind ((Rd.u16_reads timeEnd).bind ((Rd.u16_reads durMin).bind
    (Rd.u16_reads durMax).last))

theorem Rd.action_reads {x : ActionReq}
    (h : x.verdict < 256 ∧ x.priorityMode < 256 ∧ x.priority < 256 ∧ x.mapMode < 256 ∧
      x.map < 18446744073709551616 ∧ x.prefMode < 256 ∧ x.pref < 18446744073709551616 ∧ x.grace < 256) :
    Rd.action.Reads x.bytes x := by
  obtain ⟨verdict, priorityMode, priority, mapMode, map, prefMode, pref, grace⟩ := h
  simp only [ActionReq.bytes, List.append_assoc]
  exact (Rd.u8_reads verdict).bind ((Rd.u8_reads priorityMode).bind ((Rd.u8_reads priority).bind
    ((Rd.u8_reads mapMode).bind ((Rd.mask_reads map).bind ((Rd.u8_reads prefMode).bind
    ((Rd.mask_reads pref).bind (Rd.u8_reads grace).last))))))

theorem Rd.tally_reads {x : Tally} (h : x.limit < 65536) : Rd.tally.Reads x.bytes x :=
  (Rd.bit_reads _).bind (Rd.u16_reads h).last

/-- A RULE-WRITE whose groups fit in their bytes is read back from them (R54, R180). -/
theorem Rd.ruleWrite_reads {q : RuleWriteReq} (fits : q.Fits) :
    Rd.ruleWrite.Reads (ruleWriteBytes q.rule q.matchA q.matchB q.action q.tally) q := by
  simp only [ruleWriteBytes, List.append_assoc]
  exact (Rd.u8_reads fits.rule).bind ((Rd.opt_reads fun x hx => Rd.matchA_reads (fits.matchA x hx)).bind
    ((Rd.opt_reads fun x hx => Rd.matchB_reads (fits.matchB x hx)).bind
    ((Rd.opt_reads fun x hx => Rd.action_reads (fits.action x hx)).bind
    (Rd.opt_reads fun x hx => Rd.tally_reads (fits.tally x hx)).last)))

theorem Rd.laneSet_reads (lane verdict priority : Byte) (rules : RuleSet) (mask : BayMask) :
    Rd.laneSet.Reads ([lane] ++ maskBytes 4 rules.toNat ++ [verdict, priority] ++ maskBytes 8 mask.toNat)
      ⟨lane.toNat, rules.toNat, verdict.toNat, priority.toNat, mask.toNat⟩ := by
  simp only [List.append_assoc]
  exact (Rd.byte_reads lane).bind ((Rd.mask_reads rules.isLt).bind ((Rd.byte_reads verdict).bind
    ((Rd.byte_reads priority).bind (Rd.mask_reads mask.isLt).last)))

/-- A request of a settled machine that leaves nothing to complete. -/
theorem State.serve_settled {α : Type} {s : State} {k : Kind} {payload : List Byte} {f : Frame} {rest : List Frame}
    (settled : s.settled) (h : s.Asks k payload f rest) {mine : List Byte → Bool} (hm : mine payload = true) {rd : Rd α}
    {x : α} (hx : rd.all payload = some x) {act : α → Part → Answer × Part} {a : Answer} {p : Part}
    (ha : act x s.part = (a, p)) (work : p.work = s.part.work) :
    (s.serve k mine rd act).done = .next (s.replied rest f a p) := by
  rw [State.serve_gives h hm hx ha, p.finish_of_settled (work.trans settled)]

/-! ## O20: codes -/

theorem Verdict.code_le (v : Verdict) : v.code ≤ 2 := by cases v <;> decide
theorem PriorityMode.code_le (m : PriorityMode) : m.code ≤ 3 := by cases m <;> decide
theorem MapMode.code_le (m : MapMode) : m.code ≤ 4 := by cases m <;> decide
theorem PrefMode.code_le (m : PrefMode) : m.code ≤ 2 := by cases m <;> decide

@[simp] theorem Verdict.ofCode_code (v : Verdict) : Verdict.ofCode v.code = some v := by cases v <;> rfl
@[simp] theorem PriorityMode.ofCode_code (m : PriorityMode) : PriorityMode.ofCode m.code = some m := by cases m <;> rfl
@[simp] theorem MapMode.ofCode_code (m : MapMode) : MapMode.ofCode m.code = some m := by cases m <;> rfl
@[simp] theorem PrefMode.ofCode_code (m : PrefMode) : PrefMode.ofCode m.code = some m := by cases m <;> rfl

theorem Verdict.eq_code {n : Nat} {v : Verdict} (h : Verdict.ofCode n = some v) : n = v.code := by
  unfold Verdict.ofCode at h
  split at h <;> cases h <;> rfl

theorem PriorityMode.eq_code {n : Nat} {m : PriorityMode} (h : PriorityMode.ofCode n = some m) : n = m.code := by
  unfold PriorityMode.ofCode at h
  split at h <;> cases h <;> rfl

theorem MapMode.eq_code {n : Nat} {m : MapMode} (h : MapMode.ofCode n = some m) : n = m.code := by
  unfold MapMode.ofCode at h
  split at h <;> cases h <;> rfl

theorem PrefMode.eq_code {n : Nat} {m : PrefMode} (h : PrefMode.ofCode n = some m) : n = m.code := by
  unfold PrefMode.ofCode at h
  split at h <;> cases h <;> rfl

theorem Verdict.exists_code {n : Nat} (h : n ≤ 2) : ∃ v : Verdict, n = v.code := by
  match n, h with
  | 0, _ => exact ⟨.continue_, rfl⟩
  | 1, _ => exact ⟨.accept, rfl⟩
  | 2, _ => exact ⟨.refuse, rfl⟩

theorem PriorityMode.exists_code {n : Nat} (h : n ≤ 3) : ∃ m : PriorityMode, n = m.code := by
  match n, h with
  | 0, _ => exact ⟨.keep, rfl⟩
  | 1, _ => exact ⟨.raise, rfl⟩
  | 2, _ => exact ⟨.lower, rfl⟩
  | 3, _ => exact ⟨.set, rfl⟩

theorem MapMode.exists_code {n : Nat} (h : n ≤ 4) : ∃ m : MapMode, n = m.code := by
  match n, h with
  | 0, _ => exact ⟨.keep, rfl⟩
  | 1, _ => exact ⟨.widen, rfl⟩
  | 2, _ => exact ⟨.narrow, rfl⟩
  | 3, _ => exact ⟨.replace, rfl⟩
  | 4, _ => exact ⟨.exclude, rfl⟩

theorem PrefMode.exists_code {n : Nat} (h : n ≤ 2) : ∃ m : PrefMode, n = m.code := by
  match n, h with
  | 0, _ => exact ⟨.keep, rfl⟩
  | 1, _ => exact ⟨.add, rfl⟩
  | 2, _ => exact ⟨.set, rfl⟩

/-! ## O20: LANE-SET -/

theorem LaneSetReq.inRange_none {q : LaneSetReq}
    (h : 7 < q.lane ∨ (q.verdict ≠ 1 ∧ q.verdict ≠ 2) ∨ q.priority < 1 ∨ 4 < q.priority) :
    q.inRange = none := by
  unfold LaneSetReq.inRange
  split
  · next l v lane verdict =>
    refine if_neg fun ⟨decides, least, most⟩ => ?_
    rcases h with h | ⟨notAccept, notRefuse⟩ | h | h
    · rw [fin?_of_le h] at lane
      nomatch lane
    · have code := Verdict.eq_code verdict
      cases v with
      | continue_ => exact decides rfl
      | accept => exact notAccept code
      | refuse => exact notRefuse code
    · omega
    · omega
  · rfl

theorem LaneSetReq.inRange_some (l : LaneId) (rules : RuleSet) {v : Verdict} (decides : v ≠ .continue_)
    {priority : Nat} (least : 1 ≤ priority) (most : priority ≤ 4) (mask : BayMask) :
    LaneSetReq.inRange ⟨l.val, rules.toNat, v.code, priority, mask.toNat⟩ = some (l, ⟨rules, v, priority, mask⟩) := by
  simp [LaneSetReq.inRange, decides, least, most]

section
variable {p : Part} {q : LaneSetReq}

theorem Part.laneSetRequest_range (h : q.inRange = none) : p.laneSetRequest q = (⟨.range, []⟩, p) := by
  simp only [Part.laneSetRequest, h, Status.alone]

theorem Part.laneSetRequest_ok {l : LaneId} {x : Lane} (h : q.inRange = some (l, x)) :
    p.laneSetRequest q = (⟨.ok, []⟩, p.setLane l x) := by
  simp only [Part.laneSetRequest, h, Answer.ok]

end

section
variable {s : State} {f : Frame} {rest : List Frame} {lane verdict priority : Byte} {rules : RuleSet} {mask : BayMask}

/-- LANE-SET gives what `Part.laneSetRequest` gives. -/
theorem execLaneSet_gives (settled : s.settled)
    (asks : s.Asks .laneSet ([lane] ++ maskBytes 4 rules.toNat ++ [verdict, priority] ++ maskBytes 8 mask.toNat) f rest)
    {a : Answer} {p : Part}
    (h : s.part.laneSetRequest ⟨lane.toNat, rules.toNat, verdict.toNat, priority.toNat, mask.toNat⟩ = (a, p))
    (work : p.work = s.part.work) :
    exec .laneSet s = .next (s.replied rest f a p) :=
  State.serve_settled settled asks rfl (Rd.laneSet_reads lane verdict priority rules mask).all h work

end

/-! ## O20: the groups of a RULE-WRITE in range (R54) -/

section
variable {α β : Type} {check : α → Option β} {g : Option α}

theorem groupInRange_none_iff : groupInRange check g = none ↔ ∃ x, g = some x ∧ check x = none := by
  cases g <;> simp [groupInRange]

theorem groupInRange_eq (h : ∀ x, g = some x → check x ≠ none) : groupInRange check g = some (g.bind check) := by
  cases g with
  | none => rfl
  | some x =>
    obtain ⟨y, hy⟩ := Option.ne_none_iff_exists'.1 (h x rfl)
    simp [groupInRange, hy]

end

/-- Outside the tier range of R53; a connector set with an upper bit is another matter (log 15). -/
def MatchAReq.OutOfRange (y : MatchAReq) : Prop := 15 < y.tierMin ∨ 15 < y.tierMax ∨ y.tierMax < y.tierMin

/-- Outside the times and durations of R53. -/
def MatchB.OutOfRange (y : MatchB) : Prop :=
  1439 < y.timeStart ∨ 1439 < y.timeEnd ∨ y.durMin < 15 ∨ 720 < y.durMin ∨ y.durMax < 15 ∨ 720 < y.durMax ∨
    y.durMax < y.durMin

/-- A code that names nothing, or a priority or grace override outside R53. -/
def ActionReq.OutOfRange (y : ActionReq) : Prop :=
  2 < y.verdict ∨ 3 < y.priorityMode ∨ y.priority < 1 ∨ 4 < y.priority ∨ 4 < y.mapMode ∨ 2 < y.prefMode ∨
    (y.grace ≠ 0 ∧ (y.grace < 5 ∨ 60 < y.grace))

/-- A RULE-WRITE that is refused RANGE whatever the free value on connector sets (R54). -/
def RuleWriteReq.OutOfRange (q : RuleWriteReq) : Prop :=
  31 < q.rule ∨ (∃ y, q.matchA = some y ∧ y.OutOfRange) ∨ (∃ y, q.matchB = some y ∧ y.OutOfRange) ∨
    (∃ y, q.action = some y ∧ y.OutOfRange) ∨ ∃ y, q.tally = some y ∧ y.limit = 0

/-- Group MATCH-A as stored: a connector set without its upper bits (log 15). -/
def MatchAReq.stored (y : MatchAReq) : MatchA :=
  ⟨y.active, BitVec.ofNat 8 y.classes, BitVec.ofNat 4 y.connectors, y.tierMin, y.tierMax⟩

/-- Group ACTION as stored is the one that the codes name. -/
def ActionReq.Names (y : ActionReq) (z : RuleAction) : Prop :=
  z.verdict.code = y.verdict ∧ z.priorityMode.code = y.priorityMode ∧ z.priority = y.priority ∧
    z.mapMode.code = y.mapMode ∧ z.map = BitVec.ofNat 64 y.map ∧ z.prefMode.code = y.prefMode ∧
    z.pref = BitVec.ofNat 64 y.pref ∧ z.grace = y.grace

theorem MatchAReq.inRange_none {y : MatchAReq} (h : y.OutOfRange) : y.inRange = none :=
  if_pos (by unfold MatchAReq.OutOfRange at h; omega)

/-- A connector set with an upper bit is the one thing left to the free value (log 15). -/
theorem MatchAReq.inRange_cases {y : MatchAReq} (h : ¬ y.OutOfRange) :
    y.inRange = some y.stored ∨ (16 ≤ y.connectors ∧ y.inRange = none) := by
  have tiers : ¬ (y.tierMax > 15 ∨ y.tierMin > y.tierMax) := by unfold MatchAReq.OutOfRange at h; omega
  unfold MatchAReq.inRange
  rw [if_neg tiers]
  split
  · next upper => exact .inr ⟨upper.1, rfl⟩
  · exact .inl rfl

theorem MatchB.inRange_none {y : MatchB} (h : y.OutOfRange) : y.inRange = none :=
  if_neg (by unfold MatchB.OutOfRange at h; omega)

theorem MatchB.inRange_some {y : MatchB} (h : ¬ y.OutOfRange) : y.inRange = some y :=
  if_pos (by unfold MatchB.OutOfRange at h; omega)

theorem graceInRange_iff {n : Nat} : graceInRange n = true ↔ n = 0 ∨ (5 ≤ n ∧ n ≤ 60) := by
  simp [graceInRange]

theorem ActionReq.inRange_none {y : ActionReq} (h : y.OutOfRange) : y.inRange = none := by
  unfold ActionReq.inRange
  split
  · next v pr mm pf hv hpr hmm hpf =>
    have verdict := Verdict.eq_code hv ▸ v.code_le
    have priorityMode := PriorityMode.eq_code hpr ▸ pr.code_le
    have mapMode := MapMode.eq_code hmm ▸ mm.code_le
    have prefMode := PrefMode.eq_code hpf ▸ pf.code_le
    refine if_neg fun ⟨least, most, grace⟩ => ?_
    rw [graceInRange_iff] at grace
    unfold ActionReq.OutOfRange at h
    omega
  · rfl

theorem ActionReq.inRange_some {y : ActionReq} (h : ¬ y.OutOfRange) : ∃ z, y.inRange = some z ∧ y.Names z := by
  obtain ⟨verdict, priorityMode, priority, mapMode, map, prefMode, pref, grace⟩ := y
  have range : verdict ≤ 2 ∧ priorityMode ≤ 3 ∧ mapMode ≤ 4 ∧ prefMode ≤ 2 ∧ 1 ≤ priority ∧ priority ≤ 4 ∧
      (grace = 0 ∨ (5 ≤ grace ∧ grace ≤ 60)) := by
    simp only [ActionReq.OutOfRange] at h
    omega
  obtain ⟨hv, hpr, hmm, hpf, least, most, hg⟩ := range
  obtain ⟨v, rfl⟩ := Verdict.exists_code hv
  obtain ⟨pr, rfl⟩ := PriorityMode.exists_code hpr
  obtain ⟨mm, rfl⟩ := MapMode.exists_code hmm
  obtain ⟨pf, rfl⟩ := PrefMode.exists_code hpf
  refine ⟨⟨v, pr, priority, mm, BitVec.ofNat 64 map, pf, BitVec.ofNat 64 pref, grace⟩, ?_,
    rfl, rfl, rfl, rfl, rfl, rfl, rfl, rfl⟩
  simp [ActionReq.inRange, least, most, graceInRange_iff.2 hg]

theorem Tally.inRange_none {y : Tally} (h : y.limit = 0) : y.inRange = none := if_pos h

theorem Tally.inRange_some {y : Tally} (h : y.limit ≠ 0) : y.inRange = some y := if_neg h

/-- The groups of a RULE-WRITE on rule `r`, as they are stored where all are in range. -/
def RuleWriteReq.edit (q : RuleWriteReq) (r : RuleId) : RuleEdit :=
  ⟨r, q.matchA.bind MatchAReq.inRange, q.matchB.bind MatchB.inRange, q.action.bind ActionReq.inRange,
    q.tally.bind Tally.inRange⟩

theorem RuleWriteReq.inRange_none {q : RuleWriteReq} (h : q.OutOfRange) : q.inRange = none := by
  unfold RuleWriteReq.inRange
  rcases h with rule | ⟨y, hy, out⟩ | ⟨y, hy, out⟩ | ⟨y, hy, out⟩ | ⟨y, hy, zero⟩
  · simp [fin?_of_le rule]
  · simp [groupInRange_none_iff.2 ⟨y, hy, MatchAReq.inRange_none out⟩]
  · simp [groupInRange_none_iff.2 ⟨y, hy, MatchB.inRange_none out⟩]
  · simp [groupInRange_none_iff.2 ⟨y, hy, ActionReq.inRange_none out⟩]
  · simp [groupInRange_none_iff.2 ⟨y, hy, Tally.inRange_none zero⟩]

/-- A RULE-WRITE is read as it stands where every group is in range; the free value may refuse a connector set with an
upper bit (log 15). -/
theorem RuleWriteReq.inRange_cases {q : RuleWriteReq} {r : RuleId} (h : ¬ q.OutOfRange) (hr : q.rule = r.val) :
    (q.inRange = some (q.edit r) ∧ ∀ y, q.matchA = some y → y.inRange = some y.stored) ∨
      ((∃ y, q.matchA = some y ∧ 16 ≤ y.connectors) ∧ q.inRange = none) := by
  simp only [RuleWriteReq.OutOfRange, not_or, not_exists, not_and] at h
  obtain ⟨_, matchA, matchB, action, tally⟩ := h
  by_cases refused : ∃ y, q.matchA = some y ∧ y.inRange = none
  · obtain ⟨y, hy, out⟩ := refused
    refine .inr ⟨⟨y, hy, ?_⟩, by simp [RuleWriteReq.inRange, groupInRange_none_iff.2 ⟨y, hy, out⟩]⟩
    rcases MatchAReq.inRange_cases (matchA y hy) with taken | ⟨upper, _⟩
    · cases out.symm.trans taken
    · exact upper
  · have read (y) (hy : q.matchA = some y) : y.inRange = some y.stored :=
      (MatchAReq.inRange_cases (matchA y hy)).resolve_right fun ⟨_, out⟩ => refused ⟨y, hy, out⟩
    refine .inl ⟨?_, read⟩
    have ha := groupInRange_eq (check := MatchAReq.inRange) (g := q.matchA) fun y hy => by simp [read y hy]
    have hb := groupInRange_eq (check := MatchB.inRange) (g := q.matchB) fun y hy => by
      simp [MatchB.inRange_some (matchB y hy)]
    have hc := groupInRange_eq (check := ActionReq.inRange) (g := q.action) fun y hy => by
      obtain ⟨z, hz, _⟩ := ActionReq.inRange_some (action y hy)
      simp [hz]
    have ht := groupInRange_eq (check := Tally.inRange) (g := q.tally) fun y hy => by
      simp [Tally.inRange_some (tally y hy)]
    simp only [RuleWriteReq.inRange, hr, fin?_val, ha, hb, hc, ht, RuleWriteReq.edit]

theorem RuleWriteReq.edit_tally {q : RuleWriteReq} (h : ¬ q.OutOfRange) (r : RuleId) : (q.edit r).tally = q.tally := by
  cases hq : q.tally with
  | none => simp [RuleWriteReq.edit, hq]
  | some y =>
    have limit : y.limit ≠ 0 := fun zero => h (.inr (.inr (.inr (.inr ⟨y, hq, zero⟩))))
    simp [RuleWriteReq.edit, hq, Tally.inRange_some limit]

theorem RuleWriteReq.edit_matchB {q : RuleWriteReq} (h : ¬ q.OutOfRange) (r : RuleId) :
    (q.edit r).matchB = q.matchB := by
  cases hq : q.matchB with
  | none => simp [RuleWriteReq.edit, hq]
  | some y =>
    have inside : ¬ y.OutOfRange := fun out => h (.inr (.inr (.inl ⟨y, hq, out⟩)))
    simp [RuleWriteReq.edit, hq, MatchB.inRange_some inside]

theorem RuleWriteReq.edit_action {q : RuleWriteReq} (h : ¬ q.OutOfRange) (r : RuleId) {y : ActionReq}
    (hq : q.action = some y) : ∃ z, (q.edit r).action = some z ∧ y.Names z := by
  obtain ⟨z, hz, names⟩ := ActionReq.inRange_some (fun out => h (.inr (.inr (.inr (.inl ⟨y, hq, out⟩)))))
  exact ⟨z, by simp [RuleWriteReq.edit, hq, hz], names⟩

/-! ## O20: RULE-WRITE -/

theorem Rule.full_eq (x : Rule) : x.full = decide (x.tally.enabled = true ∧ x.counter = x.tally.limit) := by
  rw [Bool.eq_iff_iff, Rule.full_iff, decide_eq_true_eq]

/-- The rule that a taken RULE-WRITE stores: flagged where it comes to stand at its limit (R55, R62). -/
def Rule.rewritten (x : Rule) (e : RuleEdit) : Rule :=
  { x.edited e with notice := x.notice || ((x.edited e).full && !x.full) }

/-- `z` is `x` with the groups that a RULE-WRITE carries, and the flag of R62. -/
structure RuleWriteReq.StoredIn (q : RuleWriteReq) (x z : Rule) : Prop where
  matchA_kept : q.matchA = none → z.matchA = x.matchA
  matchA (y : MatchAReq) : q.matchA = some y → z.matchA = y.stored
  matchB_kept : q.matchB = none → z.matchB = x.matchB
  matchB (y : MatchB) : q.matchB = some y → z.matchB = y
  action_kept : q.action = none → z.action = x.action
  action (y : ActionReq) : q.action = some y → y.Names z.action
  tally_kept : q.tally = none → z.tally = x.tally
  tally (y : Tally) : q.tally = some y → z.tally = y
  counter : z.counter = x.counter
  notice : z.notice = (x.notice || decide ((z.tally.enabled = true ∧ z.counter = z.tally.limit) ∧
    ¬ (x.tally.enabled = true ∧ x.counter = x.tally.limit)))

theorem Rule.rewritten_notice (x : Rule) (e : RuleEdit) :
    (x.rewritten e).notice = (x.notice ||
      decide (((x.rewritten e).tally.enabled = true ∧ (x.rewritten e).counter = (x.rewritten e).tally.limit) ∧
        ¬ (x.tally.enabled = true ∧ x.counter = x.tally.limit))) := by
  rw [Bool.decide_and, decide_not, ← Rule.full_eq, ← Rule.full_eq]
  rfl

theorem Rule.rewritten_stores {q : RuleWriteReq} (h : ¬ q.OutOfRange)
    (matchA : ∀ y, q.matchA = some y → y.inRange = some y.stored) (x : Rule) (r : RuleId) :
    q.StoredIn x (x.rewritten (q.edit r)) where
  matchA_kept absent := by simp [Rule.rewritten, Rule.edited, RuleWriteReq.edit, absent]
  matchA y hy := by simp [Rule.rewritten, Rule.edited, RuleWriteReq.edit, hy, matchA y hy]
  matchB_kept absent := by simp [Rule.rewritten, Rule.edited, RuleWriteReq.edit_matchB h, absent]
  matchB y hy := by simp [Rule.rewritten, Rule.edited, RuleWriteReq.edit_matchB h, hy]
  action_kept absent := by simp [Rule.rewritten, Rule.edited, RuleWriteReq.edit, absent]
  action y hy := by
    obtain ⟨z, hz, names⟩ := RuleWriteReq.edit_action h r hy
    simpa [Rule.rewritten, Rule.edited, hz] using names
  tally_kept absent := by simp [Rule.rewritten, Rule.edited, RuleWriteReq.edit_tally h, absent]
  tally y hy := by simp [Rule.rewritten, Rule.edited, RuleWriteReq.edit_tally h, hy]
  counter := rfl
  notice := x.rewritten_notice _

/-- Without a group nothing changes (R54). -/
theorem Rule.rewritten_none (x : Rule) (r : RuleId) : x.rewritten ⟨r, none, none, none, none⟩ = x := by
  have same : x.edited ⟨r, none, none, none, none⟩ = x := rfl
  rw [Rule.rewritten, same, Bool.and_not_self, Bool.or_false]

/-- With group TALLY alone the other groups and the counter are kept (R55). -/
theorem Rule.rewritten_tally (x : Rule) (r : RuleId) (enabled : Prop) [Decidable enabled] (limit : Nat) :
    x.rewritten ⟨r, none, none, none, some ⟨decide enabled, limit⟩⟩ =
      { x with
        tally := ⟨decide enabled, limit⟩
        notice := x.notice || (decide (enabled ∧ x.counter = limit) &&
          !decide (x.tally.enabled = true ∧ x.counter = x.tally.limit)) } := by
  rw [← Rule.full_eq, Bool.decide_and]
  rfl

theorem RuleWriteReq.inRange_tally {n : Nat} {r : RuleId} (hr : n = r.val) {t : Tally} (h : 1 ≤ t.limit) :
    RuleWriteReq.inRange ⟨n, none, none, none, some t⟩ = some ⟨r, none, none, none, some t⟩ := by
  simp [RuleWriteReq.inRange, groupInRange, hr, Tally.inRange_some (Nat.ne_of_gt h)]

theorem RuleWriteReq.inRange_noGroup (r : RuleId) :
    RuleWriteReq.inRange ⟨r.val, none, none, none, none⟩ = some ⟨r, none, none, none, none⟩ := by
  simp [RuleWriteReq.inRange, groupInRange]

theorem Part.setRule_self (p : Part) (r : RuleId) : p.setRule r (p.rule r) = p := by
  simp [Part.setRule, Part.rule, Vector.get]

section
variable {p : Part} {q : RuleWriteReq} {e : RuleEdit}

theorem Part.ruleWriteRequest_range (h : q.inRange = none) : p.ruleWriteRequest q = (⟨.range, []⟩, p) := by
  simp only [Part.ruleWriteRequest, h, Status.alone]

theorem Part.ruleWriteRequest_conflict (h : q.inRange = some e)
    (below : ∃ y, e.tally = some y ∧ y.limit < (p.rule e.rule).counter) :
    p.ruleWriteRequest q = (⟨.conflict, []⟩, p) := by
  obtain ⟨y, hy, below⟩ := below
  simp [Part.ruleWriteRequest, h, hy, below, Status.alone]

theorem Part.ruleWriteRequest_ok (h : q.inRange = some e)
    (reached : ∀ y, e.tally = some y → (p.rule e.rule).counter ≤ y.limit) :
    p.ruleWriteRequest q = (⟨.ok, []⟩, p.setRule e.rule ((p.rule e.rule).rewritten e)) := by
  have notBelow : e.tally.any (fun t => t.limit < (p.rule e.rule).counter) = false := by
    cases hy : e.tally with
    | none => rfl
    | some y => exact decide_eq_false (Nat.not_lt.2 (reached y hy))
  simp only [Part.ruleWriteRequest, h, notBelow, Answer.ok, Rule.rewritten]
  cases turned : ((p.rule e.rule).edited e).full && !(p.rule e.rule).full with
  | false => simp [Rule.edited]
  | true => simp

end

section
variable {s : State} {f : Frame} {rest : List Frame} {payload : List Byte} {q : RuleWriteReq} {p : Part} {a : Answer}

/-- RULE-WRITE gives what `Part.ruleWriteRequest` gives; nothing is left to complete. -/
theorem execRuleWrite_gives (settled : s.settled) (asks : s.Asks .ruleWrite payload f rest)
    (read : Rd.ruleWrite.all payload = some q) (h : s.part.ruleWriteRequest q = (a, p)) (work : p.work = s.part.work) :
    exec .ruleWrite s = .next (s.replied rest f a p) :=
  State.serve_settled settled asks rfl read h work

end

theorem Rd.ruleWrite_tally {n enable l1 l0 : Byte} (h : enable = 0 ∨ enable = 1) :
    Rd.ruleWrite.all [n, 0, 0, 0, 1, enable, l1, l0] =
      some ⟨n.toNat, none, none, none, some ⟨decide (enable = 1), l1.toNat * 256 + l0.toNat⟩⟩ := by
  rcases h with rfl | rfl <;> rfl

/-! ## O20: TALLY-CLEAR -/

theorem Rule.cleared_cleared (x : Rule) : x.cleared.cleared = x.cleared := by
  unfold Rule.cleared
  split <;> simp_all

theorem Rule.cleared_eq (x : Rule) :
    x.cleared =
      if x.counter ≠ 0 then
        { x with counter := 0, notice := x.notice || (x.tally.enabled && decide (x.counter = x.tally.limit)) }
      else x := by
  unfold Rule.cleared
  rw [ite_not]
  rfl

theorem Part.clearTallies_rule (p : Part) (r : RuleId) : p.clearTallies.rule r = (p.rule r).cleared :=
  (foldl_entry Part.rule (fun _ => ()) (g := fun _ => Rule.cleared) (fun _ _ => rfl)
    (fun u _ i j => u.rule_setRule i _ j) (fun _ => Rule.cleared_cleared) allRules p rfl r).trans
    (if_pos (List.mem_finRange r))

theorem Part.clearTallies_besides (p : Part) : { p.clearTallies with rules := p.rules } = p :=
  foldl_view (fun u : Part => { u with rules := p.rules }) (f := Part.clearTally) (fun _ _ => rfl) allRules p

section
variable {p : Part} {n : Nat}

theorem Part.tallyClearRequest_range (above : 31 < n) (h : n ≠ 255) :
    p.tallyClearRequest n = (⟨.range, []⟩, p) := by
  simp only [Part.tallyClearRequest, if_neg h, fin?_of_le (Nat.succ_le_of_lt above), Status.alone]

/-- A taken TALLY-CLEAR clears the rule it names, or every rule, and writes nothing else (R63). -/
theorem Part.tallyClearRequest_ok (h : n ≤ 31 ∨ n = 255) :
    ∃ u, p.tallyClearRequest n = (⟨.ok, []⟩, u) ∧ { u with rules := p.rules } = p ∧
      ∀ r : RuleId, u.rule r = if n = 255 ∨ n = r.val then (p.rule r).cleared else p.rule r := by
  by_cases all : n = 255
  · refine ⟨p.clearTallies, by simp only [Part.tallyClearRequest, if_pos all, Answer.ok], p.clearTallies_besides,
      fun r => ?_⟩
    rw [p.clearTallies_rule r, if_pos (.inl all)]
  · obtain ⟨r, rfl⟩ : ∃ r : RuleId, n = r.val := ⟨⟨n, by omega⟩, rfl⟩
    refine ⟨p.clearTally r, by simp only [Part.tallyClearRequest, if_neg all, fin?_val, Answer.ok], rfl, fun j => ?_⟩
    simp only [Part.clearTally, Part.rule_setRule, all, false_or, Fin.val_inj, eq_comm (a := r)]
    split
    · next e => rw [e]
    · rfl

end

/-- Settles O20: each request is read back from its bytes, and its outcomes are those of `Part.laneSetRequest`,
`Part.ruleWriteRequest` and `Part.tallyClearRequest`, none of which leaves anything to complete. -/
theorem policyWritesStoreWhatTheyCarry : Obligations.PolicyWritesStoreWhatTheyCarry := by
  unfold Obligations.PolicyWritesStoreWhatTheyCarry
  refine ⟨?laneSet, ?tallyAlone, ?groups, ?noGroup, ?tallyClear⟩
  case laneSet =>
    intro s f rest lane verdict priority rules mask settled asks
    refine ⟨fun bad => ?_, fun hl hv least most => ?_⟩
    · have out : (verdict ≠ 1 ∧ verdict ≠ 2) → verdict.toNat ≠ 1 ∧ verdict.toNat ≠ 2 :=
        .imp (mt (@BitVec.eq_of_toNat_eq 8 verdict 1)) (mt (@BitVec.eq_of_toNat_eq 8 verdict 2))
      exact execLaneSet_gives settled asks
        (Part.laneSetRequest_range (LaneSetReq.inRange_none (bad.imp_right (.imp_left out)))) rfl
    · have range {v : Verdict} (decides : v ≠ .continue_) :=
        LaneSetReq.inRange_some ⟨lane.toNat, hl⟩ rules decides least most mask
      rcases hv with rfl | rfl
      · exact execLaneSet_gives settled asks (Part.laneSetRequest_ok (range (v := .accept) (by decide))) rfl
      · exact execLaneSet_gives settled asks (Part.laneSetRequest_ok (range (v := .refuse) (by decide))) rfl
  case tallyAlone =>
    intro s f rest n enable l1 l0 settled asks flag limit
    have read := Rd.ruleWrite_tally (n := n) (l1 := l1) (l0 := l0) flag
    refine ⟨fun bad => ?_, fun r hr positive => ⟨fun below => ?_, fun reached => ?_⟩⟩
    · have out : RuleWriteReq.OutOfRange ⟨n.toNat, none, none, none, some ⟨decide (enable = 1), limit⟩⟩ :=
        bad.imp_right fun zero => .inr (.inr (.inr ⟨_, rfl, zero⟩))
      exact execRuleWrite_gives settled asks read (Part.ruleWriteRequest_range (RuleWriteReq.inRange_none out)) rfl
    · exact execRuleWrite_gives settled asks read
        (Part.ruleWriteRequest_conflict (RuleWriteReq.inRange_tally hr positive) ⟨_, rfl, below⟩) rfl
    · rw [execRuleWrite_gives settled asks read (Part.ruleWriteRequest_ok (RuleWriteReq.inRange_tally hr positive)
        (fun y hy => Option.some.inj hy ▸ reached)) rfl, Rule.rewritten_tally]
  case groups =>
    intro s f rest q settled fits asks refused bad
    have gives {a : Answer} {p : Part} :=
      execRuleWrite_gives (a := a) (p := p) settled asks (Rd.ruleWrite_reads fits).all
    refine ⟨fun out => gives (Part.ruleWriteRequest_range (RuleWriteReq.inRange_none out)) rfl,
      fun notBad r hr => ?_⟩
    intro x taken
    have inside : ¬ q.OutOfRange := notBad
    rcases RuleWriteReq.inRange_cases inside hr with ⟨range, matchA⟩ | ⟨⟨y, hy, upper⟩, out⟩
    · have edits : taken := by
        refine ⟨fun below => ?_, fun reached => ?_⟩
        · rw [← RuleWriteReq.edit_tally inside r] at below
          exact gives (Part.ruleWriteRequest_conflict range below) rfl
        · rw [← RuleWriteReq.edit_tally inside r] at reached
          have stores := Rule.rewritten_stores inside matchA x r
          exact ⟨_, gives (Part.ruleWriteRequest_ok range reached) rfl, stores.matchA_kept, stores.matchA,
            stores.matchB_kept, stores.matchB, stores.action_kept, stores.action, stores.tally_kept, stores.tally,
            stores.counter, stores.notice⟩
      exact ⟨fun _ => edits, .inl edits⟩
    · exact ⟨fun lower => absurd (lower y hy) (Nat.not_lt.2 upper),
        .inr (gives (Part.ruleWriteRequest_range out) rfl)⟩
  case noGroup =>
    intro s f rest n settled asks
    have gives {a : Answer} {p : Part} :=
      execRuleWrite_gives (a := a) (p := p) (q := ⟨n.toNat, none, none, none, none⟩) settled asks rfl
    split
    · next low =>
      have range := RuleWriteReq.inRange_noGroup ⟨n.toNat, Nat.lt_succ_of_le low⟩
      rw [gives (Part.ruleWriteRequest_ok range (fun _ hy => nomatch hy)) rfl, Rule.rewritten_none, Part.setRule_self]
    · next high =>
      exact gives (Part.ruleWriteRequest_range (RuleWriteReq.inRange_none (.inl (Nat.lt_of_not_le high)))) rfl
  case tallyClear =>
    intro s f rest n settled asks
    have all : n = 255 ↔ n.toNat = 255 := BitVec.toNat_inj.symm
    refine ⟨fun above notAll => ?_, fun h => ?_⟩
    · exact State.serve_settled settled asks rfl (rd := Rd.u8) rfl
        (Part.tallyClearRequest_range above (mt all.2 notAll)) rfl
    · obtain ⟨u, taken, besides, rule⟩ := Part.tallyClearRequest_ok (p := s.part) (h.imp_right all.1)
      have work := congrArg Part.work besides
      refine ⟨u, State.serve_settled settled asks rfl (rd := Rd.u8) rfl taken work, besides, fun r => ?_⟩
      simp only [rule, Rule.cleared_eq, all, ite_and]

end Sys2Proof.Machine

namespace Sys2Proof.Machine

/-! ## O51: the fit test and the concurrency test, minute by minute -/

section
variable {p : Part} {b : BayId} {f : FeederId} {moving : Option SlotId} {r : Record} {m u start stop : Nat}

theorem Part.mem_others :
    r ∈ p.others b moving ↔ ∃ k, k ∈ p.chain b ∧ moving ≠ some k ∧ p.record k = some r := by
  simp only [Part.others, List.mem_filterMap, List.mem_filter, decide_eq_true_eq, and_assoc]

theorem Part.fits_iff (c : Call) :
    p.fits c b = true ↔ ∀ k r, k ∈ p.chain b → c.moving ≠ some k → p.record k = some r →
      r.windowEnd + p.settings.guard ≤ c.start ∨ c.stop + p.settings.guard ≤ r.windowStart := by
  simp only [Part.fits, List.all_eq_true, Bool.or_eq_true, decide_eq_true_eq, Part.mem_others]
  exact ⟨fun h k r hk moves hr => h r ⟨k, hk, moves, hr⟩, fun h r ⟨k, hk, moves, hr⟩ => h k r hk moves hr⟩

theorem Record.covers_iff : r.covers m = true ↔ r.windowStart ≤ m ∧ m < r.windowEnd := by
  simp only [Record.covers, Bool.and_eq_true, decide_eq_true_eq]

/-- From `u` to `m` there is a latest minute that is `u` or a window start. -/
theorem exists_latestStart (l : List Record) (h : u ≤ m) :
    ∃ v ∈ u :: l.map (·.windowStart), u ≤ v ∧ v ≤ m ∧ ∀ r ∈ l, r.windowStart ≤ m → r.windowStart ≤ v := by
  induction l with
  | nil => exact ⟨u, List.mem_singleton_self u, Nat.le_refl u, h, by simp⟩
  | cons x l ih =>
    obtain ⟨v, mem, low, high, latest⟩ := ih
    by_cases later : v < x.windowStart ∧ x.windowStart ≤ m
    · refine ⟨x.windowStart, by simp, by omega, later.2, fun r hr begun => ?_⟩
      rcases List.mem_cons.1 hr with rfl | hr
      · exact Nat.le_refl _
      · exact Nat.le_trans (latest r hr begun) (Nat.le_of_lt later.1)
    · refine ⟨v, ?_, low, high, fun r hr begun => ?_⟩
      · rcases List.mem_cons.1 mem with rfl | mem
        · exact List.mem_cons_self
        · exact List.mem_cons_of_mem _ (List.mem_cons_of_mem _ mem)
      · rcases List.mem_cons.1 hr with rfl | hr
        · omega
        · exact latest r hr begun

/-- The count of R77 rises only at window starts: from `u` on, a count is reached at `u` or at a window start. -/
theorem Part.exists_overlap_le (p : Part) (f : FeederId) (moving : Option SlotId) (h : u ≤ m) :
    ∃ v ∈ u :: (p.feederOthers f moving).map (·.windowStart),
      u ≤ v ∧ v ≤ m ∧ p.overlap f moving m ≤ p.overlap f moving v := by
  obtain ⟨v, mem, low, high, latest⟩ := exists_latestStart (p.feederOthers f moving) h
  refine ⟨v, mem, low, high, ?_⟩
  simp only [Part.overlap, ← List.countP_eq_length_filter]
  refine List.countP_mono_left fun r hr covers => ?_
  obtain ⟨begun, ahead⟩ := Record.covers_iff.1 covers
  exact Record.covers_iff.2 ⟨latest r hr begun, Nat.lt_of_le_of_lt high ahead⟩

theorem Part.carries_iff :
    p.carries f moving start stop = true ↔
      ∀ m, start ≤ m → m < stop → p.carriedAt f moving m < (p.feeder f).concurrency := by
  simp only [Part.carries, Part.countPoints, List.all_eq_true, List.mem_filter, Bool.and_eq_true, decide_eq_true_eq,
    ← Part.overlap_eq_carriedAt]
  refine ⟨fun h m from_ to_ => ?_, fun h m ⟨_, from_, to_⟩ => h m from_ to_⟩
  obtain ⟨v, mem, low, high, le⟩ := p.exists_overlap_le f moving from_
  exact Nat.lt_of_le_of_lt le (h v ⟨mem, low, Nat.lt_of_le_of_lt high to_⟩)

end

/-- Settles O51: `Part.carries` tests the start and the window starts alone, where the count is largest
(`Part.exists_overlap_le`). -/
theorem fitAndConcurrencyTestsAreThoseOfEveryMinute : Obligations.FitAndConcurrencyTestsAreThoseOfEveryMinute := by
  unfold Obligations.FitAndConcurrencyTestsAreThoseOfEveryMinute
  exact fun p c b f start stop => ⟨Part.fits_iff c, Part.carries_iff⟩

/-! ## O52: the bay that the engine returns -/

section
variable {p : Part} {c : Call} {b i j : BayId} {l : List BayId}

theorem Part.candidate_iff :
    p.candidate c b = true ↔
      (p.bay b).configured = true ∧ c.eligible.getLsbD b.val = true ∧ (p.bay b).ctype = c.ctype ∧
      (p.bay b).condition ≠ .out ∧
      (p.now + p.settings.lead < c.start ∨ ((p.bay b).condition ≠ .dark ∧ (p.bay b).condition ≠ .unverified ∧
        (p.bay b).condition ≠ .intruded ∧ (p.bay b).condition ≠ .overstay)) ∧
      (c.pinned = none ∨ c.pinned = some b) ∧ c.excluded ≠ some b := by
  simp only [Part.candidate, BayMask.has, Bool.and_eq_true, Bool.or_eq_true, decide_eq_true_eq, and_assoc, gt_iff_lt]

theorem Part.passes_iff :
    p.passes c b = true ↔
      p.candidate c b = true ∧ p.fits c b = true ∧ p.carries (p.bay b).feeder c.moving c.start c.stop = true := by
  simp only [Part.passes, Bool.and_eq_true, and_assoc]

theorem Part.mem_passing : b ∈ p.passing c ↔ p.passes c b = true := by
  simp [Part.passing, allBays, allBelow]

theorem Part.ranks_iff :
    p.ranks c i j = true ↔
      (c.preferred.getLsbD i.val = true ∧ c.preferred.getLsbD j.val = false) ∨
      (c.preferred.getLsbD i.val = c.preferred.getLsbD j.val ∧
        (p.leadGap c i < p.leadGap c j ∨ (p.leadGap c i = p.leadGap c j ∧ i < j))) := by
  simp [Part.ranks, BayMask.has]

theorem Part.ranks_trans (h : p.ranks c b i = true) (k : p.ranks c i j = true) : p.ranks c b j = true := by
  rw [Part.ranks_iff] at *
  grind

theorem Part.ranks_total (ne : i ≠ j) (h : ¬ p.ranks c i j = true) : p.ranks c j i = true := by
  rw [Part.ranks_iff] at *
  grind

theorem Part.best_eq_none_iff : p.best c l = none ↔ l = [] := by
  cases l with
  | nil => exact ⟨fun _ => rfl, fun _ => rfl⟩
  | cons a l =>
    unfold Part.best
    split
    · simp
    · split <;> simp

/-- The bay that ranks first in a list ranks before every other of it. -/
theorem Part.best_ranks (h : p.best c l = some b) (hj : j ∈ l) (ne : j ≠ b) : p.ranks c b j = true := by
  induction l generalizing b with
  | nil => cases hj
  | cons a l ih =>
    unfold Part.best at h
    split at h
    · next none =>
      rw [Part.best_eq_none_iff.1 none, List.mem_singleton] at hj
      exact absurd (hj.trans (Option.some.inj h)) ne
    · next b' first =>
      split at h
      · next before =>
        cases h
        have mem := (List.mem_cons.1 hj).resolve_left ne
        by_cases same : j = b'
        · exact same ▸ before
        · exact Part.ranks_trans before (ih first mem same)
      · next notBefore =>
        cases h
        rcases List.mem_cons.1 hj with rfl | mem
        · exact Part.ranks_total ne notBefore
        · exact ih first mem ne

theorem Part.place_eq_none_iff : p.place c = none ↔ ∀ b, p.passes c b = false := by
  rw [Part.place, Part.best_eq_none_iff, List.eq_nil_iff_forall_not_mem]
  simp only [Part.mem_passing, Bool.not_eq_true]

theorem Part.place_ranks (h : p.place c = some b) (hj : p.passes c j = true) (ne : j ≠ b) : p.ranks c b j = true :=
  Part.best_ranks h (Part.mem_passing.2 hj) ne

end

/-! ### The lead gap -/

theorem predecessor_eq_none_iff {s : Nat} {l : List Record} :
    predecessor s l = none ↔ ∀ r ∈ l, ¬ r.windowStart < s := by
  induction l with
  | nil => exact ⟨fun _ _ h => (nomatch h), fun _ => rfl⟩
  | cons x l ih =>
    unfold predecessor
    cases h : predecessor s l with
    | none =>
      have later := ih.1 h
      simpa using fun _ : ¬ x.windowStart < s => later
    | some q =>
      have notAll : ¬ ∀ r ∈ l, ¬ r.windowStart < s := fun all => by simp [ih.2 all] at h
      dsimp only
      split <;> simp_all

/-- The predecessor starts below `s`, and no record of the list that does starts later. -/
theorem predecessor_some {s : Nat} {l : List Record} {q : Record} (h : predecessor s l = some q) :
    q ∈ l ∧ q.windowStart < s ∧ ∀ r ∈ l, r.windowStart < s → r.windowStart ≤ q.windowStart := by
  induction l generalizing q with
  | nil => cases h
  | cons x l ih =>
    unfold predecessor at h
    split at h
    · next none =>
      have later := predecessor_eq_none_iff.1 none
      split at h <;> cases h
      next below =>
      refine ⟨List.mem_cons_self, below, fun r hr before => ?_⟩
      rcases List.mem_cons.1 hr with rfl | hr
      · exact Nat.le_refl _
      · exact absurd before (later r hr)
    · next q' some =>
      obtain ⟨mem, below, latest⟩ := ih some
      split at h <;> cases h
      · next after =>
        simp only [Bool.and_eq_true, decide_eq_true_eq] at after
        refine ⟨List.mem_cons_self, after.1, fun r hr before => ?_⟩
        rcases List.mem_cons.1 hr with rfl | hr
        · exact Nat.le_refl _
        · exact Nat.le_trans (latest r hr before) (Nat.le_of_lt after.2)
      · next notAfter =>
        simp only [Bool.and_eq_true, decide_eq_true_eq, not_and, Nat.not_lt] at notAfter
        refine ⟨List.mem_cons_of_mem _ mem, below, fun r hr before => ?_⟩
        rcases List.mem_cons.1 hr with rfl | hr
        · exact notAfter before
        · exact latest r hr before

/-- Slot `k` of a bay's chain holds record `r`, not the moving one, that starts before the call's window (R78). -/
def Part.earlier (p : Part) (c : Call) (b : BayId) (k : SlotId) (r : Record) : Prop :=
  k ∈ p.chain b ∧ c.moving ≠ some k ∧ p.record k = some r ∧ r.windowStart < c.start

section
variable {p : Part} {c : Call} {b : BayId} {k : SlotId} {r : Record}

theorem Part.leadGap_of_earlier (last : p.earlier c b k r)
    (least : ∀ j y, p.earlier c b j y → j ≠ k → y.windowStart < r.windowStart) :
    p.leadGap c b = c.start - (r.windowEnd + p.settings.guard) := by
  obtain ⟨hk, moves, hr, before⟩ := last
  have mem : r ∈ p.others b c.moving := Part.mem_others.2 ⟨k, hk, moves, hr⟩
  unfold Part.leadGap
  split
  · next q found =>
    obtain ⟨hq, below, latest⟩ := predecessor_some found
    obtain ⟨j, hj, moves', hq⟩ := Part.mem_others.1 hq
    have same : j = k := by
      by_contra ne
      exact Nat.not_lt.2 (latest r mem before) (least j q ⟨hj, moves', hq, below⟩ ne)
    subst same
    rw [Option.some.inj (hq.symm.trans hr)]
  · next none => exact absurd before (predecessor_eq_none_iff.1 none r mem)

theorem Part.leadGap_of_first (first : ∀ k r, ¬ p.earlier c b k r) : p.leadGap c b = c.start - p.now := by
  have none : predecessor c.start (p.others b c.moving) = none := by
    refine predecessor_eq_none_iff.2 fun r hr before => ?_
    obtain ⟨k, hk, moves, hr⟩ := Part.mem_others.1 hr
    exact first k r ⟨hk, moves, hr, before⟩
  rw [Part.leadGap, none]

end

/-- Settles O52: `Part.best` returns the bay that ranks first, a ranking being transitive and total; the lead gap is that
of `predecessor`. -/
theorem placementReturnsTheBestPassingBay : Obligations.PlacementReturnsTheBestPassingBay := by
  unfold Obligations.PlacementReturnsTheBestPassingBay
  refine fun p c => ⟨Part.place_eq_none_iff, fun b placed => ?best, fun b => ⟨?passes, ?after, ?first⟩⟩
  case best =>
    have passes := Part.place_passes placed
    obtain ⟨configured, eligible, ctype, inService, _, pinned, excluded⟩ :=
      Part.candidate_iff.1 (Part.passes_iff.1 passes).1
    exact ⟨passes, ⟨eligible, configured, ctype, inService, excluded, pinned⟩,
      fun j ne hj => Part.ranks_iff.1 (Part.place_ranks placed hj ne)⟩
  case passes => rw [Part.passes_iff, Part.candidate_iff]
  case after =>
    intro k r last least
    rw [Part.leadGap_of_earlier last least]
    omega
  case first =>
    intro first
    rw [Part.leadGap_of_first first]
    omega

/-! ## What an event has still to do, idle conditions aside -/

/-- The work of an event without the idle conditions to evaluate. -/
def Work.errands (w : Work) : Work := { w with idle := [] }

theorem Work.leads_of_errands {v w : Work} (h : v.errands = w.errands) : v.leads = w.leads :=
  show v.errands.leads = w.errands.leads from congrArg Work.leads h

section
variable {p : Part} {s k : SlotId} {r old : Record} {b : BayId}

theorem Part.touchPost_errands (p : Part) (a : PostId) : (p.touchPost a).work.errands = p.work.errands := by
  unfold Part.touchPost
  split <;> rfl

theorem Part.touchBayOf_errands (p : Part) (b : Option BayId) : (p.touchBayOf b).work.errands = p.work.errands := by
  cases b with
  | none => rfl
  | some b => exact p.touchPost_errands _

/-- Storing a record leaves nothing to do but idle conditions (R161). -/
theorem Part.put_errands (p : Part) (s : SlotId) (r : Record) : (p.put s r).work.errands = p.work.errands := by
  unfold Part.put
  dsimp only
  split
  · split
    · rfl
    · rw [Part.touchBayOf_errands, Part.touchBayOf_errands]
  · rw [Part.touchBayOf_errands]

theorem Part.wakeBay_work (p : Part) (b : BayId) : (p.wakeBay b).work = p.work := by
  unfold Part.wakeBay Part.wakePost
  split <;> rfl

theorem Part.wakeBay_pool (p : Part) (b : BayId) : (p.wakeBay b).pool = p.pool := by
  unfold Part.wakeBay Part.wakePost
  split <;> rfl

/-- The checks of a record that take new due minutes: the lead check is to be taken in the event where its minute has been
reached (R23, R112). -/
theorem Part.armChecks_errands (hr : p.record s = some r) :
    (p.armChecks s).work.errands =
      { p.work.errands with
        leads := p.work.leads ++ if p.reached r.windowStart p.settings.lead = true then [s] else [] } := by
  unfold Part.armChecks
  rw [hr]
  dsimp only
  have queued (w : Bool) : (if p.reached r.windowStart p.settings.lead = true then
        (p.put s { r with leadTaken := p.reached r.windowStart p.settings.lead, wakeTaken := w }).leadDue s
      else p.put s { r with leadTaken := p.reached r.windowStart p.settings.lead, wakeTaken := w }).work.errands =
      { p.work.errands with
        leads := p.work.leads ++ if p.reached r.windowStart p.settings.lead = true then [s] else [] } := by
    have stored := p.put_errands s { r with leadTaken := p.reached r.windowStart p.settings.lead, wakeTaken := w }
    have leads := Work.leads_of_errands stored
    split
    · rw [← stored, ← leads]
      rfl
    · rw [stored, List.append_nil]
      rfl
  split
  · split
    · rw [Part.wakeBay_work, queued]
    · exact queued _
  · exact queued _

/-- Arming the checks of a record marks them in it, and changes nothing else of the pool (R23). -/
theorem Part.armChecks_pool (hr : p.record s = some r) :
    ∃ lead wake, (p.armChecks s).pool = p.pool.put s { r with leadTaken := lead, wakeTaken := wake } := by
  refine ⟨p.reached r.windowStart p.settings.lead, p.reached r.windowStart p.settings.standbyLead, ?_⟩
  unfold Part.armChecks
  rw [hr]
  dsimp only
  split <;> split <;> (try split) <;> simp [Part.wakeBay_pool]

theorem Part.derive_leads (p : Part) (b : BayId) : (p.derive b).work.leads = p.work.leads := by
  by_cases same : p.conditionOf b = (p.bay b).condition
  · rw [Part.derive_of_eq same]
  · have touched : (p.rederived b).work.leads = p.work.leads := Work.leads_of_errands (Part.touchPost_errands _ _)
    rw [Part.derive_of_ne same]
    dsimp only
    split <;> split <;> exact touched

/-- A derivation that brings no blocking condition leaves nothing to do but idle conditions (R8, R111). -/
theorem Part.derive_errands (h : (p.conditionOf b).blocking = true → (p.bay b).condition.blocking = true) :
    (p.derive b).work.errands = p.work.errands := by
  by_cases same : p.conditionOf b = (p.bay b).condition
  · rw [Part.derive_of_eq same]
  · have touched : (p.rederived b).work.errands = p.work.errands := Part.touchPost_errands _ _
    have quiet : ((p.conditionOf b).blocking && !(p.bay b).condition.blocking) = false := by simpa using h
    rw [Part.derive_of_ne same, quiet]
    dsimp only
    split <;> exact touched

end

/-! ## Records that an event leaves alone -/

section
variable {p : Part} {s k : SlotId} {r old : Record} {b : BayId}

theorem Part.armChecks_record_ne (p : Part) (ne : k ≠ s) : (p.armChecks s).record k = p.record k := by
  cases hr : p.record s with
  | none =>
    unfold Part.armChecks
    rw [hr]
  | some r =>
    obtain ⟨lead, wake, pool⟩ := Part.armChecks_pool hr
    unfold Part.record
    rw [pool, Pool.record_put_ne _ _ ne]

theorem Part.closeRecord_record_ne (p : Part) (ne : k ≠ s) (result : Result) {by' : ClosedBy} (h : by' ≠ .departed) :
    (p.closeRecord s result by').record k = p.record k := by
  cases hr : p.record s with
  | none =>
    unfold Part.closeRecord
    rw [hr]
  | some r =>
    unfold Part.record
    rw [(Part.closeRecord_after hr result h).2, Part.put_pool, Pool.record_put_ne _ _ ne]

theorem Part.demote_record_ne (p : Part) (ne : k ≠ s) : (p.demote s).record k = p.record k := by
  unfold Part.demote
  split
  · rfl
  · dsimp only
    split
    · split <;> simp [Part.derive_record, Part.record_put, ne]
    · exact p.closeRecord_record_ne ne _ (by decide)

theorem Part.relocate_record_ne (p : Part) (ne : k ≠ s) : (p.relocate s).record k = p.record k := by
  unfold Part.relocate
  split
  · rfl
  · split
    · rfl
    · split
      · rfl
      · split
        · exact p.closeRecord_record_ne ne _ (by decide)
        · split
          · simp [Part.armChecks_record_ne _ ne, Part.derive_record, Part.record_put, ne]
          · exact p.demote_record_ne ne

theorem Part.leadCheck_record_ne (p : Part) (ne : k ≠ s) : (p.leadCheck s).record k = p.record k := by
  unfold Part.leadCheck
  split
  · rfl
  · split
    · rfl
    · split
      · exact p.relocate_record_ne ne
      · rfl

/-- Lead checks of other records leave a record alone. -/
theorem Part.takeLeads_record (h : k ∉ p.work.leads) : p.takeLeads.record k = p.record k := by
  have walk (l : List SlotId) (q : Part) (h : k ∉ l) : (l.foldl Part.leadCheck q).record k = q.record k := by
    induction l generalizing q with
    | nil => rfl
    | cons s l ih =>
      obtain ⟨ne, rest⟩ := not_or.1 (mt List.mem_cons.2 h)
      exact (ih _ rest).trans (q.leadCheck_record_ne ne)
  exact walk _ _ h

/-- A record that does not wait, with no lead check of it to take: a retry has nothing to do with it. -/
structure Part.Unlisted (p : Part) (k : SlotId) (r : Record) : Prop where
  record : p.record k = some r
  state : r.state ≠ .waiting
  leads : k ∉ p.work.leads

theorem Part.Unlisted.tryWaiting (h : p.Unlisted k r) (s : SlotId) : (p.tryWaiting s).Unlisted k r := by
  unfold Part.tryWaiting
  cases hs : p.record s with
  | none => exact h
  | some old =>
    dsimp only
    split
    · exact h
    · next waits =>
      split
      · next b placed =>
        have ne : k ≠ s := by
          rintro rfl
          cases hs.symm.trans h.record
          exact waits h.state
        generalize hu : (p.put s (old.placed b (max old.windowStart p.now) p.now)).derive b = u
        have record : u.record k = some r := by
          rw [← hu, Part.derive_record, Part.record_put, if_neg ne, h.record]
        have leads : u.work.leads = p.work.leads := by
          rw [← hu, Part.derive_leads]
          exact Work.leads_of_errands (p.put_errands s _)
        obtain ⟨x, hx⟩ : ∃ x, u.record s = some x := by
          rw [← hu, Part.derive_record, Part.record_put, if_pos rfl]
          exact ⟨_, rfl⟩
        refine ⟨(u.armChecks_record_ne ne).trans record, h.state, ?_⟩
        have armed : (u.armChecks s).work.leads =
            u.work.leads ++ if u.reached x.windowStart u.settings.lead = true then [s] else [] :=
          congrArg (fun w : Work => w.leads) (Part.armChecks_errands hx)
        have absent := h.leads
        rw [armed, leads]
        split <;> simp [absent, ne]
      · exact h

theorem Part.Unlisted.takeRetry (h : p.Unlisted k r) : p.takeRetry.record k = some r := by
  unfold Part.takeRetry
  split
  · have walk (l : List SlotId) (q : Part) (hq : q.Unlisted k r) : (l.foldl Part.tryWaiting q).Unlisted k r := by
      induction l generalizing q with
      | nil => exact hq
      | cons s l ih => exact ih _ (hq.tryWaiting s)
    have scanned : p.retry.Unlisted k r := walk p.pool.waiting p h
    exact (Part.takeLeads_record scanned.leads).trans scanned.record
  · exact h.record

theorem Part.takeExchange_pool (p : Part) : p.takeExchange.pool = p.pool := by
  unfold Part.takeExchange Part.openNext
  split
  · dsimp only
    split <;> rfl
  · rfl

theorem Part.takeIdle_pool (p : Part) : p.takeIdle.pool = p.pool :=
  Part.foldl_pool _ (fun p q => (p.evalIdle_pool q).1) _

/-- The completion of an event with a retry and idle conditions alone leaves every record that does not wait (R90). -/
theorem Part.finish_record_of_retry (blocked : p.work.blocked = []) (leads : p.work.leads = [])
    (hr : p.record k = some r) (state : r.state ≠ .waiting) : p.finish.record k = some r := by
  have walked : p.takeBlocked.takeLeads = p := by
    obtain ⟨time, clock, settings, bays, feeders, trips, posts, pool, lanes, rules, link, outstanding,
      ⟨blocked, leads, idle, retry, next⟩, choices⟩ := p
    cases blocked
    cases leads
    rfl
  have kept := Part.Unlisted.takeRetry ⟨hr, state, by simp [leads]⟩
  show p.takeBlocked.takeLeads.takeRetry.takeIdle.takeExchange.record k = some r
  rw [walked, Part.record, Part.takeExchange_pool, Part.takeIdle_pool]
  exact kept

/-- A record that keeps its collection and its start is stored in its slot, and nothing else changes (R36). -/
theorem Part.put_inPlace (hr : p.record k = some old) (home : old.home = r.home)
    (start : old.windowStart = r.windowStart) :
    p.put k r = { p with pool := p.pool.setSlot k ⟨(p.pool.slot k).generation, some r⟩ } := by
  have pool : p.pool.put k r = p.pool.setSlot k ⟨(p.pool.slot k).generation, some r⟩ := by
    unfold Pool.put
    exact if_pos ((Pool.homeOf_record hr).trans home)
  unfold Part.put
  rw [hr, pool]
  exact if_pos ⟨home, start⟩

end

/-! ## O29: the limits of a grant (R81) -/

section
variable {p : Part} {k : SlotId} {r : Record} {b : BayId} {f : FeederId} {moving : Option SlotId}
  {amount g m n u : Nat}

theorem successorOf_eq_some_iff {l : List SlotId} {j : SlotId} :
    successorOf k l = some j ↔ ∃ before after, l = before ++ k :: j :: after ∧ k ∉ before := by
  induction l with
  | nil => simp [successorOf]
  | cons x l ih =>
    unfold successorOf
    by_cases here : x = k
    · subst here
      rw [if_pos rfl]
      constructor
      · intro h
        obtain ⟨after, rfl⟩ := List.head?_eq_some_iff.1 h
        exact ⟨[], after, rfl, List.not_mem_nil⟩
      · rintro ⟨before, after, e, absent⟩
        cases before with
        | nil => cases e; rfl
        | cons y before =>
          cases e
          exact absurd List.mem_cons_self absent
    · rw [if_neg here, ih]
      constructor
      · rintro ⟨before, after, rfl, absent⟩
        exact ⟨x :: before, after, rfl, by simp [absent, Ne.symm here]⟩
      · rintro ⟨before, after, e, absent⟩
        cases before with
        | nil => cases e; exact absurd rfl here
        | cons y before =>
          cases e
          exact ⟨before, after, rfl, fun mem => absent (List.mem_cons_of_mem _ mem)⟩

theorem Part.firstFull_some (h : p.firstFull f moving u = some n) :
    u ≤ n ∧ (p.feeder f).concurrency ≤ p.carriedAt f moving n := by
  obtain ⟨mem, _⟩ := List.min?_eq_some_iff.1 h
  rw [← Part.overlap_eq_carriedAt]
  simpa using (List.mem_filter.1 mem).2

/-- From the first full minute on, and no earlier, a minute may be full (R81). -/
theorem Part.firstFull_le (after : u ≤ m) (full : (p.feeder f).concurrency ≤ p.carriedAt f moving m) :
    ∃ n, p.firstFull f moving u = some n ∧ n ≤ m := by
  obtain ⟨v, mem, low, high, le⟩ := p.exists_overlap_le f moving after
  rw [← Part.overlap_eq_carriedAt] at full
  have point : v ∈ (u :: (p.feederOthers f moving).map (·.windowStart)).filter
      (fun m => u ≤ m && (p.feeder f).concurrency ≤ p.overlap f moving m) :=
    List.mem_filter.2 ⟨mem, by simpa using ⟨low, Nat.le_trans full le⟩⟩
  cases first : p.firstFull f moving u with
  | none => exact absurd point (List.min?_eq_none_iff.1 first ▸ List.not_mem_nil)
  | some n => exact ⟨n, rfl, Nat.le_trans ((List.min?_eq_some_iff.1 first).2 v point) high⟩

/-- Every minute of a grant is carried when the grant ends before the first full minute. -/
theorem Part.firstFull_bounds_iff :
    (∀ n, p.firstFull f moving u = some n → g ≤ n - u) ↔
      ∀ m, u ≤ m → m < u + g → p.carriedAt f moving m < (p.feeder f).concurrency := by
  constructor
  · intro bound m after before
    by_contra full
    obtain ⟨n, first, le⟩ := Part.firstFull_le after (Nat.le_of_not_lt full)
    have := bound n first
    omega
  · intro carried n first
    obtain ⟨after, full⟩ := Part.firstFull_some first
    by_contra short
    exact Nat.not_lt.2 full (carried n after (by omega))

/-- A number of minutes within every limit of R81: the amount rounded up, 720 minutes of window, the record behind on the
chain, and the feeder's concurrency. -/
def Part.GrantFits (p : Part) (k : SlotId) (r : Record) (b : BayId) (amount g : Nat) : Prop :=
  g ≤ (amount + 4) / 5 * 5 ∧ r.windowEnd + g ≤ r.windowStart + 720 ∧
  (∀ before j after y, p.chain b = before ++ k :: j :: after → k ∉ before → p.record j = some y →
    r.windowEnd + g + p.settings.guard ≤ y.windowStart) ∧
  ∀ m, r.windowEnd ≤ m → m < r.windowEnd + g →
    p.carriedAt (p.bay b).feeder (some k) m < (p.feeder (p.bay b).feeder).concurrency

theorem Part.mem_grantLimits :
    n ∈ p.grantLimits k r b amount ↔
      n = roundUp5 amount ∨ n = Config.longestWindow + r.windowStart - r.windowEnd ∨
      (∃ j y, successorOf k (p.chain b) = some j ∧ p.record j = some y ∧
        y.windowStart - p.settings.guard - r.windowEnd = n) ∨
      ∃ m, p.firstFull (p.bay b).feeder (some k) r.windowEnd = some m ∧ m - r.windowEnd = n := by
  simp only [Part.grantLimits, List.cons_append, List.nil_append, List.mem_cons, List.mem_append, Option.mem_toList,
    Option.map_eq_some_iff, Option.bind_eq_some_iff]
  grind

/-- A grant above 0 is within every limit where R81 fits it. -/
theorem Part.le_grantLimits_iff (positive : 0 < g) :
    (∀ n ∈ p.grantLimits k r b amount, g ≤ n) ↔ p.GrantFits k r b amount g := by
  simp only [Part.mem_grantLimits]
  constructor
  · intro le
    have length := le _ (.inr (.inl rfl))
    refine ⟨le _ (.inl rfl), ?_, fun before j after y chain absent hy => ?_, ?_⟩
    · unfold Config.longestWindow at length
      omega
    · have := le _ (.inr (.inr (.inl ⟨j, y, successorOf_eq_some_iff.2 ⟨before, after, chain, absent⟩, hy, rfl⟩)))
      omega
    · exact Part.firstFull_bounds_iff.1 fun m first => le _ (.inr (.inr (.inr ⟨m, first, rfl⟩)))
  · rintro ⟨asked, length, behind, carried⟩ n (rfl | rfl | ⟨j, y, next, hy, rfl⟩ | ⟨m, first, rfl⟩)
    · exact asked
    · unfold Config.longestWindow
      omega
    · obtain ⟨before, after, chain, absent⟩ := successorOf_eq_some_iff.1 next
      have := behind before j after y chain absent hy
      omega
    · exact Part.firstFull_bounds_iff.2 carried m first

/-- The grant is the largest multiple of 5 within every limit (R81). -/
theorem Part.le_grant_iff (multiple : g % 5 = 0) :
    g ≤ p.grant k r b amount ↔ ∀ n ∈ p.grantLimits k r b amount, g ≤ n := by
  refine ⟨fun le n hn => Nat.le_trans le (p.grant_le k r b amount n hn), fun le => ?_⟩
  cases least : (p.grantLimits k r b amount).min? with
  | none => simp [Part.grantLimits] at least
  | some m =>
    have := le m (List.min?_eq_some_iff.1 least).1
    unfold Part.grant
    rw [least, Option.getD_some]
    omega

theorem Part.grant_eq (multiple : g % 5 = 0) (within : g = 0 ∨ p.GrantFits k r b amount g)
    (largest : ¬ p.GrantFits k r b amount (g + 5)) : p.grant k r b amount = g := by
  have least : g ≤ p.grant k r b amount := by
    rcases within with rfl | fits
    · exact Nat.zero_le _
    · rcases Nat.eq_zero_or_pos g with rfl | positive
      · exact Nat.zero_le _
      · exact (Part.le_grant_iff multiple).2 ((Part.le_grantLimits_iff positive).2 fits)
  have most : ¬ g + 5 ≤ p.grant k r b amount := fun le =>
    largest ((Part.le_grantLimits_iff (Nat.succ_pos _)).1 ((Part.le_grant_iff (by omega)).1 le))
  have whole : p.grant k r b amount % 5 = 0 := Nat.mul_mod_left _ _
  omega

end

/-! ## O29: EXTEND and RETRACT -/

theorem Record.overstays_iff (r : Record) : r.overstays = true ↔ ∃ x, r.session = some x ∧ x.phase = .overstay := by
  simp [Record.overstays, Option.any_eq_true, Phase.isOverstay_iff]

theorem Record.not_overstays {r : Record} (h : ∀ x, r.session = some x → x.phase ≠ .overstay) : r.overstays = false :=
  Bool.eq_false_iff.2 fun h' => by
    obtain ⟨x, hx, phase⟩ := r.overstays_iff.1 h'
    exact h x hx phase

/-- A handle that names no live record, or a CLOSING one (R32). -/
theorem Part.findLive_of_namesNone {p : Part} {h1 h0 : Byte} (names : p.NamesNone h1 h0) :
    p.findLive (h1.toNat * 256 + h0.toNat) = none := by
  have low := h0.isLt
  cases found : p.findLive (h1.toNat * 256 + h0.toNat) with
  | none => rfl
  | some x =>
    obtain ⟨k, r⟩ := x
    obtain ⟨hr, live, handle⟩ := Part.findLive_some found
    have slot := k.isLt
    unfold Pool.handle at handle
    have generation : h1.toNat ≠ 0 := by
      intro zero
      have nothing : p.pool.find h0.toNat = none := by
        unfold Pool.find
        split
        · rfl
        · exact if_pos (.inl (Nat.div_eq_of_lt low))
      rw [zero, Nat.zero_mul, Nat.zero_add, Part.findLive, nothing] at found
      cases found
    exact absurd (names k r (by omega) generation (by omega) hr) live

section
variable {p : Part} {k : SlotId} {r : Record} {b : BayId} {handle amount : Nat}

theorem Part.extendRequest_range : p.extendRequest (handle, 0) = (⟨.range, []⟩, p) := rfl

theorem Part.extendRequest_unknown (positive : amount ≠ 0) (h : p.findLive handle = none) :
    p.extendRequest (handle, amount) = (⟨.unknownReservation, []⟩, p) := by
  simp only [Part.extendRequest, if_neg positive, h, Status.alone]

theorem Part.extendRequest_waiting (positive : amount ≠ 0) (h : p.findLive handle = some (k, r))
    (waits : r.state = .waiting) : p.extendRequest (handle, amount) = (⟨.wrongState, []⟩, p) := by
  have unchained : r.state.chained = false := by rw [waits]; rfl
  simp only [Part.extendRequest, if_neg positive, h, unchained, Status.alone]

/-- EXTEND on a chained record (R80 to R82). -/
theorem Part.extendRequest_chained (positive : amount ≠ 0) (h : p.findLive handle = some (k, r))
    (chained : r.state.chained = true) (bay : r.bay = some b) :
    p.extendRequest (handle, amount) =
      if r.windowEnd ≤ p.now || r.overstays then (⟨.tooLate, []⟩, p)
      else if 3 ≤ r.extensions.length then (⟨.extendLimit, []⟩, p)
      else if p.grant k r b amount = 0 then (⟨.noRoom, []⟩, p)
      else (⟨.ok, u16 (p.grant k r b amount) ++ u32 (r.windowEnd + p.grant k r b amount) ++
        u8 (r.extensions.length + 1)⟩, p.put k (r.extended (p.grant k r b amount))) := by
  simp only [Part.extendRequest, if_neg positive, h, chained, bay]
  rfl

theorem Part.retractRequest_unknown (h : p.findLive handle = none) :
    p.retractRequest handle = (⟨.unknownReservation, []⟩, p) := by
  simp only [Part.retractRequest, h, Status.alone]

theorem Part.retractRequest_none (h : p.findLive handle = some (k, r)) (empty : r.extensions = []) :
    p.retractRequest handle = (⟨.nothingToRetract, []⟩, p) := by
  simp only [Part.retractRequest, h, empty, Status.alone]

/-- RETRACT on a record with an extension (R83, R84). -/
theorem Part.retractRequest_some {x : Nat} {l : List Nat} (h : p.findLive handle = some (k, r))
    (stack : r.extensions = x :: l) :
    p.retractRequest handle =
      if r.windowEnd ≤ p.now + x || r.overstays then (⟨.tooLate, []⟩, p)
      else (⟨.ok, u16 x ++ u32 (r.windowEnd - x) ++ u8 l.length⟩, (p.put k (r.retracted x l)).retryDue) := by
  simp only [Part.retractRequest, h, stack]
  rfl

/-- The record that a RETRACT stores stands through the retry that it makes due (R84, R89). -/
theorem Part.finish_retracted (settled : p.work = .empty) (hr : p.record k = some r) (chained : r.state.chained = true)
    (x : Nat) (l : List Nat) : (p.put k (r.retracted x l)).retryDue.finish.record k = some (r.retracted x l) := by
  have work : (p.put k (r.retracted x l)).work = p.work := by
    rw [Part.put_inPlace (r := r.retracted x l) hr rfl rfl]
  refine Part.finish_record_of_retry ?_ ?_ ?_ ?_
  · exact (congrArg Work.blocked work).trans (congrArg Work.blocked settled)
  · exact (congrArg Work.leads work).trans (congrArg Work.leads settled)
  · rw [Part.retryDue_record, Part.record_put, if_pos rfl]
  · intro waits
    have waits : r.state = .waiting := waits
    rw [waits] at chained
    cases chained

end

theorem Rd.handleWord_all (h1 h0 a1 a0 : Byte) :
    Rd.handleWord.all [h1, h0, a1, a0] = some (h1.toNat * 256 + h0.toNat, a1.toNat * 256 + a0.toNat) := rfl

theorem Rd.u16_all (h1 h0 : Byte) : Rd.u16.all [h1, h0] = some (h1.toNat * 256 + h0.toNat) := rfl

/-- Settles O29: the outcomes of `Part.extendRequest`, whose grant `Part.grant_eq` characterises, and of
`Part.retractRequest`. -/
theorem extensionsArePushedAndPopped : Obligations.ExtensionsArePushedAndPopped := by
  unfold Obligations.ExtensionsArePushedAndPopped
  refine ⟨?unnamedExtend, ?unnamedRetract, ?extend, ?retract⟩
  case unnamedExtend =>
    intro s f rest h1 h0 a1 a0 settled asks
    have read := Rd.handleWord_all h1 h0 a1 a0
    refine ⟨fun zero => ?_, fun positive names => ?_⟩
    · rw [zero] at read
      exact State.serve_unchanged settled asks rfl read Part.extendRequest_range
    · exact State.serve_unchanged settled asks rfl read
        (Part.extendRequest_unknown positive (Part.findLive_of_namesNone names))
  case unnamedRetract =>
    intro s f rest h1 h0 settled asks names
    exact State.serve_unchanged settled asks rfl (Rd.u16_all h1 h0)
      (Part.retractRequest_unknown (Part.findLive_of_namesNone names))
  case extend =>
    intro s f rest h1 h0 a1 a0 k r b settled asks found
    have read := Rd.handleWord_all h1 h0 a1 a0
    refine ⟨fun zero => ?_, fun positive waits => ?_, fun positive chained bay => ?_⟩
    · rw [zero] at read
      exact State.serve_unchanged settled asks rfl read Part.extendRequest_range
    · exact State.serve_unchanged settled asks rfl read (Part.extendRequest_waiting positive found waits)
    have outcome := Part.extendRequest_chained positive found chained bay
    refine ⟨fun late => ?_, fun ahead calm => ?_⟩
    · rw [if_pos (by simpa [Record.overstays_iff] using late)] at outcome
      exact State.serve_unchanged settled asks rfl read outcome
    rw [if_neg (by simp [Record.not_overstays calm, ahead])] at outcome
    refine ⟨fun full => ?_, fun room => ?_⟩
    · rw [if_pos full] at outcome
      exact State.serve_unchanged settled asks rfl read outcome
    dsimp only
    intro g multiple fits largest
    have grant : s.part.grant k r b (a1.toNat * 256 + a0.toNat) = g := Part.grant_eq multiple fits largest
    rw [if_neg (Nat.not_le.2 room), grant] at outcome
    refine ⟨fun zero => ?_, fun given => ?_⟩
    · rw [if_pos zero] at outcome
      exact State.serve_unchanged settled asks rfl read outcome
    · rw [if_neg given] at outcome
      obtain ⟨hr, _, _⟩ := Part.findLive_some found
      rw [Part.put_inPlace (r := r.extended g) hr rfl rfl] at outcome
      exact State.serve_settled settled asks rfl read outcome rfl
  case retract =>
    intro s f rest h1 h0 k r settled asks found
    have read := Rd.u16_all h1 h0
    refine ⟨fun empty => ?_, fun x l stack => ?_⟩
    · exact State.serve_unchanged settled asks rfl read (Part.retractRequest_none found empty)
    have outcome := Part.retractRequest_some found stack
    refine ⟨fun late => ?_, fun ahead calm chained => ?_⟩
    · rw [if_pos (by simpa [Record.overstays_iff] using late)] at outcome
      exact State.serve_unchanged settled asks rfl read outcome
    · rw [if_neg (by simp [Record.not_overstays calm, ahead])] at outcome
      obtain ⟨hr, _, _⟩ := Part.findLive_some found
      exact ⟨_, State.serve_gives asks rfl read outcome, Part.finish_retracted settled hr chained x l⟩

/-! ## O16, O28: what the two requests read (R66, R180) -/

theorem Rd.asker_reads (lane vc ct tier : Byte) :
    Rd.asker.Reads [lane, vc, ct, tier] ⟨lane.toNat, vc.toNat, ct.toNat, tier.toNat⟩ :=
  (Rd.byte_reads lane).bind ((Rd.byte_reads vc).bind ((Rd.byte_reads ct).bind (Rd.byte_reads tier).last))

/-- The fields of a driver as a request carries them (12.4). -/
def Asker.carried (x : Asker) : AskerReq := ⟨x.lane.val, x.vclass.val, x.ctype.code, x.tier.val⟩

theorem ConnType.code_le (c : ConnType) : c.code ≤ 3 := by cases c <;> decide

theorem ConnType.eq_code {n : Nat} {c : ConnType} (h : ConnType.ofCode n = some c) : n = c.code := by
  unfold ConnType.ofCode at h
  split at h <;> cases h <;> rfl

theorem Rd.askerBytes_reads (x : Asker) : Rd.asker.Reads (askerBytes x) x.carried := by
  have ctype := x.ctype.code_le
  simp only [askerBytes, List.append_assoc]
  exact (Rd.u8_reads (by omega)).bind ((Rd.u8_reads (by omega)).bind ((Rd.u8_reads (by omega)).bind
    (Rd.u8_reads (by omega)).last))

theorem Rd.u32_reads {n : Nat} (h : n < 4294967296) : Rd.u32.Reads (Machine.u32 n) n := by
  have digits : Machine.u32 n = [BitVec.ofNat 8 (n / 16777216), BitVec.ofNat 8 (n / 65536)] ++
      [BitVec.ofNat 8 (n / 256), BitVec.ofNat 8 n] := by
    simp [Machine.u32, h]
  have pair (a b : Byte) : Rd.u16.Reads [a, b] (a.toNat * 256 + b.toNat) := (Rd.byte_reads a).bind (Rd.byte_reads b).last
  have read := (pair (BitVec.ofNat 8 (n / 16777216)) (BitVec.ofNat 8 (n / 65536))).bind
    (pair (BitVec.ofNat 8 (n / 256)) (BitVec.ofNat 8 n)).last (f := fun a => do return a * 65536 + (← Rd.u16))
  have value : ((BitVec.ofNat 8 (n / 16777216)).toNat * 256 + (BitVec.ofNat 8 (n / 65536)).toNat) * 65536 +
      ((BitVec.ofNat 8 (n / 256)).toNat * 256 + (BitVec.ofNat 8 n).toNat) = n := by
    simp only [BitVec.toNat_ofNat]
    omega
  rw [digits]
  rwa [value] at read

theorem Rd.window_reads (asap : Bool) {start duration : Nat} (start32 : start < 4294967296)
    (duration16 : duration < 65536) :
    Rd.window.Reads (Machine.bit asap ++ (Machine.u32 start ++ Machine.u16 duration)) ⟨asap, start, duration⟩ :=
  (Rd.bit_reads asap).bind ((Rd.u32_reads start32).bind (Rd.u16_reads duration16).last)

/-- The values of a BOOK fit in its bytes. -/
structure BookReq.Fits (q : BookReq) : Prop where
  start : q.window.start < 4294967296
  duration : q.window.duration < 65536
  quota (n : Nat) : q.quota = some n → n < 4294967296
  rateCap (n : Nat) : q.rateCap = some n → n < 65536
  deadline (n : Nat) : q.deadline = some n → n < 4294967296
  pinned (n : Nat) : q.pinned = some n → n < 256

/-- A BOOK whose values fit in its bytes is read back from them (12.4). -/
theorem Rd.book_reads {q : BookReq} {asker : List Byte} (read : Rd.asker.Reads asker q.asker) (fits : q.Fits) :
    Rd.book.Reads (asker ++ bookTail q.window.asap q.window.start q.window.duration q.quota q.rateCap q.deadline q.pinned)
      q := by
  have window := Rd.window_reads q.window.asap fits.start fits.duration
  have tail := window.bind ((Rd.opt_reads fun n hn => Rd.u32_reads (fits.quota n hn)).bind
    ((Rd.opt_reads fun n hn => Rd.u16_reads (fits.rateCap n hn)).bind
    ((Rd.opt_reads fun n hn => Rd.u32_reads (fits.deadline n hn)).bind
    (Rd.opt_reads fun n hn => Rd.u8_reads (fits.pinned n hn)).last)))
    (f := fun window => do
      let quota ← Rd.opt Rd.u32
      let rateCap ← Rd.opt Rd.u16
      let deadline ← Rd.opt Rd.u32
      let pinned ← Rd.opt Rd.u8
      return (⟨q.asker, window, quota, rateCap, deadline, pinned⟩ : BookReq))
  simp only [bookTail, List.append_assoc] at tail ⊢
  exact read.bind tail

theorem Rd.findFree_all {lane vc ct tier asap s3 s2 s1 s0 d1 d0 : Byte} (flag : asap = 0 ∨ asap = 1) :
    Rd.findFree.all [lane, vc, ct, tier, asap, s3, s2, s1, s0, d1, d0] =
      some (⟨lane.toNat, vc.toNat, ct.toNat, tier.toNat⟩, ⟨decide (asap = 1),
        s3.toNat * 16777216 + s2.toNat * 65536 + s1.toNat * 256 + s0.toNat, d1.toNat * 256 + d0.toNat⟩) := by
  have start : (s3.toNat * 256 + s2.toNat) * 65536 + (s1.toNat * 256 + s0.toNat) =
      s3.toNat * 16777216 + s2.toNat * 65536 + s1.toNat * 256 + s0.toNat := by omega
  rw [← start]
  rcases flag with rfl | rfl <;> rfl

/-! ## O16, O28: the range checks, the window and the refusals (R66 to R68) -/

theorem AskerReq.inRange_none {q : AskerReq} (h : 7 < q.lane ∨ 7 < q.vclass ∨ 3 < q.ctype ∨ 15 < q.tier) :
    q.inRange = none := by
  unfold AskerReq.inRange
  split
  · next lane vclass ctype tier =>
    rcases h with h | h | h | h
    · rw [fin?_of_le h] at lane; nomatch lane
    · rw [fin?_of_le h] at vclass; nomatch vclass
    · rw [ConnType.ofCode_of_lt h] at ctype; nomatch ctype
    · rw [fin?_of_le h] at tier; nomatch tier
  · rfl

theorem Asker.carried_inRange (x : Asker) : x.carried.inRange = some x := by
  simp [AskerReq.inRange, Asker.carried]

/-- The start that a request asks for: now with the ASAP flag (R68). -/
def WindowReq.startAt (q : WindowReq) (now : Nat) : Nat := if q.asap = true then now else q.start

section
variable {p : Part} {q : WindowReq}

theorem Part.windowStartOf_unset (h : p.clock.set = false) : p.windowStartOf q = .error .noClock := by
  simp [Part.windowStartOf, h]

theorem Part.windowStartOf_outside (set' : p.clock.set = true)
    (h : q.startAt p.now < p.now ∨ p.now + 10080 < q.startAt p.now) : p.windowStartOf q = .error .windowRange := by
  unfold WindowReq.startAt at h
  split at h
  · omega
  · next asked => simp [Part.windowStartOf, set', asked, Config.horizon, h]

theorem Part.windowStartOf_inside (set' : p.clock.set = true) (low : p.now ≤ q.startAt p.now)
    (high : q.startAt p.now ≤ p.now + 10080) : p.windowStartOf q = .ok (q.startAt p.now) := by
  unfold WindowReq.startAt at *
  split at low
  · next asap => simp [Part.windowStartOf, set', asap]
  · next asked =>
    rw [if_neg asked] at high
    simp [Part.windowStartOf, set', asked, Config.horizon, Nat.not_lt.2 low, Nat.not_lt.2 high]

end

/-- The answer to a driver and a window that are refused before the engine is asked: by the window (R68), or by the
policy with its deciding rule (R59, R60). -/
def Part.refusal (p : Part) (x : Asker) (q : WindowReq) : Option Answer :=
  match p.windowStartOf q with
  | .error e => some e.alone
  | .ok start =>
    match p.evaluate ⟨x, start, clampDuration q.duration⟩ with
    | .policyRefused rule => some (refusedBy .policyRefused rule)
    | .policyQuota rule => some (refusedBy .policyQuota (some rule))
    | .accepted _ => none

section
variable {p : Part} {x : Asker} {q : WindowReq} {start : Nat}

theorem Part.refusal_cases {a : Answer} (h : p.refusal x q = some a) :
    (∃ e, p.windowStartOf q = .error e ∧ a = e.alone) ∨
    ∃ start, p.windowStartOf q = .ok start ∧
      ((∃ rule, p.evaluate ⟨x, start, clampDuration q.duration⟩ = .policyRefused rule ∧
        a = refusedBy .policyRefused rule) ∨
      ∃ rule, p.evaluate ⟨x, start, clampDuration q.duration⟩ = .policyQuota rule ∧
        a = refusedBy .policyQuota (some rule)) := by
  unfold Part.refusal at h
  split at h
  · next e window => exact .inl ⟨e, window, (Option.some.inj h).symm⟩
  · next start window =>
    refine .inr ⟨start, window, ?_⟩
    split at h
    · next rule refused => exact .inl ⟨rule, refused, (Option.some.inj h).symm⟩
    · next rule full => exact .inr ⟨rule, full, (Option.some.inj h).symm⟩
    · cases h

theorem Part.refusal_window {e : Status} (h : p.windowStartOf q = .error e) : p.refusal x q = some ⟨e, []⟩ := by
  rw [Part.refusal, h]
  rfl

theorem Part.refusal_quota (h : p.windowStartOf q = .ok start) {r : RuleId}
    (refused : p.evaluate ⟨x, start, clampDuration q.duration⟩ = .policyQuota r) :
    p.refusal x q = some ⟨.policyQuota, [1, BitVec.ofNat 8 r.val]⟩ := by
  simp only [Part.refusal, h, refused]
  rfl

theorem Part.refusal_policy (h : p.windowStartOf q = .ok start) {rule : Option RuleId}
    (refused : p.evaluate ⟨x, start, clampDuration q.duration⟩ = .policyRefused rule) :
    p.refusal x q = some (refusedBy .policyRefused rule) := by
  simp only [Part.refusal, h, refused]

end

/-! ## O16: FIND-FREE -/

section
variable {p : Part} {x : Asker} {q : WindowReq} {y : AskerReq}

theorem Part.findFreeRequest_range (h : y.inRange = none) : p.findFreeRequest (y, q) = (⟨.range, []⟩, p) := by
  simp only [Part.findFreeRequest, h, Status.alone]

theorem Part.findFreeRequest_refused (h : y.inRange = some x) {a : Answer} (refused : p.refusal x q = some a) :
    p.findFreeRequest (y, q) = (a, p) := by
  rcases Part.refusal_cases refused with ⟨e, window, rfl⟩ | ⟨start, window, ⟨rule, policy, rfl⟩ | ⟨rule, quota, rfl⟩⟩
  · simp only [Part.findFreeRequest, h, window]
  · simp only [Part.findFreeRequest, h, window, policy]
  · simp only [Part.findFreeRequest, h, window, quota]

theorem Part.passing_mask (p : Part) (c : Call) :
    bayMask (BayMask.ofList (p.passing c)) =
      maskBytes 8 (((List.finRange 64).filter (p.passes c)).map (fun b => 2 ^ b.val)).sum :=
  congrArg (maskBytes 8) (BayMask.toNat_ofList ((List.nodup_finRange 64).filter _))

/-- FIND-FREE accepted (R79). -/
theorem Part.findFreeRequest_accepted (h : y.inRange = some x) {start : Nat} (window : p.windowStartOf q = .ok start)
    {m : Admission} (accepted : p.evaluate ⟨x, start, clampDuration q.duration⟩ = .accepted m) :
    p.findFreeRequest (y, q) =
      (⟨.ok, maskBytes 8 (((List.finRange 64).filter (p.passes
            ⟨start, start + clampDuration q.duration, x.ctype, m.eligible, 0, none, none, none⟩)).map
          (fun b => 2 ^ b.val)).sum ++
        u32 start ++ u32 (start + clampDuration q.duration) ++ u16 (clampDuration q.duration) ++ u8 m.priority⟩, p) := by
  simp only [Part.findFreeRequest, h, window, accepted, Answer.ok, ← Part.passing_mask]

end

/-- FIND-FREE answers what `Part.findFreeRequest` answers. -/
theorem execFindFree_gives {s : State} {f : Frame} {rest : List Frame} {payload : List Byte} {q : AskerReq × WindowReq}
    {a : Answer} (settled : s.settled) (asks : s.Asks .findFree payload f rest)
    (read : Rd.findFree.all payload = some q) (h : s.part.findFreeRequest q = (a, s.part)) :
    exec .findFree s = .next (s.replied rest f a s.part) :=
  State.serve_unchanged settled asks rfl read h

/-- Settles O16: the request is read back from its bytes, and its outcomes are those of `Part.findFreeRequest`, which
leaves the part as it is. -/
theorem findFreeAnswersTheFreeBays : Obligations.FindFreeAnswersTheFreeBays := by
  unfold Obligations.FindFreeAnswersTheFreeBays
  intro s f rest lane vc ct tier asap s3 s2 s1 s0 d1 d0 settled asks flag
  dsimp only
  have read := Rd.findFree_all (lane := lane) (vc := vc) (ct := ct) (tier := tier) (s3 := s3) (s2 := s2) (s1 := s1)
    (s0 := s0) (d1 := d1) (d0 := d0) flag
  have gives {a : Answer} := execFindFree_gives (a := a) settled asks read
  refine ⟨fun out => gives (Part.findFreeRequest_range (AskerReq.inRange_none out)), fun x hl hv hc ht => ?_⟩
  have range := x.carried_inRange
  rw [Asker.carried, ← hl, ← hv, ← hc, ← ht] at range
  generalize hq : WindowReq.mk (decide (asap = 1))
    (s3.toNat * 16777216 + s2.toNat * 65536 + s1.toNat * 256 + s0.toNat) (d1.toNat * 256 + d0.toNat) = q at read gives
  have start : (if asap = 1 then s.part.now else
      s3.toNat * 16777216 + s2.toNat * 65536 + s1.toNat * 256 + s0.toNat) = q.startAt s.part.now := by
    simp [← hq, WindowReq.startAt]
  have granted : min (max ((d1.toNat * 256 + d0.toNat + 4) / 5 * 5) 15) 720 = clampDuration q.duration := by
    rw [← hq]
    rfl
  rw [start, granted]
  have refuses {a : Answer} (h : s.part.refusal x q = some a) := gives (Part.findFreeRequest_refused range h)
  refine ⟨fun unset => refuses (Part.refusal_window (Part.windowStartOf_unset unset)),
    fun set' out => refuses (Part.refusal_window (Part.windowStartOf_outside set' out)), fun set' low high => ?_⟩
  have window := Part.windowStartOf_inside set' low high
  exact ⟨fun r h => refuses (Part.refusal_quota window h), fun r h => refuses (Part.refusal_policy window h),
    fun h => refuses (Part.refusal_policy window h), fun m h => gives (Part.findFreeRequest_accepted range window h)⟩

/-! ## O28: BOOK up to the engine's answer (R66 to R70) -/

theorem BookReq.inRange_none {q : BookReq}
    (h : 7 < q.asker.lane ∨ 7 < q.asker.vclass ∨ 3 < q.asker.ctype ∨ 15 < q.asker.tier ∨
      ∃ n, q.pinned = some n ∧ 63 < n) : q.inRange = none := by
  have asker (h : 7 < q.asker.lane ∨ 7 < q.asker.vclass ∨ 3 < q.asker.ctype ∨ 15 < q.asker.tier) : q.inRange = none := by
    simp only [BookReq.inRange, AskerReq.inRange_none h]
  rcases h with h | h | h | h | ⟨n, pinned, above⟩
  · exact asker (.inl h)
  · exact asker (.inr (.inl h))
  · exact asker (.inr (.inr (.inl h)))
  · exact asker (.inr (.inr (.inr h)))
  · have noBay : fin? 64 n = none := fin?_of_le (Nat.succ_le_of_lt above)
    unfold BookReq.inRange
    rw [pinned]
    cases q.asker.inRange <;> simp [noBay]

theorem BookReq.inRange_some {q : BookReq} {x : Asker} {pinned : Option BayId} (asker : q.asker = x.carried)
    (h : q.pinned = pinned.map (·.val)) : q.inRange = some (x, pinned) := by
  unfold BookReq.inRange
  rw [asker, x.carried_inRange, h]
  cases pinned <;> simp

/-- What the record of an accepted BOOK takes from its request and its admission (R67, R69). -/
def BookReq.taken (q : BookReq) (x : Asker) (m : Admission) (start : Nat) (pinned : Option BayId) : NewRecord where
  asker := x
  admission := m
  start := start
  stop := start + clampDuration q.window.duration
  duration := clampDuration q.window.duration
  quota := clampQuota q.quota
  rateCap := clampRate q.rateCap
  deadline := q.deadline.map (fun d => max d start)
  pinned := pinned
  origin := .booked

/-- BOOK `q` is in range, its window is allowed and the policy accepts it, for a record that takes `n` (R66 to R69). -/
structure BookReq.Granted (q : BookReq) (p : Part) (n : NewRecord) : Prop where
  range : q.inRange = some (n.asker, n.pinned)
  window : p.windowStartOf q.window = .ok n.start
  accepted : p.evaluate ⟨n.asker, n.start, clampDuration q.window.duration⟩ = .accepted n.admission
  taken : n = q.taken n.asker n.admission n.start n.pinned

/-- The call of an accepted BOOK (R70). -/
def NewRecord.call (n : NewRecord) : Call :=
  ⟨n.start, n.stop, n.asker.ctype, n.admission.eligible, n.admission.preferred, n.pinned, none, none⟩

section
variable {p : Part} {q : BookReq} {x : Asker} {pinned : Option BayId} {m : Admission} {start : Nat} {k : SlotId}
  {l : List SlotId} {n : NewRecord}

theorem Part.bookRequest_range (h : q.inRange = none) : p.bookRequest q = (⟨.range, []⟩, p) := by
  simp only [Part.bookRequest, h, Status.alone]

theorem Part.bookRequest_refused (h : q.inRange = some (x, pinned)) {a : Answer}
    (refused : p.refusal x q.window = some a) : p.bookRequest q = (a, p) := by
  rcases Part.refusal_cases refused with ⟨e, window, rfl⟩ | ⟨start, window, ⟨rule, policy, rfl⟩ | ⟨rule, quota, rfl⟩⟩
  · simp only [Part.bookRequest, h, Part.bookInRange, window]
  · simp only [Part.bookRequest, h, Part.bookInRange, window, policy]
  · simp only [Part.bookRequest, h, Part.bookInRange, window, quota]

theorem Part.bookRequest_full (h : q.Granted p n) (free : p.pool.free = []) :
    p.bookRequest q = (⟨.poolFull, []⟩, p) := by
  simp only [Part.bookRequest, h.range, Part.bookInRange, h.window, h.accepted, free, Status.alone]

/-- An accepted BOOK with a free slot: the engine's bay, or the Waiting List (R71, R72). -/
theorem Part.bookRequest_free (h : q.Granted p n) (free : p.pool.free = k :: l) :
    p.bookRequest q =
      match p.place n.call with
      | some b => p.bookPlaced k n b
      | none => p.bookWaiting k n := by
  rw [h.taken]
  simp only [Part.bookRequest, h.range, Part.bookInRange, h.window, h.accepted, free]
  rfl

theorem Part.bookRequest_placed (h : q.Granted p n) (free : p.pool.free = k :: l) {b : BayId}
    (placed : p.place n.call = some b) : p.bookRequest q = p.bookPlaced k n b := by
  rw [Part.bookRequest_free h free, placed]

theorem Part.bookRequest_waiting (h : q.Granted p n) (free : p.pool.free = k :: l) (none : p.place n.call = none) :
    p.bookRequest q = p.bookWaiting k n := by
  rw [Part.bookRequest_free h free, none]

theorem Part.bookWaiting_noBay (h : ∀ d, n.deadline = some d → d ≤ p.now) :
    p.bookWaiting k n = (⟨.noBay, []⟩, p) := by
  unfold Part.bookWaiting
  split
  · rfl
  · next d hd => exact if_pos (h d hd)

theorem Part.bookWaiting_full {d : Nat} (deadline : n.deadline = some d) (later : p.now < d)
    (full : 32 ≤ p.pool.waiting.length) : p.bookWaiting k n = (⟨.listFull, []⟩, p) := by
  simp only [Part.bookWaiting, deadline, if_neg (Nat.not_le.2 later)]
  exact if_neg (Nat.not_lt.2 full)

/-- A BOOK that joins the Waiting List (R72, R87). -/
theorem Part.bookWaiting_joins {d : Nat} (deadline : n.deadline = some d) (later : p.now < d)
    (room : p.pool.waiting.length < 32) :
    p.bookWaiting k n =
      (⟨.waiting, bookReply (p.pool.handle k) (p.newRecord n .waiting none)
          (((p.put k (p.newRecord n .waiting none)).advanceTallies n.admission.tallies).pool.position k)⟩,
        (p.put k (p.newRecord n .waiting none)).advanceTallies n.admission.tallies) := by
  simp only [Part.bookWaiting, deadline, if_neg (Nat.not_le.2 later)]
  exact if_pos room

/-- The record as the statement writes it: its quota is absent at 0, and at most 200 000 (R67). -/
theorem BookReq.newRecord_taken (q : BookReq) (p : Part) (x : Asker) (m : Admission) (start : Nat)
    (pinned : Option BayId) (state : RecState) (bay : Option BayId) :
    p.newRecord (q.taken x m start pinned) state bay =
      { createdRecord p x m start (start + clampDuration q.window.duration) (clampDuration q.window.duration) state bay
          .booked with
        quota := (match q.quota with
          | none => none
          | some n => if n = 0 then none else some (min n 200000))
        rateCap := q.rateCap.map (fun n => min (max n 60) 800)
        deadline := q.deadline.map (fun d => max d start)
        pinned := pinned } := by
  have quota : clampQuota q.quota = (match q.quota with
      | none => none
      | some n => if n = 0 then none else some (min n 200000)) := by
    cases q.quota <;> rfl
  rw [← quota]
  rfl

end

/-! ## O28: the advance of the tallies leaves the rest (R61) -/

theorem Part.advanceTallies_view {γ : Type} (view : Part → γ) (h : ∀ p r x, view (p.setRule r x) = view p) (p : Part)
    (l : List RuleId) : view (p.advanceTallies l) = view p :=
  foldl_view view (fun p r => h p r (p.rule r).advance) l p

section
variable (p : Part) (l : List RuleId)

theorem Part.advanceTallies_pool : (p.advanceTallies l).pool = p.pool :=
  Part.advanceTallies_view Part.pool (fun _ _ _ => rfl) p l

theorem Part.advanceTallies_work : (p.advanceTallies l).work = p.work :=
  Part.advanceTallies_view Part.work (fun _ _ _ => rfl) p l

theorem Part.advanceTallies_bays : (p.advanceTallies l).bays = p.bays :=
  Part.advanceTallies_view Part.bays (fun _ _ _ => rfl) p l

end

/-! ## O28: a record that joins a chain without engagement blocks no bay (R7, R8) -/

theorem find?_insertBefore {α : Type} {f before : α → Bool} {x : α} (h : f x = false) (l : List α) :
    (insertBefore before x l).find? f = l.find? f := by
  induction l with
  | nil => simp [insertBefore, h]
  | cons y l ih =>
    unfold insertBefore
    split
    · rw [List.find?_cons, h]
    · rw [List.find?_cons, List.find?_cons, ih]

section
variable {p q : Part} {b : BayId} {k : SlotId} {r : Record}

/-- Whether a condition blocks does not depend on the records that wait on the chain (R7, R8). -/
theorem Part.conditionOf_blocking_congr (bay : (q.bay b) = (p.bay b)) (serviceable : q.serviceable b = p.serviceable b)
    (occupant : q.occupant b = p.occupant b) (session : ∀ j, p.occupant b = some j → q.session j = p.session j) :
    (q.conditionOf b).blocking = (p.conditionOf b).blocking := by
  by_cases out : (p.bay b).configured = false ∨ (p.bay b).service = .out
  · rw [Part.conditionOf_out out, Part.conditionOf_out (bay.symm ▸ out)]
  obtain ⟨configured, service⟩ := not_or.1 out
  have configured : (p.bay b).configured = true := by simpa using configured
  have service : (p.bay b).service = .inService := by cases h : (p.bay b).service <;> simp_all
  have configured' := bay.symm ▸ configured
  have service' := bay.symm ▸ service
  cases h : p.serviceable b with
  | false =>
    rw [Part.conditionOf_dark configured service h,
      Part.conditionOf_dark configured' service' (serviceable.trans h)]
  | true =>
    have h' := serviceable.trans h
    cases ho : p.occupant b with
    | some j =>
      rw [Part.conditionOf_occupied configured service h ho,
        Part.conditionOf_occupied configured' service' h' (occupant.trans ho), session j ho]
    | none =>
      rw [Part.conditionOf_unoccupied configured service h ho,
        Part.conditionOf_unoccupied configured' service' h' (occupant.trans ho), bay]
      split
      · rfl
      · split <;> split <;> rfl

/-- A record that joins a chain without being ENGAGED leaves the occupant of the bay. -/
theorem Part.occupant_of_joined (parts : p.pool.partitioned) (free : p.record k = none) (idle : r.state ≠ .engaged)
    (home : r.home = .chain b) {r' : Record} (state : r'.state = r.state)
    (pool : q.pool = (p.pool.put k r).put k r') (home' : r'.home = r.home) :
    q.occupant b = p.occupant b ∧ ∀ j, p.occupant b = some j → q.session j = p.session j := by
  have homeOf : p.pool.homeOf k = .free := Pool.homeOf_free free
  have ne : p.pool.homeOf k ≠ r.home := by rw [homeOf, home]; exact fun e => nomatch e
  have record (j : SlotId) : q.record j = if j = k then some r' else p.record j := by
    unfold Part.record
    rw [pool, Pool.record_put]
    split
    · rfl
    · next other => rw [Pool.record_put_ne _ _ other]
  have chain : ∃ before, q.chain b = insertBefore before k (p.chain b) := by
    have stays := Pool.members_put_home (p.pool.put k r) k r' (.chain b)
      ((Pool.homeOf_record (Pool.record_put_self _ _ _)).trans home'.symm)
    refine ⟨_, Eq.trans ?_ (Pool.chain_join parts home ne)⟩
    unfold Part.chain
    rw [pool]
    exact stays
  have absent : k ∉ p.chain b := fun mem => by
    exact nomatch homeOf.symm.trans ((Pool.mem_chain parts).1 mem)
  have same (j : SlotId) (hj : j ∈ p.chain b) :
      q.recordIs (fun r => r.state = .engaged) j = p.recordIs (fun r => r.state = .engaged) j := by
    have other : j ≠ k := fun e => absent (e ▸ hj)
    rw [Part.recordIs, record, if_neg other, Part.recordIs]
  have new : q.recordIs (fun r => r.state = .engaged) k = false := by
    rw [Part.recordIs, record, if_pos rfl]
    simpa [state] using idle
  obtain ⟨before, chain⟩ := chain
  refine ⟨?_, fun j occupant => ?_⟩
  · unfold Part.occupant
    rw [chain, find?_insertBefore new, find?_congr _ same]
  · have other : j ≠ k := fun e => absent (e ▸ List.mem_of_find?_eq_some occupant)
    rw [Part.session, record, if_neg other, Part.session]

end

/-! ## O28: the completion of a booking -/

section
variable {p : Part} {k : SlotId} {l : List SlotId}

theorem Part.armChecks_bays (p : Part) (k : SlotId) : (p.armChecks k).bays = p.bays := by
  have wake (p : Part) (b : BayId) : (p.wakeBay b).bays = p.bays := by
    unfold Part.wakeBay Part.wakePost
    split <;> rfl
  unfold Part.armChecks
  split
  · rfl
  · dsimp only
    split <;> split <;> (try split) <;> simp [wake]

theorem foldl_of_fixed {α β : Type} {f : β → α → β} {q : β} (l : List α) (h : ∀ a ∈ l, f q a = q) :
    l.foldl f q = q := by
  induction l with
  | nil => rfl
  | cons a l ih =>
    rw [List.foldl_cons, h a List.mem_cons_self]
    exact ih fun b hb => h b (List.mem_cons_of_mem _ hb)

/-- The part with no lead check to take. -/
def Part.withoutLeads (p : Part) : Part := { p with work := { p.work with leads := [] } }

/-- A completion with idle conditions and lead checks alone that find nothing to do leaves the pool (R112). -/
theorem Part.finish_pool_of_leads (errands : p.work.errands = { Work.empty with leads := l })
    (calm : ∀ s ∈ l, p.withoutLeads.leadCheck s = p.withoutLeads) : p.finish.pool = p.pool := by
  have blocked : p.work.blocked = [] := congrArg (fun w : Work => w.blocked) errands
  have leads : p.work.leads = l := congrArg (fun w : Work => w.leads) errands
  have retry : p.work.retry = false := congrArg (fun w : Work => w.retry) errands
  have next : p.work.nextExchange = false := congrArg (fun w : Work => w.nextExchange) errands
  have walked : p.takeBlocked.takeLeads = p.withoutLeads.takeBlocked.takeLeads := by
    have nothing : p.takeBlocked = p := by
      obtain ⟨time, clock, settings, bays, feeders, trips, posts, pool, lanes, rules, link, outstanding,
        ⟨blocked, leads, idle, retry, next⟩, choices⟩ := p
      cases blocked
      rfl
    have nothing' : p.withoutLeads.takeBlocked.takeLeads = p.withoutLeads := by
      obtain ⟨time, clock, settings, bays, feeders, trips, posts, pool, lanes, rules, link, outstanding,
        ⟨blocked, leads, idle, retry, next⟩, choices⟩ := p
      cases blocked
      rfl
    rw [nothing, nothing']
    show p.work.leads.foldl Part.leadCheck p.withoutLeads = p.withoutLeads
    rw [leads]
    exact foldl_of_fixed l calm
  have same : p.finish = p.withoutLeads.finish := by
    unfold Part.finish
    rw [walked]
  rw [same]
  exact (p.withoutLeads.finish_idle_pool blocked rfl retry next).1

end

/-! ## O28: BOOK on the engine's bay (R71) -/

/-- A bay that passes for a window that starts within the lead does not block (R75). -/
theorem Part.passes_open {p : Part} {c : Call} {b : BayId} (passes : p.passes c b = true)
    (near : c.start ≤ p.now + p.settings.lead) :
    (p.bay b).condition.blocking = false := by
  obtain ⟨_, _, _, inService, soon, _⟩ := Part.candidate_iff.1 (Part.passes_iff.1 passes).1
  obtain ⟨dark, _, intruded, overstay⟩ := soon.resolve_left (Nat.not_lt.2 near)
  refine Bool.eq_false_iff.2 fun blocks => ?_
  rcases (Condition.blocking_iff _).1 blocks with e | e | e | e
  · exact inService e
  · exact dark e
  · exact intruded e
  · exact overstay e

/-- The part after a BOOK on bay `b` has stored its record, the event not completed yet. -/
def Part.booked (p : Part) (k : SlotId) (r : Record) (b : BayId) (tallies : List RuleId) : Part :=
  (((p.put k r).armChecks k).derive b).advanceTallies tallies

theorem Part.record_put_self (p : Part) (k : SlotId) (r : Record) : (p.put k r).record k = some r :=
  (p.record_put k r k).trans (if_pos rfl)

theorem Part.put_armChecks_bay (p : Part) (k : SlotId) (r : Record) (b : BayId) :
    ((p.put k r).armChecks k).bay b = p.bay b := by
  unfold Part.bay
  rw [Part.armChecks_bays, Part.put_bays]

/-- The pool after a BOOK: the record stands with its checks marked (R23). -/
theorem Part.booked_pool (p : Part) (k : SlotId) (r : Record) (b : BayId) (tallies : List RuleId) :
    ∃ lead wake, (p.booked k r b tallies).pool =
      (p.pool.put k r).put k { r with leadTaken := lead, wakeTaken := wake } := by
  have stored := p.record_put_self k r
  obtain ⟨lead, wake, armed⟩ := Part.armChecks_pool stored
  refine ⟨lead, wake, ?_⟩
  rw [Part.booked, Part.advanceTallies_pool, Part.derive, Part.deriveWith_pool, armed, Part.put_pool]

/-- A record created on bay `b` by a call whose window it takes. -/
structure Part.BooksOn (p : Part) (c : Call) (k : SlotId) (r : Record) (b : BayId) : Prop where
  parts : p.pool.partitioned
  current : p.conditionsCurrent
  settled : p.work = .empty
  free : p.record k = none
  passes : p.passes c b = true
  upcoming : r.state.upcoming = true
  bay : r.bay = some b
  start : r.windowStart = c.start

/-- The state of a record that BOOK places (R71). -/
def Part.bookedState (p : Part) (n : NewRecord) : RecState := if n.start > p.now then .booked else .held

theorem Part.booksOn_of_place {p : Part} {n : NewRecord} {k : SlotId} {b : BayId} (parts : p.pool.partitioned)
    (current : p.conditionsCurrent) (settled : p.work = .empty) (free : p.record k = none)
    (placed : p.place n.call = some b) :
    p.BooksOn n.call k (p.newRecord n (p.bookedState n) (some b)) b where
  parts := parts
  current := current
  settled := settled
  free := free
  passes := Part.place_passes placed
  upcoming := by
    show (p.bookedState n).upcoming = true
    unfold Part.bookedState
    split <;> rfl
  bay := rfl
  start := rfl

section
variable {p : Part} {c : Call} {k : SlotId} {r : Record} {b : BayId} (h : p.BooksOn c k r b)
include h

/-- The bay's condition blocks after the booking only where it blocked before (R8). -/
theorem Part.BooksOn.blocking :
    (((p.put k r).armChecks k).conditionOf b).blocking = (p.bay b).condition.blocking := by
  have stored := p.record_put_self k r
  obtain ⟨live, closing⟩ := RecState.upcoming_live h.upcoming
  have home : r.home = .chain b := Record.home_of_bay (RecState.upcoming_chained h.upcoming) h.bay
  have bay := p.put_armChecks_bay k r b
  have serviceable : ((p.put k r).armChecks k).serviceable b = p.serviceable b := by
    have armed := Part.armChecks_tidies (linked := true) (p.put k r) k stored live closing
    unfold Part.serviceable
    rw [armed.serviceable, bay, Part.post, Part.put_posts, Part.post]
  obtain ⟨lead, wake, pool⟩ := Part.armChecks_pool stored
  rw [Part.put_pool] at pool
  obtain ⟨occupant, session⟩ := Part.occupant_of_joined h.parts h.free live home
    (r' := { r with leadTaken := lead, wakeTaken := wake }) rfl pool rfl
  rw [h.current b]
  exact Part.conditionOf_blocking_congr bay serviceable occupant session

/-- The event has idle conditions to complete, and the lead check of the record where its minute has been reached. -/
theorem Part.BooksOn.errands (tallies : List RuleId) :
    (p.booked k r b tallies).work.errands =
      { Work.empty with leads := if p.reached r.windowStart p.settings.lead = true then [k] else [] } := by
  have stored := p.record_put_self k r
  have bay := p.put_armChecks_bay k r b
  have reached : (p.put k r).reached r.windowStart (p.put k r).settings.lead =
      p.reached r.windowStart p.settings.lead := by
    simp [Part.reached, Part.put_now]
  have put := p.put_errands k r
  have leads : (p.put k r).work.leads = [] := (Work.leads_of_errands put).trans (congrArg Work.leads h.settled)
  rw [Part.booked, Part.advanceTallies_work, Part.derive_errands, Part.armChecks_errands stored, reached, put, leads,
    h.settled]
  · rfl
  · rw [h.blocking, bay]
    exact id

/-- A lead check that is due at once finds a bay that does not block: the candidate test asked for one (R75, R112). -/
theorem Part.BooksOn.calm (tallies : List RuleId) (due : p.reached r.windowStart p.settings.lead = true) :
    (p.booked k r b tallies).withoutLeads.leadCheck k = (p.booked k r b tallies).withoutLeads := by
  have near : c.start ≤ p.now + p.settings.lead := by
    simp only [Part.reached, Bool.and_eq_true, decide_eq_true_eq, h.start] at due
    exact due.2
  have condition : ((p.booked k r b tallies).bay b).condition.blocking = false := by
    have derived := (((p.put k r).armChecks k).deriveWith_sights true b b).2.2
    rw [if_pos rfl] at derived
    rw [Part.bay, Part.booked, Part.advanceTallies_bays]
    exact (congrArg Condition.blocking derived).trans (h.blocking.trans (Part.passes_open h.passes near))
  obtain ⟨lead, wake, pool⟩ := p.booked_pool k r b tallies
  have record : (p.booked k r b tallies).withoutLeads.record k = some { r with leadTaken := lead, wakeTaken := wake } :=
    (congrArg (Pool.record · k) pool).trans (Pool.record_put_self _ _ _)
  have condition : ((p.booked k r b tallies).withoutLeads.bay b).condition.blocking = false := condition
  unfold Part.leadCheck
  rw [record]
  simp only [h.bay, condition, Bool.and_false, Bool.false_eq_true, if_false]

/-- A BOOK on the engine's bay leaves its record there, with its checks marked, and has advanced the tallies (R61, R71). -/
theorem Part.BooksOn.finish (tallies : List RuleId) :
    (∃ lead wake, (p.booked k r b tallies).finish.record k = some { r with leadTaken := lead, wakeTaken := wake }) ∧
    ∀ q : RuleId, ((p.booked k r b tallies).finish.rule q).counter = (p.rule q).counter + tallies.count q := by
  refine ⟨?_, fun q => ?_⟩
  · obtain ⟨lead, wake, pool⟩ := p.booked_pool k r b tallies
    refine ⟨lead, wake, ?_⟩
    have finished := Part.finish_pool_of_leads (h.errands tallies) fun s hs => by
      split at hs
      · next due =>
        rw [List.mem_singleton.1 hs]
        exact h.calm tallies due
      · cases hs
    rw [Part.record, finished, pool, Pool.record_put_self]
  · have rules : ((p.put k r).armChecks k |>.derive b).rules = p.rules := by
      rw [Part.derive, Part.deriveWith_rules, Part.armChecks_rules, Part.put_rules]
    rw [Part.rule, (Part.finish_tidies _).rules]
    refine (Part.advanceTallies_counter tallies _ q).trans ?_
    rw [Part.rule, rules, Part.rule]

end

/-! ## O28: BOOK on the Waiting List (R72, R87) -/

section
variable {p : Part} {k : SlotId} {r : Record}

/-- A waiting record created in a free slot joins the Waiting List, and nothing else changes. -/
theorem Part.put_waiting (free : p.record k = none) (bay : r.bay = none) :
    p.put k r = { p with pool := p.pool.put k r } := by
  unfold Part.put
  rw [free, bay]
  rfl

theorem Pool.mem_waiting_put {q : Pool} (parts : q.partitioned) (waits : r.state = .waiting) :
    k ∈ (q.put k r).waiting :=
  (Pool.mem_members (Pool.partitioned_put parts k r) (h := .waiting)).2
    ((Pool.homeOf_record (Pool.record_put_self _ _ _)).trans (Record.home_waiting.2 waits))

/-- A record that joins the Waiting List leaves nothing to complete (R72, R61). -/
theorem Part.listed (parts : p.pool.partitioned) (free : p.record k = none) (bay : r.bay = none)
    (waits : r.state = .waiting) (tallies : List RuleId) :
    let q := (p.put k r).advanceTallies tallies
    q.work = p.work ∧ q.record k = some r ∧ k ∈ q.pool.waiting ∧
      (∀ i : RuleId, (q.rule i).counter = (p.rule i).counter + tallies.count i) ∧
      q.bays = p.bays ∧ q.posts = p.posts ∧ q.feeders = p.feeders := by
  rw [Part.put_waiting free bay]
  refine ⟨Part.advanceTallies_work _ _, ?_, ?_, Part.advanceTallies_counter tallies _, Part.advanceTallies_bays _ _,
    Part.advanceTallies_view Part.posts (fun _ _ _ => rfl) _ _,
    Part.advanceTallies_view Part.feeders (fun _ _ _ => rfl) _ _⟩
  · rw [Part.record, Part.advanceTallies_pool]
    exact Pool.record_put_self _ _ _
  · rw [Part.advanceTallies_pool]
    exact Pool.mem_waiting_put parts waits

end

theorem execBook_gives {s : State} {f : Frame} {rest : List Frame} {payload : List Byte} {q : BookReq} {a : Answer}
    {p : Part} (asks : s.Asks .book payload f rest) (read : Rd.book.all payload = some q)
    (h : s.part.bookRequest q = (a, p)) : exec .book s = .next (s.replied rest f a p.finish) :=
  State.serve_gives asks rfl read h

theorem execBook_unchanged {s : State} {f : Frame} {rest : List Frame} {payload : List Byte} {q : BookReq} {a : Answer}
    (settled : s.settled) (asks : s.Asks .book payload f rest) (read : Rd.book.all payload = some q)
    (h : s.part.bookRequest q = (a, s.part)) : exec .book s = .next (s.replied rest f a s.part) :=
  State.serve_unchanged settled asks rfl read h

/-- Settles O28: the request is read back from its bytes; the refusals are those of `Part.refusal`, the outcomes of an
accepted request those of `Part.bookRequest_free`. -/
theorem bookPlacesOrListsTheRecord : Obligations.BookPlacesOrListsTheRecord := by
  unfold Obligations.BookPlacesOrListsTheRecord
  refine ⟨?ranges, ?inRange⟩
  case ranges =>
    intro s f rest lane vc ct tier asap start duration quota rateCap deadline pinned settled asks hs hd hq hr hl hp out
    have fits : BookReq.Fits ⟨⟨lane.toNat, vc.toNat, ct.toNat, tier.toNat⟩, ⟨asap, start, duration⟩, quota, rateCap,
      deadline, pinned⟩ := ⟨hs, hd, hq, hr, hl, hp⟩
    exact execBook_unchanged settled asks (Rd.book_reads (Rd.asker_reads lane vc ct tier) fits).all
      (Part.bookRequest_range (BookReq.inRange_none out))
  case inRange =>
    intro s f rest x asap asked duration quota rateCap deadline pinned settled current parts asks hs hd hq hr hl
    generalize hreq : BookReq.mk x.carried ⟨asap, asked, duration⟩ quota rateCap deadline (pinned.map (·.val)) = q
    have fits : q.Fits := by
      rw [← hreq]
      refine ⟨hs, hd, hq, hr, hl, fun n hn => ?_⟩
      obtain ⟨b, _, rfl⟩ := Option.map_eq_some_iff.1 hn
      exact Nat.lt_trans b.isLt (by decide)
    have asker : q.asker = x.carried := hreq ▸ rfl
    have read : Rd.book.all (askerBytes x ++ bookTail asap asked duration quota rateCap deadline (pinned.map (·.val))) =
        some q := by
      have read := (Rd.book_reads (asker ▸ Rd.askerBytes_reads x) fits).all
      rwa [← hreq] at read ⊢
    have range : q.inRange = some (x, pinned) := BookReq.inRange_some asker (hreq ▸ rfl)
    have same {a : Answer} := execBook_unchanged (a := a) settled asks read
    have start : (if asap = true then s.part.now else asked) = q.window.startAt s.part.now := hreq ▸ rfl
    have granted : min (max ((duration + 4) / 5 * 5) 15) 720 = clampDuration q.window.duration := hreq ▸ rfl
    have hquota : quota = q.quota := hreq ▸ rfl
    have hrate : rateCap = q.rateCap := hreq ▸ rfl
    have hlimit : deadline = q.deadline := hreq ▸ rfl
    dsimp only
    rw [start, granted, hquota, hrate, hlimit]
    have refuses {a : Answer} (h : s.part.refusal x q.window = some a) := same (Part.bookRequest_refused range h)
    refine ⟨fun unset => refuses (Part.refusal_window (Part.windowStartOf_unset unset)),
      fun set' out => refuses (Part.refusal_window (Part.windowStartOf_outside set' out)), fun set' low high => ?_⟩
    have window := Part.windowStartOf_inside set' low high
    refine ⟨fun r h => refuses (Part.refusal_quota window h), fun r h => refuses (Part.refusal_policy window h),
      fun h => refuses (Part.refusal_policy window h), fun m accepted => ?_⟩
    have granted : q.Granted s.part (q.taken x m (q.window.startAt s.part.now) pinned) := ⟨range, window, accepted, rfl⟩
    have taken := q.newRecord_taken s.part x m (q.window.startAt s.part.now) pinned
    refine ⟨fun empty => same (Part.bookRequest_full granted empty), fun k l free => ?_⟩
    have unused := Part.free_record parts free
    refine ⟨fun b placed => ?placed, fun placed ⟨d, deadline, later⟩ room => ?joins,
      fun placed ⟨d, deadline, later⟩ full => ?listFull, fun placed past => ?noBay⟩
    case placed =>
      obtain ⟨⟨lead, wake, record⟩, counters⟩ :=
        (Part.booksOn_of_place (n := q.taken x m (q.window.startAt s.part.now) pinned) parts current settled unused
          placed).finish m.tallies
      exact ⟨_, _, execBook_gives asks read (Part.bookRequest_placed granted free placed), record, taken _ _, counters⟩
    case joins =>
      obtain ⟨work, record, mem, counters, bays, posts, feeders⟩ := Part.listed parts unused
        (r := s.part.newRecord (q.taken x m (q.window.startAt s.part.now) pinned) .waiting none) rfl rfl m.tallies
      exact ⟨_, State.serve_settled settled asks rfl read ((Part.bookRequest_waiting granted free placed).trans
        (Part.bookWaiting_joins deadline later room)) work,
        record.trans (congrArg some (taken _ _)), mem, counters, bays, posts, feeders⟩
    case listFull =>
      exact same ((Part.bookRequest_waiting granted free placed).trans (Part.bookWaiting_full deadline later full))
    case noBay => exact same ((Part.bookRequest_waiting granted free placed).trans (Part.bookWaiting_noBay past))

end Sys2Proof.Machine

namespace Sys2Proof.Machine

/-! ## O43: what a record reads after a close, a demotion, a relocation and a placement -/

section
variable {p : Part} {k : SlotId} {r : Record} {a b c : BayId}

/-- The marks of the two checks in a record whose start has new due minutes (R23). -/
def Part.checked (p : Part) (r : Record) : Record :=
  { r with
    leadTaken := p.reached r.windowStart p.settings.lead
    wakeTaken := p.reached r.windowStart p.settings.standbyLead }

theorem Part.armChecks_record (hr : p.record k = some r) : (p.armChecks k).record k = some (p.checked r) := by
  unfold Part.armChecks
  rw [hr]
  dsimp only
  unfold Part.record
  split <;> split <;> (try split) <;> simp [Part.wakeBay_pool, Part.checked]

theorem Part.demote_record (hr : p.record k = some r) (room : p.pool.waiting.length < 32) :
    (p.demote k).record k = some (r.demoted p.now) := by
  unfold Part.demote
  rw [hr]
  dsimp only
  rw [if_pos (show p.pool.waiting.length < Config.waitingPlaces from room)]
  split <;> simp [Part.derive_record, Part.record_put]

theorem Part.demote_full (hr : p.record k = some r) (full : 32 ≤ p.pool.waiting.length) :
    p.demote k = p.closeRecord k .displaced .relocation := by
  unfold Part.demote
  rw [hr]
  exact if_neg (Nat.not_lt.2 full)

/-- The engine's call for a record that leaves bay `a` (R113). -/
def Record.relocation (r : Record) (k : SlotId) (a : BayId) (now : Nat) : Call :=
  r.call (max r.windowStart now) r.windowEnd (some a) (some k)

/-- Relocation of a record before engagement: closed by its window end, moved, or demoted (R113, R114, log 23). -/
theorem Part.relocate_upcoming (hr : p.record k = some r) (up : r.state.upcoming = true) (bay : r.bay = some a) :
    p.relocate k =
      if p.reached r.windowEnd 0 then p.closeRecord k .noShow .timer
      else match p.place (r.relocation k a p.now) with
        | some c => ((((p.put k (r.relocated c p.now)).derive a).derive c).armChecks k).retryDue
        | none => p.demote k := by
  unfold Part.relocate
  rw [hr]
  dsimp only
  rw [bay]
  dsimp only
  rw [up]
  rfl

theorem Part.reached_now {m : Nat} : p.reached m 0 = true ↔ p.clock.set = true ∧ m ≤ p.now := by
  simp [Part.reached]

theorem Part.relocate_ended (hr : p.record k = some r) (up : r.state.upcoming = true) (bay : r.bay = some a)
    (set' : p.clock.set = true) (ended : r.windowEnd ≤ p.now) :
    p.relocate k = p.closeRecord k .noShow .timer := by
  rw [Part.relocate_upcoming hr up bay]
  exact if_pos (Part.reached_now.2 ⟨set', ended⟩)

theorem Part.relocate_ahead (hr : p.record k = some r) (up : r.state.upcoming = true) (bay : r.bay = some a)
    (ahead : p.clock.set = false ∨ p.now < r.windowEnd) :
    p.relocate k =
      match p.place (r.relocation k a p.now) with
      | some c => ((((p.put k (r.relocated c p.now)).derive a).derive c).armChecks k).retryDue
      | none => p.demote k := by
  rw [Part.relocate_upcoming hr up bay]
  refine if_neg fun h => ?_
  obtain ⟨set', ended⟩ := Part.reached_now.1 h
  rcases ahead with unset | later
  · simp [set'] at unset
  · omega

/-- The record on the bay that the engine returned, up to the marks of its checks (R113). -/
theorem Part.relocate_record (hr : p.record k = some r) (up : r.state.upcoming = true) (bay : r.bay = some a)
    (ahead : p.clock.set = false ∨ p.now < r.windowEnd) (found : p.place (r.relocation k a p.now) = some c) :
    ∃ q : Part, (p.relocate k).record k = some (q.checked (r.relocated c p.now)) := by
  rw [Part.relocate_ahead hr up bay ahead, found]
  dsimp only
  rw [Part.retryDue_record]
  exact ⟨_, Part.armChecks_record (by simp [Part.derive_record, Part.record_put])⟩

/-- A relocated record has closed, or names another bay or none (R113, R114). -/
theorem Part.relocate_leaves (hr : p.record k = some r) (up : r.state.upcoming = true) (bay : r.bay = some a) :
    (p.relocate k).Away a k := by
  by_cases ended : p.clock.set = true ∧ r.windowEnd ≤ p.now
  · rw [Part.relocate_ended hr up bay ended.1 ended.2]
    exact ⟨_, Part.closeRecord_record hr _ (by decide), .inl rfl⟩
  have ahead : p.clock.set = false ∨ p.now < r.windowEnd := by
    cases set' : p.clock.set
    · exact .inl rfl
    · exact .inr (Nat.lt_of_not_le fun h => ended ⟨set', h⟩)
  cases found : p.place (r.relocation k a p.now) with
  | some c =>
    obtain ⟨q, record⟩ := Part.relocate_record hr up bay ahead found
    exact ⟨_, record, .inr fun same => Part.place_excluded found same.symm⟩
  | none =>
    rw [Part.relocate_ahead hr up bay ahead, found]
    dsimp only
    by_cases room : p.pool.waiting.length < 32
    · exact ⟨_, Part.demote_record hr room, .inr fun same => nomatch same⟩
    · rw [Part.demote_full hr (Nat.not_lt.1 room)]
      exact ⟨_, Part.closeRecord_record hr _ (by decide), .inl rfl⟩

end

/-! ## O43: the lead check (R112) -/

section
variable {p : Part} {k : SlotId} {r : Record} {b : BayId}

theorem Part.leadCheck_upcoming (hr : p.record k = some r) (up : r.state.upcoming = true) (bay : r.bay = some b) :
    p.leadCheck k = if (p.bay b).condition.blocking then p.relocate k else p := by
  unfold Part.leadCheck
  rw [hr]
  dsimp only
  rw [bay]
  dsimp only
  rw [up, Bool.true_and]

/-- A lead check of no record before engagement on a blocked bay changes nothing (R112). -/
theorem Part.leadCheck_eq_self
    (h : ∀ r b, p.record k = some r → r.state.upcoming = true → r.bay = some b → (p.bay b).condition.blocking = false) :
    p.leadCheck k = p := by
  unfold Part.leadCheck
  split
  · rfl
  · next r hr =>
    split
    · rfl
    · next b bay =>
      refine if_neg fun blocked => ?_
      obtain ⟨up, blocking⟩ := Bool.and_eq_true_iff.1 blocked
      rw [h r b hr up bay] at blocking
      cases blocking

/-- LEAD_CHECK of a record whose check is due marks the check as taken, and takes it (R23, R112). -/
theorem execLeadCheck_due {s : State} (set' : s.part.clock.set = true) (hr : s.part.record k = some r)
    (up : r.state.upcoming = true) (pending : r.leadTaken = false)
    (due : r.windowStart ≤ s.part.now + s.part.settings.lead) :
    exec (.leadCheck k.val) s =
      .next (s.withPart ((s.part.put k { r with leadTaken := true }).leadCheck k)).complete := by
  have isDue : s.part.isDue (.leadCheck k) = true := Part.pendingFor_some hr set' (by simp [up, pending, due])
  have marked : s.part.modRecord k (fun r => { r with leadTaken := true }) = s.part.put k { r with leadTaken := true } := by
    rw [Part.modRecord, hr]
  rw [← marked]
  exact withSlot_timedEvent (e := Timed.leadCheck) isDue

end

/-! ## O43: the walk of a blocking event (R111) -/

section
variable {p : Part} {k s : SlotId} {r : Record} {b : BayId} {x : Blocked}

/-- The walk of a blocking event relocates the record: it stands on the bay before engagement, and starts by now plus the
lead, or the bay has been taken out of service (R111). -/
def Part.concerns (p : Part) (x : Blocked) (k : SlotId) : Bool :=
  p.recordIs (fun r => r.state.upcoming && r.bay = some x.bay &&
    (x.service || r.windowStart ≤ p.now + p.settings.lead)) k

theorem Part.walkStep_eq (p : Part) (x : Blocked) (k : SlotId) :
    p.walkStep x k = if p.concerns x k = true then p.relocate k else p := by
  unfold Part.walkStep Part.concerns Part.recordIs
  cases p.record k <;> rfl

theorem Part.walkStep_of_not (h : ¬ p.concerns x k = true) : p.walkStep x k = p := by
  rw [Part.walkStep_eq, if_neg h]

theorem Part.walkStep_record_ne (ne : k ≠ s) : (p.walkStep x s).record k = p.record k := by
  rw [Part.walkStep_eq]
  split
  · exact p.relocate_record_ne ne
  · rfl

/-- Whether the walk concerns a record does not change while it takes the others. -/
theorem Part.walkStep_concerns (ne : k ≠ s) : (p.walkStep x s).concerns x k = p.concerns x k := by
  have clock : (p.walkStep x s).now = p.now ∧ (p.walkStep x s).settings = p.settings := by
    rw [Part.walkStep_eq]
    split
    · exact ⟨(p.relocate_tidies (linked := true) s).now_eq, (p.relocate_tidies (linked := true) s).settings⟩
    · exact ⟨rfl, rfl⟩
  rw [Part.concerns, Part.concerns, clock.1, clock.2, Part.recordIs, Part.recordIs, Part.walkStep_record_ne ne]

theorem Part.Away.not_concerns (h : p.Away x.bay k) : ¬ p.concerns x k = true := by
  obtain ⟨r, hr, gone⟩ := h
  rw [Part.concerns, Part.recordIs, hr]
  rcases gone with closing | other
  · simp [closing, RecState.upcoming]
  · simp [other]

/-- A record that the walk does not meet, or does not concern, stays as it is. -/
theorem Part.walk_stays (l : List SlotId) {p : Part} (h : ¬ (k ∈ l ∧ p.concerns x k = true)) :
    (l.foldl (Part.walkStep x) p).record k = p.record k := by
  induction l generalizing p with
  | nil => rfl
  | cons s l ih =>
    by_cases here : s = k
    · subst here
      have passed : ¬ p.concerns x s = true := fun c => h ⟨List.mem_cons_self, c⟩
      rw [List.foldl_cons, Part.walkStep_of_not passed]
      exact ih fun c => passed c.2
    · have ne : k ≠ s := Ne.symm here
      refine (ih fun c => h ⟨List.mem_cons_of_mem _ c.1, ?_⟩).trans (Part.walkStep_record_ne ne)
      rw [← Part.walkStep_concerns ne]
      exact c.2

/-- A record that the walk meets and concerns leaves the bay, or is closed. -/
theorem Part.walk_leaves (l : List SlotId) {p : Part} (mem : k ∈ l) (h : p.concerns x k = true) :
    (l.foldl (Part.walkStep x) p).Away x.bay k := by
  induction l generalizing p with
  | nil => cases mem
  | cons s l ih =>
    by_cases here : s = k
    · subst here
      obtain ⟨r, hr, test⟩ := Part.recordIs_iff.1 h
      simp only [Bool.and_eq_true, decide_eq_true_eq] at test
      obtain ⟨⟨up, bay⟩, _⟩ := test
      have away := Part.relocate_leaves hr up bay
      rw [List.foldl_cons, Part.walkStep_eq, if_pos h]
      have stays := Part.walk_stays (x := x) (k := s) l (fun c => away.not_concerns c.2)
      obtain ⟨r', record, gone⟩ := away
      exact ⟨r', stays.trans record, gone⟩
    · have ne : k ≠ s := Ne.symm here
      refine ih ((List.mem_cons.1 mem).resolve_left ne) ?_
      rw [Part.walkStep_concerns ne]
      exact h

end

/-! ## O43: the retry and the idle conditions (R89 to R92, R161) -/

section
variable {p : Part} {k j : SlotId} {r : Record} {b : BayId} {q : PostId}

/-- The engine's call for a record of the Waiting List (R91). -/
def Record.trial (r : Record) (now : Nat) : Call :=
  r.call (max r.windowStart now) (max r.windowStart now + r.duration) none none

theorem Part.tryWaiting_other (hr : p.record k = some r) (h : r.state ≠ .waiting) : p.tryWaiting k = p := by
  rw [Part.tryWaiting, hr]
  exact if_pos h

theorem Part.tryWaiting_waiting (hr : p.record k = some r) (h : r.state = .waiting) :
    p.tryWaiting k =
      match p.place (r.trial p.now) with
      | some b => ((p.put k (r.placed b (max r.windowStart p.now) p.now)).derive b).armChecks k
      | none => p := by
  rw [Part.tryWaiting, hr]
  exact if_neg (not_not_intro h)

theorem Part.tryWaiting_record (hr : p.record k = some r) (h : r.state = .waiting)
    (found : p.place (r.trial p.now) = some b) :
    (p.tryWaiting k).record k = some (p.checked (r.placed b (max r.windowStart p.now) p.now)) := by
  rw [Part.tryWaiting_waiting hr h, found]
  dsimp only
  have stored := p.put_tidies (linked := true) k (r.placed b (max r.windowStart p.now) p.now) hr (by rw [h]; decide)
    (by rw [h]; decide)
  have derived := stored.trans (Part.derive_tidies _ b)
  rw [Part.armChecks_record (r := r.placed b (max r.windowStart p.now) p.now)
    (by rw [Part.derive_record, Part.record_put, if_pos rfl])]
  simp only [Part.checked, Part.reached, derived.clock, derived.now_eq, derived.settings]

theorem Part.tryWaiting_record_ne (ne : j ≠ k) : (p.tryWaiting k).record j = p.record j := by
  unfold Part.tryWaiting
  split
  · rfl
  · split
    · rfl
    · dsimp only
      split
      · rw [Part.armChecks_record_ne _ ne, Part.derive_record, Part.record_put, if_neg ne]
      · rfl

theorem Part.evalIdle_inactive (h : (p.post q).link ≠ .active) : p.evalIdle q = p := if_neg h

theorem Part.evalIdle_running {due : Nat} (active : (p.post q).link = .active) (timer : (p.post q).timer = .idle due) :
    p.evalIdle q = if p.idleHolds q = true then p else p.setPost q { p.post q with timer := .stopped } := by
  rw [Part.evalIdle, if_pos active, timer]
  rfl

theorem Part.evalIdle_stopped (active : (p.post q).link = .active) (timer : ∀ due, (p.post q).timer ≠ .idle due) :
    p.evalIdle q =
      if p.idleHolds q = true ∧ p.clock.set = true then
        p.setPost q { p.post q with timer := .idle (p.now + p.settings.idleTime) }
      else p := by
  rw [Part.evalIdle, if_pos active]
  simp only [Bool.and_eq_true]
  cases h : (p.post q).timer with
  | idle due => exact absurd h (timer due)
  | stopped | prepare | wake => rfl

end

/-- Settles O43: the outcomes of a lead check, a relocation, a walk, a retry and an idle condition, each by the lemma that
says what the operation leaves; the order of a completion is that of `Part.finish`. -/
theorem leadCheckRelocatesOffABlockedBay : Obligations.LeadCheckRelocatesOffABlockedBay := by
  unfold Obligations.LeadCheckRelocatesOffABlockedBay
  refine ⟨?command, ?relocation, ?walk, ?retry, fun p => rfl, ?check, ?idle⟩
  case command =>
    intro s k r b set' hr up pending due bay
    have taken := execLeadCheck_due set' hr up pending due
    have same : (s.part.put k { r with leadTaken := true }).bay b = s.part.bay b := by
      rw [Part.bay, Part.put_bays, Part.bay]
    rw [Part.leadCheck_upcoming (r := { r with leadTaken := true }) (Part.record_put_self _ _ _) up bay, same] at taken
    refine ⟨fun out dark intruded overstay => ?_, fun blocked => ?_⟩
    · rwa [if_neg] at taken
      rw [Condition.blocking_iff]
      tauto
    · rwa [if_pos ((Condition.blocking_iff _).2 blocked)] at taken
  case relocation =>
    intro p k r a hr up bay
    refine ⟨fun set' ended => ?_, fun ahead => ⟨fun c found => ?_, fun nowhere room => ?_, fun nowhere full => ?_⟩⟩
    · rw [Part.relocate_ended hr up bay set' ended]
      exact ⟨_, _, Part.closeRecord_record hr _ (by decide), rfl, rfl, rfl, rfl, bay, rfl⟩
    · obtain ⟨q, record⟩ := Part.relocate_record hr up bay ahead found
      refine ⟨_, record, ?_⟩
      simp only [Part.checked, Record.relocated, Record.flag, Bool.and_eq_true, decide_eq_true_eq]
    · refine ⟨remainingLength (max r.windowStart p.now) r.windowEnd, one_le_remainingLength _ _,
        fun minutes => if_pos minutes, fun noMinute => remainingLength_le (by omega), ?_⟩
      rw [Part.relocate_ahead hr up bay ahead, show p.place (r.relocation k a p.now) = none from nowhere]
      exact Part.demote_record hr room
    · rw [Part.relocate_ahead hr up bay ahead, show p.place (r.relocation k a p.now) = none from nowhere]
      dsimp only
      rw [Part.demote_full hr full]
      exact ⟨_, _, Part.closeRecord_record hr _ (by decide), rfl, rfl, rfl, rfl, bay, rfl, rfl⟩
  case walk =>
    intro p b service
    refine ⟨?_, fun k r hr => ⟨fun ⟨mem, meets⟩ => Part.walk_leaves (x := ⟨b, service⟩) _ mem meets, fun h => ?_⟩⟩
    · rw [Part.walkBlocked_eq]
      congr 1
      funext q k
      exact q.walkStep_eq ⟨b, service⟩ k
    · exact (Part.walk_stays (x := ⟨b, service⟩) _ h).trans hr
  case retry =>
    intro p
    refine ⟨rfl, fun idle => ?_, fun due => if_pos due, fun k r hr => ⟨Part.tryWaiting_other hr, fun waits nowhere => ?_,
      fun b waits found => ⟨Part.tryWaiting_record hr waits found, fun j ne => Part.tryWaiting_record_ne ne⟩⟩⟩
    · rw [Part.takeRetry, idle]
      rfl
    · rw [Part.tryWaiting_waiting hr waits, show p.place (r.trial p.now) = none from nowhere]
  case check =>
    intro p k
    refine ⟨fun ⟨r, b, hr, up, bay, blocked⟩ => ?_, fun h => Part.leadCheck_eq_self fun r b hr up bay => ?_⟩
    · rw [Part.leadCheck_upcoming hr up bay, if_pos ((Condition.blocking_iff _).2 blocked)]
    · exact Bool.eq_false_iff.2 fun blocking => h ⟨r, b, hr, up, bay, (Condition.blocking_iff _).1 blocking⟩
  case idle =>
    intro p q
    refine ⟨Part.evalIdle_inactive, fun due active timer => ?_, fun active timer => ?_⟩
    · have outcome := Part.evalIdle_running active timer
      exact ⟨fun holds => outcome.trans (if_pos holds), fun ceased => outcome.trans (if_neg (by simp [ceased]))⟩
    · have outcome := Part.evalIdle_stopped active timer
      exact ⟨fun starts => outcome.trans (if_pos starts), fun h => outcome.trans (if_neg h)⟩

end Sys2Proof.Machine

namespace Sys2Proof.Machine

/-! ## O31, O32: a record that the completion of an event leaves where it stands -/

section
variable {p : Part} {k : SlotId} {r : Record}

/-- Lead checks that find nothing to do leave the rest of a completion as it is (R112). -/
theorem Part.finish_withoutLeads (blocked : p.work.blocked = [])
    (calm : ∀ s ∈ p.work.leads, p.withoutLeads.leadCheck s = p.withoutLeads) : p.finish = p.withoutLeads.finish := by
  have walked : p.takeBlocked.takeLeads = p.work.leads.foldl Part.leadCheck p.withoutLeads := by
    obtain ⟨time, clock, settings, bays, feeders, trips, posts, pool, lanes, rules, link, outstanding,
      ⟨blocked, leads, idle, retry, next⟩, choices⟩ := p
    cases blocked
    rfl
  have walked' : p.withoutLeads.takeBlocked.takeLeads = p.withoutLeads := by
    obtain ⟨time, clock, settings, bays, feeders, trips, posts, pool, lanes, rules, link, outstanding,
      ⟨blocked, leads, idle, retry, next⟩, choices⟩ := p
    cases blocked
    rfl
  unfold Part.finish
  rw [walked, walked', foldl_of_fixed _ calm]

/-- The event has no walk of a blocking event to complete, and its lead checks find no blocked bay: the record stays as it
is, though a retry may be due. -/
structure Part.Stands (p : Part) (k : SlotId) (r : Record) : Prop where
  record : p.record k = some r
  state : r.state ≠ .waiting
  blocked : p.work.blocked = []
  calm : ∀ s ∈ p.work.leads, ∀ x b, p.record s = some x → x.bay = some b → (p.bay b).condition.blocking = false

theorem Part.Stands.finish (h : p.Stands k r) : p.finish.record k = some r := by
  rw [Part.finish_withoutLeads h.blocked fun s hs =>
    Part.leadCheck_eq_self fun x b hx _ bay => h.calm s hs x b hx bay]
  exact Part.finish_record_of_retry (p := p.withoutLeads) h.blocked rfl h.record h.state

theorem Part.Stands.advanceTallies (h : p.Stands k r) (l : List RuleId) : (p.advanceTallies l).Stands k r := by
  have record (j : SlotId) : (p.advanceTallies l).record j = p.record j := by
    rw [Part.record, Part.advanceTallies_pool, Part.record]
  refine ⟨(record k).trans h.record, h.state, ?_, fun s hs x b hx bay => ?_⟩
  · rw [Part.advanceTallies_work]
    exact h.blocked
  · rw [Part.advanceTallies_work] at hs
    rw [Part.bay, Part.advanceTallies_bays]
    exact h.calm s hs x b ((record s).symm.trans hx) bay

end

/-! ## O31, O32: a bay that is open to an arrival, and its condition (R7, R104) -/

/-- The bay is configured and in service, and its post is serviceable: its condition is neither OUT nor DARK (R7). -/
structure Part.Usable (p : Part) (b : BayId) : Prop where
  configured : (p.bay b).configured = true
  inService : (p.bay b).service = .inService
  serviceable : p.serviceable b = true

section
variable {p q : Part} {b : BayId} {k : SlotId}

theorem Part.usable_of_condition (out : p.conditionOf b ≠ .out) (dark : p.conditionOf b ≠ .dark) : p.Usable b := by
  have configured : (p.bay b).configured = true := by
    by_contra h
    exact out (Part.conditionOf_out (.inl (by simpa using h)))
  have inService : (p.bay b).service = .inService := by
    cases h : (p.bay b).service with
    | inService => rfl
    | out => exact absurd (Part.conditionOf_out (.inr h)) out
  refine ⟨configured, inService, ?_⟩
  by_contra h
  exact dark (Part.conditionOf_dark configured inService (by simpa using h))

theorem Part.Usable.occupancyOf (h : p.Usable b) : p.occupancyOf b = (p.bay b).occupancy := if_pos h.serviceable

/-- Without an occupant and without a vehicle a bay is RESERVED or FREE (R7). -/
theorem Part.Usable.vacant (h : p.Usable b) (empty : p.occupant b = none) (vacant : p.occupancyOf b ≠ .occupied) :
    (p.conditionOf b).blocking = false := by
  rw [Part.conditionOf_unoccupied h.configured h.inService h.serviceable empty, if_neg (h.occupancyOf ▸ vacant)]
  split <;> rfl

/-- With an ENGAGED record whose session is not in OVERSTAY a bay is IN-USE (R7). -/
theorem Part.Usable.inUse (h : p.Usable b) (occupant : p.occupant b = some k) {x : Session}
    (session : p.session k = some x) (phase : x.phase.isOverstay = false) : p.conditionOf b = .inUse := by
  rw [Part.conditionOf_occupied h.configured h.inService h.serviceable occupant, session]
  simp [phase]

theorem Part.Usable.of_eq (h : p.Usable b) (bay : q.bay b = p.bay b) (serviceable : q.serviceable b = p.serviceable b) :
    q.Usable b :=
  ⟨bay ▸ h.configured, bay ▸ h.inService, serviceable.trans h.serviceable⟩

/-- The condition of a bay reads nothing that its derivation writes. -/
theorem Part.conditionOf_derive (p : Part) (b j : BayId) : (p.derive b).conditionOf j = p.conditionOf j := by
  have sights := p.deriveWith_sights true b
  have pool := Part.deriveWith_pool true p b
  refine Part.conditionOf_congr (sights j).1 ?_ (congrArg (fun u : Pool => u.chains.get j) pool)
    (fun s _ => congrArg (fun u : Pool => (u.record s).map Record.look) pool)
  unfold Part.serviceable
  rw [Part.derive, (sights j).2.1, (p.deriveWith_tidies (linked := true) true b).serviceable]

theorem Part.derive_condition (p : Part) (b : BayId) : ((p.derive b).bay b).condition = p.conditionOf b :=
  (p.deriveWith_sights true b b).2.2.trans (if_pos rfl)

theorem Part.derive_derive (p : Part) (b : BayId) : (p.derive b).derive b = p.derive b :=
  Part.derive_of_eq ((p.conditionOf_derive b b).trans (p.derive_condition b).symm)

theorem Part.wakeBay_bays (p : Part) (b : BayId) : (p.wakeBay b).bays = p.bays := by
  unfold Part.wakeBay Part.wakePost
  split <;> rfl

theorem Part.put_bay (p : Part) (k : SlotId) (r : Record) (b : BayId) : (p.put k r).bay b = p.bay b := by
  rw [Part.bay, Part.put_bays, Part.bay]

theorem Part.put_serviceable (p : Part) (k : SlotId) (r : Record) (b : BayId) :
    (p.put k r).serviceable b = p.serviceable b := by
  rw [Part.serviceable, Part.put_bay, Part.post, Part.put_posts, Part.serviceable, Part.post]

theorem Part.Tidies.usable {linked : Bool} (h : Part.Tidies linked p q) (use : p.Usable b) : q.Usable b := by
  have bay := h.bay_eq b
  refine ⟨bay ▸ use.configured, bay ▸ use.inService, ?_⟩
  rw [Part.serviceable, congrArg Bay.post bay, h.serviceable]
  exact use.serviceable

theorem Part.Tidies.occupancyOf {linked : Bool} (h : Part.Tidies linked p q) (b : BayId) :
    q.occupancyOf b = p.occupancyOf b := by
  have bay := h.bay_eq b
  rw [Part.occupancyOf, Part.serviceable, congrArg Bay.post bay, h.serviceable, congrArg Bay.occupancy bay]
  rfl

theorem Part.Tidies.plugOf {linked : Bool} (h : Part.Tidies linked p q) (b : BayId) : q.plugOf b = p.plugOf b := by
  have bay := h.bay_eq b
  rw [Part.plugOf, Part.serviceable, congrArg Bay.post bay, h.serviceable, congrArg Bay.plug bay]
  rfl

end

/-! ## O31, O32: what an arrival stores (R101, R104, R106) -/

/-- The record that waits on its bay for its vehicle. -/
def Record.arrived (r : Record) (cause : LastCause) : Record := { r.flag cause with state := .arriving }

/-- The record that is engaged with session `x`. -/
def Record.engagedBy (r : Record) (cause : LastCause) (x : Session) : Record :=
  { r.flag cause with state := .engaged, session := some x }

/-- A record before engagement stands on the chain of a usable bay, in an event that has no walk and no lead check to
complete. -/
structure Part.Arriving (p : Part) (k : SlotId) (r : Record) (b : BayId) : Prop where
  record : p.record k = some r
  upcoming : r.state.upcoming = true
  bay : r.bay = some b
  mem : k ∈ p.chain b
  usable : p.Usable b
  blocked : p.work.blocked = []
  leads : p.work.leads = []

section
variable {p q : Part} {k : SlotId} {r y : Record} {b : BayId} {cause : LastCause}

/-- What an arrival stores in the record's slot, in place (R36). -/
structure Part.StoresIn (p : Part) (k : SlotId) (b : BayId) (y : Record) (q : Part) : Prop where
  record : q.record k = some y
  others (j : SlotId) : j ≠ k → q.record j = p.record j
  chain : q.chain b = p.chain b
  bays : q.bays = p.bays
  serviceable : q.serviceable b = p.serviceable b

theorem Part.StoresIn.bay (h : p.StoresIn k b y q) (j : BayId) : q.bay j = p.bay j := by
  rw [Part.bay, h.bays, Part.bay]

theorem Part.put_storesIn (hr : p.record k = some r) (home : r.home = y.home) : p.StoresIn k b y (p.put k y) where
  record := p.record_put_self k y
  others j ne := (p.record_put k y j).trans (if_neg ne)
  chain := by
    rw [Part.chain, Part.put_pool]
    exact Pool.members_put_home p.pool k y (.chain b) ((Pool.homeOf_record hr).trans home)
  bays := p.put_bays k y
  serviceable := p.put_serviceable k y b

theorem Part.StoresIn.armChecks (h : p.StoresIn k b y q) (live : y.state ≠ .engaged) (closing : y.state ≠ .closing) :
    p.StoresIn k b (q.checked y) (q.armChecks k) where
  record := Part.armChecks_record h.record
  others j ne := (q.armChecks_record_ne ne).trans (h.others j ne)
  chain := by
    obtain ⟨lead, wake, pool⟩ := Part.armChecks_pool h.record
    rw [← h.chain, Part.chain, pool]
    exact Pool.members_put_home q.pool k _ (.chain b) ((Pool.homeOf_record h.record).trans rfl)
  bays := (q.armChecks_bays k).trans h.bays
  serviceable := by
    have armed := Part.armChecks_tidies (linked := true) q k h.record live closing
    rw [← h.serviceable, Part.serviceable, Part.bay, q.armChecks_bays, armed.serviceable]
    rfl

/-- The ENGAGED record on the chain is the same, where neither the record that is stored nor the one before it is. -/
theorem Part.StoresIn.occupant (h : p.StoresIn k b y q) (hr : p.record k = some r) (before : r.state ≠ .engaged)
    (after : y.state ≠ .engaged) : q.occupant b = p.occupant b := by
  unfold Part.occupant
  rw [h.chain]
  refine find?_congr _ fun j _ => ?_
  by_cases e : j = k
  · subst e
    simp [Part.recordIs, h.record, hr, before, after]
  · rw [Part.recordIs, h.others j e, Part.recordIs]

/-- A record engaged at the head of its chain, or on a bay without an occupant, is the occupant (R96). -/
theorem Part.StoresIn.occupies (h : p.StoresIn k b y q) (mem : k ∈ p.chain b) (engaged : y.state = .engaged)
    (first : p.occupant b = none ∨ (p.chain b).head? = some k) : q.occupant b = some k := by
  have here : q.recordIs (fun r => r.state = .engaged) k = true := by simp [Part.recordIs, h.record, engaged]
  unfold Part.occupant
  rw [h.chain]
  rcases first with empty | head
  · have found : ((p.chain b).find? (q.recordIs (fun r => r.state = .engaged))).isSome = true :=
      List.find?_isSome.2 ⟨k, mem, here⟩
    obtain ⟨j, hj⟩ := Option.isSome_iff_exists.1 found
    by_cases e : j = k
    · rw [hj, e]
    · have test := List.find?_some hj
      rw [Part.recordIs, h.others j e] at test
      exact absurd test (List.find?_eq_none.1 empty j (List.mem_of_find?_eq_some hj))
  · obtain ⟨l, chain⟩ := List.head?_eq_some_iff.1 head
    rw [chain, List.find?_cons, here]

theorem Part.Arriving.put_storesIn (h : p.Arriving k r b) (bay : y.bay = r.bay) (chained : y.state.chained = true) :
    p.StoresIn k b y (p.put k y) :=
  Part.put_storesIn h.record ((Record.home_of_bay (RecState.upcoming_chained h.upcoming) h.bay).trans
    (Record.home_of_bay chained (bay.trans h.bay)).symm)

/-- The part after a record on an unoccupied bay has been stored, its checks armed where its start or its bay is new; the
bay's condition is not derived yet. -/
def Part.awaiting (p : Part) (k : SlotId) (r : Record) (cause : LastCause) (moved : Bool) : Part :=
  if moved then (p.put k (r.arrived cause)).armChecks k else p.put k (r.arrived cause)

/-- The record as an arrival on an unoccupied bay leaves it. -/
def Part.awaited (p : Part) (r : Record) (cause : LastCause) (moved : Bool) : Record :=
  if moved then p.checked (r.arrived cause) else r.arrived cause

theorem Part.takeArrival_vacant (hr : p.record k = some r) (vacant : p.occupancyOf b ≠ .occupied) (moved : Bool) :
    p.takeArrival k b cause moved = ((p.awaiting k r cause moved).derive b).wakeBay b := by
  rw [Part.takeArrival, if_neg vacant, Part.modRecord, hr]
  rfl

theorem Part.put_checked (p : Part) (k : SlotId) (x y : Record) : (p.put k x).checked y = p.checked y := by
  simp only [Part.checked, Part.reached, Part.put_now, Part.put_clock, Part.put_settings]

theorem Part.Arriving.awaiting (h : p.Arriving k r b) (cause : LastCause) (moved : Bool) :
    p.StoresIn k b (p.awaited r cause moved) (p.awaiting k r cause moved) ∧
      (p.awaiting k r cause moved).work.errands = { p.work.errands with
        leads := if moved && p.reached r.windowStart p.settings.lead then [k] else [] } := by
  have stored := h.put_storesIn (y := r.arrived cause) rfl rfl
  have errands := p.put_errands k (r.arrived cause)
  have leads : p.work.leads = [] := h.leads
  cases moved with
  | false =>
    refine ⟨stored, errands.trans ?_⟩
    rw [Bool.false_and, if_neg (by decide), ← leads]
    rfl
  | true =>
    have armed := stored.armChecks (fun e => nomatch e) (fun e => nomatch e)
    rw [Part.put_checked] at armed
    refine ⟨armed, (Part.armChecks_errands stored.record).trans ?_⟩
    have reached : (p.put k (r.arrived cause)).reached (r.arrived cause).windowStart
        (p.put k (r.arrived cause)).settings.lead = p.reached r.windowStart p.settings.lead := by
      rw [Part.reached, Part.put_clock, Part.put_now, Part.put_settings]
      rfl
    rw [errands, Work.leads_of_errands errands, leads, reached]
    rfl

/-- A record that arrives on an unoccupied bay waits there for its vehicle (R104, R106). -/
theorem Part.Arriving.waits (h : p.Arriving k r b) (vacant : p.occupancyOf b ≠ .occupied) (cause : LastCause) (moved : Bool)
    (still : p.occupant b = none ∨ (moved = false ∧ (p.bay b).condition = p.conditionOf b)) :
    (p.takeArrival k b cause moved).Stands k (p.awaited r cause moved) := by
  obtain ⟨stored, errands⟩ := h.awaiting cause moved
  rw [Part.takeArrival_vacant h.record vacant]
  generalize hu : p.awaiting k r cause moved = u at stored errands
  obtain ⟨live, _⟩ := RecState.upcoming_live h.upcoming
  have state : (p.awaited r cause moved).state = .arriving := by
    unfold Part.awaited
    split <;> rfl
  have occupant : u.occupant b = p.occupant b :=
    stored.occupant h.record live (by rw [state]; decide)
  have usable : u.Usable b := h.usable.of_eq (stored.bay b) stored.serviceable
  have open_ (empty : p.occupant b = none) : (u.conditionOf b).blocking = false := by
    refine usable.vacant (occupant.trans empty) ?_
    rw [usable.occupancyOf, stored.bay, ← h.usable.occupancyOf]
    exact vacant
  have calm : (u.conditionOf b).blocking = true → (u.bay b).condition.blocking = true := by
    intro blocks
    cases found : p.occupant b with
    | none => rw [open_ found] at blocks; cases blocks
    | some j =>
      obtain ⟨_, current⟩ := still.resolve_left (by rw [found]; simp)
      have other : j ≠ k := by
        rintro rfl
        obtain ⟨x, hx, engaged⟩ := Part.occupant_engaged found
        cases hx.symm.trans h.record
        exact live engaged
      rw [stored.bay, current,
        ← Part.conditionOf_blocking_congr (q := u) (stored.bay b) stored.serviceable occupant fun i hi => ?_]
      · exact blocks
      · cases found.symm.trans hi
        rw [Part.session, stored.others j other, Part.session]
  have derived := Part.derive_errands calm
  refine ⟨?_, by rw [state]; decide, ?_, fun s hs x c hx bay => ?_⟩
  · rw [Part.record, Part.wakeBay_pool]
    exact (u.derive_record b k).trans stored.record
  · rw [Part.wakeBay_work]
    have blocked := congrArg Work.blocked (derived.trans errands)
    exact blocked.trans h.blocked
  · have leads := congrArg Work.leads (derived.trans errands)
    rw [Part.wakeBay_work, show (u.derive b).work.leads = _ from leads] at hs
    split at hs
    · next due =>
      obtain ⟨rfl, _⟩ := Bool.and_eq_true_iff.1 due
      rw [List.mem_singleton.1 hs, Part.record, Part.wakeBay_pool] at hx
      cases ((u.derive_record b k).trans stored.record).symm.trans hx
      cases h.bay.symm.trans bay
      rw [Part.bay, Part.wakeBay_bays]
      refine (congrArg Condition.blocking (u.derive_condition b)).trans (open_ ?_)
      exact still.resolve_right fun e => nomatch e.1
    · cases hs

/-! ## O31, O32: the engagement of a record that arrives on an occupied bay (R101, R118) -/

/-- The part after a record on an occupied bay has been engaged; the bay's condition is not derived yet. -/
def Part.engaging (p : Part) (k : SlotId) (r : Record) (b : BayId) (cause : LastCause) : Part :=
  ((p.put k (r.engagedBy cause (Session.start (p.plugOf b) (p.bay b).penalty p.now))).modBay b
    (fun x => { x with verify := .idle })).shareChanged (p.bay b).feeder

theorem Part.Arriving.takeArrival_occupied (h : p.Arriving k r b) (occupied : p.occupancyOf b = .occupied) (moved : Bool) :
    p.takeArrival k b cause moved = ((p.engaging k r b cause).derive b).wakeBay b := by
  rw [Part.takeArrival, if_pos occupied, Part.engage, h.record]
  dsimp only
  rw [h.bay]
  exact congrArg (Part.wakeBay · b) (Part.derive_derive _ b)

theorem Session.start_isOverstay (plug : Plug) (penalty now : Nat) :
    (Session.start plug penalty now).phase.isOverstay = false := by
  unfold Session.start Session.intoCharge
  split
  · split <;> rfl
  · rfl

/-- A record that arrives on an occupied bay is engaged there, and the bay's verify timer stops (R101). -/
theorem Part.Arriving.engages (h : p.Arriving k r b) (occupied : p.occupancyOf b = .occupied) (cause : LastCause)
    (moved : Bool) (first : p.occupant b = none ∨ (p.chain b).head? = some k) :
    (p.takeArrival k b cause moved).Stands k
      (r.engagedBy cause (Session.start (p.plugOf b) (p.bay b).penalty p.now)) ∧
    ((p.takeArrival k b cause moved).bay b).verify = .idle := by
  generalize hx : Session.start (p.plugOf b) (p.bay b).penalty p.now = x
  have phase : x.phase.isOverstay = false := hx ▸ Session.start_isOverstay _ _ _
  have stored := h.put_storesIn (y := r.engagedBy cause x) rfl rfl
  have occupant := stored.occupies h.mem rfl first
  rw [h.takeArrival_occupied occupied]
  generalize hu : p.engaging k r b cause = u
  have bay : u.bay b = { p.bay b with verify := .idle } := by
    rw [← hu, Part.engaging, Part.shareChanged_bay, Part.bay_modBay_same, Part.put_bay]
  have record : u.record k = some (r.engagedBy cause x) := by
    rw [← hu, ← hx]
    exact Part.record_put_self _ _ _
  have post (a : PostId) : u.post a = p.post a := by
    rw [← hu, Part.engaging, Part.shareChanged_post, Part.modBay_post, Part.post, Part.put_posts, Part.post]
  have usable : u.Usable b := by
    refine ⟨bay ▸ h.usable.configured, bay ▸ h.usable.inService, ?_⟩
    rw [Part.serviceable, bay, post]
    exact h.usable.serviceable
  have inUse : u.conditionOf b = .inUse := by
    refine usable.inUse (k := k) ?_ (x := x) ?_ phase
    · rw [← hu, Part.engaging, hx]
      exact occupant
    · rw [Part.session, record]
      rfl
  have derived : (u.derive b).work.errands = p.work.errands := by
    refine (Part.derive_errands (by rw [inUse]; exact fun e => nomatch e)).trans ?_
    rw [← hu]
    exact p.put_errands k _
  refine ⟨⟨?_, (fun e => nomatch e), ?_, fun s hs => ?_⟩, ?_⟩
  · rw [Part.record, Part.wakeBay_pool]
    exact (u.derive_record b k).trans record
  · rw [Part.wakeBay_work]
    exact (congrArg Work.blocked derived :).trans h.blocked
  · rw [Part.wakeBay_work, Work.leads_of_errands derived, h.leads] at hs
    cases hs
  · rw [Part.bay, Part.wakeBay_bays]
    have kept := congrArg Bay.verify ((u.derive_tidies (linked := true) b).bay_eq b)
    exact kept.trans (congrArg Bay.verify bay)

end

end Sys2Proof.Machine

namespace Sys2Proof.Machine

/-! ## O31, O32: storing a record on the bay of its arrival (R27, R35) -/

section
variable {p q : Part} {k : SlotId} {r y : Record} {a b j : BayId}

/-- A record that is not ENGAGED changes the occupant of no bay, whichever chain it leaves or joins. -/
theorem Part.occupant_put (before : ∀ old, p.record k = some old → old.state ≠ .engaged) (after : y.state ≠ .engaged) :
    (p.put k y).occupant j = p.occupant j := by
  have test : (p.put k y).recordIs (fun r => r.state = .engaged) = p.recordIs (fun r => r.state = .engaged) := by
    funext i
    rw [Part.recordIs, Part.record_put, Part.recordIs]
    by_cases e : i = k
    · subst e
      rw [if_pos rfl]
      cases hr : p.record i with
      | none => simp [after]
      | some old => simp [after, before old hr]
    · rw [if_neg e]
  have idle : p.recordIs (fun r => r.state = .engaged) k = false := by
    rw [← test, Part.recordIs, p.record_put_self k y]
    simp [after]
  unfold Part.occupant
  rw [test]
  generalize p.recordIs (fun r => r.state = .engaged) = f at idle
  show (((p.put k y).pool).members (.chain j)).find? f = (p.pool.members (.chain j)).find? f
  rw [Part.put_pool]
  by_cases e : p.pool.homeOf k = y.home
  · rw [Pool.members_put_home p.pool k y _ e]
  · obtain ⟨u, put, _, members⟩ := p.pool.put_leaves k y e
    have left : (u.members (.chain j)).find? f = (p.pool.members (.chain j)).find? f := by
      rw [members, List.find?_filter]
      refine find?_congr _ fun i _ => ?_
      by_cases same : i = k
      · simp [same, idle]
      · simp [same]
    rw [put]
    unfold Pool.join
    rw [Pool.members_setMembers]
    generalize y.home = home
    split
    · next same =>
      subst same
      exact (find?_insertBefore idle _).trans left
    · exact left

/-- Whether the condition of a bay blocks does not depend on records before engagement that leave or join its chain. -/
theorem Part.conditionOf_put_blocking (hr : p.record k = some r) (before : r.state ≠ .engaged)
    (after : y.state ≠ .engaged) : ((p.put k y).conditionOf j).blocking = (p.conditionOf j).blocking := by
  refine Part.conditionOf_blocking_congr (p.put_bay k y j) (p.put_serviceable k y j)
    (Part.occupant_put (fun _ h => Option.some.inj (hr.symm.trans h) ▸ before) after) fun i occupant => ?_
  have other : i ≠ k := by
    rintro rfl
    obtain ⟨x, hx, engaged⟩ := Part.occupant_engaged occupant
    cases hr.symm.trans hx
    exact before engaged
  rw [Part.session, Part.record_put, if_neg other, Part.session]

/-- A bay whose chain holds no ENGAGED record has no occupant. -/
theorem Part.occupant_eq_none (h : ∀ k r, k ∈ p.chain b → p.record k = some r → r.state ≠ .engaged) :
    p.occupant b = none :=
  List.find?_eq_none.2 fun k mem test => by
    obtain ⟨r, hr, engaged⟩ := Part.recordIs_iff.1 test
    exact h k r mem hr (of_decide_eq_true engaged)

/-- A new start and a new bay of a record before engagement change the occupant of no bay. -/
theorem Part.occupant_put_startingAt {n : Nat} (hr : p.record k = some r) (up : r.state.upcoming = true) :
    (p.put k (r.startingAt b n)).occupant j = p.occupant j :=
  Part.occupant_put (fun _ h => Option.some.inj (hr.symm.trans h) ▸ (RecState.upcoming_live up).1)
    (RecState.upcoming_live up).1

/-- A new start and a new bay of a record before engagement leave a bay that blocks as it is. -/
theorem Part.put_startingAt_calm {n : Nat} (hr : p.record k = some r) (up : r.state.upcoming = true)
    (current : (p.bay a).condition = p.conditionOf a) (blocks : ((p.put k (r.startingAt b n)).conditionOf a).blocking = true) :
    ((p.put k (r.startingAt b n)).bay a).condition.blocking = true := by
  rw [Part.put_bay, current]
  rwa [Part.conditionOf_put_blocking (y := r.startingAt b n) hr (RecState.upcoming_live up).1
    (RecState.upcoming_live up).1] at blocks

/-- In a settled machine a record on a usable bay may arrive there. -/
theorem Part.arriving_of_settled (parts : p.pool.partitioned) (settled : p.work = .empty) (usable : p.Usable b)
    (hr : p.record k = some r) (upcoming : r.state.upcoming = true) (bay : r.bay = some b) : p.Arriving k r b where
  record := hr
  upcoming := upcoming
  bay := bay
  mem := (Pool.mem_chain parts).2
    ((Pool.homeOf_record hr).trans (Record.home_of_bay (RecState.upcoming_chained upcoming) bay))
  usable := usable
  blocked := congrArg Work.blocked settled
  leads := congrArg Work.leads settled

/-- A record stored on a usable bay may arrive there. -/
theorem Part.arriving_put (parts : p.pool.partitioned) (settled : p.work = .empty) (usable : p.Usable b)
    (upcoming : y.state.upcoming = true) (bay : y.bay = some b) : (p.put k y).Arriving k y b where
  record := p.record_put_self k y
  upcoming := upcoming
  bay := bay
  mem := by
    rw [Part.chain, Part.put_pool]
    exact (Pool.mem_chain (Pool.partitioned_put parts k y)).2 ((Pool.homeOf_record (Pool.record_put_self _ _ _)).trans
      (Record.home_of_bay (RecState.upcoming_chained upcoming) bay))
  usable := usable.of_eq (p.put_bay k y b) (p.put_serviceable k y b)
  blocked := (congrArg Work.blocked (p.put_errands k y) :).trans (congrArg Work.blocked settled)
  leads := (Work.leads_of_errands (p.put_errands k y)).trans (congrArg Work.leads settled)

theorem Part.Arriving.generation {cause : LastCause} {moved : Bool} (h : p.Arriving k r b) :
    ((p.takeArrival k b cause moved).pool.slot k).generation = (p.pool.slot k).generation :=
  (p.takeArrival_moves (timed := false) k b cause moved fun x hx => by
    cases h.record.symm.trans hx
    exact h.upcoming).generation k

/-- The bay that the record has left derives its condition, and a retry becomes due (R8, R89). -/
theorem Part.Arriving.derive_retryDue (h : p.Arriving k r b)
    (calm : (p.conditionOf a).blocking = true → (p.bay a).condition.blocking = true) :
    (p.derive a).retryDue.Arriving k r b where
  record := (p.derive_record a k).trans h.record
  upcoming := h.upcoming
  bay := h.bay
  mem := by
    rw [Part.retryDue_chain, Part.chain, Part.derive, Part.deriveWith_pool]
    exact h.mem
  usable := Part.Tidies.usable (linked := true) (.trans (p.derive_tidies a) (Part.retryDue_tidies _)) h.usable
  blocked := (congrArg Work.blocked (Part.derive_errands calm) :).trans h.blocked
  leads := (Work.leads_of_errands (Part.derive_errands calm)).trans h.leads

end

/-! ## O31: the replies and the outcomes of ARRIVE (R103 to R106) -/

section
variable {p : Part} {k : SlotId} {r : Record} {a b : BayId} {handle n : Nat}

theorem Part.arriveReply_eq (hr : p.record k = some r) (bay : r.bay = some b) :
    p.arriveReply k = u16 ((p.pool.slot k).generation * 256 + k.val) ++ u8 r.state.code ++ u8 b.val ++
      u32 r.windowStart ++ u32 r.windowEnd ++ opt u32 (if r.state = .arriving then some r.graceEnd else none) := by
  rw [Part.arriveReply, hr]
  dsimp only
  rw [bay]
  rfl

theorem Part.arriveRequest_range (h : 63 < n) : p.arriveRequest (handle, n) = (⟨.range, []⟩, p) := by
  simp only [Part.arriveRequest, fin?_of_le (show 64 ≤ n from h), Status.alone]

theorem Part.arriveRequest_noClock (h : n ≤ 63) (unset : p.clock.set = false) :
    p.arriveRequest (handle, n) = (⟨.noClock, []⟩, p) := by
  have bay : fin? 64 n = some ⟨n, Nat.lt_succ_of_le h⟩ := fin?_val (⟨n, Nat.lt_succ_of_le h⟩ : Fin 64)
  simp only [Part.arriveRequest, bay, unset, Bool.not_false, if_true, Status.alone]

theorem Part.arriveRequest_unknown (h : n ≤ 63) (set' : p.clock.set = true) (unknown : p.findLive handle = none) :
    p.arriveRequest (handle, n) = (⟨.unknownReservation, []⟩, p) := by
  have bay : fin? 64 n = some ⟨n, Nat.lt_succ_of_le h⟩ := fin?_val (⟨n, Nat.lt_succ_of_le h⟩ : Fin 64)
  simp [Part.arriveRequest, bay, set', unknown, Status.alone]

theorem Part.arriveRequest_wrongState (set' : p.clock.set = true) (found : p.findLive handle = some (k, r))
    (state : r.state.upcoming = false) : p.arriveRequest (handle, b.val) = (⟨.wrongState, []⟩, p) := by
  simp [Part.arriveRequest, set', found, state, Status.alone]

/-- ARRIVE of a record before engagement: too early, on its own bay, or on another (R103). -/
theorem Part.arriveRequest_upcoming (set' : p.clock.set = true) (found : p.findLive handle = some (k, r))
    (up : r.state.upcoming = true) (bay : r.bay = some a) :
    p.arriveRequest (handle, b.val) =
      if r.state = .booked ∧ p.now + p.settings.earlyAllowance < r.windowStart then (⟨.tooEarly, []⟩, p)
      else if a = b then p.arriveOwn k r b else p.arriveOther k r a b := by
  simp [Part.arriveRequest, set', found, up, bay, Status.alone]

/-- The bay lets the record at the head of its chain arrive (R104). -/
def Part.OpensTo (p : Part) (k : SlotId) (b : BayId) : Prop :=
  (p.chain b).head? = some k ∧ (p.bay b).condition ≠ .out ∧ (p.bay b).condition ≠ .dark

theorem Part.opensTo_iff :
    p.OpensTo k b ↔ ¬ (p.closedToArrival b || decide ((p.chain b).head? ≠ some k)) = true := by
  simp only [Part.OpensTo, Part.closedToArrival, Bool.or_eq_true, decide_eq_true_eq, Condition.unusable_iff]
  tauto

theorem Part.arriveOwn_busy (h : ¬ p.OpensTo k b) : p.arriveOwn k r b = (⟨.bayBusy, []⟩, p) :=
  if_pos (not_not.1 (mt Part.opensTo_iff.2 h))

/-- ARRIVE on the record's own bay, where it heads an open bay's chain (R104). -/
theorem Part.arriveOwn_open (h : p.OpensTo k b) :
    p.arriveOwn k r b =
      if r.state = .arriving then (⟨.ok, p.arriveReply k⟩, p)
      else if r.state = .booked ∧ r.arrivalStart p.now < r.windowStart then
        if p.carries (p.bay b).feeder (some k) (r.arrivalStart p.now) r.windowStart = true then
          let done := (p.put k (r.startingAt b (r.arrivalStart p.now))).takeArrival k b .arrive true
          (⟨.ok, done.arriveReply k⟩, done)
        else (⟨.noRoom, []⟩, p)
      else
        let done := p.takeArrival k b .arrive false
        (⟨.ok, done.arriveReply k⟩, done) := by
  unfold Part.arriveOwn
  dsimp only
  rw [if_neg (Part.opensTo_iff.1 h)]
  simp [Answer.ok, Status.alone]

theorem Part.takenBy_iff :
    p.takenBy b = true ↔ ∃ j y, j ∈ p.chain b ∧ p.record j = some y ∧
      (y.state = .engaged ∨ y.state = .held ∨ y.state = .arriving) := by
  simp only [Part.takenBy, List.any_eq_true, Part.recordIs_iff, Bool.or_eq_true, decide_eq_true_eq]
  grind

/-- The tests of ARRIVE naming another bay (R105). -/
theorem Part.arrivalFits_iff :
    p.arrivalFits k r b = true ↔
      (p.bay b).configured = true ∧ r.eligible.getLsbD b.val = true ∧ (p.bay b).ctype = r.ctype ∧
      (p.bay b).condition ≠ .out ∧ (p.bay b).condition ≠ .dark ∧
      (∀ j y, j ∈ p.chain b → p.record j = some y → y.state ≠ .engaged ∧ y.state ≠ .held ∧ y.state ≠ .arriving ∧
        r.windowEnd + p.settings.guard ≤ y.windowStart) ∧
      ∀ m, max p.now (r.windowEnd - 720) ≤ m → m < r.windowEnd →
        p.carriedAt (p.bay b).feeder (some k) m < (p.feeder (p.bay b).feeder).concurrency := by
  have start : r.arrivalStart p.now = max p.now (r.windowEnd - 720) := rfl
  have taken := Part.takenBy_iff (p := p) (b := b)
  have closed := Condition.unusable_iff (p.bay b).condition
  simp only [Part.arrivalFits, Part.closedToArrival, BayMask.has, Bool.and_eq_true, Bool.not_eq_true', ← Bool.not_eq_true,
    decide_eq_true_eq, List.all_eq_true, Part.mem_others, Part.carries_iff, start, taken, closed]
  grind

/-- ARRIVE naming another bay (R105). -/
theorem Part.arriveOther_eq :
    p.arriveOther k r a b =
      if p.arrivalFits k r b = true then
        let done := ((p.put k (r.startingAt b (r.arrivalStart p.now))).derive a).retryDue.takeArrival k b .arrive true
        (⟨.ok, done.arriveReply k⟩, done)
      else (⟨.wrongBay, []⟩, p) := rfl

end

/-! ## O31: a record that ARRIVE takes -/

theorem Session.start_eq (plug : Plug) (penalty now : Nat) :
    let y := Session.start plug penalty now
    y.phase = (if plug = .plugged then (if 0 < penalty then .paused else .charge) else .plugWait) ∧
      y.pause = (if plug = .plugged ∧ 0 < penalty then .overdraw else .none) ∧
      y.engaged = now ∧ y.within = 0 ∧ y.excess = 0 ∧ y.residue = 0 ∧ y.satisfied = 0 ∧
      y.seen = ⟨false, false, false, false, false⟩ ∧ y.overstayStart = none ∧ y.settle = none ∧ y.stoppedIn = none := by
  unfold Session.start Session.intoCharge
  by_cases plugged : plug = .plugged
  · by_cases penalized : 0 < penalty <;> simp [plugged, penalized, Seen.empty]
  · simp [plugged, Seen.empty]

/-- The answer to ARRIVE of a record on bay `b`: handle, state, bay, window and, after its presence byte, the grace end. -/
def Part.arriveAnswer (p : Part) (k : SlotId) (b : BayId) (y : Record) (state : Byte) (grace : List Byte) : Answer :=
  ⟨.ok, u16 ((p.pool.slot k).generation * 256 + k.val) ++ [state] ++ u8 b.val ++ u32 y.windowStart ++ u32 y.windowEnd ++
    grace⟩

/-- ARRIVE leaves the record of slot `k` waiting on an unoccupied bay `b` as `waits`, or engages it on an occupied one as
`engages` with a fresh session (R104 to R106, R101, R30). -/
def State.Takes (s : State) (rest : List Frame) (f : Frame) (k : SlotId) (b : BayId) (waits engages : Record) : Prop :=
  (s.part.occupancyOf b ≠ .occupied →
    ∃ p, exec .arrive s = .next (s.replied rest f (s.part.arriveAnswer k b waits 4 (1 :: u32 waits.graceEnd)) p) ∧
      p.record k = some { waits with state := .arriving, notice := true, lastCause := .arrive }) ∧
  (s.part.occupancyOf b = .occupied →
    ∃ p y, exec .arrive s = .next (s.replied rest f (s.part.arriveAnswer k b engages 5 [0]) p) ∧
      p.record k = some { engages with state := .engaged, notice := true, lastCause := .arrive, session := some y } ∧
      y.phase = (if s.part.plugOf b = .plugged then (if 0 < (s.part.bay b).penalty then .paused else .charge)
        else .plugWait) ∧
      y.pause = (if s.part.plugOf b = .plugged ∧ 0 < (s.part.bay b).penalty then .overdraw else .none) ∧
      y.engaged = s.part.now ∧ y.within = 0 ∧ y.excess = 0 ∧ y.residue = 0 ∧ y.satisfied = 0 ∧
      y.seen = ⟨false, false, false, false, false⟩ ∧ y.overstayStart = none ∧ y.settle = none ∧
      y.stoppedIn = none ∧ (p.bay b).verify = .idle)

section
variable {s : State} {f : Frame} {rest : List Frame} {h1 h0 nb : Byte} {k : SlotId} {r waits : Record} {b : BayId}
  {p : Part} {moved : Bool}

theorem Rd.handleByte_all (h1 h0 nb : Byte) :
    Rd.handleByte.all [h1, h0, nb] = some (h1.toNat * 256 + h0.toNat, nb.toNat) := rfl

/-- The record arrives in the part `p`, which has stored its new start and bay where it has one. -/
theorem State.takes_of_arriving (asks : s.Asks .arrive [h1, h0, nb] f rest)
    (served : s.part.arriveRequest (h1.toNat * 256 + h0.toNat, nb.toNat) =
      (⟨.ok, (p.takeArrival k b .arrive moved).arriveReply k⟩, p.takeArrival k b .arrive moved))
    (tidies : Part.Tidies true s.part p) (arriving : p.Arriving k r b)
    (still : p.occupant b = none ∨ (moved = false ∧ (p.bay b).condition = p.conditionOf b))
    (first : p.occupant b = none ∨ (p.chain b).head? = some k)
    (leaves : p.awaited r .arrive moved = waits.arrived .arrive) : s.Takes rest f k b waits r := by
  have exec_ := State.serve_gives (mine := any) asks rfl (rd := Rd.handleByte) (Rd.handleByte_all h1 h0 nb) served
  have generation : ((p.takeArrival k b .arrive moved).pool.slot k).generation = (s.part.pool.slot k).generation :=
    arriving.generation.trans (tidies.generation k)
  refine ⟨fun vacant => ?_, fun occupied => ?_⟩
  · have stands := arriving.waits (by rwa [tidies.occupancyOf]) .arrive moved still
    rw [leaves] at stands
    have bay : (waits.arrived .arrive).bay = some b := by
      rw [← leaves, Part.awaited]
      split <;> exact arriving.bay
    refine ⟨_, ?_, stands.finish⟩
    rw [Part.arriveReply_eq stands.record bay, generation] at exec_
    exact exec_
  · obtain ⟨stands, verify⟩ := arriving.engages ((tidies.occupancyOf b).trans occupied) .arrive moved first
    rw [Part.arriveReply_eq stands.record arriving.bay, generation] at exec_
    rw [tidies.plugOf, tidies.bay_eq b, tidies.now_eq] at stands
    obtain ⟨phase, pause, engaged, within, excess, residue, satisfied, seen, overstay, settle, stopped⟩ :=
      Session.start_eq (s.part.plugOf b) (s.part.bay b).penalty s.part.now
    exact ⟨_, _, exec_, stands.finish, phase, pause, engaged, within, excess, residue, satisfied, seen, overstay, settle,
      stopped, (congrArg Bay.verify ((Part.finish_tidies _).bay_eq b) :).trans verify⟩

/-- The marks of the checks of a record that arrives with the clock SET (R23). -/
theorem Part.awaited_moved (tidies : Part.Tidies true s.part p) (set' : s.part.clock.set = true) :
    p.awaited r .arrive true = ({ r with
      leadTaken := decide (r.windowStart ≤ s.part.now + s.part.settings.lead)
      wakeTaken := decide (r.windowStart ≤ s.part.now + s.part.settings.standbyLead) } : Record).arrived .arrive := by
  simp only [Part.awaited, Part.checked, Part.reached, tidies.clock, tidies.now_eq, tidies.settings, set', Bool.true_and,
    if_true, Record.arrived, Record.flag]

end

/-- The record with its start and its bay moved, and the marks of its new checks (R23). -/
def Part.movedTo (p : Part) (r : Record) (b : BayId) : Record :=
  { r.startingAt b (r.arrivalStart p.now) with
    leadTaken := decide (r.arrivalStart p.now ≤ p.now + p.settings.lead)
    wakeTaken := decide (r.arrivalStart p.now ≤ p.now + p.settings.standbyLead) }

section
variable {s : State} {f : Frame} {rest : List Frame} {h1 h0 nb : Byte} {k : SlotId} {r : Record} {a b : BayId}

/-- The record takes an earlier start on its own bay (R104). -/
theorem State.takes_startingAt (asks : s.Asks .arrive [h1, h0, nb] f rest) (settled : s.settled)
    (parts : s.part.pool.partitioned) (set' : s.part.clock.set = true) (hr : s.part.record k = some r)
    (up : r.state.upcoming = true) (usable : s.part.Usable b) (empty : s.part.occupant b = none)
    (served : s.part.arriveRequest (h1.toNat * 256 + h0.toNat, nb.toNat) =
      let done := (s.part.put k (r.startingAt b (r.arrivalStart s.part.now))).takeArrival k b .arrive true
      (⟨.ok, done.arriveReply k⟩, done)) :
    s.Takes rest f k b (s.part.movedTo r b) (r.startingAt b (r.arrivalStart s.part.now)) := by
  obtain ⟨live, closing⟩ := RecState.upcoming_live up
  have tidies := s.part.put_tidies (linked := true) k (r.startingAt b (r.arrivalStart s.part.now)) hr live closing
  have occupant := (Part.occupant_put_startingAt (j := b) (b := b) (n := r.arrivalStart s.part.now) hr up).trans empty
  exact State.takes_of_arriving asks served tidies (Part.arriving_put parts settled usable up rfl) (.inl occupant)
    (.inl occupant) (Part.awaited_moved tidies set')

/-- The record takes another bay; the one it leaves derives its condition, and a retry becomes due (R105, R89). -/
theorem State.takes_elsewhere (asks : s.Asks .arrive [h1, h0, nb] f rest) (settled : s.settled)
    (parts : s.part.pool.partitioned) (set' : s.part.clock.set = true) (hr : s.part.record k = some r)
    (up : r.state.upcoming = true) (usable : s.part.Usable b) (empty : s.part.occupant b = none)
    (current : (s.part.bay a).condition = s.part.conditionOf a)
    (served : s.part.arriveRequest (h1.toNat * 256 + h0.toNat, nb.toNat) =
      let done := ((s.part.put k (r.startingAt b (r.arrivalStart s.part.now))).derive a).retryDue.takeArrival k b .arrive true
      (⟨.ok, done.arriveReply k⟩, done)) :
    s.Takes rest f k b (s.part.movedTo r b) (r.startingAt b (r.arrivalStart s.part.now)) := by
  obtain ⟨live, closing⟩ := RecState.upcoming_live up
  have stored := s.part.put_tidies (linked := true) k (r.startingAt b (r.arrivalStart s.part.now)) hr live closing
  have arriving := (Part.arriving_put (y := r.startingAt b (r.arrivalStart s.part.now)) parts settled usable up
    rfl).derive_retryDue (Part.put_startingAt_calm hr up current)
  have occupant := (Part.occupant_put_startingAt (j := b) (b := b) (n := r.arrivalStart s.part.now) hr up).trans empty
  generalize s.part.put k (r.startingAt b (r.arrivalStart s.part.now)) = p at served stored arriving occupant
  have tidies : Part.Tidies true s.part (p.derive a).retryDue :=
    stored.trans ((Part.derive_tidies _ a).trans (Part.retryDue_tidies _))
  have still : (p.derive a).retryDue.occupant b = none :=
    (Part.occupant_of_pool (Part.deriveWith_pool true _ a) b).trans occupant
  exact State.takes_of_arriving asks served tidies arriving (.inl still) (.inl still) (Part.awaited_moved tidies set')

end

/-- Settles O31: the refusals are the outcomes of `Part.arriveRequest`; a record that is taken arrives on the bay where it
stands, or where its new start and bay have been stored (`State.takes_of_arriving`). -/
theorem arriveOnTheOwnBayEngagesOrWaits : Obligations.ArriveOnTheOwnBayEngagesOrWaits := by
  unfold Obligations.ArriveOnTheOwnBayEngagesOrWaits
  intro s f rest h1 h0 nb settled current parts asks
  have read := Rd.handleByte_all h1 h0 nb
  have same {a : Answer} (h : s.part.arriveRequest (h1.toNat * 256 + h0.toNat, nb.toNat) = (a, s.part)) :
      exec .arrive s = .next (s.replied rest f a s.part) := State.serve_unchanged settled asks rfl read h
  dsimp only
  refine ⟨fun out => same (Part.arriveRequest_range out), fun low unset => same (Part.arriveRequest_noClock low unset),
    fun low set' unknown => same (Part.arriveRequest_unknown low set' unknown), fun k r a b hn set' found => ?_⟩
  rw [hn] at same
  obtain ⟨hr, _, _⟩ := Part.findLive_some found
  refine ⟨fun state => same (Part.arriveRequest_wrongState set' found ?_), fun up bay => ?_⟩
  · rcases state with state | state <;> rw [state] <;> rfl
  have outcome := Part.arriveRequest_upcoming (b := b) set' found up bay
  obtain ⟨live, closing⟩ := RecState.upcoming_live up
  refine ⟨fun early => same (outcome.trans (if_pos early)), fun timely own => ?own, fun timely ne => ?other⟩
  all_goals rw [if_neg timely] at outcome
  case own =>
    subst own
    rw [if_pos rfl] at outcome
    refine ⟨fun shut => same (outcome.trans (Part.arriveOwn_busy shut)), fun opens arriving => ?_, fun opens kind => ?_,
      fun opens booked later short => ?_, fun opens booked later carried empty => ?_⟩
    all_goals
      rw [Part.arriveOwn_open opens] at outcome
      have usable := Part.usable_of_condition (current a ▸ opens.2.1) (current a ▸ opens.2.2)
    · rw [if_pos arriving, Part.arriveReply_eq hr bay, arriving] at outcome
      exact same outcome
    · have waiting : r.state ≠ .arriving := by
        rcases kind with state | ⟨state, _⟩ <;> rw [state] <;> decide
      have inTime : ¬ (r.state = .booked ∧ r.arrivalStart s.part.now < r.windowStart) := by
        rintro ⟨booked, later⟩
        rcases kind with state | ⟨_, start⟩
        · cases booked.symm.trans state
        · exact absurd later (Nat.not_lt.2 start)
      rw [if_neg waiting, if_neg inTime] at outcome
      exact State.takes_of_arriving asks (hn ▸ outcome) (.refl _)
        (Part.arriving_of_settled parts settled usable hr up bay) (.inr ⟨rfl, current a⟩) (.inr opens.1) rfl
    · have crowded : ¬ s.part.carries (s.part.bay a).feeder (some k) (r.arrivalStart s.part.now) r.windowStart = true :=
        mt Part.carries_iff.1 short
      rw [if_neg (by rw [booked]; decide), if_pos ⟨booked, later⟩, if_neg crowded] at outcome
      exact same outcome
    · have room : s.part.carries (s.part.bay a).feeder (some k) (r.arrivalStart s.part.now) r.windowStart = true :=
        Part.carries_iff.2 carried
      rw [if_neg (by rw [booked]; decide), if_pos ⟨booked, later⟩, if_pos room] at outcome
      exact State.takes_startingAt asks settled parts set' hr up usable empty (hn ▸ outcome)
  case other =>
    rw [if_neg ne, Part.arriveOther_eq] at outcome
    refine ⟨fun unfit => same (outcome.trans (if_neg (mt Part.arrivalFits_iff.1 unfit))), fun suits => ?_⟩
    rw [if_pos (Part.arrivalFits_iff.2 suits)] at outcome
    obtain ⟨_, _, _, out, dark, free, _⟩ := suits
    have usable := Part.usable_of_condition (current b ▸ out) (current b ▸ dark)
    have empty : s.part.occupant b = none := Part.occupant_eq_none fun j y mem hy => (free j y mem hy).1
    exact State.takes_elsewhere asks settled parts set' hr up usable empty (current a) (hn ▸ outcome)

end Sys2Proof.Machine

namespace Sys2Proof.Machine

/-! ## O32: what ARRIVE-WALKIN reads (R109, R180) -/

theorem Rd.u16_takes (n : Nat) : ∃ m, Rd.u16.Reads (Machine.u16 n) m :=
  ⟨_, (Rd.byte_reads (BitVec.ofNat 8 (n / 256))).bind (Rd.byte_reads (BitVec.ofNat 8 n)).last⟩

/-- Four bytes are read as some number. -/
theorem Rd.u32_takes (n : Nat) : ∃ m, Rd.u32.Reads (Machine.u32 n) m := by
  have pair (a b : Byte) : Rd.u16.Reads [a, b] (a.toNat * 256 + b.toNat) := (Rd.byte_reads a).bind (Rd.byte_reads b).last
  exact ⟨_, (pair _ _).bind (pair _ _).last (f := fun a => do return a * 65536 + (← Rd.u16))⟩

theorem Rd.opt_takes {α : Type} {rd : Rd α} {enc : α → List Byte} (h : ∀ x, ∃ y, rd.Reads (enc x) y) (g : Option α) :
    ∃ g', (Rd.opt rd).Reads (Machine.opt enc g) g' := by
  cases g with
  | none => exact ⟨none, (Rd.bit_reads false).bind (Rd.Reads.nothing none)⟩
  | some x =>
    obtain ⟨y, read⟩ := h x
    exact ⟨some y, (Rd.bit_reads true).bind read.last⟩

/-- The fields of an ARRIVE-WALKIN, one behind the other (R109). -/
theorem Rd.walkin_all {q : WalkinReq} {bay asker duration quota rateCap : List Byte} (hbay : Rd.u8.Reads bay q.bay)
    (hasker : Rd.asker.Reads asker q.asker) (hduration : Rd.u16.Reads duration q.duration)
    (hquota : (Rd.opt Rd.u32).Reads quota q.quota) (hrate : (Rd.opt Rd.u16).Reads rateCap q.rateCap) :
    Rd.walkin.all (bay ++ asker ++ duration ++ quota ++ rateCap) = some q := by
  simp only [List.append_assoc]
  exact (hbay.bind (hasker.bind (hduration.bind (hquota.bind hrate.last)))).all

/-- An optional quota and an optional rate cap are read, whatever numbers they are written from. -/
theorem Rd.options_take (quota rateCap : Option Nat) :
    ∃ quota' rateCap', (Rd.opt Rd.u32).Reads (Machine.opt Machine.u32 quota) quota' ∧
      (Rd.opt Rd.u16).Reads (Machine.opt Machine.u16 rateCap) rateCap' := by
  obtain ⟨quota', hquota⟩ := Rd.opt_takes Rd.u32_takes quota
  obtain ⟨rateCap', hrate⟩ := Rd.opt_takes Rd.u16_takes rateCap
  exact ⟨quota', rateCap', hquota, hrate⟩

/-! ## O32: the refusals of ARRIVE-WALKIN (R109) -/

/-- The bay is one for the driver: configured, eligible and of the right type (R109). -/
def Part.SuitsWalkin (p : Part) (x : Asker) (m : Admission) (b : BayId) : Prop :=
  (p.bay b).configured = true ∧ m.eligible.getLsbD b.val = true ∧ (p.bay b).ctype = x.ctype

/-- The bay is closed to arrivals, or a record has a claim to it now (R109). -/
def Part.BusyBay (p : Part) (b : BayId) : Prop :=
  (p.bay b).condition = .out ∨ (p.bay b).condition = .dark ∨
    ∃ k r, k ∈ p.chain b ∧ p.record k = some r ∧ (r.state = .engaged ∨ r.state = .held ∨ r.state = .arriving)

/-- The record of an accepted walk-in (R110). -/
def WalkinReq.taken (q : WalkinReq) (p : Part) (x : Asker) (b : BayId) (m : Admission) : NewRecord where
  asker := x
  admission := m
  start := p.now
  stop := p.walkinEnd b (clampDuration q.duration)
  duration := clampDuration q.duration
  quota := clampQuota q.quota
  rateCap := clampRate q.rateCap
  deadline := none
  pinned := none
  origin := .walkIn

/-- The part after a walk-in has taken slot `k` with the new record `n` (R110). -/
def Part.walkedIn (p : Part) (k : SlotId) (n : NewRecord) (b : BayId) : Part :=
  ((p.put k (p.newRecord n .arriving (some b))).takeArrival k b .walkIn true).advanceTallies n.admission.tallies

section
variable {p : Part} {q : WalkinReq} {x : Asker} {b : BayId} {m : Admission} {k : SlotId} {l : List SlotId}

theorem Part.walkinRequest_range (h : 63 < q.bay ∨ q.asker.inRange = none) :
    p.walkinRequest q = (⟨.range, []⟩, p) := by
  unfold Part.walkinRequest
  split
  · next b x hb hx =>
    rcases h with h | h
    · rw [fin?_of_le h] at hb
      nomatch hb
    · rw [h] at hx
      nomatch hx
  · rfl

section
variable (bay : q.bay = b.val) (asker : q.asker = x.carried)
include bay asker

theorem Part.walkinRequest_noClock (unset : p.clock.set = false) : p.walkinRequest q = (⟨.noClock, []⟩, p) := by
  simp [Part.walkinRequest, bay, asker, Asker.carried_inRange, unset, Status.alone]

theorem Part.walkinRequest_quota (set' : p.clock.set = true) {rule : RuleId}
    (refused : p.evaluate ⟨x, p.now, clampDuration q.duration⟩ = .policyQuota rule) :
    p.walkinRequest q = (refusedBy .policyQuota (some rule), p) := by
  simp [Part.walkinRequest, bay, asker, Asker.carried_inRange, set', refused]

theorem Part.walkinRequest_refused (set' : p.clock.set = true) {rule : Option RuleId}
    (refused : p.evaluate ⟨x, p.now, clampDuration q.duration⟩ = .policyRefused rule) :
    p.walkinRequest q = (refusedBy .policyRefused rule, p) := by
  simp [Part.walkinRequest, bay, asker, Asker.carried_inRange, set', refused]

/-- ARRIVE-WALKIN that the policy accepts (R109). -/
theorem Part.walkinRequest_accepted (set' : p.clock.set = true)
    (accepted : p.evaluate ⟨x, p.now, clampDuration q.duration⟩ = .accepted m) :
    p.walkinRequest q = p.walkinAccepted q x b m := by
  simp [Part.walkinRequest, bay, asker, Asker.carried_inRange, set', accepted]

end

theorem Part.suitsWalkin_iff :
    p.SuitsWalkin x m b ↔
      ¬ (!(p.bay b).configured || !BayMask.has m.eligible b || decide ((p.bay b).ctype ≠ x.ctype)) = true := by
  simp only [Part.SuitsWalkin, BayMask.has, Bool.or_eq_true, Bool.not_eq_true', decide_eq_true_eq, not_or,
    Bool.not_eq_false, not_not, and_assoc]

theorem Part.busyBay_iff : p.BusyBay b ↔ (p.closedToArrival b || p.takenBy b) = true := by
  simp only [Part.BusyBay, Part.closedToArrival, Bool.or_eq_true, Condition.unusable_iff, Part.takenBy_iff, or_assoc]

theorem Part.walkinAccepted_wrongBay (h : ¬ p.SuitsWalkin x m b) : p.walkinAccepted q x b m = (⟨.wrongBay, []⟩, p) :=
  if_pos (not_not.1 (mt Part.suitsWalkin_iff.2 h))

theorem Part.walkinAccepted_busy (suits : p.SuitsWalkin x m b) (busy : p.BusyBay b) :
    p.walkinAccepted q x b m = (⟨.bayBusy, []⟩, p) :=
  (if_neg (Part.suitsWalkin_iff.1 suits)).trans (if_pos (Part.busyBay_iff.1 busy))

theorem Part.walkinAccepted_noRoom (suits : p.SuitsWalkin x m b) (open_ : ¬ p.BusyBay b)
    (short : p.walkinEnd b (clampDuration q.duration) < p.now + 15) :
    p.walkinAccepted q x b m = (⟨.noRoom, []⟩, p) :=
  (if_neg (Part.suitsWalkin_iff.1 suits)).trans ((if_neg (mt Part.busyBay_iff.2 open_)).trans (if_pos short))

/-- The walk-in has a suitable bay, free for it, for 15 minutes or more (R109, checks 5 to 7). -/
structure Part.AdmitsWalkin (p : Part) (q : WalkinReq) (x : Asker) (m : Admission) (b : BayId) : Prop where
  suits : p.SuitsWalkin x m b
  idle : ¬ p.BusyBay b
  room : p.now + 15 ≤ p.walkinEnd b (clampDuration q.duration)

/-- A walk-in that is admitted takes the first free slot, where there is one (R109, R110). -/
theorem Part.walkinAccepted_admits (h : p.AdmitsWalkin q x m b) :
    p.walkinAccepted q x b m = match p.pool.free with
      | [] => (⟨.poolFull, []⟩, p)
      | k :: _ =>
        let done := p.walkedIn k (q.taken p x b m) b
        (⟨.ok, done.walkinReply k⟩, done) := by
  unfold Part.walkinAccepted
  dsimp only
  rw [if_neg (Part.suitsWalkin_iff.1 h.suits), if_neg (mt Part.busyBay_iff.2 h.idle), if_neg (Nat.not_lt.2 h.room)]
  cases p.pool.free <;> rfl

theorem Part.walkinAccepted_full (h : p.AdmitsWalkin q x m b) (free : p.pool.free = []) :
    p.walkinAccepted q x b m = (⟨.poolFull, []⟩, p) := by
  rw [Part.walkinAccepted_admits h, free]

theorem Part.walkinAccepted_created (h : p.AdmitsWalkin q x m b) (free : p.pool.free = k :: l) :
    p.walkinAccepted q x b m =
      let done := p.walkedIn k (q.taken p x b m) b
      (⟨.ok, done.walkinReply k⟩, done) := by
  rw [Part.walkinAccepted_admits h, free]

end

/-! ## O32: the walk-in end (R110) -/

section
variable {p : Part} {b : BayId} {duration n : Nat}

/-- The start of the first record on the bay's chain, less the guard, is `n` (R110). -/
def Part.Ahead (p : Part) (b : BayId) (n : Nat) : Prop :=
  ∃ k r, (p.chain b).head? = some k ∧ p.record k = some r ∧ r.windowStart - p.settings.guard = n

/-- A chain that begins with a slot begins with its record. -/
theorem Part.head_others_iff (parts : p.pool.partitioned) :
    (p.others b none).head?.map (fun r => r.windowStart - p.settings.guard) = some n ↔ p.Ahead b n := by
  cases chain : p.chain b with
  | nil => simp [Part.others, Part.Ahead, chain]
  | cons k t =>
    obtain ⟨r, hr, _⟩ := Pool.record_of_chain parts (show k ∈ p.pool.chains.get b from
      (show p.pool.chains.get b = k :: t from chain) ▸ List.mem_cons_self)
    have record : p.record k = some r := hr
    simp [Part.others, Part.Ahead, chain, record]

theorem min?_getD {l : List Nat} (h : l ≠ []) (d : Nat) : l.min? = some (l.min?.getD d) := by
  cases least : l.min? with
  | none => exact absurd (List.min?_eq_none_iff.1 least) h
  | some v => rfl

/-- The walk-in end is the smallest of the three minutes of R110. -/
theorem Part.walkinEnd_isLeast (parts : p.pool.partitioned) :
    (p.walkinEnd b duration = p.now + duration ∨ p.Ahead b (p.walkinEnd b duration) ∨
      p.firstFull (p.bay b).feeder none p.now = some (p.walkinEnd b duration)) ∧
    p.walkinEnd b duration ≤ p.now + duration ∧ (∀ n, p.Ahead b n → p.walkinEnd b duration ≤ n) ∧
    ∀ n, p.firstFull (p.bay b).feeder none p.now = some n → p.walkinEnd b duration ≤ n := by
  have found : ([p.now + duration] ++ ((p.others b none).head?.map (fun r => r.windowStart - p.settings.guard)).toList ++
      (p.firstFull (p.bay b).feeder none p.now).toList).min? = some (p.walkinEnd b duration) :=
    min?_getD (by simp) p.now
  obtain ⟨mem, le⟩ := List.min?_eq_some_iff.1 found
  simp only [List.mem_append, List.mem_singleton, Option.mem_toList, Part.head_others_iff parts, or_assoc] at mem le
  exact ⟨mem, le _ (.inl rfl), fun n ahead => le n (.inr (.inl ahead)), fun n full => le n (.inr (.inr full))⟩

end

/-! ## O32: the record that a walk-in creates (R110) -/

section
variable {p : Part} {k : SlotId} {b : BayId} {r : Record}

theorem Part.walkinReply_eq (hr : p.record k = some r) (bay : r.bay = some b) :
    p.walkinReply k = u16 ((p.pool.slot k).generation * 256 + k.val) ++ u8 b.val ++ u8 r.state.code ++
      u32 r.windowStart ++ u32 r.windowEnd ++ u16 r.duration ++ u8 r.priority ++
      (if r.state = .arriving then 1 :: u32 r.graceEnd else [0]) := by
  rw [Part.walkinReply, hr]
  dsimp only
  rw [bay]
  split <;> rfl

/-- What an arrival leaves of the record that it finds (R110). -/
structure Record.KeepsStay (r y : Record) : Prop where
  windowStart : y.windowStart = r.windowStart
  windowEnd : y.windowEnd = r.windowEnd
  duration : y.duration = r.duration
  bay : y.bay = r.bay
  origin : y.origin = r.origin
  priority : y.priority = r.priority
  quota : y.quota = r.quota
  rateCap : y.rateCap = r.rateCap

/-- A record that arrives where there is no occupant is engaged on an occupied bay, and waits on any other (R104, R110). -/
theorem Part.Arriving.takes (h : p.Arriving k r b) (empty : p.occupant b = none) (cause : LastCause) (moved : Bool) :
    ∃ y, (p.takeArrival k b cause moved).Stands k y ∧ r.KeepsStay y ∧
      (p.occupancyOf b = .occupied → y.state = .engaged ∧ y.session.isSome = true) ∧
      (p.occupancyOf b ≠ .occupied → y.state = .arriving ∧ y.session = r.session) := by
  by_cases occupied : p.occupancyOf b = .occupied
  · exact ⟨_, (h.engages occupied cause moved (.inl empty)).1, ⟨rfl, rfl, rfl, rfl, rfl, rfl, rfl, rfl⟩,
      fun _ => ⟨rfl, rfl⟩, fun vacant => absurd occupied vacant⟩
  · refine ⟨_, h.waits occupied cause moved (.inl empty), ?_, fun o => absurd o occupied, fun _ => ?_⟩
    · cases moved <;> exact ⟨rfl, rfl, rfl, rfl, rfl, rfl, rfl, rfl⟩
    · cases moved <;> exact ⟨rfl, rfl⟩

theorem Part.put_occupancyOf (p : Part) (k : SlotId) (r : Record) (b : BayId) :
    (p.put k r).occupancyOf b = p.occupancyOf b := by
  rw [Part.occupancyOf, Part.put_serviceable, Part.put_bay, Part.occupancyOf]

/-- A bay that is not busy has no occupant and is usable. -/
theorem Part.idle_of_not_busy (current : (p.bay b).condition = p.conditionOf b) (idle : ¬ p.BusyBay b) :
    p.occupant b = none ∧ p.Usable b := by
  obtain ⟨out, rest⟩ := not_or.1 idle
  obtain ⟨dark, free⟩ := not_or.1 rest
  exact ⟨Part.occupant_eq_none fun j y mem hy engaged => free ⟨j, y, mem, hy, .inl engaged⟩,
    Part.usable_of_condition (current ▸ out) (current ▸ dark)⟩

/-- A walk-in on an idle bay takes its stay there, and its slot keeps its generation (R110). -/
theorem Part.walkedIn_stays (settled : p.work = .empty) (parts : p.pool.partitioned)
    (current : (p.bay b).condition = p.conditionOf b) (idle : ¬ p.BusyBay b) (unused : p.record k = none) (n : NewRecord) :
    ∃ y, (p.walkedIn k n b).Stands k y ∧
      ((p.walkedIn k n b).pool.slot k).generation = (p.pool.slot k).generation ∧
      (p.newRecord n .arriving (some b)).KeepsStay y ∧
      (p.occupancyOf b = .occupied → y.state = .engaged ∧ y.session.isSome = true) ∧
      (p.occupancyOf b ≠ .occupied → y.state = .arriving ∧ y.session = none) := by
  obtain ⟨empty, usable⟩ := Part.idle_of_not_busy current idle
  unfold Part.walkedIn
  have state : (p.newRecord n .arriving (some b)).state = .arriving := rfl
  have bay : (p.newRecord n .arriving (some b)).bay = some b := rfl
  have session : (p.newRecord n .arriving (some b)).session = none := rfl
  generalize p.newRecord n .arriving (some b) = r at state bay session ⊢
  have occupant : (p.put k r).occupant b = none :=
    (Part.occupant_put (fun old h => nomatch unused.symm.trans h) (by rw [state]; decide)).trans empty
  have arriving : (p.put k r).Arriving k r b := Part.arriving_put parts settled usable (by rw [state]; rfl) bay
  obtain ⟨y, stands, keeps, engaged, waits⟩ := arriving.takes occupant .walkIn true
  rw [Part.put_occupancyOf, session] at waits
  rw [Part.put_occupancyOf] at engaged
  refine ⟨y, stands.advanceTallies _, ?_, keeps, engaged, waits⟩
  rw [Part.advanceTallies_pool, arriving.generation, Part.put_pool, Pool.generation_put]

end

section
variable {s : State} {f : Frame} {rest : List Frame} {payload : List Byte} {q : WalkinReq} {a : Answer}

theorem execArriveWalkin_unchanged (settled : s.settled) (asks : s.Asks .arriveWalkin payload f rest)
    (read : Rd.walkin.all payload = some q) (h : s.part.walkinRequest q = (a, s.part)) :
    exec .arriveWalkin s = .next (s.replied rest f a s.part) :=
  State.serve_unchanged settled asks rfl read h

theorem execArriveWalkin_gives {p : Part} (asks : s.Asks .arriveWalkin payload f rest)
    (read : Rd.walkin.all payload = some q) (h : s.part.walkinRequest q = (a, p)) :
    exec .arriveWalkin s = .next (s.replied rest f a p.finish) :=
  State.serve_gives (mine := any) asks rfl read h

end

theorem clampQuota_eq (quota : Option Nat) :
    clampQuota quota = (match quota with
      | none => none
      | some n => if n = 0 then none else some (min n 200000)) := by
  cases quota <;> rfl

/-- Settles O32: the request is read back from its bytes; the refusals are the outcomes of `Part.walkinRequest`, and an
admitted walk-in creates its stay (`Part.walkedIn_stays`). -/
theorem arriveWalkinCreatesTheStay : Obligations.ArriveWalkinCreatesTheStay := by
  unfold Obligations.ArriveWalkinCreatesTheStay
  refine ⟨?ranges, ?policy, ?accepted⟩
  case ranges =>
    intro s f rest nb lane vc ct tier duration quota rateCap settled asks out
    obtain ⟨duration', hduration⟩ := Rd.u16_takes duration
    obtain ⟨quota', rateCap', hquota, hrate⟩ := Rd.options_take quota rateCap
    have read := Rd.walkin_all (q := ⟨nb.toNat, ⟨lane.toNat, vc.toNat, ct.toNat, tier.toNat⟩, duration', quota', rateCap'⟩)
      (Rd.byte_reads nb) (Rd.asker_reads lane vc ct tier) hduration hquota hrate
    exact execArriveWalkin_unchanged settled asks read
      (Part.walkinRequest_range (out.imp_right AskerReq.inRange_none))
  case policy =>
    intro s f rest x b duration quota rateCap settled asks low
    obtain ⟨quota', rateCap', hquota, hrate⟩ := Rd.options_take quota rateCap
    have read := Rd.walkin_all (q := ⟨b.val, x.carried, duration, quota', rateCap'⟩)
      (Rd.u8_reads (Nat.lt_trans b.isLt (by decide))) (Rd.askerBytes_reads x) (Rd.u16_reads low) hquota hrate
    have same {a : Answer} := execArriveWalkin_unchanged (a := a) settled asks read
    generalize hreq : WalkinReq.mk b.val x.carried duration quota' rateCap' = q at same
    have bay : q.bay = b.val := hreq ▸ rfl
    have asker : q.asker = x.carried := hreq ▸ rfl
    have granted : min (max ((duration + 4) / 5 * 5) 15) 720 = clampDuration q.duration := hreq ▸ rfl
    dsimp only
    rw [granted]
    exact ⟨fun unset => same (Part.walkinRequest_noClock bay asker unset), fun set' =>
      ⟨fun r h => same (Part.walkinRequest_quota bay asker set' h),
        fun r h => same (Part.walkinRequest_refused bay asker set' h),
        fun h => same (Part.walkinRequest_refused bay asker set' h)⟩⟩
  case accepted =>
    intro s f rest x b duration quota rateCap m settled current asks low hq hr set'
    have read := Rd.walkin_all (q := ⟨b.val, x.carried, duration, quota, rateCap⟩)
      (Rd.u8_reads (Nat.lt_trans b.isLt (by decide))) (Rd.askerBytes_reads x) (Rd.u16_reads low)
      (Rd.opt_reads fun n hn => Rd.u32_reads (hq n hn)) (Rd.opt_reads fun n hn => Rd.u16_reads (hr n hn))
    have same {a : Answer} := execArriveWalkin_unchanged (a := a) settled asks read
    have gives {a : Answer} {p : Part} := execArriveWalkin_gives (a := a) (p := p) asks read
    generalize hreq : WalkinReq.mk b.val x.carried duration quota rateCap = q at same gives
    have granted : min (max ((duration + 4) / 5 * 5) 15) 720 = clampDuration q.duration := hreq ▸ rfl
    dsimp only
    rw [granted]
    intro accepted
    have outcome := Part.walkinRequest_accepted (b := b) (hreq ▸ rfl) (hreq ▸ rfl) set' accepted
    refine ⟨fun parts => ?_, fun unfit => same (outcome.trans (Part.walkinAccepted_wrongBay unfit)),
      fun suits busy => same (outcome.trans (Part.walkinAccepted_busy suits busy)),
      fun suits idle short => same (outcome.trans (Part.walkinAccepted_noRoom suits idle short)),
      fun suits idle room free => same (outcome.trans (Part.walkinAccepted_full ⟨suits, idle, room⟩ free)),
      fun k l suits idle room free parts => ?_⟩
    · obtain ⟨least, granted, ahead, full⟩ := Part.walkinEnd_isLeast (b := b) (duration := clampDuration q.duration) parts
      refine ⟨granted, ahead, fun n after before => ?_, least.imp_right (Or.imp_right fun first => ?_)⟩
      · by_contra crowded
        obtain ⟨i, first, le⟩ := Part.firstFull_le after (Nat.not_lt.1 crowded)
        exact absurd (full i first) (by omega)
      · obtain ⟨after, crowded⟩ := Part.firstFull_some first
        exact ⟨after, Nat.not_lt.2 crowded⟩
    · obtain ⟨y, stands, generation, keeps, engaged, waits⟩ :=
        Part.walkedIn_stays settled parts (current b) idle (Part.free_record parts free) (q.taken s.part x b m)
      have served := gives (outcome.trans (Part.walkinAccepted_created ⟨suits, idle, room⟩ free))
      rw [Part.walkinReply_eq stands.record keeps.bay, generation, keeps.windowStart, keeps.windowEnd, keeps.duration,
        keeps.priority] at served
      exact ⟨_, y, stands.finish, keeps.windowStart, keeps.windowEnd, keeps.duration, keeps.bay, keeps.origin,
        keeps.priority, keeps.quota.trans (hreq ▸ clampQuota_eq quota), keeps.rateCap.trans (hreq ▸ rfl), engaged, waits,
        served⟩

end Sys2Proof.Machine

namespace Sys2Proof.Machine

/-! ## O33, O34: a session that changes reports its change (R117) -/

section
variable {p : Part} {k : SlotId} {r : Record} {x : Session} {g : Session → Session}

/-- A session change that R117 reports. -/
theorem Part.updSession_reported (hr : p.record k = some r) (hx : r.session = some x) (reports : x.reports (g x) = true) :
    (p.updSession k g).record k = some ({ r with session := some (g x) }.flag .session) := by
  rw [Part.updSession_record hr hx, if_pos reports]

theorem Session.reports_of_phase {x y : Session} (h : x.phase ≠ y.phase) : x.reports y = true := by
  simp [Session.reports, h]

end

/-! ## O33: END-SESSION (R125) -/

section
variable {p : Part} {s : State} {k : SlotId} {r : Record} {x : Session} {handle : Nat} {f : Frame} {rest : List Frame}
  {h1 h0 : Byte} {a : Answer}

theorem Part.session_eq (hr : p.record k = some r) (hx : r.session = some x) : p.session k = some x := by
  rw [Part.session, hr]
  exact hx

theorem Part.endSession_halted (hr : p.record k = some r) (hx : r.session = some x) (halted : x.phase = .halted)
    (cause : SettleCause) : p.endSession k cause = p.closeRecord k .stopped cause.closedBy := by
  simp only [Part.endSession, Part.session_eq hr hx, halted]

theorem Part.endSession_settling (hr : p.record k = some r) (hx : r.session = some x) (settling : x.phase = .settling)
    (cause : SettleCause) : p.endSession k cause = p := by
  simp only [Part.endSession, Part.session_eq hr hx, settling]

theorem Part.endSession_settles (hr : p.record k = some r) (hx : r.session = some x) (settling : x.phase ≠ .settling)
    (halted : x.phase ≠ .halted) (cause : SettleCause) : p.endSession k cause = p.settle k cause := by
  simp only [Part.endSession, Part.session_eq hr hx]
  split
  · next h => exact absurd h halted
  · next h => exact absurd h settling
  all_goals rfl

/-- The record whose session enters SETTLING from another phase (R116, R117). -/
theorem Part.settle_record (hr : p.record k = some r) (hx : r.session = some x) (settling : x.phase ≠ .settling)
    (cause : SettleCause) :
    (p.settle k cause).record k = some ({ r with session := some (x.intoSettling cause p.time) }.flag .session) :=
  Part.updSession_reported hr hx (Session.reports_of_phase settling)

/-- What the close summary takes from the session (R42). -/
theorem Record.summary_of_session (hx : r.session = some x) (handle now : Nat) (result : Result) (closedBy : ClosedBy) :
    (r.summary handle now result closedBy).engaged = some x.engaged ∧
      (r.summary handle now result closedBy).within = x.within ∧
      (r.summary handle now result closedBy).excess = x.excess ∧
      (r.summary handle now result closedBy).seen = x.seen := by
  simp only [Record.summary, hx, Option.map_some, Option.getD_some, and_self]

theorem Part.endReply_closing (hr : p.record k = some r) (closing : r.state = .closing) : p.endReply k = [6] := by
  rw [Part.endReply, hr]
  exact if_pos closing

theorem Part.endReply_engaged (hr : p.record k = some r) (engaged : r.state = .engaged) (hx : r.session = some x) :
    p.endReply k = u8 x.phase.code := by
  rw [Part.endReply, hr]
  dsimp only
  rw [if_neg (engaged ▸ nofun), hx]
  rfl

theorem Part.endSessionRequest_unknown (h : p.findLive handle = none) :
    p.endSessionRequest handle = (⟨.unknownReservation, []⟩, p) := by
  simp only [Part.endSessionRequest, h, Status.alone]

theorem Part.endSessionRequest_wrongState (h : p.findLive handle = some (k, r)) (idle : r.state ≠ .engaged) :
    p.endSessionRequest handle = (⟨.wrongState, []⟩, p) := by
  simp only [Part.endSessionRequest, h, if_neg idle, Status.alone]

theorem Part.endSessionRequest_engaged (h : p.findLive handle = some (k, r)) (engaged : r.state = .engaged) :
    p.endSessionRequest handle = (⟨.ok, (p.endSession k .host).endReply k⟩, p.endSession k .host) := by
  simp only [Part.endSessionRequest, h, if_pos engaged, Answer.ok]

theorem execEndSession_unchanged (settled : s.settled) (asks : s.Asks .endSession [h1, h0] f rest)
    (h : s.part.endSessionRequest (h1.toNat * 256 + h0.toNat) = (a, s.part)) :
    exec .endSession s = .next (s.replied rest f a s.part) :=
  State.serve_unchanged settled asks rfl (Rd.u16_all h1 h0) h

theorem execEndSession_gives {q : Part} (asks : s.Asks .endSession [h1, h0] f rest)
    (h : s.part.endSessionRequest (h1.toNat * 256 + h0.toNat) = (a, q)) :
    exec .endSession s = .next (s.replied rest f a q.finish) :=
  State.serve_gives (mine := any) asks rfl (Rd.u16_all h1 h0) h

end

/-- Settles O33: the outcomes of `Part.endSession` by the phase; the completion leaves ENGAGED and CLOSING records. -/
theorem endSessionSettlesOrCloses : Obligations.EndSessionSettlesOrCloses := by
  unfold Obligations.EndSessionSettlesOrCloses
  refine ⟨fun s f rest h1 h0 settled asks names => execEndSession_unchanged settled asks
    (Part.endSessionRequest_unknown (Part.findLive_of_namesNone names)), ?_⟩
  intro s f rest h1 h0 k r settled asks found
  obtain ⟨hr, _, _⟩ := Part.findLive_some found
  refine ⟨fun idle => execEndSession_unchanged settled asks (Part.endSessionRequest_wrongState found idle), ?_⟩
  intro x engaged hx
  have request := Part.endSessionRequest_engaged found engaged
  refine ⟨fun settling => ?settling, fun halted => ?halted, fun settling halted => ?settles⟩
  case settling =>
    rw [Part.endSession_settling hr hx settling, Part.endReply_engaged hr engaged hx, settling] at request
    exact execEndSession_unchanged settled asks request
  case halted =>
    have closed := Part.closeRecord_record hr .stopped (by' := .host) (by decide)
    rw [Part.endSession_halted hr hx halted, show SettleCause.closedBy .host = .host from rfl,
      Part.endReply_closing closed rfl] at request
    obtain ⟨since, within, excess, seen⟩ :=
      Record.summary_of_session hx (s.part.pool.handle k) s.part.now .stopped .host
    exact ⟨_, _, execEndSession_gives asks request, (Part.finish_tidies _).closing k _ closed rfl, rfl, _, rfl, rfl, rfl,
      since, within, excess, seen, rfl⟩
  case settles =>
    have stored := Part.settle_record hr hx settling .host
    rw [Part.endSession_settles hr hx settling halted, Part.endReply_engaged stored engaged rfl] at request
    exact ⟨_, execEndSession_gives asks request, (Part.finish_tidies _).engaged k _ stored engaged⟩

/-! ## O34: the phase after a resume (R118, R127) -/

theorem Session.intoCharge_eq (x : Session) (penalty : Nat) :
    x.intoCharge penalty = if 0 < penalty then { x with phase := .paused, pause := .overdraw }
      else { x with phase := .charge, pause := .none } := rfl

theorem Session.intoCharge_satisfied (x : Session) (penalty n : Nat) :
    { x.intoCharge penalty with satisfied := n } = { x with satisfied := n }.intoCharge penalty := by
  unfold Session.intoCharge
  split <;> rfl

section
variable {x y : Session}

/-- CHARGE and PAUSED are new to a session that was in neither. -/
theorem Session.intoCharge_changes (h : x.phase.demands = false) {penalty : Nat} :
    x.phase ≠ (y.intoCharge penalty).phase := by
  intro same
  rw [same] at h
  unfold Session.intoCharge at h
  split at h <;> cases h

theorem Session.resumed_unplugged (x : Session) (penalty : Nat) :
    x.resumed false penalty = { x with phase := .plugWait, stoppedIn := none } := by
  unfold Session.resumed
  split <;> rfl

theorem Session.resumed_quotaMet (stopped : x.stoppedIn = some .quotaMet) (penalty : Nat) :
    x.resumed true penalty = { x with phase := .quotaMet, stoppedIn := none } := by
  simp only [Session.resumed, stopped, if_true]

theorem Session.resumed_satisfied (stopped : x.stoppedIn = some .satisfied) (penalty : Nat) :
    x.resumed true penalty = { x with phase := .satisfied, stoppedIn := none, satisfied := 300 } := by
  simp only [Session.resumed, stopped, if_true]
  rfl

theorem Session.resumed_charging
    (stopped : x.stoppedIn = some .plugWait ∨ x.stoppedIn = some .charge ∨ x.stoppedIn = some .paused) (penalty : Nat) :
    x.resumed true penalty = { x with stoppedIn := none }.intoCharge penalty := by
  rcases stopped with h | h | h <;> simp only [Session.resumed, h, if_true]

end

/-! ## O34: SESSION-RESUME (R127) -/

section
variable {p q : Part} {s : State} {k : SlotId} {r r' : Record} {x y : Session} {b : BayId} {handle : Nat}
  {added : Option Nat} {e : Status} {f : Frame} {rest : List Frame} {h1 h0 : Byte} {a : Answer}

theorem Part.resume_wrongState (phase : x.phase = .plugWait ∨ x.phase = .charge ∨ x.phase = .paused ∨
    x.phase = .overstay ∨ x.phase = .settling) : p.resume k r x b added = .error .wrongState := by
  rcases phase with h | h | h | h | h <;> simp only [Part.resume, h]

theorem Part.resume_halted (halted : x.phase = .halted) :
    p.resume k r x b added =
      if p.serviceable b then .ok (p.updSession k (fun y => y.resumed (p.plugOf b = .plugged) (p.bay b).penalty))
      else .error .notReady := by
  simp only [Part.resume, halted]

theorem Part.resume_satisfied (satisfied : x.phase = .satisfied) :
    p.resume k r x b added =
      .ok (p.updSession k (fun y => { y.intoCharge (p.bay b).penalty with satisfied := 0 })) := by
  simp only [Part.resume, satisfied]

theorem Part.resume_quotaMet_none (met : x.phase = .quotaMet) : p.resume k r x b none = .error .wrongState := by
  simp only [Part.resume, met]

/-- The record with its quota raised by an added one, up to the largest (R127). -/
def Record.raised (r : Record) (quota : Nat) : Record :=
  { r.flag .session with quota := some (min quota 200000) }

theorem Part.resume_quotaMet {n quota : Nat} (met : x.phase = .quotaMet) (hq : r.quota = some quota) :
    p.resume k r x b (some n) =
      if 200000 ≤ quota then .error .range
      else .ok ((p.put k (r.raised (quota + n))).updSession k (fun y =>
        if p.plugOf b = .plugged then y.intoCharge (p.bay b).penalty else { y with phase := .plugWait })) := by
  simp only [Part.resume, met, hq]
  rfl

theorem Part.resumeRequest_unknown (h : p.findLive handle = none) :
    p.resumeRequest (handle, added) = (⟨.unknownReservation, []⟩, p) := by
  simp only [Part.resumeRequest, h, Status.alone]

theorem Part.resumeRequest_wrongState (h : p.findLive handle = some (k, r)) (idle : r.state ≠ .engaged) :
    p.resumeRequest (handle, added) = (⟨.wrongState, []⟩, p) := by
  simp only [Part.resumeRequest, h]
  split
  · next state _ _ => exact absurd state idle
  · rfl

theorem Part.resumeRequest_engaged (h : p.findLive handle = some (k, r)) (engaged : r.state = .engaged)
    (hx : r.session = some x) (hb : r.bay = some b) :
    p.resumeRequest (handle, added) = match p.resume k r x b (added.filter (fun n => n ≠ 0)) with
      | .ok done => (⟨.ok, done.resumeReply k⟩, done)
      | .error e => (⟨e, []⟩, p) := by
  simp only [Part.resumeRequest, h, engaged, hx, hb]
  rfl

theorem Part.resumeReply_eq (hr : p.record k = some r) (hx : r.session = some x) :
    p.resumeReply k = u8 x.phase.code ++ opt u32 r.quota := by
  rw [Part.resumeReply, hr]
  dsimp only
  rw [hx]
  rfl

theorem Rd.resume_all {g : Option Nat} {payload : List Byte} (read : (Rd.opt Rd.u32).Reads payload g) :
    Rd.resume.all ([h1, h0] ++ payload) = some (h1.toNat * 256 + h0.toNat, g) :=
  (((Rd.byte_reads h1).bind (Rd.byte_reads h0).last).bind read.last (f := fun h => do return (h, ← Rd.opt Rd.u32))).all

theorem execSessionResume_unchanged {payload : List Byte} (settled : s.settled)
    (asks : s.Asks .sessionResume ([h1, h0] ++ payload) f rest) (read : (Rd.opt Rd.u32).Reads payload added)
    (h : s.part.resumeRequest (h1.toNat * 256 + h0.toNat, added) = (a, s.part)) :
    exec .sessionResume s = .next (s.replied rest f a s.part) :=
  State.serve_unchanged settled asks rfl (Rd.resume_all read) h

variable {payload : List Byte} (asks : s.Asks .sessionResume ([h1, h0] ++ payload) f rest)
  (read : (Rd.opt Rd.u32).Reads payload added)
  (found : s.part.findLive (h1.toNat * 256 + h0.toNat) = some (k, r)) (engaged : r.state = .engaged)
  (hx : r.session = some x) (hb : r.bay = some b)

include asks read found engaged hx hb

/-- A resume of an ENGAGED record that is refused changes nothing. -/
theorem execSessionResume_refuses (settled : s.settled)
    (h : s.part.resume k r x b (added.filter (fun n => n ≠ 0)) = .error e) :
    exec .sessionResume s = .next (s.replied rest f ⟨e, []⟩ s.part) := by
  refine execSessionResume_unchanged settled asks read ?_
  rw [Part.resumeRequest_engaged found engaged hx hb, h]

/-- A resume leaves its record ENGAGED with session `y` and the notice flag up, and answers its phase and its quota; the
completion leaves the record. -/
theorem execSessionResume_gives
    (h : s.part.resume k r x b (added.filter (fun n => n ≠ 0)) = .ok q) (hq : q.record k = some r')
    (hy : r'.session = some y) (state : r'.state = .engaged) (notice : r'.notice = true) :
    ∃ p r'', exec .sessionResume s = .next (s.replied rest f ⟨.ok, u8 y.phase.code ++ opt u32 r'.quota⟩ p) ∧
      p.record k = some r'' ∧ r''.session = some y ∧ r''.quota = r'.quota ∧ r''.state = .engaged ∧ r''.notice = true := by
  have request := Part.resumeRequest_engaged (added := added) found engaged hx hb
  rw [h] at request
  dsimp only at request
  rw [Part.resumeReply_eq hq hy] at request
  exact ⟨_, r', State.serve_gives (mine := any) asks rfl (Rd.resume_all read) request,
    q.finish_tidies.engaged k r' hq state, hy, rfl, state, notice⟩

/-- A resume that moves the session to another phase. -/
theorem execSessionResume_changes {g : Session → Session}
    (h : s.part.resume k r x b (added.filter (fun n => n ≠ 0)) = .ok (s.part.updSession k g))
    (hy : g x = y) (phase : x.phase ≠ y.phase) :
    ∃ p r', exec .sessionResume s = .next (s.replied rest f ⟨.ok, u8 y.phase.code ++ opt u32 r.quota⟩ p) ∧
      p.record k = some r' ∧ r'.session = some y ∧ r'.quota = r.quota ∧ r'.state = .engaged ∧ r'.notice = true := by
  subst hy
  obtain ⟨hr, _, _⟩ := Part.findLive_some found
  have given := execSessionResume_gives asks read found engaged hx hb h
    (Part.updSession_reported hr hx (Session.reports_of_phase phase)) rfl engaged rfl
  exact given

end

/-- Settles O34: the outcomes of `Part.resume` by the phase, and the phase that a resume gives (`Session.resumed`). -/
theorem sessionResumeReturnsToCharge : Obligations.SessionResumeReturnsToCharge := by
  unfold Obligations.SessionResumeReturnsToCharge
  constructor
  · intro s f rest h1 h0 added settled asks names
    obtain ⟨added', read⟩ := Rd.opt_takes Rd.u32_takes added
    exact execSessionResume_unchanged settled asks read (Part.resumeRequest_unknown (Part.findLive_of_namesNone names))
  intro s f rest h1 h0 added k r x b settled asks low found
  obtain ⟨hr, _, _⟩ := Part.findLive_some found
  have read := Rd.opt_reads (g := added) fun n hn => Rd.u32_reads (low n hn)
  refine ⟨fun idle => execSessionResume_unchanged settled asks read (Part.resumeRequest_wrongState found idle), ?_⟩
  intro engaged hx hb
  dsimp only
  have refuses {e : Status} := execSessionResume_refuses (e := e) asks read found engaged hx hb settled
  have gives {q : Part} {r' : Record} {y : Session} :=
    execSessionResume_gives (q := q) (r' := r') (y := y) asks read found engaged hx hb
  have changes {g : Session → Session} {y : Session} :=
    execSessionResume_changes (g := g) (y := y) asks read found engaged hx hb
  refine ⟨fun phase => refuses (Part.resume_wrongState phase), fun halted dark => ?notReady, fun halted ready => ?halted,
    fun satisfied => ?satisfied, fun met absent => ?unadded,
    fun n q met given positive hq => ?met⟩
  case notReady => exact refuses (by rw [Part.resume_halted halted, dark, if_neg (by decide)])
  case halted =>
    have resume := (Part.resume_halted (k := k) (r := r) (b := b) (added := added.filter (fun n => n ≠ 0)) halted).trans
      (if_pos ready)
    refine ⟨fun stopped plugged => ?_, fun stopped plugged => ?_, fun stopped plugged => ?_, fun _ unplugged => ?_⟩
    · rw [decide_eq_true plugged] at resume
      exact changes resume (Session.resumed_quotaMet stopped _) (halted ▸ nofun)
    · rw [decide_eq_true plugged] at resume
      exact changes resume (Session.resumed_satisfied stopped _) (halted ▸ nofun)
    · rw [decide_eq_true plugged] at resume
      have given := changes resume (Session.resumed_charging stopped _) (Session.intoCharge_changes (by rw [halted]; rfl))
      rwa [Session.intoCharge_eq] at given
    · rw [decide_eq_false unplugged] at resume
      exact changes resume (Session.resumed_unplugged x _) (halted ▸ nofun)
  case satisfied =>
    have given := changes (Part.resume_satisfied satisfied) (Session.intoCharge_satisfied x _ 0)
      (Session.intoCharge_changes (by rw [satisfied]; rfl))
    rwa [Session.intoCharge_eq] at given
  case unadded =>
    refine refuses ?_
    rcases absent with rfl | rfl <;> exact Part.resume_quotaMet_none met
  case met =>
    have outcome := Part.resume_quotaMet (p := s.part) (k := k) (b := b) (n := n) met hq
    have filtered : added.filter (fun n => n ≠ 0) = some n := by simp [given, positive]
    rw [← filtered] at outcome
    refine ⟨fun large => refuses (outcome.trans (if_pos large)), fun room => ?_⟩
    refine gives (outcome.trans (if_neg (Nat.not_le.2 room)))
      (Part.updSession_reported (Part.record_put_self _ _ _) hx (Session.reports_of_phase ?_)) rfl engaged rfl
    split
    · exact Session.intoCharge_changes (by rw [met]; rfl)
    · exact met ▸ nofun

/-! ## O35, O36: the transmitter's choice clears notice flags and nothing else (R171, R172) -/

/-- A write that does not show in a view of the entries leaves the view of the table. -/
theorem Vector.map_set_of_eq {α β : Type} {n : Nat} {f : α → β} (v : Vector α n) (i : Fin n) (x : α)
    (h : f x = f (v.get i)) : (v.set i.val x i.isLt).map f = v.map f := by
  have same : (v.map f)[i.val] = f (v.get i) := by simp [Vector.get]
  rw [Vector.map_set, h, ← same, Vector.set_getElem_self]

section
variable {p q : Part}

theorem Part.quiet_clearBay (p : Part) (b : BayId) : (p.modBay b (fun x => { x with notice := false })).quiet = p.quiet := by
  have bays := Vector.map_set_of_eq (f := Bay.quiet) p.bays b { p.bay b with notice := false } rfl
  exact congrArg (fun v => { p.quiet with bays := v }) bays

theorem Part.quiet_clearFeeder (p : Part) (f : FeederId) :
    (p.modFeeder f (fun x => { x with notice := false })).quiet = p.quiet := by
  have feeders := Vector.map_set_of_eq (f := Feeder.quiet) p.feeders f { p.feeder f with notice := false } rfl
  exact congrArg (fun v => { p.quiet with feeders := v }) feeders

theorem Part.quiet_clearPost (p : Part) (a : PostId) :
    (p.modPost a (fun x => { x with notice := false })).quiet = p.quiet := by
  have posts := Vector.map_set_of_eq (f := Post.quiet) p.posts a { p.post a with notice := false } rfl
  exact congrArg (fun v => { p.quiet with posts := v }) posts

theorem Part.quiet_clearRule (p : Part) (r : RuleId) : (p.setRule r { p.rule r with notice := false }).quiet = p.quiet := by
  have rules := Vector.map_set_of_eq (f := Rule.quiet) p.rules r { p.rule r with notice := false } rfl
  exact congrArg (fun v => { p.quiet with rules := v }) rules

theorem Part.quiet_clearRecord (p : Part) (k : SlotId) :
    (p.modRecord k (fun r => { r with notice := false })).quiet = p.quiet := by
  unfold Part.modRecord
  cases hr : p.record k with
  | none => rfl
  | some r =>
    dsimp only
    have stored : (p.pool.slot k).record = some r := hr
    have slots := Vector.map_set_of_eq (f := Slot.quiet) p.pool.slots k
      ⟨(p.pool.slot k).generation, some { r with notice := false }⟩
      (by rw [Slot.quiet, Slot.quiet, show (p.pool.slots.get k).record = some r from stored]; rfl)
    rw [Part.put_inPlace (r := { r with notice := false }) hr rfl rfl]
    exact congrArg (fun v => { p.quiet with pool := { p.pool with slots := v } }) slots

/-- The transmitter's choice clears one notice flag at most (R171). -/
theorem State.choose_quiet (s : State) : s.choose.part.quiet = s.part.quiet := by
  have rule : s.chooseRule.part.quiet = s.part.quiet := by
    unfold State.chooseRule
    split
    · exact s.part.quiet_clearRule _
    · rfl
  have bay : s.chooseBay.part.quiet = s.part.quiet := by
    unfold State.chooseBay
    split
    · exact s.part.quiet_clearBay _
    · exact rule
  have feeder : s.chooseFeeder.part.quiet = s.part.quiet := by
    unfold State.chooseFeeder
    split
    · exact s.part.quiet_clearFeeder _
    · exact bay
  have post : s.choosePost.part.quiet = s.part.quiet := by
    unfold State.choosePost
    split
    · exact s.part.quiet_clearPost _
    · exact feeder
  have record : s.chooseRecord.part.quiet = s.part.quiet := by
    unfold State.chooseRecord
    split
    · exact s.part.quiet_clearRecord _
    · exact post
  unfold State.choose State.chooseClose
  split
  · rfl
  · split
    · rfl
    · exact record

theorem State.kick_quiet (s : State) : s.kick.part.quiet = s.part.quiet := by
  unfold State.kick
  split
  · rfl
  · exact s.choose_quiet

/-- A command that leaves nothing to do is complete but for the transmitter's choice. -/
theorem State.complete_quiet {s : State} (settled : s.settled) : s.complete.part.quiet = s.part.quiet := by
  refine (State.kick_quiet _).trans ?_
  rw [s.part.finish_of_settled settled]

theorem State.complete_clearsNotice {s : State} (settled : s.settled) : s.part.ClearsNotice s.complete.part := by
  have kicked := ({ s with part := s.part.finish } : State).kick_clearsNotice
  have done : s.part.finish = s.part := s.part.finish_of_settled settled
  show s.part.ClearsNotice (State.kick { s with part := s.part.finish }).part
  rw [done] at kicked ⊢
  exact kicked

theorem Part.bay_of_quiet (h : q.quiet = p.quiet) (b : BayId) :
    { q.bay b with notice := false } = { p.bay b with notice := false } := by
  have bays : (q.bays.map Bay.quiet)[b.val] = (p.bays.map Bay.quiet)[b.val] :=
    congrArg (fun u : Part => u.bays[b.val]) h
  rwa [Vector.getElem_map, Vector.getElem_map] at bays

theorem Part.recomputeDue_of_quiet (h : q.quiet = p.quiet) (f : FeederId) :
    (q.feeder f).recomputeDue = (p.feeder f).recomputeDue := by
  have feeders : (q.feeders.map Feeder.quiet)[f.val] = (p.feeders.map Feeder.quiet)[f.val] :=
    congrArg (fun u : Part => u.feeders[f.val]) h
  rw [Vector.getElem_map, Vector.getElem_map] at feeders
  exact (congrArg Feeder.recomputeDue feeders :)

end

/-! ## O35, O36: metering in numbers (R128, R129) -/

section
variable {x : Session}

@[simp] theorem Session.meetQuota_within (x : Session) : x.meetQuota.within = x.within := by
  unfold Session.meetQuota
  repeat' split
  all_goals rfl

@[simp] theorem Session.meetQuota_excess (x : Session) : x.meetQuota.excess = x.excess := by
  unfold Session.meetQuota
  repeat' split
  all_goals rfl

@[simp] theorem Session.meetQuota_residue (x : Session) : x.meetQuota.residue = x.residue := by
  unfold Session.meetQuota
  repeat' split
  all_goals rfl

@[simp] theorem Session.meetQuota_seen (x : Session) : x.meetQuota.seen = x.seen := by
  unfold Session.meetQuota
  repeat' split
  all_goals rfl

theorem Session.meetQuota_ends (h : x.phase = .charge ∨ x.phase = .paused ∨ x.phase = .satisfied) :
    x.meetQuota = { x with phase := .quotaMet, pause := .none, satisfied := 0 } := by
  rcases h with h | h | h <;> simp only [Session.meetQuota, h]

theorem Session.meetQuota_elsewhere (h : x.phase = .plugWait ∨ x.phase = .overstay ∨ x.phase = .settling) :
    x.meetQuota = x := by
  rcases h with h | h | h <;> simp only [Session.meetQuota, h]

theorem Session.meetQuota_halted (h : x.phase = .halted) : x.meetQuota.phase = .halted ∧
    (x.stoppedIn = some .charge ∨ x.stoppedIn = some .paused ∨ x.stoppedIn = some .satisfied →
      x.meetQuota.stoppedIn = some .quotaMet) := by
  unfold Session.meetQuota
  rw [h]
  constructor
  · dsimp only
    split
    · rfl
    · rfl
    · rfl
    · exact h
  · rintro (stopped | stopped | stopped) <;> rw [stopped]

theorem Session.meetQuota_isOverstay (x : Session) : x.meetQuota.phase.isOverstay = x.phase.isOverstay := by
  cases h : x.phase with
  | charge => rw [Session.meetQuota_ends (.inl h)]; rfl
  | paused => rw [Session.meetQuota_ends (.inr (.inl h))]; rfl
  | satisfied => rw [Session.meetQuota_ends (.inr (.inr h))]; rfl
  | halted => rw [(Session.meetQuota_halted h).1]
  | plugWait => rw [Session.meetQuota_elsewhere (.inl h), h]
  | overstay => rw [Session.meetQuota_elsewhere (.inr (.inl h)), h]
  | settling => rw [Session.meetQuota_elsewhere (.inr (.inr h)), h]
  | quotaMet => simp only [Session.meetQuota, h]

@[simp] theorem Session.noteOverrun_within (x : Session) : x.noteOverrun.within = x.within := by
  unfold Session.noteOverrun
  split <;> rfl

@[simp] theorem Session.noteOverrun_excess (x : Session) : x.noteOverrun.excess = x.excess := by
  unfold Session.noteOverrun
  split <;> rfl

@[simp] theorem Session.noteOverrun_residue (x : Session) : x.noteOverrun.residue = x.residue := by
  unfold Session.noteOverrun
  split <;> rfl

@[simp] theorem Session.noteOverrun_phase (x : Session) : x.noteOverrun.phase = x.phase := by
  unfold Session.noteOverrun
  split <;> rfl

@[simp] theorem Session.noteOverrun_stoppedIn (x : Session) : x.noteOverrun.stoppedIn = x.stoppedIn := by
  unfold Session.noteOverrun
  split <;> rfl

@[simp] theorem Session.noteOverrun_quotaMet (x : Session) : x.noteOverrun.seen.quotaMet = x.seen.quotaMet := by
  unfold Session.noteOverrun
  split <;> rfl

theorem Session.noteOverrun_overrun (h : x.excess ≠ 0) : x.noteOverrun.seen.overrun = true := by
  rw [Session.noteOverrun, if_neg h]

/-- The session at its quota `q` after `wh` further Wh, its phase not changed yet (R129). -/
def Session.filled (x : Session) (q wh : Nat) : Session :=
  Session.noteOverrun { x with
    within := q, excess := saturate (x.excess + (x.within + wh - q)), seen := { x.seen with quotaMet := true } }

theorem Session.count_below {q wh : Nat} (h : x.within + wh < q) :
    x.count (some q) wh = { x with within := x.within + wh } := by
  rw [Session.count, if_pos (by omega), if_neg (by omega)]

theorem Session.count_reaches {q wh : Nat} (before : x.within < q) (reaches : q ≤ x.within + wh) :
    x.count (some q) wh = (x.filled q wh).meetQuota := by
  rw [Session.count, if_pos before, if_pos reaches]
  rfl

theorem Session.count_above {q wh : Nat} (h : q ≤ x.within) :
    x.count (some q) wh = Session.noteOverrun { x with excess := saturate (x.excess + wh) } :=
  if_neg (Nat.not_lt.2 h)

/-- The counts of a session that reaches its quota: the quota within, the rest as excess, seen as QUOTA-MET (R129). -/
theorem Session.count_reached {q wh : Nat} (before : x.within < q) (reaches : q ≤ x.within + wh) :
    (x.count (some q) wh).within = q ∧
      (x.count (some q) wh).excess = saturate (x.excess + (x.within + wh - q)) ∧
      (x.count (some q) wh).residue = x.residue ∧ (x.count (some q) wh).seen.quotaMet = true := by
  rw [Session.count_reaches before reaches]
  simp [Session.filled]

theorem Session.filled_phase (x : Session) (q wh : Nat) : (x.filled q wh).phase = x.phase := by
  rw [Session.filled, Session.noteOverrun_phase]

theorem Session.filled_stoppedIn (x : Session) (q wh : Nat) : (x.filled q wh).stoppedIn = x.stoppedIn := by
  rw [Session.filled, Session.noteOverrun_stoppedIn]

/-- Reaching the quota ends a charge (R129). -/
theorem Session.count_ends {q wh : Nat} (before : x.within < q) (reaches : q ≤ x.within + wh)
    (h : x.phase = .charge ∨ x.phase = .paused ∨ x.phase = .satisfied) :
    (x.count (some q) wh).phase = .quotaMet ∧ (x.count (some q) wh).pause = .none ∧
      (x.count (some q) wh).satisfied = 0 := by
  rw [Session.count_reaches before reaches, Session.meetQuota_ends (by rwa [x.filled_phase])]
  exact ⟨rfl, rfl, rfl⟩

theorem Session.count_residue (x : Session) (quota : Option Nat) (wh : Nat) : (x.count quota wh).residue = x.residue := by
  cases quota with
  | none => rfl
  | some q =>
    by_cases above : q ≤ x.within
    · rw [Session.count_above above, Session.noteOverrun_residue]
    · by_cases reaches : q ≤ x.within + wh
      · obtain ⟨_, _, residue, _⟩ := Session.count_reached (Nat.not_le.1 above) reaches
        exact residue
      · rw [Session.count_below (Nat.not_le.1 reaches)]

/-- Counting changes no phase into or out of OVERSTAY. -/
theorem Session.count_isOverstay (x : Session) (quota : Option Nat) (wh : Nat) :
    (x.count quota wh).phase.isOverstay = x.phase.isOverstay := by
  cases quota with
  | none => rfl
  | some q =>
    by_cases above : q ≤ x.within
    · rw [Session.count_above above, Session.noteOverrun_phase]
    · by_cases reaches : q ≤ x.within + wh
      · rw [Session.count_reaches (Nat.not_le.1 above) reaches, Session.meetQuota_isOverstay, x.filled_phase]
      · rw [Session.count_below (Nat.not_le.1 reaches)]

/-- An excess that changes is seen as OVERRUN (R129). -/
theorem Session.count_overrun {quota : Option Nat} {wh : Nat} (h : (x.count quota wh).excess ≠ x.excess) :
    (x.count quota wh).seen.overrun = true := by
  have noted (n : Nat) (y : Session) (excess : y.excess = saturate (x.excess + n)) (changed : y.excess ≠ x.excess) :
      y.noteOverrun.seen.overrun = true := by
    refine Session.noteOverrun_overrun fun zero => changed ?_
    rw [zero, saturate, Config.largestEnergy] at excess
    omega
  cases quota with
  | none => exact absurd rfl h
  | some q =>
    by_cases above : q ≤ x.within
    · rw [Session.count_above above] at h ⊢
      rw [Session.noteOverrun_excess] at h
      exact noted wh _ rfl h
    · by_cases reaches : q ≤ x.within + wh
      · rw [Session.count_reaches (Nat.not_le.1 above) reaches, Session.meetQuota_excess, Session.filled,
          Session.noteOverrun_excess] at h
        rw [Session.count_reaches (Nat.not_le.1 above) reaches, Session.meetQuota_seen]
        exact noted _ _ rfl h
      · rw [Session.count_below (Nat.not_le.1 reaches)] at h
        exact absurd rfl h

/-- The session with the residue that a tick leaves (R128). -/
def Session.remaining (x : Session) (reading voltage : Nat) : Session :=
  { x with residue := (x.residue + reading * voltage) % 36000 }

theorem Session.meter_eq (x : Session) (quota : Option Nat) (reading voltage : Nat) :
    x.meter quota reading voltage =
      (x.remaining reading voltage).count quota ((x.residue + reading * voltage) / 36000) := rfl

theorem Session.meter_isOverstay (x : Session) (quota : Option Nat) (reading voltage : Nat) :
    (x.meter quota reading voltage).phase.isOverstay = x.phase.isOverstay :=
  Session.count_isOverstay _ _ _

end

/-! ## O35, O36: the satisfied check (R130) -/

section
variable {x : Session} {limit reading : Nat}

theorem Session.drawsNothing_iff : x.drawsNothing limit reading = true ↔ x.phase = .charge ∧ 60 ≤ limit ∧ reading < 10 := by
  simp [Session.drawsNothing, Config.leastCurrent, and_assoc]

theorem Session.checkSatisfied_counts (unused : x.phase = .charge ∧ 60 ≤ limit ∧ reading < 10) (h : x.satisfied < 299) :
    x.checkSatisfied limit reading = { x with satisfied := x.satisfied + 1 } := by
  rw [Session.checkSatisfied, if_pos (Session.drawsNothing_iff.2 unused), if_neg (by rw [Config.satisfiedTicks]; omega)]

theorem Session.checkSatisfied_ends (unused : x.phase = .charge ∧ 60 ≤ limit ∧ reading < 10) (h : 299 ≤ x.satisfied) :
    x.checkSatisfied limit reading =
      { x with phase := .satisfied, satisfied := 300, seen := { x.seen with satisfied := true } } := by
  rw [Session.checkSatisfied, if_pos (Session.drawsNothing_iff.2 unused), if_pos (by rw [Config.satisfiedTicks]; omega)]
  rfl

theorem Session.checkSatisfied_stays (h : x.phase = .satisfied) :
    x.checkSatisfied limit reading = { x with satisfied := 300 } := by
  have used : ¬ x.drawsNothing limit reading = true := fun e => nomatch h.symm.trans (Session.drawsNothing_iff.1 e).1
  rw [Session.checkSatisfied, if_neg used, if_pos h]
  rfl

theorem Session.checkSatisfied_clears (used : ¬ (x.phase = .charge ∧ 60 ≤ limit ∧ reading < 10))
    (h : x.phase ≠ .satisfied) : x.checkSatisfied limit reading = { x with satisfied := 0 } := by
  rw [Session.checkSatisfied, if_neg (mt Session.drawsNothing_iff.1 used), if_neg h]

theorem Session.checkSatisfied_isOverstay (x : Session) (limit reading : Nat) :
    (x.checkSatisfied limit reading).phase.isOverstay = x.phase.isOverstay := by
  by_cases unused : x.phase = .charge ∧ 60 ≤ limit ∧ reading < 10
  · by_cases h : x.satisfied < 299
    · rw [Session.checkSatisfied_counts unused h]
    · rw [Session.checkSatisfied_ends unused (Nat.not_lt.1 h), unused.1]
      rfl
  · by_cases h : x.phase = .satisfied
    · rw [Session.checkSatisfied_stays h]
    · rw [Session.checkSatisfied_clears unused h]

end

/-! ## O35, O36: a session change that leaves the bays alone -/

/-- A session change apart from its record: nothing is left to do, the bays stand, and of a feeder a recompute at most
becomes due (R144). -/
structure Part.TellsShare (p q : Part) : Prop where
  work : q.work = p.work
  bays : q.bays = p.bays
  feeder (f : FeederId) : (q.feeder f).core = (p.feeder f).core
  due (f : FeederId) : (p.feeder f).recomputeDue = true → (q.feeder f).recomputeDue = true

/-- A record with another session, its notice flag and its cause aside. -/
structure Record.Resessioned (r : Record) (y : Session) (r' : Record) : Prop where
  session : r'.session = some y
  rest : { r' with session := r.session, notice := r.notice, lastCause := r.lastCause } = r

namespace Part.TellsShare

variable {p q u : Part}

theorem refl (p : Part) : p.TellsShare p := ⟨rfl, rfl, fun _ => rfl, fun _ => id⟩

theorem trans (h : p.TellsShare q) (h' : q.TellsShare u) : p.TellsShare u where
  work := h'.work.trans h.work
  bays := h'.bays.trans h.bays
  feeder f := (h'.feeder f).trans (h.feeder f)
  due f := h'.due f ∘ h.due f

theorem bay (h : p.TellsShare q) (b : BayId) : q.bay b = p.bay b := by
  rw [Part.bay, h.bays, Part.bay]

theorem voltage (h : p.TellsShare q) (f : FeederId) : (q.feeder f).voltage = (p.feeder f).voltage :=
  (congrArg Feeder.voltage (h.feeder f) :)

theorem foldl {α : Type} {f : Part → α → Part} (h : ∀ p a, Part.TellsShare p (f p a)) (l : List α) (p : Part) :
    p.TellsShare (l.foldl f p) := by
  induction l generalizing p with
  | nil => exact .refl p
  | cons a l ih => exact (h p a).trans (ih _)

end Part.TellsShare

theorem Record.Resessioned.trans {r r' r'' : Record} {y z : Session} (h : r.Resessioned y r')
    (h' : r'.Resessioned z r'') : r.Resessioned z r'' :=
  ⟨h'.session, h.rest ▸ h'.rest ▸ rfl⟩

section
variable {p : Part} {k : SlotId} {r : Record} {x : Session} {b : BayId} {g : Session → Session}

theorem Part.put_tellsShare {r' : Record} (hr : p.record k = some r) (home : r.home = r'.home)
    (start : r.windowStart = r'.windowStart) : p.TellsShare (p.put k r') := by
  rw [Part.put_inPlace hr home start]
  exact ⟨rfl, rfl, fun _ => rfl, fun _ => id⟩

theorem Part.shareChanged_tellsShare (p : Part) (f : FeederId) : p.TellsShare (p.shareChanged f) := by
  refine ⟨rfl, rfl, p.shareChanged_core f, fun j due => ?_⟩
  rw [Part.shareChanged, Part.feeder_modFeeder]
  split
  · rfl
  · exact due

/-- A session change that brings no phase into or out of OVERSTAY derives no condition (R117, R144). -/
theorem Part.updSession_tellsShare
    (calm : ∀ r x, p.record k = some r → r.session = some x → (g x).phase.isOverstay = x.phase.isOverstay) :
    p.TellsShare (p.updSession k g) := by
  unfold Part.updSession
  cases hr : p.record k with
  | none => exact .refl p
  | some r =>
    dsimp only
    cases hx : r.session with
    | none => exact .refl p
    | some x =>
      dsimp only
      have stored : p.TellsShare (p.put k (if x.reports (g x) then
          Record.flag { r with session := some (g x) } .session else { r with session := some (g x) })) := by
        split <;> exact Part.put_tellsShare hr rfl rfl
      split
      · exact stored
      · rw [if_pos (calm r x hr hx).symm]
        split
        · exact stored
        · exact stored.trans (Part.shareChanged_tellsShare _ _)

/-- A session change that leaves or enters the demanding set has a recompute become due (R144). -/
theorem Part.updSession_due (hr : p.record k = some r) (hx : r.session = some x) (hb : r.bay = some b)
    (calm : (g x).phase.isOverstay = x.phase.isOverstay) (demands : x.phase.demands ≠ (g x).phase.demands) :
    ((p.updSession k g).feeder (p.bay b).feeder).recomputeDue = true := by
  simp only [Part.updSession, hr, hx, hb, calm, if_true, if_neg demands, Part.shareChanged, Part.feeder_modFeeder_same]

theorem Part.updSession_resessioned (hr : p.record k = some r) (hx : r.session = some x) (g : Session → Session) :
    ∃ r', (p.updSession k g).record k = some r' ∧ r.Resessioned (g x) r' := by
  refine ⟨_, Part.updSession_record hr hx g, ?_⟩
  split <;> exact ⟨rfl, rfl⟩

end

/-! ## O35: one record's tick (R128 to R130) -/

section
variable {p : Part} {k : SlotId} {r : Record} {x : Session} {b : BayId}

/-- The Session Unit's tick for one slot. -/
def Part.tickSlot (p : Part) (s : SlotId) : Part := (p.meterSlot s).checkSlot s

/-- The session of a record on bay `b` after a tick (R128, R130). -/
def Part.ticked (p : Part) (r : Record) (b : BayId) (x : Session) : Session :=
  (x.meter r.quota (p.bay b).reading (p.feeder (p.bay b).feeder).voltage).checkSatisfied (p.bay b).limit
    (p.bay b).reading

/-- The Session Unit's tick for every slot, before the tick is marked as taken. -/
def Part.ticks (p : Part) : Part := allSlots.foldl Part.tickSlot p

theorem Part.sessionTick_eq (p : Part) :
    p.sessionTick = { p.ticks with outstanding := { p.ticks.outstanding with session := false } } := by
  unfold Part.sessionTick Part.ticks
  rw [show (fun p s => (Part.meterSlot p s).checkSlot s) = Part.tickSlot from rfl]

theorem Part.sessionTick_record (p : Part) (k : SlotId) : p.sessionTick.record k = p.ticks.record k := by
  rw [Part.sessionTick_eq]
  generalize p.ticks = q
  rfl

theorem Part.sessionTick_feeder (p : Part) (f : FeederId) : p.sessionTick.feeder f = p.ticks.feeder f := by
  rw [Part.sessionTick_eq]
  generalize p.ticks = q
  rfl

theorem Part.meterSlot_engaged (hr : p.record k = some r) (engaged : r.state = .engaged) (hb : r.bay = some b) :
    p.meterSlot k =
      p.updSession k (fun x => x.meter r.quota (p.bay b).reading (p.feeder (p.bay b).feeder).voltage) := by
  simp only [Part.meterSlot, hr, hb, engaged, if_true]

theorem Part.checkSlot_engaged (hr : p.record k = some r) (engaged : r.state = .engaged) (hb : r.bay = some b) :
    p.checkSlot k = p.updSession k (fun x => x.checkSatisfied (p.bay b).limit (p.bay b).reading) := by
  simp only [Part.checkSlot, hr, hb, engaged, if_true]

theorem Part.meterSlot_other (idle : ∀ r, p.record k = some r → r.state ≠ .engaged) : p.meterSlot k = p := by
  unfold Part.meterSlot
  split
  · rfl
  · next r hr =>
    split
    · rfl
    · exact if_neg (idle r hr)

theorem Part.checkSlot_other (idle : ∀ r, p.record k = some r → r.state ≠ .engaged) : p.checkSlot k = p := by
  unfold Part.checkSlot
  split
  · rfl
  · next r hr =>
    split
    · rfl
    · exact if_neg (idle r hr)

theorem Part.meterSlot_tellsShare (p : Part) (s : SlotId) : p.TellsShare (p.meterSlot s) := by
  unfold Part.meterSlot
  split
  · exact .refl p
  · split
    · exact .refl p
    · split
      · exact Part.updSession_tellsShare fun _ x _ _ => x.meter_isOverstay _ _ _
      · exact .refl p

theorem Part.checkSlot_tellsShare (p : Part) (s : SlotId) : p.TellsShare (p.checkSlot s) := by
  unfold Part.checkSlot
  split
  · exact .refl p
  · split
    · exact .refl p
    · split
      · exact Part.updSession_tellsShare fun _ x _ _ => x.checkSatisfied_isOverstay _ _
      · exact .refl p

theorem Part.tickSlot_tellsShare (p : Part) (s : SlotId) : p.TellsShare (p.tickSlot s) :=
  (p.meterSlot_tellsShare s).trans (Part.checkSlot_tellsShare _ s)

theorem Part.meterSlot_record_ne (p : Part) {s : SlotId} (ne : k ≠ s) : (p.meterSlot s).record k = p.record k := by
  unfold Part.meterSlot
  split
  · rfl
  · split
    · rfl
    · split
      · exact p.record_updSession s _ k ne
      · rfl

theorem Part.checkSlot_record_ne (p : Part) {s : SlotId} (ne : k ≠ s) : (p.checkSlot s).record k = p.record k := by
  unfold Part.checkSlot
  split
  · rfl
  · split
    · rfl
    · split
      · exact p.record_updSession s _ k ne
      · rfl

theorem Part.tickSlot_record_ne (p : Part) {s : SlotId} (ne : k ≠ s) : (p.tickSlot s).record k = p.record k :=
  (Part.checkSlot_record_ne _ ne).trans (p.meterSlot_record_ne ne)

theorem Part.tickSlot_record_idle (hr : p.record k = some r) (idle : r.state ≠ .engaged) (s : SlotId) :
    (p.tickSlot s).record k = some r := by
  by_cases e : k = s
  · subst e
    have idle : ∀ r, p.record k = some r → r.state ≠ .engaged := fun _ h => Option.some.inj (hr.symm.trans h) ▸ idle
    rw [Part.tickSlot, Part.meterSlot_other idle, Part.checkSlot_other idle, hr]
  · rw [p.tickSlot_record_ne e, hr]

/-- One ENGAGED record's tick: it is metered, then checked; where its session leaves the demanding set, a recompute becomes
due (R128 to R130, R144). -/
theorem Part.tickSlot_record (hr : p.record k = some r) (engaged : r.state = .engaged) (hb : r.bay = some b)
    (hx : r.session = some x) :
    ∃ r', (p.tickSlot k).record k = some r' ∧ r.Resessioned (p.ticked r b x) r' ∧
      (x.phase.demands = true → (p.ticked r b x).phase.demands = false →
        ((p.tickSlot k).feeder (p.bay b).feeder).recomputeDue = true) := by
  have metering := p.meterSlot_tellsShare k
  have checking := (p.meterSlot k).checkSlot_tellsShare k
  have metered := Part.meterSlot_engaged hr engaged hb
  obtain ⟨r₁, hr₁, changed₁⟩ := Part.updSession_resessioned hr hx
    (fun x => x.meter r.quota (p.bay b).reading (p.feeder (p.bay b).feeder).voltage)
  rw [← metered] at hr₁
  have engaged₁ : r₁.state = .engaged := (congrArg Record.state changed₁.rest).trans engaged
  have hb₁ : r₁.bay = some b := (congrArg Record.bay changed₁.rest).trans hb
  have checked := Part.checkSlot_engaged hr₁ engaged₁ hb₁
  rw [metering.bay] at checked
  obtain ⟨r₂, hr₂, changed₂⟩ := Part.updSession_resessioned hr₁ changed₁.session
    (fun x => x.checkSatisfied (p.bay b).limit (p.bay b).reading)
  rw [← checked] at hr₂
  refine ⟨r₂, hr₂, changed₁.trans changed₂, fun demands leaves => ?_⟩
  by_cases still : (x.meter r.quota (p.bay b).reading (p.feeder (p.bay b).feeder).voltage).phase.demands = true
  · have due := Part.updSession_due (g := fun x => x.checkSatisfied (p.bay b).limit (p.bay b).reading) hr₁
      changed₁.session hb₁ (Session.checkSatisfied_isOverstay _ _ _) (fun same => nomatch still.symm.trans (same.trans leaves))
    rwa [← checked, metering.bay] at due
  · have due := Part.updSession_due (g := fun x => x.meter r.quota (p.bay b).reading (p.feeder (p.bay b).feeder).voltage)
      hr hx hb (Session.meter_isOverstay _ _ _ _) (fun same => still (same.symm.trans demands))
    rw [← metered] at due
    exact checking.due _ due

/-- The tick of the other slots leaves a record. -/
theorem Part.ticks_record_ne (l : List SlotId) (absent : k ∉ l) (p : Part) :
    (l.foldl Part.tickSlot p).record k = p.record k := by
  induction l generalizing p with
  | nil => rfl
  | cons s l ih =>
    obtain ⟨ne, rest⟩ := not_or.1 (mt List.mem_cons.2 absent)
    exact (ih rest _).trans (p.tickSlot_record_ne ne)

theorem Part.sessionTick_idle (hr : p.record k = some r) (idle : r.state ≠ .engaged) :
    p.sessionTick.record k = some r := by
  have walk (l : List SlotId) (q : Part) (hq : q.record k = some r) : (l.foldl Part.tickSlot q).record k = some r := by
    induction l generalizing q with
    | nil => exact hq
    | cons s l ih => exact ih _ (Part.tickSlot_record_idle hq idle s)
  rw [Part.sessionTick_record]
  exact walk allSlots p hr

/-- Each slot is ticked once: the others' ticks, before and after it, leave the record and what its tick reads. -/
theorem Part.sessionTick_engaged (hr : p.record k = some r) (engaged : r.state = .engaged) (hb : r.bay = some b)
    (hx : r.session = some x) :
    ∃ r', p.sessionTick.record k = some r' ∧ r.Resessioned (p.ticked r b x) r' ∧
      (x.phase.demands = true → (p.ticked r b x).phase.demands = false →
        (p.sessionTick.feeder (p.bay b).feeder).recomputeDue = true) := by
  rw [Part.sessionTick_record, Part.sessionTick_feeder, Part.ticks]
  obtain ⟨before, after, slots⟩ := List.append_of_mem (mem_allSlots k)
  have nodup : allSlots.Nodup := List.nodup_finRange 192
  rw [slots] at nodup ⊢
  rw [List.foldl_append, List.foldl_cons]
  have apart : k ∉ before ∧ k ∉ after := by
    obtain ⟨_, once, apart⟩ := List.nodup_append.1 nodup
    exact ⟨fun mem => apart k mem k (by simp) rfl, (List.nodup_cons.1 once).1⟩
  have told := Part.TellsShare.foldl Part.tickSlot_tellsShare before p
  have hq := (Part.ticks_record_ne before apart.1 p).trans hr
  generalize before.foldl Part.tickSlot p = q at told hq
  obtain ⟨r', hr', changed, due⟩ := Part.tickSlot_record hq engaged hb hx
  have same : q.ticked r b x = p.ticked r b x := by
    rw [Part.ticked, told.bay, told.voltage, Part.ticked]
  rw [same] at changed due
  rw [told.bay] at due
  exact ⟨r', (Part.ticks_record_ne after apart.2 _).trans hr', changed, fun demands leaves =>
    (Part.TellsShare.foldl Part.tickSlot_tellsShare after _).due _ (due demands leaves)⟩

theorem Part.sessionTick_tellsShare (p : Part) : p.TellsShare p.sessionTick := by
  have told : p.TellsShare p.ticks := Part.TellsShare.foldl Part.tickSlot_tellsShare allSlots p
  rw [Part.sessionTick_eq]
  generalize p.ticks = q at told
  exact ⟨told.work, told.bays, told.feeder, told.due⟩

theorem Part.sessionTick_outstanding (p : Part) : p.sessionTick.outstanding.session = false := by
  rw [Part.sessionTick_eq]

end

theorem Phase.demands_iff {x : Phase} : x.demands = true ↔ x = .charge ∨ x = .paused := by
  cases x <;> decide

/-- Settles O35: the tick of each record by `Part.sessionTick_engaged`, which the transmitter's choice leaves but for its notice
flag, then the numbers of a tick of metering and of a check. -/
theorem sessionTickMetersEveryEngagedRecord : Obligations.SessionTickMetersEveryEngagedRecord := by
  unfold Obligations.SessionTickMetersEveryEngagedRecord
  refine ⟨?tick, ?meter, ?check⟩
  case tick =>
    intro s settled
    have told := s.part.sessionTick_tellsShare
    have quiet := State.complete_quiet (s := s.onPart Part.sessionTick) (told.work.trans settled)
    have clears := State.complete_clearsNotice (s := s.onPart Part.sessionTick) (told.work.trans settled)
    have moves := (s.onPart Part.sessionTick).complete_moves (timed := false)
    refine ⟨_, rfl, ?_, fun k r b x hr engaged hb hx => ?_, fun k r hr idle => ?_, ?_, ?_, fun b => ?_⟩
    · rw [State.complete_outstanding]
      exact s.part.sessionTick_outstanding
    · obtain ⟨r', hr', changed, due⟩ := Part.sessionTick_engaged hr engaged hb hx
      obtain ⟨n, kept⟩ := clears.record_some hr'
      refine ⟨_, kept, changed.session, changed.rest, fun y hy demands charge paused => ?_⟩
      cases hy.symm.trans changed.session
      rw [Part.recomputeDue_of_quiet quiet]
      refine due (Phase.demands_iff.2 demands) (Bool.eq_false_iff.2 fun still => ?_)
      exact (Phase.demands_iff.1 still).elim charge paused
    · obtain ⟨n, kept⟩ := clears.record_some (Part.sessionTick_idle hr idle)
      exact ⟨_, kept, rfl⟩
    · exact (s.part.sessionTick_moves.trans moves).sameConfig
    · exact (s.part.sessionTick_moves.trans moves).clock_eq
    · rw [Part.bay_of_quiet quiet]
      exact congrArg (fun x : Bay => { x with notice := false }) (told.bay b)
  case meter =>
    intro x reading voltage
    dsimp only
    simp only [Session.meter_eq]
    have residue : (x.remaining reading voltage).residue = (x.residue + reading * voltage) % 36000 := rfl
    have within : (x.remaining reading voltage).within = x.within := rfl
    have excess : (x.remaining reading voltage).excess = x.excess := rfl
    have phase : (x.remaining reading voltage).phase = x.phase := rfl
    have seen : (x.remaining reading voltage).seen = x.seen := rfl
    have stoppedIn : (x.remaining reading voltage).stoppedIn = x.stoppedIn := rfl
    rw [← residue, ← within, ← excess, ← phase, ← seen, ← stoppedIn]
    generalize x.remaining reading voltage = y
    generalize (x.residue + reading * voltage) / 36000 = wh
    refine ⟨fun q => y.count_residue q wh, ⟨rfl, rfl, rfl⟩, fun q below => ?_, fun q before reaches => ?_, fun q above => ?_,
      fun q => Session.count_overrun⟩
    · rw [Session.count_below below]
      exact ⟨rfl, rfl, rfl, rfl⟩
    · obtain ⟨within, excess, _, seen⟩ := Session.count_reached before reaches
      refine ⟨within, excess, seen, Session.count_ends before reaches, fun phase => ?_, fun halted => ?_⟩
      · rw [Session.count_reaches before reaches, Session.meetQuota_elsewhere (by rwa [y.filled_phase])]
        exact ⟨y.filled_phase q wh, y.filled_stoppedIn q wh⟩
      · have met := Session.meetQuota_halted ((y.filled_phase q wh).trans halted)
        rwa [← Session.count_reaches before reaches, y.filled_stoppedIn] at met
    · rw [Session.count_above above]
      exact ⟨Session.noteOverrun_within _, Session.noteOverrun_excess _⟩
  case check =>
    exact fun x limit reading => ⟨Session.checkSatisfied_counts, Session.checkSatisfied_ends,
      Session.checkSatisfied_stays, Session.checkSatisfied_clears⟩

/-! ## O36: QUOTA_MET and SATISFIED (R129, R130) -/

section
variable {p : Part} {s : State} {k : SlotId} {r : Record} {x : Session} {b : BayId}

/-- An event of a slot that the part has, completed. -/
theorem withSlot_onPart (g : Part → SlotId → Part) :
    withObject 192 k.val (fun x => s.onPart (fun p => g p x)) = .next (s.onPart (fun p => g p k)).complete := by
  rw [withObject, fin?_val]
  rfl

theorem Part.quotaEvent_meters {q : Nat} (hr : p.record k = some r) (engaged : r.state = .engaged) (hb : r.bay = some b)
    (hx : r.session = some x) (hq : r.quota = some q) (before : x.within < q)
    (reaches : q ≤ x.within +
      (x.residue + (p.bay b).reading * (p.feeder (p.bay b).feeder).voltage) / 36000) :
    p.quotaEvent k = p.meterSlot k := by
  simp only [Part.quotaEvent, hr, hb, hx, engaged, Session.reachesQuota, hq, Config.residuePerWh, before, reaches,
    decide_true, Bool.and_self, if_true]

theorem Part.satisfiedEvent_eq (hr : p.record k = some r) (engaged : r.state = .engaged) (hb : r.bay = some b)
    (hx : r.session = some x) (unused : x.phase = .charge ∧ 60 ≤ (p.bay b).limit ∧ (p.bay b).reading < 10) :
    p.satisfiedEvent k = if 299 ≤ x.satisfied then p.checkSlot k else p := by
  simp only [Part.satisfiedEvent, hr, hb, hx, engaged, Session.drawsNothing_iff.2 unused, Config.satisfiedTicks,
    decide_true, Bool.and_self, Bool.true_and, decide_eq_true_eq, Nat.reduceLeDiff]

end

/-- Settles O36: QUOTA_MET meters its record (`Session.count_reached`), and SATISFIED checks it
(`Session.checkSatisfied_ends`). -/
theorem quotaAndSatisfactionEndTheCharge : Obligations.QuotaAndSatisfactionEndTheCharge := by
  unfold Obligations.QuotaAndSatisfactionEndTheCharge
  refine ⟨?quotaMet, ?satisfied⟩
  case quotaMet =>
    intro s k r b x q settled hr engaged hb hx hq before
    dsimp only
    intro reaches
    have metered := Part.quotaEvent_meters hr engaged hb hx hq before reaches
    have told := s.part.meterSlot_tellsShare k
    rw [← metered] at told
    have stored := Part.updSession_record hr hx
      (fun x => x.meter r.quota (s.part.bay b).reading (s.part.feeder (s.part.bay b).feeder).voltage)
    rw [← Part.meterSlot_engaged hr engaged hb, ← metered, hq] at stored
    obtain ⟨n, kept⟩ := (State.complete_clearsNotice (s := s.onPart (fun p => p.quotaEvent k))
      (told.work.trans settled)).record_some stored
    have reached := Session.count_reached (x := x.remaining (s.part.bay b).reading
      (s.part.feeder (s.part.bay b).feeder).voltage) before reaches
    have ends := Session.count_ends (x := x.remaining (s.part.bay b).reading
      (s.part.feeder (s.part.bay b).feeder).voltage) before reaches
    rw [← Session.meter_eq] at reached ends
    obtain ⟨within, excess, residue, seen⟩ := reached
    refine ⟨_, _, x.meter (some q) _ _, withSlot_onPart Part.quotaEvent, kept, ?_, within, excess, residue, seen, ?_, ends⟩
    · split <;> rfl
    · split <;> rfl
  case satisfied =>
    intro s k r b x settled hr engaged hb hx charge limit reading
    have unused := And.intro charge (And.intro limit reading)
    have event := Part.satisfiedEvent_eq hr engaged hb hx unused
    have done := withSlot_onPart (s := s) (k := k) Part.satisfiedEvent
    refine ⟨fun last => ?ends, fun early => ?early⟩
    case early =>
      rw [if_neg (Nat.not_le.2 early)] at event
      rw [State.onPart, event] at done
      exact done
    case ends =>
      rw [if_pos last] at event
      have told := s.part.checkSlot_tellsShare k
      rw [← event] at told
      have settled' := told.work.trans settled
      have checked := Part.checkSlot_engaged hr engaged hb
      have ended := Session.checkSatisfied_ends unused last
      have stored := Part.updSession_record hr hx
        (fun x => x.checkSatisfied (s.part.bay b).limit (s.part.bay b).reading)
      have due := Part.updSession_due (g := fun x => x.checkSatisfied (s.part.bay b).limit (s.part.bay b).reading) hr hx hb
        (x.checkSatisfied_isOverstay _ _) (by rw [ended, charge]; exact nofun)
      rw [← checked, ← event] at stored due
      rw [ended] at stored
      obtain ⟨n, kept⟩ := (State.complete_clearsNotice (s := s.onPart (fun p => p.satisfiedEvent k)) settled').record_some
        stored
      refine ⟨_, _, done, kept, ?_, ?_⟩
      · split <;> rfl
      · rw [Part.recomputeDue_of_quiet (State.complete_quiet (s := s.onPart (fun p => p.satisfiedEvent k)) settled')]
        exact due

/-! ## O49: what a valid reply does to a session (R119, R124, R126) -/

section
variable {p : Part} {b : BayId} {k : SlotId} {r : Record} {x y : Session} {z : Settle} {v : SocketReading}
  {changed : Bool} {g : Session → Session}

/-- A session change to another phase, as its record shows it (R117). -/
theorem Part.updSession_becomes (hr : p.record k = some r) (hx : r.session = some x) (hy : g x = y)
    (phase : x.phase ≠ y.phase) :
    ∃ r', (p.updSession k g).record k = some r' ∧ r'.session = some y ∧ r'.state = r.state ∧ r'.lastCause = .session ∧
      r'.notice = true := by
  subst hy
  exact ⟨_, Part.updSession_reported hr hx (Session.reports_of_phase phase), rfl, rfl, rfl, rfl⟩

theorem Session.plugIn_full {quota : Option Nat} (waits : x.phase = .plugWait) (full : quota = some x.within)
    (penalty : Nat) : x.plugIn quota penalty = { x with phase := .quotaMet, satisfied := 0 } := by
  have holds : x.quotaFull quota = true := by simp [Session.quotaFull, full]
  simp only [Session.plugIn, waits, holds, if_true]

theorem Session.plugIn_charges {quota : Option Nat} (waits : x.phase = .plugWait) (short : quota ≠ some x.within)
    (penalty : Nat) : x.plugIn quota penalty = { x with satisfied := 0 }.intoCharge penalty := by
  have fails : x.quotaFull quota = false := by simp [Session.quotaFull, short]
  rw [← Session.intoCharge_satisfied]
  simp only [Session.plugIn, waits, fails, Bool.false_eq_true, if_false]

theorem Session.plugOut_eq (h : x.phase = .charge ∨ x.phase = .paused ∨ x.phase = .quotaMet ∨ x.phase = .satisfied) :
    x.plugOut = { x with phase := .plugWait, satisfied := 0, pause := .none } := by
  rcases h with h | h | h | h <;> simp only [Session.plugOut, h]

theorem Part.sessionReply_settles (occupant : p.occupant b = some k) (hr : p.record k = some r) (hx : r.session = some x)
    (settling : x.phase = .settling) (hz : x.settle = some z) (low : v.reading < 10) :
    p.sessionReply b v changed = p.closeRecord k .complete z.cause.closedBy := by
  simp only [Part.sessionReply, occupant, hr, hx, settling, hz, low, if_true]

theorem Part.sessionReply_draws (occupant : p.occupant b = some k) (hr : p.record k = some r) (hx : r.session = some x)
    (settling : x.phase = .settling) (high : 10 ≤ v.reading) : p.sessionReply b v changed = p := by
  simp only [Part.sessionReply, occupant, hr, hx, settling, if_true]
  split
  · exact if_neg (Nat.not_lt.2 high)
  · rfl

theorem Part.sessionReply_departs (occupant : p.occupant b = some k) (hr : p.record k = some r) (hx : r.session = some x)
    (settling : x.phase ≠ .settling) (vacant : v.occupied = false) (unplugged : v.plugged = false) :
    p.sessionReply b v changed = p.settle k .departed := by
  simp only [Part.sessionReply, occupant, hr, hx, settling, vacant, unplugged, Bool.not_false, Bool.and_self, if_true,
    if_false]

/-- A bay that still reads a vehicle or a plug has a plug event at most (R119). -/
theorem Part.sessionReply_stays (occupant : p.occupant b = some k) (hr : p.record k = some r) (hx : r.session = some x)
    (settling : x.phase ≠ .settling) (present : v.occupied = true ∨ v.plugged = true) :
    p.sessionReply b v changed = if changed then
      p.updSession k (fun y => if v.plugged then y.plugIn r.quota (p.bay b).penalty else y.plugOut) else p := by
  have stays : (!v.occupied && !v.plugged) = false := by
    rcases present with h | h <;> simp [h]
  simp only [Part.sessionReply, occupant, hr, hx, settling, stays, Bool.false_eq_true, if_false]

end

/-! ## O49: occupancy events (R97 to R99, R101) -/

theorem find?_eq_of_unique {α : Type} {f : α → Bool} {l : List α} {a : α} (mem : a ∈ l) (here : f a = true)
    (others : ∀ j ∈ l, j ≠ a → f j = false) : l.find? f = some a := by
  obtain ⟨j, found⟩ := Option.isSome_iff_exists.1 (List.find?_isSome.2 ⟨a, mem, here⟩)
  by_cases e : j = a
  · rw [found, e]
  · exact nomatch (others j (List.mem_of_find?_eq_some found) e).symm.trans (List.find?_some found)

section
variable {p : Part} {b c : BayId} {j k : SlotId} {r : Record} {cause : LastCause}

theorem Part.derive_bay (p : Part) (b j : BayId) : ∃ condition notice,
    (p.derive b).bay j = { p.bay j with condition := condition, notice := notice } :=
  ⟨_, _, (p.derive_tidies (linked := true) b).bay_eq j⟩

theorem Part.derive_verify (p : Part) (b j : BayId) : ((p.derive b).bay j).verify = (p.bay j).verify := by
  obtain ⟨_, _, bay⟩ := p.derive_bay b j
  rw [bay]

theorem Part.derive_penalty (p : Part) (b j : BayId) : ((p.derive b).bay j).penalty = (p.bay j).penalty := by
  obtain ⟨_, _, bay⟩ := p.derive_bay b j
  rw [bay]

theorem Part.derive_pool (p : Part) (b : BayId) : (p.derive b).pool = p.pool := Part.deriveWith_pool true p b

theorem Part.engage_eq (hr : p.record k = some r) (hb : r.bay = some b) :
    p.engage k cause = (p.engaging k r b cause).derive b := by
  rw [Part.engage, hr]
  dsimp only
  rw [hb]
  rfl

theorem Part.engaging_bay (p : Part) (k : SlotId) (r : Record) (b j : BayId) (cause : LastCause) :
    (p.engaging k r b cause).bay j = if j = b then { p.bay b with verify := .idle } else p.bay j := by
  rw [Part.engaging, Part.shareChanged_bay, Part.bay_modBay, Part.put_bay, Part.put_bay]

theorem Part.engaging_record (p : Part) (k j : SlotId) (r : Record) (b : BayId) (cause : LastCause) :
    (p.engaging k r b cause).record j = if j = k then
      some (r.engagedBy cause (Session.start (p.plugOf b) (p.bay b).penalty p.now)) else p.record j := by
  rw [Part.engaging, Part.shareChanged_record, Part.modBay_record, Part.record_put]

/-- An engagement stores the record and stops the bay's verify timer (R101). -/
theorem Part.engage_gives (hr : p.record k = some r) (hb : r.bay = some b) :
    (p.engage k cause).record k =
        some (r.engagedBy cause (Session.start (p.plugOf b) (p.bay b).penalty p.now)) ∧
      ((p.engage k cause).bay b).verify = .idle := by
  rw [Part.engage_eq hr hb, Part.derive_record, Part.derive_verify, Part.engaging_record, Part.engaging_bay]
  exact ⟨if_pos rfl, by rw [if_pos rfl]⟩

theorem Part.occupied_of_occupant (h : p.occupant b ≠ none) : p.occupied b = p := by
  obtain ⟨k, occupant⟩ := Option.ne_none_iff_exists'.1 h
  simp only [Part.occupied, occupant]

theorem Part.vacated_of_occupant (h : p.occupant b ≠ none) : p.vacated b = p := by
  obtain ⟨k, occupant⟩ := Option.ne_none_iff_exists'.1 h
  simp only [Part.vacated, occupant]

theorem Part.vacated_of_empty (h : p.occupant b = none) :
    p.vacated b = p.modBay b (fun x => { x with verify := .idle }) := by
  simp only [Part.vacated, h]

/-- A vehicle that no record awaits starts an IDLE verify timer (R98). -/
theorem Part.occupied_unawaited (empty : p.occupant b = none)
    (unawaited : ∀ k ∈ p.chain b, p.recordIs (fun r => r.state = .arriving) k = false) :
    p.occupied b = if (p.bay b).verify = .idle then
      p.modBay b (fun x => { x with verify := .running (p.now + p.settings.verifyWindow) }) else p := by
  have unfound : (p.chain b).find? (p.recordIs (fun r => r.state = .arriving)) = none :=
    List.find?_eq_none.2 fun k mem => by rw [unawaited k mem]; exact nofun
  simp only [Part.occupied, empty, unfound]
  cases (p.bay b).verify <;> rfl

/-- A vehicle engages the record that awaits it (R98, R101). -/
theorem Part.occupied_awaited (empty : p.occupant b = none) (mem : k ∈ p.chain b) (hr : p.record k = some r)
    (arriving : r.state = .arriving)
    (alone : ∀ j ∈ p.chain b, j ≠ k → p.recordIs (fun r => r.state = .arriving) j = false) :
    p.occupied b = p.engage k .occupancy := by
  have found := find?_eq_of_unique (f := p.recordIs (fun r => r.state = .arriving)) mem
    (by simp [Part.recordIs, hr, arriving]) alone
  simp only [Part.occupied, empty, found]

/-- What a report of OCCUPIED can do: nothing, a write of the bay's verify timer, or the engagement of an ARRIVING record
(R98). -/
theorem Part.occupied_cases (p : Part) (b : BayId) :
    p.occupied b = p ∨ (∃ timer, p.occupied b = p.modBay b (fun x => { x with verify := timer })) ∨
      ∃ k r c, p.record k = some r ∧ r.state = .arriving ∧ p.occupied b = (p.engaging k r c .occupancy).derive c := by
  unfold Part.occupied
  split
  · exact .inl rfl
  · split
    · next k found =>
      obtain ⟨r, hr, arriving⟩ := Part.recordIs_find found
      cases hb : r.bay with
      | none =>
        refine .inl ?_
        rw [Part.engage, hr]
        dsimp only
        rw [hb]
      | some c => exact .inr (.inr ⟨k, r, c, hr, of_decide_eq_true arriving, Part.engage_eq hr hb⟩)
    · split
      · exact .inr (.inl ⟨_, rfl⟩)
      · exact .inl rfl
      · exact .inl rfl

theorem Part.occupied_penalty (p : Part) (b c : BayId) : ((p.occupied b).bay c).penalty = (p.bay c).penalty := by
  rcases p.occupied_cases b with same | ⟨timer, timed⟩ | ⟨k, r, d, _, _, engaged⟩
  · rw [same]
  · rw [timed, Part.bay_modBay]
    split
    · next e => rw [e]
    · rfl
  · rw [engaged, Part.derive_penalty, Part.engaging_bay]
    split
    · next e => rw [e]
    · rfl

theorem Part.occupied_record (hr : p.record k = some r) (state : r.state ≠ .arriving) (b : BayId) :
    (p.occupied b).record k = some r := by
  rcases p.occupied_cases b with same | ⟨timer, timed⟩ | ⟨j, y, c, hy, arriving, engaged⟩
  · rw [same, hr]
  · rw [timed, Part.modBay_record, hr]
  · have other : k ≠ j := by
      rintro rfl
      cases hr.symm.trans hy
      exact state arriving
    rw [engaged, Part.derive_record, Part.engaging_record, if_neg other, hr]

theorem Part.occupancyEvent_occupied (p : Part) (b : BayId) : p.occupancyEvent b true = (p.occupied b).derive b := rfl

theorem Part.occupancyEvent_vacant (p : Part) (b : BayId) : p.occupancyEvent b false = (p.vacated b).derive b := rfl

theorem Session.start_engaged (plug : Plug) (penalty now : Nat) : (Session.start plug penalty now).engaged = now := by
  unfold Session.start Session.intoCharge
  repeat' split
  all_goals rfl

theorem Session.start_phase (plug : Plug) (penalty now : Nat) : (Session.start plug penalty now).phase =
    if plug = .plugged then (if 0 < penalty then .paused else .charge) else .plugWait := by
  unfold Session.start Session.intoCharge
  repeat' split
  all_goals rfl

end

/-! ## O49: the close of an ENGAGED record (R41, R102) -/

/-- The part after an ENGAGED record of bay `b` has closed and the bay's penalty has ended; a departure has not been
followed yet, and the bay's condition is not derived yet. -/
def Part.leaving (p : Part) (k : SlotId) (r : Record) (b : BayId) (result : Result) (closedBy : ClosedBy) : Part :=
  ((p.put k (r.closed (p.pool.handle k) p.now result closedBy)).retryDue.modBay b
    (fun x => { x with penalty := 0 })).shareChanged (p.bay b).feeder

section
variable {p : Part} {b : BayId} {j k : SlotId} {r : Record} {result : Result} {closedBy : ClosedBy}

theorem Part.leaving_bay (p : Part) (k : SlotId) (r : Record) (b : BayId) (result : Result) (closedBy : ClosedBy) :
    (p.leaving k r b result closedBy).bay b = { p.bay b with penalty := 0 } := by
  rw [Part.leaving, Part.shareChanged_bay, Part.bay_modBay_same, Part.retryDue_bay, Part.put_bay]

theorem Part.leaving_occupancyOf (p : Part) (k : SlotId) (r : Record) (b : BayId) (result : Result)
    (closedBy : ClosedBy) : (p.leaving k r b result closedBy).occupancyOf b = p.occupancyOf b := by
  have post (a : PostId) : (p.leaving k r b result closedBy).post a = p.post a := by
    rw [Part.leaving, Part.shareChanged_post, Part.modBay_post, Part.retryDue_post, Part.post, Part.put_posts, Part.post]
  rw [Part.occupancyOf, Part.serviceable, p.leaving_bay, post]
  rfl

theorem Part.leaving_record (p : Part) (k j : SlotId) (r : Record) (b : BayId) (result : Result) (closedBy : ClosedBy) :
    (p.leaving k r b result closedBy).record j =
      if j = k then some (r.closed (p.pool.handle k) p.now result closedBy) else p.record j := by
  rw [Part.leaving, Part.shareChanged_record, Part.modBay_record, Part.retryDue_record, Part.record_put]

theorem Part.leaving_now (p : Part) (k : SlotId) (r : Record) (b : BayId) (result : Result) (closedBy : ClosedBy) :
    (p.leaving k r b result closedBy).now = p.now := by
  rw [Part.leaving, Part.now, Part.shareChanged_clock, Part.modBay_clock, Part.retryDue_clock, Part.put_clock, Part.now]

theorem Part.leaving_settings (p : Part) (k : SlotId) (r : Record) (b : BayId) (result : Result)
    (closedBy : ClosedBy) : (p.leaving k r b result closedBy).settings = p.settings := by
  rw [Part.leaving, Part.shareChanged_settings, Part.modBay_settings, Part.retryDue_settings, Part.put_settings]

theorem Part.mem_leaving_chain (hr : p.record k = some r) (engaged : r.state = .engaged) (hb : r.bay = some b) :
    j ∈ (p.leaving k r b result closedBy).chain b ↔ j ∈ p.chain b ∧ j ≠ k := by
  have home : p.pool.homeOf k = .chain b :=
    (Pool.homeOf_record hr).trans (Record.home_of_bay (by rw [engaged]; rfl) hb)
  have left := Pool.members_put_away p.pool k (r.closed (p.pool.handle k) p.now result closedBy) (.chain b)
    nofun (home ▸ nofun)
  rw [Part.leaving, Part.shareChanged_chain, Part.modBay_chain, Part.retryDue_chain, Part.chain, Part.put_pool]
  rw [show Vector.get (p.pool.put k _).chains b = _ from left, List.mem_filter, home]
  simp [Part.chain, Pool.members]

theorem Part.leaving_recordIs (test : Record → Bool) (ne : j ≠ k) :
    (p.leaving k r b result closedBy).recordIs test j = p.recordIs test j := by
  rw [Part.recordIs, Part.leaving_record, if_neg ne, Part.recordIs]

/-- The close of an ENGAGED record: its bay is left, and by a departure from under a vehicle that is still reported it
reads OCCUPIED anew (R102). -/
theorem Part.closeRecord_engaged (hr : p.record k = some r) (engaged : r.state = .engaged) (hb : r.bay = some b)
    (result : Result) (closedBy : ClosedBy) :
    p.closeRecord k result closedBy =
      (if closedBy = .departed ∧ p.occupancyOf b = .occupied then (p.leaving k r b result closedBy).occupied b
        else p.leaving k r b result closedBy).derive b := by
  have occupancy := p.leaving_occupancyOf k r b result closedBy
  unfold Part.leaving at occupancy ⊢
  simp only [Part.closeRecord, hr, engaged, hb, RecState.chained, Bool.not_true, Bool.false_eq_true, if_false, if_true,
    decide_true, Bool.true_and, occupancy, Bool.and_eq_true, decide_eq_true_eq]

/-- The record that any close of an ENGAGED record leaves. -/
theorem Part.closeRecord_closes (hr : p.record k = some r) (engaged : r.state = .engaged) (result : Result)
    (closedBy : ClosedBy) :
    (p.closeRecord k result closedBy).record k = some (r.closed (p.pool.handle k) p.now result closedBy) := by
  cases hb : r.bay with
  | none =>
    simp only [Part.closeRecord, hr, hb, ite_self]
    exact p.record_put_self k _
  | some b =>
    have left : (p.leaving k r b result closedBy).record k = _ := (p.leaving_record k k r b result closedBy).trans (if_pos rfl)
    rw [Part.closeRecord_engaged hr engaged hb, Part.derive_record]
    split
    · exact Part.occupied_record left nofun b
    · exact left

/-- A bay whose only ENGAGED record has closed has no occupant (R96). -/
theorem Part.leaving_occupant (hr : p.record k = some r) (engaged : r.state = .engaged) (hb : r.bay = some b)
    (sole : ∀ j ∈ p.chain b, j ≠ k → p.recordIs (fun y => y.state = .engaged) j = false) :
    (p.leaving k r b result closedBy).occupant b = none := by
  refine List.find?_eq_none.2 fun j mem => ?_
  obtain ⟨mem, ne⟩ := (Part.mem_leaving_chain hr engaged hb).1 mem
  rw [Part.leaving_recordIs _ ne, sole j mem ne]
  exact nofun

end

theorem SettleCause.closedBy_eq (cause : SettleCause) : cause.closedBy = (match cause with
    | .departed => .departed
    | .host => .host
    | .service => .service) := by
  cases cause <;> rfl

/-- Settles O49: a reply by the branches of `Part.sessionReply`, an occupancy event by those of `Part.occupied`, and the
close of an ENGAGED record by `Part.closeRecord_engaged`. -/
theorem repliesPlugSettleAndCompleteSessions : Obligations.RepliesPlugSettleAndCompleteSessions := by
  unfold Obligations.RepliesPlugSettleAndCompleteSessions
  refine ⟨?reply, ?occupancy, ?close⟩
  case reply =>
    intro p b v changed k r x occupant hr hx
    dsimp only
    have engaged : r.state = .engaged := by
      obtain ⟨r', hr', engaged⟩ := Part.occupant_engaged occupant
      exact Option.some.inj (hr.symm.trans hr') ▸ engaged
    refine ⟨fun z settling hz low => ?_, Part.sessionReply_draws occupant hr hx, fun settling vacant unplugged => ?_,
      fun waits plugged turned => ?_, fun phase occupied unplugged turned => ?_, fun settling present same => ?_⟩
    · rw [Part.sessionReply_settles occupant hr hx settling hz low]
      obtain ⟨_, within, excess, _⟩ :=
        Record.summary_of_session hx (p.pool.handle k) p.now .complete z.cause.closedBy
      exact ⟨_, _, Part.closeRecord_closes hr engaged _ _, rfl, rfl, rfl, within, excess,
        SettleCause.closedBy_eq z.cause⟩
    · rw [Part.sessionReply_departs occupant hr hx settling vacant unplugged]
      exact Part.updSession_becomes hr hx rfl settling
    · rw [Part.sessionReply_stays occupant hr hx (waits ▸ nofun) (.inr plugged), turned, plugged]
      simp only [if_true]
      refine ⟨fun full => Part.updSession_becomes hr hx (Session.plugIn_full waits full _) (waits ▸ nofun),
        fun short ended => Part.updSession_becomes hr hx ((Session.plugIn_charges waits short _).trans ?_) (waits ▸ nofun),
        fun short runs => Part.updSession_becomes hr hx ((Session.plugIn_charges waits short _).trans ?_) (waits ▸ nofun)⟩
      · rw [Session.intoCharge_eq, ended, if_neg (by decide)]
      · rw [Session.intoCharge_eq, if_pos runs]
    · have settling : x.phase ≠ .settling := by rcases phase with h | h | h | h <;> exact h ▸ nofun
      have elsewhere : x.phase ≠ .plugWait := by rcases phase with h | h | h | h <;> exact h ▸ nofun
      rw [Part.sessionReply_stays occupant hr hx settling (.inl occupied), turned, unplugged]
      exact Part.updSession_becomes hr hx (Session.plugOut_eq phase) elsewhere
    · rw [Part.sessionReply_stays occupant hr hx settling present, same]
      rfl
  case occupancy =>
    intro p b occupied
    dsimp only
    refine ⟨?_, fun busy => ?_, fun empty vacant => ?_, fun empty here unawaited => ?_,
      fun k r empty here mem hr arriving hb alone => ?_⟩
    · unfold Part.occupancyEvent
      rw [Part.derive_condition, Part.conditionOf_derive]
    · have same : p.occupancyEvent b occupied = p.derive b := by
        cases occupied with
        | true => rw [Part.occupancyEvent_occupied, Part.occupied_of_occupant busy]
        | false => rw [Part.occupancyEvent_vacant, Part.vacated_of_occupant busy]
      rw [same]
      exact ⟨p.derive_verify b b, p.derive_pool b⟩
    · rw [vacant, Part.occupancyEvent_vacant, Part.vacated_of_empty empty, Part.derive_verify, Part.derive_pool,
        Part.bay_modBay_same]
      exact ⟨rfl, rfl⟩
    · rw [here, Part.occupancyEvent_occupied, Part.occupied_unawaited empty unawaited, Part.derive_verify, Part.derive_pool]
      split
      · rw [Part.bay_modBay_same]
        exact ⟨rfl, rfl⟩
      · exact ⟨rfl, rfl⟩
    · obtain ⟨record, verify⟩ := Part.engage_gives (cause := .occupancy) hr hb
      rw [here, Part.occupancyEvent_occupied, Part.occupied_awaited empty mem hr arriving alone, Part.derive_verify,
        Part.derive_record]
      exact ⟨verify, _, record, Session.start_engaged _ _ _, Session.start_phase _ _ _⟩
  case close =>
    intro p b k r result closedBy _ hr engaged hb sole
    have closing := Part.closeRecord_closes hr engaged result closedBy
    have close := Part.closeRecord_engaged hr engaged hb result closedBy
    have empty := Part.leaving_occupant (result := result) (closedBy := closedBy) hr engaged hb sole
    have now := p.leaving_now k r b result closedBy
    have settings := p.leaving_settings k r b result closedBy
    have bay := p.leaving_bay k r b result closedBy
    have others (j : SlotId) (ne : j ≠ k) : (p.leaving k r b result closedBy).record j = p.record j :=
      (p.leaving_record k j r b result closedBy).trans (if_neg ne)
    have chain (j : SlotId) := Part.mem_leaving_chain (j := j) (result := result) (closedBy := closedBy) hr engaged hb
    have tests (test : Record → Bool) (j : SlotId) (ne : j ≠ k) :=
      Part.leaving_recordIs (p := p) (r := r) (b := b) (result := result) (closedBy := closedBy) test ne
    dsimp only
    generalize p.leaving k r b result closedBy = u at close empty now settings bay others chain tests
    refine ⟨?ends, ⟨_, closing, rfl⟩, fun stays => ?stays, fun next unawaited => ?unawaited,
      fun j y next mem hy arriving hyb alone => ?awaited⟩
    case ends =>
      rw [close, Part.derive_penalty]
      split
      · rw [Part.occupied_penalty, bay]
      · rw [bay]
    case stays =>
      rw [close, if_neg stays]
      refine ⟨by rw [Part.derive_verify, bay], fun j ne => ?_⟩
      rw [Part.derive_record, others j ne]
    case unawaited =>
      have left := Part.occupied_unawaited empty fun j mem => by
        obtain ⟨mem, ne⟩ := (chain j).1 mem
        rw [tests _ j ne, unawaited j mem]
      rw [bay, now, settings] at left
      rw [close, if_pos next, left]
      refine ⟨fun j ne => ?_, ?_⟩
      · rw [Part.derive_record, ← others j ne]
        split <;> rfl
      · rw [Part.derive_verify]
        split
        · rw [Part.bay_modBay_same]
        · rw [bay]
    case awaited =>
      have ne : j ≠ k := by
        rintro rfl
        cases hr.symm.trans hy
        cases engaged.symm.trans arriving
      have stored := (others j ne).trans hy
      obtain ⟨record, verify⟩ := Part.engage_gives (cause := .occupancy) stored hyb
      rw [close, if_pos next, Part.occupied_awaited empty ((chain j).2 ⟨mem, ne⟩) stored arriving fun i mem other => by
        obtain ⟨mem, ne⟩ := (chain i).1 mem
        rw [tests _ i ne, alone i mem other]]
      rw [Part.derive_verify, Part.derive_record]
      exact ⟨verify, _, record, (Session.start_engaged _ _ _).trans now⟩

end Sys2Proof.Machine

namespace Sys2Proof.Machine

/-! ## O25: FEEDER-CLEAR -/

section
variable {p : Part} {f : FeederId}

theorem Part.clearFlagsRequest_range {n set : Nat} (h : 7 < n ∨ 15 < set) :
    p.clearFlagsRequest (n, set) = (⟨.range, []⟩, p) := by
  rcases h with h | h
  · simp only [Part.clearFlagsRequest, fin?_of_le h, Status.alone]
  · have none : Sticky.ofCode set = none := if_neg (Nat.not_lt.2 h)
    cases hf : fin? 8 n <;> simp only [Part.clearFlagsRequest, hf, none, Status.alone]

theorem Part.clearFlagsRequest_ok (set : Byte) (h : set.toNat ≤ 15) :
    p.clearFlagsRequest (f.val, set.toNat) =
      let x := p.feeder f
      let left : Sticky := ⟨x.sticky.tripSeen && !set.getLsbD 0, x.sticky.shortfall && !set.getLsbD 1,
        x.sticky.overdraw && !set.getLsbD 2, x.sticky.meterGap && !set.getLsbD 3⟩
      (⟨.ok, u8 left.code⟩, p.setFeeder f { x with sticky := left }) := by
  have named : Sticky.ofCode set.toNat = some ⟨set.getLsbD 0, set.getLsbD 1, set.getLsbD 2, set.getLsbD 3⟩ :=
    if_pos (Nat.lt_succ_of_le h)
  simp only [Part.clearFlagsRequest, fin?_val, named, Part.modFeeder, Part.feeder_setFeeder_same, Answer.ok,
    Sticky.without]

end

/-- Settles O25: the request is refused, or clears the named flags of one feeder and leaves nothing to complete. -/
theorem feederClearClearsTheNamedFlags : Obligations.FeederClearClearsTheNamedFlags := by
  unfold Obligations.FeederClearClearsTheNamedFlags
  intro s f rest ng set settled asks
  have read : Rd.byteByte.all [ng, set] = some (ng.toNat, set.toNat) := rfl
  refine ⟨fun h => ?range, fun g hg hset => ?clears⟩
  case range => exact State.serve_unchanged settled asks rfl read (Part.clearFlagsRequest_range h)
  case clears =>
    rw [hg] at read
    exact State.serve_settled settled asks rfl read (Part.clearFlagsRequest_ok set hset) rfl

/-! ## O24: FEEDER-TRIM -/

section
variable {p : Part} {f : FeederId} {trim : Nat}

theorem Part.trimRequest_range {n : Nat} (h : 7 < n ∨ 20000 < trim) : p.trimRequest (n, trim) = (⟨.range, []⟩, p) := by
  unfold Part.trimRequest
  split
  · rfl
  · next hf =>
    have above : 20000 < trim := h.resolve_left (fun h => by rw [fin?_of_le h] at hf; cases hf)
    exact if_pos above

theorem Part.trimRequest_same (h : trim ≤ 20000) (same : (p.feeder f).trim = trim) :
    p.trimRequest (f.val, trim) = (⟨.ok, u16 trim ++ u16 (p.feeder f).available⟩, p) := by
  simp only [Part.trimRequest, fin?_val, Nat.not_lt.2 h, same, if_true, if_false, Answer.ok]

/-- A recompute leaves the trim that has been stored, and what the available current is read from (R136, R137). -/
theorem Part.trimRequest_changes (h : trim ≤ 20000) (ne : (p.feeder f).trim ≠ trim) :
    p.trimRequest (f.val, trim) =
      (⟨.ok, u16 trim ++ u16 { p.feeder f with trim := trim }.available⟩,
        (p.setFeeder f { p.feeder f with trim := trim, notice := true }).recompute f) := by
  have stays := p.setFeeder_recompute_stays f { p.feeder f with trim := trim, notice := true }
  have kept : (((p.setFeeder f { p.feeder f with trim := trim, notice := true }).recompute f).feeder f).trim = trim :=
    congrArg (fun c => c.2.1) stays.config
  have limit := congrArg Prod.fst stays.config
  simp only [Part.trimRequest, fin?_val, Nat.not_lt.2 h, ne, if_false, Answer.ok, Part.modFeeder,
    Feeder.available, kept, stays.state]
  rw [show (((p.setFeeder f { p.feeder f with trim := trim, notice := true }).recompute f).feeder f).limit =
    (p.feeder f).limit from limit]

end

/-- Settles O24: the outcomes of `Part.trimRequest`; a recompute leaves the stored trim, the limit and the state
(`Feeder.Stays`), from which the reply reads the available current. -/
theorem feederTrimStoresAndRecomputes : Obligations.FeederTrimStoresAndRecomputes := by
  unfold Obligations.FeederTrimStoresAndRecomputes
  intro s f rest ng h1 h0 settled asks
  have read : Rd.byteWord.all [ng, h1, h0] = some (ng.toNat, h1.toNat * 256 + h0.toNat) := rfl
  refine ⟨fun h => ?range, fun g hg ht => ?trims⟩
  case range => exact State.serve_unchanged settled asks rfl read (Part.trimRequest_range h)
  case trims =>
    rw [hg] at read
    refine ⟨fun same => ?_, fun ne => State.serve_gives asks rfl read (Part.trimRequest_changes ht ne)⟩
    rw [← same]
    exact State.serve_unchanged settled asks rfl (same.symm ▸ read) (Part.trimRequest_same (same ▸ ht) rfl)

end Sys2Proof.Machine

namespace Sys2Proof.Machine

/-! ## The order of admission (R140) -/

theorem insertBefore_perm {α : Type} (before : α → Bool) (x : α) (l : List α) :
    (insertBefore before x l).Perm (x :: l) := by
  induction l with
  | nil => exact .refl _
  | cons y ys ih =>
    unfold insertBefore
    split
    · exact .refl _
    · exact (ih.cons y).trans (.swap x y ys)

theorem admissionOrder_perm (d : List Member) : (admissionOrder d).Perm d := by
  induction d with
  | nil => exact .refl _
  | cons m d ih => exact (insertBefore_perm _ _ _).trans (ih.cons m)

theorem Member.before_iff (a b : Member) : a.before b = true ↔
    b.priority < a.priority ∨ (b.priority = a.priority ∧
      (a.engaged < b.engaged ∨ (b.engaged = a.engaged ∧ a.bay < b.bay))) := by
  simp only [Member.before, Bool.or_eq_true, Bool.and_eq_true, decide_eq_true_eq, gt_iff_lt, eq_comm (a := a.priority),
    eq_comm (a := a.engaged)]

theorem Member.before_trans {a b c : Member} (h : a.before b = true) (h' : b.before c = true) : a.before c = true := by
  rw [Member.before_iff, Fin.lt_def] at h h' ⊢
  omega

theorem Member.before_total {a b : Member} (ne : a.bay ≠ b.bay) (h : a.before b = false) : b.before a = true := by
  rw [← Bool.not_eq_true, Member.before_iff, Fin.lt_def] at h
  rw [Member.before_iff, Fin.lt_def]
  rw [ne_eq, Fin.ext_iff] at ne
  omega

/-- Members of different bays stand in the order of admission. -/
theorem admissionOrder_sorted {d : List Member} (bays : (d.map (·.bay)).Nodup) :
    (admissionOrder d).Pairwise (fun a b => a.before b = true) := by
  induction d with
  | nil => exact .nil
  | cons m d ih =>
    obtain ⟨fresh, bays⟩ := List.nodup_cons.1 bays
    have ne : ∀ a ∈ admissionOrder d, m.bay ≠ a.bay := fun a ha e =>
      fresh (List.mem_map.2 ⟨a, (admissionOrder_perm d).mem_iff.1 ha, e.symm⟩)
    exact insertBefore_pairwise (ih bays) (fun a ha h => Member.before_total (ne a ha) h) (fun a _ h => h)
      (fun a _ b _ h h' => Member.before_trans h' h)

/-! ## The admitted members (R140) -/

/-- In a list without equal keys, the members that share their key with one of the first `n` are the first `n`. -/
theorem filter_key_take {α β : Type} [DecidableEq β] (key : α → β) {l : List α} (keys : (l.map key).Nodup) (n : Nat) :
    l.filter (fun x => key x ∈ (l.take n).map key) = l.take n := by
  have apart : ((l.take n).map key).Disjoint ((l.drop n).map key) := by
    rw [← List.take_append_drop n l, List.map_append] at keys
    simpa using (List.disjoint_of_nodup_append keys)
  have first : (l.take n).filter (fun x => key x ∈ (l.take n).map key) = l.take n :=
    List.filter_eq_self.2 (fun x hx => decide_eq_true (List.mem_map_of_mem hx))
  have last : (l.drop n).filter (fun x => key x ∈ (l.take n).map key) = [] :=
    List.filter_eq_nil_iff.2 (fun x hx => by simpa using fun h => apart h (List.mem_map_of_mem hx))
  conv_lhs => arg 2; rw [← List.take_append_drop n l]
  rw [List.filter_append, first, last, List.append_nil]

/-- The members of a demanding set that a current admits. -/
def admittedMembers (available : Nat) (d : List Member) : List Member := d.filter (fun m => m.bay ∈ admitted available d)

section
variable {available : Nat} {d : List Member}

theorem admittedMembers_all (h : 60 * d.length ≤ available) : admittedMembers available d = d := by
  unfold admittedMembers admitted
  rw [if_pos h]
  exact List.filter_eq_self.2 (fun m hm => decide_eq_true (List.mem_map_of_mem hm))

/-- With less than 60 for every member, the first of the order of admission are admitted. -/
theorem admittedMembers_perm_take (bays : (d.map (·.bay)).Nodup) (h : ¬ 60 * d.length ≤ available) :
    (admittedMembers available d).Perm ((admissionOrder d).take (available / 60)) := by
  have order := admissionOrder_perm d
  have first := filter_key_take (·.bay) ((order.map _).nodup_iff.2 bays) (available / 60)
  unfold admittedMembers admitted
  rw [if_neg h]
  exact (order.symm.filter _).trans (.of_eq first)

theorem admittedMembers_length (bays : (d.map (·.bay)).Nodup) :
    (admittedMembers available d).length = min d.length (available / 60) := by
  by_cases h : 60 * d.length ≤ available
  · rw [admittedMembers_all h]
    omega
  · rw [(admittedMembers_perm_take bays h).length_eq, List.length_take, (admissionOrder_perm d).length_eq, Nat.min_comm]

theorem admittedMembers_current (bays : (d.map (·.bay)).Nodup) :
    60 * (admittedMembers available d).length ≤ available := by
  rw [admittedMembers_length bays]
  omega

/-- Every admitted member comes before every member that is not. -/
theorem admittedMembers_first (bays : (d.map (·.bay)).Nodup) {m n : Member} (hm : m ∈ d)
    (hn : n ∈ admittedMembers available d) (out : m ∉ admittedMembers available d) : n.before m = true := by
  by_cases h : 60 * d.length ≤ available
  · exact absurd (by rwa [admittedMembers_all h]) out
  · have first := admittedMembers_perm_take bays h
    have sorted := admissionOrder_sorted bays
    have listed := (admissionOrder_perm d).mem_iff.2 hm
    rw [← List.take_append_drop (available / 60) (admissionOrder d)] at sorted listed
    have later := (List.mem_append.1 listed).resolve_left (fun h => out (first.mem_iff.2 h))
    exact (List.pairwise_append.1 sorted).2.2 n (first.mem_iff.1 hn) m later

end

/-! ## The passes of the weighted shares (R141) -/

/-- The part of a current that a member's weight gives it, rounded down. -/
def Member.portion (m : Member) (left w : Nat) : Nat := left * m.weight / w

theorem portions_le (left w : Nat) (u : List Member) : (u.map (·.portion left w)).sum ≤ left * weightSum u / w := by
  induction u with
  | nil => exact Nat.zero_le _
  | cons m u ih =>
    have split : left * weightSum (m :: u) = left * m.weight + left * weightSum u := by simp [weightSum, Nat.mul_add]
    rw [List.map_cons, List.sum_cons, split]
    exact (Nat.add_le_add_left ih _).trans Nat.div_add_div_le_add_div

/-- The portions of all members together do not exceed what there is. -/
theorem portions_le_left (left : Nat) (u : List Member) : (u.map (·.portion left (weightSum u))).sum ≤ left := by
  refine (portions_le left _ u).trans ?_
  rcases Nat.eq_zero_or_pos (weightSum u) with h | h
  · simp [h]
  · rw [Nat.mul_div_cancel _ h]

theorem le_portions {w : Nat} (pos : 0 < w) (left : Nat) (u : List Member) :
    left * weightSum u ≤ ((u.map (·.portion left w)).sum + u.length) * w := by
  induction u with
  | nil => simp [weightSum]
  | cons m u ih =>
    have split : left * weightSum (m :: u) = left * m.weight + left * weightSum u := by simp [weightSum, Nat.mul_add]
    have one : left * m.weight ≤ (m.portion left w + 1) * w := ((Nat.div_lt_iff_lt_mul pos).1 (Nat.lt_succ_self _)).le
    calc left * weightSum (m :: u)
        ≤ (m.portion left w + 1) * w + ((u.map (·.portion left w)).sum + u.length) * w := split ▸ Nat.add_le_add one ih
      _ = (((m :: u).map (·.portion left w)).sum + (m :: u).length) * w := by
        rw [List.map_cons, List.sum_cons, List.length_cons]
        ring

/-- Each portion loses less than one unit, so that no more than a unit for each member is left over. -/
theorem left_le_portions {u : List Member} (weights : ∀ m ∈ u, 1 ≤ m.weight) (ne : u ≠ []) (left : Nat) :
    left ≤ (u.map (·.portion left (weightSum u))).sum + u.length := by
  obtain ⟨m, hm⟩ := List.exists_mem_of_ne_nil u ne
  have pos : 0 < weightSum u := (weights m hm).trans (List.le_sum_of_mem (List.mem_map_of_mem hm))
  exact Nat.le_of_mul_le_mul_right (le_portions pos left u) pos

/-- The members whose trial value reaches their cap. -/
def fullMembers (left : Nat) (u : List Member) : List Member := u.filter (fun m => m.cap ≤ m.trial left (weightSum u))

/-- The members whose trial value stays below their cap. -/
def openMembers (left : Nat) (u : List Member) : List Member := u.filter (fun m => m.trial left (weightSum u) < m.cap)

theorem full_append_open_perm (left : Nat) (u : List Member) : (fullMembers left u ++ openMembers left u).Perm u := by
  have other : openMembers left u = u.filter (fun m => !decide (m.cap ≤ m.trial left (weightSum u))) :=
    List.filter_congr (fun m _ => by simp only [← decide_not, not_le])
  rw [other]
  exact List.filter_append_perm _ u

/-- What the members at their caps take beyond 60 is at most what there is. -/
theorem fullMembers_caps_le (left : Nat) (u : List Member) :
    ((fullMembers left u).map (fun m => m.cap - 60)).sum ≤ left := by
  have portions := ((full_append_open_perm left u).map (·.portion left (weightSum u))).sum_eq
  have le := portions_le_left left u
  have each : ((fullMembers left u).map (fun m => m.cap - 60)).sum ≤
      ((fullMembers left u).map (·.portion left (weightSum u))).sum := by
    refine List.sum_le_sum (fun m hm => Nat.sub_le_iff_le_add'.2 ?_)
    exact of_decide_eq_true (List.mem_filter.1 hm).2
  rw [List.map_append, List.sum_append] at portions
  omega

section
variable {passes left : Nat} {u : List Member} {fixed : List Given}

theorem sharePasses_nil : sharePasses (passes + 1) left [] fixed = ⟨fixed, [], 0⟩ := rfl

/-- A pass that fixes none gives the trial values. -/
theorem sharePasses_last (ne : u ≠ []) (none : fullMembers left u = []) : sharePasses (passes + 1) left u fixed =
    ⟨fixed, u.map (fun m => (m.bay, m.trial left (weightSum u))),
      left - (u.map (·.portion left (weightSum u))).sum⟩ := by
  have full : (fullMembers left u).isEmpty = true := by rw [none]; rfl
  unfold sharePasses
  exact (if_neg (mt List.isEmpty_iff.1 ne)).trans (if_pos full)

/-- A pass that fixes some is followed by another over the rest. -/
theorem sharePasses_full (some : fullMembers left u ≠ []) : sharePasses (passes + 1) left u fixed =
    sharePasses passes (left - ((fullMembers left u).map (fun m => m.cap - 60)).sum) (openMembers left u)
      (fixed ++ (fullMembers left u).map (fun m => (m.bay, m.cap))) := by
  have full : ¬ (fullMembers left u).isEmpty = true := by simpa using some
  have ne : ¬ u.isEmpty = true := fun e => some (by rw [List.isEmpty_iff.1 e]; rfl)
  conv_lhs => unfold sharePasses
  exact (if_neg ne).trans (if_neg full)

end

/-- What the passes over the members `u` with `left` to give come to: `full` stand at their caps, `rest` at values from 60
to below their caps, and `left` is given out over the 60 of each but for the leftover, all of it unless every member
stands at its cap. -/
structure Shares.Divides (x : Shares) (left : Nat) (u : List Member) (fixed : List Given) (full rest : List Member)
    (value : Member → Nat) : Prop where
  members : (full ++ rest).Perm u
  fixed : x.fixed = fixed ++ full.map (fun m => (m.bay, m.cap))
  open_ : x.open_ = rest.map (fun m => (m.bay, value m))
  range : ∀ m ∈ rest, 60 ≤ value m ∧ value m < m.cap
  spent : (full.map (fun m => m.cap - 60)).sum + (rest.map (fun m => value m - 60)).sum + x.leftover ≤ left
  whole : rest ≠ [] →
    left = (full.map (fun m => m.cap - 60)).sum + (rest.map (fun m => value m - 60)).sum + x.leftover
  none : rest = [] → x.leftover = 0
  units : (∀ m ∈ u, 1 ≤ m.weight) → x.leftover ≤ rest.length

/-- The passes divide what is left, with a pass at hand for each member (R141). -/
theorem sharePasses_divides (passes left : Nat) (u : List Member) (fixed : List Given) (enough : u.length ≤ passes) :
    ∃ full rest value, (sharePasses passes left u fixed).Divides left u fixed full rest value := by
  induction passes generalizing left u fixed with
  | zero =>
    obtain rfl := List.length_eq_zero_iff.1 (Nat.le_zero.1 enough)
    exact ⟨[], [], fun _ => 0, .refl _, by simp [sharePasses], rfl, nofun, Nat.zero_le _, (absurd rfl ·), fun _ => rfl,
      fun _ => Nat.le_refl _⟩
  | succ passes ih =>
    by_cases ne : u = []
    · subst ne
      exact ⟨[], [], fun _ => 0, .refl _, by simp [sharePasses], rfl, nofun, Nat.zero_le _, (absurd rfl ·), fun _ => rfl,
        fun _ => Nat.le_refl _⟩
    have perm := full_append_open_perm left u
    by_cases none : fullMembers left u = []
    case pos =>
      rw [sharePasses_last ne none]
      have below : ∀ m ∈ u, m.trial left (weightSum u) < m.cap := by
        simpa [fullMembers, List.filter_eq_nil_iff] using none
      have values : u.map (fun m => m.trial left (weightSum u) - 60) = u.map (·.portion left (weightSum u)) :=
        List.map_congr_left (fun m _ => Nat.add_sub_cancel_left _ _)
      have le := portions_le_left left u
      refine ⟨[], u, fun m => m.trial left (weightSum u), .refl _, by simp, rfl,
        fun m hm => ⟨Nat.le_add_right _ _, below m hm⟩, ?_, fun _ => ?_, (absurd · ne), fun weights => ?_⟩
      · simp only [values, List.map_nil, List.sum_nil]
        omega
      · simp only [values, List.map_nil, List.sum_nil]
        omega
      · have := left_le_portions weights ne left
        dsimp only
        omega
    case neg =>
      rw [sharePasses_full none]
      have shorter : (openMembers left u).length ≤ passes := by
        have := perm.length_eq
        have := List.length_pos_of_ne_nil none
        rw [List.length_append] at *
        omega
      obtain ⟨full, rest, value, h⟩ := ih (left - ((fullMembers left u).map (fun m => m.cap - 60)).sum)
        (openMembers left u) (fixed ++ (fullMembers left u).map (fun m => (m.bay, m.cap))) shorter
      have caps := fullMembers_caps_le left u
      refine ⟨fullMembers left u ++ full, rest, value, ?_, ?_, h.open_, h.range, ?_, fun ne => ?_, h.none, ?_⟩
      · rw [List.append_assoc]
        exact (h.members.append_left _).trans perm
      · rw [h.fixed, List.map_append, List.append_assoc]
      · have := h.spent
        rw [List.map_append, List.sum_append]
        omega
      · have := h.whole ne
        rw [List.map_append, List.sum_append]
        omega
      · exact fun weights => h.units (fun m hm => weights m (List.mem_of_mem_filter hm))

/-! ## The leftover (R142) -/

theorem cyclicFrom_perm (rotor : Nat) (l : List Given) : (cyclicFrom rotor l).Perm l := by
  have other : l.filter (fun g => g.1.val < rotor) = l.filter (fun g => !decide (rotor ≤ g.1.val)) :=
    List.filter_congr (fun g _ => by simp only [← decide_not, not_le])
  unfold cyclicFrom
  rw [other]
  exact List.filter_append_perm _ l

theorem raiseFirst_bays (n : Nat) (l : List Given) : (raiseFirst n l).map (·.1) = l.map (·.1) := by
  conv_rhs => rw [← List.take_append_drop n l]
  simp [raiseFirst, Function.comp_def]

theorem raiseFirst_sum (n : Nat) (l : List Given) :
    ((raiseFirst n l).map (·.2)).sum = (l.map (·.2)).sum + min n l.length := by
  have one (k : List Given) : (k.map (fun g => g.2 + 1)).sum = (k.map (·.2)).sum + k.length := by
    induction k with
    | nil => rfl
    | cons g k ih =>
      simp only [List.map_cons, List.sum_cons, List.length_cons, ih]
      omega
  have parts : (l.map (·.2)).sum = ((l.take n).map (·.2)).sum + ((l.drop n).map (·.2)).sum := by
    rw [← List.sum_append, ← List.map_append, List.take_append_drop]
  simp only [raiseFirst, List.map_append, List.sum_append, List.map_map, Function.comp_def, one, List.length_take]
  omega

theorem mem_raiseFirst {n : Nat} {l : List Given} {g : Given} (h : g ∈ raiseFirst n l) :
    ∃ i ∈ l, g.1 = i.1 ∧ i.2 ≤ g.2 ∧ g.2 ≤ i.2 + 1 := by
  rcases List.mem_append.1 h with h | h
  · obtain ⟨i, hi, rfl⟩ := List.mem_map.1 h
    exact ⟨i, List.mem_of_mem_take hi, rfl, Nat.le_succ _, Nat.le_refl _⟩
  · exact ⟨g, List.mem_of_mem_drop h, rfl, Nat.le_refl _, Nat.le_succ _⟩

theorem nextRotor_zero (rotor : Nat) (order : List Given) : nextRotor rotor 0 order = rotor := rfl

theorem nextRotor_succ {rotor n : Nat} {order : List Given} {g : Given} (h : order[n]? = some g) :
    nextRotor rotor (n + 1) order = (g.1.val + 1) % 64 := by
  have last : (order.take (n + 1)).getLast? = some g := by
    rw [List.getLast?_take]
    simp [h]
  unfold nextRotor
  rw [last]

/-! ## The division (R140 to R142) -/

/-- 60 for each member, and what each gets beyond. -/
theorem sum_beyond {α : Type} {value : α → Nat} {l : List α} (h : ∀ m ∈ l, 60 ≤ value m) :
    (l.map value).sum = 60 * l.length + (l.map (fun m => value m - 60)).sum := by
  induction l with
  | nil => rfl
  | cons m l ih =>
    have hm := h m List.mem_cons_self
    have := ih (fun n hn => h n (List.mem_cons_of_mem _ hn))
    simp only [List.map_cons, List.sum_cons, List.length_cons]
    omega

/-- What a division gives: to each admitted member a value from 60 to its cap, in sum no more than there is, and less than
there is only with every admitted member at its cap. -/
structure Division.Serves (x : Division) (available : Nat) (d : List Member) : Prop where
  bays : (x.given.map (·.1)).Perm ((admittedMembers available d).map (·.bay))
  range : ∀ g ∈ x.given, ∃ m ∈ d, m.bay = g.1 ∧ 60 ≤ g.2 ∧ g.2 ≤ m.cap
  sum : (x.given.map (·.2)).sum ≤ available
  caps : (∀ m ∈ d, 1 ≤ m.weight) → (x.given.map (·.2)).sum < available →
    ∀ g ∈ x.given, ∃ m ∈ d, m.bay = g.1 ∧ g.2 = m.cap

theorem divide_serves (available rotor : Nat) {d : List Member} (bays : (d.map (·.bay)).Nodup)
    (caps : ∀ m ∈ d, 60 ≤ m.cap) : (divide available rotor d).Serves available d := by
  have current := admittedMembers_current (available := available) bays
  have admits {m : Member} (h : m ∈ admittedMembers available d) : m ∈ d := List.mem_of_mem_filter h
  obtain ⟨full, rest, value, h⟩ := sharePasses_divides (admittedMembers available d).length
    (available - 60 * (admittedMembers available d).length) (admittedMembers available d) [] (Nat.le_refl _)
  have mem {m : Member} (hm : m ∈ full ∨ m ∈ rest) : m ∈ d := admits (h.members.mem_iff.1 (List.mem_append.2 hm))
  have length := h.members.length_eq
  rw [List.length_append] at length
  have given : (divide available rotor d).given =
      (shares available (admittedMembers available d)).fixed ++
        raiseFirst (shares available (admittedMembers available d)).leftover
          (cyclicFrom rotor (shares available (admittedMembers available d)).open_) := rfl
  unfold shares at given
  generalize sharePasses (admittedMembers available d).length (available - 60 * (admittedMembers available d).length)
    (admittedMembers available d) [] = y at h given
  have cyclic := cyclicFrom_perm rotor y.open_
  have fullSum := sum_beyond (value := (·.cap)) (fun m hm => caps m (mem (.inl hm)))
  have restSum := sum_beyond (fun m hm => (h.range m hm).1)
  have total : ((divide available rotor d).given.map (·.2)).sum =
      (full.map (·.cap)).sum + (rest.map value).sum + min y.leftover rest.length := by
    rw [given, List.map_append, List.sum_append, raiseFirst_sum, (cyclic.map _).sum_eq, cyclic.length_eq, h.fixed, h.open_]
    simp [Function.comp_def, Nat.add_assoc]
  have spent := h.spent
  refine ⟨?_, fun g hg => ?_, ?_, fun weights less g hg => ?_⟩
  · rw [given, List.map_append, raiseFirst_bays, h.fixed]
    refine ((cyclic.map _).append_left _).trans ?_
    rw [h.open_]
    refine .trans (.of_eq ?_) (h.members.map (·.bay))
    simp [Function.comp_def]
  · rw [given, h.fixed, List.nil_append] at hg
    rcases List.mem_append.1 hg with hg | hg
    · obtain ⟨m, hm, rfl⟩ := List.mem_map.1 hg
      exact ⟨m, mem (.inl hm), rfl, caps m (mem (.inl hm)), Nat.le_refl _⟩
    · obtain ⟨i, hi, bay, low, high⟩ := mem_raiseFirst hg
      rw [cyclic.mem_iff, h.open_] at hi
      obtain ⟨m, hm, rfl⟩ := List.mem_map.1 hi
      have := h.range m hm
      exact ⟨m, mem (.inr hm), bay.symm, by omega, by omega⟩
  · rw [total]
    omega
  · have units := h.units (fun m hm => weights m (admits hm))
    have none : rest = [] := by
      by_contra ne
      have := h.whole ne
      omega
    have empty : cyclicFrom rotor y.open_ = [] := by rw [h.open_, none]; rfl
    rw [given, h.fixed, empty] at hg
    obtain ⟨m, hm, rfl⟩ : ∃ m ∈ full, (m.bay, m.cap) = g := by simpa [raiseFirst] using hg
    exact ⟨m, mem (.inl hm), rfl, rfl⟩

/-- The members that a division gives a current are the admitted ones. -/
theorem Division.Serves.given_iff {x : Division} {available : Nat} {d : List Member} (h : x.Serves available d)
    {m : Member} (hm : m ∈ d) : (∃ g ∈ x.given, g.1 = m.bay) ↔ m ∈ admittedMembers available d := by
  have bays := h.bays.mem_iff (a := m.bay)
  simp only [List.mem_map] at bays
  rw [bays]
  constructor
  · rintro ⟨n, hn, e⟩
    obtain ⟨-, first⟩ := List.mem_filter.1 hn
    exact List.mem_filter.2 ⟨hm, e ▸ first⟩
  · exact fun h => ⟨m, h, rfl⟩

theorem Division.Serves.filter_given {x : Division} {available : Nat} {d : List Member} (h : x.Serves available d) :
    d.filter (fun m => x.given.any (fun g => g.1 = m.bay)) = admittedMembers available d := by
  have same {m : Member} (hm : m ∈ d) : x.given.any (fun g => g.1 = m.bay) = decide (m.bay ∈ admitted available d) := by
    have admits : m ∈ admittedMembers available d ↔ m.bay ∈ admitted available d := by simp [admittedMembers, hm]
    rw [Bool.eq_iff_iff, decide_eq_true_iff, ← admits, ← h.given_iff hm]
    simp
  exact List.filter_congr (fun m hm => same hm)

/-- Settles O38: what the passes divide (`sharePasses_divides`) and what the rotor hands out, over the members that are
admitted; the equations of one pass. -/
theorem divisionAdmitsAndFillsUpToTheCaps : Obligations.DivisionAdmitsAndFillsUpToTheCaps := by
  unfold Obligations.DivisionAdmitsAndFillsUpToTheCaps
  refine ⟨fun available rotor d bays sound => ?division, fun passes left u fixed => ⟨?nil, ?last, ?full⟩⟩
  case nil =>
    rintro rfl
    exact sharePasses_nil
  case last => exact sharePasses_last
  case full => exact sharePasses_full
  case division =>
    have serves := divide_serves available rotor bays (fun m hm => (sound m hm).1)
    have weights : ∀ m ∈ d, 1 ≤ m.weight := fun m hm => (sound m hm).2
    have nodup : ((admittedMembers available d).map (·.bay)).Nodup := bays.sublist (List.filter_sublist.map _)
    have length : (divide available rotor d).given.length = (admittedMembers available d).length := by
      simpa using serves.bays.length_eq
    refine ⟨serves.bays.nodup_iff.2 nodup, length.trans (admittedMembers_length bays), serves.range, serves.sum,
      serves.caps weights, fun m hm n hn given out => ?first, ?rest⟩
    case first =>
      have outside : m ∉ admittedMembers available d := fun h =>
        have ⟨g, hg, e⟩ := (serves.given_iff hm).2 h
        out g hg e
      exact (Member.before_iff n m).1 (admittedMembers_first bays hm ((serves.given_iff hn).1 given) outside)
    case rest =>
      dsimp only
      rw [serves.filter_given]
      obtain ⟨full, rest, value, h⟩ := sharePasses_divides (admittedMembers available d).length
        (available - 60 * (admittedMembers available d).length) (admittedMembers available d) [] (Nat.le_refl _)
      refine ⟨?units, (List.append_assoc ..).symm, fun none => ?_, fun i g some hg => ?_⟩
      case units =>
        rw [h.open_, List.length_map]
        exact h.units (fun m hm => weights m (List.mem_of_mem_filter hm))
      · have kept := nextRotor_zero rotor
        rw [← none] at kept
        exact kept _
      · have moved := nextRotor_succ (rotor := rotor) hg
        rw [← some] at moved
        exact moved

end Sys2Proof.Machine

namespace Sys2Proof.Machine

/-! ## What is read of a feeder: its bays, their occupants, its difficulty (R96, R138, R147) -/

section
variable {p q : Part} {f : FeederId} {b c : BayId} {k : SlotId}

theorem Part.mem_baysOfFeeder : b ∈ p.baysOfFeeder f ↔ (p.bay b).configured = true ∧ (p.bay b).feeder = f := by
  simp [Part.baysOfFeeder, allBays, allBelow]

/-- The bays of a feeder stand in bay order. -/
theorem Part.baysOfFeeder_sorted (p : Part) (f : FeederId) : (p.baysOfFeeder f).Pairwise (· < ·) :=
  (List.pairwise_lt_finRange 64).filter _

theorem Part.baysOfFeeder_congr (configured : ∀ b, (q.bay b).configured = (p.bay b).configured)
    (feeder : ∀ b, (q.bay b).feeder = (p.bay b).feeder) (f : FeederId) : q.baysOfFeeder f = p.baysOfFeeder f := by
  simp only [Part.baysOfFeeder, configured, feeder]

theorem Part.occupant_congr (chain : q.chain b = p.chain b)
    (state : ∀ k, (q.record k).map (·.state) = (p.record k).map (·.state)) : q.occupant b = p.occupant b := by
  have engaged : q.recordIs (fun r => r.state = .engaged) = p.recordIs (fun r => r.state = .engaged) := by
    funext k
    have same := state k
    unfold Part.recordIs
    cases hq : q.record k <;> cases hp : p.record k <;> simp_all
  rw [Part.occupant, chain, engaged, Part.occupant]

/-- No slot is the occupant of two bays. -/
def Part.OccupantsApart (p : Part) : Prop := ∀ b c k, p.occupant b = some k → p.occupant c = some k → b = c

theorem Pool.partitioned.occupantsApart (parts : p.pool.partitioned) : p.OccupantsApart := by
  intro b c k hb hc
  have homeB := (Pool.mem_chain parts).1 (List.mem_of_find?_eq_some hb)
  have homeC := (Pool.mem_chain parts).1 (List.mem_of_find?_eq_some hc)
  exact Home.chain.inj (homeB.symm.trans homeC)

/-- Whether the occupant of a bay is PAUSED for SHORTFALL. -/
def Part.starved (p : Part) (b : BayId) : Bool :=
  (p.occupant b).any (fun k => (p.session k).any (fun x => x.phase = .paused && x.pause = .shortfall))

theorem Part.starved_iff : p.starved b = true ↔ ∃ k r x, p.occupant b = some k ∧ p.record k = some r ∧
    r.session = some x ∧ x.phase = .paused ∧ x.pause = .shortfall := by
  unfold Part.starved
  simp only [Part.session, Option.any_eq_true, Option.bind_eq_some_iff, Bool.and_eq_true, decide_eq_true_eq]
  constructor
  · rintro ⟨k, hk, x, ⟨r, hr, hx⟩, short⟩
    exact ⟨k, r, x, hk, hr, hx, short⟩
  · rintro ⟨k, r, x, hk, hr, hx, short⟩
    exact ⟨k, hk, x, ⟨r, hr, hx⟩, short⟩

theorem Part.difficulty_eq (p : Part) (f : FeederId) : p.difficulty f = (decide ((p.feeder f).overdrawCount > 0) ||
    (p.baysOfFeeder f).any (fun b => decide ((p.post (p.bay b).post).misses > 0) || p.starved b)) := by
  unfold Part.difficulty Part.starved
  congr
  funext b
  cases p.occupant b <;> rfl

theorem Part.difficulty_iff : p.difficulty f = true ↔ 0 < (p.feeder f).overdrawCount ∨
    ∃ b : BayId, (p.bay b).configured = true ∧ (p.bay b).feeder = f ∧ (0 < (p.post (p.bay b).post).misses ∨
      ∃ k r x, p.occupant b = some k ∧ p.record k = some r ∧ r.session = some x ∧ x.phase = .paused ∧
        x.pause = .shortfall) := by
  simp only [Part.difficulty_eq, Bool.or_eq_true, List.any_eq_true, Part.mem_baysOfFeeder, Part.starved_iff,
    decide_eq_true_eq, gt_iff_lt, and_assoc]

/-- What CONDITION reports is read from the overdraw count, and from the posts and the sessions of the feeder's bays. -/
theorem Part.difficulty_congr (count : (q.feeder f).overdrawCount = (p.feeder f).overdrawCount)
    (bays : q.baysOfFeeder f = p.baysOfFeeder f)
    (misses : ∀ b ∈ p.baysOfFeeder f, (q.post (q.bay b).post).misses = (p.post (p.bay b).post).misses)
    (occupant : ∀ b ∈ p.baysOfFeeder f, q.occupant b = p.occupant b)
    (session : ∀ b ∈ p.baysOfFeeder f, ∀ k, p.occupant b = some k → q.session k = p.session k) :
    q.difficulty f = p.difficulty f := by
  have starved : ∀ b ∈ p.baysOfFeeder f, q.starved b = p.starved b := by
    intro b hb
    unfold Part.starved
    rw [occupant b hb]
    cases hk : p.occupant b with
    | none => rfl
    | some k => simp only [Option.any_some, session b hb k hk]
  rw [Part.difficulty_eq, Part.difficulty_eq, count, bays]
  congr 1
  refine any_congr _ (fun b hb => ?_)
  rw [misses b hb, starved b hb]

end

/-! ## What stands after the transmitter's choice (R171, R172) -/

section
variable {p q : Part} {f : FeederId} {b : BayId} {k : SlotId} {r : Record}

theorem Part.feeder_of_quiet (h : q.quiet = p.quiet) (f : FeederId) : (q.feeder f).quiet = (p.feeder f).quiet := by
  have feeders : (q.feeders.map Feeder.quiet)[f.val] = (p.feeders.map Feeder.quiet)[f.val] :=
    congrArg (fun u : Part => u.feeders[f.val]) h
  rwa [Vector.getElem_map, Vector.getElem_map] at feeders

theorem Part.post_of_quiet (h : q.quiet = p.quiet) (a : PostId) : (q.post a).quiet = (p.post a).quiet := by
  have posts : (q.posts.map Post.quiet)[a.val] = (p.posts.map Post.quiet)[a.val] :=
    congrArg (fun u : Part => u.posts[a.val]) h
  rwa [Vector.getElem_map, Vector.getElem_map] at posts

theorem Part.record_of_quiet (h : q.quiet = p.quiet) (k : SlotId) :
    (q.record k).map Record.quiet = (p.record k).map Record.quiet := by
  have slots : (q.pool.slots.map Slot.quiet)[k.val] = (p.pool.slots.map Slot.quiet)[k.val] :=
    congrArg (fun u : Part => u.pool.slots[k.val]) h
  rw [Vector.getElem_map, Vector.getElem_map] at slots
  exact (congrArg Slot.record slots :)

theorem Part.record_some_of_quiet (h : q.quiet = p.quiet) (hr : p.record k = some r) :
    ∃ n : Bool, q.record k = some { r with notice := n } := by
  have same := Part.record_of_quiet h k
  rw [hr] at same
  obtain ⟨r', hr', e⟩ := Option.map_eq_some_iff.1 same
  exact ⟨r'.notice, hr'.trans (congrArg (fun x : Record => some { x with notice := r'.notice }) e)⟩

theorem Part.chain_of_quiet (h : q.quiet = p.quiet) (b : BayId) : q.chain b = p.chain b :=
  (congrArg (fun u : Part => u.pool.chains.get b) h :)

theorem Part.occupant_of_quiet (h : q.quiet = p.quiet) (b : BayId) : q.occupant b = p.occupant b := by
  refine Part.occupant_congr (Part.chain_of_quiet h b) (fun k => ?_)
  have same := congrArg (Option.map Record.state) (Part.record_of_quiet h k)
  rwa [Option.map_map, Option.map_map] at same

theorem Part.session_of_quiet (h : q.quiet = p.quiet) (k : SlotId) : q.session k = p.session k := by
  have same := congrArg (Option.bind · Record.session) (Part.record_of_quiet h k)
  rwa [Option.bind_map, Option.bind_map] at same

theorem Part.baysOfFeeder_of_quiet (h : q.quiet = p.quiet) (f : FeederId) : q.baysOfFeeder f = p.baysOfFeeder f :=
  Part.baysOfFeeder_congr (fun b => (congrArg Bay.configured (Part.bay_of_quiet h b) :))
    (fun b => (congrArg Bay.feeder (Part.bay_of_quiet h b) :)) f

theorem Part.difficulty_of_quiet (h : q.quiet = p.quiet) (f : FeederId) : q.difficulty f = p.difficulty f := by
  refine Part.difficulty_congr (congrArg Feeder.overdrawCount (Part.feeder_of_quiet h f) :)
    (Part.baysOfFeeder_of_quiet h f) (fun b _ => ?_) (fun b _ => Part.occupant_of_quiet h b)
    (fun _ _ k _ => Part.session_of_quiet h k)
  have post : (q.bay b).post = (p.bay b).post := (congrArg Bay.post (Part.bay_of_quiet h b) :)
  rw [post]
  exact (congrArg Post.misses (Part.post_of_quiet h _) :)

end

end Sys2Proof.Machine

namespace Sys2Proof.Machine

/-! ## The demanding set (R138, R139) -/

section
variable {p : Part} {f : FeederId} {b : BayId} {m : Member}

/-- A bay is a member of the demanding set with what the share reads of its occupant (R138 to R141). -/
theorem Part.member_eq_some_iff : p.member b = some m ↔
    m.bay = b ∧ p.occupant b = some m.slot ∧ (p.bay b).condition.unusable = false ∧ (p.bay b).penalty = 0 ∧
      ∃ r x, p.record m.slot = some r ∧ r.session = some x ∧ x.phase.demands = true ∧
        m.cap = (p.bay b).capWith r.rateCap ∧ m.priority = r.priority ∧ m.engaged = x.engaged ∧
        m.weight = p.settings.weight r.priority := by
  obtain ⟨bay, slot, cap, priority, engaged, weight⟩ := m
  unfold Part.member
  cases ho : p.occupant b with
  | none => simp
  | some k =>
    cases hr : p.record k with
    | none =>
      simp only [hr, reduceCtorEq, false_iff]
      rintro ⟨-, hk, -, -, r, x, hr', -⟩
      cases hk
      cases hr.symm.trans hr'
    | some r =>
      cases hx : r.session with
      | none =>
        simp only [hr, hx, reduceCtorEq, false_iff]
        rintro ⟨-, hk, -, -, r', x, hr', hx', -⟩
        cases hk
        cases hr.symm.trans hr'
        cases hx.symm.trans hx'
      | some x =>
        simp [hr, hx]; grind

theorem Part.member_bay (h : p.member b = some m) : m.bay = b := (Part.member_eq_some_iff.1 h).1

theorem Part.mem_demanding_iff : m ∈ p.demanding f ↔ m.bay ∈ p.baysOfFeeder f ∧ p.member m.bay = some m := by
  unfold Part.demanding
  rw [List.mem_filterMap]
  constructor
  · rintro ⟨b, hb, e⟩
    exact Part.member_bay e ▸ ⟨hb, e⟩
  · exact fun ⟨hb, e⟩ => ⟨m.bay, hb, e⟩

theorem Bay.capWith_eq (x : Bay) (rateCap : Option Nat) :
    x.capWith rateCap = let rated := min x.rating (rateCap.getD x.rating)
      if x.cap = 0 then rated else min rated x.cap := by
  cases rateCap <;> simp [Bay.capWith]

/-- The members of the demanding set stand in the order of the feeder's bays. -/
theorem Part.demanding_bays_sublist (p : Part) (f : FeederId) :
    ((p.demanding f).map (·.bay)).Sublist (p.baysOfFeeder f) := by
  unfold Part.demanding
  induction p.baysOfFeeder f with
  | nil => exact .slnil
  | cons b l ih =>
    cases h : p.member b with
    | none =>
      rw [List.filterMap_cons_none h]
      exact ih.cons b
    | some m =>
      rw [List.filterMap_cons_some h, List.map_cons, Part.member_bay h]
      exact ih.cons_cons b

theorem Part.demanding_bays_nodup (p : Part) (f : FeederId) : ((p.demanding f).map (·.bay)).Nodup :=
  (p.baysOfFeeder_nodup f).sublist (p.demanding_bays_sublist f)

end

/-! ## Sessions that change in place (R117) -/

/-- A record without its session, its notice flag and its cause. -/
def Record.standing (r : Record) : Record := { r with session := none, notice := false, lastCause := .session }

/-- What a change of sessions leaves that stores every record where it stood and has nothing follow on it: all but the
pool, and of the pool all but the sessions, the notice flags and the causes of records. -/
structure Part.Resessions (p q : Part) : Prop where
  rest : q = { p with pool := q.pool }
  chain (b : BayId) : q.chain b = p.chain b
  record (k : SlotId) : (q.record k).map Record.standing = (p.record k).map Record.standing

namespace Part.Resessions

variable {p q u : Part} {k : SlotId} {r r' : Record} {y : Session}

theorem refl (p : Part) : p.Resessions p := ⟨rfl, fun _ => rfl, fun _ => rfl⟩

theorem trans (h : p.Resessions q) (h' : q.Resessions u) : p.Resessions u where
  rest := by rw [h'.rest, h.rest]
  chain b := (h'.chain b).trans (h.chain b)
  record k := (h'.record k).trans (h.record k)

theorem put (hr : p.record k = some r) (h : r.Resessioned y r') : p.Resessions (p.put k r') := by
  have standing : r'.standing = r.standing := (congrArg Record.standing h.rest :)
  have home : r.home = r'.home := (congrArg Record.home standing.symm :)
  rw [Part.put_inPlace hr home (congrArg Record.windowStart standing.symm :)]
  refine ⟨rfl, fun _ => rfl, fun j => ?_⟩
  unfold Part.record
  rw [Pool.record_setSlot]
  split
  · next e =>
    rw [e, show p.pool.record k = some r from hr]
    exact congrArg some standing
  · rfl

theorem occupant (h : p.Resessions q) (b : BayId) : q.occupant b = p.occupant b := by
  refine Part.occupant_congr (h.chain b) (fun k => ?_)
  have same := congrArg (Option.map Record.state) (h.record k)
  rwa [Option.map_map, Option.map_map] at same

theorem bay (h : p.Resessions q) (b : BayId) : q.bay b = p.bay b := by rw [h.rest]; rfl

theorem feeder (h : p.Resessions q) (f : FeederId) : q.feeder f = p.feeder f := by rw [h.rest]; rfl

theorem baysOfFeeder (h : p.Resessions q) (f : FeederId) : q.baysOfFeeder f = p.baysOfFeeder f := by rw [h.rest]; rfl

end Part.Resessions

section
variable {p : Part} {k : SlotId} {m : Member} {g : Session → Session}

/-- A session change that keeps its phase inside or outside the demanding set and OVERSTAY is a change in place. -/
theorem Part.updSession_resessions (demands : ∀ x, p.session k = some x → x.phase.demands = (g x).phase.demands)
    (overstay : ∀ x, p.session k = some x → x.phase.isOverstay = (g x).phase.isOverstay) :
    p.Resessions (p.updSession k g) := by
  unfold Part.updSession
  cases hr : p.record k with
  | none => exact .refl p
  | some r =>
    dsimp only
    cases hx : r.session with
    | none => exact .refl p
    | some x =>
      have session : p.session k = some x := by rw [Part.session, hr]; exact hx
      have stored : p.Resessions (p.put k (if x.reports (g x) then
          Record.flag { r with session := some (g x) } .session else { r with session := some (g x) })) :=
        .put hr (y := g x) (by split <;> exact ⟨rfl, rfl⟩)
      dsimp only
      split
      · exact stored
      · rw [if_pos (demands x session), if_pos (overstay x session)]
        exact stored

theorem Session.shared_isOverstay (x : Session) (admits : Bool) (cause : PauseCause) :
    (x.shared admits cause).phase.isOverstay = false := by cases admits <;> rfl

theorem Session.shared_shared (x : Session) (a b : Bool) (cause : PauseCause) :
    (x.shared a cause).shared b cause = x.shared b cause := by cases a <;> cases b <;> rfl

theorem Phase.isOverstay_of_demands {x : Phase} (h : x.demands = true) : x.isOverstay = false := by
  cases x with
  | charge | paused => rfl
  | _ => cases h

/-! ## The phases that a recompute gives (R120, R140) -/

/-- The walk of a recompute over the members of the demanding set. -/
def Part.givePhases (p : Part) (d : List Member) (admits : Member → Bool) (cause : PauseCause) : Part :=
  d.foldl (fun p m => p.updSession m.slot (fun y => y.shared (admits m) cause)) p

variable {d : List Member} {admits : Member → Bool} {cause : PauseCause}

theorem Part.givePhases_resessions (demands : ∀ m ∈ d, ∀ x, p.session m.slot = some x → x.phase.demands = true) :
    p.Resessions (p.givePhases d admits cause) := by
  induction d generalizing p with
  | nil => exact .refl p
  | cons m d ih =>
    have head := demands m List.mem_cons_self
    refine .trans (Part.updSession_resessions (fun x hx => ?_) (fun x hx => ?_)) (ih (fun n hn x hx => ?_))
    · rw [head x hx, Session.shared_demands]
    · rw [Phase.isOverstay_of_demands (head x hx), Session.shared_isOverstay]
    · by_cases e : n.slot = m.slot
      · rw [e, Part.session_updSession] at hx
        obtain ⟨y, _, rfl⟩ := Option.map_eq_some_iff.1 hx
        exact y.shared_demands _ _
      · rw [Part.session, Part.record_updSession p m.slot _ _ e] at hx
        exact demands n (List.mem_cons_of_mem _ hn) x hx

theorem Part.givePhases_record_ne (h : ∀ m ∈ d, m.slot ≠ k) : (p.givePhases d admits cause).record k = p.record k := by
  induction d generalizing p with
  | nil => rfl
  | cons m d ih =>
    refine (ih (fun n hn => h n (List.mem_cons_of_mem _ hn))).trans ?_
    exact p.record_updSession m.slot _ k (h m List.mem_cons_self).symm

/-- A record that members hold which are all admitted or all not. -/
theorem Part.givePhases_record {r : Record} {x : Session} {a : Bool} (hr : p.record k = some r) (hx : r.session = some x)
    (holds : ∃ m ∈ d, m.slot = k) (agree : ∀ m ∈ d, m.slot = k → admits m = a) :
    ∃ r', (p.givePhases d admits cause).record k = some r' ∧ r.Resessioned (x.shared a cause) r' := by
  induction d generalizing p r x with
  | nil => simp at holds
  | cons m d ih =>
    have tail : ∀ n ∈ d, n.slot = k → admits n = a := fun n hn => agree n (List.mem_cons_of_mem _ hn)
    by_cases e : m.slot = k
    · subst e
      obtain ⟨r₁, hr₁, first⟩ := Part.updSession_resessioned hr hx (fun y => y.shared (admits m) cause)
      rw [agree m List.mem_cons_self rfl] at first
      by_cases again : ∃ n ∈ d, n.slot = m.slot
      · obtain ⟨r₂, hr₂, second⟩ := ih hr₁ first.session again tail
        rw [Session.shared_shared] at second
        exact ⟨r₂, hr₂, first.trans second⟩
      · exact ⟨r₁, (Part.givePhases_record_ne (fun n hn e => again ⟨n, hn, e⟩)).trans hr₁, first⟩
    · have later : ∃ n ∈ d, n.slot = k := by
        obtain ⟨n, hn, en⟩ := holds
        exact ⟨n, (List.mem_cons.1 hn).resolve_left (fun h => e (h ▸ en)), en⟩
      exact ih ((p.record_updSession m.slot _ k (Ne.symm e)).trans hr) hx later tail

end

end Sys2Proof.Machine

namespace Sys2Proof.Machine

/-! ## What the Share Unit's work on one feeder leaves alone -/

/-- All but the limits and the penalties of the feeder's bays, the feeder's own record, and the sessions, notice flags and
causes of the records that occupy its bays. -/
structure Part.SharesOn (f : FeederId) (p q : Part) : Prop where
  besides : { q with bays := p.bays, feeders := p.feeders, pool := p.pool } = p
  chain (b : BayId) : q.chain b = p.chain b
  standing (k : SlotId) : (q.record k).map Record.standing = (p.record k).map Record.standing
  bay (b : BayId) : { q.bay b with limit := (p.bay b).limit, penalty := (p.bay b).penalty } = p.bay b
  bays (b : BayId) : b ∉ p.baysOfFeeder f → q.bay b = p.bay b
  feeders (g : FeederId) : g ≠ f → q.feeder g = p.feeder g
  record (k : SlotId) : (∀ b ∈ p.baysOfFeeder f, p.occupant b ≠ some k) → q.record k = p.record k

namespace Part.SharesOn

variable {p q u : Part} {f : FeederId} {b : BayId} {k : SlotId}

theorem refl (f : FeederId) (p : Part) : Part.SharesOn f p p :=
  ⟨rfl, fun _ => rfl, fun _ => rfl, fun _ => rfl, fun _ _ => rfl, fun _ _ => rfl, fun _ _ => rfl⟩

theorem baysOfFeeder (h : Part.SharesOn f p q) (g : FeederId) : q.baysOfFeeder g = p.baysOfFeeder g :=
  Part.baysOfFeeder_congr (fun b => (congrArg Bay.configured (h.bay b) :))
    (fun b => (congrArg Bay.feeder (h.bay b) :)) g

theorem occupant (h : Part.SharesOn f p q) (b : BayId) : q.occupant b = p.occupant b := by
  refine Part.occupant_congr (h.chain b) (fun k => ?_)
  have same := congrArg (Option.map Record.state) (h.standing k)
  rwa [Option.map_map, Option.map_map] at same

theorem apart (h : Part.SharesOn f p q) (apart : p.OccupantsApart) : q.OccupantsApart := by
  intro b c k hb hc
  rw [h.occupant] at hb hc
  exact apart b c k hb hc

theorem post (h : Part.SharesOn f p q) (a : PostId) : q.post a = p.post a := (congrArg (Part.post · a) h.besides :)

theorem work (h : Part.SharesOn f p q) : q.work = p.work := (congrArg Part.work h.besides :)

theorem trans (h : Part.SharesOn f p q) (h' : Part.SharesOn f q u) : Part.SharesOn f p u where
  besides := (congrArg (fun v : Part => { v with bays := p.bays, feeders := p.feeders, pool := p.pool }) h'.besides).trans
    h.besides
  chain b := (h'.chain b).trans (h.chain b)
  standing k := (h'.standing k).trans (h.standing k)
  bay b := (congrArg (fun x : Bay => { x with limit := (p.bay b).limit, penalty := (p.bay b).penalty }) (h'.bay b)).trans
    (h.bay b)
  bays b hb := (h'.bays b (by rwa [h.baysOfFeeder])).trans (h.bays b hb)
  feeders g hg := (h'.feeders g hg).trans (h.feeders g hg)
  record k hk := (h'.record k (fun b hb => by
    rw [h.baysOfFeeder] at hb
    rw [h.occupant]
    exact hk b hb)).trans (h.record k hk)

theorem foldl {g : Part → BayId → Part} {l : List BayId}
    (step : ∀ p, ∀ b ∈ p.baysOfFeeder f, Part.SharesOn f p (g p b))
    (mem : ∀ b ∈ l, b ∈ p.baysOfFeeder f) : Part.SharesOn f p (l.foldl g p) := by
  induction l generalizing p with
  | nil => exact .refl f p
  | cons b l ih =>
    have first := step p b (mem b List.mem_cons_self)
    exact first.trans (ih (fun c hc => first.baysOfFeeder f ▸ mem c (List.mem_cons_of_mem _ hc)))

theorem modBay (hb : b ∈ p.baysOfFeeder f) {g : Bay → Bay}
    (same : { g (p.bay b) with limit := (p.bay b).limit, penalty := (p.bay b).penalty } = p.bay b) :
    Part.SharesOn f p (p.modBay b g) where
  besides := rfl
  chain _ := rfl
  standing _ := rfl
  bay j := by
    rw [Part.bay_modBay]
    split
    · next e => exact e ▸ same
    · rfl
  bays j hj := Part.bay_modBay_ne p b g j (fun e => hj (e ▸ hb))
  feeders _ _ := rfl
  record _ _ := rfl

theorem modFeeder (g : Feeder → Feeder) : Part.SharesOn f p (p.modFeeder f g) where
  besides := rfl
  chain _ := rfl
  standing _ := rfl
  bay _ := rfl
  bays _ _ := rfl
  feeders j hj := Part.feeder_modFeeder_ne p f g j hj
  record _ _ := rfl

theorem resessions (h : p.Resessions q)
    (record : ∀ k, (∀ b ∈ p.baysOfFeeder f, p.occupant b ≠ some k) → q.record k = p.record k) :
    Part.SharesOn f p q where
  besides := by rw [h.rest]
  chain := h.chain
  standing := h.record
  bay b := by rw [h.bay]
  bays b _ := h.bay b
  feeders g _ := h.feeder g
  record := record

end Part.SharesOn

/-! ## The stages of a recompute (R143) -/

section
variable {p : Part} {f : FeederId} {b : BayId} {k : SlotId} {m : Member} {r : Record} {x : Session}

/-- The limits that a recompute writes. -/
def Part.limited (p : Part) (f : FeederId) : Part :=
  (p.baysOfFeeder f).foldl (fun q b => q.modBay b (fun y => { y with limit := (p.division f).limit b })) p

/-- Whether a recompute admits a member. -/
def Part.admits (p : Part) (f : FeederId) (m : Member) : Bool := ((p.division f).given.lookup m.bay).isSome

/-- The limits and the phases that a recompute writes. -/
def Part.phased (p : Part) (f : FeederId) : Part :=
  (p.limited f).givePhases (p.demanding f) (p.admits f) (p.feeder f).state.pauseCause

/-- Whether a recompute leaves a member of a NORMAL feeder out. -/
def Part.runsShort (p : Part) (f : FeederId) : Bool :=
  (p.feeder f).state.pauseCause = .shortfall && (p.demanding f).any (fun m => !p.admits f m)

theorem Part.share_eq (p : Part) (f : FeederId) : p.share f = ((p.phased f).modFeeder f (fun y =>
    let z := { y with rotor := (p.division f).rotor, recomputeDue := false }
    if p.runsShort f then z.stick .justShortfall else z)).evalCondition f := rfl

theorem Part.limited_bay (p : Part) (f : FeederId) (b : BayId) : (p.limited f).bay b =
    if b ∈ p.baysOfFeeder f then { p.bay b with limit := (p.division f).limit b } else p.bay b :=
  foldl_entry Part.bay (fun _ => ()) (g := fun b y => { y with limit := (p.division f).limit b }) (c := ())
    (fun _ _ => rfl) (fun q _ i j => by rw [Part.bay_modBay]) (fun _ _ => rfl) _ p rfl b

theorem Part.limited_besides (p : Part) (f : FeederId) : { p.limited f with bays := p.bays } = p :=
  foldl_view (fun q : Part => { q with bays := p.bays }) (f := fun q b => q.modBay b _) (fun _ _ => rfl) _ p

theorem Part.limited_record (p : Part) (f : FeederId) (k : SlotId) : (p.limited f).record k = p.record k :=
  (congrArg (Part.record · k) (p.limited_besides f) :)

theorem Part.limited_feeder (p : Part) (f g : FeederId) : (p.limited f).feeder g = p.feeder g :=
  (congrArg (Part.feeder · g) (p.limited_besides f) :)

theorem Part.limited_sharesOn (p : Part) (f : FeederId) : Part.SharesOn f p (p.limited f) :=
  .foldl (fun _ _ hb => .modBay hb rfl) (fun _ hb => hb)

theorem Part.phased_resessions (p : Part) (f : FeederId) : (p.limited f).Resessions (p.phased f) := by
  refine Part.givePhases_resessions (fun m hm x hx => ?_)
  obtain ⟨y, hy, demands⟩ := Part.demanding_demands hm
  rw [Part.session, Part.limited_record] at hx
  exact Option.some.inj (hy.symm.trans hx) ▸ demands

theorem Part.phased_record_ne (h : ∀ m ∈ p.demanding f, m.slot ≠ k) : (p.phased f).record k = p.record k :=
  (Part.givePhases_record_ne h).trans (p.limited_record f k)

theorem Part.phased_sharesOn (p : Part) (f : FeederId) : Part.SharesOn f p (p.phased f) := by
  refine (p.limited_sharesOn f).trans (.resessions (p.phased_resessions f) (fun k hk => ?_))
  refine (Part.phased_record_ne (fun m hm e => ?_)).trans (p.limited_record f k).symm
  obtain ⟨hb, member⟩ := Part.mem_demanding_iff.1 hm
  obtain ⟨-, occupant, -⟩ := Part.member_eq_some_iff.1 member
  have same := p.limited_sharesOn f
  exact hk m.bay (by rwa [same.baysOfFeeder]) (by rw [same.occupant, occupant, e])

theorem Feeder.stick_quiet (x : Feeder) (s : Sticky) :
    (x.stick s).quiet = { x with sticky := x.sticky.union s }.quiet := by
  unfold Feeder.stick
  split
  · next e => rw [e]
  · rfl

theorem Sticky.union_justShortfall (s : Sticky) : s.union .justShortfall = { s with shortfall := true } := by
  simp [Sticky.union, Sticky.justShortfall, Sticky.empty]

theorem Part.evalCondition_difficulty (p : Part) (f : FeederId) : (p.evalCondition f).difficulty f = p.difficulty f :=
  Part.difficulty_congr (by rw [Part.evalCondition, Part.feeder_modFeeder_same]) rfl (fun _ _ => rfl) (fun _ _ => rfl)
    (fun _ _ _ _ => rfl)

/-! ## What a recompute writes (R143, R146, R147) -/

theorem Part.evalCondition_sharesOn (p : Part) (f : FeederId) : Part.SharesOn f p (p.evalCondition f) := .modFeeder _

theorem Part.share_sharesOn (p : Part) (f : FeederId) : Part.SharesOn f p (p.share f) := by
  rw [Part.share_eq]
  exact (p.phased_sharesOn f).trans (.trans (.modFeeder _) (Part.evalCondition_sharesOn _ f))

theorem Part.share_bay (p : Part) (f : FeederId) (b : BayId) : (p.share f).bay b =
    if b ∈ p.baysOfFeeder f then { p.bay b with limit := (p.division f).limit b } else p.bay b :=
  ((p.phased_resessions f).bay b).trans (p.limited_bay f b)

theorem Part.share_record_ne (h : ∀ m ∈ p.demanding f, m.slot ≠ k) : (p.share f).record k = p.record k :=
  Part.phased_record_ne h

/-- A recompute gives a member its phase (R120, R140). -/
theorem Part.share_record {a : Bool} (hm : m ∈ p.demanding f) (hr : p.record m.slot = some r) (hx : r.session = some x)
    (agree : ∀ n ∈ p.demanding f, n.slot = m.slot → p.admits f n = a) :
    ∃ r', (p.share f).record m.slot = some r' ∧ r.Resessioned (x.shared a (p.feeder f).state.pauseCause) r' :=
  Part.givePhases_record ((p.limited_record f _).trans hr) hx ⟨m, hm, rfl⟩ agree

theorem Part.share_feeder (p : Part) (f : FeederId) : ((p.share f).feeder f).quiet =
    { p.feeder f with
      rotor := (p.division f).rotor, recomputeDue := false, condition := (p.share f).difficulty f
      sticky := { (p.feeder f).sticky with shortfall := (p.feeder f).sticky.shortfall || p.runsShort f } }.quiet := by
  have kept : (p.phased f).feeder f = p.feeder f := ((p.phased_resessions f).feeder f).trans (p.limited_feeder f f)
  rw [Part.share_eq, Part.evalCondition_difficulty]
  unfold Part.evalCondition
  rw [Part.feeder_modFeeder_same, Part.feeder_modFeeder_same, kept]
  generalize Part.difficulty _ f = c
  cases p.runsShort f with
  | false =>
    rw [Bool.or_false]
    rfl
  | true =>
    have stuck := Feeder.stick_quiet { p.feeder f with rotor := (p.division f).rotor, recomputeDue := false } .justShortfall
    rw [Sticky.union_justShortfall] at stuck
    rw [Bool.or_true]
    exact (congrArg (fun y : Feeder => { y with condition := c }) stuck :)

end

end Sys2Proof.Machine

namespace Sys2Proof.Machine

/-! ## The recompute (R144) -/

section
variable {p : Part} {f : FeederId} {b : BayId} {k : SlotId} {m : Member} {r : Record} {x : Session}

theorem Part.recompute_idle (h : (p.feeder f).state = .unused ∨ p.baysOfFeeder f = []) :
    p.recompute f = p.setFeeder f { p.feeder f with recomputeDue := false } := by
  unfold Part.recompute
  rw [if_pos (by simpa using h)]
  rfl

theorem Part.recompute_shares (used : (p.feeder f).state ≠ .unused) (bays : p.baysOfFeeder f ≠ []) :
    p.recompute f = p.share f := by
  unfold Part.recompute
  rw [if_neg (by simp [used, bays])]

/-- What a recompute comes to. -/
theorem Part.recompute_cases (p : Part) (f : FeederId) :
    p.recompute f = p.modFeeder f (fun x => { x with recomputeDue := false }) ∨
      (p.recompute f = p.share f ∧ (p.feeder f).state ≠ .unused ∧ p.baysOfFeeder f ≠ []) := by
  by_cases h : (p.feeder f).state = .unused ∨ p.baysOfFeeder f = []
  · exact .inl (Part.recompute_idle h)
  · rw [not_or] at h
    exact .inr ⟨Part.recompute_shares h.1 h.2, h⟩

theorem Part.recompute_sharesOn (p : Part) (f : FeederId) : Part.SharesOn f p (p.recompute f) := by
  rcases p.recompute_cases f with e | ⟨e, -⟩
  · exact e ▸ .modFeeder _
  · exact e ▸ p.share_sharesOn f

theorem Part.recompute_record_ne (h : ∀ m ∈ p.demanding f, m.slot ≠ k) : (p.recompute f).record k = p.record k := by
  rcases p.recompute_cases f with e | ⟨e, -⟩ <;> rw [e]
  · rfl
  · exact Part.share_record_ne h

/-- A recompute leaves nothing else to do. -/
theorem Part.recompute_work (p : Part) (f : FeederId) : (p.recompute f).work = p.work := (p.recompute_sharesOn f).work

/-! ## The division of a recompute -/

theorem Part.division_eq (p : Part) (f : FeederId) : p.division f =
    if (p.feeder f).state = .normal then
      divide ((p.feeder f).limit - (p.feeder f).trim) (p.feeder f).rotor (p.demanding f)
    else ⟨[], (p.feeder f).rotor⟩ := by
  unfold Part.division Feeder.available
  cases (p.feeder f).state <;> rfl

theorem lookup_cons_ne {α β : Type} [DecidableEq α] {a c : α} (h : a ≠ c) (v : β) (l : List (α × β)) :
    ((c, v) :: l).lookup a = l.lookup a := by
  rw [List.lookup_cons, beq_false_of_ne h]

theorem lookup_isSome {α β : Type} [DecidableEq α] (l : List (α × β)) (a : α) :
    (l.lookup a).isSome = l.any (fun g => g.1 = a) := by
  induction l with
  | nil => rfl
  | cons g l ih =>
    obtain ⟨c, v⟩ := g
    by_cases e : a = c
    · simp [e]
    · rw [lookup_cons_ne e, ih, List.any_cons, decide_eq_false (Ne.symm e), Bool.false_or]

theorem Part.admits_eq (p : Part) (f : FeederId) (m : Member) :
    p.admits f m = (p.division f).given.any (fun g => g.1 = m.bay) := lookup_isSome _ _

theorem FeederState.pauseCause_eq (x : FeederState) : x.pauseCause = if x = .normal then .shortfall else .trip := by
  cases x <;> rfl

theorem Part.runsShort_eq (p : Part) (f : FeederId) : p.runsShort f =
    (decide ((p.feeder f).state = .normal) && (p.demanding f).any (fun m => !p.admits f m)) := by
  unfold Part.runsShort
  cases (p.feeder f).state <;> rfl

theorem sum_one_le {α : Type} [DecidableEq α] {l : List α} (nodup : l.Nodup) (a : α) (v : Nat) :
    (l.map (fun c => if c = a then v else 0)).sum ≤ v := by
  induction l with
  | nil => exact Nat.zero_le _
  | cons c l ih =>
    obtain ⟨fresh, nodup⟩ := List.nodup_cons.1 nodup
    rw [List.map_cons, List.sum_cons]
    by_cases e : c = a
    · have rest : l.map (fun c => if c = a then v else 0) = l.map (fun _ => 0) :=
        List.map_congr_left (fun i hi => if_neg (fun h : i = a => fresh (by rwa [e, ← h])))
      simp [e, rest]
    · simpa [e] using ih nodup

/-- What is looked up for different keys comes at most to all there is. -/
theorem sum_lookup_le {α : Type} [DecidableEq α] (given : List (α × Nat)) {l : List α} (nodup : l.Nodup) :
    (l.map (fun a => (given.lookup a).getD 0)).sum ≤ (given.map (·.2)).sum := by
  induction given with
  | nil => simp
  | cons g given ih =>
    obtain ⟨a, v⟩ := g
    have each : ∀ c ∈ l, (((a, v) :: given).lookup c).getD 0 ≤ (if c = a then v else 0) + (given.lookup c).getD 0 := by
      intro c _
      by_cases e : c = a
      · simp [e]
      · rw [lookup_cons_ne e, if_neg e, Nat.zero_add]
    refine (List.sum_le_sum each).trans ?_
    rw [List.sum_map_add]
    exact Nat.add_le_add (sum_one_le nodup a v) ih

theorem mem_of_lookup {α β : Type} [DecidableEq α] {l : List (α × β)} {a : α} {v : β} (h : l.lookup a = some v) :
    (a, v) ∈ l := by
  induction l with
  | nil => cases h
  | cons g l ih =>
    obtain ⟨c, w⟩ := g
    by_cases e : a = c
    · subst e
      rw [List.lookup_cons_self] at h
      exact Option.some.inj h ▸ List.mem_cons_self
    · exact List.mem_cons_of_mem _ (ih (lookup_cons_ne e w l ▸ h))

/-! ## RECOMPUTE (R143, R144) -/

theorem Part.division_unadmitted (h : (p.feeder f).state ≠ .normal) : p.division f = ⟨[], (p.feeder f).rotor⟩ := by
  rw [Part.division_eq, if_neg h]

/-- Every cap of the demanding set is at least 60 (R139). -/
theorem Part.demanding_caps (bays : ∀ b : BayId, (p.bay b).numbersSound)
    (rates : ∀ k r n, p.record k = some r → r.rateCap = some n → 60 ≤ n ∧ n ≤ 800) :
    ∀ m ∈ p.demanding f, 60 ≤ m.cap := by
  intro m hm
  obtain ⟨-, -, -, -, r, x, hr, -, -, cap, -⟩ := Part.member_eq_some_iff.1 (Part.mem_demanding_iff.1 hm).2
  obtain ⟨rating, -, -, -, vehicle, -⟩ := bays m.bay
  have rate : 60 ≤ r.rateCap.getD (p.bay m.bay).rating := by
    cases h : r.rateCap with
    | none => exact rating
    | some n => exact (rates m.slot r n hr h).1
  rw [cap, Bay.capWith_eq]
  dsimp only
  split <;> omega

theorem Part.share_limits_le (caps : ∀ m ∈ p.demanding f, 60 ≤ m.cap) :
    ((p.baysOfFeeder f).map (fun b => ((p.share f).bay b).limit)).sum ≤ (p.feeder f).available := by
  have limits : (p.baysOfFeeder f).map (fun b => ((p.share f).bay b).limit) =
      (p.baysOfFeeder f).map (fun b => ((p.division f).given.lookup b).getD 0) :=
    List.map_congr_left (fun b hb => by rw [Part.share_bay, if_pos hb]; rfl)
  rw [limits]
  refine (sum_lookup_le _ (p.baysOfFeeder_nodup f)).trans ?_
  unfold Feeder.available
  by_cases normal : (p.feeder f).state = .normal
  · rw [Part.division_eq, if_pos normal, if_pos normal]
    exact (divide_serves _ _ (p.demanding_bays_nodup f) caps).sum
  · rw [Part.division_unadmitted normal, if_neg normal]
    exact Nat.le_refl _

theorem Part.recompute_limits_le (used : (p.feeder f).state ≠ .unused) (caps : ∀ m ∈ p.demanding f, 60 ≤ m.cap) :
    ((p.baysOfFeeder f).map (fun b => ((p.recompute f).bay b).limit)).sum ≤ (p.feeder f).available := by
  by_cases none : p.baysOfFeeder f = []
  · rw [none]
    exact Nat.zero_le _
  · rw [Part.recompute_shares used none]
    exact Part.share_limits_le caps

/-- A bay that a recompute leaves a limit is that of an admitted member of a NORMAL feeder, and the limit is 60 to the
member's cap (R140, R143). -/
theorem Part.share_limit (caps : ∀ m ∈ p.demanding f, 60 ≤ m.cap) (hb : b ∈ p.baysOfFeeder f)
    (limit : ((p.share f).bay b).limit ≠ 0) :
    (p.feeder f).state = .normal ∧ ∃ m ∈ p.demanding f, m.bay = b ∧ p.admits f m = true ∧
      60 ≤ ((p.share f).bay b).limit ∧ ((p.share f).bay b).limit ≤ m.cap := by
  rw [Part.share_bay, if_pos hb] at limit ⊢
  dsimp only [Division.limit] at limit ⊢
  cases found : (p.division f).given.lookup b with
  | none => exact absurd (by rw [found]; rfl) limit
  | some v =>
    have given := mem_of_lookup found
    by_cases normal : (p.feeder f).state = .normal
    · have serves := divide_serves ((p.feeder f).limit - (p.feeder f).trim) (p.feeder f).rotor
        (p.demanding_bays_nodup f) caps
      rw [Part.division_eq, if_pos normal] at given
      obtain ⟨m, hm, bay, range⟩ := serves.range _ given
      exact ⟨normal, m, hm, bay, by rw [Part.admits, bay]; exact found ▸ rfl, range⟩
    · rw [Part.division_unadmitted normal] at given
      cases given

/-- With no slot the occupant of two bays, a recompute gives each member the phase of its own bay (R120, R140). -/
theorem Part.share_member (apart : p.OccupantsApart) (hm : m ∈ p.demanding f) (hr : p.record m.slot = some r)
    (hx : r.session = some x) :
    ∃ r', (p.share f).record m.slot = some r' ∧
      r.Resessioned (x.shared (p.admits f m) (p.feeder f).state.pauseCause) r' := by
  refine Part.share_record hm hr hx (fun n hn e => ?_)
  obtain ⟨-, hm, -⟩ := Part.member_eq_some_iff.1 (Part.mem_demanding_iff.1 hm).2
  obtain ⟨-, hn, -⟩ := Part.member_eq_some_iff.1 (Part.mem_demanding_iff.1 hn).2
  rw [Part.admits, Part.admits, apart _ _ _ hn (e ▸ hm)]

/-- A change of a session apart, a record is as it was, whatever its notice flag has become. -/
theorem Record.Resessioned.noticed {r' : Record} (h : r.Resessioned x r') (n : Bool) :
    { { r' with notice := n } with session := r.session, notice := r.notice, lastCause := r.lastCause } = r := h.rest

theorem Bay.le_capWith {y : Bay} {rateCap : Option Nat} {n : Nat} (h : n ≤ y.capWith rateCap) :
    n ≤ y.rating ∧ (y.cap ≠ 0 → n ≤ y.cap) ∧ ∀ rate, rateCap = some rate → n ≤ rate := by
  rw [Bay.capWith_eq] at h
  dsimp only at h
  refine ⟨?_, fun used => ?_, ?_⟩
  · split at h <;> omega
  · rw [if_neg used] at h
    omega
  · rintro rate rfl
    rw [Option.getD_some] at h
    split at h <;> omega

theorem withObject_val {n : Nat} (i : Fin n) (effect : Fin n → State) :
    withObject n i.val effect = .next (effect i).complete := by
  rw [withObject, fin?_val]
  rfl

theorem exec_recompute (s : State) (f : FeederId) :
    exec (.recompute f.val) s = .next (s.withPart (s.part.recompute f)).complete := withObject_val f _

/-- A part with which nothing is left to do is complete but for the transmitter's choice. -/
theorem State.withPart_quiet {s : State} {q : Part} (settled : s.settled) (work : q.work = s.part.work) :
    (s.withPart q).complete.part.quiet = q.quiet := State.complete_quiet (s := s.withPart q) (work.trans settled)

end

/-- A limit is one that its bay, its occupant's rate and its feeder's state allow (R138 to R140). -/
def Part.LimitAdmitted (t : Part) (f : FeederId) (b : BayId) : Prop :=
  60 ≤ (t.bay b).limit ∧ (t.bay b).limit ≤ (t.bay b).rating ∧
  ((t.bay b).cap ≠ 0 → (t.bay b).limit ≤ (t.bay b).cap) ∧
  (t.feeder f).state = .normal ∧ (t.bay b).condition ≠ .out ∧ (t.bay b).condition ≠ .dark ∧
  ∃ k r x, t.occupant b = some k ∧ t.record k = some r ∧ r.session = some x ∧ x.phase = .charge ∧
    ∀ n, r.rateCap = some n → (t.bay b).limit ≤ n

theorem Part.share_limitAdmitted {p t : Part} {f : FeederId} {b : BayId} (apart : p.OccupantsApart)
    (caps : ∀ m ∈ p.demanding f, 60 ≤ m.cap) (quiet : t.quiet = (p.share f).quiet) (hb : b ∈ p.baysOfFeeder f)
    (positive : (t.bay b).limit ≠ 0) : t.LimitAdmitted f b := by
  have bay := Part.bay_of_quiet quiet b
  have limit : (t.bay b).limit = ((p.share f).bay b).limit := (congrArg Bay.limit bay :)
  rw [limit] at positive
  obtain ⟨normal, m, hm, rfl, admitted, least, most⟩ := Part.share_limit caps hb positive
  obtain ⟨-, member⟩ := Part.mem_demanding_iff.1 hm
  obtain ⟨-, occupant, usable, -, r, x, hr, hx, -, cap, -⟩ := Part.member_eq_some_iff.1 member
  obtain ⟨r', hr', resessioned⟩ := Part.share_member apart hm hr hx
  obtain ⟨n, ht⟩ := Part.record_some_of_quiet quiet hr'
  have shares := p.share_sharesOn f
  have shared := shares.bay m.bay
  have rating : (t.bay m.bay).rating = (p.bay m.bay).rating :=
    (congrArg Bay.rating bay :).trans (congrArg Bay.rating shared :)
  have vehicle : (t.bay m.bay).cap = (p.bay m.bay).cap := (congrArg Bay.cap bay :).trans (congrArg Bay.cap shared :)
  have condition : (t.bay m.bay).condition = (p.bay m.bay).condition :=
    (congrArg Bay.condition bay :).trans (congrArg Bay.condition shared :)
  have state : (t.feeder f).state = (p.feeder f).state :=
    (congrArg Feeder.state (Part.feeder_of_quiet quiet f) :).trans (p.share_stays f).state
  have occupied : t.occupant m.bay = some m.slot :=
    (Part.occupant_of_quiet quiet _).trans ((shares.occupant _).trans occupant)
  rw [cap] at most
  obtain ⟨byRating, byCap, byRate⟩ := Bay.le_capWith most
  unfold Part.LimitAdmitted
  rw [limit, rating, vehicle, condition, state]
  refine ⟨least, byRating, byCap, normal, fun h => ?_, fun h => ?_, m.slot, _, _, occupied, ht, resessioned.session, ?_,
    fun n h => byRate n ?_⟩
  · rw [h] at usable
    cases usable
  · rw [h] at usable
    cases usable
  · rw [admitted]
    rfl
  · exact (congrArg Record.rateCap resessioned.rest).symm.trans h

/-- Settles O37: the stages of a recompute give the limits, the feeder and the sessions (`Part.share_bay`,
`Part.share_feeder`, `Part.share_member`), the bounds come from what a division gives (`divide_serves`), and the transmitter
clears no more than a notice flag after it. -/
theorem recomputeStaysWithinTheAvailableCurrent : Obligations.RecomputeStaysWithinTheAvailableCurrent := by
  unfold Obligations.RecomputeStaysWithinTheAvailableCurrent
  refine ⟨⟨fun s f settled parts bays rates used => ?bounds, fun s f idle => ?idle⟩,
    fun x => ⟨fun normal => ?available, fun other => ?dead⟩, fun s f settled parts used bays => ?writes,
    fun p f => ⟨?order, fun m => ?members⟩⟩
  case idle => rw [exec_recompute, Part.recompute_idle idle]
  case available =>
    rw [Feeder.available, if_pos normal]
    omega
  case dead => rcases other with h | h | h <;> simp [Feeder.available, h]
  case order =>
    exact (p.baysOfFeeder_sorted f).sublist (p.demanding_bays_sublist f)
  case members =>
    rw [Part.mem_demanding_iff, Part.member_eq_some_iff, Part.mem_baysOfFeeder]
    have usable : (p.bay m.bay).condition.unusable = false ↔
        (p.bay m.bay).condition ≠ .out ∧ (p.bay m.bay).condition ≠ .dark := by
      cases (p.bay m.bay).condition <;> decide
    simp only [usable, Phase.demands_iff, Bay.capWith_eq, Settings.weight, true_and, and_assoc]
  case bounds =>
    have caps := Part.demanding_caps (f := f) bays rates
    refine ⟨_, exec_recompute s f, ?_⟩
    have quiet := State.withPart_quiet settled (s.part.recompute_work f)
    generalize (s.withPart (s.part.recompute f)).complete = t at quiet
    have stays := s.part.recompute_stays f
    have feeder := Part.feeder_of_quiet quiet f
    have state : (t.part.feeder f).state = (s.part.feeder f).state := (congrArg Feeder.state feeder :).trans stays.state
    have config : (t.part.feeder f).config = (s.part.feeder f).config :=
      (congrArg Feeder.config feeder :).trans stays.config
    have bayEq (b : BayId) := Part.bay_of_quiet quiet b
    have sameBays : t.part.baysOfFeeder f = s.part.baysOfFeeder f :=
      (Part.baysOfFeeder_of_quiet quiet f).trans ((s.part.recompute_sharesOn f).baysOfFeeder f)
    have limit (b : BayId) : (t.part.bay b).limit = ((s.part.recompute f).bay b).limit := (congrArg Bay.limit (bayEq b) :)
    refine ⟨?sum, fun b hb positive => ?bay⟩
    case sum =>
      simp only [sameBays, limit]
      refine (Part.recompute_limits_le used caps).trans (Nat.le_of_eq ?_)
      have current : (t.part.feeder f).limit - (t.part.feeder f).trim = (s.part.feeder f).limit - (s.part.feeder f).trim :=
        congrArg (fun c : Nat × Nat × Nat × Nat × Bool => c.1 - c.2.1) config
      rw [state, current, Feeder.available]
    case bay =>
      rw [sameBays] at hb
      rw [Part.recompute_shares used (List.ne_nil_of_mem hb)] at quiet
      exact Part.share_limitAdmitted parts.occupantsApart caps quiet hb positive
  case writes =>
    refine ⟨_, exec_recompute s f, ?_⟩
    have quiet := State.withPart_quiet settled (s.part.recompute_work f)
    rw [Part.recompute_shares used bays] at quiet ⊢
    generalize (s.withPart (s.part.share f)).complete = t at quiet
    have feeder := (Part.feeder_of_quiet quiet f).trans (s.part.share_feeder f)
    have difficulty := Part.difficulty_of_quiet quiet f
    simp only [← Part.division_eq, ← Part.admits_eq]
    refine ⟨fun b => ?bay, (congrArg Feeder.rotor feeder :), (congrArg Feeder.recomputeDue feeder :), ?sticky,
      (congrArg Feeder.condition feeder :).trans difficulty.symm, fun m hm r y hr hy => ?member, fun k r hr other => ?rest⟩
    case bay =>
      have bay := Part.bay_of_quiet quiet b
      rw [Part.share_bay] at bay
      have noticed := congrArg (fun x : Bay => { x with notice := (s.part.bay b).notice }) bay
      refine Eq.trans noticed ?_
      split <;> rfl
    case sticky =>
      rw [← Part.runsShort_eq]
      exact (congrArg Feeder.sticky feeder :)
    case member =>
      obtain ⟨r', hr', resessioned⟩ := Part.share_member parts.occupantsApart hm hr hy
      obtain ⟨n, ht⟩ := Part.record_some_of_quiet quiet hr'
      refine ⟨_, ht, resessioned.session.trans ?_, resessioned.noticed n⟩
      rw [FeederState.pauseCause_eq, Session.shared]
    case rest =>
      obtain ⟨n, ht⟩ := Part.record_some_of_quiet quiet ((Part.share_record_ne other).trans hr)
      exact ⟨_, ht, rfl⟩

end Sys2Proof.Machine

namespace Sys2Proof.Machine

/-! ## Trip inputs (R134) -/

section
variable {p : Part} {s : State} {f : FeederId} {low : Bool} {since time expiry : Nat} {b : BayId} {m : Member} {r : Record}
  {y : Session} {x : Feeder}

/-- An event of the time base at one feeder, completed. -/
theorem withFeeder_at (g : Part → FeederId → Part) {q : Part} (h : g { s.part with time := max s.part.time time } f = q) :
    withObject 8 f.val (fun f => (s.at time).onPart (fun p => g p f)) = .next (s.withPart q).complete :=
  h ▸ withObject_val f _

theorem Part.pinChanged_eq (p : Part) (f : FeederId) (low : Bool) : p.pinChanged f low = p.setTrip f ⟨low,
    if low = (p.feeder f).active then none
    else if (p.trip f).low = low ∧ (p.trip f).since.isSome then (p.trip f).since else some p.time⟩ := by
  unfold Part.pinChanged
  by_cases same : low = (p.feeder f).active
  · simp [same]
  · by_cases kept : (p.trip f).low = low
    · cases h : (p.trip f).since <;> simp [same, kept, h]
    · simp [same, kept]

theorem Part.debounce_none (h : (p.trip f).since = none) : p.debounce f = p := by
  simp only [Part.debounce, h]

theorem Part.debounce_early (h : (p.trip f).since = some since) (early : p.time < since + 200000) : p.debounce f = p := by
  simp only [Part.debounce, h]
  exact if_neg (Nat.not_le.2 early)

theorem Part.debounce_late (h : (p.trip f).since = some since) (late : since + 200000 ≤ p.time) :
    p.debounce f = (p.setTrip f ⟨(p.trip f).low, none⟩).levelChanged f (p.trip f).low := by
  simp only [Part.debounce, h]
  exact if_pos late

/-! ## The debounced level at the feeder (R135) -/

/-- Whether an active level trips the feeder. -/
def Feeder.trips (x : Feeder) (level : Bool) : Prop :=
  level = true ∧ x.tripEnabled = true ∧ (x.state = .normal ∨ x.state = .recovering)

/-- Whether an inactive level releases the feeder. -/
def Feeder.releases (x : Feeder) (level : Bool) : Prop := level = false ∧ x.state = .tripped

/-- A feeder that an active level has tripped. -/
def Feeder.afterTrip (x : Feeder) : Feeder :=
  { x with state := .tripped, active := true, recovery := none, overdrawCount := 0, notice := true
           sticky := { x.sticky with tripSeen := true } }

/-- A feeder that an inactive level has released, its recovery timer running. -/
def Feeder.afterRelease (x : Feeder) (expiry : Nat) : Feeder :=
  { x with state := .recovering, active := false, recovery := some expiry, notice := true }

theorem Part.levelChanged_trips (h : (p.feeder f).trips low) :
    p.levelChanged f low = (p.setFeeder f (p.feeder f).afterTrip).recompute f := by
  obtain ⟨rfl, enabled, state⟩ := h
  have trips : ((p.feeder f).tripEnabled && ((p.feeder f).state = .normal || (p.feeder f).state = .recovering)) = true := by
    simpa [enabled] using state
  unfold Part.levelChanged
  dsimp only [Part.modFeeder]
  rw [if_pos rfl, if_pos trips, Part.setFeeder_tripFeeder]
  rfl

theorem Part.levelChanged_releases (h : (p.feeder f).releases low) :
    p.levelChanged f low =
      (p.setFeeder f ((p.feeder f).afterRelease (p.time + p.settings.recoveryDelay * 1000000))).recompute f := by
  obtain ⟨rfl, state⟩ := h
  unfold Part.levelChanged
  dsimp only
  rw [if_neg Bool.false_ne_true, if_pos state]
  exact congrArg (Part.recompute · f) (p.modFeeder_setFeeder f _ _)

theorem Part.levelChanged_other (trips : ¬ (p.feeder f).trips low) (releases : ¬ (p.feeder f).releases low) :
    p.levelChanged f low = p.setFeeder f { p.feeder f with active := low, notice := true } := by
  unfold Part.levelChanged
  cases low <;> simp_all [Feeder.trips, Feeder.releases, Part.modFeeder]

/-- What a feeder's change of state leaves of its limits and sessions: no bay of it has a limit, and every session of its
demanding set is PAUSED for TRIP (R135, R140). -/
theorem Part.recompute_dead (used : x.state ≠ .unused) (dead : x.state ≠ .normal) :
    (∀ b ∈ p.baysOfFeeder f, (((p.setFeeder f x).recompute f).bay b).limit = 0) ∧
    ∀ m ∈ p.demanding f, ∀ r y, p.record m.slot = some r → r.session = some y →
      ∃ r', ((p.setFeeder f x).recompute f).record m.slot = some r' ∧
        r'.session = some { y with phase := .paused, pause := .trip } := by
  have state : ((p.setFeeder f x).feeder f).state = x.state := by rw [Part.feeder_setFeeder_same]
  have shares (h : p.baysOfFeeder f ≠ []) : (p.setFeeder f x).recompute f = (p.setFeeder f x).share f :=
    Part.recompute_shares (state ▸ used) h
  have none := Part.division_unadmitted (state ▸ dead : ((p.setFeeder f x).feeder f).state ≠ .normal)
  refine ⟨fun b hb => ?_, fun m hm r y hr hy => ?_⟩
  · rw [shares (List.ne_nil_of_mem hb), Part.share_bay, none]
    exact congrArg Bay.limit (if_pos hb)
  · obtain ⟨r', hr', resessioned⟩ := Part.share_record (p := p.setFeeder f x) (a := false) hm hr hy
      (fun n _ _ => by rw [Part.admits, none]; rfl)
    rw [shares (List.ne_nil_of_mem (Part.mem_demanding_iff.1 hm).1)]
    refine ⟨r', hr', resessioned.session.trans ?_⟩
    rw [FeederState.pauseCause_eq, if_neg (state ▸ dead)]
    rfl

theorem Part.recompute_active (p : Part) (f : FeederId) : ((p.recompute f).feeder f).active = (p.feeder f).active := by
  rcases p.recompute_cases f with e | ⟨e, -⟩ <;> rw [e]
  · rw [Part.feeder_modFeeder_same]
  · exact (congrArg Feeder.active (p.share_feeder f) :)

/-! ## DEBOUNCE and RECOVERY_TIMER (R134, R135) -/

/-- The record `x` of a feeder has been stored at a change of its debounced level, and recomputed or not. -/
structure Part.TakesLevel (p : Part) (f : FeederId) (low : Bool) (x : Feeder) (q : Part) : Prop where
  state : (q.feeder f).state = x.state
  config : (q.feeder f).config = x.config
  recovery : (q.feeder f).recovery = x.recovery
  tripSeen : x.sticky.tripSeen = true → (q.feeder f).sticky.tripSeen = true
  active : (q.feeder f).active = low
  trip (g : FeederId) : q.trip g = p.trip g
  work : q.work = p.work
  bays : q.baysOfFeeder f = p.baysOfFeeder f

theorem Part.takesLevel_setFeeder (active : x.active = low) : p.TakesLevel f low x (p.setFeeder f x) := by
  have stored := p.feeder_setFeeder_same f x
  exact ⟨by rw [stored], by rw [stored], by rw [stored], by rw [stored]; exact id, by rw [stored, active], fun _ => rfl,
    rfl, rfl⟩

theorem Part.takesLevel_recompute (active : x.active = low) : p.TakesLevel f low x ((p.setFeeder f x).recompute f) := by
  have stays := p.setFeeder_recompute_stays f x
  have shares := (p.setFeeder f x).recompute_sharesOn f
  exact ⟨stays.state, stays.config, stays.recovery, stays.tripSeen,
    by rw [Part.recompute_active, Part.feeder_setFeeder_same, active], fun g => (congrArg (Part.trip · g) shares.besides :),
    shares.work, shares.baysOfFeeder f⟩

theorem Part.TakesLevel.quiet {q u : Part} (h : p.TakesLevel f low x q) (quiet : u.quiet = q.quiet) :
    p.TakesLevel f low x u := by
  have feeder := Part.feeder_of_quiet quiet f
  exact ⟨(congrArg Feeder.state feeder :).trans h.state, (congrArg Feeder.config feeder :).trans h.config,
    (congrArg Feeder.recovery feeder :).trans h.recovery,
    fun e => (congrArg (fun y : Feeder => y.sticky.tripSeen) feeder :).trans (h.tripSeen e),
    (congrArg Feeder.active feeder :).trans h.active, fun g => (congrArg (Part.trip · g) quiet :).trans (h.trip g),
    (congrArg Part.work quiet :).trans h.work, (Part.baysOfFeeder_of_quiet quiet f).trans h.bays⟩

/-- A change of state at the feeder, as it stands after the transmitter's choice: its record, and the limits and the
sessions that the recompute leaves (R135, R140). -/
theorem Part.takesLevel_dead {u : Part} (used : x.state ≠ .unused) (dead : x.state ≠ .normal) (active : x.active = low)
    (quiet : u.quiet = ((p.setFeeder f x).recompute f).quiet) :
    p.TakesLevel f low x u ∧ (∀ b ∈ u.baysOfFeeder f, (u.bay b).limit = 0) ∧
    ∀ m ∈ p.demanding f, ∀ r y, p.record m.slot = some r → r.session = some y →
      ∃ r', u.record m.slot = some r' ∧ r'.session = some { y with phase := .paused, pause := .trip } := by
  have takes := (p.takesLevel_recompute active).quiet quiet
  obtain ⟨limits, sessions⟩ := Part.recompute_dead (p := p) (f := f) used dead
  refine ⟨takes, fun b hb => ?_, fun m hm r y hr hy => ?_⟩
  · exact (congrArg Bay.limit (Part.bay_of_quiet quiet b) :).trans (limits b (takes.bays ▸ hb))
  · obtain ⟨r', hr', session⟩ := sessions m hm r y hr hy
    obtain ⟨n, hu⟩ := Part.record_some_of_quiet quiet hr'
    exact ⟨_, hu, session⟩

theorem Part.levelChanged_work (p : Part) (f : FeederId) (low : Bool) : (p.levelChanged f low).work = p.work := by
  by_cases trips : (p.feeder f).trips low
  · rw [Part.levelChanged_trips trips]
    exact (p.setFeeder f _).recompute_work f
  by_cases releases : (p.feeder f).releases low
  · rw [Part.levelChanged_releases releases]
    exact (p.setFeeder f _).recompute_work f
  · rw [Part.levelChanged_other trips releases]
    rfl

/-- What a change of the debounced level comes to, whatever notice flag the transmitter clears after it (R135). -/
structure Part.FollowsLevel (p : Part) (f : FeederId) (low : Bool) (u : Part) : Prop where
  active : (u.feeder f).active = low
  trip : u.trip f = p.trip f
  config : (u.feeder f).config = (p.feeder f).config
  sessions : (p.feeder f).trips low ∨ (p.feeder f).releases low →
    ∀ m ∈ p.demanding f, ∀ r y, p.record m.slot = some r → r.session = some y →
      ∃ r', u.record m.slot = some r' ∧ r'.session = some { y with phase := .paused, pause := .trip }
  trips : (p.feeder f).trips low → (u.feeder f).state = .tripped ∧ (u.feeder f).recovery = none ∧
    (u.feeder f).sticky.tripSeen = true ∧ ∀ b ∈ u.baysOfFeeder f, (u.bay b).limit = 0
  releases : (p.feeder f).releases low → (u.feeder f).state = .recovering ∧
    (u.feeder f).recovery = some (p.time + p.settings.recoveryDelay * 1000000)
  stays : ¬ (p.feeder f).trips low → ¬ (p.feeder f).releases low →
    (u.feeder f).state = (p.feeder f).state ∧ (u.feeder f).recovery = (p.feeder f).recovery

theorem Part.levelChanged_follows {u : Part} (quiet : u.quiet = (p.levelChanged f low).quiet) :
    p.FollowsLevel f low u := by
  by_cases trips : (p.feeder f).trips low
  case pos =>
    rw [Part.levelChanged_trips trips] at quiet
    obtain ⟨takes, limits, sessions⟩ := Part.takesLevel_dead (x := (p.feeder f).afterTrip) nofun nofun trips.1.symm quiet
    exact ⟨takes.active, takes.trip f, takes.config, fun _ => sessions,
      fun _ => ⟨takes.state, takes.recovery, takes.tripSeen rfl, limits⟩,
      fun h => absurd (trips.1.symm.trans h.1) Bool.true_eq_false.mp, (absurd trips ·)⟩
  by_cases releases : (p.feeder f).releases low
  case pos =>
    rw [Part.levelChanged_releases releases] at quiet
    obtain ⟨takes, -, sessions⟩ :=
      Part.takesLevel_dead (x := (p.feeder f).afterRelease _) nofun nofun releases.1.symm quiet
    exact ⟨takes.active, takes.trip f, takes.config, fun _ => sessions, (absurd · trips),
      fun _ => ⟨takes.state, takes.recovery⟩, fun _ => (absurd releases ·)⟩
  case neg =>
    rw [Part.levelChanged_other trips releases] at quiet
    have takes := (Part.takesLevel_setFeeder rfl).quiet quiet
    exact ⟨takes.active, takes.trip f, takes.config, (absurd · (not_or.2 ⟨trips, releases⟩)), (absurd · trips),
      (absurd · releases), fun _ _ => ⟨takes.state, takes.recovery⟩⟩

theorem Part.recovered_restores (h : (p.feeder f).recovery = some expiry) (due : expiry ≤ p.time) :
    p.recovered f =
      ((p.setFeeder f { p.feeder f with state := .normal, recovery := none, notice := true }).recompute f).retryDue := by
  simp only [Part.recovered, h]
  exact if_pos due

theorem Part.recovered_early (h : ∀ expiry, (p.feeder f).recovery = some expiry → p.time < expiry) :
    p.recovered f = p := by
  unfold Part.recovered
  split
  · next expiry running => exact if_neg (Nat.not_le.2 (h expiry running))
  · rfl

end

/-- Settles O40: the outcomes of a pin's change, of a debounce and of a recovery timer, the change of the debounced level by
`Part.levelChanged_follows`. -/
theorem tripInputsTripAndReleaseTheFeeder : Obligations.TripInputsTripAndReleaseTheFeeder := by
  unfold Obligations.TripInputsTripAndReleaseTheFeeder
  refine ⟨fun s f low time => ?pin, fun s f time since settled running => ⟨fun early => ?early, fun late => ?late⟩,
    fun s f time none => ?none, fun s f time => ⟨fun expiry running due => ?restores, fun early => ?waits⟩⟩
  case pin => exact withFeeder_at (fun p f => p.pinChanged f low) (Part.pinChanged_eq _ f low)
  case early => exact withFeeder_at Part.debounce (Part.debounce_early running early)
  case none => exact withFeeder_at Part.debounce (Part.debounce_none none)
  case restores => exact withFeeder_at Part.recovered (Part.recovered_restores running due)
  case waits => exact withFeeder_at Part.recovered (Part.recovered_early early)
  case late =>
    have given := withFeeder_at (s := s) (f := f) (time := time) Part.debounce (Part.debounce_late running late)
    obtain ⟨active, trip, config, sessions, trips, releases, stays⟩ := Part.levelChanged_follows
      (State.withPart_quiet settled (Part.levelChanged_work (Part.setTrip { s.part with time := max s.part.time time } f
        ⟨(s.part.trip f).low, none⟩) f (s.part.trip f).low))
    refine ⟨_, given, active, trip.trans (Part.trip_setTrip_same _ _ _), config, sessions,
      fun h enabled state => trips ⟨h, enabled, state⟩, fun h state => releases ⟨h, state⟩,
      fun quiet still => stays ?_ ?_⟩
    · rintro ⟨h, enabled, state⟩
      rcases quiet h with off | unused | tripped
      · exact Bool.false_ne_true (off.symm.trans enabled)
      · rcases state with e | e <;> cases unused.symm.trans e
      · rcases state with e | e <;> cases tripped.symm.trans e
    · exact fun ⟨h, state⟩ => still h state

end Sys2Proof.Machine

namespace Sys2Proof.Machine

/-! ## The running penalties (R131, R145) -/

/-- A walk whose every step writes the entry of its own index changes each entry of a list without repetition once. -/
theorem foldl_entry_nodup {ι α β : Type} [DecidableEq ι] (entry : β → ι → α) {f : β → ι → β} {g : ι → α → α}
    (step : ∀ p i j, entry (f p i) j = if j = i then g i (entry p i) else entry p j) {l : List ι} (nodup : l.Nodup)
    (p : β) (j : ι) : entry (l.foldl f p) j = if j ∈ l then g j (entry p j) else entry p j := by
  induction l generalizing p with
  | nil => rfl
  | cons i l ih =>
    obtain ⟨fresh, nodup⟩ := List.nodup_cons.1 nodup
    rw [List.foldl_cons, ih nodup, step]
    by_cases e : j = i
    · subst e
      simp [fresh]
    · simp [e]

section
variable {p q : Part} {f g : FeederId} {b j : BayId} {k : SlotId} {r : Record} {x : Session}

theorem Part.countDown_bay (p : Part) (b j : BayId) : (p.countDown b).bay j =
    if j = b then { p.bay b with penalty := (p.bay b).penalty - 1 } else p.bay j := by
  unfold Part.countDown
  dsimp only
  by_cases none : (p.bay b).penalty = 0
  · have same : (p.bay b).penalty - 1 = (p.bay b).penalty := by omega
    rw [if_pos none, same]
    split
    · next e => rw [e]
    · rfl
  · rw [if_neg none]
    split <;> exact Part.bay_modBay p b (fun x => { x with penalty := (p.bay b).penalty - 1 }) j

/-- A penalty of 1 ends, and a recompute becomes due (R131, R145). -/
theorem Part.countDown_last (h : (p.bay b).penalty = 1) : p.countDown b =
    (p.setBay b { p.bay b with penalty := 0 }).setFeeder (p.bay b).feeder
      { p.feeder (p.bay b).feeder with recomputeDue := true } := by
  unfold Part.countDown
  rw [h]
  rfl

theorem Part.countDown_pool (p : Part) (b : BayId) : (p.countDown b).pool = p.pool := by
  unfold Part.countDown
  dsimp only
  split
  · rfl
  · split <;> rfl

theorem Part.countDown_core (p : Part) (b : BayId) (f : FeederId) : ((p.countDown b).feeder f).core = (p.feeder f).core := by
  unfold Part.countDown
  dsimp only
  split
  · rfl
  · split
    · exact Part.shareChanged_core _ _ _
    · rfl

theorem Part.countDown_sharesOn (hb : b ∈ p.baysOfFeeder f) : Part.SharesOn f p (p.countDown b) := by
  obtain ⟨-, rfl⟩ := Part.mem_baysOfFeeder.1 hb
  unfold Part.countDown
  dsimp only
  split
  · exact .refl _ p
  · have lowered : Part.SharesOn (p.bay b).feeder p
        (p.modBay b (fun x => { x with penalty := (p.bay b).penalty - 1 })) := .modBay hb rfl
    split
    · exact lowered.trans (.modFeeder _)
    · exact lowered

/-- The part when the running penalties of a feeder's bays have fallen (R145, step 1). -/
def Part.counted (p : Part) (f : FeederId) : Part := (p.baysOfFeeder f).foldl Part.countDown p

theorem Part.counted_bay (p : Part) (f : FeederId) (b : BayId) : (p.counted f).bay b =
    if b ∈ p.baysOfFeeder f then { p.bay b with penalty := (p.bay b).penalty - 1 } else p.bay b :=
  foldl_entry_nodup Part.bay (g := fun _ x => { x with penalty := x.penalty - 1 }) Part.countDown_bay
    (p.baysOfFeeder_nodup f) p b

theorem Part.counted_record (p : Part) (f : FeederId) (k : SlotId) : (p.counted f).record k = p.record k :=
  congrArg (Pool.record · k) (Part.foldl_pool _ Part.countDown_pool p)

theorem Part.counted_core (p : Part) (f g : FeederId) : ((p.counted f).feeder g).core = (p.feeder g).core :=
  foldl_view (fun u : Part => (u.feeder g).core) (fun u b => u.countDown_core b g) _ p

theorem Part.counted_sharesOn (p : Part) (f : FeederId) : Part.SharesOn f p (p.counted f) :=
  .foldl (fun _ _ hb => Part.countDown_sharesOn hb) (fun _ hb => hb)

/-! ## The overdraw check (R145) -/

/-- The readings of a NORMAL feeder exceed its available current. -/
def Part.Exceeds (p : Part) (f : FeederId) : Prop :=
  (p.feeder f).state = .normal ∧ (p.feeder f).limit - (p.feeder f).trim < p.readingSum f

/-- The check brings the overdraw count to 3. -/
def Part.Strikes (p : Part) (f : FeederId) : Prop := p.Exceeds f ∧ 2 ≤ (p.feeder f).overdrawCount

/-- Of a feeder's bays, one with the largest reading less limit, the lowest number among equals. -/
def Part.Foremost (p : Part) (l : List BayId) (b : BayId) : Prop :=
  ∀ j ∈ l, (p.bay j).excess < (p.bay b).excess ∨ ((p.bay j).excess = (p.bay b).excess ∧ b ≤ j)

theorem Part.overdrawNext_exceeds (h : p.Exceeds f) : p.overdrawNext f = (p.feeder f).overdrawCount + 1 := by
  unfold Part.overdrawNext Feeder.available
  rw [if_pos (by simpa [h.1] using h.2)]

theorem Part.overdrawNext_within (h : ¬ p.Exceeds f) : p.overdrawNext f = 0 := by
  unfold Part.overdrawNext Feeder.available
  rw [if_neg]
  intro e
  obtain ⟨normal, less⟩ : (p.feeder f).state = .normal ∧ _ := by simpa using e
  rw [if_pos normal] at less
  exact h ⟨normal, less⟩

theorem Part.strikes_iff : p.Strikes f ↔ Config.overdrawTicks ≤ p.overdrawNext f := by
  unfold Part.Strikes Config.overdrawTicks
  by_cases h : p.Exceeds f
  · rw [Part.overdrawNext_exceeds h]
    simp only [h, true_and]
    omega
  · rw [Part.overdrawNext_within h]
    simp [h]

theorem Part.exceeds_congr (feeder : (q.feeder f).core.quiet = (p.feeder f).core.quiet)
    (bays : q.baysOfFeeder f = p.baysOfFeeder f)
    (reading : ∀ b ∈ p.baysOfFeeder f, (q.bay b).reading = (p.bay b).reading) : q.Exceeds f ↔ p.Exceeds f := by
  have state : (q.feeder f).state = (p.feeder f).state := (congrArg Feeder.state feeder :)
  have limit : (q.feeder f).limit = (p.feeder f).limit := (congrArg Feeder.limit feeder :)
  have trim : (q.feeder f).trim = (p.feeder f).trim := (congrArg Feeder.trim feeder :)
  have sum : q.readingSum f = p.readingSum f := by
    unfold Part.readingSum
    rw [bays, List.map_congr_left reading]
  rw [Part.Exceeds, state, limit, trim, sum, Part.Exceeds]

theorem Part.strikes_congr (feeder : (q.feeder f).core.quiet = (p.feeder f).core.quiet)
    (bays : q.baysOfFeeder f = p.baysOfFeeder f)
    (reading : ∀ b ∈ p.baysOfFeeder f, (q.bay b).reading = (p.bay b).reading) : q.Strikes f ↔ p.Strikes f := by
  have count : (q.feeder f).overdrawCount = (p.feeder f).overdrawCount := (congrArg Feeder.overdrawCount feeder :)
  rw [Part.Strikes, Part.exceeds_congr feeder bays reading, count, Part.Strikes]

theorem Part.foremost_congr {l : List BayId} (excess : ∀ c, c = b ∨ c ∈ l → (q.bay c).excess = (p.bay c).excess) :
    q.Foremost l b ↔ p.Foremost l b := by
  unfold Part.Foremost
  rw [excess b (.inl rfl)]
  exact forall₂_congr (fun j hj => by rw [excess j (.inr hj)])

theorem Part.worst_eq_none_iff {l : List BayId} : p.worst l = none ↔ l = [] := by
  cases l with
  | nil => simp [Part.worst]
  | cons b l =>
    unfold Part.worst
    split
    · simp
    · split <;> simp

theorem Part.worst_foremost {l : List BayId} (sorted : l.Pairwise (· < ·)) (h : p.worst l = some b) :
    b ∈ l ∧ p.Foremost l b := by
  induction l generalizing b with
  | nil => cases h
  | cons c l ih =>
    obtain ⟨first, sorted⟩ := List.pairwise_cons.1 sorted
    unfold Part.worst at h
    split at h
    · next none =>
      obtain rfl := Part.worst_eq_none_iff.1 none
      cases h
      refine ⟨List.mem_cons_self, fun j hj => .inr ?_⟩
      rw [List.mem_singleton.1 hj]
      exact ⟨rfl, le_refl _⟩
    · next d hd =>
      obtain ⟨mem, foremost⟩ := ih sorted hd
      split at h
      · next le =>
        cases h
        refine ⟨List.mem_cons_self, fun j hj => ?_⟩
        rcases List.mem_cons.1 hj with rfl | hj
        · exact .inr ⟨rfl, le_refl _⟩
        · have most : (p.bay j).excess ≤ (p.bay d).excess := (foremost j hj).elim Int.le_of_lt (fun h => h.1.le)
          exact (lt_or_eq_of_le (most.trans le)).imp_right (fun e => ⟨e, (first j hj).le⟩)
      · next lt =>
        cases h
        refine ⟨List.mem_cons_of_mem _ mem, fun j hj => ?_⟩
        rcases List.mem_cons.1 hj with rfl | hj
        · exact .inl (not_le.1 lt)
        · exact foremost j hj

/-- The bay that the overdraw check picks (R145, step 3). -/
theorem Part.worst_eq_some_iff {l : List BayId} (sorted : l.Pairwise (· < ·)) :
    p.worst l = some b ↔ b ∈ l ∧ p.Foremost l b := by
  refine ⟨Part.worst_foremost sorted, fun ⟨mem, foremost⟩ => ?_⟩
  cases hw : p.worst l with
  | none =>
    rw [Part.worst_eq_none_iff.1 hw] at mem
    cases mem
  | some c =>
    obtain ⟨memC, foremostC⟩ := Part.worst_foremost sorted hw
    rcases foremost c memC with less | ⟨same, le⟩
    · rcases foremostC b mem with less' | ⟨same, -⟩
      · exact absurd less (lt_asymm less')
      · exact absurd same less.ne'
    · rcases foremostC b mem with less | ⟨-, ge⟩
      · exact absurd same less.ne'
      · rw [le_antisymm le ge]

end

end Sys2Proof.Machine

namespace Sys2Proof.Machine

/-! ## An overdraw penalty (R131, R145, R146) -/

section
variable {p q : Part} {f g : FeederId} {b j : BayId} {k : SlotId} {r : Record} {x : Session}

theorem Session.penalize_demands (x : Session) : x.penalize.phase.demands = x.phase.demands := by
  cases h : x.phase <;> simp [Session.penalize, h, Phase.demands]

theorem Session.penalize_isOverstay (x : Session) : x.penalize.phase.isOverstay = x.phase.isOverstay := by
  cases h : x.phase <;> simp [Session.penalize, h, Phase.isOverstay]

theorem Session.penalize_pauses (h : x.phase = .charge ∨ x.phase = .paused) :
    x.penalize = { x with phase := .paused, pause := .overdraw } := by
  rcases h with h | h <;> simp [Session.penalize, h]

/-- The part with a bay's penalty begun, its session aside. -/
def Part.marked (p : Part) (f : FeederId) (b : BayId) : Part :=
  (p.modBay b (fun x => { x with penalty := 60 })).shareChanged f

/-- The part with a bay's penalty begun, and the session there told of it. -/
def Part.fined (p : Part) (f : FeederId) (b : BayId) : Part :=
  (p.occupant b).elim (p.marked f b) (fun k => (p.marked f b).updSession k Session.penalize)

theorem Part.penalize_eq (h : p.worst (p.baysOfFeeder f) = some b) : p.penalize f =
    (p.fined f b).modFeeder f (fun x => Feeder.stick { x with overdrawCount := 0 } .justOverdraw) := by
  have occupant : (p.marked f b).occupant b = p.occupant b := rfl
  unfold Part.penalize Part.fined
  rw [h]
  dsimp only
  change Part.modFeeder (match (p.marked f b).occupant b with
    | some s => (p.marked f b).updSession s Session.penalize
    | none => p.marked f b) f _ = _
  rw [occupant]
  cases p.occupant b <;> rfl

theorem Part.fined_resessions (p : Part) (f : FeederId) (b : BayId) : (p.marked f b).Resessions (p.fined f b) := by
  unfold Part.fined
  cases p.occupant b with
  | none => exact .refl _
  | some k =>
    exact Part.updSession_resessions (fun x _ => x.penalize_demands.symm) (fun x _ => x.penalize_isOverstay.symm)

theorem Part.fined_record_ne (h : p.occupant b ≠ some k) : (p.fined f b).record k = p.record k := by
  unfold Part.fined
  cases ho : p.occupant b with
  | none => rfl
  | some i => exact (p.marked f b).record_updSession i _ k (fun e => h (e ▸ ho))

theorem Part.fined_record (ho : p.occupant b = some k) (hr : p.record k = some r) (hx : r.session = some x) :
    ∃ r', (p.fined f b).record k = some r' ∧ r.Resessioned x.penalize r' := by
  unfold Part.fined
  rw [ho]
  exact Part.updSession_resessioned (p := p.marked f b) hr hx Session.penalize

theorem Part.marked_sharesOn (hb : b ∈ p.baysOfFeeder f) : Part.SharesOn f p (p.marked f b) := by
  have began : Part.SharesOn f p (p.modBay b (fun x => { x with penalty := 60 })) := .modBay hb rfl
  exact began.trans (.modFeeder (fun x => { x with recomputeDue := true }))

theorem Part.penalize_sharesOn (hb : b ∈ p.baysOfFeeder f) (h : p.worst (p.baysOfFeeder f) = some b) :
    Part.SharesOn f p (p.penalize f) := by
  have marked := Part.marked_sharesOn hb
  rw [Part.penalize_eq h]
  refine (marked.trans (.resessions (p.fined_resessions f b) (fun k hk => ?_))).trans (.modFeeder _)
  exact Part.fined_record_ne (hk b (by rwa [marked.baysOfFeeder]))

theorem Part.penalize_bay (h : p.worst (p.baysOfFeeder f) = some b) (j : BayId) :
    (p.penalize f).bay j = if j = b then { p.bay b with penalty := 60 } else p.bay j := by
  rw [Part.penalize_eq h]
  exact ((p.fined_resessions f b).bay j).trans (Part.bay_modBay p b (fun x => { x with penalty := 60 }) j)

theorem Sticky.union_justOverdraw (s : Sticky) : s.union .justOverdraw = { s with overdraw := true } := by
  simp [Sticky.union, Sticky.justOverdraw, Sticky.empty]

theorem Part.penalize_feeder (h : p.worst (p.baysOfFeeder f) = some b) : ((p.penalize f).feeder f).quiet =
    { p.feeder f with
      recomputeDue := true, overdrawCount := 0
      sticky := { (p.feeder f).sticky with overdraw := true } }.quiet := by
  have marked : (p.marked f b).feeder f = { p.feeder f with recomputeDue := true } := Part.feeder_modFeeder_same _ f _
  rw [Part.penalize_eq h, Part.feeder_modFeeder_same, Feeder.stick_quiet, (p.fined_resessions f b).feeder, marked,
    Sticky.union_justOverdraw]

/-- The session at the bay, in CHARGE or PAUSED, is PAUSED for OVERDRAW (R131). -/
theorem Part.penalize_session (h : p.worst (p.baysOfFeeder f) = some b) (ho : p.occupant b = some k)
    (hx : p.session k = some x) (drawn : x.phase = .charge ∨ x.phase = .paused) :
    (p.penalize f).session k = some { x with phase := .paused, pause := .overdraw } := by
  obtain ⟨r, hr, hx⟩ := Option.bind_eq_some_iff.1 hx
  obtain ⟨r', hr', resessioned⟩ := Part.fined_record ho hr hx
  rw [Part.penalize_eq h, ← Session.penalize_pauses drawn]
  exact Option.bind_eq_some_iff.2 ⟨r', hr', resessioned.session⟩

end

end Sys2Proof.Machine

namespace Sys2Proof.Machine

/-! ## What a tick reads of one feeder (R145, R147) -/

/-- What the Share Unit reads of one feeder is the same, but for notice flags. -/
structure Part.SameAt (f : FeederId) (p q : Part) : Prop where
  feeder : (q.feeder f).quiet = (p.feeder f).quiet
  bays : q.baysOfFeeder f = p.baysOfFeeder f
  bay (b : BayId) : b ∈ p.baysOfFeeder f → (q.bay b).quiet = (p.bay b).quiet
  misses (a : PostId) : (q.post a).misses = (p.post a).misses
  occupant (b : BayId) : q.occupant b = p.occupant b
  session (b : BayId) (k : SlotId) : b ∈ p.baysOfFeeder f → p.occupant b = some k → q.session k = p.session k

namespace Part.SameAt

variable {p q u : Part} {f g : FeederId} {b : BayId}

theorem refl (f : FeederId) (p : Part) : Part.SameAt f p p :=
  ⟨rfl, rfl, fun _ _ => rfl, fun _ => rfl, fun _ => rfl, fun _ _ _ _ => rfl⟩

theorem trans (h : Part.SameAt f p q) (h' : Part.SameAt f q u) : Part.SameAt f p u where
  feeder := h'.feeder.trans h.feeder
  bays := h'.bays.trans h.bays
  bay b hb := (h'.bay b (by rwa [h.bays])).trans (h.bay b hb)
  misses a := (h'.misses a).trans (h.misses a)
  occupant b := (h'.occupant b).trans (h.occupant b)
  session b k hb hk := (h'.session b k (by rwa [h.bays]) (by rwa [h.occupant])).trans (h.session b k hb hk)

theorem of_quiet (h : q.quiet = p.quiet) (f : FeederId) : Part.SameAt f p q where
  feeder := Part.feeder_of_quiet h f
  bays := Part.baysOfFeeder_of_quiet h f
  bay b _ := Part.bay_of_quiet h b
  misses a := (congrArg Post.misses (Part.post_of_quiet h a) :)
  occupant := Part.occupant_of_quiet h
  session _ k _ _ := Part.session_of_quiet h k

/-- The work on one feeder leaves what is read of another, where no slot is the occupant of two bays. -/
theorem of_sharesOn (h : Part.SharesOn g p q) (apart : p.OccupantsApart) (ne : f ≠ g) : Part.SameAt f p q := by
  have other (b : BayId) (hb : b ∈ p.baysOfFeeder f) : b ∉ p.baysOfFeeder g := fun hg =>
    ne ((Part.mem_baysOfFeeder.1 hb).2.symm.trans (Part.mem_baysOfFeeder.1 hg).2)
  refine ⟨congrArg Feeder.quiet (h.feeders f ne), h.baysOfFeeder f, fun b hb => congrArg Bay.quiet (h.bays b (other b hb)),
    fun a => congrArg Post.misses (h.post a), h.occupant, fun b k hb hk => ?_⟩
  refine congrArg (Option.bind · Record.session) (h.record k (fun c hc hkc => ?_))
  exact other b hb (apart b c k hk hkc ▸ hc)

theorem difficulty (h : Part.SameAt f p q) : q.difficulty f = p.difficulty f := by
  refine Part.difficulty_congr (congrArg Feeder.overdrawCount h.feeder :) h.bays (fun b hb => ?_)
    (fun b _ => h.occupant b) (fun b hb k hk => h.session b k hb hk)
  have post : (q.bay b).post = (p.bay b).post := (congrArg Bay.post (h.bay b hb) :)
  rw [post, h.misses]

theorem exceeds (h : Part.SameAt f p q) : q.Exceeds f ↔ p.Exceeds f :=
  Part.exceeds_congr (congrArg Feeder.core h.feeder) h.bays (fun b hb => (congrArg Bay.reading (h.bay b hb) :))

theorem strikes (h : Part.SameAt f p q) : q.Strikes f ↔ p.Strikes f :=
  Part.strikes_congr (congrArg Feeder.core h.feeder) h.bays (fun b hb => (congrArg Bay.reading (h.bay b hb) :))

theorem foremost (h : Part.SameAt f p q) (hb : b ∈ p.baysOfFeeder f) :
    q.Foremost (q.baysOfFeeder f) b ↔ p.Foremost (p.baysOfFeeder f) b := by
  rw [h.bays]
  refine Part.foremost_congr (fun c hc => (congrArg Bay.excess (h.bay c ?_) :))
  exact hc.elim (fun e => e ▸ hb) id

end Part.SameAt

/-! ## What a recompute leaves of a tick (R144, R147) -/

section
variable {p q u : Part} {f : FeederId} {b : BayId} {k : SlotId} {x : Session}

theorem Part.recompute_penalty (p : Part) (f : FeederId) (b : BayId) :
    ((p.recompute f).bay b).penalty = (p.bay b).penalty := by
  rcases p.recompute_cases f with e | ⟨e, -⟩ <;> rw [e]
  · rfl
  · rw [Part.share_bay]
    split <;> rfl

theorem Part.recompute_overdraw (p : Part) (f : FeederId) :
    ((p.recompute f).feeder f).sticky.overdraw = (p.feeder f).sticky.overdraw := by
  rcases p.recompute_cases f with e | ⟨e, -⟩ <;> rw [e]
  · rw [Part.feeder_modFeeder_same]
  · exact (congrArg (fun y : Feeder => y.sticky.overdraw) (p.share_feeder f) :)

theorem Part.modFeeder_difficulty {g : Feeder → Feeder}
    (count : (g (p.feeder f)).overdrawCount = (p.feeder f).overdrawCount) :
    (p.modFeeder f g).difficulty f = p.difficulty f :=
  Part.difficulty_congr (by rw [Part.feeder_modFeeder_same, count]) rfl (fun _ _ => rfl) (fun _ _ => rfl)
    (fun _ _ _ _ => rfl)

/-- A recompute leaves CONDITION true to what it reports (R147). -/
theorem Part.recompute_condition (h : (p.feeder f).condition = p.difficulty f) :
    ((p.recompute f).feeder f).condition = (p.recompute f).difficulty f := by
  rcases p.recompute_cases f with e | ⟨e, -⟩ <;> rw [e]
  · rw [Part.modFeeder_difficulty rfl, Part.feeder_modFeeder_same]
    exact h
  · exact (congrArg Feeder.condition (p.share_feeder f) :)

/-- A bay with a penalty is outside the demanding set, and a recompute leaves the record there (R138). -/
theorem Part.recompute_record_penalized (apart : p.OccupantsApart) (ho : p.occupant b = some k)
    (penalty : (p.bay b).penalty ≠ 0) : (p.recompute f).record k = p.record k := by
  refine Part.recompute_record_ne (fun m hm e => ?_)
  obtain ⟨-, occupant, -, free, -⟩ := Part.member_eq_some_iff.1 (Part.mem_demanding_iff.1 hm).2
  rw [apart m.bay b k (e ▸ occupant) ho] at free
  exact penalty free

theorem Part.evalCondition_feeder (p : Part) (f : FeederId) :
    (p.evalCondition f).feeder f = { p.feeder f with condition := p.difficulty f } := Part.feeder_modFeeder_same p f _

theorem Part.evalCondition_bay (p : Part) (f : FeederId) (b : BayId) : (p.evalCondition f).bay b = p.bay b := rfl

theorem Part.evalCondition_record (p : Part) (f : FeederId) (k : SlotId) :
    (p.evalCondition f).record k = p.record k := rfl

theorem Part.evalCondition_condition (p : Part) (f : FeederId) :
    ((p.evalCondition f).feeder f).condition = (p.evalCondition f).difficulty f := by
  rw [Part.evalCondition_difficulty, Part.evalCondition_feeder]

/-! ## One feeder's tick (R145) -/

/-- The check finds a bay to penalize where readings exceed the current. -/
theorem Part.Exceeds.worst (h : p.Exceeds f) : ∃ b ∈ p.baysOfFeeder f, p.worst (p.baysOfFeeder f) = some b := by
  cases hw : p.worst (p.baysOfFeeder f) with
  | none =>
    have less := h.2
    rw [Part.readingSum, Part.worst_eq_none_iff.1 hw] at less
    exact absurd less (Nat.not_lt_zero _)
  | some b => exact ⟨b, (Part.worst_foremost (p.baysOfFeeder_sorted f) hw).1, rfl⟩

theorem Part.checkOverdraw_strikes (h : p.Strikes f) : p.checkOverdraw f = p.penalize f := if_pos (Part.strikes_iff.1 h)

theorem Part.checkOverdraw_spares (h : ¬ p.Strikes f) :
    p.checkOverdraw f = p.modFeeder f (fun x => { x with overdrawCount := p.overdrawNext f }) :=
  if_neg (fun e => h (Part.strikes_iff.2 e))

theorem Part.checkOverdraw_sharesOn (p : Part) (f : FeederId) : Part.SharesOn f p (p.checkOverdraw f) := by
  by_cases h : p.Strikes f
  · obtain ⟨b, hb, hw⟩ := h.1.worst
    exact Part.checkOverdraw_strikes h ▸ Part.penalize_sharesOn hb hw
  · exact Part.checkOverdraw_spares h ▸ .modFeeder _

theorem Part.checkOverdraw_struck (strikes : p.Strikes f) (hb : b ∈ p.baysOfFeeder f)
    (foremost : p.Foremost (p.baysOfFeeder f) b) : ((p.checkOverdraw f).bay b).penalty = 60 := by
  have worst := (Part.worst_eq_some_iff (p.baysOfFeeder_sorted f)).2 ⟨hb, foremost⟩
  rw [Part.checkOverdraw_strikes strikes, Part.penalize_bay worst, if_pos rfl]

theorem Part.checkOverdraw_spared (h : ¬ (p.Strikes f ∧ p.Foremost (p.baysOfFeeder f) b)) :
    (p.checkOverdraw f).bay b = p.bay b := by
  by_cases strikes : p.Strikes f
  · obtain ⟨c, -, worst⟩ := strikes.1.worst
    have ne : b ≠ c := by
      rintro rfl
      exact h ⟨strikes, (Part.worst_foremost (p.baysOfFeeder_sorted f) worst).2⟩
    rw [Part.checkOverdraw_strikes strikes, Part.penalize_bay worst, if_neg ne]
  · rw [Part.checkOverdraw_spares strikes]
    rfl

theorem Part.checkOverdraw_session (strikes : p.Strikes f) (hb : b ∈ p.baysOfFeeder f)
    (foremost : p.Foremost (p.baysOfFeeder f) b) (ho : p.occupant b = some k) (hx : p.session k = some x)
    (drawn : x.phase = .charge ∨ x.phase = .paused) :
    (p.checkOverdraw f).session k = some { x with phase := .paused, pause := .overdraw } := by
  have worst := (Part.worst_eq_some_iff (p.baysOfFeeder_sorted f)).2 ⟨hb, foremost⟩
  rw [Part.checkOverdraw_strikes strikes]
  exact Part.penalize_session worst ho hx drawn

theorem Part.checkOverdraw_feeder_strikes (strikes : p.Strikes f) : ((p.checkOverdraw f).feeder f).overdrawCount = 0 ∧
    ((p.checkOverdraw f).feeder f).sticky.overdraw = true := by
  obtain ⟨b, -, worst⟩ := strikes.1.worst
  have feeder := Part.penalize_feeder worst
  rw [Part.checkOverdraw_strikes strikes]
  exact ⟨(congrArg Feeder.overdrawCount feeder :), (congrArg (fun y : Feeder => y.sticky.overdraw) feeder :)⟩

theorem Part.checkOverdraw_feeder_spares (h : ¬ p.Strikes f) :
    (p.checkOverdraw f).feeder f = { p.feeder f with overdrawCount := p.overdrawNext f } := by
  rw [Part.checkOverdraw_spares h, Part.feeder_modFeeder_same]

/-- The part when a tick has counted the penalties of a feeder down and taken its overdraw check (R145, steps 1 to 3). -/
def Part.overdrawChecked (p : Part) (f : FeederId) : Part := (p.counted f).checkOverdraw f

theorem Part.overdrawChecked_sharesOn (p : Part) (f : FeederId) : Part.SharesOn f p (p.overdrawChecked f) :=
  (p.counted_sharesOn f).trans ((p.counted f).checkOverdraw_sharesOn f)

theorem Part.shareTickOf_eq (p : Part) (f : FeederId) :
    p.shareTickOf f = ((p.overdrawChecked f).evalCondition f).recompute f := rfl

theorem Part.shareTickOf_sharesOn (p : Part) (f : FeederId) : Part.SharesOn f p (p.shareTickOf f) :=
  (p.overdrawChecked_sharesOn f).trans ((Part.evalCondition_sharesOn _ f).trans (Part.recompute_sharesOn _ f))

theorem Part.shareTickOf_penalty (p : Part) (f : FeederId) (b : BayId) :
    ((p.shareTickOf f).bay b).penalty = ((p.overdrawChecked f).bay b).penalty := Part.recompute_penalty _ f b

theorem Part.shareTickOf_count (p : Part) (f : FeederId) :
    ((p.shareTickOf f).feeder f).overdrawCount = ((p.overdrawChecked f).feeder f).overdrawCount := by
  have stays := ((p.overdrawChecked f).evalCondition f).recompute_stays f
  rw [Part.shareTickOf_eq, stays.overdrawCount, Part.evalCondition_feeder]

theorem Part.shareTickOf_overdraw (p : Part) (f : FeederId) :
    ((p.shareTickOf f).feeder f).sticky.overdraw = ((p.overdrawChecked f).feeder f).sticky.overdraw := by
  rw [Part.shareTickOf_eq, Part.recompute_overdraw, Part.evalCondition_feeder]

theorem Part.shareTickOf_condition (p : Part) (f : FeederId) :
    ((p.shareTickOf f).feeder f).condition = (p.shareTickOf f).difficulty f :=
  Part.recompute_condition (Part.evalCondition_condition _ f)

theorem Part.shareTickOf_session (apart : p.OccupantsApart) (ho : p.occupant b = some k)
    (penalty : ((p.overdrawChecked f).bay b).penalty ≠ 0) :
    (p.shareTickOf f).session k = (p.overdrawChecked f).session k := by
  have shares := (p.overdrawChecked_sharesOn f).trans (Part.evalCondition_sharesOn _ f)
  have record := Part.recompute_record_penalized (f := f) (shares.apart apart) ((shares.occupant b).trans ho)
    (by rwa [Part.evalCondition_bay])
  rw [Part.shareTickOf_eq, Part.session, record, Part.evalCondition_record, Part.session]

/-! The countdown of the penalties changes nothing that the check reads. -/

theorem Part.counted_penalty (hb : b ∈ p.baysOfFeeder f) : ((p.counted f).bay b).penalty = (p.bay b).penalty - 1 := by
  rw [Part.counted_bay, if_pos hb]

theorem Part.counted_draw (p : Part) (f : FeederId) (b : BayId) :
    { (p.counted f).bay b with penalty := 0 } = { p.bay b with penalty := 0 } := by
  rw [Part.counted_bay]
  split <;> rfl

theorem Part.counted_exceeds : (p.counted f).Exceeds f ↔ p.Exceeds f :=
  Part.exceeds_congr (congrArg Feeder.quiet (p.counted_core f f)) ((p.counted_sharesOn f).baysOfFeeder f)
    (fun b _ => (congrArg Bay.reading (p.counted_draw f b) :))

theorem Part.counted_strikes : (p.counted f).Strikes f ↔ p.Strikes f :=
  Part.strikes_congr (congrArg Feeder.quiet (p.counted_core f f)) ((p.counted_sharesOn f).baysOfFeeder f)
    (fun b _ => (congrArg Bay.reading (p.counted_draw f b) :))

theorem Part.counted_foremost :
    (p.counted f).Foremost ((p.counted f).baysOfFeeder f) b ↔ p.Foremost (p.baysOfFeeder f) b := by
  rw [(p.counted_sharesOn f).baysOfFeeder]
  exact Part.foremost_congr (fun c _ => (congrArg Bay.excess (p.counted_draw f c) :))

theorem Part.counted_session (p : Part) (f : FeederId) (k : SlotId) : (p.counted f).session k = p.session k :=
  congrArg (Option.bind · Record.session) (p.counted_record f k)

theorem Part.counted_overdrawCount (p : Part) (f : FeederId) :
    ((p.counted f).feeder f).overdrawCount = (p.feeder f).overdrawCount :=
  (congrArg Feeder.overdrawCount (p.counted_core f f) :)

/-- What the tick of one feeder does to it. -/
structure Part.TicksFeeder (f : FeederId) (p q : Part) : Prop where
  bays : q.baysOfFeeder f = p.baysOfFeeder f
  occupant (b : BayId) : q.occupant b = p.occupant b
  struck (b : BayId) : b ∈ p.baysOfFeeder f → p.Strikes f → p.Foremost (p.baysOfFeeder f) b → (q.bay b).penalty = 60
  spared (b : BayId) : b ∈ p.baysOfFeeder f → ¬ (p.Strikes f ∧ p.Foremost (p.baysOfFeeder f) b) →
    (q.bay b).penalty = (p.bay b).penalty - 1
  paused (b : BayId) (k : SlotId) (x : Session) : b ∈ p.baysOfFeeder f → p.Strikes f →
    p.Foremost (p.baysOfFeeder f) b → p.occupant b = some k → p.session k = some x →
    (x.phase = .charge ∨ x.phase = .paused) →
    q.session k = some { x with phase := .paused, pause := .overdraw }
  falls : ¬ p.Exceeds f → (q.feeder f).overdrawCount = 0
  rises : p.Exceeds f → (p.feeder f).overdrawCount < 2 → (q.feeder f).overdrawCount = (p.feeder f).overdrawCount + 1
  strikes : p.Strikes f → (q.feeder f).overdrawCount = 0 ∧ (q.feeder f).sticky.overdraw = true
  sticky : ¬ p.Strikes f → (q.feeder f).sticky.overdraw = (p.feeder f).sticky.overdraw
  condition : (q.feeder f).condition = q.difficulty f

theorem Part.shareTickOf_ticksFeeder (apart : p.OccupantsApart) : Part.TicksFeeder f p (p.shareTickOf f) := by
  have bays := (p.counted_sharesOn f).baysOfFeeder f
  have struck (b : BayId) (hb : b ∈ p.baysOfFeeder f) (strikes : p.Strikes f) (foremost : p.Foremost (p.baysOfFeeder f) b) :
      ((p.overdrawChecked f).bay b).penalty = 60 :=
    Part.checkOverdraw_struck (Part.counted_strikes.2 strikes) (bays ▸ hb) (Part.counted_foremost.2 foremost)
  have spares (h : ¬ p.Strikes f) := Part.checkOverdraw_feeder_spares (mt Part.counted_strikes.1 h)
  have count (h : ¬ p.Strikes f) : ((p.shareTickOf f).feeder f).overdrawCount = (p.counted f).overdrawNext f :=
    (p.shareTickOf_count f).trans (congrArg Feeder.overdrawCount (spares h))
  constructor
  case bays => exact (p.shareTickOf_sharesOn f).baysOfFeeder f
  case occupant => exact (p.shareTickOf_sharesOn f).occupant
  case struck => exact fun b hb strikes foremost => (p.shareTickOf_penalty f b).trans (struck b hb strikes foremost)
  case spared =>
    intro b hb h
    have same := Part.checkOverdraw_spared (fun e => h (e.imp Part.counted_strikes.1 Part.counted_foremost.1))
    exact (p.shareTickOf_penalty f b).trans ((congrArg Bay.penalty same).trans (Part.counted_penalty hb))
  case paused =>
    intro b k x hb strikes foremost ho hx drawn
    rw [Part.shareTickOf_session apart ho (by rw [struck b hb strikes foremost]; decide)]
    exact Part.checkOverdraw_session (Part.counted_strikes.2 strikes) (bays ▸ hb) (Part.counted_foremost.2 foremost)
      (((p.counted_sharesOn f).occupant b).trans ho) ((p.counted_session f k).trans hx) drawn
  case falls =>
    intro within
    rw [count (fun strikes => within strikes.1), Part.overdrawNext_within (mt Part.counted_exceeds.1 within)]
  case rises =>
    intro exceeds few
    rw [count (fun strikes => absurd strikes.2 (Nat.not_le.2 few)),
      Part.overdrawNext_exceeds (Part.counted_exceeds.2 exceeds), p.counted_overdrawCount]
  case strikes =>
    intro strikes
    rw [p.shareTickOf_count, p.shareTickOf_overdraw]
    exact Part.checkOverdraw_feeder_strikes (Part.counted_strikes.2 strikes)
  case sticky =>
    intro h
    refine (p.shareTickOf_overdraw f).trans ((congrArg (fun y : Feeder => y.sticky.overdraw) (spares h)).trans ?_)
    exact (congrArg (fun y : Feeder => y.sticky.overdraw) (p.counted_core f f) :)
  case condition => exact p.shareTickOf_condition f

end

end Sys2Proof.Machine

namespace Sys2Proof.Machine

/-! ## The tick of every feeder (R145) -/

section
variable {p q u : Part} {f : FeederId} {b : BayId} {l : List FeederId} {s : State}

theorem Part.TicksFeeder.before (h : Part.TicksFeeder f p q) (same : Part.SameAt f u p) : Part.TicksFeeder f u q where
  bays := h.bays.trans same.bays
  occupant b := (h.occupant b).trans (same.occupant b)
  struck b hb strikes foremost := h.struck b (same.bays ▸ hb) (same.strikes.2 strikes) ((same.foremost hb).2 foremost)
  spared b hb other := (h.spared b (same.bays ▸ hb)
    (fun e => other (e.imp same.strikes.1 (same.foremost hb).1))).trans
      (congrArg (fun x : Bay => x.penalty - 1) (same.bay b hb) :)
  paused b k x hb strikes foremost ho hx drawn := h.paused b k x (same.bays ▸ hb) (same.strikes.2 strikes)
    ((same.foremost hb).2 foremost) ((same.occupant b).trans ho) ((same.session b k hb ho).trans hx) drawn
  falls within := h.falls (mt same.exceeds.1 within)
  rises exceeds few := by
    have count : (p.feeder f).overdrawCount = (u.feeder f).overdrawCount := (congrArg Feeder.overdrawCount same.feeder :)
    exact count ▸ h.rises (same.exceeds.2 exceeds) (count ▸ few)
  strikes strikes := h.strikes (same.strikes.2 strikes)
  sticky h' := (h.sticky (mt same.strikes.1 h')).trans (congrArg (fun y : Feeder => y.sticky.overdraw) same.feeder :)
  condition := h.condition

theorem Part.TicksFeeder.after (h : Part.TicksFeeder f p q) (same : Part.SameAt f q u) : Part.TicksFeeder f p u := by
  have count : (u.feeder f).overdrawCount = (q.feeder f).overdrawCount := (congrArg Feeder.overdrawCount same.feeder :)
  have overdraw : (u.feeder f).sticky.overdraw = (q.feeder f).sticky.overdraw :=
    (congrArg (fun y : Feeder => y.sticky.overdraw) same.feeder :)
  have penalty (b : BayId) (hb : b ∈ p.baysOfFeeder f) : (u.bay b).penalty = (q.bay b).penalty :=
    (congrArg Bay.penalty (same.bay b (h.bays ▸ hb)) :)
  exact {
    bays := same.bays.trans h.bays
    occupant := fun b => (same.occupant b).trans (h.occupant b)
    struck := fun b hb strikes foremost => (penalty b hb).trans (h.struck b hb strikes foremost)
    spared := fun b hb other => (penalty b hb).trans (h.spared b hb other)
    paused := fun b k x hb strikes foremost ho hx drawn =>
      (same.session b k (h.bays ▸ hb) ((h.occupant b).trans ho)).trans (h.paused b k x hb strikes foremost ho hx drawn)
    falls := fun within => count.trans (h.falls within)
    rises := fun exceeds few => count.trans (h.rises exceeds few)
    strikes := fun strikes => (h.strikes strikes).imp count.trans overdraw.trans
    sticky := fun other => overdraw.trans (h.sticky other)
    condition := (congrArg Feeder.condition same.feeder :).trans (h.condition.trans same.difficulty.symm) }

/-- The ticks of other feeders leave what is read of a feeder. -/
theorem Part.foldl_shareTickOf_sameAt (apart : p.OccupantsApart) (hf : f ∉ l) :
    Part.SameAt f p (l.foldl Part.shareTickOf p) := by
  induction l generalizing p with
  | nil => exact .refl f p
  | cons g l ih =>
    obtain ⟨ne, hf⟩ := not_or.1 (mt List.mem_cons.2 hf)
    have shares := p.shareTickOf_sharesOn g
    rw [List.foldl_cons]
    exact (Part.SameAt.of_sharesOn shares apart ne).trans (ih (shares.apart apart) hf)

/-- A walk over the feeders gives each its own tick. -/
theorem Part.foldl_shareTickOf_ticksFeeder (apart : p.OccupantsApart) (nodup : l.Nodup) (hf : f ∈ l) :
    Part.TicksFeeder f p (l.foldl Part.shareTickOf p) := by
  induction l generalizing p with
  | nil => cases hf
  | cons g l ih =>
    obtain ⟨fresh, nodup⟩ := List.nodup_cons.1 nodup
    have shares := p.shareTickOf_sharesOn g
    have apart' := shares.apart apart
    rw [List.foldl_cons]
    rcases List.mem_cons.1 hf with rfl | hf
    · have own := Part.shareTickOf_ticksFeeder (f := f) apart
      exact own.after (Part.foldl_shareTickOf_sameAt apart' fresh)
    · have ne : f ≠ g := fun e => fresh (e ▸ hf)
      have other := Part.SameAt.of_sharesOn shares apart ne
      exact (ih apart' nodup hf).before other

theorem Part.foldl_shareTickOf_unconfigured (h : (p.bay b).configured = false) :
    (l.foldl Part.shareTickOf p).bay b = p.bay b := by
  induction l generalizing p with
  | nil => rfl
  | cons g l ih =>
    have same := (p.shareTickOf_sharesOn g).bays b (fun hb =>
      Bool.false_ne_true (h.symm.trans (Part.mem_baysOfFeeder.1 hb).1))
    exact (ih ((congrArg Bay.configured same).trans h)).trans same

theorem Part.SameAt.outstanding (p : Part) (o : Outstanding) (f : FeederId) :
    Part.SameAt f p { p with outstanding := o } :=
  ⟨rfl, rfl, fun _ _ => rfl, fun _ => rfl, fun _ => rfl, fun _ _ _ _ => rfl⟩

theorem Part.shareTick_ticksFeeder (apart : p.OccupantsApart) (f : FeederId) : Part.TicksFeeder f p p.shareTick := by
  have ticks : Part.TicksFeeder f p (allFeeders.foldl Part.shareTickOf p) :=
    Part.foldl_shareTickOf_ticksFeeder apart (List.nodup_finRange 8) (List.mem_finRange f)
  unfold Part.shareTick
  generalize allFeeders.foldl Part.shareTickOf p = ticked at ticks
  exact ticks.after (.outstanding ticked _ f)

theorem Part.shareTick_unconfigured (h : (p.bay b).configured = false) : p.shareTick.bay b = p.bay b := by
  have same := Part.foldl_shareTickOf_unconfigured (l := allFeeders) h
  unfold Part.shareTick
  generalize allFeeders.foldl Part.shareTickOf p = ticked at same
  exact same

theorem Part.shareTick_work (p : Part) : p.shareTick.work = p.work := by
  have same := foldl_view Part.work (fun p f => (p.shareTickOf_sharesOn f).work) allFeeders p
  unfold Part.shareTick
  generalize allFeeders.foldl Part.shareTickOf p = ticked at same
  exact same

theorem Part.shareTick_outstanding (p : Part) : p.shareTick.outstanding.share = false := by unfold Part.shareTick; rfl

theorem exec_shareTick (s : State) : exec .shareTick s = .next (s.withPart s.part.shareTick).complete := rfl

theorem exec_overdrawPenalty (s : State) (f : FeederId) : exec (.overdrawPenalty f.val) s = .next (s.withPart
    (if s.part.overdrawNext f ≥ Config.overdrawTicks then s.part.penalize f else s.part)).complete := withObject_val f _

theorem exec_penaltyEnd (s : State) (b : BayId) : exec (.penaltyEnd b.val) s = .next (s.withPart
    (if (s.part.bay b).penalty = 1 then s.part.countDown b else s.part)).complete := withObject_val b _

theorem Part.penalize_work (hb : b ∈ p.baysOfFeeder f) (h : p.worst (p.baysOfFeeder f) = some b) :
    (p.penalize f).work = p.work := (Part.penalize_sharesOn hb h).work

end

/-- Settles O39: the tick of each feeder by `Part.shareTickOf_ticksFeeder`, which the ticks of the others and the transmitter
leave standing; the two commands by what a penalty and its countdown write (`Part.penalize_bay`, `Part.countDown_last`). -/
theorem overdrawPenaltiesFallRunAndEnd : Obligations.OverdrawPenaltiesFallRunAndEnd := by
  unfold Obligations.OverdrawPenaltiesFallRunAndEnd
  refine ⟨fun s settled parts => ?tick,
    ⟨fun s f b settled hb foremost => ⟨fun exceeded => ?penalty, fun within => ?none⟩,
    fun s b => ?ends⟩, fun p f => Part.difficulty_iff⟩
  case tick =>
    have quiet := State.withPart_quiet settled s.part.shareTick_work
    have ticks (f : FeederId) := (Part.shareTick_ticksFeeder parts.occupantsApart f).after (.of_quiet quiet f)
    have moves : Part.Moves false s.part (s.withPart s.part.shareTick).complete.part :=
      s.part.shareTick_moves.trans (State.complete_moves (s.withPart s.part.shareTick))
    refine ⟨_, exec_shareTick s, ?done, fun b => ⟨?struck, fun spared => ?spared⟩, ?paused,
      fun f => ⟨(ticks f).falls, (ticks f).rises, (ticks f).strikes, (ticks f).sticky, (ticks f).condition⟩,
      moves.sameConfig, moves.clock_eq⟩
    case done =>
      rw [State.complete_outstanding]
      exact s.part.shareTick_outstanding
    case struck =>
      rintro ⟨configured, strikes, foremost⟩
      exact (ticks _).struck b (Part.mem_baysOfFeeder.2 ⟨configured, rfl⟩) strikes foremost
    case spared =>
      split
      · next configured =>
        exact (ticks _).spared b (Part.mem_baysOfFeeder.2 ⟨configured, rfl⟩) (fun ⟨strikes, foremost⟩ =>
          spared ⟨configured, strikes, foremost⟩)
      · next unconfigured =>
        have same := Part.bay_of_quiet quiet b
        rw [Part.shareTick_unconfigured (Bool.not_eq_true _ ▸ unconfigured)] at same
        exact (congrArg Bay.penalty same :)
    case paused =>
      rintro b k r x ⟨configured, strikes, foremost⟩ ho hr hx drawn
      have session := (ticks _).paused b k x (Part.mem_baysOfFeeder.2 ⟨configured, rfl⟩) strikes foremost ho
        (Option.bind_eq_some_iff.2 ⟨r, hr, hx⟩) drawn
      exact Option.bind_eq_some_iff.1 session
  case penalty =>
    obtain ⟨normal, count, exceeds⟩ := exceeded
    have worst := (Part.worst_eq_some_iff (s.part.baysOfFeeder_sorted f)).2 ⟨hb, foremost⟩
    have gives := exec_overdrawPenalty s f
    rw [if_pos (Part.strikes_iff.1 ⟨⟨normal, exceeds⟩, count⟩)] at gives
    have quiet := State.withPart_quiet settled (Part.penalize_work hb worst)
    have feeder := (Part.feeder_of_quiet quiet f).trans (Part.penalize_feeder worst)
    have penalty (j : BayId) : ((s.withPart (s.part.penalize f)).complete.part.bay j).penalty =
        if j = b then 60 else (s.part.bay j).penalty := by
      refine (congrArg Bay.penalty (Part.bay_of_quiet quiet j) :).trans ?_
      rw [Part.penalize_bay worst]
      split <;> rfl
    refine ⟨_, gives, (penalty b).trans (if_pos rfl), fun j ne => (penalty j).trans (if_neg ne),
      (congrArg (fun y : Feeder => y.sticky.overdraw) feeder :), (congrArg Feeder.overdrawCount feeder :),
      fun k r x ho hr hx drawn => ?_⟩
    have session := Part.penalize_session worst ho (Option.bind_eq_some_iff.2 ⟨r, hr, hx⟩) drawn
    exact Option.bind_eq_some_iff.1 ((Part.session_of_quiet quiet k).trans session)
  case none =>
    rw [exec_overdrawPenalty, if_neg]
    · rfl
    · intro enough
      obtain ⟨⟨normal, exceeds⟩, count⟩ := Part.strikes_iff.2 enough
      exact within ⟨normal, count, exceeds⟩
  case ends =>
    rw [exec_penaltyEnd]
    dsimp only
    split
    · next last => rw [Part.countDown_last last]
    · rfl

end Sys2Proof.Machine

namespace Sys2Proof.Machine

/-! ## What an event leaves of the bay link (R155, R159) -/

/-- What the Tracker, the Session Unit and the Share Unit leave alone when they act on a report of the bay link: the time
base, the posts, the round with its exchange, what the bays have been told, the states of the feeders and METER-GAP. No
blocking event is lost. -/
structure Part.SparesLink (p q : Part) : Prop where
  time : q.time = p.time
  posts : q.posts = p.posts
  link : q.link = p.link
  nextExchange : q.work.nextExchange = p.work.nextExchange
  told (b : BayId) : (q.bay b).told = (p.bay b).told
  state (f : FeederId) : (q.feeder f).state = (p.feeder f).state
  meterGap (f : FeederId) : (q.feeder f).sticky.meterGap = (p.feeder f).sticky.meterGap
  blocked (x : Blocked) : x ∈ p.work.blocked → x ∈ q.work.blocked

namespace Part.SparesLink

variable {p q u : Part}

theorem refl (p : Part) : p.SparesLink p :=
  ⟨rfl, rfl, rfl, rfl, fun _ => rfl, fun _ => rfl, fun _ => rfl, fun _ => id⟩

theorem trans (h : p.SparesLink q) (h' : q.SparesLink u) : p.SparesLink u where
  time := h'.time.trans h.time
  posts := h'.posts.trans h.posts
  link := h'.link.trans h.link
  nextExchange := h'.nextExchange.trans h.nextExchange
  told b := (h'.told b).trans (h.told b)
  state f := (h'.state f).trans (h.state f)
  meterGap f := (h'.meterGap f).trans (h.meterGap f)
  blocked x := h'.blocked x ∘ h.blocked x

theorem foldl {α : Type} {f : Part → α → Part} (h : ∀ p a, Part.SparesLink p (f p a)) (l : List α) (p : Part) :
    p.SparesLink (l.foldl f p) := by
  induction l generalizing p with
  | nil => exact .refl p
  | cons a l ih => exact (h p a).trans (ih _)

theorem post (h : p.SparesLink q) (a : PostId) : q.post a = p.post a := by
  rw [Part.post, h.posts, Part.post]

theorem config (h : p.SparesLink q) (b : BayId) : (q.bay b).config = (p.bay b).config := congrArg (·.1) (h.told b)

theorem modBay (p : Part) (b : BayId) {g : Bay → Bay} (told : (g (p.bay b)).told = (p.bay b).told) :
    p.SparesLink (p.modBay b g) :=
  { Part.SparesLink.refl p with
    told := fun j => by
      rw [Part.bay_modBay]
      split
      · next e => rw [e, told]
      · rfl }

theorem modFeeder (p : Part) (f : FeederId) {g : Feeder → Feeder} (state : (g (p.feeder f)).state = (p.feeder f).state)
    (meterGap : (g (p.feeder f)).sticky.meterGap = (p.feeder f).sticky.meterGap) : p.SparesLink (p.modFeeder f g) :=
  { Part.SparesLink.refl p with
    state := fun j => by
      rw [Part.feeder_modFeeder]
      split
      · next e => rw [e, state]
      · rfl
    meterGap := fun j => by
      rw [Part.feeder_modFeeder]
      split
      · next e => rw [e, meterGap]
      · rfl }

theorem work (p : Part) {w : Work} (next : w.nextExchange = p.work.nextExchange)
    (blocked : ∀ x ∈ p.work.blocked, x ∈ w.blocked) : p.SparesLink { p with work := w } :=
  { Part.SparesLink.refl p with nextExchange := next, blocked := blocked }

theorem ite {c : Prop} [Decidable c] (h : p.SparesLink q) (h' : p.SparesLink u) :
    p.SparesLink (if c then q else u) := by
  split
  · exact h
  · exact h'

end Part.SparesLink

/-! ### The moves of one record -/

section
variable {p : Part} {b : BayId} {k : SlotId} {r : Record} {cause : LastCause}

theorem Part.touchPost_sparesLink (p : Part) (a : PostId) : p.SparesLink (p.touchPost a) := by
  obtain ⟨idle, touched, -⟩ := p.touchPost_eq a
  rw [touched]
  exact .work p rfl fun _ => id

theorem Part.retryDue_sparesLink (p : Part) : p.SparesLink p.retryDue := .work p rfl fun _ => id

theorem Part.reportBlocked_sparesLink (p : Part) (b : BayId) (service : Bool) :
    p.SparesLink (p.reportBlocked b service) := .work p rfl fun _ => List.mem_append_left _

theorem Part.shareChanged_sparesLink (p : Part) (f : FeederId) : p.SparesLink (p.shareChanged f) :=
  .modFeeder p f rfl rfl

theorem Part.put_sparesLink (p : Part) (k : SlotId) (r : Record) : p.SparesLink (p.put k r) where
  time := p.put_time k r
  posts := p.put_posts k r
  link := p.put_link k r
  nextExchange := (congrArg Work.nextExchange (p.put_errands k r) :)
  told b := by rw [Part.put_bay]
  state f := by rw [Part.put_feeder]
  meterGap f := by rw [Part.put_feeder]
  blocked x h := (congrArg Work.blocked (p.put_errands k r) :) ▸ h

theorem Part.derive_sparesLink (p : Part) (b : BayId) : p.SparesLink (p.derive b) := by
  by_cases h : p.conditionOf b = (p.bay b).condition
  · rw [Part.derive_of_eq h]
    exact .refl p
  · have stored : p.SparesLink (p.rederived b) := .trans (.modBay p b rfl) (Part.touchPost_sparesLink _ _)
    have raised (c : Bool) : p.SparesLink (if c then (p.rederived b).reportBlocked b false else p.rederived b) :=
      .ite (stored.trans (Part.reportBlocked_sparesLink _ _ _)) stored
    rw [Part.derive_of_ne h]
    exact .ite (raised _) ((raised _).trans (Part.shareChanged_sparesLink _ _))

theorem Part.updSession_sparesLink (p : Part) (k : SlotId) (g : Session → Session) : p.SparesLink (p.updSession k g) := by
  unfold Part.updSession
  cases p.record k with
  | none => exact .refl p
  | some r =>
    dsimp only
    cases r.session with
    | none => exact .refl p
    | some x =>
      dsimp only
      have stored := p.put_sparesLink k
        (if x.reports (g x) then Record.flag { r with session := some (g x) } .session else { r with session := some (g x) })
      split
      · exact stored
      · next b hb =>
        have told (c : Prop) [Decidable c] {u : Part} (h : p.SparesLink u) :
            p.SparesLink (if c then u else u.shareChanged (p.bay b).feeder) :=
          .ite h (h.trans (Part.shareChanged_sparesLink _ _))
        exact .ite (told _ stored) ((told _ stored).trans (Part.derive_sparesLink _ _))

theorem Part.engaging_sparesLink (p : Part) (k : SlotId) (r : Record) (b : BayId) (cause : LastCause) :
    p.SparesLink (p.engaging k r b cause) :=
  .trans (.trans (p.put_sparesLink k _) (.modBay _ b rfl)) (Part.shareChanged_sparesLink _ _)

theorem Part.occupied_sparesLink (p : Part) (b : BayId) : p.SparesLink (p.occupied b) := by
  rcases p.occupied_cases b with same | ⟨timer, timed⟩ | ⟨k, r, c, -, -, engaged⟩
  · rw [same]
    exact .refl p
  · rw [timed]
    exact .modBay p b rfl
  · rw [engaged]
    exact (p.engaging_sparesLink k r c _).trans (Part.derive_sparesLink _ c)

theorem Part.vacated_sparesLink (p : Part) (b : BayId) : p.SparesLink (p.vacated b) := by
  by_cases h : p.occupant b = none
  · rw [Part.vacated_of_empty h]
    exact .modBay p b rfl
  · rw [Part.vacated_of_occupant h]
    exact .refl p

theorem Part.occupancyEvent_sparesLink (p : Part) (b : BayId) (occupied : Bool) :
    p.SparesLink (p.occupancyEvent b occupied) :=
  .trans (.ite (p.occupied_sparesLink b) (p.vacated_sparesLink b)) (Part.derive_sparesLink _ b)

theorem Part.closeRecord_sparesLink (p : Part) (k : SlotId) (result : Result) (closedBy : ClosedBy) :
    p.SparesLink (p.closeRecord k result closedBy) := by
  unfold Part.closeRecord
  cases p.record k with
  | none => exact .refl p
  | some r =>
    dsimp only
    have stored := p.put_sparesLink k (r.closed (p.pool.handle k) p.now result closedBy)
    refine .ite stored ?_
    split
    · exact stored
    · next b hb =>
      have retried := stored.trans (Part.retryDue_sparesLink _)
      have freed (c : Prop) [Decidable c] {u : Part} (h : p.SparesLink u) :
          p.SparesLink (if c then (u.modBay b (fun x => { x with penalty := 0 })).shareChanged (p.bay b).feeder else u) :=
        .ite (h.trans (.trans (.modBay u b rfl) (Part.shareChanged_sparesLink _ _))) h
      have tracked (c : Prop) [Decidable c] {u : Part} (h : p.SparesLink u) :
          p.SparesLink (if c then u.occupied b else u) := .ite (h.trans (u.occupied_sparesLink b)) h
      exact (tracked _ (freed _ retried)).trans (Part.derive_sparesLink _ b)

theorem Part.sessionReply_sparesLink (p : Part) (b : BayId) (v : SocketReading) (plugChanged : Bool) :
    p.SparesLink (p.sessionReply b v plugChanged) := by
  unfold Part.sessionReply
  cases p.occupant b with
  | none => exact .refl p
  | some k =>
    dsimp only
    cases p.record k with
    | none => exact .refl p
    | some r =>
      dsimp only
      cases r.session with
      | none => exact .refl p
      | some x =>
        dsimp only
        refine .ite ?_ (.ite (p.updSession_sparesLink k _) (.ite (p.updSession_sparesLink k _) (.refl p)))
        cases x.settle with
        | none => exact .refl p
        | some z => exact .ite (p.closeRecord_sparesLink k _ _) (.refl p)

/-! ### The recompute, and a post that leaves service -/

theorem Part.recompute_meterGap (p : Part) (f : FeederId) :
    ((p.recompute f).feeder f).sticky.meterGap = (p.feeder f).sticky.meterGap := by
  rcases p.recompute_cases f with e | ⟨e, -⟩ <;> rw [e]
  · rw [Part.feeder_modFeeder_same]
  · exact (congrArg (fun y : Feeder => y.sticky.meterGap) (p.share_feeder f) :)

theorem Part.recompute_sparesLink (p : Part) (f : FeederId) : p.SparesLink (p.recompute f) := by
  have shares := p.recompute_sharesOn f
  refine ⟨(congrArg Part.time shares.besides :), (congrArg Part.posts shares.besides :),
    (congrArg Part.link shares.besides :), congrArg Work.nextExchange shares.work,
    fun b => (congrArg Bay.told (shares.bay b) :), fun g => ?_, fun g => ?_, fun x h => shares.work ▸ h⟩
  · by_cases e : g = f
    · rw [e, (p.recompute_stays f).state]
    · rw [shares.feeders g e]
  · by_cases e : g = f
    · rw [e, p.recompute_meterGap]
    · rw [shares.feeders g e]

/-- The session of a bay that goes dark closes, is HALTED in its phase, or there is none (R121). -/
theorem Part.haltBay_cases (p : Part) (b : BayId) :
    p.haltBay b = p ∨ ∃ k, p.occupant b = some k ∧
      (p.haltBay b = p.closeRecord k .stopped .link ∨ p.haltBay b = p.updSession k Session.halt) := by
  unfold Part.haltBay
  cases p.occupant b with
  | none => exact .inl rfl
  | some k =>
    dsimp only
    cases p.session k with
    | none => exact .inl rfl
    | some x =>
      refine .inr ⟨k, rfl, ?_⟩
      dsimp only
      split
      · exact .inl rfl
      · exact .inr rfl

theorem Part.haltBay_sparesLink (p : Part) (b : BayId) : p.SparesLink (p.haltBay b) := by
  rcases p.haltBay_cases b with same | ⟨k, -, closes | halts⟩
  · rw [same]
    exact .refl p
  · rw [closes]
    exact p.closeRecord_sparesLink k _ _
  · rw [halts]
    exact p.updSession_sparesLink k _

theorem Part.idleTimers_sparesLink (p : Part) (bays : List BayId) : p.SparesLink (p.idleTimers bays) :=
  .foldl (fun u b => .modBay u b rfl) bays p

theorem Part.darken_sparesLink (p : Part) (bays : List BayId) : p.SparesLink (p.darken bays) :=
  .trans (.trans (p.idleTimers_sparesLink bays) (.foldl Part.derive_sparesLink bays _))
    (.foldl Part.haltBay_sparesLink bays _)

/-- Of the bay link, a post that takes another record writes that record alone. -/
theorem Part.leavePost_sparesLink (p : Part) (q : PostId) (x : Post) :
    (p.setPost q x).SparesLink (p.leavePost q x) :=
  .ite (.trans (Part.darken_sparesLink _ _) (.foldl Part.recompute_sparesLink _ _)) (.refl _)

theorem Part.leavePost_post (p : Part) (q : PostId) (x : Post) : (p.leavePost q x).post q = x :=
  ((p.leavePost_sparesLink q x).post q).trans (p.post_setPost_same q x)

theorem Part.meterGap_bay (p : Part) (b j : BayId) : (p.meterGap b).bay j = p.bay j := by
  unfold Part.meterGap
  split <;> rfl

end

end Sys2Proof.Machine

namespace Sys2Proof.Machine

/-! ## O27: the exchange that stands at the end of an event (R151, R152) -/

section
variable {p : Part} {q : PostId} {y : Exchange}

/-- An exchange that stands after the completion of an event stood before it, or has been opened above the last address
visited. -/
theorem Part.finish_exchange (h : p.finish.link.exchange = some y) :
    p.link.exchange = some y ∨ (p.work.nextExchange = true ∧ p.link.above y.post = true) := by
  cases next : p.work.nextExchange with
  | false => exact .inl (p.finish_link next ▸ h)
  | true =>
    have before : Part.Tidies true p p.takeBlocked.takeLeads.takeRetry.takeIdle :=
      .trans (.trans (.trans p.takeBlocked_tidies (Part.takeLeads_tidies _)) (Part.takeRetry_tidies _))
        (Part.takeIdle_tidies _)
    obtain ⟨link, -⟩ := before.link rfl
    change p.takeBlocked.takeLeads.takeRetry.takeIdle.takeExchange.link.exchange = some y at h
    rw [← link]
    generalize p.takeBlocked.takeLeads.takeRetry.takeIdle = u at h ⊢
    unfold Part.takeExchange Part.openNext at h
    split at h
    · dsimp only at h
      split at h
      · next a ha =>
        have found := List.find?_some ha
        rw [Bool.and_eq_true] at found
        cases h
        exact .inr ⟨rfl, found.1⟩
      · exact .inl h
    · exact .inl h

theorem Part.cut_post (p : Part) (q a : PostId) : (p.cut q).post a = p.post a := by
  unfold Part.cut
  split
  · split <;> rfl
  · rfl

theorem Part.cut_open (h : p.link.exchange = some y) (at_ : y.post = q) : p.cut q = p.endExchange q := by
  simp only [Part.cut, h, at_, if_true]

theorem Part.cut_elsewhere (h : ∀ y, p.link.exchange = some y → y.post ≠ q) : p.cut q = p := by
  unfold Part.cut
  split
  · next y hy => exact if_neg (h y hy)
  · rfl

/-- Where no exchange was to be opened, a cut leaves none with its post at the end of the event (R152, R165). -/
theorem Part.cut_finish_exchange_ne (still : p.work.nextExchange = false) :
    ∀ y, (p.cut q).finish.link.exchange = some y → y.post ≠ q := by
  intro y hy
  rcases Part.finish_exchange hy with stood | ⟨next, above⟩
  · exact Part.cut_exchange_ne p q stood
  · by_cases open_ : ∃ x, p.link.exchange = some x ∧ x.post = q
    · obtain ⟨x, hx, at_⟩ := open_
      rw [Part.cut_open hx at_] at above
      exact (Fin.ne_of_lt (of_decide_eq_true above)).symm
    · rw [Part.cut_elsewhere (fun x hx at_ => open_ ⟨x, hx, at_⟩), still] at next
      cases next

/-- A post that is neither ACTIVE nor STANDBY stands as it is through a cut and the completion of the event. -/
theorem Part.cut_finish_post (active : (p.post q).link ≠ .active) (standby : (p.post q).link ≠ .standby) :
    (p.cut q).finish.post q = p.post q :=
  ((p.cut_follows q).trans (Part.finish_follows _)).post_eq active standby

end

/-! ## O27: the actions on a post (R162, R165) -/

section
variable {p : Part} {q : PostId}

theorem Part.reseek_post (p : Part) (q : PostId) : (p.reseek q).post q =
    { p.post q with
      link := .seeking, cause := .none, seq := 0, misses := 0, valid := 0, slowWakes := 0, timer := .stopped
      notice := (p.post q).notice || (p.post q).link ≠ .seeking || (p.post q).cause ≠ .none ||
        (p.post q).slowWakes ≠ 0 } := p.leavePost_post q _

theorem Part.isolate_post (p : Part) (q : PostId) (cause : IsolationCause) : (p.isolate q cause).post q =
    { p.post q with
      link := .isolated, cause := cause, timer := .stopped
      notice := (p.post q).notice || (p.post q).link ≠ .isolated || (p.post q).cause ≠ cause } := p.leavePost_post q _

theorem Part.wakePost_standby (h : (p.post q).link = .standby) : p.wakePost q =
    p.setPost q { p.post q with link := .waking, timer := .wake (p.time + 3000000), notice := true } := if_pos h

theorem Part.wakePost_other (h : (p.post q).link ≠ .standby) : p.wakePost q = p := if_neg h

end

/-! ## O27: POST-FORCE (R165) -/

section
variable {p done : Part} {q : PostId} {act : PostId → Part → Option Part} {n code : Nat}

theorem Part.forceRequest_range (h : 31 < n ∨ 2 < code) : Part.forceRequest act (n, code) p = (⟨.range, []⟩, p) := by
  unfold Part.forceRequest
  rcases h with high | other
  · rw [fin?_of_le (show 32 ≤ n by omega)]
    rfl
  · cases fin? 32 n with
    | none => rfl
    | some a => exact if_pos other

theorem Part.forceRequest_unused (low : code ≤ 2) (unused : (p.post q).inUse = false) :
    Part.forceRequest act (q.val, code) p = (⟨.wrongState, []⟩, p) := by
  simp only [Part.forceRequest, fin?_val, if_neg (Nat.not_lt.2 low), unused, Bool.not_false, if_true, Status.alone]

theorem Part.forceRequest_refused (low : code ≤ 2) (inUse : (p.post q).inUse = true) (refused : act q p = none) :
    Part.forceRequest act (q.val, code) p = (⟨.wrongState, []⟩, p) := by
  simp only [Part.forceRequest, fin?_val, if_neg (Nat.not_lt.2 low), inUse, refused, Bool.not_true, Bool.false_eq_true,
    if_false, Status.alone]

theorem Part.forceRequest_taken (low : code ≤ 2) (inUse : (p.post q).inUse = true) (taken : act q p = some done) :
    Part.forceRequest act (q.val, code) p = (⟨.ok, u8 (done.post q).link.code⟩, done) := by
  simp only [Part.forceRequest, fin?_val, if_neg (Nat.not_lt.2 low), inUse, taken, Bool.not_true, Bool.false_eq_true,
    if_false, Answer.ok]

end

/-- The three rows of POST-FORCE with their actions. -/
def ForceRow (c : Instr) (act : PostId → Part → Option Part) : Prop :=
  (c = .postForceReseek ∧ act = Part.forceReseek) ∨ (c = .postForceIsolate ∧ act = Part.forceIsolate) ∨
    (c = .postForceWake ∧ act = Part.forceWake)

section
variable {s : State} {f : Frame} {rest : List Frame} {c : Instr} {na code : Byte} {q : PostId} {u : Part}
  {act : PostId → Part → Option Part}

theorem execPostForce_gives {a : Answer} {p : Part} (row : ForceRow c act) (takes : rowTakes c [na, code] = true)
    (asks : s.Asks .postForce [na, code] f rest)
    (h : Part.forceRequest act (na.toNat, code.toNat) s.part = (a, p)) :
    exec c s = .next (s.replied rest f a p.finish) := by
  rcases row with ⟨rfl, rfl⟩ | ⟨rfl, rfl⟩ | ⟨rfl, rfl⟩ <;>
    exact State.serve_gives asks takes (rd := Rd.byteByte) rfl h

/-- A request of POST-FORCE that is refused changes nothing. -/
theorem execPostForce_refuses {a : Answer} (settled : s.settled) (row : ForceRow c act)
    (takes : rowTakes c [na, code] = true) (asks : s.Asks .postForce [na, code] f rest)
    (h : Part.forceRequest act (na.toNat, code.toNat) s.part = (a, s.part)) :
    exec c s = .next (s.replied rest f a s.part) := by
  rw [execPostForce_gives row takes asks h, s.part.finish_of_settled settled]

/-- A taken action of POST-FORCE that leaves the post neither ACTIVE nor STANDBY: the reply carries the link state, the
post stays as the action leaves it, and no exchange with it is open (R165). -/
theorem execPostForce_acts (row : ForceRow c act) (takes : rowTakes c [na, code] = true)
    (asks : s.Asks .postForce [na, code] f rest) (hq : na.toNat = q.val) (low : code.toNat ≤ 2)
    (inUse : (s.part.post q).inUse = true) (taken : act q s.part = some (u.cut q))
    (active : (u.post q).link ≠ .active) (standby : (u.post q).link ≠ .standby) (still : u.work.nextExchange = false) :
    ∃ p, exec c s = .next (s.replied rest f ⟨.ok, u8 (u.post q).link.code⟩ p) ∧ p.post q = u.post q ∧
      ∀ y, p.link.exchange = some y → y.post ≠ q := by
  have answer := Part.forceRequest_taken low inUse taken
  rw [Part.cut_post, ← hq] at answer
  exact ⟨_, execPostForce_gives row takes asks answer, Part.cut_finish_post active standby,
    Part.cut_finish_exchange_ne still⟩

theorem State.settled.nextExchange (settled : s.settled) : s.part.work.nextExchange = false :=
  congrArg Work.nextExchange settled

end

/-- Settles O27: the outcomes of `Part.forceRequest`; the post stays as its action leaves it through the completion of the
event (`Part.cut_finish_post`), and that opens no exchange with it (`Part.cut_finish_exchange_ne`). -/
theorem postForceActsOnThePost : Obligations.PostForceActsOnThePost := by
  unfold Obligations.PostForceActsOnThePost
  refine ⟨fun s f rest c na code settled hc asks takes bad => ?range, fun s f rest na q settled hq => ?acts⟩
  case range =>
    obtain ⟨act, row⟩ : ∃ act, ForceRow c act := by
      rcases hc with rfl | rfl | rfl
      · exact ⟨_, .inl ⟨rfl, rfl⟩⟩
      · exact ⟨_, .inr (.inl ⟨rfl, rfl⟩)⟩
      · exact ⟨_, .inr (.inr ⟨rfl, rfl⟩)⟩
    exact execPostForce_refuses settled row takes asks (Part.forceRequest_range bad)
  case acts =>
    have still := settled.nextExchange
    dsimp only
    refine ⟨fun c act row asks unused => ?unused, fun asks inUse => ?reseek, fun asks inUse => ?isolate,
      fun asks inUse standby => ?wake, fun asks inUse other => ?refused⟩
    case unused =>
      have refuse {n : Nat} (low : n ≤ 2) {act : PostId → Part → Option Part} :
          Part.forceRequest act (na.toNat, n) s.part = (⟨.wrongState, []⟩, s.part) :=
        hq ▸ Part.forceRequest_unused low unused
      rcases row with ⟨rfl, rfl⟩ | ⟨rfl, rfl⟩ | ⟨rfl, rfl⟩
      · exact execPostForce_refuses settled (.inl ⟨rfl, rfl⟩) rfl asks (refuse (by decide))
      · exact execPostForce_refuses settled (.inr (.inl ⟨rfl, rfl⟩)) rfl asks (refuse (by decide))
      · exact execPostForce_refuses settled (.inr (.inr ⟨rfl, rfl⟩)) rfl asks (refuse (by decide))
    case reseek =>
      have post := s.part.reseek_post q
      obtain ⟨p, served, kept, away⟩ := execPostForce_acts (u := s.part.reseek q) (.inl ⟨rfl, rfl⟩) rfl asks hq
        (by decide) inUse rfl (post ▸ nofun) (post ▸ nofun) ((s.part.leavePost_sparesLink q _).nextExchange.trans still)
      rw [post] at served kept
      refine ⟨p, served, ?_⟩
      rw [kept]
      exact ⟨rfl, rfl, rfl, rfl, rfl, rfl, rfl, away⟩
    case isolate =>
      have post := s.part.isolate_post q .host
      obtain ⟨p, served, kept, away⟩ := execPostForce_acts (u := s.part.isolate q .host) (.inr (.inl ⟨rfl, rfl⟩)) rfl
        asks hq (by decide) inUse rfl (post ▸ nofun) (post ▸ nofun)
        ((s.part.leavePost_sparesLink q _).nextExchange.trans still)
      rw [post] at served kept
      refine ⟨p, served, ?_⟩
      rw [kept]
      exact ⟨rfl, rfl, rfl, away⟩
    case wake =>
      have woken := Part.wakePost_standby standby
      have post : (s.part.wakePost q).post q = _ := woken ▸ Part.post_setPost_same _ _ _
      obtain ⟨p, served, kept, away⟩ := execPostForce_acts (u := s.part.wakePost q) (.inr (.inr ⟨rfl, rfl⟩)) rfl asks hq
        (by decide) inUse (if_pos standby) (post ▸ nofun) (post ▸ nofun) (woken ▸ still)
      rw [post] at served kept
      refine ⟨p, served, ?_⟩
      rw [kept]
      exact ⟨rfl, rfl, rfl, away⟩
    case refused =>
      have answer := Part.forceRequest_refused (p := s.part) (act := Part.forceWake) (code := 2) (Nat.le_refl 2) inUse
        (if_neg other)
      rw [← hq] at answer
      exact execPostForce_refuses settled (.inr (.inr ⟨rfl, rfl⟩)) rfl asks answer

end Sys2Proof.Machine

namespace Sys2Proof.Machine

/-! ## O44: timed events as events of their own (R23) -/

section
variable {s : State} {n : Nat} {i : Fin n} {e : Fin n → Timed}

theorem withObject_due (due : s.part.isDue (e i) = true) :
    withObject n i.val (fun x => s.onPart (fun p => p.timedEvent (e x))) =
      .next (s.withPart (s.part.takeTimed (e i))).complete := by
  rw [withObject_val]
  have taken : s.part.timedEvent (e i) = s.part.takeTimed (e i) := if_pos due
  exact congrArg (fun p => Host.Outcome.next (s.withPart p).complete) taken

theorem withObject_undue (undue : s.part.isDue (e i) = false) :
    withObject n i.val (fun x => s.onPart (fun p => p.timedEvent (e x))) = .next s.complete := by
  rw [withObject_val]
  have left : s.part.timedEvent (e i) = s.part := if_neg (undue ▸ nofun)
  exact congrArg (fun p => Host.Outcome.next (s.withPart p).complete) left

end

section
variable {p : Part} {q : PostId} {b : BayId} {k : SlotId}

/-- With the clock UNSET no timed event is due (R23). -/
theorem Part.isDue_unset (unset : p.clock.set = false) (e : Timed) : p.isDue e = false := by
  cases e with
  | leadCheck | wakeCheck | windowStart | graceEnd | windowEnd | deadline =>
    simp only [Part.isDue, Part.pendingFor, unset, Bool.false_and]
  | verify | idle => simp only [Part.isDue, unset, Bool.false_and]
  | rollover => simp only [Part.isDue, Part.rolloverDue, unset, Bool.false_and]

theorem Part.now_of_set (set' : p.clock.set = true) : p.now = p.clock.minute := if_pos set'

/-! ## O44: the idle condition (R161) -/

theorem Part.recordIs_not_iff {test : Record → Bool} :
    (!p.recordIs test k) = true ↔ ∀ r, p.record k = some r → test r = false := by
  unfold Part.recordIs
  cases p.record k <;> simp

theorem Part.idleHolds_iff : p.idleHolds q = true ↔ p.settings.idleTime ≠ 0 ∧ ∀ b : BayId,
    (p.bay b).configured = true → (p.bay b).post = q →
    ((p.bay b).condition = .free ∨ (p.bay b).condition = .out) ∧
    ∀ k r, k ∈ p.chain b → p.record k = some r → p.now + p.settings.standbyLead < r.windowStart := by
  simp only [Part.idleHolds, Bool.and_eq_true, Bool.or_eq_true, decide_eq_true_eq, List.all_eq_true,
    Part.mem_baysOfPost, Part.recordIs_not_iff, decide_eq_false_iff_not, not_le, and_imp]
  exact and_congr_right fun _ => forall_congr' fun b => forall_congr' fun _ => forall_congr' fun _ =>
    and_congr_right fun _ => forall_congr' fun k => ⟨fun h r mem hr => h mem r hr, fun h mem r hr => h r mem hr⟩

end

/-! ## O44: the events taken (R25, R100, R161, R164) -/

section
variable {s : State} {k : SlotId} {r : Record} {b : BayId} {q : PostId} {due : Nat}

theorem execWakeCheck_due (set' : s.part.clock.set = true) (hr : s.part.record k = some r)
    (up : r.state.upcoming = true) (untaken : r.wakeTaken = false)
    (due : r.windowStart ≤ s.part.now + s.part.settings.standbyLead) (hb : r.bay = some b) :
    exec (.wakeCheck k.val) s = .next (s.withPart ((s.part.put k { r with wakeTaken := true }).wakeBay b)).complete := by
  have isDue : s.part.isDue (.wakeCheck k) = true :=
    Part.pendingFor_some hr set' (by simp [up, untaken, due])
  refine (withObject_due (e := .wakeCheck) isDue).trans ?_
  simp only [Part.takeTimed, Part.modRecord, hr, Option.bind_some, hb]

theorem execVerifyExpiry_due (set' : s.part.clock.set = true) (timer : (s.part.bay b).verify = .running due)
    (reached : due ≤ s.part.now) : exec (.verifyExpiry b.val) s =
      .next (s.withPart ((s.part.setBay b { s.part.bay b with verify := .expired }).derive b)).complete :=
  withObject_due (e := .verify) (by simp [Part.isDue, set', timer, reached])

theorem execIdleTimer_due (set' : s.part.clock.set = true) (active : (s.part.post q).link = .active)
    (timer : (s.part.post q).timer = .idle due) (reached : due ≤ s.part.now) :
    exec (.idleTimer q.val) s = .next (s.withPart (s.part.takeIdleTimer q)).complete :=
  withObject_due (e := .idle) (by simp [Part.isDue, set', active, timer, reached])

theorem Part.takeIdleTimer_eq (p : Part) (q : PostId) : p.takeIdleTimer q = p.setPost q
    (if p.idleHolds q = true then { p.post q with link := .standby, timer := .stopped, notice := true }
      else { p.post q with timer := .stopped }) := by
  unfold Part.takeIdleTimer
  split <;> rfl

theorem Part.rule_of_quiet {p u : Part} (h : u.quiet = p.quiet) (r : RuleId) : (u.rule r).quiet = (p.rule r).quiet := by
  have rules : (u.rules.map Rule.quiet)[r.val] = (p.rules.map Rule.quiet)[r.val] :=
    congrArg (fun v : Part => v.rules[r.val]) h
  rwa [Vector.getElem_map, Vector.getElem_map] at rules

/-- The rollover stores the day and clears every tally counter, and leaves the rest (R25, R64). -/
theorem Part.takeRollover_rule (p : Part) (r : RuleId) : p.takeRollover.rule r = (p.rule r).cleared :=
  Part.clearTallies_rule _ r

theorem Part.takeRollover_besides (p : Part) : { p.takeRollover with rules := p.rules } =
    { p with clock := { p.clock with lastDay := some (dayNumber p.settings.rolloverMinute p.now) } } :=
  Part.clearTallies_besides _

theorem Part.eq_of_besides_rules {u v : Part} {rules} (h : { u with rules := rules } = v) :
    u.clock = v.clock ∧ u.lanes = v.lanes ∧ u.work = v.work := by
  subst h
  exact ⟨rfl, rfl, rfl⟩

theorem Part.quiet_lanes (p : Part) : p.quiet.lanes = p.lanes := rfl

theorem Rule.cleared_counter (x : Rule) : x.cleared.counter = 0 := by
  rw [Rule.cleared_eq]
  split
  · rfl
  · next zero => exact not_not.1 zero

theorem Rule.cleared_groups (x : Rule) : x.cleared.groups = x.groups := by
  rw [Rule.cleared_eq]
  split <;> rfl

theorem execRollover_due (isDue : s.part.isDue .rollover = true) :
    exec .rollover s = .next (s.withPart s.part.takeRollover).complete := by
  have taken : s.part.timedEvent .rollover = s.part.takeRollover := if_pos isDue
  exact congrArg (fun p => Host.Outcome.next (s.withPart p).complete) taken

end

/-- Settles O44: each command takes its event where it is due (`withObject_due`) and only completes where it is not
(`withObject_undue`). -/
theorem wakeBayPostAndClockEventsActWhenDue : Obligations.WakeBayPostAndClockEventsActWhenDue := by
  unfold Obligations.WakeBayPostAndClockEventsActWhenDue
  refine ⟨fun s k r b set' hr up untaken due hb => ?wake, fun s set' => ⟨fun b due timer reached => ?verify,
    fun q due active timer reached => ?idle, fun d hd earlier settled => ?rollover⟩, fun s c e event idle => ?undue,
    fun p q => Part.idleHolds_iff⟩
  case wake =>
    rw [execWakeCheck_due set' hr up untaken due hb]
    dsimp only
    have post (a : PostId) : (s.part.put k { r with wakeTaken := true }).post a = s.part.post a :=
      (s.part.put_sparesLink k _).post a
    rw [Part.wakeBay, Part.put_bay]
    split
    · next standby => rw [Part.wakePost_standby (post _ ▸ standby), post, Part.put_time]
    · next other => rw [Part.wakePost_other (post _ ▸ other)]
  case verify => exact execVerifyExpiry_due set' timer reached
  case idle => rw [execIdleTimer_due set' active timer reached, Part.takeIdleTimer_eq]
  case rollover =>
    have now := Part.now_of_set set'
    have isDue : s.part.isDue .rollover = true := by
      simp only [Part.isDue, Part.rolloverDue, set', hd, dayNumber, now, Bool.true_and, decide_eq_true_eq]
      exact earlier
    obtain ⟨clock, lanes, work⟩ := Part.eq_of_besides_rules s.part.takeRollover_besides
    have quiet := State.withPart_quiet settled work
    have same := congrArg Part.lanes quiet
    rw [Part.quiet_lanes, Part.quiet_lanes] at same
    rw [dayNumber, now] at clock
    refine ⟨_, execRollover_due isDue, (State.complete_clock _).trans clock, fun r => ?_, same.trans lanes⟩
    have rule := Part.rule_of_quiet quiet r
    rw [Part.takeRollover_rule] at rule
    exact ⟨(congrArg Rule.counter rule :).trans (Rule.cleared_counter _),
      (congrArg Rule.groups rule :).trans (Rule.cleared_groups _)⟩
  case undue =>
    have undue : s.part.isDue e = false := idle.elim (fun unset => Part.isDue_unset unset e) id
    rcases event with ⟨k, slot⟩ | ⟨b, rfl, rfl⟩ | ⟨q, rfl, rfl⟩ | ⟨rfl, rfl⟩
    · rcases slot with ⟨rfl, rfl⟩ | ⟨rfl, rfl⟩ | ⟨rfl, rfl⟩ | ⟨rfl, rfl⟩ | ⟨rfl, rfl⟩ | ⟨rfl, rfl⟩
      · exact withObject_undue (e := .leadCheck) undue
      · exact withObject_undue (e := .wakeCheck) undue
      · exact withObject_undue (e := .windowStart) undue
      · exact withObject_undue (e := .graceEnd) undue
      · exact withObject_undue (e := .windowEnd) undue
      · exact withObject_undue (e := .deadline) undue
    · exact withObject_undue (e := .verify) undue
    · exact withObject_undue (e := .idle) undue
    · have left : s.part.timedEvent .rollover = s.part := if_neg (undue ▸ nofun)
      exact congrArg (fun p => Host.Outcome.next (s.withPart p).complete) left

end Sys2Proof.Machine

namespace Sys2Proof.Machine

/-! ## O45: the order of the addresses in a round (R151) -/

/-- The first hit in index order is the least index that passes the test. -/
theorem find?_allBelow {n : Nat} {test : Fin n → Bool} {i : Fin n} (hit : test i = true)
    (least : ∀ j, test j = true → i ≤ j) : (allBelow n).find? test = some i := by
  refine List.find?_eq_some_iff_getElem.2 ⟨hit, i.val, by simp [allBelow], by simp [allBelow], fun j below => ?_⟩
  rw [Bool.not_eq_true', ← Bool.not_eq_true]
  intro passes
  have above := Fin.le_def.1 (least _ passes)
  simp only [allBelow, List.getElem_finRange, Fin.val_cast] at above
  omega

/-- The post is due in the round and above the last address visited (R151). -/
def Part.visits (p : Part) (q : PostId) : Prop :=
  (p.post q).inUse = true ∧ (p.post q).link ≠ .absent ∧ ((p.post q).link = .standby → p.link.roundCount = 0) ∧
    ∀ v, p.link.lastVisited = some v → v < q

section
variable {p : Part} {q : PostId}

theorem Part.postDue_iff : p.postDue q = true ↔
    (p.post q).inUse = true ∧ (p.post q).link ≠ .absent ∧ ((p.post q).link = .standby → p.link.roundCount = 0) := by
  unfold Part.postDue
  cases (p.post q).link <;> simp

theorem Link.above_iff {l : Link} : l.above q = true ↔ ∀ v, l.lastVisited = some v → v < q := by
  unfold Link.above
  cases l.lastVisited <;> simp

theorem Part.visits_iff : (p.link.above q && p.postDue q) = true ↔ p.visits q := by
  rw [Bool.and_eq_true, Part.postDue_iff, Link.above_iff]
  exact ⟨fun ⟨above, inUse, present, due⟩ => ⟨inUse, present, due, above⟩,
    fun ⟨inUse, present, due, above⟩ => ⟨above, inUse, present, due⟩⟩

theorem Part.openNext_of_none (none : ∀ q, ¬ p.visits q) : p.openNext = p := by
  have next : p.nextPost = Option.none := List.find?_eq_none.2 fun q _ hit => none q (Part.visits_iff.1 hit)
  rw [Part.openNext, next]

theorem Part.openNext_of_lowest (due : p.visits q) (lowest : ∀ j, p.visits j → q ≤ j) : p.openNext =
    { p with link := { p.link with exchange := some ⟨q, (p.post q).seq, p.commandFor q, none⟩ } } := by
  have next : p.nextPost = some q :=
    find?_allBelow (Part.visits_iff.2 due) fun j hit => lowest j (Part.visits_iff.1 hit)
  rw [Part.openNext, next]

theorem Part.takeExchange_of_due (next : p.work.nextExchange = true) :
    p.takeExchange = ({ p with work := { p.work with nextExchange := false } } : Part).openNext := if_pos next

theorem Part.takeExchange_of_not (still : p.work.nextExchange = false) : p.takeExchange = p :=
  if_neg (Bool.not_eq_true _ ▸ still)

theorem Part.openNext_work (p : Part) : p.openNext.work = p.work := by
  unfold Part.openNext
  split <;> rfl

theorem Part.openNext_stores (p : Part) : { p.openNext with work := p.work } = p.openNext := by
  unfold Part.openNext
  split <;> rfl

/-- An event that leaves nothing to do but to open the next exchange. -/
theorem Part.finish_opens (only : p.work = { Work.empty with nextExchange := true }) :
    p.finish = ({ p with work := Work.empty } : Part).openNext := by
  obtain ⟨time, clock, settings, bays, feeders, trips, posts, pool, lanes, rules, link, outstanding, work, choices⟩ := p
  dsimp only at only
  subst only
  exact Part.openNext_stores ⟨time, clock, settings, bays, feeders, trips, posts, pool, lanes, rules, link, outstanding,
    Work.empty, choices⟩

/-! ## O45: the start of a round (R151) -/

theorem Link.mayStart_iff {l : Link} {time : Nat} :
    l.mayStart time = true ↔ l.exchange = none ∧ (l.first = true ∨ l.roundStart + 250000 ≤ time) := by
  simp only [Link.mayStart, Bool.and_eq_true, Bool.or_eq_true, decide_eq_true_eq, Option.isNone_iff_eq_none]
  exact Iff.rfl

end

/-- The part in which a round has begun at moment `now`, with no exchange opened yet. -/
def Part.roundBegun (p : Part) (now : Nat) : Part :=
  { p with time := now, link := ⟨(p.link.roundCount + 1) % 10, now, false, none, none⟩ }

section
variable {s : State} {p : Part} {q : PostId} {time : Nat}

theorem Part.visits_roundBegun {now : Nat} : (p.roundBegun now).visits q ↔
    (p.post q).inUse = true ∧ (p.post q).link ≠ .absent ∧
      ((p.post q).link = .standby → (p.link.roundCount + 1) % 10 = 0) :=
  ⟨fun ⟨inUse, present, due, _⟩ => ⟨inUse, present, due⟩, fun ⟨inUse, present, due⟩ => ⟨inUse, present, due, nofun⟩⟩

theorem State.complete_congr {u v : Part} (h : u.finish = v.finish) :
    (s.withPart u).complete = (s.withPart v).complete := congrArg (fun p => ({ s with part := p } : State).kick) h

theorem execRoundStart_not (may : ¬ s.part.link.mayStart (max s.part.time time) = true) :
    exec (.roundStart time) s = .next (s.withPart { s.part with time := max s.part.time time }).complete :=
  congrArg (fun p => Host.Outcome.next (s.withPart p).complete) (if_neg may)

theorem execRoundStart_opens (settled : s.settled) (may : s.part.link.mayStart (max s.part.time time) = true) :
    exec (.roundStart time) s = .next (s.withPart (s.part.roundBegun (max s.part.time time)).openNext).complete := by
  have started : (s.part.at time).startRound = { s.part.roundBegun (max s.part.time time) with
      work := { s.part.work with nextExchange := true } } := if_pos may
  have idle : s.part.work = .empty := settled
  rw [idle] at started
  have opens : (s.part.at time).startRound.finish = (s.part.roundBegun (max s.part.time time)).openNext := by
    rw [started, Part.finish_opens rfl]
    exact congrArg (fun w => Part.openNext { s.part.roundBegun (max s.part.time time) with work := w }) idle.symm
  have done := Part.finish_of_settled (s.part.roundBegun (max s.part.time time)).openNext
    ((Part.openNext_work _).trans idle)
  have same := State.complete_congr (s := s) (opens.trans done.symm)
  exact congrArg Host.Outcome.next same

end

/-- Settles O45: the next exchange goes to the least post that `Part.visits` (`Part.openNext_of_lowest`), at the start of
a round (`execRoundStart_opens`) as at the completion of an event (`Part.finish_opens`). -/
theorem roundStartSendsTheLowestDuePostItsCommand : Obligations.RoundStartSendsTheLowestDuePostItsCommand := by
  unfold Obligations.RoundStartSendsTheLowestDuePostItsCommand
  refine ⟨fun s time settled => ?start, fun p q => ?command, fun p => ?next,
    fun p q => ⟨rfl, fun ⟨x, hx, at_⟩ => Part.cut_open hx at_, Part.cut_elsewhere⟩⟩
  case start =>
    dsimp only
    refine ⟨fun may => execRoundStart_not (mt Link.mayStart_iff.1 may), fun may none => ?none, fun q may due low => ?opens⟩
    case none =>
      rw [execRoundStart_opens settled (Link.mayStart_iff.2 may),
        Part.openNext_of_none fun q due => none q (Part.visits_roundBegun.1 due)]
      rfl
    case opens =>
      rw [execRoundStart_opens settled (Link.mayStart_iff.2 may),
        Part.openNext_of_lowest (Part.visits_roundBegun.2 due) fun j due => low j (Part.visits_roundBegun.1 due)]
      rfl
  case command =>
    intro x kind limit lamp bytes
    have kinds : (p.post q).link.command.code = kind := by
      cases h : (p.post q).link <;> simp only [kind, x, h, LinkState.command, CommandKind.code]
    have limits (k : Socket) : p.limitOf q k = limit k := by
      unfold Part.limitOf
      cases h : (p.post q).link with
      | active => cases hb : p.boundBay q k <;> simp only [limit, x, h, hb, LinkState.command]
      | _ => simp only [limit, x, h, LinkState.command]
    have lamps (k : Socket) : (p.indicatorOf q k).code = lamp k := by
      unfold Part.indicatorOf
      cases hb : p.boundBay q k with
      | none => simp only [lamp, hb, Indicator.code]
      | some b =>
        cases hc : (p.bay b).condition <;> simp only [lamp, hb, hc, Condition.indicator, Indicator.code]
    rw [Part.commandFor, kinds, limits, limits, lamps, lamps]
    rfl
  case next =>
    dsimp only
    refine ⟨Part.takeExchange_of_not, fun next none => ?_, fun q next due low => ?_, fun only => ⟨fun none => ?_,
      fun q due low => ?_⟩⟩
    · rw [Part.takeExchange_of_due next]
      exact Part.openNext_of_none none
    · rw [Part.takeExchange_of_due next]
      exact Part.openNext_of_lowest (p := { p with work := { p.work with nextExchange := false } }) due low
    · rw [Part.finish_opens only]
      exact Part.openNext_of_none none
    · rw [Part.finish_opens only]
      exact Part.openNext_of_lowest (p := { p with work := Work.empty }) due low

end Sys2Proof.Machine

namespace Sys2Proof.Machine

/-! ## O46: the fields of a reply (R155, R181) -/

theorem storedCap_eq (n : Nat) : storedCap n = if n = 0 then 0 else min (max n 60) 800 := by
  unfold storedCap Config.leastCurrent Config.largestCurrent
  split
  · rfl
  · split <;> omega

theorem LinkReply.ofBytes_of_length {bytes : List Byte} (other : bytes.length ≠ 12) : LinkReply.ofBytes bytes = none := by
  unfold LinkReply.ofBytes
  split
  · exact absurd rfl other
  · rfl

/-! ## O46: the commands of an exchange (R152, R154) -/

section
variable {p : Part} {q : PostId} {x : Exchange} {d : Nat} {bytes : List Byte} {r : LinkReply}

theorem Part.commandSent_unsent (open_ : p.link.exchange = some x) (unsent : x.deadline = none) : p.commandSent =
    { p with link := { p.link with exchange := some { x with deadline := some (p.time + 3000) } } } := by
  simp only [Part.commandSent, open_, unsent, if_true, Config.replyTime]

theorem Part.commandSent_sent (open_ : p.link.exchange = some x) (sent : x.deadline = some d) : p.commandSent = p := by
  simp only [Part.commandSent, open_, sent, reduceCtorEq, if_false]

theorem Part.replyReceived_valid (open_ : p.link.exchange = some x) (sent : x.deadline = some d) (early : p.time < d)
    (read : LinkReply.ofBytes bytes = some r) (address : r.address = x.post.val) (seq : r.seq = x.seq) :
    p.replyReceived bytes = (p.takeReply x.post r).endExchange x.post := by
  simp only [Part.replyReceived, open_, sent, read, early, address, seq, decide_true, Bool.and_self, if_true]

theorem Part.replyReceived_other (open_ : p.link.exchange = some x)
    (other : x.deadline = none ∨ (∃ d, x.deadline = some d ∧ d ≤ p.time) ∨ LinkReply.ofBytes bytes = none ∨
      (∃ r, LinkReply.ofBytes bytes = some r ∧ (r.address ≠ x.post.val ∨ r.seq ≠ x.seq))) :
    p.replyReceived bytes = p := by
  simp only [Part.replyReceived, open_]
  split
  · next d r sent read =>
    refine if_neg fun valid => ?_
    simp only [Bool.and_eq_true, decide_eq_true_eq] at valid
    obtain ⟨⟨early, address⟩, seq⟩ := valid
    rcases other with unsent | ⟨d', sent', late⟩ | unread | ⟨r', read', differs⟩
    · cases sent.symm.trans unsent
    · cases sent.symm.trans sent'
      exact absurd early (Nat.not_lt.2 late)
    · cases read.symm.trans unread
    · cases read.symm.trans read'
      exact differs.elim (· address) (· seq)
  · rfl

theorem Part.replyMissed_due (open_ : p.link.exchange = some x) (sent : x.deadline = some d) (due : d ≤ p.time) :
    p.replyMissed = (p.takeMiss x.post).endExchange x.post := by
  simp only [Part.replyMissed, open_, sent, due, if_true]

theorem Part.replyMissed_early (open_ : p.link.exchange = some x) (sent : x.deadline = some d) (early : p.time < d) :
    p.replyMissed = p := by
  simp only [Part.replyMissed, open_, sent, Nat.not_le.2 early, if_false]

/-! ## O46: a miss (R154, R159) -/

theorem Part.lose_post (p : Part) (q : PostId) : (p.lose q).post q =
    { p.post q with link := .lost, timer := .stopped, notice := true } := Part.leavePost_post _ q _

theorem Part.missed_misses (p : Part) (q : PostId) :
    ((p.modPost q Post.missed).post q).misses = min ((p.post q).misses + 1) 3 := by
  rw [Part.post_modPost_same]
  rfl

theorem Part.takeMiss_loses (third : 3 ≤ (p.post q).misses + 1)
    (link : (p.post q).link = .preparing ∨ (p.post q).link = .active ∨ (p.post q).link = .standby ∨
      (p.post q).link = .waking) : p.takeMiss q = (p.modPost q Post.missed).lose q := by
  have full : ((p.modPost q Post.missed).post q).misses = Config.missLimit :=
    (p.missed_misses q).trans (Nat.min_eq_right third)
  unfold Part.takeMiss
  rcases link with h | h | h | h <;> simp only [h, full, if_true]

theorem Part.takeMiss_counts (other : ¬ (3 ≤ (p.post q).misses + 1 ∧
    ((p.post q).link = .preparing ∨ (p.post q).link = .active ∨ (p.post q).link = .standby ∨
      (p.post q).link = .waking))) : p.takeMiss q = p.modPost q Post.missed := by
  have early (link : (p.post q).link = .preparing ∨ (p.post q).link = .active ∨ (p.post q).link = .standby ∨
      (p.post q).link = .waking) : ((p.modPost q Post.missed).post q).misses ≠ Config.missLimit := by
    have short : ¬ 3 ≤ (p.post q).misses + 1 := fun third => other ⟨third, link⟩
    rw [p.missed_misses q, Config.missLimit]
    omega
  unfold Part.takeMiss
  cases h : (p.post q).link with
  | seeking | isolated | lost | absent => rfl
  | preparing => exact if_neg (early (.inl h))
  | active => exact if_neg (early (.inr (.inl h)))
  | standby => exact if_neg (early (.inr (.inr (.inl h))))
  | waking => exact if_neg (early (.inr (.inr (.inr h))))

/-- A post counts its misses; the third in a row of a post that is prepared, in service or waking loses it. -/
theorem Part.takeMiss_post (p : Part) (q : PostId) :
    let y := p.post q
    let lost : Prop := 3 ≤ y.misses + 1 ∧
      (y.link = .preparing ∨ y.link = .active ∨ y.link = .standby ∨ y.link = .waking)
    (p.takeMiss q).post q = { y with
      valid := 0, misses := min (y.misses + 1) 3, seq := (y.seq + 1) % 16
      link := if lost then .lost else y.link
      timer := if lost then .stopped else y.timer
      notice := y.notice || decide lost } := by
  intro y lost
  by_cases h : lost
  · obtain ⟨third, link⟩ := id h
    rw [Part.takeMiss_loses third link, Part.lose_post, Part.post_modPost_same, if_pos h, if_pos h, decide_eq_true h,
      Bool.or_true]
    rfl
  · rw [Part.takeMiss_counts h, Part.post_modPost_same, if_neg h, if_neg h, decide_eq_false h, Bool.or_false]
    rfl

end

theorem execReply_of_length {s : State} {bytes : List Byte} {time : Nat} (length : bytes.length = 12) :
    exec (.reply bytes time) s = .next (s.withPart ((s.part.at time).replyReceived bytes)).complete := if_pos length

/-- Settles O46: what each command of an exchange makes of the exchange in progress, and `Part.takeMiss_loses` with
`Part.takeMiss_counts` for the post. -/
theorem exchangeEndsByValidReplyOrMiss : Obligations.ExchangeEndsByValidReplyOrMiss := by
  unfold Obligations.ExchangeEndsByValidReplyOrMiss
  refine ⟨fun b0 b1 b2 b3 b4 b5 b6 b7 b8 b9 b10 crc => ?fields, fun bytes => LinkReply.ofBytes_of_length,
    fun s time x open_ => ?exchange⟩
  case fields =>
    refine ⟨fun differs => if_neg (Ne.symm differs), fun same => (if_pos same.symm).trans ?_⟩
    simp only [storedCap_eq]
    rfl
  case exchange =>
    have stands : (s.part.at time).link.exchange = some x := open_
    have gives {u v : Part} (h : u = v) :
        (Host.Outcome.next (s.withPart u).complete : Host.Outcome State Fault Refusal) = .next (s.withPart v).complete :=
      h ▸ rfl
    refine ⟨fun unsent => gives (Part.commandSent_unsent stands unsent),
      fun d sent => gives (Part.commandSent_sent stands sent), fun bytes d r length sent early read address seq => ?valid, fun bytes length other => ?other,
      fun bytes length => if_pos length, fun d sent due => gives (Part.replyMissed_due stands sent due),
      fun d sent early => gives (Part.replyMissed_early stands sent early), ?missed⟩
    case valid =>
      exact (execReply_of_length length).trans (gives (Part.replyReceived_valid stands sent early read address seq))
    case other => exact (execReply_of_length length).trans (gives (Part.replyReceived_other stands other))
    case missed =>
      exact (s.part.at time).takeMiss_post x.post

end Sys2Proof.Machine

namespace Sys2Proof.Machine

/-! ## O47: what a reply writes into the bays (R155) -/

/-- The values of a reply for one of its post's sockets. -/
def LinkReply.value (r : LinkReply) : Socket → SocketReading
  | .a => r.a
  | .b => r.b

/-- The values of one socket are written into the bay bound to it, if any. -/
def Part.writeBound (p : Part) (first : Bool) (bound : Option BayId) (v : SocketReading) : Part :=
  match bound with
  | some b => p.writeSocket first b v
  | none => p

section
variable {p u : Part} {q : PostId} {k : Socket} {b : BayId} {r : LinkReply}

theorem Bay.values_of_told {x y : Bay} (h : x.told = y.told) :
    x.occupancy = y.occupancy ∧ x.plug = y.plug ∧ x.reading = y.reading ∧ x.cap = y.cap :=
  ⟨congrArg (·.2.2.2.1) h, congrArg (·.2.2.2.2) h, congrArg (·.2.1) h, congrArg (·.2.2.1) h⟩

theorem Bay.written_told_congr {x y : Bay} (h : x.config = y.config) (v : SocketReading) :
    (x.written v).told = (y.written v).told :=
  congrArg (fun c => (c, v.reading, v.cap, (x.written v).occupancy, (x.written v).plug)) h

theorem Part.boundBay_some (h : p.boundBay q k = some b) :
    (p.bay b).configured = true ∧ (p.bay b).post = q ∧ (p.bay b).socket = k := by
  have found := List.find?_some h
  simp only [Bool.and_eq_true, decide_eq_true_eq] at found
  obtain ⟨⟨configured, post⟩, socket⟩ := found
  exact ⟨configured, post, socket⟩

theorem Part.boundBay_congr (h : ∀ b, (u.bay b).config = (p.bay b).config) (q : PostId) (k : Socket) :
    u.boundBay q k = p.boundBay q k := by
  refine congrArg (List.find? · allBays) (funext fun b => ?_)
  have configured : (u.bay b).configured = (p.bay b).configured := congrArg (·.1) (h b)
  have post : (u.bay b).post = (p.bay b).post := congrArg (·.2.1) (h b)
  have socket : (u.bay b).socket = (p.bay b).socket := congrArg (·.2.2.1) (h b)
  rw [configured, post, socket]

/-- Of the bay link, the values of a socket write its bay alone. -/
theorem Part.writeSocket_sparesLink (p : Part) (first : Bool) (b : BayId) (v : SocketReading) :
    (p.setBay b ((p.bay b).written v)).SparesLink (p.writeSocket first b v) := by
  have served (c : Prop) [Decidable c] (stored : Part) (changed : Bool) : stored.SparesLink
      ((if c then stored.occupancyEvent b v.occupied else stored).sessionReply b v changed) :=
    .trans (.ite (stored.occupancyEvent_sparesLink b v.occupied) (.refl _)) (Part.sessionReply_sparesLink _ b v _)
  exact .ite ((served _ _ _).trans (Part.recompute_sparesLink _ _)) (served _ _ _)

theorem Part.writeBound_posts (p : Part) (first : Bool) (bound : Option BayId) (v : SocketReading) :
    (p.writeBound first bound v).posts = p.posts ∧ (p.writeBound first bound v).time = p.time := by
  cases bound with
  | none => exact ⟨rfl, rfl⟩
  | some b => exact ⟨(p.writeSocket_sparesLink first b v).posts, (p.writeSocket_sparesLink first b v).time⟩

theorem Part.writeBound_same (p : Part) (first : Bool) (b : BayId) (v : SocketReading) :
    ((p.writeBound first (some b) v).bay b).told = ((p.bay b).written v).told := by
  have told := (p.writeSocket_sparesLink first b v).told b
  rwa [Part.bay_setBay_same] at told

theorem Part.writeBound_other (p : Part) (first : Bool) {bound : Option BayId} (v : SocketReading)
    (other : bound ≠ some b) : ((p.writeBound first bound v).bay b).told = (p.bay b).told := by
  cases bound with
  | none => rfl
  | some c =>
    have told := (p.writeSocket_sparesLink first c v).told b
    rwa [Part.bay_setBay_ne _ _ _ _ fun same => other (congrArg some same.symm)] at told

theorem Part.writeBound_config (p : Part) (first : Bool) (bound : Option BayId) (v : SocketReading) (b : BayId) :
    ((p.writeBound first bound v).bay b).config = (p.bay b).config := by
  by_cases same : bound = some b
  · rw [same]
    exact congrArg (·.1) (p.writeBound_same first b v)
  · exact congrArg (·.1) (p.writeBound_other first v same)

theorem Part.writeReadings_eq (p : Part) (first : Bool) (q : PostId) (r : LinkReply) : p.writeReadings first q r =
    (p.writeBound first (p.boundBay q .a) r.a).writeBound first (p.boundBay q .b) r.b := by
  unfold Part.writeReadings Part.writeBound
  rfl

theorem Part.writeReadings_posts (p : Part) (first : Bool) (q : PostId) (r : LinkReply) :
    (p.writeReadings first q r).posts = p.posts ∧ (p.writeReadings first q r).time = p.time := by
  obtain ⟨posts, time⟩ := p.writeBound_posts first (p.boundBay q .a) r.a
  obtain ⟨posts', time'⟩ := (p.writeBound first (p.boundBay q .a) r.a).writeBound_posts first (p.boundBay q .b) r.b
  rw [Part.writeReadings_eq]
  exact ⟨posts'.trans posts, time'.trans time⟩

theorem Part.writeReadings_post (p : Part) (first : Bool) (q : PostId) (r : LinkReply) (a : PostId) :
    (p.writeReadings first q r).post a = p.post a := by
  rw [Part.post, (p.writeReadings_posts first q r).1, Part.post]

theorem Part.writeReadings_bound (first : Bool) (bound : p.boundBay q k = some b) :
    ((p.writeReadings first q r).bay b).told = ((p.bay b).written (r.value k)).told := by
  obtain ⟨-, -, socket⟩ := Part.boundBay_some bound
  rw [Part.writeReadings_eq]
  cases k with
  | a =>
    have apart : p.boundBay q .b ≠ some b := fun also => by
      obtain ⟨-, -, socket'⟩ := Part.boundBay_some also
      cases socket.symm.trans socket'
    rw [Part.writeBound_other _ first r.b apart, bound]
    exact p.writeBound_same first b r.a
  | b =>
    rw [bound, Part.writeBound_same]
    exact Bay.written_told_congr (p.writeBound_config first _ r.a b) r.b

theorem Part.writeReadings_other (first : Bool) (other : ∀ k, p.boundBay q k ≠ some b) :
    ((p.writeReadings first q r).bay b).told = (p.bay b).told := by
  rw [Part.writeReadings_eq, Part.writeBound_other _ first r.b (other .b), p.writeBound_other first r.a (other .a)]

/-! ## O47: the changes of a post's state (R156 to R163) -/

theorem Part.activate_sparesLink (p : Part) (q : PostId) :
    (p.modPost q (fun x => { x with link := .active, timer := .stopped, notice := true })).SparesLink (p.activate q) :=
  .trans (.trans (Part.touchPost_sparesLink _ q) (.foldl Part.derive_sparesLink _ _)) (Part.retryDue_sparesLink _)

theorem Part.activate_post (p : Part) (q : PostId) : (p.activate q).post q =
    { p.post q with link := .active, timer := .stopped, notice := true } :=
  ((p.activate_sparesLink q).post q).trans (p.post_modPost_same q _)

theorem Part.activate_told (p : Part) (q : PostId) (b : BayId) : ((p.activate q).bay b).told = (p.bay b).told :=
  (p.activate_sparesLink q).told b

theorem Part.wakePost_bay (p : Part) (q : PostId) (b : BayId) : (p.wakePost q).bay b = p.bay b := by
  unfold Part.wakePost
  split <;> rfl

theorem Part.isolate_told (p : Part) (q : PostId) (cause : IsolationCause) (b : BayId) :
    ((p.isolate q cause).bay b).told = (p.bay b).told := (p.leavePost_sparesLink q _).told b

end

/-! ## O47: a reply by the state of its post -/

/-- The part in which a post has counted a valid reply, and nothing else is done. -/
def Part.heard (p : Part) (q : PostId) (fault : Nat) : Part := p.modPost q (fun x => x.answered fault)

/-- Whether a reply changes the occupancy or the plug of a bay of its post (R162). -/
def Part.wokenBy (p : Part) (q : PostId) (r : LinkReply) : Bool :=
  p.wakesBy (p.boundBay q .a) r.a || p.wakesBy (p.boundBay q .b) r.b

section
variable {p : Part} {q : PostId} {r : LinkReply} {b : BayId}

theorem Part.heard_post (p : Part) (q : PostId) (fault : Nat) : (p.heard q fault).post q = (p.post q).answered fault :=
  p.post_modPost_same q _

theorem Part.takeReply_faulty (fault : r.fault ≠ 0) (isolated : (p.post q).link ≠ .isolated)
    (absent : (p.post q).link ≠ .absent) : p.takeReply q r = (p.heard q r.fault).isolate q .postFault := by
  unfold Part.takeReply
  cases h : (p.post q).link with
  | isolated => exact absurd h isolated
  | absent => exact absurd h absent
  | seeking | preparing | active | standby | waking | lost => exact if_pos fault

theorem Part.takeReply_away (away : (p.post q).link = .isolated ∨ (p.post q).link = .absent) :
    p.takeReply q r = p.heard q r.fault := by
  unfold Part.takeReply
  rcases away with h | h <;> rw [h] <;> rfl

theorem Part.takeReply_sought (clean : r.fault = 0) (sought : (p.post q).link = .seeking ∨ (p.post q).link = .lost) :
    p.takeReply q r = if ((p.heard q r.fault).post q).valid = 2 then
      (p.heard q r.fault).modPost q (fun x => { x with
        link := .preparing, timer := .prepare (p.time + 5000000), notice := true })
      else p.heard q r.fault := by
  unfold Part.takeReply
  rcases sought with h | h <;> rw [h] <;> exact if_neg (not_not.2 clean)

theorem Part.takeReply_preparing (clean : r.fault = 0) (h : (p.post q).link = .preparing) : p.takeReply q r =
    if r.ready = true then ((p.heard q r.fault).activate q).writeReadings true q r else p.heard q r.fault := by
  unfold Part.takeReply
  rw [h]
  exact if_neg (not_not.2 clean)

theorem Part.takeReply_active (clean : r.fault = 0) (h : (p.post q).link = .active) :
    p.takeReply q r = (p.heard q r.fault).writeReadings false q r := by
  unfold Part.takeReply
  rw [h]
  exact if_neg (not_not.2 clean)

theorem Part.takeReply_standby (clean : r.fault = 0) (h : (p.post q).link = .standby) : p.takeReply q r =
    if p.wokenBy q r = true then ((p.heard q r.fault).writeReadings false q r).wakePost q
    else (p.heard q r.fault).writeReadings false q r := by
  unfold Part.takeReply
  rw [h]
  exact if_neg (not_not.2 clean)

theorem Part.takeReply_waking (clean : r.fault = 0) (h : (p.post q).link = .waking) : p.takeReply q r =
    if r.ready = true then
      (((p.heard q r.fault).writeReadings false q r).modPost q (fun x => { x with slowWakes := 0 })).activate q
    else (p.heard q r.fault).writeReadings false q r := by
  unfold Part.takeReply
  rw [h]
  exact if_neg (not_not.2 clean)

theorem Part.wakesBy_iff {bound : Option BayId} {v : SocketReading} : p.wakesBy bound v = true ↔ ∃ b, bound = some b ∧
    ((p.bay b).occupancy ≠ (if v.occupied = true then .occupied else .vacant) ∨
      (p.bay b).plug ≠ (if v.plugged = true then .plugged else .unplugged)) := by
  cases bound <;> simp [Part.wakesBy, Bay.written]

theorem Part.wokenBy_iff : p.wokenBy q r = true ↔ ∃ k b, p.boundBay q k = some b ∧
    ((p.bay b).occupancy ≠ (if (r.value k).occupied = true then .occupied else .vacant) ∨
      (p.bay b).plug ≠ (if (r.value k).plugged = true then .plugged else .unplugged)) := by
  rw [Part.wokenBy, Bool.or_eq_true, Part.wakesBy_iff, Part.wakesBy_iff]
  constructor
  · rintro (changed | changed)
    · exact ⟨.a, changed⟩
    · exact ⟨.b, changed⟩
  · rintro ⟨k, changed⟩
    cases k with
    | a => exact .inl changed
    | b => exact .inr changed

/-! ### The post -/

theorem Part.takeReply_post_faulty (fault : r.fault ≠ 0) (isolated : (p.post q).link ≠ .isolated)
    (absent : (p.post q).link ≠ .absent) : ∃ notice, (p.takeReply q r).post q =
      { (p.post q).answered r.fault with
        link := .isolated, cause := .postFault, timer := .stopped, notice := notice } := by
  rw [Part.takeReply_faulty fault isolated absent, Part.isolate_post, Part.heard_post]
  exact ⟨_, rfl⟩

theorem Part.takeReply_post_away (away : (p.post q).link = .isolated ∨ (p.post q).link = .absent) :
    (p.takeReply q r).post q = (p.post q).answered r.fault := by
  rw [Part.takeReply_away away, Part.heard_post]

theorem Part.takeReply_post_sought (clean : r.fault = 0)
    (sought : (p.post q).link = .seeking ∨ (p.post q).link = .lost) : (p.takeReply q r).post q =
      if 1 ≤ (p.post q).valid then { (p.post q).answered r.fault with
        link := .preparing, timer := .prepare (p.time + 5000000), notice := true }
      else (p.post q).answered r.fault := by
  have second : ((p.post q).answered r.fault).valid = 2 ↔ 1 ≤ (p.post q).valid := by
    simp only [Post.answered, Config.validLimit]
    omega
  rw [Part.takeReply_sought clean sought, Part.heard_post, apply_ite (Part.post · q), Part.post_modPost_same,
    Part.heard_post]
  exact if_congr second rfl rfl

theorem Part.takeReply_post_preparing (clean : r.fault = 0) (h : (p.post q).link = .preparing) :
    (p.takeReply q r).post q = if r.ready = true then
      { (p.post q).answered r.fault with link := .active, timer := .stopped, notice := true }
      else (p.post q).answered r.fault := by
  rw [Part.takeReply_preparing clean h, apply_ite (Part.post · q), Part.writeReadings_post, Part.activate_post,
    Part.heard_post]

theorem Part.takeReply_post_active (clean : r.fault = 0) (h : (p.post q).link = .active) :
    (p.takeReply q r).post q = (p.post q).answered r.fault := by
  rw [Part.takeReply_active clean h, Part.writeReadings_post, Part.heard_post]

theorem Part.takeReply_post_standby (clean : r.fault = 0) (h : (p.post q).link = .standby) :
    (p.takeReply q r).post q = if p.wokenBy q r = true then
      { (p.post q).answered r.fault with link := .waking, timer := .wake (p.time + 3000000), notice := true }
      else (p.post q).answered r.fault := by
  have post := ((p.heard q r.fault).writeReadings_post false q r q).trans (p.heard_post q r.fault)
  have standby : (((p.heard q r.fault).writeReadings false q r).post q).link = .standby := post ▸ h
  have time : ((p.heard q r.fault).writeReadings false q r).time = p.time :=
    ((p.heard q r.fault).writeReadings_posts false q r).2
  rw [Part.takeReply_standby clean h, apply_ite (Part.post · q), Part.wakePost_standby standby,
    Part.post_setPost_same, post, time]

theorem Part.takeReply_post_waking (clean : r.fault = 0) (h : (p.post q).link = .waking) :
    (p.takeReply q r).post q = if r.ready = true then
      { (p.post q).answered r.fault with slowWakes := 0, link := .active, timer := .stopped, notice := true }
      else (p.post q).answered r.fault := by
  rw [Part.takeReply_waking clean h, apply_ite (Part.post · q), Part.activate_post, Part.post_modPost_same,
    Part.writeReadings_post, Part.heard_post]

/-- Every valid reply counts, in every state of its post (R152, R154). -/
theorem Part.takeReply_counts (p : Part) (q : PostId) (r : LinkReply) :
    ((p.takeReply q r).post q).misses = 0 ∧ ((p.takeReply q r).post q).valid = min ((p.post q).valid + 1) 2 ∧
      ((p.takeReply q r).post q).seq = ((p.post q).seq + 1) % 16 ∧ ((p.takeReply q r).post q).fault = r.fault := by
  by_cases away : (p.post q).link = .isolated ∨ (p.post q).link = .absent
  · rw [Part.takeReply_post_away away]
    exact ⟨rfl, rfl, rfl, rfl⟩
  by_cases clean : r.fault = 0
  · cases h : (p.post q).link with
    | isolated => exact absurd (.inl h) away
    | absent => exact absurd (.inr h) away
    | seeking =>
      rw [Part.takeReply_post_sought clean (.inl h)]
      split <;> exact ⟨rfl, rfl, rfl, rfl⟩
    | lost =>
      rw [Part.takeReply_post_sought clean (.inr h)]
      split <;> exact ⟨rfl, rfl, rfl, rfl⟩
    | preparing =>
      rw [Part.takeReply_post_preparing clean h]
      split <;> exact ⟨rfl, rfl, rfl, rfl⟩
    | active =>
      rw [Part.takeReply_post_active clean h]
      exact ⟨rfl, rfl, rfl, rfl⟩
    | standby =>
      rw [Part.takeReply_post_standby clean h]
      split <;> exact ⟨rfl, rfl, rfl, rfl⟩
    | waking =>
      rw [Part.takeReply_post_waking clean h]
      split <;> exact ⟨rfl, rfl, rfl, rfl⟩
  · obtain ⟨notice, post⟩ := Part.takeReply_post_faulty clean (fun h => away (.inl h)) (fun h => away (.inr h))
    rw [post]
    exact ⟨rfl, rfl, rfl, rfl⟩

end

/-! ### The bays -/

/-- A reply whose values are written: a clean one of a post in ACTIVE, STANDBY or WAKING, or the one that takes it from
PREPARING to ACTIVE (R155, R157). -/
def LinkReply.Writes (r : LinkReply) (x : Post) : Prop :=
  r.fault = 0 ∧ (x.link = .active ∨ x.link = .standby ∨ x.link = .waking ∨ (x.link = .preparing ∧ r.ready = true))

section
variable {p : Part} {q : PostId} {r : LinkReply} {b : BayId} {k : Socket}

/-- What a written reply tells the bays, `writeReadings` tells a part with the same bays. -/
theorem Part.takeReply_writes (writes : r.Writes (p.post q)) : ∃ (u : Part) (first : Bool),
    (∀ b, (u.bay b).told = (p.bay b).told) ∧
    ∀ b, ((p.takeReply q r).bay b).told = ((u.writeReadings first q r).bay b).told := by
  obtain ⟨clean, h | h | h | ⟨h, ready⟩⟩ := writes
  · exact ⟨p.heard q r.fault, false, fun _ => rfl, fun b => by rw [Part.takeReply_active clean h]⟩
  · refine ⟨p.heard q r.fault, false, fun _ => rfl, fun b => ?_⟩
    rw [Part.takeReply_standby clean h, apply_ite (Part.bay · b), Part.wakePost_bay, ite_self]
  · refine ⟨p.heard q r.fault, false, fun _ => rfl, fun b => ?_⟩
    rw [Part.takeReply_waking clean h]
    split
    · exact Part.activate_told _ q b
    · rfl
  · refine ⟨(p.heard q r.fault).activate q, true, Part.activate_told _ q, fun b => ?_⟩
    rw [Part.takeReply_preparing clean h, if_pos ready]

theorem Part.takeReply_bound (writes : r.Writes (p.post q)) (bound : p.boundBay q k = some b) :
    ((p.takeReply q r).bay b).told = ((p.bay b).written (r.value k)).told := by
  obtain ⟨u, first, same, told⟩ := Part.takeReply_writes writes
  have config (b : BayId) : (u.bay b).config = (p.bay b).config := congrArg (·.1) (same b)
  rw [told, Part.writeReadings_bound first ((Part.boundBay_congr config q k).trans bound)]
  exact Bay.written_told_congr (config b) _

theorem Part.takeReply_unwritten (other : ¬ r.Writes (p.post q)) (b : BayId) :
    ((p.takeReply q r).bay b).told = (p.bay b).told := by
  by_cases away : (p.post q).link = .isolated ∨ (p.post q).link = .absent
  · rw [Part.takeReply_away away]
    rfl
  by_cases clean : r.fault = 0
  · have sought : (p.post q).link = .seeking ∨ (p.post q).link = .lost →
        ((p.takeReply q r).bay b).told = (p.bay b).told := fun h => by
      rw [Part.takeReply_sought clean h]
      split <;> rfl
    cases h : (p.post q).link with
    | isolated => exact absurd (.inl h) away
    | absent => exact absurd (.inr h) away
    | seeking => exact sought (.inl h)
    | lost => exact sought (.inr h)
    | preparing =>
      rw [Part.takeReply_preparing clean h, if_neg fun ready => other ⟨clean, .inr (.inr (.inr ⟨h, ready⟩))⟩]
      rfl
    | active => exact absurd ⟨clean, .inl h⟩ other
    | standby => exact absurd ⟨clean, .inr (.inl h)⟩ other
    | waking => exact absurd ⟨clean, .inr (.inr (.inl h))⟩ other
  · rw [Part.takeReply_faulty clean (fun h => away (.inl h)) (fun h => away (.inr h)), Part.isolate_told]
    rfl

theorem Part.takeReply_untold (other : ¬ r.Writes (p.post q) ∨ ∀ k, p.boundBay q k ≠ some b) :
    ((p.takeReply q r).bay b).told = (p.bay b).told := by
  by_cases writes : r.Writes (p.post q)
  · obtain ⟨u, first, same, told⟩ := Part.takeReply_writes writes
    have unbound := other.resolve_left (not_not.2 writes)
    have config (b : BayId) : (u.bay b).config = (p.bay b).config := congrArg (·.1) (same b)
    rw [told, Part.writeReadings_other first fun k => (Part.boundBay_congr config q k).symm ▸ unbound k, same]
  · exact Part.takeReply_unwritten writes b

end

/-- Settles O47: the post after a reply, by its state (`Part.takeReply_post_…`), and what the bays are told of it
(`Part.takeReply_bound`, `Part.takeReply_untold`). -/
theorem validReplyDrivesThePostState : Obligations.ValidReplyDrivesThePostState := by
  unfold Obligations.ValidReplyDrivesThePostState
  intro p q r
  obtain ⟨misses, valid, seq, fault⟩ := p.takeReply_counts q r
  refine ⟨misses, valid, seq, fault, fun faulty isolated absent => ?faulty, fun clean sought => ?sought,
    fun clean h => ?preparing, fun clean h => ?waking, fun clean h => ?active, fun isolated => ?isolated,
    fun clean h => ?standby, fun k b writes bound => Bay.values_of_told (Part.takeReply_bound writes bound),
    fun b other => Bay.values_of_told (Part.takeReply_untold other)⟩
  case faulty =>
    obtain ⟨notice, post⟩ := Part.takeReply_post_faulty faulty isolated absent
    rw [post]
    exact ⟨rfl, rfl, rfl⟩
  case sought =>
    rw [Part.takeReply_post_sought clean sought]
    refine ⟨fun none => ?_, fun some => ?_⟩
    · rw [if_neg (by omega)]
      rfl
    · rw [if_pos some]
      exact ⟨rfl, rfl⟩
  case preparing =>
    rw [Part.takeReply_post_preparing clean h, apply_ite Post.link]
    exact if_congr Iff.rfl rfl h
  case waking =>
    rw [Part.takeReply_post_waking clean h]
    refine ⟨?_, fun ready => ?_, fun unready => ?_⟩
    · rw [apply_ite Post.link]
      exact if_congr Iff.rfl rfl h
    · rw [if_pos ready]
      exact ⟨rfl, rfl⟩
    · rw [if_neg (unready ▸ nofun)]
      exact ⟨rfl, rfl⟩
  case active =>
    rw [Part.takeReply_post_active clean h]
    exact h
  case isolated => exact Part.takeReply_away (.inl isolated)
  case standby =>
    rw [Part.takeReply_post_standby clean h]
    refine ⟨fun changes => ?_, fun same => ?_⟩
    · rw [if_pos (Part.wokenBy_iff.2 changes)]
      exact ⟨rfl, rfl⟩
    · rw [if_neg (mt Part.wokenBy_iff.1 same)]
      exact ⟨h, rfl⟩

end Sys2Proof.Machine

namespace Sys2Proof.Machine

/-! ## O48: the limits of a post (R157, R163) -/

section
variable {p : Part} {s : State} {q : PostId} {e : Nat}

/-- A post that an event leaves neither ACTIVE nor STANDBY stands so, but for its notice flag, when the event is
complete. -/
theorem State.complete_post (s : State) {u : Part} (active : (u.post q).link ≠ .active)
    (standby : (u.post q).link ≠ .standby) : ((s.withPart u).complete.part.post q).quiet = (u.post q).quiet :=
  (Part.post_of_quiet (State.kick_quiet _) q).trans
    (congrArg Post.quiet ((Part.finish_follows u).post_eq active standby))

/-- An event that isolates a post leaves it so when it is complete. -/
theorem State.complete_isolate (s : State) (u : Part) (q : PostId) (cause : IsolationCause) :
    let y := (s.withPart (u.isolate q cause)).complete.part.post q
    y.link = .isolated ∧ y.cause = cause ∧ y.timer = .stopped ∧ y.slowWakes = (u.post q).slowWakes := by
  have post := u.isolate_post q cause
  have active : ((u.isolate q cause).post q).link ≠ .active := post ▸ nofun
  have standby : ((u.isolate q cause).post q).link ≠ .standby := post ▸ nofun
  have quiet := s.complete_post active standby
  rw [post] at quiet
  exact ⟨congrArg (·.link) quiet, congrArg (·.cause) quiet, congrArg (·.timer) quiet, congrArg (·.slowWakes) quiet⟩

theorem Part.prepareLimit_early (timer : (p.post q).timer = .prepare e) (early : p.time < e) : p.prepareLimit q = p := by
  unfold Part.prepareLimit
  rw [timer]
  exact if_neg (Nat.not_le.2 early)

theorem Part.prepareLimit_due (timer : (p.post q).timer = .prepare e) (due : e ≤ p.time) :
    p.prepareLimit q = p.isolate q .prepareTimeout := by
  unfold Part.prepareLimit
  rw [timer]
  exact if_pos due

theorem Part.wakeLimit_early (timer : (p.post q).timer = .wake e) (early : p.time < e) : p.wakeLimit q = p := by
  unfold Part.wakeLimit
  rw [timer]
  exact if_neg (Nat.not_le.2 early)

theorem Part.setPost_setPost (p : Part) (q : PostId) (x y : Post) : (p.setPost q x).setPost q y = p.setPost q y := by
  unfold Part.setPost
  rw [Vector.set_set]

theorem Part.modPost_modPost (p : Part) (q : PostId) (g h : Post → Post) :
    (p.modPost q g).modPost q h = p.setPost q (h (g (p.post q))) := by
  unfold Part.modPost
  rw [Part.post_setPost_same, Part.setPost_setPost]

theorem Part.wakeLimit_again (timer : (p.post q).timer = .wake e) (due : e ≤ p.time) (few : (p.post q).slowWakes < 2) :
    p.wakeLimit q = p.setPost q { p.post q with
      slowWakes := (p.post q).slowWakes + 1, timer := .wake (p.time + 3000000), notice := true } := by
  have below : (p.post q).slowWakes + 1 < Config.slowWakeLimit := Nat.succ_lt_succ few
  unfold Part.wakeLimit
  rw [timer]
  simp only [due, below, if_true, Part.modPost_modPost]
  rfl

theorem Part.wakeLimit_last (timer : (p.post q).timer = .wake e) (due : e ≤ p.time) (last : (p.post q).slowWakes = 2) :
    p.wakeLimit q =
      (p.modPost q (fun x => { x with slowWakes := x.slowWakes + 1, notice := true })).isolate q .wakeFault := by
  have full : ¬ (p.post q).slowWakes + 1 < Config.slowWakeLimit := by
    rw [last]
    decide
  unfold Part.wakeLimit
  rw [timer]
  simp only [due, full, if_true, if_false]

end

/-! ## O48: the settle timer (R126) -/

section
variable {p : Part} {s : State} {k : SlotId} {r : Record} {x : Session} {z : Settle}

theorem Part.settleExpired_eq (hr : p.record k = some r) (engaged : r.state = .engaged) (hx : r.session = some x)
    (hz : x.settle = some z) : p.settleExpired k =
      if z.expiry ≤ p.time then p.closeRecord k .stopped z.cause.closedBy else p := by
  simp [Part.settleExpired, Part.session_eq hr hx, hz, Part.recordIs, hr, engaged]

/-- The settle timer of a session closes its record, and the completion leaves the close as it is. -/
theorem complete_settleExpired {time : Nat} (hr : s.part.record k = some r) (engaged : r.state = .engaged)
    (hx : r.session = some x) (hz : x.settle = some z) (due : z.expiry ≤ max s.part.time time) :
    ∃ r', (s.withPart ((s.part.at time).settleExpired k)).complete.part.record k = some r' ∧ r'.state = .closing ∧
      r'.close = some (r.summary (s.part.pool.handle k) s.part.now .stopped z.cause.closedBy) := by
  have expires := Part.settleExpired_eq (p := s.part.at time) hr engaged hx hz
  rw [if_pos (show z.expiry ≤ (s.part.at time).time from due)] at expires
  rw [expires]
  have closes := Part.closeRecord_closes (p := s.part.at time) hr engaged .stopped z.cause.closedBy
  exact (State.complete_moves (timed := true) (s.withPart _)).closed k _ closes rfl

end

end Sys2Proof.Machine

namespace Sys2Proof.Machine

/-! ## O48: the condition of a bay whose post is out of service (R7, R8, R159) -/

/-- A configured bay whose post is not serviceable, nor in a state that a change which follows may write. -/
structure Part.Unserved (p : Part) (b : BayId) : Prop where
  configured : (p.bay b).configured = true
  active : (p.post (p.bay b).post).link ≠ .active
  standby : (p.post (p.bay b).post).link ≠ .standby
  serviceable : p.serviceable b = false

section
variable {p u : Part} {b c : BayId} {k : SlotId} {r : Record}

theorem Part.Unserved.conditionOf (h : p.Unserved b) :
    p.conditionOf b = if (p.bay b).service = .out then .out else .dark := by
  cases service : (p.bay b).service with
  | out => exact Part.conditionOf_out (.inr service)
  | inService => exact Part.conditionOf_dark h.configured service h.serviceable

theorem Part.Unserved.follows (h : p.Unserved b) (follows : p.Follows u) : u.Unserved b := by
  have told := follows.bay_told b
  have configured : (u.bay b).configured = (p.bay b).configured := congrArg (·.1.1) told
  have bound : (u.bay b).post = (p.bay b).post := congrArg (·.1.2.1) told
  have post := follows.post_eq h.active h.standby
  refine ⟨configured.trans h.configured, ?_, ?_, ?_⟩
  · rw [bound, post]
    exact h.active
  · rw [bound, post]
    exact h.standby
  · rw [Part.serviceable, bound, post]
    exact h.serviceable

theorem Part.Unserved.conditionOf_eq (h : p.Unserved b) (follows : p.Follows u) :
    u.conditionOf b = p.conditionOf b := by
  have service : (u.bay b).service = (p.bay b).service := congrArg (·.1.2.2.2.2.2.2) (follows.bay_told b)
  rw [(h.follows follows).conditionOf, h.conditionOf, service]

/-- A derived condition of such a bay stands through what follows. -/
theorem Part.Unserved.condition_stands (h : p.Unserved b) (follows : p.Follows u)
    (current : (p.bay b).condition = p.conditionOf b) : (u.bay b).condition = (p.bay b).condition := by
  induction follows with
  | refl p => rfl
  | trans first _ ih ih' =>
    have stands := ih h current
    refine (ih' (h.follows first) ?_).trans stands
    rw [stands, current, h.conditionOf_eq first]
  | besides bays => simp only [Part.bay, bays]
  | bay p c x told condition =>
    rw [Part.bay_setBay]
    split
    · next e =>
      subst e
      rcases condition with same | derived
      · exact same
      · exact derived.trans current.symm
    · rfl
  | post => rfl
  | store => rfl

theorem Part.derive_bay_ne (p : Part) (ne : b ≠ c) : (p.derive c).bay b = p.bay b := by
  by_cases same : p.conditionOf c = (p.bay c).condition
  · rw [Part.derive_of_eq same]
  · rw [Part.derive_bay_of_ne same, if_neg ne]

theorem Part.foldl_derive_bay_ne {bays : List BayId} (away : b ∉ bays) (p : Part) :
    (bays.foldl Part.derive p).bay b = p.bay b := by
  induction bays generalizing p with
  | nil => rfl
  | cons c bays ih =>
    obtain ⟨ne, away⟩ := not_or.1 (mt List.mem_cons.2 away)
    exact (ih away _).trans (p.derive_bay_ne ne)

theorem Part.foldl_derive_pool (bays : List BayId) (p : Part) : (bays.foldl Part.derive p).pool = p.pool :=
  foldl_view Part.pool Part.derive_pool bays p

/-- The derivation of the bays of a post out of service: each takes its condition, and one that is not blocked and
becomes blocked raises its event. -/
theorem Part.foldl_derive_unserved {bays : List BayId} (nodup : bays.Nodup) (mem : b ∈ bays) (h : p.Unserved b) :
    ((bays.foldl Part.derive p).bay b).condition = p.conditionOf b ∧
      ((p.conditionOf b).blocking = true → (p.bay b).condition.blocking = false →
        ⟨b, false⟩ ∈ (bays.foldl Part.derive p).work.blocked) := by
  obtain ⟨before, after, rfl⟩ := List.append_of_mem mem
  have away : b ∉ before := fun also => (List.nodup_append.1 nodup).2.2 b also b List.mem_cons_self rfl
  have bay := Part.foldl_derive_bay_ne away p
  have first : p.Follows (before.foldl Part.derive p) := .foldl before Part.derive_follows p
  rw [List.foldl_append, List.foldl_cons]
  generalize before.foldl Part.derive p = v at bay first
  have unserved := (h.follows first).follows (v.derive_follows b)
  have condition := (v.derive_condition b).trans (h.conditionOf_eq first)
  have rest : (v.derive b).Follows (after.foldl Part.derive (v.derive b)) := .foldl after Part.derive_follows _
  constructor
  · refine (unserved.condition_stands rest ?_).trans condition
    exact (v.derive_condition b).trans ((h.follows first).conditionOf_eq (v.derive_follows b)).symm
  · intro blocking free
    refine (Part.SparesLink.foldl Part.derive_sparesLink after _).blocked _ ?_
    have changes : v.conditionOf b ≠ (v.bay b).condition := fun same => by
      rw [h.conditionOf_eq first, bay] at same
      rw [same, free] at blocking
      cases blocking
    rw [Part.derive_blocked_of_ne changes, h.conditionOf_eq first, bay, blocking, free]
    exact List.mem_append_right _ (List.mem_singleton.2 rfl)

/-! ## O48: the sessions of the bays (R121) -/

/-- What the halt of a bay stores: the record of its occupant, closed or in its place. -/
theorem Part.haltBay_pool (p : Part) (b : BayId) : (p.haltBay b).pool = p.pool ∨ ∃ k r, p.occupant b = some k ∧
    (p.haltBay b).pool = p.pool.put k r ∧ (r.home = .closing ∨ r.home = p.pool.homeOf k) := by
  unfold Part.haltBay
  cases occupant : p.occupant b with
  | none => exact .inl rfl
  | some k =>
    dsimp only
    cases session : p.session k with
    | none => exact .inl rfl
    | some x =>
      obtain ⟨r, hr, hx⟩ := Option.bind_eq_some_iff.1 session
      refine .inr ⟨k, ?_⟩
      dsimp only
      split
      · exact ⟨_, rfl, (Part.closeRecord_after hr .stopped (by' := .link) nofun).2.trans (p.put_pool k _), .inl rfl⟩
      · obtain ⟨r', state, bay, -, -, pool⟩ := Part.updSession_after hr hx Session.halt
        refine ⟨r', rfl, pool.trans (p.put_pool k r'), .inr ?_⟩
        rw [Pool.homeOf_record hr, Record.home, Record.home, state, bay]

theorem Part.haltBay_follows (p : Part) (b : BayId) : p.Follows (p.haltBay b) := by
  rcases p.haltBay_cases b with same | ⟨k, -, closes | halts⟩
  · rw [same]
    exact .refl p
  · rw [closes]
    exact p.closeRecord_follows k .stopped nofun
  · rw [halts]
    exact p.updSession_follows k _

theorem Part.homeOf_occupant (parts : p.pool.partitioned) (h : p.occupant b = some k) : p.pool.homeOf k = .chain b :=
  (Pool.mem_chain parts).1 (List.mem_of_find?_eq_some h)

/-- The halt of one bay leaves the records that do not stand on its chain. -/
theorem Part.haltBay_record_ne (parts : p.pool.partitioned) (away : p.pool.homeOf k ≠ .chain c) :
    (p.haltBay c).record k = p.record k := by
  rcases p.haltBay_pool c with pool | ⟨j, r, occupant, pool, -⟩
  · rw [Part.record, pool, Part.record]
  · have ne : k ≠ j := fun same => away (same ▸ Part.homeOf_occupant parts occupant)
    rw [Part.record, pool, Pool.record_put_ne _ r ne, Part.record]

theorem Part.haltBay_chain (parts : p.pool.partitioned) (ne : b ≠ c) : (p.haltBay c).chain b = p.chain b := by
  rcases p.haltBay_pool c with pool | ⟨j, r, occupant, pool, home⟩
  · rw [Part.chain, pool, Part.chain]
  · have at_ := Part.homeOf_occupant parts occupant
    have apart : Home.chain b ≠ p.pool.homeOf j := fun same => ne (Home.chain.inj (same.trans at_))
    have joins : Home.chain b ≠ r.home := by
      rcases home with closing | stays
      · rw [closing]
        exact nofun
      · rw [stays]
        exact apart
    rw [Part.chain, pool]
    exact p.pool.members_put_other j r (.chain b) joins apart

theorem Part.haltBay_occupant (parts : p.pool.partitioned) (ne : b ≠ c) : (p.haltBay c).occupant b = p.occupant b := by
  rw [Part.occupant, Part.haltBay_chain parts ne, Part.occupant]
  refine find?_congr _ fun j mem => ?_
  have home : p.pool.homeOf j ≠ .chain c := by
    rw [(Pool.mem_chain parts).1 mem]
    exact fun same => ne (Home.chain.inj same)
  rw [Part.recordIs, Part.haltBay_record_ne parts home, Part.recordIs]

theorem Part.haltBay_partitioned (parts : p.pool.partitioned) (c : BayId) : (p.haltBay c).pool.partitioned :=
  (p.haltBay_moves (timed := true) c).partitioned parts

/-- The halts of other bays leave a bay its occupant, and the occupant its record. -/
theorem Part.foldl_haltBay_occupant {bays : List BayId} (parts : p.pool.partitioned) (away : b ∉ bays)
    (hk : p.occupant b = some k) : (bays.foldl Part.haltBay p).occupant b = some k ∧
      (bays.foldl Part.haltBay p).record k = p.record k ∧ (bays.foldl Part.haltBay p).pool.partitioned := by
  induction bays generalizing p with
  | nil => exact ⟨hk, rfl, parts⟩
  | cons c bays ih =>
    obtain ⟨ne, away⟩ := not_or.1 (mt List.mem_cons.2 away)
    have home : p.pool.homeOf k ≠ .chain c := by
      rw [Part.homeOf_occupant parts hk]
      exact fun same => ne (Home.chain.inj same)
    obtain ⟨occupant, record, parts'⟩ := ih (Part.haltBay_partitioned parts c) away
      ((Part.haltBay_occupant parts ne).trans hk)
    exact ⟨occupant, record.trans (Part.haltBay_record_ne parts home), parts'⟩

/-- The halts of bays leave a record that stands on none of their chains. -/
theorem Part.foldl_haltBay_record {bays : List BayId} (parts : p.pool.partitioned) (hr : p.record k = some r)
    (away : ∀ c ∈ bays, r.home ≠ .chain c) : (bays.foldl Part.haltBay p).record k = some r ∧
      (bays.foldl Part.haltBay p).pool.partitioned := by
  induction bays generalizing p with
  | nil => exact ⟨hr, parts⟩
  | cons c bays ih =>
    have home : p.pool.homeOf k ≠ .chain c := by
      rw [Pool.homeOf_record hr]
      exact away c List.mem_cons_self
    exact ih (Part.haltBay_partitioned parts c) ((Part.haltBay_record_ne parts home).trans hr) fun d mem =>
      away d (List.mem_cons_of_mem c mem)

/-! ### Own steps of one bay -/

/-- What the halt of its bay makes of an ENGAGED record (R121). -/
def Record.HaltedTo (r : Record) (x : Session) (r' : Record) : Prop :=
  (x.phase = .settling → ∃ c, r'.state = .closing ∧ r'.close = some c ∧ c.result = .stopped ∧ c.closedBy = .link ∧
    c.within = x.within ∧ c.excess = x.excess) ∧
  (x.phase = .overstay ∨ x.phase = .halted → r' = r) ∧
  (x.phase ≠ .settling → x.phase ≠ .overstay → x.phase ≠ .halted →
    r' = { r with notice := true, lastCause := .session, session := some { x with
      phase := .halted, stoppedIn := some x.phase, pause := .none, satisfied := 0
      seen := { x.seen with halted := true } } })

theorem Session.halt_stays {x : Session} (stays : x.phase = .overstay ∨ x.phase = .halted) : x.halt = x := by
  unfold Session.halt
  rcases stays with h | h <;> rw [h]

theorem Session.halt_halts {x : Session} (settling : x.phase ≠ .settling) (overstay : x.phase ≠ .overstay)
    (halted : x.phase ≠ .halted) : x.halt = { x with
      phase := .halted, stoppedIn := some x.phase, pause := .none, satisfied := 0
      seen := { x.seen with halted := true } } := by
  unfold Session.halt
  cases h : x.phase with
  | settling => exact absurd h settling
  | overstay => exact absurd h overstay
  | halted => exact absurd h halted
  | plugWait | charge | paused | quotaMet | satisfied => rfl

theorem Session.reports_self (x : Session) : x.reports x = false := by
  simp [Session.reports]

theorem Part.haltBay_settling {x : Session} (hk : p.occupant b = some k) (hr : p.record k = some r)
    (hx : r.session = some x) (settling : x.phase = .settling) : p.haltBay b = p.closeRecord k .stopped .link := by
  simp only [Part.haltBay, hk, Part.session_eq hr hx, settling, if_true]

theorem Part.haltBay_halts {x : Session} (hk : p.occupant b = some k) (hr : p.record k = some r)
    (hx : r.session = some x) (settling : x.phase ≠ .settling) : p.haltBay b = p.updSession k Session.halt := by
  simp only [Part.haltBay, hk, Part.session_eq hr hx, settling, if_false]

theorem Part.haltBay_record {x : Session} (hk : p.occupant b = some k) (hr : p.record k = some r)
    (hb : r.bay = some b) (hx : r.session = some x) :
    ∃ r', (p.haltBay b).record k = some r' ∧ (r'.home = .closing ∨ r'.home = .chain b) ∧ r.HaltedTo x r' := by
  have home : r.home = .chain b := by
    obtain ⟨r', hr', engaged⟩ := Part.occupant_engaged hk
    cases hr.symm.trans hr'
    exact Record.home_of_bay (by rw [engaged]; rfl) hb
  by_cases settling : x.phase = .settling
  · obtain ⟨-, within, excess, -⟩ := Record.summary_of_session hx (p.pool.handle k) p.now .stopped .link
    refine ⟨r.closed (p.pool.handle k) p.now .stopped .link, ?_, .inl rfl,
      fun _ => ⟨_, rfl, rfl, rfl, rfl, within, excess⟩, fun stays => ?_, fun other => ?_⟩
    · rw [Part.haltBay_settling hk hr hx settling]
      exact Part.closeRecord_record hr .stopped nofun
    · rw [settling] at stays
      exact nomatch stays
    · exact absurd settling other
  · rw [Part.haltBay_halts hk hr hx settling]
    by_cases stays : x.phase = .overstay ∨ x.phase = .halted
    · refine ⟨r, ?_, .inr home, fun now => absurd now settling, fun _ => rfl, fun _ overstay halted => ?_⟩
      · rw [Part.updSession_record hr hx, Session.halt_stays stays, Session.reports_self, ← hx]
        rfl
      · exact (stays.elim overstay halted).elim
    · obtain ⟨overstay, halted⟩ := not_or.1 stays
      have halts := Session.halt_halts settling overstay halted
      have reports : x.reports x.halt = true := Session.reports_of_phase (by rw [halts]; exact halted)
      refine ⟨_, Part.updSession_reported hr hx reports, .inr home, fun now => absurd now settling,
        fun now => absurd now stays, fun _ _ _ => ?_⟩
      rw [halts]
      rfl

/-- The halts of a post's bays make of each occupant's record what its own bay's halt makes of it. -/
theorem Part.foldl_haltBay_halts {bays : List BayId} {x : Session} (nodup : bays.Nodup) (mem : b ∈ bays)
    (parts : p.pool.partitioned) (hk : p.occupant b = some k) (hr : p.record k = some r) (hb : r.bay = some b)
    (hx : r.session = some x) : ∃ r', (bays.foldl Part.haltBay p).record k = some r' ∧
      (bays.foldl Part.haltBay p).pool.partitioned ∧ (r'.home = .closing ∨ r'.home = .chain b) ∧ r.HaltedTo x r' := by
  obtain ⟨before, after, rfl⟩ := List.append_of_mem mem
  obtain ⟨-, later, apart⟩ := List.nodup_append.1 nodup
  have away : b ∉ before := fun also => apart b also b List.mem_cons_self rfl
  obtain ⟨occupant, record, parts'⟩ := Part.foldl_haltBay_occupant parts away hk
  rw [List.foldl_append, List.foldl_cons]
  generalize before.foldl Part.haltBay p = v at occupant record parts'
  obtain ⟨r', hr', home, halted⟩ := Part.haltBay_record occupant (record.trans hr) hb hx
  have elsewhere : ∀ c ∈ after, r'.home ≠ .chain c := fun c also same => by
    rcases home with closing | chained
    · cases closing.symm.trans same
    · cases Home.chain.inj (chained.symm.trans same)
      exact (List.nodup_cons.1 later).1 also
  obtain ⟨stays, parts''⟩ := Part.foldl_haltBay_record (Part.haltBay_partitioned parts' b) hr' elsewhere
  exact ⟨r', stays, parts'', home, halted⟩

/-! ## O48: the verify timers (R97) -/

theorem Part.idleTimers_bay (p : Part) (bays : List BayId) (b : BayId) : (p.idleTimers bays).bay b =
    if b ∈ bays then { p.bay b with verify := .idle } else p.bay b :=
  foldl_entry Part.bay (fun _ => ()) (g := fun _ x => { x with verify := .idle }) (c := ()) (fun _ _ => rfl)
    (fun q _ i j => by rw [Part.bay_modBay]) (fun _ _ => rfl) bays p rfl b

theorem Part.updSession_verify (p : Part) (k : SlotId) (g : Session → Session) (b : BayId) :
    ((p.updSession k g).bay b).verify = (p.bay b).verify := by
  unfold Part.updSession
  cases p.record k with
  | none => rfl
  | some r =>
    dsimp only
    cases r.session with
    | none => rfl
    | some x =>
      dsimp only
      split
      · rw [Part.put_bay]
      · have told (c : Prop) [Decidable c] (u : Part) (f : FeederId) :
            ((if c then u else u.shareChanged f).bay b).verify = (u.bay b).verify := by
          split <;> rfl
        split
        · rw [told, Part.put_bay]
        · rw [Part.derive_verify, told, Part.put_bay]

theorem Part.closeRecord_verify (p : Part) (k : SlotId) (result : Result) {by' : ClosedBy} (h : by' ≠ .departed)
    (b : BayId) : ((p.closeRecord k result by').bay b).verify = (p.bay b).verify := by
  unfold Part.closeRecord
  cases p.record k with
  | none => rfl
  | some r =>
    simp only [h, decide_false, Bool.and_false, Bool.false_and, Bool.false_eq_true, if_false]
    split
    · rw [Part.put_bay]
    · split
      · rw [Part.put_bay]
      · rw [Part.derive_verify]
        split
        · rw [Part.shareChanged_bay, Part.bay_modBay, Part.retryDue_bay, Part.retryDue_bay, Part.put_bay, Part.put_bay]
          split
          · next e => rw [e]
          · rfl
        · rw [Part.retryDue_bay, Part.put_bay]

theorem Part.haltBay_verify (p : Part) (c b : BayId) : ((p.haltBay c).bay b).verify = (p.bay b).verify := by
  rcases p.haltBay_cases c with same | ⟨k, -, closes | halts⟩
  · rw [same]
  · rw [closes, p.closeRecord_verify k .stopped (by' := .link) nofun]
  · rw [halts, Part.updSession_verify]

end

end Sys2Proof.Machine

namespace Sys2Proof.Machine

/-! ## O48: the recompute that follows (R143, R159) -/

section
variable {p u : Part} {q : PostId} {b : BayId} {k : SlotId} {f : FeederId} {r : Record}

theorem sharePasses_bays (passes left : Nat) (u : List Member) (fixed : List Given) :
    (∀ g ∈ (sharePasses passes left u fixed).fixed, g ∈ fixed ∨ ∃ m ∈ u, m.bay = g.1) ∧
      ∀ g ∈ (sharePasses passes left u fixed).open_, ∃ m ∈ u, m.bay = g.1 := by
  induction passes generalizing left u fixed with
  | zero => exact ⟨fun g mem => .inl mem, nofun⟩
  | succ passes ih =>
    by_cases ne : u = []
    · rw [ne]
      exact ⟨fun g mem => .inl mem, nofun⟩
    by_cases none : fullMembers left u = []
    · rw [sharePasses_last ne none]
      refine ⟨fun g mem => .inl mem, fun g mem => ?_⟩
      obtain ⟨m, hm, rfl⟩ := List.mem_map.1 mem
      exact ⟨m, hm, rfl⟩
    · have wider (m : Member) : m ∈ fullMembers left u ++ openMembers left u → m ∈ u :=
        (full_append_open_perm left u).mem_iff.1
      rw [sharePasses_full none]
      obtain ⟨fixes, opens⟩ := ih (left - ((fullMembers left u).map (fun m => m.cap - 60)).sum) (openMembers left u)
        (fixed ++ (fullMembers left u).map (fun m => (m.bay, m.cap)))
      refine ⟨fun g mem => ?_, fun g mem => ?_⟩
      · rcases fixes g mem with now | ⟨m, hm, bay⟩
        · rcases List.mem_append.1 now with before | full
          · exact .inl before
          · obtain ⟨m, hm, rfl⟩ := List.mem_map.1 full
            exact .inr ⟨m, wider m (List.mem_append_left _ hm), rfl⟩
        · exact .inr ⟨m, wider m (List.mem_append_right _ hm), bay⟩
      · obtain ⟨m, hm, bay⟩ := opens g mem
        exact ⟨m, wider m (List.mem_append_right _ hm), bay⟩

/-- A division gives current to members of the demanding set alone (R140). -/
theorem divide_bays {available rotor : Nat} {d : List Member} {g : Given} (mem : g ∈ (divide available rotor d).given) :
    ∃ m ∈ d, m.bay = g.1 := by
  obtain ⟨fixes, opens⟩ := sharePasses_bays (d.filter (fun m => m.bay ∈ admitted available d)).length
    (available - 60 * (d.filter (fun m => m.bay ∈ admitted available d)).length)
    (d.filter (fun m => m.bay ∈ admitted available d)) []
  rcases List.mem_append.1 mem with fixed | raised
  · obtain ⟨m, hm, bay⟩ := (fixes g fixed).resolve_left nofun
    exact ⟨m, List.mem_of_mem_filter hm, bay⟩
  · obtain ⟨i, given, same, -⟩ := mem_raiseFirst raised
    obtain ⟨m, hm, bay⟩ := opens i ((cyclicFrom_perm rotor _).mem_iff.1 given)
    exact ⟨m, List.mem_of_mem_filter hm, bay.trans same.symm⟩

theorem Part.division_limit_of_unusable (unusable : (p.bay b).condition.unusable = true) :
    (p.division f).limit b = 0 := by
  unfold Division.limit
  cases given : (p.division f).given.lookup b with
  | none => rfl
  | some v =>
    have mem := mem_of_lookup given
    rw [Part.division_eq] at mem
    split at mem
    · obtain ⟨m, hm, bay⟩ := divide_bays mem
      have member := (Part.mem_demanding_iff.1 hm).2
      obtain ⟨-, -, usable, -⟩ := Part.member_eq_some_iff.1 member
      rw [bay, unusable] at usable
      cases usable
    · cases mem

theorem Part.recompute_bayCondition (p : Part) (f : FeederId) (b : BayId) :
    ((p.recompute f).bay b).condition = (p.bay b).condition :=
  (congrArg Bay.condition ((p.recompute_sharesOn f).bay b) :)

theorem Part.recompute_verify (p : Part) (f : FeederId) (b : BayId) :
    ((p.recompute f).bay b).verify = (p.bay b).verify :=
  (congrArg Bay.verify ((p.recompute_sharesOn f).bay b) :)

theorem Part.foldl_recompute_condition (feeders : List FeederId) (p : Part) (b : BayId) :
    ((feeders.foldl Part.recompute p).bay b).condition = (p.bay b).condition :=
  foldl_view (fun u : Part => (u.bay b).condition) (fun u f => u.recompute_bayCondition f b) feeders p

theorem Part.foldl_recompute_verify (feeders : List FeederId) (p : Part) (b : BayId) :
    ((feeders.foldl Part.recompute p).bay b).verify = (p.bay b).verify :=
  foldl_view (fun u : Part => (u.bay b).verify) (fun u f => u.recompute_verify f b) feeders p

/-- The recompute of its feeder takes the limit of a bay that is OUT or DARK, and no other recompute gives it one. -/
theorem Part.recompute_limit (used : (p.feeder (p.bay b).feeder).state ≠ .unused)
    (configured : (p.bay b).configured = true) (unusable : (p.bay b).condition.unusable = true)
    (off : f = (p.bay b).feeder ∨ (p.bay b).limit = 0) : ((p.recompute f).bay b).limit = 0 := by
  by_cases same : f = (p.bay b).feeder
  · have mem : b ∈ p.baysOfFeeder f := Part.mem_baysOfFeeder.2 ⟨configured, same.symm⟩
    rw [Part.recompute_shares (same ▸ used) (List.ne_nil_of_mem mem), Part.share_bay, if_pos mem]
    exact Part.division_limit_of_unusable unusable
  · have elsewhere : b ∉ p.baysOfFeeder f := fun mem => same (Part.mem_baysOfFeeder.1 mem).2.symm
    rw [(p.recompute_sharesOn f).bays b elsewhere]
    exact off.resolve_left same

theorem Part.foldl_recompute_limit (feeders : List FeederId) (used : (p.feeder (p.bay b).feeder).state ≠ .unused)
    (configured : (p.bay b).configured = true) (unusable : (p.bay b).condition.unusable = true)
    (off : (p.bay b).feeder ∈ feeders ∨ (p.bay b).limit = 0) :
    ((feeders.foldl Part.recompute p).bay b).limit = 0 := by
  induction feeders generalizing p with
  | nil => exact off.resolve_left nofun
  | cons g feeders ih =>
    have link := p.recompute_sparesLink g
    have feeder : ((p.recompute g).bay b).feeder = (p.bay b).feeder := congrArg (·.2.2.2.1) (link.config b)
    refine ih ?_ ((congrArg (·.1) (link.config b)).trans configured) ((p.recompute_bayCondition g b).symm ▸ unusable) ?_
    · rw [feeder, link.state]
      exact used
    · rw [feeder]
      rcases off with mem | zero
      · rcases List.mem_cons.1 mem with now | later
        · exact .inr (Part.recompute_limit used configured unusable (.inl now.symm))
        · exact .inl later
      · exact .inr (Part.recompute_limit used configured unusable (.inr zero))

/-- Recomputes leave a record that has closed or stands on the chain of a bay that is OUT or DARK. -/
theorem Part.foldl_recompute_record (feeders : List FeederId) (parts : p.pool.partitioned) (hr : p.record k = some r)
    (out : ∀ c, r.home = .chain c → (p.bay c).condition.unusable = true) :
    (feeders.foldl Part.recompute p).record k = some r := by
  induction feeders generalizing p with
  | nil => exact hr
  | cons g feeders ih =>
    have stays : (p.recompute g).record k = p.record k := Part.recompute_record_ne fun m mem same => by
      obtain ⟨-, occupant, usable, -⟩ := Part.member_eq_some_iff.1 (Part.mem_demanding_iff.1 mem).2
      have home := Part.homeOf_occupant parts occupant
      rw [same, Pool.homeOf_record hr] at home
      rw [out m.bay home] at usable
      cases usable
    refine ih ((p.recompute_moves (timed := true) g).partitioned parts) (stays.trans hr) fun c home => ?_
    rw [p.recompute_bayCondition g c]
    exact out c home

/-! ## O48: a post that leaves the serviceable states (R97, R121, R159) -/

/-- What the loss of service of its post makes of a bay and of its ENGAGED record. -/
structure Part.Darkened (p t : Part) (b : BayId) : Prop where
  condition : (t.bay b).condition = if (p.bay b).service = .out then .out else .dark
  verify : (t.bay b).verify = .idle
  occupancy : (t.bay b).occupancy = (p.bay b).occupancy
  plug : (t.bay b).plug = (p.bay b).plug
  limit : (p.bay b).condition ≠ .out → (p.bay b).condition ≠ .dark → (p.feeder (p.bay b).feeder).state ≠ .unused →
    (t.bay b).limit = 0
  blocked : (p.bay b).service = .inService → (p.bay b).condition.blocking = false → ⟨b, false⟩ ∈ t.work.blocked
  record (k : SlotId) (r : Record) (x : Session) : p.occupant b = some k → p.record k = some r → r.bay = some b →
    r.session = some x → ∃ r', t.record k = some r' ∧ r.HaltedTo x r'

theorem Condition.out_or_dark_unusable (c : Prop) [Decidable c] :
    (if c then Condition.out else .dark).unusable = true := by
  split <;> rfl

theorem Condition.unusable_eq_false {c : Condition} (out : c ≠ .out) (dark : c ≠ .dark) : c.unusable = false := by
  cases c with
  | out => exact absurd rfl out
  | dark => exact absurd rfl dark
  | free | reserved | unverified | intruded | inUse | overstay => rfl

theorem Part.mem_feedersLosing {bays : List BayId} (mem : b ∈ bays) (usable : (p.bay b).condition.unusable = false) :
    (p.bay b).feeder ∈ p.feedersLosing bays := by
  refine List.mem_filter.2 ⟨List.mem_finRange _, List.any_eq_true.2 ⟨b, mem, ?_⟩⟩
  rw [usable, decide_eq_true rfl]
  rfl

theorem Part.baysOfPost_nodup (p : Part) (q : PostId) : (p.baysOfPost q).Nodup := (List.nodup_finRange 64).filter _

/-- The bays of a post that passes to not serviceable, once their timers, conditions and sessions have followed. -/
theorem Part.darken_bay {bays : List BayId} (nodup : bays.Nodup) (mem : b ∈ bays) (h : p.Unserved b) :
    ((p.darken bays).bay b).condition = p.conditionOf b ∧ ((p.darken bays).bay b).verify = .idle ∧
      ((p.conditionOf b).blocking = true → (p.bay b).condition.blocking = false →
        ⟨b, false⟩ ∈ (p.darken bays).work.blocked) := by
  have bay : (p.idleTimers bays).bay b = { p.bay b with verify := .idle } := by
    rw [Part.idleTimers_bay, if_pos mem]
  have idle : p.Follows (p.idleTimers bays) := .foldl bays (fun u c => u.modBay_follows c _ rfl (.inl rfl) id) p
  have unserved := h.follows idle
  obtain ⟨condition, blocked⟩ := Part.foldl_derive_unserved nodup mem unserved
  have derived : (p.idleTimers bays).Follows (bays.foldl Part.derive (p.idleTimers bays)) :=
    .foldl bays Part.derive_follows _
  have halted := Part.Follows.foldl bays Part.haltBay_follows (bays.foldl Part.derive (p.idleTimers bays))
  have current := condition.trans (unserved.conditionOf_eq derived).symm
  rw [h.conditionOf_eq idle] at condition blocked
  refine ⟨((unserved.follows derived).condition_stands halted current).trans condition, ?_, fun blocking free => ?_⟩
  · have halts := foldl_view (fun u : Part => (u.bay b).verify) (fun u c => u.haltBay_verify c b) bays
      (bays.foldl Part.derive (p.idleTimers bays))
    have derives := foldl_view (fun u : Part => (u.bay b).verify) (fun u c => u.derive_verify c b) bays
      (p.idleTimers bays)
    exact halts.trans (derives.trans (congrArg Bay.verify bay))
  · exact (Part.SparesLink.foldl Part.haltBay_sparesLink bays _).blocked _
      (blocked blocking ((congrArg (·.condition.blocking) bay).trans free))

theorem Part.darken_record {bays : List BayId} {x : Session} (nodup : bays.Nodup) (mem : b ∈ bays)
    (parts : p.pool.partitioned) (hk : p.occupant b = some k) (hr : p.record k = some r) (hb : r.bay = some b)
    (hx : r.session = some x) : ∃ r', (p.darken bays).record k = some r' ∧ (p.darken bays).pool.partitioned ∧
      (r'.home = .closing ∨ r'.home = .chain b) ∧ r.HaltedTo x r' := by
  have pool : (bays.foldl Part.derive (p.idleTimers bays)).pool = p.pool :=
    (Part.foldl_derive_pool bays _).trans (p.idleTimers_pool bays)
  refine Part.foldl_haltBay_halts nodup mem (pool ▸ parts) ?_ ?_ hb hx
  · exact (Part.occupant_of_pool pool b).trans hk
  · exact (congrArg (Pool.record · k) pool).trans hr

theorem Part.leavePost_darkens {x : Post} (parts : p.pool.partitioned) (served : (p.post q).serviceable = true)
    (leaves : x.serviceable = false) (active : x.link ≠ .active) (standby : x.link ≠ .standby)
    (configured : (p.bay b).configured = true) (post : (p.bay b).post = q) : p.Darkened (p.leavePost q x) b := by
  have mem : b ∈ p.baysOfPost q := Part.mem_baysOfPost.2 ⟨configured, post⟩
  have nodup := p.baysOfPost_nodup q
  have stored : (p.setPost q x).post ((p.setPost q x).bay b).post = x := by
    rw [show ((p.setPost q x).bay b).post = q from post, Part.post_setPost_same]
  have unserved : (p.setPost q x).Unserved b :=
    ⟨configured, by rwa [stored], by rwa [stored], by rw [Part.serviceable, stored, leaves]⟩
  have leave : p.leavePost q x =
      (p.feedersLosing (p.baysOfPost q)).foldl Part.recompute ((p.setPost q x).darken (p.baysOfPost q)) :=
    if_pos (by rw [served, leaves]; rfl)
  obtain ⟨condition, verify, blocked⟩ := Part.darken_bay nodup mem unserved
  have link := (p.setPost q x).darken_sparesLink (p.baysOfPost q)
  have told : ((p.leavePost q x).bay b).told = (p.bay b).told := (p.leavePost_sparesLink q x).told b
  rw [unserved.conditionOf] at condition blocked
  have unusable : ((((p.setPost q x).darken (p.baysOfPost q)).bay b).condition).unusable = true := by
    rw [condition]
    exact Condition.out_or_dark_unusable _
  refine ⟨?_, ?_, congrArg (·.2.2.2.1) told, congrArg (·.2.2.2.2) told, fun out dark used => ?_,
    fun inService free => ?_, fun k r y hk hr hb hy => ?_⟩
  · rw [leave, Part.foldl_recompute_condition]
    exact condition
  · rw [leave, Part.foldl_recompute_verify]
    exact verify
  · have feeder : (((p.setPost q x).darken (p.baysOfPost q)).bay b).feeder = (p.bay b).feeder :=
      congrArg (·.2.2.2.1) (link.config b)
    rw [leave]
    refine Part.foldl_recompute_limit _ ?_ ((congrArg (·.1) (link.config b)).trans configured) unusable (.inl ?_)
    · rw [feeder, link.state]
      exact used
    · rw [feeder]
      exact Part.mem_feedersLosing mem (Condition.unusable_eq_false out dark)
  · rw [leave]
    refine (Part.SparesLink.foldl Part.recompute_sparesLink _ _).blocked _ (blocked ?_ free)
    rw [show ((p.setPost q x).bay b).service = .inService from inService]
    rfl
  · obtain ⟨r', hr', parts', home, halted⟩ := Part.darken_record (p := p.setPost q x) nodup mem parts hk hr hb hy
    refine ⟨r', leave ▸ Part.foldl_recompute_record _ parts' hr' fun c same => ?_, halted⟩
    rcases home with closing | chained
    · cases closing.symm.trans same
    · cases Home.chain.inj (chained.symm.trans same)
      exact unusable

/-! ## O48: a post that is lost (R146, R159) -/

/-- The part in which the readings and caps of the bays of a post are 0 and METER-GAP is set, before the post is lost. -/
def Part.metered (p : Part) (q : PostId) : Part :=
  (p.baysOfPost q).foldl Part.meterGap ((p.baysOfPost q).foldl (fun p b => p.modBay b Bay.lost) p)

theorem Bay.lost_lost (x : Bay) : x.lost.lost = x.lost := by
  simp [Bay.lost]

theorem Part.zeroed_bay (p : Part) (bays : List BayId) (b : BayId) :
    (bays.foldl (fun p b => p.modBay b Bay.lost) p).bay b = if b ∈ bays then (p.bay b).lost else p.bay b :=
  foldl_entry Part.bay (fun _ => ()) (g := fun _ x => x.lost) (c := ()) (fun _ _ => rfl)
    (fun q _ i j => by rw [Part.bay_modBay]) (fun _ x => x.lost_lost) bays p rfl b

theorem Part.zeroed_pool (p : Part) (bays : List BayId) :
    (bays.foldl (fun p b => p.modBay b Bay.lost) p).pool = p.pool :=
  foldl_view Part.pool (f := fun u b => u.modBay b Bay.lost) (fun _ _ => rfl) bays p

theorem Part.zeroed_post (p : Part) (bays : List BayId) (a : PostId) :
    (bays.foldl (fun p b => p.modBay b Bay.lost) p).post a = p.post a :=
  foldl_view (fun u : Part => u.post a) (f := fun u b => u.modBay b Bay.lost) (fun _ _ => rfl) bays p

theorem Part.zeroed_feeder (p : Part) (bays : List BayId) (f : FeederId) :
    (bays.foldl (fun p b => p.modBay b Bay.lost) p).feeder f = p.feeder f :=
  foldl_view (fun u : Part => u.feeder f) (f := fun u b => u.modBay b Bay.lost) (fun _ _ => rfl) bays p

theorem Part.meterGap_pool (p : Part) (b : BayId) : (p.meterGap b).pool = p.pool := by
  unfold Part.meterGap
  split <;> rfl

theorem Feeder.stick_state (x : Feeder) (s : Sticky) : (x.stick s).state = x.state := by
  unfold Feeder.stick
  split <;> rfl

theorem Feeder.stick_meterGap (x : Feeder) : (x.stick .justMeterGap).sticky.meterGap = true := by
  have stuck := congrArg (·.sticky.meterGap) (x.stick_quiet .justMeterGap)
  exact stuck.trans (Bool.or_true _)

theorem Part.meterGap_state (p : Part) (b : BayId) (f : FeederId) :
    ((p.meterGap b).feeder f).state = (p.feeder f).state := by
  unfold Part.meterGap
  split
  · rw [Part.feeder_modFeeder]
    split
    · next e => rw [e, Feeder.stick_state]
    · rfl
  · rfl

theorem Part.meterGap_keeps (b : BayId) (set' : (p.feeder f).sticky.meterGap = true) :
    ((p.meterGap b).feeder f).sticky.meterGap = true := by
  unfold Part.meterGap
  split
  · rw [Part.feeder_modFeeder]
    split
    · exact Feeder.stick_meterGap _
    · exact set'
  · exact set'

theorem Part.meterGap_sets (occupied : p.occupant b ≠ none) :
    ((p.meterGap b).feeder (p.bay b).feeder).sticky.meterGap = true := by
  unfold Part.meterGap
  split
  · rw [Part.feeder_modFeeder_same]
    exact Feeder.stick_meterGap _
  · next none => exact absurd none occupied

theorem Part.foldl_meterGap_keeps (bays : List BayId) (set' : (p.feeder f).sticky.meterGap = true) :
    ((bays.foldl Part.meterGap p).feeder f).sticky.meterGap = true := by
  induction bays generalizing p with
  | nil => exact set'
  | cons c bays ih => exact ih (Part.meterGap_keeps c set')

theorem Part.foldl_meterGap_sets {bays : List BayId} (mem : b ∈ bays) (occupied : p.occupant b ≠ none) :
    ((bays.foldl Part.meterGap p).feeder (p.bay b).feeder).sticky.meterGap = true := by
  induction bays generalizing p with
  | nil => cases mem
  | cons c bays ih =>
    by_cases same : b = c
    · rw [same] at occupied ⊢
      exact Part.foldl_meterGap_keeps bays (Part.meterGap_sets occupied)
    · have later := ih (p := p.meterGap c) ((List.mem_cons.1 mem).resolve_left same)
        (by rwa [Part.occupant_of_pool (p.meterGap_pool c)])
      rwa [Part.meterGap_bay] at later

/-! ### The part before the post is lost -/

theorem Part.metered_bay (p : Part) (q : PostId) (b : BayId) : (p.metered q).bay b =
    if b ∈ p.baysOfPost q then (p.bay b).lost else p.bay b :=
  (foldl_view (fun u : Part => u.bay b) (fun u c => u.meterGap_bay c b) _ _).trans (p.zeroed_bay _ b)

theorem Part.metered_pool (p : Part) (q : PostId) : (p.metered q).pool = p.pool :=
  (foldl_view Part.pool Part.meterGap_pool _ _).trans (p.zeroed_pool _)

theorem Part.metered_post (p : Part) (q a : PostId) : (p.metered q).post a = p.post a :=
  (foldl_view (fun u : Part => u.post a) (fun u c => u.meterGap_post c a) _ _).trans (p.zeroed_post _ a)

theorem Part.metered_state (p : Part) (q : PostId) (f : FeederId) :
    ((p.metered q).feeder f).state = (p.feeder f).state :=
  (foldl_view (fun u : Part => (u.feeder f).state) (fun u c => u.meterGap_state c f) _ _).trans
    (congrArg Feeder.state (p.zeroed_feeder _ f))

theorem Part.metered_meterGap (mem : b ∈ p.baysOfPost q) (occupied : p.occupant b ≠ none) :
    ((p.metered q).feeder (p.bay b).feeder).sticky.meterGap = true := by
  have sets := Part.foldl_meterGap_sets (p := (p.baysOfPost q).foldl (fun p b => p.modBay b Bay.lost) p) mem
    (by rwa [Part.occupant_of_pool (p.zeroed_pool _)])
  rwa [p.zeroed_bay, if_pos mem] at sets

/-- What becomes of a bay of a lost post, in terms of the part before its readings were cleared. -/
theorem Part.Darkened.of_metered {t : Part} (h : (p.metered q).Darkened t b) : p.Darkened t b := by
  obtain ⟨reading, cap, notice, bay⟩ : ∃ reading cap notice,
      (p.metered q).bay b = { p.bay b with reading := reading, cap := cap, notice := notice } := by
    rw [Part.metered_bay]
    split
    · exact ⟨_, _, _, rfl⟩
    · exact ⟨_, _, _, rfl⟩
  obtain ⟨condition, verify, occupancy, plug, limit, blocked, record⟩ := h
  rw [bay] at condition occupancy plug limit blocked
  refine ⟨condition, verify, occupancy, plug, fun out dark used => limit out dark ?_, blocked, fun k r x hk hr => ?_⟩
  · rw [Part.metered_state]
    exact used
  · refine record k r x ((Part.occupant_of_pool (p.metered_pool q) b).trans hk) ?_
    exact (congrArg (Pool.record · k) (p.metered_pool q)).trans hr

theorem Part.lose_eq (p : Part) (q : PostId) : p.lose q =
    (p.metered q).leavePost q { p.post q with link := .lost, timer := .stopped, notice := true } := rfl

theorem Part.lose_bay (p : Part) (q : PostId) (b : BayId) : ((p.lose q).bay b).told =
    (if b ∈ p.baysOfPost q then (p.bay b).lost else p.bay b).told := by
  rw [Part.lose_eq, ((p.metered q).leavePost_sparesLink q _).told b, ← Part.metered_bay]
  rfl

theorem Part.lose_meterGap (mem : b ∈ p.baysOfPost q) (occupied : p.occupant b ≠ none) :
    ((p.lose q).feeder (p.bay b).feeder).sticky.meterGap = true := by
  rw [Part.lose_eq, ((p.metered q).leavePost_sparesLink q _).meterGap]
  exact Part.metered_meterGap mem occupied

/-- Each way in which a serviceable post leaves its states darkens its bays. -/
theorem Part.leaving_darkens {t : Part} (parts : p.pool.partitioned) (served : (p.post q).serviceable = true)
    (leaves : t = p.lose q ∨ (∃ c, t = p.isolate q c) ∨ t = p.reseek q) (configured : (p.bay b).configured = true)
    (post : (p.bay b).post = q) : p.Darkened t b := by
  rcases leaves with rfl | ⟨c, rfl⟩ | rfl
  · have mem : b ∈ p.baysOfPost q := Part.mem_baysOfPost.2 ⟨configured, post⟩
    have bay := p.metered_bay q b
    rw [if_pos mem] at bay
    rw [Part.lose_eq]
    refine .of_metered (Part.leavePost_darkens ?_ ?_ (Bool.and_false _) nofun nofun ?_ ?_)
    · rwa [Part.metered_pool]
    · rwa [Part.metered_post]
    · rw [bay]
      exact configured
    · rw [bay]
      exact post
  · exact Part.leavePost_darkens parts served (Bool.and_false _) nofun nofun configured post
  · exact Part.leavePost_darkens parts served (Bool.and_false _) nofun nofun configured post

theorem Condition.blocking_eq_false {c : Condition} (out : c ≠ .out) (dark : c ≠ .dark) (intruded : c ≠ .intruded)
    (overstay : c ≠ .overstay) : c.blocking = false := by
  cases c with
  | out => exact absurd rfl out
  | dark => exact absurd rfl dark
  | intruded => exact absurd rfl intruded
  | overstay => exact absurd rfl overstay
  | free | reserved | unverified | inUse => rfl

end

/-- Settles O48: the limits by the branches of their commands; a post that leaves service by `Part.leavePost_darkens`; a
lost one by `Part.metered`, the part in which its readings are cleared. -/
theorem linkAndSettleLimitsAct : Obligations.LinkAndSettleLimitsAct := by
  unfold Obligations.LinkAndSettleLimitsAct
  refine ⟨fun s time => ⟨fun q e timer => ⟨fun early => ?prepareEarly, fun due => ?prepare⟩,
    fun q e timer => ⟨fun early => ?wakeEarly, fun due few => ?wakeAgain, fun due last => ?wakeFault⟩,
    fun k r x z hr engaged hx hz => ⟨fun early => ?settleEarly, fun due => ?settle⟩⟩,
    fun p t q parts inUse link leaves b configured post => ?leaves, fun p q => ⟨fun b configured post => ?lost,
      fun t stays => ?stays⟩⟩
  case prepareEarly =>
    exact (withObject_val q _).trans (congrArg (fun p => Host.Outcome.next (s.withPart p).complete)
      (Part.prepareLimit_early (p := s.part.at time) timer early))
  case prepare =>
    obtain ⟨link, cause, stopped, -⟩ := s.complete_isolate (s.part.at time) q .prepareTimeout
    exact ⟨_, (withObject_val q _).trans (congrArg (fun p => Host.Outcome.next (s.withPart p).complete)
      (Part.prepareLimit_due (p := s.part.at time) timer due)), link, cause, stopped⟩
  case wakeEarly =>
    exact (withObject_val q _).trans (congrArg (fun p => Host.Outcome.next (s.withPart p).complete)
      (Part.wakeLimit_early (p := s.part.at time) timer early))
  case wakeAgain =>
    exact (withObject_val q _).trans (congrArg (fun p => Host.Outcome.next (s.withPart p).complete)
      (Part.wakeLimit_again (p := s.part.at time) timer due few))
  case wakeFault =>
    obtain ⟨link, cause, stopped, count⟩ := s.complete_isolate
      ((s.part.at time).modPost q (fun x => { x with slowWakes := x.slowWakes + 1, notice := true })) q .wakeFault
    rw [Part.post_modPost_same] at count
    exact ⟨_, (withObject_val q _).trans (congrArg (fun p => Host.Outcome.next (s.withPart p).complete)
      (Part.wakeLimit_last (p := s.part.at time) timer due last)), link, cause, stopped,
      count.trans (congrArg (· + 1) last)⟩
  case settleEarly =>
    exact (withObject_val k _).trans (congrArg (fun p => Host.Outcome.next (s.withPart p).complete)
      ((Part.settleExpired_eq (p := s.part.at time) hr engaged hx hz).trans (if_neg (Nat.not_le.2 early))))
  case settle =>
    obtain ⟨r', record, closing, close⟩ := complete_settleExpired hr engaged hx hz due
    obtain ⟨taken, within, excess, -⟩ := Record.summary_of_session hx (s.part.pool.handle k) s.part.now .stopped
      z.cause.closedBy
    exact ⟨_, r', _, withObject_val k _, record, closing, close, rfl, z.cause.closedBy_eq, within, excess, taken⟩
  case leaves =>
    have served := (Post.serviceable_iff _).2 ⟨inUse, link⟩
    have darkened := Part.leaving_darkens parts served leaves configured post
    refine ⟨darkened.condition, darkened.verify, darkened.occupancy, darkened.plug, darkened.limit,
      fun service out dark intruded overstay =>
        darkened.blocked service (Condition.blocking_eq_false out dark intruded overstay), fun k r y hk hr hb hy => ?_⟩
    obtain ⟨r', hr', settles, keeps, halts⟩ := darkened.record k r y hk hr hb hy
    refine ⟨fun settling => ?_, fun stays => keeps stays ▸ hr', fun settling overstay halted =>
      halts settling overstay halted ▸ hr'⟩
    obtain ⟨c, closing, close, result, closedBy, within, excess⟩ := settles settling
    exact ⟨r', c, hr', closing, close, result, closedBy, within, excess⟩
  case lost =>
    have mem : b ∈ p.baysOfPost q := Part.mem_baysOfPost.2 ⟨configured, post⟩
    have told := p.lose_bay q b
    rw [if_pos mem] at told
    obtain ⟨-, -, reading, cap⟩ := Bay.values_of_told told
    exact ⟨reading, cap, Part.lose_meterGap mem⟩
  case stays =>
    obtain ⟨x, rfl⟩ : ∃ x, t = p.leavePost q x := by
      rcases stays with rfl | ⟨c, rfl⟩
      · exact ⟨_, rfl⟩
      · exact ⟨_, rfl⟩
    have link := p.leavePost_sparesLink q x
    refine ⟨fun b => ?_, fun f => link.meterGap f⟩
    obtain ⟨-, -, reading, cap⟩ := Bay.values_of_told (link.told b)
    exact ⟨reading, cap⟩

end Sys2Proof.Machine

namespace Sys2Proof.Machine

/-! ## O57: no request moves the time base -/

section

/-- A walk whose steps leave the time base leaves it. -/
theorem Part.foldl_time {α : Type} {f : Part → α → Part} (l : List α) (h : ∀ p a, (f p a).time = p.time) (p : Part) :
    (l.foldl f p).time = p.time := by
  induction l generalizing p with
  | nil => rfl
  | cons a l ih => exact (ih _).trans (h p a)

theorem Part.derive_time (p : Part) (b : BayId) : (p.derive b).time = p.time := (p.derive_moves (timed := true) b).time

theorem Part.recompute_time (p : Part) (f : FeederId) : (p.recompute f).time = p.time :=
  (p.recompute_moves (timed := true) f).time

theorem Part.tripFeeder_time (p : Part) (f : FeederId) : (p.tripFeeder f).time = p.time :=
  (p.tripFeeder_moves (timed := true) f).time

theorem Part.restore_time (p : Part) (f : FeederId) : (p.restore f).time = p.time :=
  (p.restore_moves (timed := true) f).time

theorem Part.setBayRequest_time (q : BaySetReq) (p : Part) : (p.setBayRequest q).2.time = p.time := by
  unfold Part.setBayRequest
  split
  · rfl
  · split
    · rfl
    · dsimp only
      split
      · simp [Part.configureBay, Part.derive_time]
      · unfold Part.changeBay
        dsimp only
        split
        · rfl
        · split <;> split <;> simp [Part.derive_time, Part.recompute_time]
      · simp [Part.removeBay, Part.derive_time]
      · rfl

theorem Part.takeOut_time (p : Part) (b : BayId) : (p.takeOut b).time = p.time := by
  have out : ((p.modBay b (fun x => { x with service := .out, notice := true })).deriveWith false b).time = p.time :=
    (Part.deriveWith_moves (timed := true) _ _ _).time
  unfold Part.takeOut
  dsimp only
  rw [Part.reportBlocked_time]
  split
  · next k hk =>
    refine Eq.trans (Part.endSession_moves (timed := true) _ k _ (fun r' hr' => ?_)).time out
    obtain ⟨r, hr, engaged⟩ := Part.occupant_engaged hk
    cases hr.symm.trans hr'
    simp [engaged]
  · exact out

theorem Part.bayServiceRequest_time (q : BayServiceReq) (p : Part) : (p.bayServiceRequest q).2.time = p.time := by
  unfold Part.bayServiceRequest
  split
  · split
    · rfl
    · split
      · rfl
      · split
        · split
          · rfl
          · exact p.takeOut_time _
        · exact Part.derive_time _ _
  · rfl

theorem Part.changeFeeder_time (p : Part) (f : FeederId) (q : FeederSetReq) : (p.changeFeeder f q).time = p.time := by
  unfold Part.changeFeeder
  dsimp only
  split
  · exact Part.tripFeeder_time _ _
  · split
    · exact Part.restore_time _ _
    · split
      · exact Part.recompute_time _ _
      · rfl

theorem Part.setFeederRequest_time (q : FeederSetReq) (p : Part) : (p.setFeederRequest q).2.time = p.time := by
  have retried : ∀ (u : Part) (c : Prop) (_ : Decidable c), (if c then u.retryDue else u).time = u.time := by
    intro u c _
    split <;> rfl
  unfold Part.setFeederRequest
  split
  · rfl
  · next f _ =>
    dsimp only
    split
    · rfl
    · refine (retried _ _ _).trans ?_
      split
      · split
        · split
          · exact Part.tripFeeder_time _ _
          · exact Part.recompute_time _ _
        · rfl
      all_goals
        split
        · exact p.changeFeeder_time f q
        · rfl

theorem Part.trimRequest_time (q : Nat × Nat) (p : Part) : (p.trimRequest q).2.time = p.time := by
  unfold Part.trimRequest
  split
  · rfl
  · split
    · rfl
    · dsimp only
      split
      · rfl
      · exact Part.recompute_time _ _

theorem Part.clearFlagsRequest_time (q : Nat × Nat) (p : Part) : (p.clearFlagsRequest q).2.time = p.time := by
  unfold Part.clearFlagsRequest
  split <;> rfl

theorem Part.withdraw_time (p : Part) (q : PostId) : (p.withdraw q).time = p.time := by
  have unread : ((p.baysOfPost q).foldl (fun p b => p.modBay b Bay.withdrawn) p).time = p.time :=
    Part.foldl_time _ (fun p b => p.modBay_time b _) p
  unfold Part.withdraw
  dsimp only
  refine (Part.cut_moves (timed := true) _ _).time.trans ?_
  split
  · exact (Part.darken_moves (timed := true) _ _).time.trans unread
  · exact unread

theorem Part.setPostRequest_time (q : Nat × Bool) (p : Part) : (p.setPostRequest q).2.time = p.time := by
  unfold Part.setPostRequest
  split
  · rfl
  · split
    · rfl
    · rfl
    · rfl
    · split
      · rfl
      · exact p.withdraw_time _

theorem Part.forceRequest_time {act : PostId → Part → Option Part}
    (h : ∀ q p done, act q p = some done → done.time = p.time) (q : Nat × Nat) (p : Part) :
    (p.forceRequest act q).2.time = p.time := by
  unfold Part.forceRequest
  split
  · rfl
  · split
    · rfl
    · split
      · rfl
      · split
        · rfl
        · next taken => exact h _ _ _ taken

theorem Part.forceReseek_time (q : PostId) (p done : Part) (h : p.forceReseek q = some done) : done.time = p.time := by
  cases h
  exact (Part.Moves.trans (p.reseek_moves (timed := true) q) (Part.cut_moves _ _)).time

theorem Part.forceIsolate_time (q : PostId) (p done : Part) (h : p.forceIsolate q = some done) : done.time = p.time := by
  cases h
  exact (Part.Moves.trans (p.isolate_moves (timed := true) q _) (Part.cut_moves _ _)).time

theorem Part.forceWake_time (q : PostId) (p done : Part) (h : p.forceWake q = some done) : done.time = p.time := by
  unfold Part.forceWake at h
  split at h
  · cases h
    exact (Part.Moves.trans (p.wakePost_moves (timed := true) q) (Part.cut_moves _ _)).time
  · cases h

theorem Part.clockSetRequest_time (q : Nat × Nat) (p : Part) : (p.clockSetRequest q).2.time = p.time := by
  unfold Part.clockSetRequest
  split
  · rfl
  · next h =>
    have range : q.1 ≤ 4294967295 ∧ q.2 ≤ 59 := by
      simp only [Config.largestClockSet, Bool.or_eq_true, decide_eq_true_eq, not_or, gt_iff_lt] at h
      omega
    split
    · exact (p.setFromUnset_moves q.1 q.2 range.1 range.2).time
    · split
      · rfl
      · exact (p.stepClock_moves q.1 q.2 range.1 range.2).time

theorem Part.applySettings_time (p : Part) (x : Settings) : (p.applySettings x).time = p.time := by
  have opt : ∀ {c : Prop} {_ : Decidable c} {u : Part} (g : Part → Part), (∀ v, (g v).time = v.time) →
      (if c then g u else u).time = u.time := by
    intro c _ u g hg
    split
    · exact hg u
    · rfl
  unfold Part.applySettings
  dsimp only
  rw [opt Part.recomputeAll (fun v => (v.recomputeAll_moves (timed := true)).time),
    opt Part.touchActive (fun v => (v.touchActive_moves (timed := true)).time),
    opt Part.standbyLeadChanged (fun v => v.standbyLeadChanged_moves.time),
    opt Part.leadChanged (fun v => v.leadChanged_moves.time), opt Part.rolloverChanged (fun _ => rfl)]

theorem Part.partSetRequest_time (q : Settings) (p : Part) : (p.partSetRequest q).2.time = p.time := by
  unfold Part.partSetRequest
  split
  · rfl
  · split
    · rfl
    · exact p.applySettings_time q

theorem Part.ruleWriteRequest_time (q : RuleWriteReq) (p : Part) : (p.ruleWriteRequest q).2.time = p.time := by
  unfold Part.ruleWriteRequest
  split
  · rfl
  · dsimp only
    split <;> rfl

theorem Part.tallyClearRequest_time (n : Nat) (p : Part) : (p.tallyClearRequest n).2.time = p.time := by
  unfold Part.tallyClearRequest
  split
  · exact (p.clearTallies_moves (timed := true)).time
  · split
    · rfl
    · exact (p.clearTally_moves (timed := true) _).time

theorem Part.laneSetRequest_time (q : LaneSetReq) (p : Part) : (p.laneSetRequest q).2.time = p.time := by
  unfold Part.laneSetRequest
  split <;> rfl

theorem Part.advanceTallies_time (l : List RuleId) (p : Part) : (p.advanceTallies l).time = p.time :=
  Part.foldl_time l (fun p r => p.setRule_time r _) p

theorem Part.bookPlaced_time (p : Part) (s : SlotId) (n : NewRecord) (b : BayId) :
    (p.bookPlaced s n b).2.time = p.time := by
  unfold Part.bookPlaced
  exact (Part.advanceTallies_time _ _).trans ((Part.derive_time _ _).trans
    ((Part.armChecks_moves (timed := true) _ _).time.trans (p.put_time s _)))

theorem Part.bookWaiting_time (p : Part) (s : SlotId) (n : NewRecord) : (p.bookWaiting s n).2.time = p.time := by
  unfold Part.bookWaiting
  split
  · rfl
  · split
    · rfl
    · split
      · exact (Part.advanceTallies_time _ _).trans (p.put_time s _)
      · rfl

theorem Part.bookRequest_time (q : BookReq) (p : Part) : (p.bookRequest q).2.time = p.time := by
  unfold Part.bookRequest
  split
  · rfl
  · unfold Part.bookInRange
    dsimp only
    split
    · rfl
    · split
      · rfl
      · rfl
      · split
        · rfl
        · split
          · exact p.bookPlaced_time _ _ _
          · exact p.bookWaiting_time _ _

theorem Part.findFreeRequest_time (q : AskerReq × WindowReq) (p : Part) : (p.findFreeRequest q).2.time = p.time := by
  unfold Part.findFreeRequest
  split
  · rfl
  · dsimp only
    split
    · rfl
    · split <;> rfl

theorem Part.extendRequest_time (q : Nat × Nat) (p : Part) : (p.extendRequest q).2.time = p.time := by
  unfold Part.extendRequest
  split
  · rfl
  · split
    · rfl
    · split
      · split
        · rfl
        · split
          · rfl
          · dsimp only
            split
            · rfl
            · exact p.put_time _ _
      · rfl

theorem Part.retractRequest_time (n : Nat) (p : Part) : (p.retractRequest n).2.time = p.time := by
  unfold Part.retractRequest
  split
  · rfl
  · split
    · rfl
    · split
      · rfl
      · exact p.put_time _ _

theorem Part.cancelRequest_time (n : Nat) (p : Part) : (p.cancelRequest n).2.time = p.time := by
  unfold Part.cancelRequest
  split
  · rfl
  · next k r found =>
    obtain ⟨hr, live, -⟩ := Part.findLive_some found
    split
    · rfl
    · exact (p.closeRecord_moves (timed := true) k _ _ (fun r' hr' => by cases hr.symm.trans hr'; exact live)).time

theorem Part.arriveRequest_time (q : Nat × Nat) (p : Part) : (p.arriveRequest q).2.time = p.time := by
  unfold Part.arriveRequest
  split
  · rfl
  · split
    · rfl
    · split
      · rfl
      · next k r found =>
        obtain ⟨hr, -⟩ := Part.findLive_some found
        split
        · next up _ =>
          split
          · rfl
          · split
            · exact (p.arriveOwn_moves (timed := true) k r _ hr up).time
            · exact (p.arriveOther_moves (timed := true) k r _ _ hr up).time
        · rfl

theorem Part.walkinAccepted_time (p : Part) (q : WalkinReq) (a : Asker) (b : BayId) (m : Admission) :
    (p.walkinAccepted q a b m).2.time = p.time := by
  unfold Part.walkinAccepted
  dsimp only
  split
  · rfl
  · split
    · rfl
    · split
      · rfl
      · split
        · rfl
        · refine (Part.advanceTallies_time _ _).trans
            ((Part.takeArrival_moves (timed := true) _ _ _ _ _ (fun r hr => ?_)).time.trans (p.put_time _ _))
          rw [Part.record_put, if_pos rfl] at hr
          cases hr
          rfl

theorem Part.walkinRequest_time (q : WalkinReq) (p : Part) : (p.walkinRequest q).2.time = p.time := by
  unfold Part.walkinRequest
  split
  · split
    · rfl
    · split
      · rfl
      · rfl
      · exact p.walkinAccepted_time _ _ _ _
  · rfl

theorem Part.endSessionRequest_time (n : Nat) (p : Part) : (p.endSessionRequest n).2.time = p.time := by
  unfold Part.endSessionRequest
  split
  · rfl
  · next k r found =>
    obtain ⟨hr, live, -⟩ := Part.findLive_some found
    split
    · exact (p.endSession_moves (timed := true) k _ (fun r' hr' => by cases hr.symm.trans hr'; exact live)).time
    · rfl

theorem Part.resumeRequest_time (q : Nat × Option Nat) (p : Part) : (p.resumeRequest q).2.time = p.time := by
  unfold Part.resumeRequest
  split
  · rfl
  · next k r found =>
    obtain ⟨hr, live, -⟩ := Part.findLive_some found
    split
    · next hx _ =>
      split
      · next done resumed => exact (p.resume_moves (timed := true) k r _ _ _ hr hx live done resumed).time
      · rfl
    · rfl

theorem Part.debounce_time (p : Part) (f : FeederId) : (p.debounce f).time = p.time := by
  unfold Part.debounce
  dsimp only
  split
  · split
    · exact (Part.levelChanged_moves (timed := true) _ f _).time
    · rfl
  · rfl

theorem Part.bookReset_time (p : Part) : p.bookReset.time = p.time := by
  unfold Part.bookReset
  dsimp only
  rw [(Part.touchActive_moves (timed := true) _).time, Part.foldl_time allRules (fun p r => p.setRule_time r _),
    Part.foldl_time allFeeders (fun p f => p.modFeeder_time f _), Part.foldl_time allBays Part.derive_time,
    Part.foldl_time (f := Part.bookBay) allBays (fun p b => p.modBay_time b _)]

end

/-! ## O57: what every command keeps of the port's bounds and of the time base -/

/-- A command that gives a next state leaves the port within its bounds (R168 to R170), no event unfinished (R90) and the
time base no earlier. -/
structure State.Bounds (s t : State) : Prop where
  queues : s.port.queuesSound → t.port.queuesSound
  settled : s.settled → t.settled
  time : s.part.time ≤ t.part.time

/-- The next state of an outcome, where it has one, is within the bounds. -/
def State.Bounded (s : State) (o : Host.Outcome State Fault Refusal) : Prop := ∀ t, o = .next t → s.Bounds t

section
variable {s u : State}

theorem State.Bounded.next {t : State} (h : s.Bounds t) : s.Bounded (.next t) := by
  intro t' e
  cases e
  exact h

theorem State.Bounded.done (queues : s.port.queuesSound → u.port.queuesSound) (time : s.part.time ≤ u.part.time) :
    s.Bounded u.done :=
  .next ⟨fun h => u.complete_within.sound (queues h), fun _ => u.complete_settled, by rwa [u.complete_time]⟩

/-- An event behind the port leaves the port to its completion. -/
theorem State.Bounded.event {q : Part} (time : s.part.time ≤ q.time) : s.Bounded (s.withPart q).done := .done id time

theorem State.Bounded.object {n i : Nat} {effect : Fin n → State} (h : ∀ x, s.Bounded (effect x).done) :
    s.Bounded (withObject n i effect) := by
  unfold withObject
  split
  · exact h _
  · exact fun t e => by cases e

/-- A command on a frame of a length that its line allows. -/
theorem State.Bounded.sized {c : Prop} [Decidable c] (h : s.Bounded u.done) :
    s.Bounded (if c then u.done else .fault .illFormedCommand) := by
  split
  · exact h
  · exact fun t e => by cases e

/-- Serving a request leaves the time base where its action does. -/
theorem State.serveWith_time {α : Type} (s : State) (k : Kind) (mine : List Byte → Bool) (rd : Rd α)
    {act : α → State → Answer × State} (h : ∀ x (u : State), (act x u).2.part.time = u.part.time) :
    (s.serveWith k mine rd act).part.time = s.part.time := by
  unfold State.serveWith
  split
  · rfl
  · dsimp only
    split
    · rfl
    · split
      · rfl
      · exact h _ _

theorem State.Bounded.serveWith {α : Type} {k : Kind} {mine : List Byte → Bool} {rd : Rd α}
    {act : α → State → Answer × State} (within : ∀ (x : α) (u : State), u.port.Within (act x u).2.port)
    (time : ∀ x (u : State), (act x u).2.part.time = u.part.time) : s.Bounded (s.serveWith k mine rd act).done :=
  .done (State.serveWith_sound k mine rd within) (Nat.le_of_eq (s.serveWith_time k mine rd time).symm)

theorem State.Bounded.serve {α : Type} {k : Kind} {mine : List Byte → Bool} {rd : Rd α}
    {act : α → Part → Answer × Part} (time : ∀ x p, (act x p).2.time = p.time) : s.Bounded (s.serve k mine rd act).done :=
  .serveWith (fun _ u => .refl u.port) (fun x u => time x u.part)

/-- The moment of an event moves the time base forward alone, and its moves leave it there. -/
theorem State.at_le (s : State) {time : Nat} {q : Part} (h : Part.Moves true (s.part.at time) q) : s.part.time ≤ q.time :=
  h.time ▸ Nat.le_max_left _ _

theorem State.moves_le {q : Part} (h : Part.Moves true s.part q) : s.part.time ≤ q.time := Nat.le_of_eq h.time.symm

theorem State.fullReset_bounds (s : State) : s.Bounds s.fullReset := ⟨fun _ => Port.reset_sound, fun _ => rfl, Nat.le_refl _⟩

theorem State.frameSent_bounds (s : State) :
    (s.port.queuesSound → s.frameSent.port.queuesSound) ∧ s.part.time = s.frameSent.part.time := by
  unfold State.frameSent
  split
  · exact ⟨id, rfl⟩
  · dsimp only
    split
    · exact ⟨id, rfl⟩
    · exact ⟨fun _ => Port.reset_sound, rfl⟩
    all_goals exact ⟨id, rfl⟩

end

theorem Port.orphanClose_within (x : Port) : x.Within x.orphanClose := by
  have same : ∀ sending, x.Within { x with sending := sending } := fun _ => ⟨rfl, Nat.le_refl _, Nat.le_refl _⟩
  unfold Port.orphanClose
  split
  · split <;> exact same _
  · exact same _

theorem State.resetBookRequest_bounds (level : Nat) (u : State) :
    u.port.Within (State.resetBookRequest level u).2.port ∧ (State.resetBookRequest level u).2.part.time = u.part.time := by
  unfold State.resetBookRequest
  split
  · exact ⟨u.port.orphanClose_within, u.part.bookReset_time⟩
  · exact ⟨.refl _, rfl⟩

theorem State.resetFullRequest_bounds (level : Nat) (u : State) :
    u.port.Within (State.resetFullRequest level u).2.port ∧ (State.resetFullRequest level u).2.part.time = u.part.time := by
  unfold State.resetFullRequest
  split <;> exact ⟨⟨rfl, Nat.le_refl _, Nat.le_refl _⟩, rfl⟩

theorem Receiver.hunting_sound (time : Nat) : (Receiver.hunting time).sound :=
  ⟨fun _ _ e => absurd e (List.cons_ne_nil _ _).symm, fun _ => rfl⟩

/-- A received byte leaves the port sound, whatever the receiver makes of it (R168, R169). -/
theorem execReceivedByte_bounded (b : Byte) (time : Nat) (s : State) : s.Bounded (execReceivedByte b time s) := by
  have taken : s.port.queuesSound → ({ s.port with
      receiver := (s.port.receiver.take b (s.at time).part.time).1 } : Port).queuesSound := by
    intro h
    rw [Port.queuesSound_iff] at h ⊢
    exact ⟨h.1, Receiver.take_sound b _ h.2⟩
  unfold execReceivedByte
  dsimp only
  split
  · exact .done (fun h => Port.acceptFrame_sound _ (taken h)) (Nat.le_max_left _ _)
  · exact .done taken (Nat.le_max_left _ _)

theorem execFrameGapTimeout_bounded (time : Nat) (s : State) : s.Bounded (execFrameGapTimeout time s) := by
  unfold execFrameGapTimeout
  dsimp only
  split
  · refine .done (fun h => ?_) (Nat.le_max_left _ _)
    exact (Port.queuesSound_iff _).2 ⟨((Port.queuesSound_iff _).1 h).1, Receiver.hunting_sound _⟩
  · exact .done id (Nat.le_max_left _ _)

theorem execUnknownKind_bounded (s : State) : s.Bounded (execUnknownKind s) := by
  unfold execUnknownKind
  split
  · exact .done id (Nat.le_refl _)
  · next f rest hq =>
    split
    · next c =>
      simp only [Bool.and_eq_true, decide_eq_true_eq] at c
      refine .done (fun h => ?_) (Nat.le_refl _)
      have fewer : rest.length ≤ 4 := Nat.le_of_succ_le (by simpa [hq] using h.1)
      exact State.answer_short (s := { s with port := { s.port with requests := rest } }) f _ ⟨fewer, h.2⟩ c.1.2
    · exact .done id (Nat.le_refl _)

/-- Every command keeps the bounds: the port's own by what its operations keep, the requests' by what they leave of the
time base, and every event behind the port as a chain of moves. -/
theorem exec_bounded (c : Instr) (s : State) : s.Bounded (exec c s) := by
  cases c with
  | powerOn | rstN => exact .next s.fullReset_bounds
  | fullReset =>
    show s.Bounded (execFullReset s)
    unfold execFullReset
    have same : s.Bounds s := ⟨id, id, Nat.le_refl _⟩
    split
    · split
      · exact .next s.fullReset_bounds
      · exact .next same
    · exact .next same
  | resetPartBook =>
    exact .serveWith (fun x u => (State.resetBookRequest_bounds x u).1) (fun x u => (State.resetBookRequest_bounds x u).2)
  | resetPartFull =>
    exact .serveWith (fun x u => (State.resetFullRequest_bounds x u).1) (fun x u => (State.resetFullRequest_bounds x u).2)
  | frameReceived tag kind payload => exact .sized (.done (Port.acceptFrame_sound _) (Nat.le_refl _))
  | frameGapTimeout time => exact execFrameGapTimeout_bounded time s
  | receivedByte b time => exact execReceivedByte_bounded b time s
  | unknownKind => exact execUnknownKind_bounded s
  | frameSent => exact .done s.frameSent_bounds.1 (Nat.le_of_eq s.frameSent_bounds.2)
  | status => exact .serveWith (fun _ u => .refl u.port) (fun _ _ => rfl)
  | identify | clockGet | partGet | waitListGet => exact .serve (fun _ _ => rfl)
  | clockSet => exact .serve Part.clockSetRequest_time
  | partSet => exact .serve Part.partSetRequest_time
  | baySet | bayRemove => exact .serve Part.setBayRequest_time
  | bayGet => exact .serve (fun k p => by unfold Part.getBayRequest; split <;> rfl)
  | bayServiceOut | bayServiceIn => exact .serve Part.bayServiceRequest_time
  | feederSet => exact .serve Part.setFeederRequest_time
  | feederGet => exact .serve (fun k p => by unfold Part.getFeederRequest; split <;> rfl)
  | feederTrim => exact .serve Part.trimRequest_time
  | feederClear => exact .serve Part.clearFlagsRequest_time
  | postSetInUse | postSetWithdraw => exact .serve Part.setPostRequest_time
  | postGet => exact .serve (fun k p => by unfold Part.getPostRequest; split <;> rfl)
  | postForceReseek => exact .serve (Part.forceRequest_time Part.forceReseek_time)
  | postForceIsolate => exact .serve (Part.forceRequest_time Part.forceIsolate_time)
  | postForceWake => exact .serve (Part.forceRequest_time Part.forceWake_time)
  | ruleWrite => exact .serve Part.ruleWriteRequest_time
  | ruleRead => exact .serve (fun k p => by unfold Part.ruleReadRequest; split <;> rfl)
  | tallyClear => exact .serve Part.tallyClearRequest_time
  | laneSet => exact .serve Part.laneSetRequest_time
  | laneGet => exact .serve (fun k p => by unfold Part.laneGetRequest; split <;> rfl)
  | book => exact .serve Part.bookRequest_time
  | findFree => exact .serve Part.findFreeRequest_time
  | extend => exact .serve Part.extendRequest_time
  | retract => exact .serve Part.retractRequest_time
  | cancel => exact .serve Part.cancelRequest_time
  | resGet => exact .serve (fun k p => by unfold Part.resGetRequest; split <;> rfl)
  | arrive => exact .serve Part.arriveRequest_time
  | arriveWalkin => exact .serve Part.walkinRequest_time
  | endSession => exact .serve Part.endSessionRequest_time
  | sessionResume => exact .serve Part.resumeRequest_time
  | tick time => exact .event (s.at_le (Part.tick_moves _))
  | minuteEvent => exact .event (State.moves_le s.part.minuteEvent_moves)
  | sessionTick => exact .event (State.moves_le s.part.sessionTick_moves)
  | shareTick => exact .event (State.moves_le s.part.shareTick_moves)
  | rollover => exact .event (State.moves_le (s.part.timedEvent_moves _))
  | quotaMet slot => exact .object (fun x => .event (State.moves_le (s.part.quotaEvent_moves x)))
  | satisfied slot => exact .object (fun x => .event (State.moves_le (s.part.satisfiedEvent_moves x)))
  | leadCheck | wakeCheck | windowStart | graceEnd | windowEnd | waitingDeadline | verifyExpiry | idleTimer =>
    exact .object (fun x => .event (State.moves_le (s.part.timedEvent_moves _)))
  | overdrawPenalty feeder =>
    refine .object (fun x => .event (State.moves_le ?_))
    beta_reduce
    split
    · exact s.part.penalize_moves x
    · exact .refl _
  | penaltyEnd bay =>
    refine .object (fun x => .event (State.moves_le ?_))
    beta_reduce
    split
    · exact s.part.countDown_moves x
    · exact .refl _
  | recompute feeder => exact .object (fun x => .event (State.moves_le (s.part.recompute_moves x)))
  | tripInputChange pin low time => exact .object (fun x => .event (Nat.le_max_left _ _))
  | debounce pin time => exact .object (fun x => .event ((s.part.at time).debounce_time x ▸ Nat.le_max_left _ time))
  | recoveryTimer feeder time => exact .object (fun x => .event (s.at_le (Part.recovered_moves _ x)))
  | settleTimer slot time => exact .object (fun x => .event (s.at_le (Part.settleExpired_moves _ x)))
  | roundStart time => exact .event (s.at_le (Part.startRound_moves _))
  | commandSent time => exact .event (s.at_le (Part.commandSent_moves _))
  | reply bytes time => exact .sized (.event (s.at_le (Part.replyReceived_moves _ bytes)))
  | replyGap bytes time => exact .sized (.event (s.at_le (.refl _)))
  | miss time => exact .event (s.at_le (Part.replyMissed_moves _))
  | prepareLimit post time => exact .object (fun x => .event (s.at_le (Part.prepareLimit_moves _ x)))
  | wakeLimit post time => exact .object (fun x => .event (s.at_le (Part.wakeLimit_moves _ x)))

/-- Settles O57: the bounds by `exec_bounded`, the CLOSE-NOTICE by `exec_noticeSound`; an idle step changes nothing. -/
theorem stepKeepsThePortBounded : Obligations.StepKeepsThePortBounded := by
  unfold Obligations.StepKeepsThePortBounded
  have bounds : ∀ s t : State, step s = .next t → s.Bounds t := by
    intro s t e
    rcases step_cases e with ⟨_, rfl⟩ | ⟨c, rest, _, run⟩
    · exact ⟨id, id, Nat.le_refl _⟩
    · obtain ⟨queues, settled, time⟩ := exec_bounded c { s with pending := rest } t run
      exact ⟨queues, settled, time⟩
  refine ⟨fun s t h e => (bounds s t e).queues h, fun s t h e => (bounds s t e).settled h, fun s t e => (bounds s t e).time,
    fun s t parts notice e => ?_⟩
  rcases step_cases e with ⟨_, rfl⟩ | ⟨c, rest, _, run⟩
  · exact notice
  · exact exec_noticeSound (s := { s with pending := rest }) run parts notice

end Sys2Proof.Machine

namespace Sys2Proof.Machine

/-! ## O1: a step -/

/-- Settles O1: the match of `step` on the queue. -/
theorem stepRunsTheFrontCommand : Obligations.StepRunsTheFrontCommand := by
  unfold Obligations.StepRunsTheFrontCommand
  intro c s
  rfl

/-! ## O7: a complete frame -/

/-- Settles O7: the two queues' places decide, as in `Port.acceptFrame`. -/
theorem frameReceivedIsQueuedAnsweredBusyOrDropped : Obligations.FrameReceivedIsQueuedAnsweredBusyOrDropped := by
  unfold Obligations.FrameReceivedIsQueuedAnsweredBusyOrDropped
  intro s tag kind payload short
  show execFrameReceived tag kind payload s = _
  rw [execFrameReceived, if_pos short]
  rfl

/-! ## O13, O14: requests that read -/

section
variable {s : State} {k : Kind} {payload : List Byte} {f : Frame} {rest : List Frame}

/-- A request whose fields read well is taken whole by an action on the machine, and its answer joins the reply queue
(R170). -/
theorem State.serveWith_asks {α : Type} (h : s.Asks k payload f rest) {mine : List Byte → Bool}
    (hm : mine payload = true) {rd : Rd α} {x : α} (hx : rd.all payload = some x) {act : α → State → Answer × State}
    {a : Answer} {u : State} (ha : act x { s with port := { s.port with requests := rest } } = (a, u)) :
    s.serveWith k mine rd act = u.answer f a := by
  unfold State.serveWith
  rw [Port.head_asks h hm]
  simp only [h.tag, if_false, h.fields, hx, ha]

/-- The end of a command that has answered the request and changed nothing behind the port. -/
theorem State.done_answered {a : Answer} (settled : s.settled) (serving : s.port.stopped = false) :
    (({ s with port := { s.port with requests := rest } } : State).answer f a).done =
      .next (s.replied rest f a s.part) := by
  have answered := s.complete_answered s.part rest f a
  rw [s.part.finish_of_settled settled] at answered
  unfold State.done
  rw [← answered]
  unfold State.answer Port.pushReply
  simp only [serving]

/-- A request of a settled machine that an action on the machine answers without a change (R170). -/
theorem State.serveWith_unchanged {α : Type} (settled : s.settled) (h : s.Asks k payload f rest)
    {mine : List Byte → Bool} (hm : mine payload = true) {rd : Rd α} {x : α} (hx : rd.all payload = some x)
    {act : α → State → Answer × State} {a : Answer}
    (ha : act x { s with port := { s.port with requests := rest } } =
      (a, { s with port := { s.port with requests := rest } })) :
    (s.serveWith k mine rd act).done = .next (s.replied rest f a s.part) := by
  rw [State.serveWith_asks h hm hx ha]
  exact State.done_answered settled h.serving

end

/-- Settles O13: the three requests carry no field, and answer the bytes of what stands. -/
theorem partReportsAnswerAndChangeNothing : Obligations.PartReportsAnswerAndChangeNothing := by
  unfold Obligations.PartReportsAnswerAndChangeNothing
  refine ⟨fun s f rest settled asks => ?identify, fun s f rest settled asks => ?status,
    fun s f rest settled asks => ?clock⟩
  case identify => exact State.serve_unchanged settled asks rfl (rd := Rd.empty) (x := ()) rfl rfl
  case status => exact State.serveWith_unchanged settled asks rfl (rd := Rd.empty) (x := ()) rfl rfl
  case clock => exact State.serve_unchanged settled asks rfl (rd := Rd.empty) (x := ()) rfl rfl

/-- Settles O14: the four requests answer the bytes of the table's entry, or RANGE where it has none. -/
theorem tableReadsAnswerAndChangeNothing : Obligations.TableReadsAnswerAndChangeNothing := by
  unfold Obligations.TableReadsAnswerAndChangeNothing
  refine ⟨fun s f rest settled asks => ?settings, fun s f rest n settled asks => ?lane,
    fun s f rest n settled asks => ?rule, fun s f rest settled asks => ?waiting⟩
  case settings => exact State.serve_unchanged settled asks rfl (rd := Rd.empty) (x := ()) rfl rfl
  case waiting => exact State.serve_unchanged settled asks rfl (rd := Rd.empty) (x := ()) rfl rfl
  case lane =>
    refine State.serve_unchanged settled asks rfl (rd := Rd.u8) (x := n.toNat) rfl ?_
    unfold Part.laneGetRequest
    by_cases h : n.toNat < 8
    · simp only [fin?, h, dif_pos]
      rfl
    · simp [fin?, h, Status.alone]
  case rule =>
    refine State.serve_unchanged settled asks rfl (rd := Rd.u8) (x := n.toNat) rfl ?_
    unfold Part.ruleReadRequest
    by_cases h : n.toNat < 32
    · simp only [fin?, h, dif_pos]
      rfl
    · simp [fin?, h, Status.alone]

/-! ## O19: the settings in their bytes -/

/-- The thirteen settings are read back from the bytes that PART-GET sends (R174, R176). -/
theorem Rd.partSet_reads {x : Settings} (guard : x.guard < 256) (lead : x.lead < 256) (verify : x.verifyWindow < 256)
    (grace : x.defaultGrace < 256) (early : x.earlyAllowance < 256) (standby : x.standbyLead < 256)
    (idle : x.idleTime < 256) (w1 : x.w1 < 256) (w2 : x.w2 < 256) (w3 : x.w3 < 256) (w4 : x.w4 < 256)
    (recovery : x.recoveryDelay < 65536) (rollover : x.rolloverMinute < 65536) : Rd.partSet.Reads x.bytes x := by
  simp only [Settings.bytes, List.append_assoc]
  exact (Rd.u8_reads guard).bind ((Rd.u8_reads lead).bind ((Rd.u8_reads verify).bind ((Rd.u8_reads grace).bind
    ((Rd.u8_reads early).bind ((Rd.u8_reads standby).bind ((Rd.u8_reads idle).bind ((Rd.u8_reads w1).bind
    ((Rd.u8_reads w2).bind ((Rd.u8_reads w3).bind ((Rd.u8_reads w4).bind ((Rd.u16_reads recovery).bind
    (Rd.u16_reads rollover).last)))))))))))

/-- Settles O19: by `Rd.partSet_reads`. -/
theorem settingsSurviveTheirEncoding : Obligations.SettingsSurviveTheirEncoding := by
  unfold Obligations.SettingsSurviveTheirEncoding
  intro x guard lead verify grace early standby idle w1 w2 w3 w4 recovery rollover
  exact (Rd.partSet_reads guard lead verify grace early standby idle w1 w2 w3 w4 recovery rollover).all

end Sys2Proof.Machine

namespace Sys2Proof.Machine

/-! ## O8, O9: a frame in its bytes (R167) -/

section
variable {f : Frame} {bytes rest : List Byte} {n b : Byte} {x : Receiver} {time : Nat}

/-- The byte LEN of a frame. -/
def Frame.len (f : Frame) : Byte := BitVec.ofNat 8 (f.payload.length + 2)

theorem Frame.len_toNat (short : f.payload.length ≤ 238) : f.len.toNat = f.payload.length + 2 := by
  unfold Frame.len
  rw [BitVec.toNat_ofNat]
  omega

/-- The bytes of a frame, one after another. -/
theorem Frame.line_eq (f : Frame) : f.line =
    0xC3 :: f.len :: f.tag :: f.kind :: (f.payload ++ u16 (crc16 (f.len :: f.tag :: f.kind :: f.payload)).toNat) := by
  simp [Frame.line, Frame.len, u8]

/-- A frame is read from its own bytes (R167). -/
theorem frameOf_line (short : f.payload.length ≤ 238) (line : f.line = 0xC3 :: bytes) : frameOf bytes = some f := by
  rw [Frame.line_eq, List.cons.injEq] at line
  obtain ⟨-, rfl⟩ := line
  have size : f.len.toNat - 2 = f.payload.length := by rw [Frame.len_toNat short]; rfl
  simp [frameOf, size]

/-- The bytes that a frame is read from are the frame's own (R167). -/
theorem line_of_frameOf (read : frameOf (n :: rest) = some f) (low : 2 ≤ n.toNat) : f.line = 0xC3 :: n :: rest := by
  match rest, read with
  | tag :: kind :: tail, read =>
    simp only [frameOf] at read
    split at read
    · next crc =>
      cases read
      have size : (tail.take (n.toNat - 2)).length = n.toNat - 2 := by
        have two := congrArg List.length crc
        rw [List.length_drop] at two
        rw [List.length_take]
        simp only [u16, List.length_cons, List.length_nil] at two
        omega
      have same : BitVec.ofNat 8 ((tail.take (n.toNat - 2)).length + 2) = n := by
        rw [size, Nat.sub_add_cancel low, BitVec.ofNat_toNat, BitVec.setWidth_eq]
      rw [Frame.line_eq]
      unfold Frame.len
      dsimp only
      rw [same, ← crc, List.take_append_drop]
    · nomatch read

theorem Frame.line_length (f : Frame) : f.line.length = f.payload.length + 6 := by
  simp [Frame.line_eq, u16]

/-! ## O8: a received byte by the receive state (R168) -/

/-- The receiver is IN-FRAME, and the last byte of the frame came at most 10 ms ago. -/
def Receiver.Alive (x : Receiver) (time : Nat) : Prop := x.inFrame = true ∧ time ≤ x.lastByte + 10000

theorem Receiver.alive_iff (x : Receiver) (time : Nat) :
    (x.inFrame && decide (time ≤ x.lastByte + Config.frameGap)) = true ↔ x.Alive time := by
  rw [Bool.and_eq_true, decide_eq_true_eq]
  rfl

theorem Receiver.take_alive (h : x.Alive time) (b : Byte) : x.take b time = x.inFrameByte b time :=
  if_pos ((x.alive_iff time).2 h)

theorem Receiver.take_hunting (h : ¬ x.Alive time) (b : Byte) :
    x.take b time = if b = 0xC3 then (⟨true, [], time⟩, none) else (.hunting time, none) :=
  if_neg (fun alive => h ((x.alive_iff time).1 alive))

theorem Receiver.inFrameByte_badLen (first : x.bytes = []) (h : b.toNat < 2 ∨ 240 < b.toNat) :
    x.inFrameByte b time = (.hunting time, none) := by
  unfold Receiver.inFrameByte
  rw [first]
  exact if_pos h

theorem Receiver.inFrameByte_len (first : x.bytes = []) (low : 2 ≤ b.toNat) (high : b.toNat ≤ 240) :
    x.inFrameByte b time = (⟨true, [b], time⟩, none) := by
  unfold Receiver.inFrameByte
  rw [first]
  exact if_neg (by omega)

theorem Receiver.inFrameByte_more (kept : x.bytes = n :: rest) (short : (x.bytes ++ [b]).length < n.toNat + 3) :
    x.inFrameByte b time = (⟨true, x.bytes ++ [b], time⟩, none) := by
  unfold Receiver.inFrameByte
  rw [kept] at short ⊢
  exact if_pos (by unfold frameSize; omega)

theorem Receiver.inFrameByte_last (kept : x.bytes = n :: rest) (whole : n.toNat + 3 ≤ (x.bytes ++ [b]).length) :
    x.inFrameByte b time = (.hunting time, frameOf (x.bytes ++ [b])) := by
  unfold Receiver.inFrameByte
  rw [kept] at whole ⊢
  exact if_neg (by unfold frameSize; omega)

/-- A byte of a frame, where those before it have been kept: the last one gives the frame (R167, R168). -/
theorem Receiver.take_of_line (alive : x.Alive time) (short : f.payload.length ≤ 238)
    (line : f.line = 0xC3 :: (x.bytes ++ b :: rest)) :
    x.take b time = if rest = [] then (.hunting time, some f) else (⟨true, x.bytes ++ [b], time⟩, none) := by
  rw [Receiver.take_alive alive]
  have len := Frame.len_toNat short
  have size : f.payload.length + 5 = x.bytes.length + (rest.length + 1) := by
    have length := congrArg List.length line
    rw [Frame.line_length] at length
    simpa using length
  rw [Frame.line_eq, List.cons.injEq] at line
  cases kept : x.bytes with
  | nil =>
    rw [kept] at line size
    obtain ⟨first, -⟩ := List.cons.inj line.2
    rw [if_neg (by rintro rfl; simp at size), Receiver.inFrameByte_len kept (by rw [← first]; omega) (by rw [← first]; omega)]
    rfl
  | cons a t =>
    rw [kept] at line size
    obtain ⟨rfl, -⟩ := List.cons.inj line.2
    simp only [List.length_cons] at size
    split
    · next last =>
      subst last
      rw [Receiver.inFrameByte_last kept (by simp [kept]; simp at size; omega), kept,
        frameOf_line short (Frame.line_eq f ▸ congrArg (0xC3 :: ·) line.2)]
    · next more =>
      have := List.length_pos_iff.2 more
      rw [Receiver.inFrameByte_more kept (by simp [kept]; omega), kept]

end

section
variable {s : State} {b : Byte} {time : Nat} {r : Receiver}

/-- A received byte that completes no frame moves the receiver alone (R168). -/
theorem execReceivedByte_keeps (h : s.port.receiver.take b (max s.part.time time) = (r, none)) :
    exec (.receivedByte b time) s = .next (State.complete
      { s with part := { s.part with time := max s.part.time time }, port := { s.port with receiver := r } }) := by
  show execReceivedByte b time s = _
  unfold execReceivedByte
  dsimp only
  rw [show (s.at time).port.receiver.take b (s.at time).part.time = (r, none) from h]
  rfl

/-- A frame that a byte completes is handed to the request queue (R168, R169). -/
theorem execReceivedByte_gives {f : Frame} (h : s.port.receiver.take b (max s.part.time time) = (r, some f)) :
    exec (.receivedByte b time) s = .next (State.complete { s with
      part := { s.part with time := max s.part.time time }
      port := ({ s.port with receiver := r } : Port).acceptFrame f }) := by
  show execReceivedByte b time s = _
  unfold execReceivedByte
  dsimp only
  rw [show (s.at time).port.receiver.take b (s.at time).part.time = (r, some f) from h]
  rfl

end

/-- Settles O8: each clause is one entry of the receiver's table, by the lemmas on `Receiver.take`. -/
theorem receiverFollowsItsReceiveState : Obligations.ReceiverFollowsItsReceiveState := by
  unfold Obligations.ReceiverFollowsItsReceiveState
  refine ⟨fun s b time => ?_, fun s time => ?gap⟩
  case gap =>
    show execFrameGapTimeout time s = _
    unfold execFrameGapTimeout
    by_cases late : s.port.receiver.inFrame = true ∧ s.port.receiver.lastByte + 10000 < max s.part.time time
    · rw [if_pos late]
      exact if_pos (by simpa [State.at, Part.at, Config.frameGap] using late)
    · rw [if_neg late]
      exact if_neg (by simpa [State.at, Part.at, Config.frameGap] using late)
  refine ⟨fun lost sync => ?sync, fun lost other => ?other, fun alive first bad => ?badLen,
    fun alive first low high => ?len, fun len rest alive kept short => ?more, fun f alive line short => ?frame,
    fun len rest alive kept low whole none => ?bad⟩
  case sync => exact execReceivedByte_keeps ((Receiver.take_hunting lost b).trans (if_pos sync))
  case other => exact execReceivedByte_keeps ((Receiver.take_hunting lost b).trans (if_neg other))
  case badLen => exact execReceivedByte_keeps ((Receiver.take_alive alive b).trans (Receiver.inFrameByte_badLen first bad))
  case len => exact execReceivedByte_keeps ((Receiver.take_alive alive b).trans (Receiver.inFrameByte_len first low high))
  case more => exact execReceivedByte_keeps ((Receiver.take_alive alive b).trans (Receiver.inFrameByte_more kept short))
  case frame => exact execReceivedByte_gives ((Receiver.take_of_line alive short line).trans (if_pos rfl))
  case bad =>
    have unread : frameOf (s.port.receiver.bytes ++ [b]) = Option.none := by
      cases read : frameOf (s.port.receiver.bytes ++ [b]) with
      | none => rfl
      | some f =>
        rw [kept] at read none
        exact absurd (line_of_frameOf read low) (none f)
    exact execReceivedByte_keeps ((Receiver.take_alive alive b).trans
      ((Receiver.inFrameByte_last kept whole).trans (congrArg (Prod.mk _) unread)))

/-! ## O9: a frame byte by byte (R167, R168) -/

/-- Each moment is no earlier than the one before, and at most 10 ms later. -/
def Gapless (a b : Nat) : Prop := a ≤ b ∧ b ≤ a + 10000

/-- The bytes of a frame that are still to come, no two more than 10 ms apart, complete it and no other. -/
theorem Receiver.feed_of_line {f : Frame} (short : f.payload.length ≤ 238) (todo : List Byte) :
    ∀ (x : Receiver) (times : List Nat), x.inFrame = true → todo ≠ [] → f.line = 0xC3 :: (x.bytes ++ todo) →
      times.length = todo.length → List.IsChain Gapless (x.lastByte :: times) →
      (x.feed (todo.zip times)).2 = [f] ∧ (x.feed (todo.zip times)).1.inFrame = false := by
  induction todo with
  | nil => exact fun _ _ _ some => absurd rfl some
  | cons b todo ih =>
    intro x times inFrame _ line count chain
    match times, count with
    | time :: times, count =>
      obtain ⟨⟨-, gap⟩, chain⟩ := List.isChain_cons_cons.1 chain
      have taken := Receiver.take_of_line ⟨inFrame, gap⟩ short line
      rw [List.zip_cons_cons, Receiver.feed, taken]
      split
      · next last =>
        subst last
        exact ⟨rfl, rfl⟩
      · next more =>
        exact ih ⟨true, x.bytes ++ [b], time⟩ times rfl more (by rw [line]; simp) (Nat.succ.inj count) chain

/-- Settles O9: SYNC begins the frame, and `Receiver.feed_of_line` reads the rest. -/
theorem receiverReadsBackEveryFrame : Obligations.ReceiverReadsBackEveryFrame := by
  unfold Obligations.ReceiverReadsBackEveryFrame
  intro f x start times short hunting count chain
  have sync : x.take 0xC3 start = (⟨true, [], start⟩, none) :=
    (Receiver.take_hunting (fun alive => by simp [alive.1] at hunting) _).trans (if_pos rfl)
  obtain ⟨todo, line⟩ : ∃ todo, f.line = 0xC3 :: todo := ⟨_, Frame.line_eq f⟩
  have length := Frame.line_length f
  rw [line] at count length ⊢
  rw [List.zip_cons_cons, Receiver.feed, sync]
  exact Receiver.feed_of_line short todo ⟨true, [], start⟩ times rfl
    (by rintro rfl; simp at length) line (by simpa using count) chain

end Sys2Proof.Machine

namespace Sys2Proof.Machine

/-! ## O10: the readers follow the layouts of their kinds (R170, R180) -/

/-- A reader that takes a value takes these fields from the front of the payload, whatever fields come behind. -/
def Rd.Follows {α : Type} (rd : Rd α) (fields : List Field) : Prop :=
  ∀ l x l', rd l = some (x, l') → ∀ behind, conforms (fields ++ behind) l = conforms behind l'

theorem conforms_bytes {n : Nat} {l : List Byte} (h : n ≤ l.length) (fields : List Field) :
    conforms (.bytes n :: fields) l = conforms fields (l.drop n) := by
  simp only [conforms, Field.rest, if_pos h]

theorem conforms_bytes_short {n : Nat} {l : List Byte} (h : ¬ n ≤ l.length) (fields : List Field) :
    conforms (.bytes n :: fields) l = false := by
  simp only [conforms, Field.rest, if_neg h]

theorem conforms_bytes_add (m n : Nat) (fields : List Field) (l : List Byte) :
    conforms (.bytes (n + m) :: fields) l = conforms (.bytes m :: .bytes n :: fields) l := by
  by_cases first : m ≤ l.length
  · rw [conforms_bytes first]
    by_cases whole : n + m ≤ l.length
    · rw [conforms_bytes whole, conforms_bytes (by rw [List.length_drop]; omega), List.drop_drop, Nat.add_comm]
    · have short : ¬ n ≤ (l.drop m).length := by rw [List.length_drop]; omega
      rw [conforms_bytes_short whole, conforms_bytes_short short]
  · have short : ¬ n + m ≤ l.length := fun h => first (Nat.le_of_add_left_le h)
    rw [conforms_bytes_short first, conforms_bytes_short short]

theorem conforms_flag {b : Byte} (h : b = 0 ∨ b = 1) (fields : List Field) (t : List Byte) :
    conforms (.flag :: fields) (b :: t) = conforms fields t := by
  simp only [conforms, Field.rest, if_pos h]

theorem conforms_flag_other {b : Byte} (h : ¬ (b = 0 ∨ b = 1)) (fields : List Field) (t : List Byte) :
    conforms (.flag :: fields) (b :: t) = false := by
  simp only [conforms, Field.rest, if_neg h]

theorem conforms_optional_absent (n : Nat) (fields : List Field) (t : List Byte) :
    conforms (.optional n :: fields) (0 :: t) = conforms fields t := rfl

theorem conforms_optional_present (n : Nat) (fields : List Field) (t : List Byte) :
    conforms (.optional n :: fields) (1 :: t) = conforms (.bytes n :: fields) t := by
  by_cases h : n ≤ t.length <;> simp [conforms, Field.rest, h]

theorem conforms_flagged_absent (n : Nat) (fields : List Field) (t : List Byte) :
    conforms (.flagged n :: fields) (0 :: t) = conforms fields t := rfl

theorem conforms_flagged_present (n : Nat) (fields : List Field) (t : List Byte) :
    conforms (.flagged n :: fields) (1 :: t) = conforms (.flag :: .bytes n :: fields) t := by
  cases t with
  | nil => simp [conforms, Field.rest]
  | cons b t =>
    have head : ((b :: t).head? = some 0 ∨ (b :: t).head? = some 1) ↔ (b = 0 ∨ b = 1) := by
      simp only [List.head?_cons, Option.some.injEq]
    have one : ¬ (1 : Byte) = 0 := by decide
    simp only [conforms, Field.rest, head, if_neg one, List.length_cons, Nat.add_le_add_iff_right, List.drop_succ_cons]
    by_cases flag : b = 0 ∨ b = 1
    · by_cases h : n ≤ t.length
      · rw [if_pos ⟨trivial, flag, h⟩, if_pos flag]
        simp only [if_pos h]
      · rw [if_neg (fun c => h c.2.2), if_pos flag]
        simp only [if_neg h]
    · rw [if_neg (fun c => flag c.2.1), if_neg flag]

namespace Rd.Follows

variable {α β : Type} {rd : Rd α} {g : α → Rd β} {fields more : List Field} {n : Nat}

theorem bind (h : rd.Follows fields) (hg : ∀ x, (g x).Follows more) : (rd >>= g).Follows (fields ++ more) := by
  intro l y l' read behind
  have read : (rd l).bind (fun v => g v.1 v.2) = some (y, l') := read
  obtain ⟨⟨x, l₁⟩, first, second⟩ := Option.bind_eq_some_iff.1 read
  rw [List.append_assoc, h l x l₁ first, hg x l₁ y l' second]

theorem nothing (x : α) : Rd.Follows (pure x) [] := by
  intro l y l' read behind
  cases read
  rfl

theorem byte : Rd.u8.Follows [.bytes 1] := by
  intro l x l' read behind
  cases l with
  | nil => nomatch read
  | cons b t =>
    cases read
    exact conforms_bytes (Nat.succ_le_succ (Nat.zero_le _)) behind

theorem flag : Rd.bit.Follows [.flag] := by
  intro l x l' read behind
  cases l with
  | nil => nomatch read
  | cons b t =>
    have flag : (b = 0 ∨ b = 1) ∧ t = l' := by
      simp only [Rd.bit] at read
      split at read
      · next zero => cases read; exact ⟨.inl zero, rfl⟩
      · split at read
        · next one => cases read; exact ⟨.inr one, rfl⟩
        · nomatch read
    obtain ⟨flag, rfl⟩ := flag
    exact conforms_flag flag behind t

/-- A group of no bytes before the fields that follow. -/
theorem stop (h : rd.Follows fields) : rd.Follows (.bytes 0 :: fields) := by
  intro l x l' read behind
  rw [List.cons_append, conforms_bytes (Nat.zero_le _), List.drop_zero, h l x l' read]

/-- A field of `m` bytes before a group of `n` bytes makes one group with it. -/
theorem join {m : Nat} (h : rd.Follows [.bytes m]) (hg : ∀ x, (g x).Follows (.bytes n :: fields)) :
    (rd >>= g).Follows (.bytes (n + m) :: fields) := by
  intro l x l' read behind
  rw [List.cons_append, conforms_bytes_add]
  exact bind h hg l x l' read behind

/-- One byte more at the front of a group. -/
theorem byteThen {g : Nat → Rd β} (hg : ∀ x, (g x).Follows (.bytes n :: fields)) :
    (Rd.u8 >>= g).Follows (.bytes (n + 1) :: fields) := join byte hg

theorem flagThen {g : Bool → Rd β} (hg : ∀ x, (g x).Follows fields) : (Rd.bit >>= g).Follows (.flag :: fields) :=
  bind flag hg

theorem word : Rd.u16.Follows [.bytes 2] := byteThen fun _ => byteThen fun _ => stop (nothing _)

theorem wordThen {g : Nat → Rd β} (hg : ∀ x, (g x).Follows (.bytes n :: fields)) :
    (Rd.u16 >>= g).Follows (.bytes (n + 2) :: fields) := join word hg

theorem long : Rd.u32.Follows [.bytes 4] := wordThen fun _ => wordThen fun _ => stop (nothing _)

theorem longThen {g : Nat → Rd β} (hg : ∀ x, (g x).Follows (.bytes n :: fields)) :
    (Rd.u32 >>= g).Follows (.bytes (n + 4) :: fields) := join long hg

theorem big (n acc : Nat) : (Rd.big n acc).Follows [.bytes n] := by
  induction n generalizing acc with
  | zero => exact stop (nothing acc)
  | succ n ih => exact byteThen fun _ => ih _

theorem maskThen (m : Nat) {g : Nat → Rd β} (hg : ∀ x, (g x).Follows (.bytes n :: fields)) :
    (Rd.mask m >>= g).Follows (.bytes (n + m) :: fields) := join (big m 0) hg

/-- An optional field takes its presence byte, and its own bytes where that is 1. -/
theorem presence {l : List Byte} {x : Option α} {l' : List Byte} (read : Rd.opt rd l = some (x, l')) :
    ∃ b t, l = b :: t ∧ ((b = 0 ∧ l' = t) ∨ (b = 1 ∧ ∃ y, rd t = some (y, l'))) := by
  cases l with
  | nil => nomatch read
  | cons b t =>
    refine ⟨b, t, rfl, ?_⟩
    have read : (Rd.bit (b :: t)).bind (fun v => (if v.1 then (do return some (← rd)) else pure none : Rd (Option α)) v.2) =
        some (x, l') := read
    simp only [Rd.bit] at read
    split at read
    · next zero => cases read; exact .inl ⟨zero, rfl⟩
    · split at read
      · next one =>
        have read : (rd t).bind (fun v => some (some v.1, v.2)) = some (x, l') := read
        obtain ⟨⟨y, t'⟩, first, second⟩ := Option.bind_eq_some_iff.1 read
        cases second
        exact .inr ⟨one, y, first⟩
      · nomatch read

theorem optional (h : rd.Follows [.bytes n]) : (Rd.opt rd).Follows [.optional n] := by
  intro l x l' read behind
  obtain ⟨b, t, rfl, ⟨rfl, rfl⟩ | ⟨rfl, y, read⟩⟩ := presence read
  · exact conforms_optional_absent n behind _
  · exact (conforms_optional_present n behind _).trans (h _ y l' read behind)

theorem flagged (h : rd.Follows [.flag, .bytes n]) : (Rd.opt rd).Follows [.flagged n] := by
  intro l x l' read behind
  obtain ⟨b, t, rfl, ⟨rfl, rfl⟩ | ⟨rfl, y, read⟩⟩ := presence read
  · exact conforms_flagged_absent n behind _
  · exact (conforms_flagged_present n behind t).trans (h t y l' read behind)

theorem optionalThen {g : Option α → Rd β} (h : rd.Follows [.bytes n]) (hg : ∀ x, (g x).Follows fields) :
    (Rd.opt rd >>= g).Follows (.optional n :: fields) := bind (optional h) hg

theorem flaggedThen {g : Option α → Rd β} (h : rd.Follows [.flag, .bytes n]) (hg : ∀ x, (g x).Follows fields) :
    (Rd.opt rd >>= g).Follows (.flagged n :: fields) := bind (flagged h) hg

/-- A payload that is not these fields, and no byte more, does not read (R170). -/
theorem all (h : rd.Follows fields) {l : List Byte} (bad : conforms fields l = false) : rd.all l = none := by
  cases read : rd l with
  | none => simp only [Rd.all, read]
  | some v =>
    obtain ⟨x, l'⟩ := v
    have behind := h l x l' read []
    rw [List.append_nil, bad] at behind
    cases l' with
    | nil => nomatch behind
    | cons => simp only [Rd.all, read]

end Rd.Follows

section
open Rd.Follows

theorem Rd.asker_follows : Rd.asker.Follows [.bytes 4] :=
  byteThen fun _ => byteThen fun _ => byteThen fun _ => byteThen fun _ => stop (nothing _)

theorem Rd.window_follows : Rd.window.Follows [.flag, .bytes 6] :=
  flagThen fun _ => longThen fun _ => wordThen fun _ => stop (nothing _)

theorem Rd.matchA_follows : Rd.matchA.Follows [.flag, .bytes 4] :=
  flagThen fun _ => byteThen fun _ => byteThen fun _ => byteThen fun _ => byteThen fun _ => stop (nothing _)

theorem Rd.matchB_follows : Rd.matchB.Follows [.bytes 8] :=
  wordThen fun _ => wordThen fun _ => wordThen fun _ => wordThen fun _ => stop (nothing _)

theorem Rd.action_follows : Rd.action.Follows [.bytes 22] :=
  byteThen fun _ => byteThen fun _ => byteThen fun _ => byteThen fun _ => maskThen 8 fun _ => byteThen fun _ =>
    maskThen 8 fun _ => byteThen fun _ => stop (nothing _)

theorem Rd.tally_follows : Rd.tally.Follows [.flag, .bytes 2] := flagThen fun _ => wordThen fun _ => stop (nothing _)

theorem Rd.ruleWrite_follows : Rd.ruleWrite.Follows Kind.ruleWrite.layout :=
  byteThen fun _ => stop (flaggedThen Rd.matchA_follows fun _ => optionalThen Rd.matchB_follows fun _ =>
    optionalThen Rd.action_follows fun _ => flaggedThen Rd.tally_follows fun _ => nothing _)

theorem Rd.book_follows : Rd.book.Follows Kind.book.layout :=
  bind Rd.asker_follows fun _ => bind Rd.window_follows fun _ => optionalThen long fun _ => optionalThen word fun _ =>
    optionalThen long fun _ => optionalThen byte fun _ => nothing _

theorem Rd.walkin_follows : Rd.walkin.Follows Kind.arriveWalkin.layout :=
  byteThen fun _ => join Rd.asker_follows fun _ => wordThen fun _ => stop (optionalThen long fun _ =>
    optionalThen word fun _ => nothing _)

theorem Rd.partSet_follows : Rd.partSet.Follows [.bytes 15] :=
  byteThen fun _ => byteThen fun _ => byteThen fun _ => byteThen fun _ => byteThen fun _ => byteThen fun _ =>
    byteThen fun _ => byteThen fun _ => byteThen fun _ => byteThen fun _ => byteThen fun _ => wordThen fun _ =>
    wordThen fun _ => stop (nothing _)

theorem Rd.laneSet_follows : Rd.laneSet.Follows [.bytes 15] :=
  byteThen fun _ => maskThen 4 fun _ => byteThen fun _ => byteThen fun _ => maskThen 8 fun _ => stop (nothing _)

theorem Rd.baySet_follows : Rd.baySet.Follows Kind.baySet.layout :=
  byteThen fun _ => stop (flagThen fun _ => byteThen fun _ => byteThen fun _ => byteThen fun _ => byteThen fun _ =>
    wordThen fun _ => stop (nothing _))

theorem Rd.feederSet_follows : Rd.feederSet.Follows Kind.feederSet.layout :=
  byteThen fun _ => stop (flagThen fun _ => wordThen fun _ => wordThen fun _ => byteThen fun _ => stop
    (flagThen fun _ => nothing _))

/-- A row serves its kind: it takes the payloads that the other rows of the kind leave to it, and its reader follows the
layout of the kind. -/
def RowServes (c : Instr) (k : Kind) : Prop :=
  ∃ (α : Type) (rd : Rd α) (act : α → State → Answer × State), rd.Follows k.layout ∧
    ∀ s, exec c s = (s.serveWith k (rowTakes c) rd act).done

/-- Every row that serves requests (log 27). -/
theorem rowServes_of_servedKind {c : Instr} {k : Kind} (h : servedKind c = some k) : RowServes c k := by
  have row : ∀ {α : Type} {c : Instr} {k : Kind} (rd : Rd α) (act : α → State → Answer × State), rd.Follows k.layout →
      (∀ s, exec c s = (s.serveWith k (rowTakes c) rd act).done) → RowServes c k :=
    fun rd act follows serves => ⟨_, rd, act, follows, serves⟩
  cases c <;> cases h
  case identify | status | clockGet | partGet | waitListGet => exact row Rd.empty _ (nothing ()) fun _ => rfl
  case resetPartBook | resetPartFull | bayGet | feederGet | postGet | ruleRead | tallyClear | laneGet =>
    exact row Rd.u8 _ byte fun _ => rfl
  case retract | cancel | resGet | endSession => exact row Rd.u16 _ word fun _ => rfl
  case feederClear | postForceReseek | postForceIsolate | postForceWake =>
    exact row Rd.byteByte _ (byteThen fun _ => byteThen fun _ => stop (nothing _)) fun _ => rfl
  case postSetInUse | postSetWithdraw =>
    exact row Rd.byteFlag _ (byteThen fun _ => stop (flagThen fun _ => nothing _)) fun _ => rfl
  case bayServiceOut | bayServiceIn =>
    exact row Rd.bayService _ (byteThen fun _ => byteThen fun _ => stop (flagThen fun _ => nothing _)) fun _ => rfl
  case feederTrim => exact row Rd.byteWord _ (byteThen fun _ => wordThen fun _ => stop (nothing _)) fun _ => rfl
  case arrive => exact row Rd.handleByte _ (wordThen fun _ => byteThen fun _ => stop (nothing _)) fun _ => rfl
  case extend => exact row Rd.handleWord _ (wordThen fun _ => wordThen fun _ => stop (nothing _)) fun _ => rfl
  case clockSet => exact row Rd.clockSet _ (longThen fun _ => byteThen fun _ => stop (nothing _)) fun _ => rfl
  case findFree =>
    exact row Rd.findFree _ (bind Rd.asker_follows fun _ => bind Rd.window_follows fun _ => nothing _) fun _ => rfl
  case sessionResume => exact row Rd.resume _ (wordThen fun _ => stop (optionalThen long fun _ => nothing _)) fun _ => rfl
  case partSet => exact row Rd.partSet _ Rd.partSet_follows fun _ => rfl
  case laneSet => exact row Rd.laneSet _ Rd.laneSet_follows fun _ => rfl
  case baySet | bayRemove => exact row Rd.baySet _ Rd.baySet_follows fun _ => rfl
  case feederSet => exact row Rd.feederSet _ Rd.feederSet_follows fun _ => rfl
  case ruleWrite => exact row Rd.ruleWrite _ Rd.ruleWrite_follows fun _ => rfl
  case book => exact row Rd.book _ Rd.book_follows fun _ => rfl
  case arriveWalkin => exact row Rd.walkin _ Rd.walkin_follows fun _ => rfl

end

/-! ## O10: the lengths of the fixed layouts (R180) -/

/-- The number of bytes of a field that has one length. -/
def Field.width? : Field → Option Nat
  | .bytes n => some n
  | .flag => some 1
  | .optional _ | .flagged _ => none

/-- A payload of fields that have one length each is as long as they are. -/
theorem length_of_conforms {fields : List Field} {widths : List Nat} (fixed : fields.map Field.width? = widths.map some)
    {l : List Byte} (h : conforms fields l = true) : l.length = widths.sum := by
  induction fields generalizing widths l with
  | nil =>
    cases widths with
    | nil => simpa [conforms] using h
    | cons => nomatch fixed
  | cons x fields ih =>
    cases widths with
    | nil => nomatch fixed
    | cons w widths =>
      obtain ⟨first, behindFixed⟩ := List.cons.inj fixed
      cases x with
      | bytes n =>
        obtain rfl : n = w := Option.some.inj first
        by_cases room : n ≤ l.length
        · rw [conforms_bytes room] at h
          have behind := ih behindFixed h
          rw [List.length_drop] at behind
          rw [List.sum_cons]
          omega
        · rw [conforms_bytes_short room] at h
          nomatch h
      | flag =>
        obtain rfl : 1 = w := Option.some.inj first
        cases l with
        | nil => nomatch h
        | cons b t =>
          by_cases flag : b = 0 ∨ b = 1
          · rw [conforms_flag flag] at h
            rw [List.length_cons, List.sum_cons, ih behindFixed h, Nat.add_comm]
          · rw [conforms_flag_other flag] at h
            nomatch h
      | optional | flagged => nomatch first

/-- The fixed length of a kind is the length of its layout. -/
theorem Kind.layout_widths {k : Kind} {n : Nat} (h : fixedLength k = some n) :
    ∃ widths : List Nat, k.layout.map Field.width? = widths.map some ∧ widths.sum = n := by
  have widths : k.layout.map Field.width? = (k.layout.filterMap Field.width?).map some ∧
      (k.layout.filterMap Field.width?).sum = n := by
    cases k <;> cases h <;> decide
  exact ⟨_, widths⟩

theorem conforms_of_length_ne {k : Kind} {n : Nat} (h : fixedLength k = some n) {l : List Byte} (ne : l.length ≠ n) :
    conforms k.layout l = false := by
  obtain ⟨widths, fixed, rfl⟩ := Kind.layout_widths h
  exact Bool.eq_false_iff.2 fun conform => ne (length_of_conforms fixed conform)

/-! ## O10: the order of the checks (R170) -/

section
variable {s : State} {k : Kind} {f : Frame} {rest : List Frame} {mine : List Byte → Bool}

theorem Port.head_of_queue {x : Port} (queue : x.requests = f :: rest) (kind : f.kind = k.code)
    (takes : mine f.payload = true) (room : x.replies.length < 4) (serving : x.stopped = false) :
    x.head k mine = some (f, rest) := by
  have room : x.replies.length < Config.queuePlaces := room
  simp [Port.head, queue, kind, Kind.ofCode_code, takes, room, serving]

/-- A request that stands at the head is answered MALFORMED where its TAG is 0 or its payload does not read. -/
theorem State.serveWith_malformed {α : Type} {rd : Rd α} (settled : s.settled) (serving : s.port.stopped = false)
    (head : s.port.head k mine = some (f, rest)) (bad : f.tag = 0 ∨ rd.all f.payload = none)
    (act : α → State → Answer × State) :
    (s.serveWith k mine rd act).done = .next (s.replied rest f ⟨.malformed, []⟩ s.part) := by
  have refused : s.serveWith k mine rd act =
      ({ s with port := { s.port with requests := rest } } : State).answer f (Status.alone .malformed) := by
    unfold State.serveWith
    rw [head]
    dsimp only
    split
    · rfl
    · next tag => rw [bad.resolve_left tag]
  rw [refused]
  exact State.done_answered settled serving

/-- While four replies wait, or once RESET-PART FULL has been served, the test of serving fails. -/
theorem Port.serves_none {x : Port} (waits : 4 ≤ x.replies.length ∨ x.stopped = true) (c : Bool) :
    (c && decide (x.replies.length < Config.queuePlaces) && !x.stopped) = false := by
  rcases waits with full | stopped
  · rw [decide_eq_false (p := x.replies.length < Config.queuePlaces) (Nat.not_lt.2 full), Bool.and_false, Bool.false_and]
  · rw [stopped, Bool.not_true, Bool.and_false]

/-- Nothing is served while four replies wait, once RESET-PART FULL has been served, or with no request waiting. -/
theorem Port.head_waits {x : Port} (waits : 4 ≤ x.replies.length ∨ x.stopped = true ∨ x.requests = []) :
    x.head k mine = none := by
  unfold Port.head
  split
  · rfl
  · next f rest queue =>
    rw [queue] at waits
    rw [Port.serves_none (by simpa using waits)]
    rfl

theorem execUnknownKind_waits (waits : 4 ≤ s.port.replies.length ∨ s.port.stopped = true ∨ s.port.requests = []) :
    execUnknownKind s = .next s.complete := by
  unfold execUnknownKind
  split
  · rfl
  · next f rest queue =>
    rw [queue] at waits
    rw [Port.serves_none (by simpa using waits)]
    rfl

theorem Kind.ofCode_eq_none {b : Byte} (h : ∀ k : Kind, b ≠ k.code) : Kind.ofCode b = none :=
  List.find?_eq_none.2 fun k _ => by simpa using (h k).symm

theorem execUnknownKind_answers (settled : s.settled) (queue : s.port.requests = f :: rest)
    (room : s.port.replies.length < 4) (serving : s.port.stopped = false) (kind : ∀ k : Kind, f.kind ≠ k.code) :
    execUnknownKind s = .next (s.replied rest f ⟨.unknownKind, []⟩ s.part) := by
  have room' : s.port.replies.length < Config.queuePlaces := room
  unfold execUnknownKind
  rw [queue]
  dsimp only
  rw [if_pos (by simp [Kind.ofCode_eq_none kind, room', serving])]
  exact State.done_answered settled serving

end

/-- Settles O10: every row serves with a reader that follows the layout of its kind (`rowServes_of_servedKind`), behind
the checks of the KIND and the TAG. -/
theorem servingChecksKindTagAndLength : Obligations.ServingChecksKindTagAndLength := by
  unfold Obligations.ServingChecksKindTagAndLength
  have nonconforming : ∀ (c : Instr) (k : Kind) (s : State) (f : Frame) (rest : List Frame), servedKind c = some k →
      s.settled → s.Asks k f.payload f rest → rowTakes c f.payload = true → conforms k.layout f.payload = false →
      exec c s = .next (s.replied rest f ⟨.malformed, []⟩ s.part) := by
    intro c k s f rest row settled asks takes bad
    obtain ⟨α, rd, act, follows, serves⟩ := rowServes_of_servedKind row
    rw [serves]
    exact State.serveWith_malformed settled asks.serving (Port.head_asks asks takes) (.inr (follows.all bad)) act
  refine ⟨fun s f rest settled queue room serving kind => execUnknownKind_answers settled queue room serving kind,
    fun c k s f rest row settled queue kind takes tag room serving => ?tag,
    fun c k n s f rest row settled asks takes fixed ne => ?length, nonconforming, fun c k s row waits => ?waits⟩
  case tag =>
    obtain ⟨α, rd, act, -, serves⟩ := rowServes_of_servedKind row
    rw [serves]
    exact State.serveWith_malformed settled serving (Port.head_of_queue queue kind takes room serving) (.inl tag) act
  case length => exact nonconforming c k s f rest row settled asks takes (conforms_of_length_ne fixed ne)
  case waits =>
    rcases row with row | rfl
    · obtain ⟨α, rd, act, -, serves⟩ := rowServes_of_servedKind row
      rw [serves, State.serveWith_none (Port.head_waits waits)]
      rfl
    · exact execUnknownKind_waits waits

end Sys2Proof.Machine

namespace Sys2Proof.Machine

/-! ## O12: the first object in cyclic order (R171) -/

/-- The first element of a list that passes a test, where those before it rank lower and do not pass. -/
theorem find?_of_ranked {α : Type} {test : α → Bool} {rank : α → Nat} {x : α} {l : List α}
    (ranked : l.Pairwise (fun a b => rank a < rank b)) (mem : x ∈ l) (hit : test x = true)
    (least : ∀ y, test y = true → rank x ≤ rank y) : l.find? test = some x := by
  induction l with
  | nil => nomatch mem
  | cons a l ih =>
    obtain ⟨below, ranked⟩ := List.pairwise_cons.1 ranked
    rcases List.mem_cons.1 mem with rfl | mem
    · exact List.find?_cons_of_pos hit
    · have fails : ¬ test a = true := fun passes => absurd (below x mem) (Nat.not_lt.2 (least a passes))
      rw [List.find?_cons_of_neg fails]
      exact ih ranked mem

section
variable {n start : Nat}

/-- How many objects stand before `i` in cyclic order from `start` (R171). -/
def cyclicRank (n start : Nat) (i : Fin n) : Nat := (i.val + n - start) % n

theorem cyclicRank_of_le {i : Fin n} (h : start ≤ i.val) : cyclicRank n start i = i.val - start := by
  have := i.isLt
  unfold cyclicRank
  rw [show i.val + n - start = (i.val - start) + n by omega, Nat.add_mod_right, Nat.mod_eq_of_lt (by omega)]

theorem cyclicRank_of_lt {i : Fin n} (h : i.val < start) (low : start < n) :
    cyclicRank n start i = i.val + n - start := Nat.mod_eq_of_lt (by omega)

theorem allBelow_increasing (n : Nat) : (allBelow n).Pairwise (fun a b => a.val < b.val) := List.pairwise_lt_finRange n

/-- The cyclic walk takes the objects by rank. -/
theorem cyclicWalk_ranked (low : start < n) :
    ((allBelow n).filter (fun i => start ≤ i.val) ++ (allBelow n).filter (fun i => i.val < start)).Pairwise
      (fun a b => cyclicRank n start a < cyclicRank n start b) := by
  refine List.pairwise_append.2 ⟨?_, ?_, fun a ha b hb => ?_⟩
  · refine (allBelow_increasing n).filter _ |>.imp_of_mem fun {a b} ha hb lt => ?_
    have ha : start ≤ a.val := by simpa using (List.mem_filter.1 ha).2
    have hb : start ≤ b.val := by simpa using (List.mem_filter.1 hb).2
    rw [cyclicRank_of_le ha, cyclicRank_of_le hb]
    omega
  · refine (allBelow_increasing n).filter _ |>.imp_of_mem fun {a b} ha hb lt => ?_
    have ha : a.val < start := by simpa using (List.mem_filter.1 ha).2
    have hb : b.val < start := by simpa using (List.mem_filter.1 hb).2
    rw [cyclicRank_of_lt ha low, cyclicRank_of_lt hb low]
    omega
  · have ha : start ≤ a.val := by simpa using (List.mem_filter.1 ha).2
    have hb : b.val < start := by simpa using (List.mem_filter.1 hb).2
    have := a.isLt
    rw [cyclicRank_of_le ha, cyclicRank_of_lt hb low]
    omega

theorem cyclicFind_some {test : Fin n → Bool} {i : Fin n} (low : start < n) (hit : test i = true)
    (least : ∀ j, test j = true → cyclicRank n start i ≤ cyclicRank n start j) : cyclicFind start test = some i := by
  refine find?_of_ranked (cyclicWalk_ranked low) (List.mem_append.2 ?_) hit least
  rcases Nat.lt_or_ge i.val start with lt | le
  · exact .inr (List.mem_filter.2 ⟨List.mem_finRange i, by simpa using lt⟩)
  · exact .inl (List.mem_filter.2 ⟨List.mem_finRange i, by simpa using le⟩)

theorem cyclicFind_none {test : Fin n → Bool} (clear : ∀ j, ¬ test j = true) : cyclicFind start test = none :=
  List.find?_eq_none.2 fun j _ => clear j

end

/-! ## O11, O12: the sources in their order (R171, R172) -/

section
variable {s : State}

theorem State.chooseRule_none (clear : ∀ r, ¬ (s.part.rule r).notice = true) : s.chooseRule = s := by
  unfold State.chooseRule
  rw [cyclicFind_none clear]

theorem State.chooseBay_none (clear : ∀ b, ¬ (s.part.bay b).notice = true) : s.chooseBay = s.chooseRule := by
  unfold State.chooseBay
  rw [cyclicFind_none clear]

theorem State.chooseFeeder_none (clear : ∀ f, ¬ (s.part.feeder f).notice = true) : s.chooseFeeder = s.chooseBay := by
  unfold State.chooseFeeder
  rw [cyclicFind_none clear]

theorem State.choosePost_none (clear : ∀ q, ¬ (s.part.post q).notice = true) : s.choosePost = s.chooseFeeder := by
  unfold State.choosePost
  rw [cyclicFind_none clear]

theorem State.chooseRecord_none (clear : ∀ k, ¬ ∃ r, s.part.record k = some r ∧ r.notice = true) :
    s.chooseRecord = s.choosePost := by
  unfold State.chooseRecord
  rw [cyclicFind_none fun k hit => clear k (Part.recordIs_iff.1 hit)]

/-- The transmitter has begun a notice with these bytes. -/
def State.Begins (t : State) (kind : Byte) (payload : List Byte) : Prop :=
  t.port.sending = some ⟨⟨0, kind, payload⟩, .notice⟩

theorem State.chooseRule_some {r : RuleId} (low : s.port.next.rule < 32) (hit : (s.part.rule r).notice = true)
    (least : ∀ j, (s.part.rule j).notice = true → cyclicRank 32 s.port.next.rule r ≤ cyclicRank 32 s.port.next.rule j) :
    s.chooseRule.Begins 0xE5 ((s.part.rule r).noticeBytes r) ∧
    s.chooseRule.part.rule r = { s.part.rule r with notice := false } ∧
    s.chooseRule.port.next.rule = (r.val + 1) % 32 := by
  unfold State.chooseRule
  rw [cyclicFind_some low hit least]
  exact ⟨rfl, Part.rule_setRule_same _ _ _, rfl⟩

theorem State.chooseBay_some {b : BayId} (low : s.port.next.bay < 64) (hit : (s.part.bay b).notice = true)
    (least : ∀ j, (s.part.bay j).notice = true → cyclicRank 64 s.port.next.bay b ≤ cyclicRank 64 s.port.next.bay j) :
    s.chooseBay.Begins 0xE0 (s.part.baySnapshot b) ∧
    s.chooseBay.part.bay b = { s.part.bay b with notice := false } ∧
    s.chooseBay.port.next.bay = (b.val + 1) % 64 := by
  unfold State.chooseBay
  rw [cyclicFind_some low hit least]
  exact ⟨rfl, Part.bay_modBay_same _ _ _, rfl⟩

theorem State.chooseFeeder_some {f : FeederId} (low : s.port.next.feeder < 8) (hit : (s.part.feeder f).notice = true)
    (least : ∀ j, (s.part.feeder j).notice = true →
      cyclicRank 8 s.port.next.feeder f ≤ cyclicRank 8 s.port.next.feeder j) :
    s.chooseFeeder.Begins 0xE3 (s.part.feederSnapshot f) ∧
    s.chooseFeeder.part.feeder f = { s.part.feeder f with notice := false } ∧
    s.chooseFeeder.port.next.feeder = (f.val + 1) % 8 := by
  unfold State.chooseFeeder
  rw [cyclicFind_some low hit least]
  exact ⟨rfl, Part.feeder_modFeeder_same _ _ _, rfl⟩

theorem State.choosePost_some {q : PostId} (low : s.port.next.post < 32) (hit : (s.part.post q).notice = true)
    (least : ∀ j, (s.part.post j).notice = true → cyclicRank 32 s.port.next.post q ≤ cyclicRank 32 s.port.next.post j) :
    s.choosePost.Begins 0xE4 (s.part.postSnapshot q) ∧
    s.choosePost.part.post q = { s.part.post q with notice := false } ∧
    s.choosePost.port.next.post = (q.val + 1) % 32 := by
  unfold State.choosePost
  rw [cyclicFind_some low hit least]
  exact ⟨rfl, Part.post_modPost_same _ _ _, rfl⟩

theorem State.chooseRecord_some {k : SlotId} {r : Record} (low : s.port.next.record < 192)
    (hr : s.part.record k = some r) (hit : r.notice = true)
    (least : ∀ j, (∃ r, s.part.record j = some r ∧ r.notice = true) →
      cyclicRank 192 s.port.next.record k ≤ cyclicRank 192 s.port.next.record j) :
    s.chooseRecord.Begins 0xE1 (s.part.recordSnapshot k r) ∧
    s.chooseRecord.part.record k = some { r with notice := false } ∧
    s.chooseRecord.port.next.record = (k.val + 1) % 192 := by
  have payload : s.part.recordNotice k = s.part.recordSnapshot k r := by
    unfold Part.recordNotice
    rw [hr]
  unfold State.chooseRecord
  rw [cyclicFind_some low (Part.recordIs_iff.2 ⟨r, hr, hit⟩) fun j passes => least j (Part.recordIs_iff.1 passes), ← payload]
  refine ⟨rfl, ?_, rfl⟩
  show (s.part.modRecord k _).record k = _
  rw [Part.record_modRecord, if_pos rfl, hr]
  rfl

/-- An idle transmitter of a settled machine with no reply and no closed record waiting takes its notices (R171). -/
theorem State.complete_notices (settled : s.settled) (idle : s.port.sending = none) (replies : s.port.replies = [])
    (closing : s.part.pool.closing = []) : s.complete = s.chooseRecord := by
  unfold State.complete
  rw [s.part.finish_of_settled settled]
  unfold State.kick State.choose State.chooseClose
  simp only [idle, replies, closing]

/-- With no flag set nothing is begun. -/
theorem State.complete_silent (settled : s.settled) (idle : s.port.sending = none) (replies : s.port.replies = [])
    (closing : s.part.pool.closing = []) (records : ∀ k, ¬ ∃ r, s.part.record k = some r ∧ r.notice = true)
    (posts : ∀ q, ¬ (s.part.post q).notice = true) (feeders : ∀ f, ¬ (s.part.feeder f).notice = true)
    (bays : ∀ b, ¬ (s.part.bay b).notice = true) (rules : ∀ r, ¬ (s.part.rule r).notice = true) : s.complete = s := by
  rw [State.complete_notices settled idle replies closing, State.chooseRecord_none records, State.choosePost_none posts,
    State.chooseFeeder_none feeders, State.chooseBay_none bays, State.chooseRule_none rules]

end

/-- Settles O12: the sources before the one that begins have no flag set, and `cyclicFind` takes its first object. -/
theorem noticesFollowTheSourceOrder : Obligations.NoticesFollowTheSourceOrder := by
  unfold Obligations.NoticesFollowTheSourceOrder
  intro s settled idle replies closing
  dsimp only
  have silent := State.complete_silent settled idle replies closing
  rw [State.complete_notices settled idle replies closing] at silent ⊢
  refine ⟨fun k r hr hit low least => State.chooseRecord_some low hr hit least, fun q noRecord hit low least => ?post,
    fun f noRecord noPost hit low least => ?feeder, fun b noRecord noPost noFeeder hit low least => ?bay,
    fun r noRecord noPost noFeeder noBay hit low least => ?rule, silent⟩
  case post =>
    rw [State.chooseRecord_none noRecord]
    exact State.choosePost_some low hit least
  case feeder =>
    rw [State.chooseRecord_none noRecord, State.choosePost_none noPost]
    exact State.chooseFeeder_some low hit least
  case bay =>
    rw [State.chooseRecord_none noRecord, State.choosePost_none noPost, State.chooseFeeder_none noFeeder]
    exact State.chooseBay_some low hit least
  case rule =>
    rw [State.chooseRecord_none noRecord, State.choosePost_none noPost, State.chooseFeeder_none noFeeder,
      State.chooseBay_none noBay]
    exact State.chooseRule_some low hit least

/-! ## O11: the end of an event, and the last byte of a frame (R43, R171) -/

section
variable {s : State}

theorem State.complete_of_settled (settled : s.settled) : s.complete = s.kick := by
  unfold State.complete
  rw [s.part.finish_of_settled settled]

/-- The transmitter's choice takes no request. -/
theorem State.choose_requests (s : State) : s.choose.port.requests = s.port.requests := by
  unfold State.choose State.chooseClose State.chooseRecord State.choosePost State.chooseFeeder State.chooseBay
    State.chooseRule
  repeat' split
  all_goals rfl

theorem State.complete_requests (s : State) : s.complete.port.requests = s.port.requests := by
  unfold State.complete State.kick
  split
  · rfl
  · exact State.choose_requests _

/-- The transmitter has begun nothing: the CLOSE-NOTICE of the closing list's head comes next (R43). -/
theorem State.kick_close {k : SlotId} {l : List SlotId} (idle : s.port.sending = none) (replies : s.port.replies = [])
    (closing : s.part.pool.closing = k :: l) : s.kick = { s with port := { s.port with
      sending := some ⟨⟨0, 0xE2, s.part.closePayload k⟩, .closeNotice (some k)⟩ } } := by
  have begun : s.kick = s.chooseClose := by
    unfold State.kick State.choose
    rw [idle, replies]
  rw [begun]
  unfold State.chooseClose
  rw [closing]
  rfl

/-- A frame that frees nothing leaves the transmitter idle. -/
theorem State.frameSent_idles {fr : Frame} {w : Sent} (sending : s.port.sending = some ⟨fr, w⟩)
    (frees : w = .reply ∨ w = .notice ∨ w = .closeNotice none) :
    s.frameSent = { s with port := { s.port with sending := none } } := by
  unfold State.frameSent
  rw [sending]
  rcases frees with rfl | rfl | rfl <;> rfl

/-- The end of a CLOSE-NOTICE frees its record's slot (R43). -/
theorem State.frameSent_releases {fr : Frame} {k : SlotId} (sending : s.port.sending = some ⟨fr, .closeNotice (some k)⟩) :
    s.frameSent = { s with part := { s.part with pool := s.part.pool.release k },
                           port := { s.port with sending := none } } := by
  unfold State.frameSent
  rw [sending]

end

/-- The pool after the slot of a CLOSING record has been freed (R43). -/
theorem Pool.release_closing {q : Pool} {k : SlotId} {r : Record} (hr : q.record k = some r) (closing : r.state = .closing) :
    (q.release k).free = k :: q.free ∧ (q.release k).closing = q.closing.filter (fun j => j ≠ k) ∧
    (q.release k).waiting = q.waiting ∧ (q.release k).chains = q.chains := by
  have home : q.homeOf k = .closing := by
    rw [Pool.homeOf_record hr]
    unfold Record.home
    rw [closing]
  unfold Pool.release
  rw [home]
  exact ⟨rfl, rfl, rfl, rfl⟩

/-- A free slot has no notice flag to clear. -/
theorem Part.slot_of_quiet {p q : Part} (h : q.quiet = p.quiet) {k : SlotId} {g : Nat} (free : p.pool.slot k = ⟨g, none⟩) :
    q.pool.slot k = ⟨g, none⟩ := by
  have slots : (q.pool.slots.map Slot.quiet)[k.val] = (p.pool.slots.map Slot.quiet)[k.val] :=
    congrArg (fun u : Part => u.pool.slots[k.val]) h
  rw [Vector.getElem_map, Vector.getElem_map, show p.pool.slots[k.val] = ⟨g, none⟩ from free] at slots
  show q.pool.slots[k.val] = _
  generalize q.pool.slots[k.val] = x at slots
  obtain ⟨gen, record⟩ := x
  cases record with
  | none => exact slots
  | some r => nomatch (congrArg Slot.record slots : some r.quiet = none)

/-- Settles O11: the transmitter's sources in their order; what its choice leaves is `State.complete_quiet`. -/
theorem frameSentTakesTheNextSource : Obligations.FrameSentTakesTheNextSource := by
  unfold Obligations.FrameSentTakesTheNextSource
  refine ⟨fun s settled => ⟨fun x sending => ?busy, fun r l idle replies => ?reply, fun k l idle replies closing => ?close,
    State.complete_quiet settled, s.complete_requests, s.complete_within.receiver, s.complete_pending⟩,
    fun s => ⟨fun fr w sending frees => ?idles, fun idle => ?nothing, fun fr k r settled sending hr closing => ?frees⟩⟩
  case busy => exact (State.complete_of_settled settled).trans (s.kick_busy x sending)
  case reply => exact (State.complete_of_settled settled).trans (s.kick_reply r l idle replies)
  case close => exact (State.complete_of_settled settled).trans (State.kick_close idle replies closing)
  case idles => exact congrArg (fun u : State => Host.Outcome.next u.complete) (State.frameSent_idles sending frees)
  case nothing =>
    have same : s.frameSent = s := by
      unfold State.frameSent
      rw [idle]
    exact congrArg (fun u : State => Host.Outcome.next u.complete) same
  case frees =>
    obtain ⟨free, left, waiting, chains⟩ := Pool.release_closing hr closing
    have quiet : s.frameSent.complete.part.quiet = Part.quiet { s.part with pool := s.part.pool.release k } := by
      rw [State.frameSent_releases sending]
      exact State.complete_quiet settled
    refine ⟨s.frameSent.complete, rfl, Part.slot_of_quiet quiet ?_, ?_, ?_, ?_, ?_⟩
    · exact (Pool.slot_release _ _ _).trans (if_pos rfl)
    · exact (congrArg (fun u : Part => u.pool.free) quiet).trans free
    · exact (congrArg (fun u : Part => u.pool.closing) quiet).trans left
    · exact (congrArg (fun u : Part => u.pool.waiting) quiet).trans waiting
    · exact (congrArg (fun u : Part => u.pool.chains) quiet).trans chains

end Sys2Proof.Machine

namespace Sys2Proof.Machine

/-! ## O5: RESET-PART FULL (R179) -/

/-- The end of a command of a settled machine that has queued a reply: an idle transmitter begins the queue's head. -/
theorem State.complete_queued {s : State} (settled : s.settled) (rest : List Frame) (r : Reply) (stopped : Bool) :
    State.complete { s with port := { s.port with
      requests := rest, replies := s.port.replies ++ [r], stopped := stopped } } =
    { s with port := { s.port.withReply rest r with stopped := stopped } } := by
  unfold State.complete
  dsimp only
  rw [s.part.finish_of_settled settled]
  obtain ⟨part, ⟨receiver, requests, replies, sending, next, old⟩, pending⟩ := s
  cases sending <;> cases replies <;> rfl

/-- After a full reset nothing is left to do, to reply or to send (R48). -/
theorem State.fullReset_silent (s : State) : s.fullReset.complete = s.fullReset := by
  refine State.complete_silent rfl rfl rfl rfl (fun k => ?record) (fun q => ?post) (fun f => ?feeder) (fun b => ?bay)
    (fun r => ?rule)
  case record =>
    rintro ⟨r, hr, -⟩
    rw [show s.fullReset.part.record k = none from State.fullReset_record s k] at hr
    cases hr
  case post =>
    rw [show s.fullReset.part.post q = .reset from Vector.getElem_replicate ..]
    simp [Post.reset]
  case feeder =>
    rw [show s.fullReset.part.feeder f = .reset from Vector.getElem_replicate ..]
    simp [Feeder.reset]
  case bay =>
    rw [show s.fullReset.part.bay b = .reset from Vector.getElem_replicate ..]
    simp [Bay.reset]
  case rule =>
    rw [show s.fullReset.part.rule r = .reset from Vector.getElem_replicate ..]
    simp [Rule.reset]

/-- The end of the reply of RESET-PART FULL takes the reset (R179). -/
theorem State.frameSent_resets {s : State} {fr : Frame} (sending : s.port.sending = some ⟨fr, .resetReply⟩) :
    s.frameSent = s.fullReset := by
  unfold State.frameSent
  rw [sending]
  rfl

theorem execFullReset_reply {s : State} {fr : Frame} (sending : s.port.sending = some ⟨fr, .resetReply⟩) :
    execFullReset s = .next s.fullReset := by
  unfold execFullReset
  rw [sending]
  rfl

theorem execFullReset_other {s : State} (other : ∀ fr, s.port.sending ≠ some ⟨fr, .resetReply⟩) :
    execFullReset s = .next s := by
  unfold execFullReset
  split
  next x sending =>
    obtain ⟨fr, what⟩ := x
    rw [if_neg]
    rintro rfl
    exact other fr sending
  next => rfl

/-- Settles O5: the request answers and stops the port; at the end of its reply both rows are `State.fullReset`. -/
theorem fullResetFollowsTheAnswerToResetPart : Obligations.FullResetFollowsTheAnswerToResetPart := by
  unfold Obligations.FullResetFollowsTheAnswerToResetPart
  refine ⟨fun s f rest settled asks => ?request, fun s => ⟨fun fr sending => ⟨?row, ?sent⟩, execFullReset_other⟩⟩
  case request =>
    show execResetPartFull s = _
    unfold execResetPartFull
    have kind : replyKind f.kind = 0x83 := by
      rw [asks.kind]
      decide
    rw [State.serveWith_asks asks rfl (rd := Rd.u8) (x := 1) rfl rfl, ← kind]
    exact congrArg Host.Outcome.next (State.complete_queued settled rest _ true)
  case row => exact execFullReset_reply sending
  case sent =>
    show s.frameSent.done = .next s.fullReset
    rw [State.frameSent_resets sending]
    exact congrArg Host.Outcome.next s.fullReset_silent

end Sys2Proof.Machine

namespace Sys2Proof.Machine

/-! ## O6: RESET-PART BOOK (R178) -/

/-! ### Walks that derive conditions anew -/

section
variable {p : Part} {b j : BayId}

/-- A derivation writes bays and feeders, and reports blocking events and touched posts (R8). -/
theorem Part.derive_eq (p : Part) (b : BayId) : ∃ bays feeders idle blocked, p.derive b =
    { p with bays := bays, feeders := feeders, work := { p.work with idle := idle, blocked := blocked } } := by
  by_cases same : p.conditionOf b = (p.bay b).condition
  · exact ⟨p.bays, p.feeders, p.work.idle, p.work.blocked, Part.derive_of_eq same⟩
  · rw [Part.derive_of_ne same, Part.rederived]
    obtain ⟨idle, touched, -⟩ :=
      (p.modBay b (fun x => { x with condition := p.conditionOf b, notice := true })).touchPost_eq (p.bay b).post
    rw [touched]
    dsimp only
    split <;> split <;> exact ⟨_, _, _, _, rfl⟩

/-- A derivation keeps a notice flag that is set. -/
theorem Part.derive_bay_noticed (notice : (p.bay j).notice = true) :
    ∃ c, (p.derive b).bay j = { p.bay j with condition := c } := by
  by_cases same : p.conditionOf b = (p.bay b).condition
  · exact ⟨(p.bay j).condition, by rw [Part.derive_of_eq same]⟩
  · rw [Part.derive_bay_of_ne same]
    split
    next e =>
      subst e
      exact ⟨_, by rw [← notice]⟩
    next => exact ⟨(p.bay j).condition, rfl⟩

theorem Part.derives_bay_noticed (l : List BayId) (notice : (p.bay j).notice = true) :
    ∃ c, (l.foldl Part.derive p).bay j = { p.bay j with condition := c } := by
  induction l generalizing p with
  | nil => exact ⟨_, rfl⟩
  | cons b l ih =>
    obtain ⟨_, first⟩ := Part.derive_bay_noticed (b := b) notice
    obtain ⟨c, rest⟩ := ih (p := p.derive b) (by rw [first, notice])
    exact ⟨c, by rw [List.foldl_cons, rest, first]⟩

theorem Part.derives_feeder (p : Part) (l : List BayId) (f : FeederId) :
    ∃ due, (l.foldl Part.derive p).feeder f = { p.feeder f with recomputeDue := due } :=
  ⟨_, (Part.Tidies.foldl (linked := true) l (fun u b _ => u.derive_tidies b) p).feeder_eq f⟩

end

/-! ### The completion of an event that leaves every chain empty -/

section
variable {p : Part}

theorem Part.walkBlocked_unchained {x : Blocked} (h : p.chain x.bay = []) : p.walkBlocked x = p := by
  rw [Part.walkBlocked_eq, h]
  rfl

theorem Part.takeBlocked_unchained (chains : ∀ b, p.chain b = []) :
    p.takeBlocked = { p with work := { p.work with blocked := [] } } :=
  List.foldl_fixed' (f := Part.walkBlocked) (a := { p with work := { p.work with blocked := [] } })
    (fun x => Part.walkBlocked_unchained (p := { p with work := { p.work with blocked := [] } }) (chains x.bay)) _

/-- With every chain empty and neither a check nor a retry to take, an event completes by its idle conditions. -/
theorem Part.finish_unchained (chains : ∀ b, p.chain b = []) (leads : p.work.leads = []) (retry : p.work.retry = false)
    (exchange : p.work.nextExchange = false) :
    p.finish = { p.work.idle.foldl Part.evalIdle { p with work := .empty } with work := .empty } := by
  refine Eq.trans ?_ (Part.finish_idle { p with work := { p.work with blocked := [] } } rfl leads retry exchange)
  unfold Part.finish
  rw [Part.takeBlocked_unchained chains]
  rfl

/-- An evaluation of idle conditions moves no more of a post than its timer (R161). -/
theorem Post.idled_besides (holds set : Bool) (due : Nat) (x : Post) :
    { x.idled holds set due with timer := .stopped } = { x with timer := .stopped } := by
  unfold Post.idled
  repeat' split
  all_goals rfl

theorem Post.inUse_of_besides {x y : Post}
    (h : ({ x with timer := .stopped } : Post) = { y with timer := .stopped }) : x.inUse = y.inUse :=
  (congrArg Post.inUse h :)

theorem Part.evalIdles_post_besides (l : List PostId) (p : Part) (q : PostId) :
    { (l.foldl Part.evalIdle p).post q with timer := .stopped } = { p.post q with timer := .stopped } := by
  rw [Part.evalIdles_post]
  split
  · exact Post.idled_besides _ _ _ _
  · rfl

/-- What a completion that evaluates idle conditions alone leaves as it is. -/
structure Part.Completed (p q : Part) : Prop where
  bays : q.bays = p.bays
  feeders : q.feeders = p.feeders
  rules : q.rules = p.rules
  pool : q.pool = p.pool
  settings : q.settings = p.settings
  lanes : q.lanes = p.lanes
  clock : q.clock = p.clock
  link : q.link = p.link

theorem Part.completed_of_eq {q : Part} (h : { q with posts := p.posts } = { p with work := .empty }) : p.Completed q :=
  ⟨(congrArg Part.bays h :), (congrArg Part.feeders h :), (congrArg Part.rules h :), (congrArg Part.pool h :),
    (congrArg Part.settings h :), (congrArg Part.lanes h :), (congrArg Part.clock h :), (congrArg Part.link h :)⟩

theorem Part.finish_unchained_completed (chains : ∀ b, p.chain b = []) (leads : p.work.leads = [])
    (retry : p.work.retry = false) (exchange : p.work.nextExchange = false) :
    p.Completed p.finish ∧ ∀ q, { p.finish.post q with timer := .stopped } = { p.post q with timer := .stopped } := by
  rw [Part.finish_unchained chains leads retry exchange]
  exact ⟨Part.completed_of_eq (congrArg (fun u : Part => { u with work := .empty })
    (Part.evalIdles_besides p.work.idle { p with work := .empty })), Part.evalIdles_post_besides _ _⟩

namespace Part.Completed

variable {q : Part} (h : p.Completed q)
include h

theorem bay (b : BayId) : q.bay b = p.bay b := by
  unfold Part.bay
  rw [h.bays]

theorem feeder (f : FeederId) : q.feeder f = p.feeder f := by
  unfold Part.feeder
  rw [h.feeders]

theorem rule (r : RuleId) : q.rule r = p.rule r := by
  unfold Part.rule
  rw [h.rules]

theorem chain (b : BayId) : q.chain b = p.chain b := by
  unfold Part.chain
  rw [h.pool]

end Part.Completed

end

/-! ### The tables after RESET-PART BOOK -/

/-- The bay after RESET-PART BOOK, its condition aside (R1). -/
def Bay.booked (timer : VerifyTimer) (x : Bay) : Bay :=
  { x with limit := 0, penalty := 0, verify := timer, notice := true }

/-- The verify timers after RESET-PART BOOK (R1). -/
def Part.bookTimer (p : Part) (b : BayId) : VerifyTimer :=
  if p.occupancyOf b = .occupied then .running (p.now + p.settings.verifyWindow) else .idle

/-- The rule after RESET-PART BOOK (R65). -/
def Rule.bookReset (x : Rule) : Rule := { x with counter := 0, notice := false }

def Part.bookFeeder (p : Part) (f : FeederId) : Part := p.modFeeder f Feeder.bookReset

def Part.bookRule (p : Part) (r : RuleId) : Part := p.setRule r (p.rule r).bookReset

/-- The part with its pool rebuilt (R49). -/
def Part.pooled (p : Part) : Part := { p with pool := p.pool.rebuild }

theorem Part.pooled_bay (p : Part) (b : BayId) : p.pooled.bay b = p.bay b := by
  unfold Part.pooled Part.bay
  rfl

theorem Part.pooled_feeder (p : Part) (f : FeederId) : p.pooled.feeder f = p.feeder f := by
  unfold Part.pooled Part.feeder
  rfl

/-- The part with its bays as RESET-PART BOOK leaves them, but for their conditions (R1). -/
def Part.bookBays (p : Part) : Part := allBays.foldl Part.bookBay p

/-- RESET-PART BOOK, table by table (R178). -/
theorem Part.bookReset_eq (p : Part) : p.bookReset =
    (allRules.foldl Part.bookRule (allFeeders.foldl Part.bookFeeder
      (allBays.foldl Part.derive p.pooled.bookBays))).touchActive := rfl

/-- What RESET-PART BOOK leaves alone, of part `u`: the tables that it writes are those of `p`. -/
def Part.besidesBook (p u : Part) : Part :=
  { u with
    bays := p.bays, feeders := p.feeders, rules := p.rules, pool := p.pool
    work := { u.work with idle := [], blocked := [] } }

/-- The fields of a part that RESET-PART BOOK leaves as they are. -/
structure Part.SparesBook (p q : Part) : Prop where
  posts : q.posts = p.posts
  settings : q.settings = p.settings
  lanes : q.lanes = p.lanes
  clock : q.clock = p.clock
  link : q.link = p.link
  leads : q.work.leads = p.work.leads
  retry : q.work.retry = p.work.retry
  exchange : q.work.nextExchange = p.work.nextExchange

theorem Part.sparesBook_of_eq {p q : Part} (h : p.besidesBook q = p.besidesBook p) : p.SparesBook q :=
  ⟨(congrArg Part.posts h :), (congrArg Part.settings h :), (congrArg Part.lanes h :), (congrArg Part.clock h :),
    (congrArg Part.link h :), (congrArg (fun u : Part => u.work.leads) h :),
    (congrArg (fun u : Part => u.work.retry) h :), (congrArg (fun u : Part => u.work.nextExchange) h :)⟩

section
variable (p u : Part)

theorem Part.bookBay_eq (b : BayId) : u.bookBay b = u.modBay b (Bay.booked (u.bookTimer b)) := rfl

theorem Part.bookTimer_bookBay (b : BayId) : (u.bookBay b).bookTimer = u.bookTimer := by
  funext j
  unfold Part.bookTimer Part.occupancyOf Part.serviceable
  rw [u.bookBay_eq, Part.bay_modBay]
  split
  next e =>
    subst e
    rfl
  next => rfl

theorem Part.bookBays_bay (b : BayId) : u.bookBays.bay b = (u.bay b).booked (u.bookTimer b) :=
  (foldl_entry Part.bay Part.bookTimer (g := fun b => Bay.booked (u.bookTimer b)) Part.bookTimer_bookBay
    (fun v hv i j => by rw [v.bookBay_eq, Part.bay_modBay, hv]) (fun _ _ => rfl) allBays u rfl b).trans
    (if_pos (List.mem_finRange b))

/-- A view that does not tell the bays apart sees the part before. -/
theorem Part.bookBays_view {γ : Type} (view : Part → γ) (h : ∀ v b x, view (Part.setBay v b x) = view v) :
    view u.bookBays = view u :=
  foldl_view view (fun v b => h v b _) allBays u

theorem Part.bookFeeders_feeder (f : FeederId) :
    (allFeeders.foldl Part.bookFeeder u).feeder f = (u.feeder f).bookReset :=
  (foldl_entry Part.feeder (fun _ => ()) (g := fun _ => Feeder.bookReset) (c := ()) (fun _ _ => rfl)
    (fun v _ i j => v.feeder_modFeeder i _ j) (fun _ _ => rfl) allFeeders u rfl f).trans
    (if_pos (List.mem_finRange f))

theorem Part.bookRules_rule (r : RuleId) : (allRules.foldl Part.bookRule u).rule r = (u.rule r).bookReset :=
  (foldl_entry Part.rule (fun _ => ()) (g := fun _ => Rule.bookReset) (c := ()) (fun _ _ => rfl)
    (fun v _ i j => (v.rule_setRule i _ j).trans (by split <;> simp_all)) (fun _ _ => rfl) allRules u rfl r).trans
    (if_pos (List.mem_finRange r))

theorem Part.pooled_bookTimer : p.pooled.bookTimer = p.bookTimer := by
  unfold Part.pooled Part.bookTimer Part.occupancyOf Part.serviceable Part.now Part.bay Part.post
  rfl

theorem Part.pooled_besidesBook : p.besidesBook p.pooled = p.besidesBook p := by
  unfold Part.pooled Part.besidesBook
  rfl

theorem Part.derive_besidesBook (b : BayId) : p.besidesBook (u.derive b) = p.besidesBook u := by
  obtain ⟨_, _, _, _, derived⟩ := u.derive_eq b
  rw [derived]
  rfl

theorem Part.touchActive_besidesBook : p.besidesBook u.touchActive = p.besidesBook u := by
  obtain ⟨_, touched, -⟩ := u.touchActive_eq
  rw [touched]
  rfl

/-- RESET-PART BOOK leaves the configuration, the clock, the posts and the link alone, and asks for no retry (R178). -/
theorem Part.bookReset_spares : p.SparesBook p.bookReset := by
  refine Part.sparesBook_of_eq ?_
  rw [p.bookReset_eq, p.touchActive_besidesBook, foldl_view p.besidesBook (f := Part.bookRule) (fun _ _ => rfl),
    foldl_view p.besidesBook (f := Part.bookFeeder) (fun _ _ => rfl), foldl_view p.besidesBook p.derive_besidesBook]
  exact (p.pooled.bookBays_view p.besidesBook (fun _ _ _ => rfl)).trans p.pooled_besidesBook

theorem Part.touchActive_tables : u.touchActive.bays = u.bays ∧ u.touchActive.feeders = u.feeders ∧
    u.touchActive.rules = u.rules := by
  obtain ⟨_, touched, -⟩ := u.touchActive_eq
  rw [touched]
  exact ⟨rfl, rfl, rfl⟩

/-- A bay after RESET-PART BOOK (R1). -/
theorem Part.bookReset_bay (b : BayId) :
    ∃ c, p.bookReset.bay b = { (p.bay b).booked (p.bookTimer b) with condition := c } := by
  obtain ⟨c, derived⟩ := Part.derives_bay_noticed (p := p.pooled.bookBays) (j := b) allBays
    (by rw [p.pooled.bookBays_bay]; rfl)
  refine ⟨c, ?_⟩
  rw [p.pooled.bookBays_bay] at derived
  rw [p.pooled_bay, p.pooled_bookTimer] at derived
  refine Eq.trans ?_ derived
  rw [p.bookReset_eq]
  unfold Part.bay
  rw [(Part.touchActive_tables _).1, foldl_view Part.bays (f := Part.bookRule) (fun _ _ => rfl),
    foldl_view Part.bays (f := Part.bookFeeder) (fun _ _ => rfl)]

/-- A feeder after RESET-PART BOOK (R11). -/
theorem Part.bookReset_feeder (f : FeederId) :
    ∃ due, p.bookReset.feeder f = { (p.feeder f).bookReset with recomputeDue := due } := by
  obtain ⟨due, derived⟩ := p.pooled.bookBays.derives_feeder allBays f
  rw [p.pooled.bookBays_view (fun u => u.feeder f) (fun _ _ _ => rfl), p.pooled_feeder] at derived
  have ruled (u : Part) : (allRules.foldl Part.bookRule u).touchActive.feeder f = u.feeder f := by
    unfold Part.feeder
    rw [(Part.touchActive_tables _).2.1, foldl_view Part.feeders (f := Part.bookRule) (fun _ _ => rfl)]
  exact ⟨due, by rw [p.bookReset_eq, ruled, Part.bookFeeders_feeder, derived]; rfl⟩

/-- A rule after RESET-PART BOOK (R65). -/
theorem Part.bookReset_rule (r : RuleId) : p.bookReset.rule r = (p.rule r).bookReset := by
  have derived (u : Part) : (allBays.foldl Part.derive u).rules = u.rules :=
    (Part.Tidies.foldl (linked := true) allBays (fun v b _ => v.derive_tidies b) u).rules
  have fed : (allFeeders.foldl Part.bookFeeder (allBays.foldl Part.derive p.pooled.bookBays)).rules = p.rules := by
    rw [foldl_view Part.rules (f := Part.bookFeeder) (fun _ _ => rfl), derived]
    refine (p.pooled.bookBays_view Part.rules (fun _ _ _ => rfl)).trans ?_
    unfold Part.pooled
    rfl
  have ruled (u : Part) : (allRules.foldl Part.bookRule u).touchActive.rule r = (u.rule r).bookReset := by
    rw [← u.bookRules_rule r]
    unfold Part.rule
    rw [(Part.touchActive_tables _).2.2]
  rw [p.bookReset_eq, ruled]
  unfold Part.rule
  rw [fed]

theorem Part.bookReset_pool : p.bookReset.pool = p.pool.rebuild := by
  rw [p.bookReset_eq, Part.touchActive_pool, Part.foldl_pool (f := Part.bookRule) allRules (fun _ _ => rfl),
    Part.foldl_pool (f := Part.bookFeeder) allFeeders (fun _ _ => rfl),
    Part.foldl_pool (f := Part.derive) allBays Part.derive_pool]
  refine (p.pooled.bookBays_view Part.pool (fun _ _ _ => rfl)).trans ?_
  unfold Part.pooled
  rfl

theorem Part.bookReset_unchained (b : BayId) : p.bookReset.chain b = [] := by
  unfold Part.chain
  rw [p.bookReset_pool]
  exact Vector.getElem_replicate _

end

section
variable {p : Part}

/-- RESET-PART BOOK, its completion included, leaves what `Part.bookReset` leaves, the idle timers aside. -/
theorem Part.bookReset_finish (settled : p.work = .empty) :
    p.bookReset.Completed p.bookReset.finish ∧
      ∀ q, { p.bookReset.finish.post q with timer := .stopped } = { p.post q with timer := .stopped } := by
  have spares := p.bookReset_spares
  obtain ⟨completed, post⟩ := Part.finish_unchained_completed p.bookReset_unchained (by rw [spares.leads, settled]; rfl)
    (by rw [spares.retry, settled]; rfl) (by rw [spares.exchange, settled]; rfl)
  refine ⟨completed, fun q => (post q).trans ?_⟩
  unfold Part.post
  rw [spares.posts]

/-- RESET-PART BOOK keeps the configuration, the clock and the link (R178). -/
theorem Part.bookReset_keeps (settled : p.work = .empty) :
    p.SameConfig p.bookReset.finish ∧ p.bookReset.finish.clock = p.clock ∧ p.bookReset.finish.link = p.link := by
  obtain ⟨completed, post⟩ := Part.bookReset_finish settled
  have spares := p.bookReset_spares
  refine ⟨⟨?settings, ?lanes, fun b => ?bay, fun f => ?feeder, fun a => ?post, fun r => ?rule⟩, ?clock, ?link⟩
  case settings => exact completed.settings.trans spares.settings
  case lanes => exact completed.lanes.trans spares.lanes
  case clock => exact completed.clock.trans spares.clock
  case link => exact completed.link.trans spares.link
  case bay =>
    obtain ⟨_, booked⟩ := p.bookReset_bay b
    rw [completed.bay, booked]
    rfl
  case feeder =>
    obtain ⟨_, booked⟩ := p.bookReset_feeder f
    rw [completed.feeder, booked]
    rfl
  case post => exact Post.inUse_of_besides (post a)
  case rule =>
    rw [completed.rule, p.bookReset_rule]
    rfl

end

/-! ### The port -/

/-- A reply that joins the port adds one frame to those queued and in transmission (R170, R171). -/
theorem Port.withReply_frames (x : Port) (rest : List Frame) (r : Reply) :
    (x.withReply rest r).replies.length + (x.withReply rest r).sending.toList.length =
      x.replies.length + x.sending.toList.length + 1 ∧
    (x.withReply rest r).requests = rest ∧ (x.withReply rest r).next = x.next := by
  obtain ⟨receiver, requests, replies, sending, next, stopped⟩ := x
  cases sending <;> cases replies <;> simp [Port.withReply]

theorem Port.orphanClose_eq (x : Port) : ∃ sending, x.orphanClose = { x with sending := sending } ∧
    sending.toList.length = x.sending.toList.length := by
  unfold Port.orphanClose
  split
  next t begun =>
    split
    · exact ⟨_, rfl, by rw [begun]; rfl⟩
    all_goals exact ⟨x.sending, rfl, rfl⟩
  next => exact ⟨x.sending, rfl, rfl⟩

theorem Port.orphanClose_requests (x : Port) (rest : List Frame) :
    Port.orphanClose { x with requests := rest } = { x.orphanClose with requests := rest } := by
  unfold Port.orphanClose
  dsimp only
  repeat' split
  all_goals rfl

/-- RESET-PART BOOK on a settled machine answers OK, with the tables reset behind the port. -/
theorem execResetPartBook_gives {s : State} {f : Frame} {rest : List Frame} (asks : s.Asks .resetPart [0] f rest) :
    exec .resetPartBook s = .next (State.replied { s with port := s.port.orphanClose } rest f ⟨.ok, []⟩
      s.part.bookReset.finish) := by
  show execResetPartBook s = _
  unfold execResetPartBook
  rw [State.serveWith_asks asks rfl (rd := Rd.u8) (x := 0) rfl rfl]
  obtain ⟨sending, orphan, -⟩ := s.port.orphanClose_eq
  rw [← State.complete_answered { s with port := s.port.orphanClose }]
  dsimp only
  rw [Port.orphanClose_requests]
  unfold State.done State.answer Port.pushReply
  dsimp only
  rw [orphan, asks.serving]
  rfl

/-- A level other than BOOK and FULL is refused by both rows of RESET-PART (R177). -/
theorem exec_resetPart_range {c : Instr} {s : State} {f : Frame} {rest : List Frame} {level : Byte}
    (row : c = .resetPartBook ∨ c = .resetPartFull) (settled : s.settled) (asks : s.Asks .resetPart [level] f rest)
    (h : 1 < level.toNat) : exec c s = .next (s.replied rest f ⟨.range, []⟩ s.part) := by
  have other (n : Byte) (small : n.toNat ≤ 1) : byteNot 0 [n] [level] = true := by
    have ne : level ≠ n := by
      rintro rfl
      omega
    simp [byteNot, ne]
  rcases row with rfl | rfl
  · refine State.serveWith_unchanged settled asks (other 1 (by decide)) (rd := Rd.u8) (x := level.toNat) rfl ?_
    unfold State.resetBookRequest
    rw [if_neg (by omega)]
    rfl
  · refine State.serveWith_unchanged settled asks (other 0 (by decide)) (rd := Rd.u8) (x := level.toNat) rfl ?_
    unfold State.resetFullRequest
    rw [if_neg (by omega)]
    rfl

/-- Settles O6: the tables that `Part.bookReset` writes, each by its own walk; its completion moves only idle timers. -/
theorem resetPartBookFreesEveryRecord : Obligations.ResetPartBookFreesEveryRecord := by
  unfold Obligations.ResetPartBookFreesEveryRecord
  refine ⟨fun c s f rest level row settled asks h => exec_resetPart_range row settled asks h,
    fun s f rest settled asks => ⟨_, execResetPartBook_gives asks, ?_⟩⟩
  obtain ⟨completed, posts⟩ := Part.bookReset_finish (p := s.part) settled
  obtain ⟨config, clock, link⟩ := Part.bookReset_keeps (p := s.part) settled
  obtain ⟨frames, requests, next⟩ := s.port.orphanClose.withReply_frames rest ⟨⟨f.tag, replyKind f.kind, [0x00]⟩, false⟩
  obtain ⟨sending, orphan, begun⟩ := s.port.orphanClose_eq
  have pool : s.part.bookReset.finish.pool = s.part.pool.rebuild :=
    completed.pool.trans s.part.bookReset_pool
  refine ⟨congrArg Pool.free pool, fun b => ?chain, congrArg Pool.waiting pool, congrArg Pool.closing pool,
    fun k => ?slot, fun b => ?bay, fun q => ?feeder, fun r => ?rule, config, clock, link, posts, ?frames, requests,
    ?next⟩
  case chain => exact (completed.chain b).trans (s.part.bookReset_unchained b)
  case slot => exact (congrArg (fun u : Pool => u.slot k) pool).trans (s.part.pool.slot_rebuild k)
  case bay =>
    have bay := completed.bay b
    have current := (Part.finish_steady (s.part.bookReset_steady (n := 0))).current b id
    obtain ⟨_, booked⟩ := s.part.bookReset_bay b
    rw [booked] at bay
    refine ⟨?_, ?_, ?_, ?_, current, ?_⟩ <;> exact (congrArg _ bay).trans rfl
  case feeder =>
    have feeder := completed.feeder q
    obtain ⟨_, booked⟩ := s.part.bookReset_feeder q
    rw [booked] at feeder
    refine ⟨?_, ?_, ?_, ?_, ?_, ?_, ?_⟩ <;> exact (congrArg _ feeder).trans rfl
  case rule => exact (completed.rule r).trans (s.part.bookReset_rule r)
  case frames =>
    refine frames.trans ?_
    rw [orphan]
    exact congrArg (s.port.replies.length + · + 1) begun
  case next => exact next.trans (by rw [orphan])

end Sys2Proof.Machine

namespace Sys2Proof.Machine

/-! ## O18: marks of checks that are stored in place (R175) -/

/-- A record apart from the marks of its two checks (R23). -/
def Record.unmarked (r : Record) : Record := { r with leadTaken := false, wakeTaken := false }

section
variable {p : Part} {k : SlotId} {r : Record} {g : Record → Record}

/-- A change of the marks of a record writes its slot and nothing else (R36). -/
theorem Part.modRecord_mark (p : Part) (k : SlotId) (marks : ∀ r, (g r).unmarked = r.unmarked) :
    ∃ slots, p.modRecord k g = { p with pool := { p.pool with slots := slots } } := by
  unfold Part.modRecord
  cases hr : p.record k with
  | none => exact ⟨p.pool.slots, rfl⟩
  | some r =>
    have home : r.home = (g r).home := (congrArg Record.home (marks r).symm :)
    have start : r.windowStart = (g r).windowStart := (congrArg Record.windowStart (marks r).symm :)
    exact ⟨_, Part.put_inPlace hr home start⟩

theorem Part.modRecord_record (p : Part) (k j : SlotId) (g : Record → Record) :
    (p.modRecord k g).record j = if j = k then (p.record k).map g else p.record j := by
  cases hr : p.record k with
  | none =>
    have same : p.modRecord k g = p := by rw [Part.modRecord, hr]
    rw [same]
    by_cases e : j = k
    · rw [if_pos e, e, hr]
      rfl
    · rw [if_neg e]
  | some r =>
    rw [Part.modRecord, hr]
    exact p.record_put k (g r) j

/-- A walk that marks each record of a list, as the clock and the settings have it. -/
theorem Part.markWalk_record {mark : Clock × Settings → Record → Record} {f : Part → SlotId → Part}
    (view : ∀ p k, ((f p k).clock, (f p k).settings) = (p.clock, p.settings))
    (entry : ∀ p k j, (f p k).record j = if j = k then (p.record k).map (mark (p.clock, p.settings)) else p.record j)
    (once : ∀ v r, mark v (mark v r) = mark v r) (l : List SlotId) (p : Part) (j : SlotId) :
    (l.foldl f p).record j = if j ∈ l then (p.record j).map (mark (p.clock, p.settings)) else p.record j := by
  refine foldl_entry Part.record (fun u : Part => (u.clock, u.settings))
    (g := fun _ o => o.map (mark (p.clock, p.settings))) view (fun u hu i j => ?_) (fun _ o => ?_) l p rfl j
  · rw [entry, hu]
  · cases o with
    | none => rfl
    | some r => exact congrArg some (once _ r)

theorem Part.mem_upcomingSlots : k ∈ p.upcomingSlots ↔ ∃ r, p.record k = some r ∧ r.state.upcoming = true := by
  unfold Part.upcomingSlots
  rw [List.mem_filter, Part.recordIs_iff]
  exact and_iff_right (mem_allSlots k)

theorem Part.ite_mem_upcomingSlots (p : Part) (k : SlotId) (g : Record → Record) :
    (if k ∈ p.upcomingSlots then (p.record k).map g else p.record k) =
      (p.record k).map (fun r => if r.state.upcoming = true then g r else r) := by
  cases hr : p.record k with
  | none => simp
  | some r =>
    have mem : k ∈ p.upcomingSlots ↔ r.state.upcoming = true := by
      rw [Part.mem_upcomingSlots, hr]
      simp
    simp only [mem, Option.map_some]
    split <;> rfl

end

/-! ### A changed lead (R112, R175) -/

theorem freeOrderOf_perm {α : Type} (fuel k : Nat) (l : List α) : (freeOrderOf fuel k l).Perm l := by
  induction fuel generalizing k l with
  | zero => exact .refl l
  | succ n ih =>
    match l with
    | [] => exact .refl _
    | [a] => exact .refl _
    | a :: b :: t =>
      unfold freeOrderOf
      dsimp only
      split
      · next x hx =>
        obtain ⟨h, rfl⟩ := List.getElem?_eq_some_iff.1 hx
        exact ((ih _ _).cons _).trans (List.getElem_cons_eraseIdx_perm h)
      · exact .refl _

/-- A free order holds the members of the list, each as often. -/
theorem Part.inFreeOrder_perm {α : Type} (p : Part) (l : List α) : (p.inFreeOrder l).1.Perm l := by
  unfold Part.inFreeOrder
  split
  · exact freeOrderOf_perm _ _ _
  · exact .refl _

theorem Part.leadDues_eq (p : Part) (l : List SlotId) :
    l.foldl Part.leadDue p = { p with work := { p.work with leads := p.work.leads ++ l } } := by
  induction l generalizing p with
  | nil => simp
  | cons k l ih =>
    rw [List.foldl_cons, ih]
    simp [Part.leadDue]

/-- A due minute, less a lead, is at or before now, with the clock SET (R23). -/
def Clock.reached (x : Clock) (due lead : Nat) : Bool := x.set && decide (due ≤ (if x.set then x.minute else 0) + lead)

theorem Part.reached_eq (p : Part) (due lead : Nat) : p.reached due lead = p.clock.reached due lead := rfl

/-- The record with the mark of its lead check as the clock and the lead have it. -/
def Record.leadMarked (v : Clock × Settings) (r : Record) : Record :=
  { r with leadTaken := v.1.reached r.windowStart v.2.lead }

/-- The record with the mark of its wake check as the clock and the standby lead have it. -/
def Record.wakeMarked (v : Clock × Settings) (r : Record) : Record :=
  { r with wakeTaken := v.1.reached r.windowStart v.2.standbyLead }

/-- The part with the lead check of every record before engagement marked anew. -/
def Part.leadMarked (p : Part) : Part :=
  p.upcomingSlots.foldl (fun q k => q.modRecord k (Record.leadMarked (q.clock, q.settings))) p

/-- The lead checks that a changed lead has due on a blocked bay. -/
def Part.leadsDue (p : Part) : List SlotId :=
  p.upcomingSlots.filter (p.recordIs (fun r =>
    r.leadTaken && match r.bay with
      | some b => (p.bay b).condition.blocking
      | none => false))

theorem Part.leadChanged_eq (p : Part) : p.leadChanged =
    ((p.leadMarked.inFreeOrder p.leadMarked.leadsDue).1.foldl Part.leadDue
      (p.leadMarked.inFreeOrder p.leadMarked.leadsDue).2).retryDue := rfl

theorem Part.leadMarked_slots (p : Part) : ∃ slots, p.leadMarked = { p with pool := { p.pool with slots := slots } } := by
  unfold Part.leadMarked
  generalize p.upcomingSlots = l
  induction l generalizing p with
  | nil => exact ⟨p.pool.slots, rfl⟩
  | cons k l ih =>
    obtain ⟨first, marked⟩ := p.modRecord_mark k (g := Record.leadMarked (p.clock, p.settings)) (fun _ => rfl)
    obtain ⟨slots, walked⟩ := ih { p with pool := { p.pool with slots := first } }
    rw [List.foldl_cons, marked, walked]
    exact ⟨slots, rfl⟩

theorem Part.leadMarked_record (p : Part) (k : SlotId) : p.leadMarked.record k = (p.record k).map
    (fun r => if r.state.upcoming = true then r.leadMarked (p.clock, p.settings) else r) := by
  unfold Part.leadMarked
  refine (Part.markWalk_record (mark := Record.leadMarked) (fun q j => ?_) (fun q j i => q.modRecord_record j i _)
    (fun _ _ => rfl) p.upcomingSlots p k).trans (p.ite_mem_upcomingSlots k _)
  obtain ⟨_, marked⟩ := q.modRecord_mark j (g := Record.leadMarked (q.clock, q.settings)) (fun _ => rfl)
  rw [marked]

/-- A record whose lead check a changed lead has due on a blocked bay (R112). -/
def Part.LeadDue (p : Part) (k : SlotId) : Prop :=
  ∃ r b, p.record k = some r ∧ r.state.upcoming = true ∧ r.bay = some b ∧
    p.reached r.windowStart p.settings.lead = true ∧ (p.bay b).condition.blocking = true

theorem Part.mem_leadsDue (p : Part) (k : SlotId) : k ∈ p.leadMarked.leadsDue ↔ p.LeadDue k := by
  obtain ⟨slots, marked⟩ := p.leadMarked_slots
  have bay (b : BayId) : p.leadMarked.bay b = p.bay b := by
    rw [marked]
    rfl
  unfold Part.leadsDue Part.LeadDue
  rw [List.mem_filter, Part.mem_upcomingSlots, Part.recordIs_iff, p.leadMarked_record]
  cases hr : p.record k with
  | none => simp
  | some r =>
    cases up : r.state.upcoming with
    | false => simp [up]
    | true =>
      cases hb : r.bay with
      | none => simp [up, hb, Record.leadMarked]
      | some b => simp [up, hb, Record.leadMarked, Part.reached_eq, bay]

/-- A changed lead marks the lead checks anew, leaves those due on a blocked bay to be taken, and asks for a retry (R112,
R175). -/
structure Part.LeadsAnew (p q : Part) (order : List SlotId) : Prop where
  rest : ∃ slots choices, q = { p with
    pool := { p.pool with slots := slots }, choices := choices
    work := { p.work with leads := p.work.leads ++ order, retry := true } }
  record (k : SlotId) : q.record k =
    (p.record k).map (fun r => if r.state.upcoming = true then r.leadMarked (p.clock, p.settings) else r)
  nodup : order.Nodup
  mem (k : SlotId) : k ∈ order ↔ p.LeadDue k

theorem Part.leadChanged_leadsAnew (p : Part) : ∃ order, p.LeadsAnew p.leadChanged order := by
  obtain ⟨slots, marked⟩ := p.leadMarked_slots
  obtain ⟨choices, ordered⟩ := p.leadMarked.inFreeOrder_part p.leadMarked.leadsDue
  have perm := p.leadMarked.inFreeOrder_perm p.leadMarked.leadsDue
  refine ⟨(p.leadMarked.inFreeOrder p.leadMarked.leadsDue).1, ⟨slots, choices, ?_⟩, fun k => ?_, ?_, fun k => ?_⟩
  · rw [p.leadChanged_eq, ordered, Part.leadDues_eq]
    generalize (p.leadMarked.inFreeOrder p.leadMarked.leadsDue).1 = order
    rw [marked]
    rfl
  · rw [p.leadChanged_eq, ordered, Part.leadDues_eq]
    exact p.leadMarked_record k
  · refine perm.nodup_iff.2 (List.Nodup.filter _ (List.Nodup.filter _ ?_))
    exact List.nodup_finRange 192
  · exact perm.mem_iff.trans (p.mem_leadsDue k)

end Sys2Proof.Machine

namespace Sys2Proof.Machine

/-! ### A changed standby lead (R164, R175) -/

/-- A post in STANDBY that a wake cause reaches (R162). -/
def Post.woken (time : Nat) (x : Post) : Post :=
  { x with link := .waking, timer := .wake (time + Config.wakeTime), notice := true }

/-- The wake check of the record in a slot is due at a post (R164). -/
def Part.wakes (p : Part) (a : PostId) (k : SlotId) : Bool :=
  p.recordIs (fun r => p.reached r.windowStart p.settings.standbyLead &&
    r.bay.any (fun b => decide ((p.bay b).post = a))) k

/-- One record of the walk that a changed standby lead takes. -/
def Part.standStep (p : Part) (k : SlotId) : Part :=
  let due := p.recordIs (fun r => p.reached r.windowStart p.settings.standbyLead) k
  let marked := p.modRecord k (fun r => { r with wakeTaken := due })
  match (p.record k).bind (·.bay) with
  | some b => if due then marked.wakeBay b else marked
  | none => marked

theorem Part.standbyLeadChanged_eq (p : Part) :
    p.standbyLeadChanged = (p.upcomingSlots.foldl Part.standStep p).touchActive := rfl

section
variable {p : Part} {k : SlotId} {r : Record} {a : PostId}

theorem Part.wakePost_eq (p : Part) (a : PostId) :
    p.wakePost a = p.setPost a (if (p.post a).link = .standby then (p.post a).woken p.time else p.post a) := by
  unfold Part.wakePost
  split
  · rfl
  · exact (p.setPost_self a).symm

theorem Part.modRecord_of_record (hr : p.record k = some r) (g : Record → Record) : p.modRecord k g = p.put k (g r) := by
  rw [Part.modRecord, hr]

theorem Part.standStep_none (none : p.record k = none) : p.standStep k = p := by
  unfold Part.standStep Part.modRecord
  simp only [none, Option.bind_none]

/-- A record of the walk: its wake check is marked, and where it is due it wakes its post. -/
theorem Part.standStep_some (hr : p.record k = some r) :
    p.standStep k =
      let marked := p.modRecord k (Record.wakeMarked (p.clock, p.settings))
      match r.bay with
      | some b => if p.reached r.windowStart p.settings.standbyLead = true then marked.wakeBay b else marked
      | none => marked := by
  unfold Part.standStep
  simp only [Part.recordIs, Part.modRecord_of_record hr, hr, Option.bind_some]
  rfl

theorem Part.wakeBay_posts (p : Part) (b : BayId) : ∃ posts, p.wakeBay b = { p with posts := posts } :=
  ⟨_, p.wakePost_eq (p.bay b).post⟩

theorem Part.standStep_rest (p : Part) (k : SlotId) :
    ∃ slots posts, p.standStep k = { p with pool := { p.pool with slots := slots }, posts := posts } := by
  cases hr : p.record k with
  | none => exact ⟨p.pool.slots, p.posts, Part.standStep_none hr⟩
  | some r =>
    obtain ⟨slots, marked⟩ := p.modRecord_mark k (g := Record.wakeMarked (p.clock, p.settings)) (fun _ => rfl)
    rw [Part.standStep_some hr, marked]
    dsimp only
    split
    next b _ =>
      split
      · obtain ⟨posts, woken⟩ := Part.wakeBay_posts { p with pool := { p.pool with slots := slots } } b
        exact ⟨slots, posts, woken⟩
      · exact ⟨slots, p.posts, rfl⟩
    next => exact ⟨slots, p.posts, rfl⟩

theorem Part.standStep_record (p : Part) (k j : SlotId) : (p.standStep k).record j =
    if j = k then (p.record k).map (Record.wakeMarked (p.clock, p.settings)) else p.record j := by
  cases hr : p.record k with
  | none =>
    rw [Part.standStep_none hr]
    by_cases e : j = k
    · rw [if_pos e, e, hr]
      rfl
    · rw [if_neg e]
  | some r =>
    rw [← hr, ← p.modRecord_record k j, Part.standStep_some hr]
    dsimp only
    unfold Part.record
    split
    · split
      · rw [Part.wakeBay_pool]
      · rfl
    · rfl

theorem Part.standStep_post (p : Part) (k : SlotId) (a : PostId) : (p.standStep k).post a =
    if (p.post a).link = .standby ∧ p.wakes a k = true then (p.post a).woken p.time else p.post a := by
  cases hr : p.record k with
  | none =>
    rw [Part.standStep_none hr, if_neg]
    simp [Part.wakes, Part.recordIs, hr]
  | some r =>
    obtain ⟨slots, marked⟩ := p.modRecord_mark k (g := Record.wakeMarked (p.clock, p.settings)) (fun _ => rfl)
    rw [Part.standStep_some hr, marked]
    simp only [Part.wakes, Part.recordIs, hr]
    cases hb : r.bay with
    | none =>
      rw [if_neg (by simp)]
      rfl
    | some b =>
      dsimp only
      cases due : p.reached r.windowStart p.settings.standbyLead with
      | false =>
        rw [if_neg (by simp), if_neg (by simp)]
        rfl
      | true =>
        rw [if_pos rfl, Part.wakeBay, Part.wakePost_eq, Part.post_setPost]
        by_cases here : a = (p.bay b).post
        · subst here
          simp only [Option.any_some, decide_true, Bool.and_true, and_true]
          exact if_pos rfl
        · refine (if_neg (show ¬ a = (p.bay b).post from here)).trans (Eq.symm (if_neg ?_))
          simp [Ne.symm here]

theorem Part.standStep_wakes (p : Part) (k j : SlotId) (a : PostId) : (p.standStep k).wakes a j = p.wakes a j := by
  obtain ⟨slots, posts, stepped⟩ := p.standStep_rest k
  have record := p.standStep_record k j
  rw [stepped] at record ⊢
  unfold Part.wakes Part.recordIs
  rw [record]
  by_cases e : j = k
  · subst e
    rw [if_pos rfl]
    cases p.record j <;> rfl
  · rw [if_neg e]
    rfl

theorem Part.standWalk_rest (p : Part) (l : List SlotId) :
    ∃ slots posts, l.foldl Part.standStep p = { p with pool := { p.pool with slots := slots }, posts := posts } := by
  induction l generalizing p with
  | nil => exact ⟨p.pool.slots, p.posts, rfl⟩
  | cons k l ih =>
    obtain ⟨_, _, first⟩ := p.standStep_rest k
    obtain ⟨slots, posts, walked⟩ := ih (p.standStep k)
    rw [List.foldl_cons, walked, first]
    exact ⟨slots, posts, rfl⟩

/-- The posts that the walk wakes are those in STANDBY with a wake check due. -/
theorem Part.standWalk_post (p : Part) (l : List SlotId) (a : PostId) : (l.foldl Part.standStep p).post a =
    if (p.post a).link = .standby ∧ l.any (p.wakes a) = true then (p.post a).woken p.time else p.post a := by
  induction l generalizing p with
  | nil => simp
  | cons k l ih =>
    obtain ⟨_, _, rest⟩ := p.standStep_rest k
    have time : (p.standStep k).time = p.time := by rw [rest]
    have later : (p.standStep k).wakes a = p.wakes a := funext fun j => p.standStep_wakes k j a
    rw [List.foldl_cons, ih, later, time, p.standStep_post k a, List.any_cons]
    cases here : p.wakes a k with
    | false => simp
    | true => by_cases standby : (p.post a).link = .standby <;> simp [standby, Post.woken]

theorem Part.standWalk_record (p : Part) (k : SlotId) : (p.upcomingSlots.foldl Part.standStep p).record k =
    (p.record k).map (fun r => if r.state.upcoming = true then r.wakeMarked (p.clock, p.settings) else r) := by
  refine (Part.markWalk_record (mark := Record.wakeMarked) (fun q j => ?_) (fun q j i => q.standStep_record j i)
    (fun _ _ => rfl) p.upcomingSlots p k).trans (p.ite_mem_upcomingSlots k _)
  obtain ⟨_, _, stepped⟩ := q.standStep_rest j
  rw [stepped]

/-- The wake check of a record before engagement is due at a post (R164). -/
def Part.WakeDue (p : Part) (a : PostId) : Prop :=
  ∃ k r b, p.record k = some r ∧ r.state.upcoming = true ∧ r.bay = some b ∧ (p.bay b).post = a ∧
    p.reached r.windowStart p.settings.standbyLead = true

theorem Part.any_wakes : p.upcomingSlots.any (p.wakes a) = true ↔ p.WakeDue a := by
  simp only [List.any_eq_true, Part.mem_upcomingSlots, Part.wakes, Part.recordIs_iff, Bool.and_eq_true, Option.any_eq_true,
    decide_eq_true_eq]
  constructor
  · rintro ⟨k, ⟨r, hr, up⟩, r', hr', due, b, bay, post⟩
    cases hr.symm.trans hr'
    exact ⟨k, r, b, hr, up, bay, post, due⟩
  · rintro ⟨k, r, b, hr, up, bay, post, due⟩
    exact ⟨k, ⟨r, hr, up⟩, r, hr, due, b, bay, post⟩

end

/-- A changed standby lead marks the wake checks anew, wakes the posts in STANDBY that one due concerns, and has the idle
condition of every ACTIVE post evaluated (R161, R164, R175). -/
structure Part.WakesAnew (p q : Part) : Prop where
  rest : ∃ slots posts idle, q = { p with
    pool := { p.pool with slots := slots }, posts := posts, work := { p.work with idle := idle } }
  record (k : SlotId) : q.record k =
    (p.record k).map (fun r => if r.state.upcoming = true then r.wakeMarked (p.clock, p.settings) else r)
  woken (a : PostId) : (p.post a).link = .standby → p.WakeDue a → q.post a = (p.post a).woken p.time
  post (a : PostId) : ¬ ((p.post a).link = .standby ∧ p.WakeDue a) → q.post a = p.post a
  idle (a : PostId) : a ∈ p.work.idle ∨ (p.post a).link = .active → a ∈ q.work.idle

theorem Part.standbyLeadChanged_wakesAnew (p : Part) : p.WakesAnew p.standbyLeadChanged := by
  obtain ⟨slots, posts, walked⟩ := p.standWalk_rest p.upcomingSlots
  have record := p.standWalk_record
  have post := fun a => p.standWalk_post p.upcomingSlots a
  rw [p.standbyLeadChanged_eq]
  generalize p.upcomingSlots.foldl Part.standStep p = u at walked record post
  obtain ⟨idle, touched, mem⟩ := u.touchActive_eq
  rw [touched]
  refine ⟨⟨slots, posts, idle, by rw [walked]⟩, record, fun a standby due => ?_, fun a other => ?_, fun a h => ?_⟩
  · exact (post a).trans (if_pos ⟨standby, Part.any_wakes.2 due⟩)
  · exact (post a).trans (if_neg fun h => other ⟨h.1, Part.any_wakes.1 h.2⟩)
  · refine (mem a).2 (h.imp (fun old => by rw [walked]; exact old) fun active => ?_)
    rw [post a, if_neg (by simp [active])]
    exact active

end Sys2Proof.Machine

namespace Sys2Proof.Machine

/-! ### Changed weights (R144, R175) -/

/-- The Waiting List, and what the condition of a bay reads of each record. -/
def Part.lookout (p : Part) : List SlotId × (SlotId → Option (Bool × Bool × Bool)) :=
  (p.pool.waiting, fun k => (p.record k).map Record.look)

section
variable {p : Part} {k : SlotId} {g : Session → Session} {f : FeederId}

/-- A session change that keeps OVERSTAY moves no record and changes no bay's view of it. -/
theorem Part.updSession_lookout (overstay : ∀ x, p.session k = some x → x.phase.isOverstay = (g x).phase.isOverstay) :
    (p.updSession k g).lookout = p.lookout := by
  cases hr : p.record k with
  | none =>
    unfold Part.updSession
    rw [hr]
  | some r =>
    cases hx : r.session with
    | none =>
      unfold Part.updSession
      rw [hr]
      dsimp only
      rw [hx]
    | some x =>
      obtain ⟨r', state, bay, session, -, pool⟩ := Part.updSession_after hr hx g
      rw [Part.put_pool] at pool
      have home : p.pool.homeOf k = r'.home := by
        rw [Pool.homeOf_record hr]
        unfold Record.home
        rw [state, bay]
      have look : r'.look = r.look := by
        have same := overstay x (by rw [Part.session, hr]; exact hx)
        unfold Record.look
        rw [state, session, hx, Option.any_some, Option.any_some, same]
      unfold Part.lookout Part.record
      rw [pool]
      refine Prod.ext (Pool.members_put_home p.pool k r' .waiting home) (funext fun j => ?_)
      dsimp only
      rw [Pool.record_put]
      split
      next e =>
        rw [e, show p.pool.record k = some r from hr]
        exact congrArg some look
      next => rfl

theorem Part.givePhases_lookout {d : List Member} {admits : Member → Bool} {cause : PauseCause}
    (demands : ∀ m ∈ d, ∀ x, p.session m.slot = some x → x.phase.demands = true) :
    (p.givePhases d admits cause).lookout = p.lookout := by
  induction d generalizing p with
  | nil => rfl
  | cons m d ih =>
    have head := demands m List.mem_cons_self
    refine Eq.trans (ih fun n hn x hx => ?_) (Part.updSession_lookout fun x hx => ?_)
    · by_cases e : n.slot = m.slot
      · rw [e, Part.session_updSession] at hx
        obtain ⟨y, _, rfl⟩ := Option.map_eq_some_iff.1 hx
        exact y.shared_demands _ _
      · rw [Part.session, Part.record_updSession p m.slot _ _ e] at hx
        exact demands n (List.mem_cons_of_mem _ hn) x hx
    · rw [Phase.isOverstay_of_demands (head x hx), Session.shared_isOverstay]

theorem Part.share_lookout (p : Part) (f : FeederId) : (p.share f).lookout = p.lookout := by
  have limited : (p.limited f).lookout = p.lookout := (congrArg Part.lookout (p.limited_besides f) :)
  have phased : (p.phased f).lookout = (p.limited f).lookout := Part.givePhases_lookout fun m hm x hx => by
    obtain ⟨y, hy, demands⟩ := Part.demanding_demands hm
    rw [Part.session, Part.limited_record] at hx
    exact Option.some.inj (hy.symm.trans hx) ▸ demands
  exact phased.trans limited

theorem Part.recompute_lookout (p : Part) (f : FeederId) : (p.recompute f).lookout = p.lookout := by
  rcases p.recompute_cases f with e | ⟨e, -⟩
  · rw [e]
    rfl
  · rw [e, p.share_lookout]

end

/-- What recomputes leave alone: all but limits, feeders and the sessions of ENGAGED records. -/
structure Part.Reshared (p q : Part) : Prop where
  besides : { q with bays := p.bays, feeders := p.feeders, pool := p.pool } = p
  chain (b : BayId) : q.chain b = p.chain b
  standing (k : SlotId) : (q.record k).map Record.standing = (p.record k).map Record.standing
  bay (b : BayId) : { q.bay b with limit := (p.bay b).limit, penalty := (p.bay b).penalty } = p.bay b
  record (k : SlotId) (r : Record) : p.record k = some r → r.state ≠ .engaged → q.record k = some r
  lookout : q.lookout = p.lookout

namespace Part.Reshared

variable {p q u : Part}

theorem refl (p : Part) : p.Reshared p := ⟨rfl, fun _ => rfl, fun _ => rfl, fun _ => rfl, fun _ _ h _ => h, rfl⟩

theorem trans (h : p.Reshared q) (h' : q.Reshared u) : p.Reshared u where
  besides := (congrArg (fun v : Part => { v with bays := p.bays, feeders := p.feeders, pool := p.pool }) h'.besides).trans
    h.besides
  chain b := (h'.chain b).trans (h.chain b)
  standing k := (h'.standing k).trans (h.standing k)
  bay b := (congrArg (fun x : Bay => { x with limit := (p.bay b).limit, penalty := (p.bay b).penalty }) (h'.bay b)).trans
    (h.bay b)
  record k r hr idle := h'.record k r (h.record k r hr idle) idle
  lookout := h'.lookout.trans h.lookout

end Part.Reshared

theorem Part.recompute_reshared (p : Part) (f : FeederId) : p.Reshared (p.recompute f) where
  besides := (p.recompute_sharesOn f).besides
  chain := (p.recompute_sharesOn f).chain
  standing := (p.recompute_sharesOn f).standing
  bay := (p.recompute_sharesOn f).bay
  record k r hr idle := by
    refine ((p.recompute_sharesOn f).record k fun b _ occupant => ?_).trans hr
    obtain ⟨x, hx, engaged⟩ := Part.occupant_engaged occupant
    cases hr.symm.trans hx
    exact idle engaged
  lookout := p.recompute_lookout f

theorem Part.recomputeAll_reshared (p : Part) : p.Reshared p.recomputeAll := by
  unfold Part.recomputeAll
  generalize allFeeders = l
  induction l generalizing p with
  | nil => exact .refl p
  | cons f l ih => exact (p.recompute_reshared f).trans (ih _)

/-! ### What the effects of changed settings leave alone -/

/-- No effect of changed settings moves a record, or changes a bay, a post or a record so that a condition or an idle
condition would read it differently. -/
structure Part.Tuned (p q : Part) : Prop where
  settings : q.settings = p.settings
  clock : q.clock = p.clock
  time : q.time = p.time
  bay (b : BayId) : { q.bay b with limit := (p.bay b).limit, penalty := (p.bay b).penalty } = p.bay b
  serviceable (a : PostId) : (q.post a).serviceable = (p.post a).serviceable
  chain (b : BayId) : q.chain b = p.chain b
  start (k : SlotId) : (q.record k).map Record.windowStart = (p.record k).map Record.windowStart
  lookout : q.lookout = p.lookout
  blocked : q.work.blocked = p.work.blocked
  exchange : q.work.nextExchange = p.work.nextExchange

/-- A test of the start of a slot's record. -/
theorem Part.recordIs_start (p : Part) (test : Nat → Bool) (k : SlotId) :
    p.recordIs (fun r => test r.windowStart) k = ((p.record k).map Record.windowStart).any test := by
  unfold Part.recordIs
  cases p.record k <;> rfl

namespace Part.Tuned

variable {p q u : Part}

theorem refl (p : Part) : p.Tuned p :=
  ⟨rfl, rfl, rfl, fun _ => rfl, fun _ => rfl, fun _ => rfl, fun _ => rfl, rfl, rfl, rfl⟩

theorem trans (h : p.Tuned q) (h' : q.Tuned u) : p.Tuned u where
  settings := h'.settings.trans h.settings
  clock := h'.clock.trans h.clock
  time := h'.time.trans h.time
  bay b := (congrArg (fun x : Bay => { x with limit := (p.bay b).limit, penalty := (p.bay b).penalty }) (h'.bay b)).trans
    (h.bay b)
  serviceable a := (h'.serviceable a).trans (h.serviceable a)
  chain b := (h'.chain b).trans (h.chain b)
  start k := (h'.start k).trans (h.start k)
  lookout := h'.lookout.trans h.lookout
  blocked := h'.blocked.trans h.blocked
  exchange := h'.exchange.trans h.exchange

theorem now (h : p.Tuned q) : q.now = p.now := by
  unfold Part.now
  rw [h.clock]

theorem condition (h : p.Tuned q) (b : BayId) : (q.bay b).condition = (p.bay b).condition :=
  (congrArg Bay.condition (h.bay b) :)

theorem baysOfPost (h : p.Tuned q) (a : PostId) : q.baysOfPost a = p.baysOfPost a := by
  unfold Part.baysOfPost
  refine List.filter_congr fun b _ => ?_
  rw [show (q.bay b).configured = (p.bay b).configured from (congrArg Bay.configured (h.bay b) :),
    show (q.bay b).post = (p.bay b).post from (congrArg Bay.post (h.bay b) :)]

theorem conditionOf (h : p.Tuned q) (b : BayId) : q.conditionOf b = p.conditionOf b := by
  refine Part.conditionOf_congr (congrArg Bay.sight (h.bay b) :) ?_ (h.chain b)
    (fun k _ => congrFun (congrArg Prod.snd h.lookout) k)
  unfold Part.serviceable
  rw [show (q.bay b).post = (p.bay b).post from (congrArg Bay.post (h.bay b) :), h.serviceable]

theorem waiting (h : p.Tuned q) : q.pool.waiting = p.pool.waiting := congrArg Prod.fst h.lookout

/-- The idle conditions read the same. -/
theorem idleHolds (h : p.Tuned q) (a : PostId) : q.idleHolds a = p.idleHolds a := by
  have test (k : SlotId) : q.recordIs (fun r => decide (r.windowStart ≤ q.now + q.settings.standbyLead)) k =
      p.recordIs (fun r => decide (r.windowStart ≤ p.now + p.settings.standbyLead)) k := by
    rw [h.now, h.settings, q.recordIs_start (fun n => decide (n ≤ p.now + p.settings.standbyLead)),
      p.recordIs_start (fun n => decide (n ≤ p.now + p.settings.standbyLead)), h.start]
  unfold Part.idleHolds
  simp only [h.settings, h.baysOfPost, h.condition, h.chain]
  simp only [h.settings] at test
  simp only [test]

end Part.Tuned

section
variable {p q : Part}

/-- A view of records that does not see the marks of their checks. -/
theorem Part.view_of_marks {α : Type} {g : Record → Record} (view : Record → α) (blind : ∀ r, view r.unmarked = view r)
    (marks : ∀ r, (g r).unmarked = r.unmarked) {k : SlotId} (record : q.record k = (p.record k).map g) :
    (q.record k).map view = (p.record k).map view := by
  rw [record, Option.map_map]
  congr 1
  funext r
  rw [Function.comp, ← blind, marks, blind]

theorem Part.lookout_of_marks {g : Record → Record} (marks : ∀ r, (g r).unmarked = r.unmarked)
    (waiting : q.pool.waiting = p.pool.waiting) (record : ∀ k, q.record k = (p.record k).map g) :
    q.lookout = p.lookout :=
  Prod.ext waiting (funext fun k => Part.view_of_marks Record.look (fun _ => rfl) marks (record k))

theorem Part.LeadsAnew.tuned {order : List SlotId} (h : p.LeadsAnew q order) : p.Tuned q := by
  have marks (r : Record) : Record.unmarked (if r.state.upcoming = true then r.leadMarked (p.clock, p.settings) else r) =
      r.unmarked := by
    split <;> rfl
  have start (k : SlotId) := Part.view_of_marks Record.windowStart (fun _ => rfl) marks (h.record k)
  obtain ⟨slots, choices, rest⟩ := h.rest
  have lookout : q.lookout = p.lookout := Part.lookout_of_marks marks (by rw [rest]) h.record
  subst rest
  exact ⟨rfl, rfl, rfl, fun _ => rfl, fun _ => rfl, fun _ => rfl, start, lookout, rfl, rfl⟩

theorem Post.woken_serviceable {x : Post} (standby : x.link = .standby) (time : Nat) :
    (x.woken time).serviceable = x.serviceable := by
  unfold Post.serviceable
  rw [standby]
  rfl

theorem Part.WakesAnew.tuned (h : p.WakesAnew q) : p.Tuned q := by
  have marks (r : Record) : Record.unmarked (if r.state.upcoming = true then r.wakeMarked (p.clock, p.settings) else r) =
      r.unmarked := by
    split <;> rfl
  have start (k : SlotId) := Part.view_of_marks Record.windowStart (fun _ => rfl) marks (h.record k)
  have serviceable (a : PostId) : (q.post a).serviceable = (p.post a).serviceable := by
    by_cases wakes : (p.post a).link = .standby ∧ p.WakeDue a
    · rw [h.woken a wakes.1 wakes.2, Post.woken_serviceable wakes.1]
    · rw [h.post a wakes]
  obtain ⟨slots, posts, idle, rest⟩ := h.rest
  have lookout : q.lookout = p.lookout := Part.lookout_of_marks marks (by rw [rest]) h.record
  subst rest
  exact ⟨rfl, rfl, rfl, fun _ => rfl, serviceable, fun _ => rfl, start, lookout, rfl, rfl⟩

theorem Part.touchActive_tuned (p : Part) : p.Tuned p.touchActive := by
  obtain ⟨idle, touched, -⟩ := p.touchActive_eq
  rw [touched]
  exact ⟨rfl, rfl, rfl, fun _ => rfl, fun _ => rfl, fun _ => rfl, fun _ => rfl, rfl, rfl, rfl⟩

theorem Part.Reshared.tuned (h : p.Reshared q) : p.Tuned q where
  settings := (congrArg Part.settings h.besides :)
  clock := (congrArg Part.clock h.besides :)
  time := (congrArg Part.time h.besides :)
  bay := h.bay
  serviceable a := (congrArg (fun u : Part => (u.post a).serviceable) h.besides :)
  chain := h.chain
  start k := by
    have same := congrArg (Option.map Record.windowStart) (h.standing k)
    rwa [Option.map_map, Option.map_map] at same
  lookout := h.lookout
  blocked := (congrArg (fun u : Part => u.work.blocked) h.besides :)
  exchange := (congrArg (fun u : Part => u.work.nextExchange) h.besides :)

end

end Sys2Proof.Machine

namespace Sys2Proof.Machine

/-! ### The effects of the changed settings, one after the other (R175) -/

/-- The part with the new settings stored, and the last rollover day that they give (R25). -/
def Part.storing (p : Part) (x : Settings) : Part :=
  { p with
    settings := x
    clock := if x.rolloverMinute = p.settings.rolloverMinute then p.clock else
      { p.clock with lastDay := some (((p.now : Int) - x.rolloverMinute) / 1440) } }

/-- The part after the effect of the lead. -/
def Part.led (p : Part) (x : Settings) : Part :=
  if x.lead = p.settings.lead then p.storing x else (p.storing x).leadChanged

/-- The part after the effects of both leads. -/
def Part.stood (p : Part) (x : Settings) : Part :=
  if x.standbyLead = p.settings.standbyLead then p.led x else (p.led x).standbyLeadChanged

/-- The part after the effects of both leads and the idle time. -/
def Part.retimed (p : Part) (x : Settings) : Part :=
  if x.idleTime = p.settings.idleTime then p.stood x else (p.stood x).touchActive

/-- Two settings have the same weights. -/
def Settings.SameWeights (x y : Settings) : Prop := x.w1 = y.w1 ∧ x.w2 = y.w2 ∧ x.w3 = y.w3 ∧ x.w4 = y.w4

section
variable (p : Part) (x : Settings)

theorem Part.rolled_eq : (if p.settings.rolloverMinute ≠ x.rolloverMinute
    then Part.rolloverChanged { p with settings := x } else { p with settings := x }) = p.storing x := by
  unfold Part.storing
  by_cases same : x.rolloverMinute = p.settings.rolloverMinute
  · rw [if_neg (not_not.2 same.symm), if_pos same]
  · rw [if_pos (Ne.symm same), if_neg same]
    rfl

theorem Part.applySettings_of_same (same : x.SameWeights p.settings) : p.applySettings x = p.retimed x := by
  obtain ⟨w1, w2, w3, w4⟩ := same
  unfold Part.applySettings Part.retimed Part.stood Part.led
  dsimp only
  rw [p.rolled_eq]
  simp only [w1, w2, w3, w4, ne_eq, not_true_eq_false, decide_false, Bool.or_self, Bool.false_eq_true, if_false, ite_not,
    eq_comm (a := x.lead), eq_comm (a := x.standbyLead), eq_comm (a := x.idleTime)]

theorem Part.applySettings_of_changed (changed : ¬ x.SameWeights p.settings) :
    p.applySettings x = (p.retimed x).recomputeAll := by
  have weights : (decide (p.settings.w1 ≠ x.w1) || decide (p.settings.w2 ≠ x.w2) || decide (p.settings.w3 ≠ x.w3) ||
      decide (p.settings.w4 ≠ x.w4)) = true := by
    unfold Settings.SameWeights at changed
    simp only [ne_eq, Bool.or_eq_true, decide_eq_true_eq]
    omega
  unfold Part.applySettings Part.retimed Part.stood Part.led
  dsimp only
  rw [p.rolled_eq, if_pos weights]
  simp only [ne_eq, ite_not, eq_comm (a := x.lead), eq_comm (a := x.standbyLead), eq_comm (a := x.idleTime)]

/-- The last of the effects: the feeders are recomputed, or nothing is left to do. -/
theorem Part.applySettings_reshared : (p.retimed x).Reshared (p.applySettings x) := by
  by_cases same : x.SameWeights p.settings
  · rw [p.applySettings_of_same x same]
    exact .refl _
  · rw [p.applySettings_of_changed x same]
    exact Part.recomputeAll_reshared _

theorem Part.led_tuned : (p.storing x).Tuned (p.led x) := by
  unfold Part.led
  split
  · exact .refl _
  · obtain ⟨order, anew⟩ := (p.storing x).leadChanged_leadsAnew
    exact anew.tuned

theorem Part.stood_tuned : (p.led x).Tuned (p.stood x) := by
  unfold Part.stood
  split
  · exact .refl _
  · exact (Part.standbyLeadChanged_wakesAnew _).tuned

theorem Part.retimed_tuned : (p.stood x).Tuned (p.retimed x) := by
  unfold Part.retimed
  split
  · exact .refl _
  · exact Part.touchActive_tuned _

theorem Part.applySettings_tuned : (p.storing x).Tuned (p.applySettings x) :=
  (((p.led_tuned x).trans (p.stood_tuned x)).trans (p.retimed_tuned x)).trans (p.applySettings_reshared x).tuned

/-! ### The records before engagement -/

theorem Part.storing_reached (due lead : Nat) : (p.storing x).reached due lead = p.reached due lead := by
  unfold Part.storing Part.reached Part.now
  dsimp only
  split <;> rfl

/-- A record before engagement after the effects of the changed settings (R112, R164). -/
def Part.remarked (p : Part) (x : Settings) (r : Record) : Record :=
  { r with
    leadTaken := if x.lead = p.settings.lead then r.leadTaken else p.reached r.windowStart x.lead
    wakeTaken := if x.standbyLead = p.settings.standbyLead then r.wakeTaken
      else p.reached r.windowStart x.standbyLead }

variable {p x} {k : SlotId} {r : Record}

theorem Part.led_record (hr : p.record k = some r) (up : r.state.upcoming = true) : (p.led x).record k =
    some { r with leadTaken := if x.lead = p.settings.lead then r.leadTaken else p.reached r.windowStart x.lead } := by
  have stored : (p.storing x).record k = some r := hr
  unfold Part.led
  split
  · rw [stored]
  · obtain ⟨order, anew⟩ := (p.storing x).leadChanged_leadsAnew
    rw [anew.record, stored, Option.map_some, if_pos up, ← p.storing_reached x]
    rfl

theorem Part.stood_record (hr : p.record k = some r) (up : r.state.upcoming = true) :
    (p.stood x).record k = some (p.remarked x r) := by
  have led := Part.led_record (x := x) hr up
  unfold Part.stood Part.remarked
  split
  · exact led
  · have reached : (p.led x).reached r.windowStart x.standbyLead = p.reached r.windowStart x.standbyLead := by
      rw [Part.reached_eq, (p.led_tuned x).clock, ← Part.reached_eq, p.storing_reached]
    have settings : (p.led x).settings = x := (p.led_tuned x).settings
    rw [(Part.standbyLeadChanged_wakesAnew _).record, led, Option.map_some, if_pos up, ← reached]
    unfold Record.wakeMarked
    rw [settings]
    rfl

theorem Part.applySettings_record (hr : p.record k = some r) (up : r.state.upcoming = true) :
    (p.applySettings x).record k = some (p.remarked x r) := by
  refine (p.applySettings_reshared x).record k _ ?_ (RecState.upcoming_live up).1
  unfold Part.retimed
  split
  · exact Part.stood_record hr up
  · exact (congrArg (Pool.record · k) (Part.touchActive_pool _)).trans (Part.stood_record hr up)

/-! ### The work that is left to the completion -/

theorem Part.touchActive_errands (p : Part) : p.touchActive.work.errands = p.work.errands := by
  obtain ⟨idle, touched, -⟩ := p.touchActive_eq
  rw [touched]
  rfl

variable (p x)

/-- Only the lead leaves the completion more to do than idle conditions. -/
theorem Part.applySettings_errands : (p.applySettings x).work.errands = (p.led x).work.errands := by
  have weighed : (p.applySettings x).work = (p.retimed x).work :=
    (congrArg Part.work (p.applySettings_reshared x).besides :)
  rw [weighed]
  have stood : (p.stood x).work.errands = (p.led x).work.errands := by
    unfold Part.stood
    split
    · rfl
    · obtain ⟨_, _, _, rest⟩ := (Part.standbyLeadChanged_wakesAnew (p.led x)).rest
      rw [rest]
      rfl
  unfold Part.retimed
  split
  · exact stood
  · exact (Part.touchActive_errands _).trans stood

/-- The posts after the effects of the changed settings: the idle time and the weights write none. -/
theorem Part.applySettings_post (a : PostId) : (p.applySettings x).post a = (p.stood x).post a := by
  refine (congrArg (fun u : Part => u.post a) (p.applySettings_reshared x).besides :).trans ?_
  unfold Part.retimed
  split
  · rfl
  · obtain ⟨idle, touched, -⟩ := (p.stood x).touchActive_eq
    rw [touched]
    rfl

end

end Sys2Proof.Machine

namespace Sys2Proof.Machine

/-! ### The completion where the lead stays (R161, R164) -/

section
variable {p : Part} {x : Settings} {a : PostId} {k : SlotId} {r : Record}

/-- The posts after a completion that has idle conditions alone to evaluate (R161). -/
theorem Part.finish_idle_post (errands : p.work.errands = .empty) (a : PostId) : p.finish.post a =
    if a ∈ p.work.idle then (p.post a).idled (p.idleHolds a) p.clock.set (p.now + p.settings.idleTime) else p.post a := by
  rw [p.finish_idle (congrArg Work.blocked errands :) (congrArg Work.leads errands :) (congrArg Work.retry errands :)
    (congrArg Work.nextExchange errands :)]
  exact Part.evalIdles_post p.work.idle { p with work := .empty } a

theorem Part.finish_idle_record (errands : p.work.errands = .empty) (k : SlotId) : p.finish.record k = p.record k :=
  congrArg (Pool.record · k) (p.finish_idle_pool (congrArg Work.blocked errands :) (congrArg Work.leads errands :)
    (congrArg Work.retry errands :) (congrArg Work.nextExchange errands :)).1

theorem Post.idled_inactive {y : Post} (h : y.link ≠ .active) (holds set : Bool) (due : Nat) :
    y.idled holds set due = y := if_neg h

theorem Part.finish_idle_inactive (errands : p.work.errands = .empty) (h : (p.post a).link ≠ .active) :
    p.finish.post a = p.post a := by
  rw [Part.finish_idle_post errands]
  split
  · exact Post.idled_inactive h _ _ _
  · rfl

theorem Part.storing_idleHolds (p : Part) (x : Settings) (a : PostId) :
    (p.storing x).idleHolds a = Part.idleHolds { p with settings := x } a := by
  unfold Part.storing
  dsimp only
  split <;> rfl

theorem Part.storing_clock (p : Part) (x : Settings) :
    (p.storing x).clock.set = p.clock.set ∧ (p.storing x).now = p.now := by
  unfold Part.storing Part.now
  dsimp only
  split <;> exact ⟨rfl, rfl⟩

theorem Part.led_of_same (lead : x.lead = p.settings.lead) : p.led x = p.storing x := if_pos lead

theorem Part.applySettings_errands_of_same (lead : x.lead = p.settings.lead) (settled : p.work = .empty) :
    (p.applySettings x).work.errands = .empty := by
  rw [p.applySettings_errands x, Part.led_of_same lead]
  exact congrArg Work.errands settled

/-- A changed standby lead or idle time has the idle condition of every ACTIVE post evaluated (R161). -/
theorem Part.applySettings_idle (lead : x.lead = p.settings.lead) (active : (p.post a).link = .active)
    (changed : x.standbyLead ≠ p.settings.standbyLead ∨ x.idleTime ≠ p.settings.idleTime) :
    a ∈ (p.applySettings x).work.idle := by
  have work : (p.applySettings x).work = (p.retimed x).work :=
    (congrArg Part.work (p.applySettings_reshared x).besides :)
  have still : (p.led x).post a = p.post a := by
    rw [Part.led_of_same lead]
    rfl
  rw [work]
  unfold Part.retimed
  by_cases idle : x.idleTime = p.settings.idleTime
  · rw [if_pos idle]
    unfold Part.stood
    rw [if_neg (changed.resolve_right (not_not_intro idle))]
    exact (Part.standbyLeadChanged_wakesAnew _).idle a (.inr (by rw [still, active]))
  · rw [if_neg idle]
    obtain ⟨idles, touched, mem⟩ := (p.stood x).touchActive_eq
    rw [touched]
    refine (mem a).2 (.inr ?_)
    unfold Part.stood
    split
    · rw [still, active]
    · rw [(Part.standbyLeadChanged_wakesAnew _).post a (by simp [still, active]), still, active]

/-- A changed standby lead wakes the posts in STANDBY that a wake check concerns, and no effect writes another post
(R164). -/
theorem Part.applySettings_woken (lead : x.lead = p.settings.lead) (standby : (p.post a).link = .standby)
    (changed : x.standbyLead ≠ p.settings.standbyLead) (due : (p.storing x).WakeDue a) :
    (p.applySettings x).post a = (p.post a).woken p.time := by
  rw [p.applySettings_post x]
  unfold Part.stood
  rw [if_neg changed, Part.led_of_same lead]
  exact (Part.standbyLeadChanged_wakesAnew _).woken a standby due

theorem Part.applySettings_unwoken (lead : x.lead = p.settings.lead)
    (h : ¬ ((p.post a).link = .standby ∧ x.standbyLead ≠ p.settings.standbyLead ∧ (p.storing x).WakeDue a)) :
    (p.applySettings x).post a = p.post a := by
  rw [p.applySettings_post x]
  unfold Part.stood
  rw [Part.led_of_same lead]
  split
  · rfl
  · next changed => exact (Part.standbyLeadChanged_wakesAnew _).post a fun due => h ⟨due.1, changed, due.2⟩

/-- The wake checks that are due with the new standby lead (R164). -/
theorem Part.storing_wakeDue : (p.storing x).WakeDue a ↔ ∃ k r b, p.record k = some r ∧ r.state.upcoming = true ∧
    r.bay = some b ∧ (p.bay b).post = a ∧ p.reached r.windowStart x.standbyLead = true := by
  unfold Part.WakeDue
  simp only [p.storing_reached x]
  exact Iff.rfl

theorem Part.reached_iff {due lead : Nat} :
    p.reached due lead = true ↔ p.clock.set = true ∧ due ≤ p.now + lead := by
  simp [Part.reached]

/-- An ACTIVE post whose idle condition a changed setting has evaluated (R161). -/
theorem Part.applySettings_idled (lead : x.lead = p.settings.lead) (settled : p.work = .empty)
    (active : (p.post a).link = .active)
    (changed : x.standbyLead ≠ p.settings.standbyLead ∨ x.idleTime ≠ p.settings.idleTime) :
    (p.applySettings x).finish.post a = (p.post a).idled (Part.idleHolds { p with settings := x } a) p.clock.set
      (p.now + x.idleTime) := by
  have tuned := p.applySettings_tuned x
  have settings : (p.applySettings x).settings = x := tuned.settings
  rw [Part.finish_idle_post (Part.applySettings_errands_of_same lead settled),
    if_pos (Part.applySettings_idle lead active changed),
    Part.applySettings_unwoken lead (by simp [active]), tuned.idleHolds, p.storing_idleHolds, tuned.clock,
    (p.storing_clock x).1, tuned.now, (p.storing_clock x).2, settings]

end

end Sys2Proof.Machine

namespace Sys2Proof.Machine

/-! ### A bay that stays blocked through the lead checks and the retry (R112, R75) -/

/-- Changes that store no ENGAGED record and end none: lead checks and retries are made of them. -/
inductive Part.Shifts : Part → Part → Prop where
  | refl (p : Part) : Part.Shifts p p
  | trans {p q r : Part} : Part.Shifts p q → Part.Shifts q r → Part.Shifts p r
  | put (p : Part) (k : SlotId) (old r : Record) : p.record k = some old → old.state ≠ .engaged → r.state ≠ .engaged →
      Part.Shifts p (p.put k r)
  | derive (p : Part) (b : BayId) : Part.Shifts p (p.derive b)
  | besides {p q : Part} : q.bays = p.bays → (∀ a, (q.post a).serviceable = (p.post a).serviceable) →
      q.pool = p.pool → Part.Shifts p q

/-- The bay is blocked, and its condition derived anew would be (R8). -/
structure Part.Barred (p : Part) (b : BayId) : Prop where
  stored : (p.bay b).condition.blocking = true
  derived : (p.conditionOf b).blocking = true

section
variable {p q : Part} {b : BayId} {k s : SlotId} {r : Record}

theorem Part.Barred.shifts (h : p.Barred b) (shifts : p.Shifts q) : q.Barred b := by
  induction shifts with
  | refl => exact h
  | trans _ _ first second => exact second (first h)
  | put p k old r hr before after =>
    exact ⟨(congrArg (fun x : Bay => x.condition.blocking) (p.put_bay k r b)).trans h.stored,
      (Part.conditionOf_put_blocking hr before after).trans h.derived⟩
  | derive p j =>
    refine ⟨?_, (congrArg Condition.blocking (p.conditionOf_derive j b)).trans h.derived⟩
    rw [Part.derive, (p.deriveWith_sights true j b).2.2]
    split
    · next e => exact e ▸ h.derived
    · exact h.stored
  | @besides p q bays serviceable pool =>
    have bay : q.bay b = p.bay b := by
      unfold Part.bay
      rw [bays]
    refine ⟨bay ▸ h.stored, ?_⟩
    have same : q.conditionOf b = p.conditionOf b := by
      refine Part.conditionOf_congr (congrArg Bay.sight bay) ?_ (congrArg (fun u : Pool => u.chains.get b) pool)
        (fun s _ => congrArg (fun u : Pool => (u.record s).map Record.look) pool)
      unfold Part.serviceable
      rw [bay, serviceable]
    exact same ▸ h.derived

theorem Part.work_shifts (p : Part) (w : Work) : p.Shifts { p with work := w } := .besides rfl (fun _ => rfl) rfl

theorem Part.wakeBay_shifts (p : Part) (b : BayId) : p.Shifts (p.wakeBay b) :=
  .besides (p.wakeBay_bays b) (fun a => (Part.wakeBay_tidies (linked := true) p b).serviceable a) (p.wakeBay_pool b)

theorem Part.armChecks_shifts (hr : p.record k = some r) (idle : r.state ≠ .engaged) : p.Shifts (p.armChecks k) := by
  unfold Part.armChecks
  rw [hr]
  dsimp only
  have armed (l w : Bool) : p.Shifts (p.put k { r with leadTaken := l, wakeTaken := w }) := .put p k r _ hr idle idle
  have queued (l w d : Bool) : p.Shifts (if d then (p.put k { r with leadTaken := l, wakeTaken := w }).leadDue k
      else p.put k { r with leadTaken := l, wakeTaken := w }) := by
    cases d
    · exact armed l w
    · exact .trans (armed l w) (Part.work_shifts _ _)
  split
  · split
    · exact .trans (queued _ _ _) (Part.wakeBay_shifts _ _)
    · exact queued _ _ _
  · exact queued _ _ _

/-- The close of a record before engagement. -/
theorem Part.closeRecord_upcoming (hr : p.record k = some r) (up : r.state.upcoming = true) (bay : r.bay = some b)
    (result : Result) (by' : ClosedBy) : p.closeRecord k result by' =
      ((p.put k (r.closed (p.pool.handle k) p.now result by')).retryDue).derive b := by
  have live := (RecState.upcoming_live up).1
  unfold Part.closeRecord
  rw [hr]
  dsimp only
  rw [bay]
  simp only [RecState.upcoming_chained up, live, Bool.not_true, Bool.false_eq_true, if_false, decide_false, Bool.false_and]

theorem Part.closeRecord_shifts (hr : p.record k = some r) (up : r.state.upcoming = true) (bay : r.bay = some b)
    (result : Result) (by' : ClosedBy) : p.Shifts (p.closeRecord k result by') := by
  rw [Part.closeRecord_upcoming hr up bay]
  exact .trans (.put p k r _ hr (RecState.upcoming_live up).1 (show RecState.closing ≠ .engaged by decide))
    (.trans (Part.work_shifts _ _) (.derive _ b))

theorem Part.demote_shifts (hr : p.record k = some r) (up : r.state.upcoming = true) (bay : r.bay = some b) :
    p.Shifts (p.demote k) := by
  unfold Part.demote
  rw [hr]
  dsimp only
  split
  · rw [bay]
    exact .trans (.put p k r _ hr (RecState.upcoming_live up).1 (show RecState.waiting ≠ .engaged by decide))
      (.trans (Part.work_shifts _ _) (.derive _ b))
  · exact Part.closeRecord_shifts hr up bay _ _

theorem Record.relocated_state (r : Record) (c : BayId) (now : Nat) (live : r.state ≠ .engaged) :
    (r.relocated c now).state ≠ .engaged := by
  unfold Record.relocated
  dsimp only
  split
  · decide
  · exact live

theorem Part.relocate_shifts (hr : p.record k = some r) (up : r.state.upcoming = true) (bay : r.bay = some b) :
    p.Shifts (p.relocate k) := by
  have live := (RecState.upcoming_live up).1
  rw [Part.relocate_upcoming hr up bay]
  split
  · exact Part.closeRecord_shifts hr up bay _ _
  · split
    · next c _ =>
      have moved := r.relocated_state c p.now live
      refine .trans (.trans (.trans (.trans (.put p k r _ hr live moved) (.derive _ b)) (.derive _ c)) ?_)
        (Part.work_shifts _ _)
      refine Part.armChecks_shifts (r := r.relocated c p.now) ?_ moved
      rw [Part.derive_record, Part.derive_record, Part.record_put, if_pos rfl]
    · exact Part.demote_shifts hr up bay

theorem Part.leadCheck_shifts (p : Part) (k : SlotId) : p.Shifts (p.leadCheck k) := by
  by_cases h : ∃ r b, p.record k = some r ∧ r.state.upcoming = true ∧ r.bay = some b
  · obtain ⟨r, b, hr, up, bay⟩ := h
    rw [Part.leadCheck_upcoming hr up bay]
    split
    · exact Part.relocate_shifts hr up bay
    · exact .refl p
  · rw [Part.leadCheck_eq_self fun r b hr up bay => (h ⟨r, b, hr, up, bay⟩).elim]
    exact .refl p

theorem Part.tryWaiting_shifts (p : Part) (k : SlotId) : p.Shifts (p.tryWaiting k) := by
  cases hr : p.record k with
  | none =>
    unfold Part.tryWaiting
    rw [hr]
    exact .refl p
  | some r =>
    by_cases waits : r.state = .waiting
    · rw [Part.tryWaiting_waiting hr waits]
      split
      · next c _ =>
        have placed : (r.placed c (max r.windowStart p.now) p.now).state ≠ .engaged := by
          unfold Record.placed
          dsimp only
          split <;> decide
        refine .trans (.trans (.put p k r _ hr (by rw [waits]; decide) placed) (.derive _ c)) ?_
        refine Part.armChecks_shifts (r := r.placed c (max r.windowStart p.now) p.now) ?_ placed
        rw [Part.derive_record, Part.record_put, if_pos rfl]
      · exact .refl p
    · rw [Part.tryWaiting_other hr waits]
      exact .refl p

/-! ### A record that keeps off a blocked bay -/

/-- The record has closed, or stands elsewhere with its lead check due. -/
def Part.Shut (p : Part) (b : BayId) (k : SlotId) : Prop :=
  ∃ r, p.record k = some r ∧
    (r.state = .closing ∨ (r.bay ≠ some b ∧ p.reached r.windowStart p.settings.lead = true))

/-- The engine returns no blocked bay for a window that starts by now plus the lead (R75). -/
theorem Part.place_unblocked {c : Call} (h : p.place c = some b) (soon : c.start ≤ p.now + p.settings.lead) :
    (p.bay b).condition.blocking = false := by
  obtain ⟨-, -, -, out, blocked, -⟩ := Part.candidate_iff.1 (Part.passes_iff.1 (Part.place_passes h)).1
  obtain ⟨dark, -, intruded, overstay⟩ := blocked.resolve_left (Nat.not_lt.2 soon)
  exact Condition.blocking_eq_false out dark intruded overstay

theorem Part.Tidies.reached {linked : Bool} (h : Part.Tidies linked p q) (due lead : Nat) :
    q.reached due lead = p.reached due lead := by
  unfold Part.reached
  rw [h.clock, h.now_eq]

theorem Part.reached_max {m lead : Nat} (h : p.reached m lead = true) : p.reached (max m p.now) lead = true := by
  obtain ⟨set', soon⟩ := Part.reached_iff.1 h
  exact Part.reached_iff.2 ⟨set', by omega⟩

/-- Relocation of a record whose lead check is due keeps it off a blocked bay (R113, R114). -/
theorem Part.Barred.relocate {a : BayId} (h : p.Barred b) (hr : p.record k = some r) (up : r.state.upcoming = true)
    (bay : r.bay = some a) (due : p.reached r.windowStart p.settings.lead = true) : (p.relocate k).Shut b k := by
  have tidies := Part.relocate_tidies (linked := true) p k
  have later := Part.reached_max due
  unfold Part.Shut
  rw [tidies.settings]
  simp only [tidies.reached]
  rw [Part.relocate_upcoming hr up bay]
  split
  · exact ⟨_, Part.closeRecord_record hr _ (by decide), .inl rfl⟩
  · split
    · next c found =>
      have free : (p.bay c).condition.blocking = false := Part.place_unblocked found (Part.reached_iff.1 later).2
      have record : (((p.put k (r.relocated c p.now)).derive a).derive c).record k = some (r.relocated c p.now) := by
        rw [Part.derive_record, Part.derive_record, Part.record_put, if_pos rfl]
      refine ⟨_, (Part.retryDue_record _ _).trans (Part.armChecks_record record), .inr ⟨fun same => ?_, later⟩⟩
      cases (show some c = some b from same)
      exact nomatch free.symm.trans h.stored
    · by_cases room : p.pool.waiting.length < 32
      · exact ⟨_, Part.demote_record hr room, .inr ⟨nofun, later⟩⟩
      · rw [Part.demote_full hr (Nat.not_lt.1 room)]
        exact ⟨_, Part.closeRecord_record hr _ (by decide), .inl rfl⟩

/-- The record keeps off the blocked bay through a lead check of any record. -/
theorem Part.Shut.leadCheck (h : p.Shut b k) (barred : p.Barred b) (s : SlotId) : (p.leadCheck s).Shut b k := by
  have tidies := Part.leadCheck_tidies (linked := true) p s
  obtain ⟨r, hr, gone⟩ := h
  by_cases e : s = k
  · subst e
    by_cases moves : r.state.upcoming = true ∧ ∃ a, r.bay = some a ∧ (p.bay a).condition.blocking = true
    · obtain ⟨up, a, bay, blocked⟩ := moves
      have due := (gone.resolve_left (RecState.upcoming_live up).2).2
      rw [Part.leadCheck_upcoming hr up bay, if_pos blocked]
      exact barred.relocate hr up bay due
    · rw [Part.leadCheck_eq_self fun x a hx up bay => ?_]
      · exact ⟨r, hr, gone⟩
      · cases hr.symm.trans hx
        exact Bool.eq_false_iff.2 fun blocked => moves ⟨up, a, bay, blocked⟩
  · refine ⟨r, (p.leadCheck_record_ne (Ne.symm e)).trans hr, ?_⟩
    rw [tidies.settings, tidies.reached]
    exact gone

/-- The record keeps off the blocked bay through a retry of any record. -/
theorem Part.Shut.tryWaiting (h : p.Shut b k) (barred : p.Barred b) (s : SlotId) : (p.tryWaiting s).Shut b k := by
  have tidies := Part.tryWaiting_tidies (linked := true) p s
  obtain ⟨r, hr, gone⟩ := h
  unfold Part.Shut
  rw [tidies.settings]
  simp only [tidies.reached]
  by_cases e : s = k
  · subst e
    by_cases waits : r.state = .waiting
    · have due := (gone.resolve_left (by rw [waits]; decide)).2
      cases found : p.place (r.trial p.now) with
      | none =>
        rw [Part.tryWaiting_waiting hr waits, found]
        exact ⟨r, hr, gone⟩
      | some c =>
        have later := Part.reached_max due
        have free : (p.bay c).condition.blocking = false := Part.place_unblocked found (Part.reached_iff.1 later).2
        refine ⟨_, Part.tryWaiting_record hr waits found, .inr ⟨fun same => ?_, later⟩⟩
        cases (show some c = some b from same)
        exact nomatch free.symm.trans barred.stored
    · rw [Part.tryWaiting_other hr waits]
      exact ⟨r, hr, gone⟩
  · exact ⟨r, (Part.tryWaiting_record_ne (Ne.symm e)).trans hr, gone⟩

/-- The bay is blocked, and the record keeps off it. -/
structure Part.KeepsOff (p : Part) (b : BayId) (k : SlotId) : Prop where
  barred : p.Barred b
  shut : p.Shut b k

theorem Part.KeepsOff.work (h : p.KeepsOff b k) (w : Work) : Part.KeepsOff { p with work := w } b k :=
  ⟨h.barred.shifts (p.work_shifts w), h.shut⟩

theorem Part.KeepsOff.leadChecks (h : p.KeepsOff b k) (l : List SlotId) : (l.foldl Part.leadCheck p).KeepsOff b k := by
  induction l generalizing p with
  | nil => exact h
  | cons s l ih => exact ih ⟨h.barred.shifts (p.leadCheck_shifts s), h.shut.leadCheck h.barred s⟩

theorem Part.KeepsOff.retries (h : p.KeepsOff b k) (l : List SlotId) : (l.foldl Part.tryWaiting p).KeepsOff b k := by
  induction l generalizing p with
  | nil => exact h
  | cons s l ih => exact ih ⟨h.barred.shifts (p.tryWaiting_shifts s), h.shut.tryWaiting h.barred s⟩

theorem Part.KeepsOff.takeRetry (h : p.KeepsOff b k) : p.takeRetry.KeepsOff b k := by
  unfold Part.takeRetry
  split
  · exact (((h.retries p.pool.waiting).work _).leadChecks _).work _
  · exact h

/-- The lead checks of an event take a record off a blocked bay. -/
theorem Part.Barred.leadChecks (h : p.Barred b) (l : List SlotId) (mem : k ∈ l) (hr : p.record k = some r)
    (up : r.state.upcoming = true) (bay : r.bay = some b) (due : p.reached r.windowStart p.settings.lead = true) :
    (l.foldl Part.leadCheck p).KeepsOff b k := by
  induction l generalizing p with
  | nil => cases mem
  | cons s l ih =>
    have tidies := Part.leadCheck_tidies (linked := true) p s
    have barred := h.shifts (p.leadCheck_shifts s)
    rw [List.foldl_cons]
    by_cases e : s = k
    · subst e
      refine Part.KeepsOff.leadChecks ⟨barred, ?_⟩ l
      rw [Part.leadCheck_upcoming hr up bay, if_pos h.stored]
      exact h.relocate hr up bay due
    · refine ih barred ((List.mem_cons.1 mem).resolve_left (Ne.symm e)) ((p.leadCheck_record_ne (Ne.symm e)).trans hr) ?_
      rw [tidies.settings, tidies.reached]
      exact due

theorem Part.finish_record (p : Part) (k : SlotId) : p.finish.record k = p.takeBlocked.takeLeads.takeRetry.record k := by
  show p.takeBlocked.takeLeads.takeRetry.takeIdle.takeExchange.record k = _
  rw [Part.record, Part.takeExchange_pool, Part.takeIdle_pool, Part.record]

theorem Part.takeBlocked_none (blocked : p.work.blocked = []) : p.takeBlocked = p := by
  obtain ⟨time, clock, settings, bays, feeders, trips, posts, pool, lanes, rules, link, outstanding,
    ⟨blocked, leads, idle, retry, next⟩, choices⟩ := p
  cases blocked
  rfl

/-- An event whose lead checks take a record off a blocked bay ends with it closed or elsewhere (R112). -/
theorem Part.Barred.finish (h : p.Barred b) (blocked : p.work.blocked = []) (mem : k ∈ p.work.leads)
    (hr : p.record k = some r) (up : r.state.upcoming = true) (bay : r.bay = some b)
    (due : p.reached r.windowStart p.settings.lead = true) : p.finish.Away b k := by
  have led : p.takeLeads.KeepsOff b k :=
    Part.Barred.leadChecks (h.shifts (p.work_shifts { p.work with leads := [] })) p.work.leads mem hr up bay due
  obtain ⟨x, hx, gone⟩ := led.takeRetry.shut
  rw [← Part.takeBlocked_none blocked, ← Part.finish_record] at hx
  exact ⟨x, hx, gone.imp_right And.left⟩

end

end Sys2Proof.Machine

namespace Sys2Proof.Machine

/-! ### A record without a lead check to take -/

section
variable {p : Part} {b : BayId} {j k s : SlotId} {r : Record}

theorem Part.put_leads (p : Part) (s : SlotId) (r : Record) : (p.put s r).work.leads = p.work.leads :=
  Work.leads_of_errands (p.put_errands s r)

theorem Part.closeRecord_leads (hr : p.record k = some r) (up : r.state.upcoming = true) (bay : r.bay = some b)
    (result : Result) (by' : ClosedBy) : (p.closeRecord k result by').work.leads = p.work.leads := by
  rw [Part.closeRecord_upcoming hr up bay, Part.derive_leads]
  exact p.put_leads k _

theorem Part.demote_leads (hr : p.record k = some r) (up : r.state.upcoming = true) (bay : r.bay = some b) :
    (p.demote k).work.leads = p.work.leads := by
  unfold Part.demote
  rw [hr]
  dsimp only
  split
  · rw [bay]
    dsimp only
    rw [Part.derive_leads]
    exact p.put_leads k _
  · exact Part.closeRecord_leads hr up bay _ _

/-- Relocation leaves no lead check to take but of the record that it moves (R112). -/
theorem Part.relocate_leads (hr : p.record k = some r) (up : r.state.upcoming = true) (bay : r.bay = some b)
    (ne : j ≠ k) (absent : j ∉ p.work.leads) : j ∉ (p.relocate k).work.leads := by
  rw [Part.relocate_upcoming hr up bay]
  split
  · rwa [Part.closeRecord_leads hr up bay]
  · split
    · next c _ =>
      have record : (((p.put k (r.relocated c p.now)).derive b).derive c).record k = some (r.relocated c p.now) := by
        rw [Part.derive_record, Part.derive_record, Part.record_put, if_pos rfl]
      show j ∉ (Part.armChecks _ k).work.errands.leads
      rw [Part.armChecks_errands record]
      show j ∉ (((p.put k (r.relocated c p.now)).derive b).derive c).work.leads ++ _
      rw [Part.derive_leads, Part.derive_leads, Part.put_leads]
      split <;> simp [absent, ne]
    · rwa [Part.demote_leads hr up bay]

theorem Part.leadCheck_leads (ne : j ≠ k) (absent : j ∉ p.work.leads) : j ∉ (p.leadCheck k).work.leads := by
  by_cases h : ∃ r b, p.record k = some r ∧ r.state.upcoming = true ∧ r.bay = some b
  · obtain ⟨r, b, hr, up, bay⟩ := h
    rw [Part.leadCheck_upcoming hr up bay]
    split
    · exact Part.relocate_leads hr up bay ne absent
    · exact absent
  · rwa [Part.leadCheck_eq_self fun r b hr up bay => (h ⟨r, b, hr, up, bay⟩).elim]

theorem Part.Unlisted.leadChecks (h : p.Unlisted k r) (l : List SlotId) (absent : k ∉ l) :
    (l.foldl Part.leadCheck p).Unlisted k r := by
  induction l generalizing p with
  | nil => exact h
  | cons s l ih =>
    obtain ⟨ne, later⟩ := not_or.1 (mt List.mem_cons.2 absent)
    exact ih ⟨(p.leadCheck_record_ne ne).trans h.record, h.state, Part.leadCheck_leads ne h.leads⟩ later

/-- The completion of an event whose lead checks and retry have nothing to do with a record leaves it. -/
theorem Part.Unlisted.finish (h : p.Unlisted k r) (blocked : p.work.blocked = []) : p.finish.record k = some r := by
  have led : p.takeLeads.Unlisted k r :=
    Part.Unlisted.leadChecks (p := { p with work := { p.work with leads := [] } })
      ⟨h.record, h.state, List.not_mem_nil⟩ p.work.leads h.leads
  rw [Part.finish_record, Part.takeBlocked_none blocked]
  exact led.takeRetry

end

/-! ### The completion where the lead has changed (R112, R175) -/

section
variable {p : Part} {x : Settings} {k : SlotId} {r : Record} {b : BayId}

/-- A changed lead has lead checks to take, of the records due on a blocked bay in a free order, and a retry. -/
theorem Part.led_anew (changed : x.lead ≠ p.settings.lead) : ∃ order, (p.storing x).LeadsAnew (p.led x) order := by
  unfold Part.led
  rw [if_neg changed]
  exact (p.storing x).leadChanged_leadsAnew

/-- What a changed lead leaves the completion to do. -/
theorem Part.LeadsAnew.errands {order : List SlotId} (h : (p.storing x).LeadsAnew (p.led x) order)
    (settled : p.work = .empty) :
    (p.applySettings x).work.errands = { Work.empty with leads := order, retry := true } := by
  obtain ⟨slots, choices, rest⟩ := h.rest
  have work : (p.storing x).work = .empty := settled
  rw [p.applySettings_errands x, rest]
  dsimp only
  rw [work]
  rfl

/-- The records that a changed lead has lead checks to take of. -/
theorem Part.LeadsAnew.mem_iff {q : Part} {order : List SlotId} (h : (p.storing x).LeadsAnew q order) (k : SlotId) :
    k ∈ order ↔ ∃ r b, p.record k = some r ∧ r.state.upcoming = true ∧ r.bay = some b ∧
      p.reached r.windowStart x.lead = true ∧ (p.bay b).condition.blocking = true := by
  refine (h.mem k).trans ?_
  unfold Part.LeadDue
  simp only [p.storing_reached x]
  exact Iff.rfl

theorem Part.storing_conditionOf (p : Part) (x : Settings) (b : BayId) : (p.storing x).conditionOf b = p.conditionOf b :=
  Part.conditionOf_congr rfl rfl rfl fun _ _ => rfl

theorem Part.applySettings_barred (current : p.conditionsCurrent) (blocked : (p.bay b).condition.blocking = true) :
    (p.applySettings x).Barred b := by
  have tuned := p.applySettings_tuned x
  refine ⟨?_, ?_⟩
  · rw [tuned.condition]
    exact blocked
  · rw [tuned.conditionOf, p.storing_conditionOf, ← current b]
    exact blocked

theorem Part.applySettings_reached (due : Nat) : (p.applySettings x).reached due (p.applySettings x).settings.lead =
    p.reached due x.lead := by
  have tuned := p.applySettings_tuned x
  rw [tuned.settings, Part.reached_eq, tuned.clock, ← Part.reached_eq, p.storing_reached]
  rfl

/-- A changed lead takes a record off a blocked bay where its lead check is due (R112). -/
theorem Part.applySettings_away (changed : x.lead ≠ p.settings.lead) (settled : p.work = .empty)
    (current : p.conditionsCurrent) (hr : p.record k = some r) (up : r.state.upcoming = true) (bay : r.bay = some b)
    (due : p.reached r.windowStart x.lead = true) (blocked : (p.bay b).condition.blocking = true) :
    (p.applySettings x).finish.Away b k := by
  obtain ⟨order, anew⟩ := Part.led_anew changed
  have errands := anew.errands settled
  refine (Part.applySettings_barred current blocked).finish (congrArg Work.blocked errands :) ?_
    (Part.applySettings_record hr up) up bay ?_
  · rw [show (p.applySettings x).work.leads = order from (congrArg Work.leads errands :)]
    exact (anew.mem_iff k).2 ⟨r, b, hr, up, bay, due, blocked⟩
  · rw [Part.applySettings_reached]
    exact due

/-- A changed lead leaves any other record before engagement on its bay, and marks its lead check anew (R112). -/
theorem Part.applySettings_keeps (changed : x.lead ≠ p.settings.lead) (settled : p.work = .empty)
    (hr : p.record k = some r) (up : r.state.upcoming = true) (bay : r.bay = some b)
    (h : ¬ (p.reached r.windowStart x.lead = true ∧ (p.bay b).condition.blocking = true)) :
    (p.applySettings x).finish.record k = some (p.remarked x r) := by
  obtain ⟨order, anew⟩ := Part.led_anew changed
  have errands := anew.errands settled
  have waits : r.state ≠ .waiting := by
    intro waits
    rw [waits] at up
    cases up
  refine Part.Unlisted.finish ⟨Part.applySettings_record hr up, waits, ?_⟩ (congrArg Work.blocked errands :)
  rw [show (p.applySettings x).work.leads = order from (congrArg Work.leads errands :), anew.mem_iff]
  rintro ⟨r', b', hr', _, bay', due, blocked⟩
  cases hr.symm.trans hr'
  cases bay.symm.trans bay'
  exact h ⟨due, blocked⟩

end

end Sys2Proof.Machine

namespace Sys2Proof.Machine

/-! ## O18: PART-SET (R174, R175) -/

theorem Settings.inRange_iff (x : Settings) : x.inRange = true ↔
    x.guard ≤ 30 ∧ x.lead ≤ 60 ∧ 1 ≤ x.verifyWindow ∧ x.verifyWindow ≤ 15 ∧
      5 ≤ x.defaultGrace ∧ x.defaultGrace ≤ 60 ∧ x.earlyAllowance ≤ 60 ∧ 5 ≤ x.standbyLead ∧ x.standbyLead ≤ 120 ∧
      x.idleTime ≤ 120 ∧ 1 ≤ x.w1 ∧ x.w1 ≤ 15 ∧ 1 ≤ x.w2 ∧ x.w2 ≤ 15 ∧ 1 ≤ x.w3 ∧ x.w3 ≤ 15 ∧ 1 ≤ x.w4 ∧ x.w4 ≤ 15 ∧
      5 ≤ x.recoveryDelay ∧ x.recoveryDelay ≤ 600 ∧ x.rolloverMinute ≤ 1439 := by
  simp only [Settings.inRange, Bool.and_eq_true, decide_eq_true_eq, and_assoc]

theorem Part.someChained_iff (p : Part) : p.someChained = true ↔ ∃ b : BayId, p.chain b ≠ [] := by
  simp [Part.someChained, allBays, allBelow]

section
variable {p : Part} {x : Settings}

theorem Part.partSetRequest_range (h : ¬ x.inRange = true) : p.partSetRequest x = (⟨.range, []⟩, p) := by
  simp [Part.partSetRequest, h, Status.alone]

theorem Part.partSetRequest_conflict (inRange : x.inRange = true) (guard : x.guard ≠ p.settings.guard)
    (chained : ∃ b : BayId, p.chain b ≠ []) : p.partSetRequest x = (⟨.conflict, []⟩, p) := by
  simp [Part.partSetRequest, inRange, guard, p.someChained_iff.2 chained, Status.alone]

theorem Part.partSetRequest_ok (inRange : x.inRange = true)
    (free : ¬ (x.guard ≠ p.settings.guard ∧ ∃ b : BayId, p.chain b ≠ [])) :
    p.partSetRequest x = (⟨.ok, []⟩, p.applySettings x) := by
  have passes : (decide (x.guard ≠ p.settings.guard) && p.someChained) = false := by
    rw [← p.someChained_iff] at free
    simpa using free
  unfold Part.partSetRequest
  rw [inRange, passes]
  rfl

/-! ### Effects that are missing where their settings stay -/

theorem Part.retimed_of_same (standby : x.standbyLead = p.settings.standbyLead) (idle : x.idleTime = p.settings.idleTime) :
    p.retimed x = p.led x := by
  rw [Part.retimed, if_pos idle, Part.stood, if_pos standby]

theorem Part.storing_of_same (rollover : x.rolloverMinute = p.settings.rolloverMinute) :
    p.storing x = { p with settings := x } := by
  rw [Part.storing, if_pos rollover]

theorem Part.retimed_of_weights (lead : x.lead = p.settings.lead) (standby : x.standbyLead = p.settings.standbyLead)
    (idle : x.idleTime = p.settings.idleTime) (rollover : x.rolloverMinute = p.settings.rolloverMinute) :
    p.retimed x = { p with settings := x } := by
  rw [Part.retimed_of_same standby idle, Part.led_of_same lead, Part.storing_of_same rollover]

end

/-! ### What an accepted request leaves -/

section
variable {p : Part} {x : Settings}

theorem Part.applySettings_finish_settings (p : Part) (x : Settings) : (p.applySettings x).finish.settings = x :=
  (Part.finish_tidies _).settings.trans (p.applySettings_tuned x).settings

theorem Part.applySettings_finish_clock (p : Part) (x : Settings) : (p.applySettings x).finish.clock =
    if x.rolloverMinute = p.settings.rolloverMinute then p.clock else
      { p.clock with lastDay := some (((p.now : Int) - x.rolloverMinute) / 1440) } :=
  (Part.finish_tidies _).clock.trans (p.applySettings_tuned x).clock

theorem Part.remarked_lead (changed : x.lead ≠ p.settings.lead) (r : Record) :
    (p.remarked x r).leadTaken = true ↔ p.clock.set = true ∧ r.windowStart ≤ p.now + x.lead := by
  rw [← Part.reached_iff]
  unfold Part.remarked
  rw [if_neg changed]

theorem Part.remarked_wake (changed : x.standbyLead ≠ p.settings.standbyLead) (r : Record) :
    (p.remarked x r).wakeTaken = true ↔ p.clock.set = true ∧ r.windowStart ≤ p.now + x.standbyLead := by
  rw [← Part.reached_iff]
  unfold Part.remarked
  rw [if_neg changed]

theorem Part.remarked_of_lead (lead : x.lead = p.settings.lead) (r : Record) :
    ({ p.remarked x r with wakeTaken := r.wakeTaken } : Record) = r := by
  unfold Part.remarked
  rw [if_pos lead]

theorem Part.remarked_of_leads (lead : x.lead = p.settings.lead) (standby : x.standbyLead = p.settings.standbyLead)
    (r : Record) : p.remarked x r = r := by
  unfold Part.remarked
  rw [if_pos lead, if_pos standby]

/-- With the lead alone changed, the marks of the lead checks and the work that is left are all that changes (R175). -/
theorem Part.LeadsAnew.alone {order : List SlotId} {q : Part} (h : (p.storing x).LeadsAnew q order)
    (settled : p.work = .empty) (rollover : x.rolloverMinute = p.settings.rolloverMinute) :
    ({ q with settings := p.settings, pool := p.pool, choices := p.choices, work := p.work } : Part) = p ∧
    q.work = { Work.empty with leads := order, retry := true } ∧
    ∀ k, q.record k = (p.record k).map (fun r =>
      if r.state.upcoming = true then { r with leadTaken := p.reached r.windowStart x.lead } else r) := by
  have record := h.record
  obtain ⟨slots, choices, rest⟩ := h.rest
  rw [Part.storing_of_same rollover] at record rest
  refine ⟨?_, ?_, record⟩
  · rw [rest]
  · rw [rest]
    dsimp only
    rw [settled]
    rfl

/-- An ACTIVE post whose idle condition a changed setting has evaluated, by its idle timer (R161). -/
theorem Post.idled_running {y : Post} {holds set : Bool} {due m : Nat} (active : y.link = .active)
    (running : y.timer = .idle m) : y.idled holds set due = if holds = true then y else { y with timer := .stopped } := by
  unfold Post.idled
  rw [if_pos active, running]

theorem Post.idled_stopped {y : Post} {holds set : Bool} {due : Nat} (active : y.link = .active)
    (stopped : ∀ m, y.timer ≠ .idle m) : y.idled holds set due =
      if holds = true ∧ set = true then { y with timer := .idle due } else y := by
  unfold Post.idled
  rw [if_pos active]
  cases timer : y.timer with
  | idle m => exact absurd timer (stopped m)
  | stopped | prepare | wake => simp only [Bool.and_eq_true]

end

section
variable {s : State} {f : Frame} {rest : List Frame} {x : Settings} {a : Answer} {p : Part}

theorem execPartSet_gives (asks : s.Asks .partSet x.bytes f rest) (read : Rd.partSet.all x.bytes = some x)
    (h : s.part.partSetRequest x = (a, p)) : exec .partSet s = .next (s.replied rest f a p.finish) :=
  State.serve_gives asks (mine := any) rfl read h

end

/-- Settles O18: the effects of the changed settings one after the other, then their completion, which has lead checks and
a retry to take where the lead has changed, and idle conditions alone otherwise. -/
theorem partSetStoresAllOrNothing : Obligations.PartSetStoresAllOrNothing := by
  unfold Obligations.PartSetStoresAllOrNothing
  intro s f rest x settled asks g1 g2 g3 g4 g5 g6 g7 g8 g9 g10 g11 g12 g13
  have gives {a : Answer} {p : Part} (h : s.part.partSetRequest x = (a, p)) :=
    execPartSet_gives asks (Rd.partSet_reads g1 g2 g3 g4 g5 g6 g7 g8 g9 g10 g11 g12 g13).all h
  have unchanged := s.part.finish_of_settled settled
  dsimp only
  rw [← x.inRange_iff]
  refine ⟨fun out => ?range, fun inRange conflict => ?conflict, fun inRange free =>
    ⟨_, gives (Part.partSetRequest_ok inRange free), s.part.applySettings_finish_settings x,
      s.part.applySettings_finish_clock x, fun changed _ current k r b hr up bay => ?records, fun changed => ?leads,
      fun lead => ⟨fun k r hr up => ?wakes, fun q standby => ?standby, fun q active changed => ?active⟩⟩,
    fun inRange free lead standby idle rollover changed => ?weights,
    fun inRange free lead standby idle w1 w2 w3 w4 rollover => ?nothing⟩
  case range =>
    rw [gives (Part.partSetRequest_range out), unchanged]
  case conflict =>
    rw [gives (Part.partSetRequest_conflict inRange conflict.1 conflict.2), unchanged]
  case records =>
    rw [← Condition.blocking_iff, ← Part.reached_iff]
    refine ⟨fun due blocked => Part.applySettings_away changed settled current hr up bay due blocked, fun other =>
      ⟨_, Part.applySettings_keeps changed settled hr up bay other, ?_, rfl⟩⟩
    rw [Part.reached_iff]
    exact Part.remarked_lead changed r
  case leads =>
    obtain ⟨order, anew⟩ := Part.led_anew changed
    have errands := anew.errands settled
    refine ⟨order, s.part.applySettings x, rfl, (s.part.applySettings_tuned x).settings, (congrArg Work.blocked errands :),
      (congrArg Work.leads errands :), (congrArg Work.retry errands :), (s.part.applySettings_tuned x).waiting, anew.nodup,
      anew.mem_iff, fun standby idle w1 w2 w3 w4 rollover => ?_⟩
    rw [s.part.applySettings_of_same x ⟨w1, w2, w3, w4⟩, Part.retimed_of_same standby idle]
    exact anew.alone settled rollover
  case wakes =>
    refine ⟨s.part.remarked x r, ?_, Part.remarked_of_lead lead r, fun changed => Part.remarked_wake changed r,
      fun standby => Part.remarked_of_leads lead standby r⟩
    rw [Part.finish_idle_record (Part.applySettings_errands_of_same lead settled)]
    exact Part.applySettings_record hr up
  case standby =>
    have errands := Part.applySettings_errands_of_same lead settled
    simp only [← Part.reached_iff, ← Part.storing_wakeDue]
    refine ⟨fun ⟨changed, due⟩ => ?_, fun still => ?_⟩
    · have woken := Part.applySettings_woken lead standby changed due
      rw [Part.finish_idle_inactive errands (by rw [woken]; exact (show LinkState.waking ≠ .active by decide)), woken]
      rfl
    · have same := Part.applySettings_unwoken lead fun h => still h.2
      rw [Part.finish_idle_inactive errands (by rw [same, standby]; decide), same]
  case active =>
    rw [Part.applySettings_idled lead settled active changed]
    exact ⟨fun due running => Post.idled_running active running, fun stopped => Post.idled_stopped active stopped⟩
  case weights =>
    have other : ¬ x.SameWeights s.part.settings := fun ⟨w1, w2, w3, w4⟩ => by simp [w1, w2, w3, w4] at changed
    rw [gives (Part.partSetRequest_ok inRange free), s.part.applySettings_of_changed x other,
      Part.retimed_of_weights lead standby idle rollover]
    rfl
  case nothing =>
    rw [gives (Part.partSetRequest_ok inRange free), s.part.applySettings_of_same x ⟨w1, w2, w3, w4⟩,
      Part.retimed_of_weights lead standby idle rollover]
    exact congrArg (fun p => Host.Outcome.next (s.replied rest f ⟨.ok, []⟩ p))
      (Part.finish_of_settled { s.part with settings := x } settled)

end Sys2Proof.Machine
